-- ==== Sys2Proof/Word.lean ====
section
/-! DEFINITION. The word types of the machine and their plainest arithmetic (00_scope.md R3). -/

namespace Sys2Proof

/-- One byte. -/
abbrev Byte := BitVec 8
/-- A 32-bit register: lane, scalar, constant or mask (R18 Table 1.5). -/
abbrev Word := BitVec 32
/-- A 64-bit value: an instruction word, a register pair or a device register. -/
abbrev DWord := BitVec 64

/-- Bits `[lo + w - 1 : lo]` of a number, as an unsigned value (R8 Table 0.2). -/
def bitsOf (x lo w : Nat) : Nat := x / 2 ^ lo % 2 ^ w

/-- Whether bit `i` of a number is set. -/
def bitOf (x i : Nat) : Bool := x.testBit i

/-- The number of a Boolean. -/
def b2n (b : Bool) : Nat := if b then 1 else 0

/-- The low half of a pair. -/
def lo32 (x : DWord) : Word := x.extractLsb' 0 32
/-- The high half of a pair. -/
def hi32 (x : DWord) : Word := x.extractLsb' 32 32
/-- A pair from its high and low halves (R35: the low half in the even register). -/
def pair64 (hi lo : Word) : DWord := hi ++ lo

/-- A signed field of `w` bits as an integer. -/
def sextNat (x w : Nat) : Int := if 2 ^ (w - 1) ≤ x then (x : Int) - (2 ^ w : Nat) else x

/-- The lanes of a mask in ascending order (R8: "in ascending lane order"). -/
def lanesOf (m : Word) : List Nat := (List.range 32).filter (fun i => m.getLsbD i)

/-- The mask of a list of lanes. -/
def maskOf (ls : List Nat) : Word := BitVec.ofNat 32 (ls.foldl (fun x i => x ||| 2 ^ i) 0)

/-- A mask given by a Boolean for each lane. -/
def maskBy (f : Nat → Bool) : Word := maskOf ((List.range 32).filter f)

/-- The number of set bits among the low `n` bits. -/
def popNat (x n : Nat) : Nat := ((List.range n).filter (fun i => x.testBit i)).length

end Sys2Proof
end

