-- ==== Sys2Proof/Syntax.lean ====
section
/-! DEFINITION. The instructions and device events of spec/opcode_table.json: one constructor per
row (02_words_and_assembly.md; 95_what_each_step_holds.md). -/

namespace Sys2Proof

/-- A lane register field (R35). -/
abbrev Reg := BitVec 8
/-- A mask register m0 to m15 (R40). -/
abbrev MReg := BitVec 4
/-- A scalar source or destination code (R36, R37). -/
abbrev SCode := BitVec 7
/-- A buffer record b0 to b31 (R49). -/
abbrev BufR := BitVec 5
/-- The barrier field: wb0-15, gb 16-19, lb 20-23; 63 in a copy for no counting (R49). -/
abbrev BarR := BitVec 6

/-- The privilege levels (R6 Table 0.1). -/
inductive Level where
  | user | supervisor | hypervisor
  deriving DecidableEq, Repr

/-- The number of a level, rising with privilege (R29). -/
def Level.rank : Level → Nat
  | .user => 0
  | .supervisor => 1
  | .hypervisor => 2

/-- The 28 type codes of Table 2.4, in code order (R38). -/
inductive Ty where
  | b32 | b64 | s8 | s16 | s32 | s64 | n8 | n16 | n32 | n64 | s4 | n4 | f32 | f16 | bf16 | e4m3
  | e5m2 | e2m1 | e8m0 | s8x4 | n8x4 | s4x8 | n4x8 | f16x2 | bf16x2 | e4m3x4 | e5m2x4 | e2m1x8
  deriving DecidableEq, Repr

/-- The rounding modes of R39, in code order. -/
inductive Rnd where
  | rne | rz | ru | rd | rna | sr
  deriving DecidableEq, Repr

/-- The rounding modes of a floating-point immediate form (Table 5.8). -/
inductive Rnd4 where
  | rne | rz | ru | rd
  deriving DecidableEq, Repr

/-- The conditions of an S word, in code order (R47). -/
inductive SCond where
  | always | eq | ne | lt | ge | le | gt | lo | hs | ls | hi | mi | pl | vs | vc
  deriving DecidableEq, Repr

/-- The selectors of `ssel`, in code order (R69). -/
inductive SSel where
  | eq | ne | lt | ge | lo | hs | le | gt
  deriving DecidableEq, Repr

/-- The second scalar operand: an immediate (I = 1) or a scalar source code (R46). -/
inductive Op2 where
  | imm (v : Word)
  | code (c : SCode)
  deriving DecidableEq, Repr

/-- The lane of `sread` (R71). -/
inductive LaneSel where
  | imm (l : BitVec 5)
  | code (c : SCode)
  deriving DecidableEq, Repr

/-- The entry of `spawn`: a label offset in words or a scalar code (Table 7.3). -/
inductive SpawnEntry where
  | label (off : BitVec 20)
  | code (c : SCode)
  deriving DecidableEq, Repr

/-- Integer compare conditions, in sub-op order (R100). -/
inductive ICond where
  | eq | ne | lt | le | gt | ge
  deriving DecidableEq, Repr

/-- The conditions of the immediate compares, in variant order (Tables 4.2, 5.8). -/
inductive ImmCond where
  | eq | ne | lt | ge
  deriving DecidableEq, Repr

/-- Floating-point compare conditions, in sub-op order (Table 5.4). -/
inductive FCond where
  | eq | ne | lt | le | gt | ge | un | ord
  deriving DecidableEq, Repr

/-- The sign modifiers of an F word: negate a, absolute a, negate b, negate c (Table 2.5). -/
structure Signs where
  na : Bool
  aa : Bool
  nb : Bool
  nc : Bool
  deriving DecidableEq, Repr

/-- Reduction and scan operations, in code order (R140). -/
inductive GOp where
  | add | min | max | and | or | xor
  deriving DecidableEq, Repr

/-- The P opcodes of Table 2.12, in code order: 0x00-0x15 then 0x40-0x48. -/
inductive POp where
  | addN32 | subN32 | mulN32 | minS32 | maxS32 | minN32 | maxN32 | and | or | xor | andn | shl | shr
  | sar | rot | mov | addsS32 | subsS32 | addsS8x4 | addsN8x4 | subsS8x4 | subsN8x4
  | fadd | fsub | fmul | fmin | fmax | fminn | fmaxn | faddF16x2 | faddBf16x2
  deriving DecidableEq, Repr

/-- One half of a P word (Table 2.7). -/
structure PHalf where
  op : POp
  m  : BitVec 3
  d  : BitVec 7
  b  : BitVec 7
  rm : Rnd
  nb : Bool
  deriving DecidableEq, Repr

/-- Fence modes, in code order (R49). -/
inductive FenceMode where
  | rw | r | w | io
  deriving DecidableEq, Repr

/-- The operands of a record form (Table 8.6). -/
structure RecOp where
  m   : MReg
  a   : Reg
  b   : Reg
  buf : BufR
  rep : Option MReg
  off : BitVec 15
  deriving DecidableEq, Repr

/-- The operands of `lds`, `sts` and `ldacc` (Table 8.6). -/
structure ScrOp where
  m   : MReg
  a   : Reg
  b   : Reg
  off : BitVec 15
  deriving DecidableEq, Repr

/-- The operands of `atom` and `red` (Table 11.1). -/
structure AtomRec where
  m   : MReg
  a   : Reg
  b   : Reg
  buf : BufR
  rep : Option MReg
  off : BitVec 11
  deriving DecidableEq, Repr

/-- The operands of `atoms` and `reds` (Table 11.1). -/
structure AtomScr where
  m   : MReg
  a   : Reg
  b   : Reg
  off : BitVec 11
  deriving DecidableEq, Repr

/-- The atomic operations, in code order (Table 2.16). -/
inductive AOp where
  | add | sub | min | max | and | or | xor | exch | cas | incWrap | decWrap | fadd | fmin | fmax
  deriving DecidableEq, Repr

/-- The size operand of `cvdecl` (R281). -/
inductive CvSize where
  | imm (n : BitVec 11)
  | reg (b : Reg)
  deriving DecidableEq, Repr

/-- The operands of a lane copy (Table 13.5). -/
structure CpaOp where
  m   : MReg
  a   : Reg
  b   : Reg
  buf : BufR
  bar : BarR
  q   : BitVec 2
  off : BitVec 15
  deriving DecidableEq, Repr

/-- The operands the tile copies share (Table 13.5). -/
structure TileOp where
  m   : MReg
  a   : Reg
  buf : BufR
  bar : BarR
  q   : BitVec 2
  deriving DecidableEq, Repr

/-- Hadamard transform of a tile copy (Table 13.6). -/
inductive Had where
  | none | h16 | h32
  deriving DecidableEq, Repr

/-- Fill of a dropped row or padding element (R310). -/
inductive Fill where
  | fz | fnan | fk
  deriving DecidableEq, Repr

/-- Operations of `l2op` (R365). -/
inductive L2Op where
  | clean | inv | zero
  deriving DecidableEq, Repr

/-- A message of a function from its part in another package (R371): a fabric store of `n` bytes, a reduction (with its home
hummock where it is a window reduction), the words of a channel slot, a card, and of a launch barrier: arrivals, retirements and
arrivals that a retiring thread takes back of the phase `phc`; a completed phase; and its breaking (12_synchronisation.md R278,
R279). -/
inductive Msg where
  | store (a n v : Nat)
  | red (op : AOp) (ty : Ty) (win : Option Nat) (a v : Nat)
  | slot (launch wg ch : Nat) (words : List Word)
  | arrive (launch bar n gone back : Nat) (phc : Word)
  | phase (launch bar : Nat) (phc : Word) (dormant : Bool)
  | breaks (launch bar : Nat)
  | card (launch h kidx : Nat) (args : List Word)
  deriving DecidableEq, Repr

/-- The instructions of the opcode map (Tables 2.9 to 2.16) and the events of the device's units. -/
inductive Instr where
  -- Scalar and control (chapter 3)
  | smov (c : SCond) (d src : SCode)
  | smovi (c : SCond) (d : SCode) (imm : Word)
  | sadd (c : SCond) (d a : SCode) (b : Op2)
  | ssub (c : SCond) (d a : SCode) (b : Op2)
  | smul (c : SCond) (d a : SCode) (b : Op2)
  | smulh (c : SCond) (u : Bool) (d a : SCode) (b : Op2)
  | sand (c : SCond) (d a : SCode) (b : Op2)
  | sor (c : SCond) (d a : SCode) (b : Op2)
  | sxor (c : SCond) (d a : SCode) (b : Op2)
  | sshl (c : SCond) (d a : SCode) (b : Op2)
  | sshr (c : SCond) (d a : SCode) (b : Op2)
  | ssar (c : SCond) (d a : SCode) (b : Op2)
  | smin (c : SCond) (u : Bool) (d a : SCode) (b : Op2)
  | smax (c : SCond) (u : Bool) (d a : SCode) (b : Op2)
  | scmp (c : SCond) (a b : SCode)
  | scmpi (c : SCond) (a : SCode) (imm : Word)
  | ssel (c : SCond) (sel : SSel) (d a : SCode) (b : Op2)
  | sread (c : SCond) (d : SCode) (v : Reg) (lane : LaneSel)
  | kst (c : SCond) (k : SCode) (b : Op2)
  | br (c : SCond) (off : Word)
  | bra (c : SCond) (t : Op2)
  | brmz (c : SCond) (m : MReg) (off : Word)
  | brmnz (c : SCond) (m : MReg) (off : Word)
  | brmf (c : SCond) (m : MReg) (off : Word)
  | sloop (c : SCond) (ctr : SCode) (off : Word)
  | call (c : SCond) (l : Reg) (off : Word)
  | ret (c : SCond) (l : Reg)
  | trap (c : SCond) (code : BitVec 16)
  | nop (c : SCond)
  | hint (n : BitVec 4) (body : BitVec 54)
  | yield (c : SCond)
  | sleep (c : SCond) (b : Op2)
  -- Work creation (chapter 7)
  | spawn (c : SCond) (d s : MReg) (f : Reg) (n : BitVec 4) (e : SpawnEntry)
  | reform (c : SCond) (t : Option Reg)
  | reformTwo (c : SCond) (m : MReg) (off : Word)
  | retire (c : SCond)
  | binAge (c : SCond) (b : Op2)
  | jpost (c : SCond) (d a : SCode) (card : BitVec 6) (n : BitVec 4) (dir : BitVec 3)
  -- Integer (chapter 4)
  | mov (m : MReg) (ty : Ty) (d a : Reg)
  | movScalar (m : MReg) (d : Reg) (src : SCode)
  | movi (m : MReg) (d : Reg) (imm : Word)
  | tidx (m : MReg) (d : Reg)
  | add (m : MReg) (ty : Ty) (d a b : Reg)
  | addc (m : MReg) (d a b : Reg) (cm : MReg)
  | sub (m : MReg) (ty : Ty) (d a b : Reg)
  | subc (m : MReg) (d a b : Reg) (cm : MReg)
  | mul (m : MReg) (ty : Ty) (d a b : Reg)
  | mulhi (m : MReg) (ty : Ty) (d a b : Reg)
  | mad (m : MReg) (ty : Ty) (d a b e : Reg)
  | madw (m : MReg) (ty : Ty) (d a b e : Reg)
  | neg (m : MReg) (ty : Ty) (d a : Reg)
  | abs (m : MReg) (ty : Ty) (d a : Reg)
  | min (m : MReg) (ty : Ty) (d a b : Reg)
  | max (m : MReg) (ty : Ty) (d a b : Reg)
  | and (m : MReg) (ty : Ty) (d a b : Reg)
  | or (m : MReg) (ty : Ty) (d a b : Reg)
  | xor (m : MReg) (ty : Ty) (d a b : Reg)
  | not (m : MReg) (ty : Ty) (d a : Reg)
  | andn (m : MReg) (ty : Ty) (d a b : Reg)
  | shl (m : MReg) (ty : Ty) (d a b : Reg)
  | shr (m : MReg) (ty : Ty) (d a b : Reg)
  | sar (m : MReg) (ty : Ty) (d a b : Reg)
  | rot (m : MReg) (ty : Ty) (d a b : Reg)
  | bfx (m : MReg) (ty : Ty) (d a b : Reg)
  | bfi (m : MReg) (d a b e : Reg)
  | popc (m : MReg) (ty : Ty) (d a : Reg)
  | clz (m : MReg) (ty : Ty) (d a : Reg)
  | brev (m : MReg) (ty : Ty) (d a : Reg)
  | sel (m : MReg) (ty : Ty) (d a b : Reg) (cm : MReg)
  | cmp (m : MReg) (cond : ICond) (ty : Ty) (d : MReg) (a b : Reg)
  | cvti (m : MReg) (dt ft : Ty) (sat : Bool) (d a : Reg)
  | adds (m : MReg) (ty : Ty) (d a b : Reg)
  | subs (m : MReg) (ty : Ty) (d a b : Reg)
  | dot4 (m : MReg) (ty : Ty) (d a b e : Reg)
  | dot8 (m : MReg) (ty : Ty) (d a b e : Reg)
  | addImm (m : MReg) (d a : Reg) (imm : Word)
  | addsImm (m : MReg) (u : Bool) (d a : Reg) (imm : Word)
  | mulImm (m : MReg) (d a : Reg) (imm : Word)
  | andImm (m : MReg) (d a : Reg) (imm : Word)
  | orImm (m : MReg) (d a : Reg) (imm : Word)
  | xorImm (m : MReg) (d a : Reg) (imm : Word)
  | andnImm (m : MReg) (d a : Reg) (imm : Word)
  | shlImm (m : MReg) (d a : Reg) (n : BitVec 5)
  | shrImm (m : MReg) (d a : Reg) (n : BitVec 5)
  | sarImm (m : MReg) (d a : Reg) (n : BitVec 5)
  | rotImm (m : MReg) (d a : Reg) (n : BitVec 5)
  | minImm (m : MReg) (u : Bool) (d a : Reg) (imm : Word)
  | maxImm (m : MReg) (u : Bool) (d a : Reg) (imm : Word)
  | cmpS32Imm (m : MReg) (cond : ImmCond) (d : MReg) (a : Reg) (imm : Word)
  | cmpN32Imm (m : MReg) (cond : ImmCond) (d : MReg) (a : Reg) (imm : Word)
  | bfxImm (m : MReg) (sg : Bool) (d a : Reg) (pos : BitVec 5) (wd : BitVec 6)
  -- Floating point (chapter 5)
  | fadd (m : MReg) (ty : Ty) (rm : Rnd) (sg : Signs) (d a b : Reg)
  | fsub (m : MReg) (rm : Rnd) (sg : Signs) (d a b : Reg)
  | fmul (m : MReg) (rm : Rnd) (sg : Signs) (d a b : Reg)
  | fma (m : MReg) (ty : Ty) (rm : Rnd) (sg : Signs) (d a b e : Reg)
  | fmin (m : MReg) (sg : Signs) (d a b : Reg)
  | fmax (m : MReg) (sg : Signs) (d a b : Reg)
  | fminn (m : MReg) (sg : Signs) (d a b : Reg)
  | fmaxn (m : MReg) (sg : Signs) (d a b : Reg)
  | fcmp (m : MReg) (cond : FCond) (sg : Signs) (d : MReg) (a b : Reg)
  | fclass (m : MReg) (sg : Signs) (d a : Reg)
  | frcp (m : MReg) (rm : Rnd) (sg : Signs) (d a : Reg)
  | frsq (m : MReg) (rm : Rnd) (sg : Signs) (d a : Reg)
  | fsqrt (m : MReg) (rm : Rnd) (sg : Signs) (d a : Reg)
  | fdiv (m : MReg) (rm : Rnd) (sg : Signs) (d a b : Reg)
  | fexp2 (m : MReg) (sg : Signs) (d a : Reg)
  | flog2 (m : MReg) (sg : Signs) (d a : Reg)
  | ffract (m : MReg) (sg : Signs) (d a : Reg)
  | fround (m : MReg) (rm : Rnd) (sg : Signs) (d a : Reg)
  | fldexp (m : MReg) (rm : Rnd) (sg : Signs) (d a b : Reg)
  | fcvt (m : MReg) (dt ft : Ty) (rm : Rnd) (sat : Bool) (sg : Signs) (d a e : Reg)
  | fpack (m : MReg) (dt ft : Ty) (rm : Rnd) (sat : Bool) (sg : Signs) (d a b e : Reg)
  | fdot2 (m : MReg) (ty : Ty) (rm : Rnd) (sg : Signs) (d a b e : Reg)
  | fdot4 (m : MReg) (ty : Ty) (rm : Rnd) (sg : Signs) (d a b e : Reg)
  | fdot8 (m : MReg) (rm : Rnd) (sg : Signs) (d a b e : Reg)
  | mxs (m : MReg) (ty : Ty) (sg : Signs) (d a : Reg)
  | faddImm (m : MReg) (rm : Rnd4) (d a : Reg) (imm : Word)
  | fmulImm (m : MReg) (rm : Rnd4) (d a : Reg) (imm : Word)
  | fmaImm (m : MReg) (rm : Rnd4) (d a : Reg) (imm : Word)
  | fminImm (m : MReg) (d a : Reg) (imm : Word)
  | fmaxImm (m : MReg) (d a : Reg) (imm : Word)
  | fcmpImm (m : MReg) (cond : ImmCond) (d : MReg) (a : Reg) (imm : Word)
  -- Masks and exchange (chapter 6)
  | mand (m d a b : MReg)
  | mor (m d a b : MReg)
  | mxor (m d a b : MReg)
  | mandn (m d a b : MReg)
  | mnot (m d a : MReg)
  | mmov (m d a : MReg)
  | mseti (m d : MReg) (imm : Word)
  | mvoteBallot (m d : MReg) (a : Reg)
  | mvoteEq (m d : MReg) (a : Reg)
  | mpop (m : MReg) (d : Reg) (a : MReg)
  | mfirst (m : MReg) (d : Reg) (a : MReg)
  | mlast (m : MReg) (d : Reg) (a : MReg)
  | qswx (m : MReg) (d a : Reg)
  | qswy (m : MReg) (d a : Reg)
  | qswd (m : MReg) (d a : Reg)
  | qbc (m : MReg) (d a : Reg) (p : BitVec 2)
  | gshf (m : MReg) (d a b : Reg)
  | gshu (m : MReg) (d a : Reg) (k : BitVec 5)
  | gshd (m : MReg) (d a : Reg) (k : BitVec 5)
  | gshx (m : MReg) (d a : Reg) (k : BitVec 5)
  | gbc (m : MReg) (d a : Reg) (k : BitVec 5)
  | gred (m : MReg) (op : GOp) (ty : Ty) (rm : Rnd) (d a : Reg)
  | gscan (m : MReg) (op : GOp) (excl : Bool) (ty : Ty) (rm : Rnd) (d a : Reg)
  | pPair (h0 h1 : PHalf)
  -- Memory access (chapter 8) and leases (chapter 9)
  | ld (ty : Ty) (o : RecOp)
  | st (ty : Ty) (o : RecOp)
  | ldAcq (ty : Ty) (o : RecOp)
  | stRel (ty : Ty) (o : RecOp)
  | lds (ty : Ty) (o : ScrOp)
  | sts (ty : Ty) (o : ScrOp)
  | ldw (ty : Ty) (o : RecOp)
  | stw (ty : Ty) (o : RecOp)
  | ldacc (ty : Ty) (o : ScrOp)
  | prf (ty : Ty) (m : MReg) (b : Reg) (buf : BufR) (off : BitVec 15)
  | present (m d : MReg) (b : Reg) (off : BitVec 15)
  | fence (m : MReg) (mode : FenceMode)
  | brec (m : MReg) (buf : BufR) (a : Reg)
  | brrd (m : MReg) (a : Reg) (buf : BufR)
  | leaseQ (m : MReg) (a b : Reg) (buf : BufR) (off : BitVec 15)
  | leaseRenew (m : MReg) (a b : Reg) (buf : BufR) (off : BitVec 15)
  -- Atomics (chapter 11)
  | atom (op : AOp) (ty : Ty) (o : AtomRec)
  | red (op : AOp) (ty : Ty) (o : AtomRec)
  | atoms (op : AOp) (ty : Ty) (o : AtomScr)
  | reds (op : AOp) (ty : Ty) (o : AtomScr)
  -- Synchronisation (chapter 12)
  | barArr (m : MReg) (bar : BarR)
  | barWait (m : MReg) (bar : BarR) (p : Option Reg)
  | barArw (m : MReg) (bar : BarR)
  | barExp (m : MReg) (bar : BarR) (b : Reg)
  | barTest (m d : MReg) (bar : BarR) (p : Option Reg)
  | barPh (m : MReg) (a : Reg) (bar : BarR)
  | cvdecl (m : MReg) (cv : BitVec 3) (size : CvSize)
  | cvq (m : MReg) (a : Reg) (cv : BitVec 3)
  | send (m : MReg) (ch : BitVec 4) (a : Reg)
  | recv (m : MReg) (a : Reg) (ch : BitVec 4)
  | chq (m : MReg) (a : Reg) (ch : BitVec 4)
  -- Asynchronous copy (chapter 13)
  | cpa4 (o : CpaOp)
  | cpa8 (o : CpaOp)
  | cpa16 (o : CpaOp)
  | cpaFlush (m : MReg)
  | tcopy (o : TileOp) (out tr : Bool) (mt ct : Ty) (had : Had) (fold mxs : Bool)
  | tgather (o : TileOp) (b : Reg) (ty : Ty) (fill : Fill)
  | tscatter (o : TileOp) (b : Reg) (ty : Ty)
  | tpack (o : TileOp) (f : BitVec 6) (ty : Ty) (fill : Fill)
  | tunpack (o : TileOp) (f : BitVec 6) (ty : Ty)
  | mdcopy (m : MReg) (b : Reg) (buf : BufR) (bar : BarR) (q : BitVec 2) (slot : BitVec 2) (scale : Bool) (n : BitVec 8)
  | cfill (m : MReg) (a b : Reg) (bar : BarR) (q : BitVec 2) (lines : BitVec 12)
  | qfence (m : MReg) (qs : BitVec 5)
  | qwait (m : MReg) (a : Reg) (q : BitVec 2)
  -- Matrix (chapter 14)
  | mldSt (m : MReg) (ta tb : Ty) (a : Reg) (cv : BitVec 3)
  | mswap (m : MReg) (cv : BitVec 3)
  | mstream (m : MReg) (ta tb : Ty) (sp mx : Bool) (t s q : BitVec 2) (a : Reg) (cv : BitVec 3)
  | mtile (m : MReg) (ta tb : Ty) (mx set : Bool) (t n : BitVec 2) (a : Reg) (cv : BitVec 3)
  | maccZ (m : MReg) (t : BitVec 2) (cv : BitVec 3)
  | maccSt (m : MReg) (ty : Ty) (t : BitVec 2) (a : Reg) (cv : BitVec 3)
  | maccLd (m : MReg) (ty : Ty) (t : BitVec 2) (a : Reg) (cv : BitVec 3)
  | mstat (m : MReg) (a : Reg) (t : BitVec 2)
  | mcfg (m : MReg) (tiles : BitVec 4) (flags : BitVec 3) (f : Bool)
  -- System (chapter 15), translation queries (chapter 9) and tenancy (chapter 16)
  | tret (skip : Bool)
  | tvec (m : MReg) (a : Reg)
  | segLd (m : MReg) (h : Bool) (sgm : BitVec 3) (a : Reg)
  | segRd (m : MReg) (a : Reg) (sgm : BitVec 3)
  | sysRd (m : MReg) (a : Reg) (n : BitVec 12)
  | sysWr (m : MReg) (n : BitVec 12) (a : Reg)
  | ckpt
  | ckptQ (m : MReg) (a : Reg)
  | halt
  | haltDbg
  | snap (m : MReg) (b : Reg) (buf : BufR) (a : Reg)
  | l2op (m : MReg) (op : L2Op) (b : Reg) (buf : BufR) (lines : BitVec 12)
  | vfsel (m : MReg) (a : Reg)
  | tlbProbe (m : MReg) (a b : Reg)
  | walkQ (m : MReg) (a b : Reg) (f : BitVec 6) (s2 : Bool)
  | scrub (m : MReg) (a b : Reg)
  | tokRd (m : MReg) (a b : Reg) (off : BitVec 15)
  | partQ (m : MReg) (a b : Reg)
  -- Events of the device's units (95_what_each_step_holds.md)
  | trapEntry (h c g : Nat)
  | binAgeThreshold (h c b : Nat)
  | binDraw (h c : Nat)
  | yieldEnd (h c g : Nat)
  | sleepWake (h c g : Nat)
  | schedStall (h c : Nat)
  | parkWake (h c g : Nat)
  | loadComplete (h c g : Nat)
  | atomicReturn (h c g : Nat)
  | fenceRelease (h c g : Nat)
  | homeRequestArrival (h c k : Nat)
  | l1CopyExpiry (h c line : Nat)
  | tlbLeaseExpiry (h c : Nat)
  | walkStart (h k : Nat)
  | walkPendingRetry (h c g : Nat)
  | walkComplete (h k : Nat)
  | swapRetry (h k : Nat)
  | enlargerLeaseRenewal (h k : Nat)
  | swapEngineExchange (f va frame tier : Nat)
  | swapHorizonEnd (k : Nat)
  | windowReductionAccept (k : Nat)
  | windowContributionLimit (h a : Nat)
  | switchMerge (k j : Nat)
  | barrierArrivalCount (h c g : Nat)
  | barrierPhaseComplete (h c w bar : Nat)
  | barrierWaitRelease (h c g : Nat)
  | lbForward (l h n : Nat)
  | lbCompletionBroadcast (l h n : Nat)
  | sidebandPathLoss (l h : Nat)
  | signatureRecord (h c g : Nat)
  | qmPlacement (h c g : Nat)
  | sendSlotFill (h c g : Nat)
  | recvSlotTake (h c g : Nat)
  | channelSlotFreed (h c w ch : Nat)
  | copyAccept (h c g : Nat)
  | copyLineWrite (h k line : Nat)
  | cpaCoalesceTimeout (h c : Nat)
  | qfenceEntryComplete (h k : Nat)
  | qwaitComplete (h c g : Nat)
  | matrixStep (h c : Nat)
  | matrixWatchdog (h c : Nat)
  | launchRecordTake (h q : Nat)
  | rectClaim (l : Nat)
  | routeLoad (l : Nat) (ok : Bool)
  | residency (l : Nat)
  | gangPlacement (l : Nat)
  | launchSetup (l : Nat)
  | scrubTokenMatch (l : Nat)
  | cardReceive (k : Nat)
  | cardPlacement (h q : Nat)
  | workgroupNormalEnd (h c w : Nat)
  | launchCompletion (l : Nat)
  | hostDoorbell (f h q tail : Nat)
  | prqReply (f stage tag : Nat)
  | prqReplyRefuse (f stage tag : Nat)
  | lqva (f va : Nat)
  | leaseQueryDone (f : Nat)
  | hostApertureRead (port f off n : Nat)
  | hostApertureWrite (port f off n v : Nat)
  | hostMapRead (off : Nat)
  | hostMapWrite (off v : Nat)
  | mgdataRead (f off : Nat)
  | mgdataWrite (f off v : Nat)
  | registerWrite (f off v : Nat)
  | prego (vf : Nat)
  | killgo (vf id : Nat)
  | chipletReset (h : Nat)
  | chipletFence (h : Nat)
  | chipletDrop (h : Nat)
  | chipletFatal (h act cause : Nat)
  | rsgo (h c w : Nat)
  | wdlim (h c : Nat) (all : Bool) (v : Nat)
  | checkpointInstant (f : Nat)
  | checkpointDrainDone (f : Nat)
  | checkpointCommit (f : Nat)
  | crossPackageMessage (f seq sender : Nat) (msg : Msg)
  | partWrite (h f v : Nat)
  | connmatWrite (h i v : Nat)
  | waymaskWrite (h v : Nat)
  | shareWrite (h q k v : Nat)
  | scrubComplete (h c g : Nat)
  | dbmswap (f : Nat)
  | dbmSwapInstant (f : Nat)
  | dbmSwapDone (f : Nat)
  | rstgo (f : Nat)
  | restoreDone (f : Nat)
  | flitReceive (h link : Nat) (head rest : List Byte)
  | linkFence (h link : Nat)
  | linkgo (h port : Nat)
  | clockSkew (h c : Nat) (off : Nat × Nat)
  | clockSkewRecover (h c : Nat)
  | domen
  | domainEpochLock (t : Nat)
  | domainLockTimeout (h c : Nat)
  | fwgo
  | firmwareCheckDone (sigOk : Bool)
  | railSample (h p v cur : Nat)
  | minvClear (h k v : Nat)
  | railCrack (h p : Nat)
  | thermalTrip (h i t : Nat)
  | thvalWrite (h v : Nat)
  | thermalForecast (h t : Nat)
  | bankRetiring (h k bank cause : Nat)
  | bkack (h k bank : Nat)
  | frameMove (h k : Nat)
  | bankRetired (h k : Nat)
  | powerOn (fwOk : Bool × Nat × Nat × List (Nat × Nat))
  | packageReset
  | powerLoss
  | prqhead (f stage v : Nat)
  | l2opDone (h c g : Nat)
  | snapCaptureDone (h c g : Nat)
  | uncorrectableError (space h c line : Nat)
  | powerGating (h c : Nat)
  | corePoweredAgain (h c : Nat)
  | sensorFault (h i : Nat)
  | vfEnable (en : Bool) (n : Nat)
  deriving DecidableEq, Repr

end Sys2Proof
end

