-- ==== Sys2Proof/Config.lean ====
section
/-! DEFINITION. What the device fixes and the values the spec leaves open.  A constant without a
body is a free value: nothing in Lean can evaluate it (notes/assumptions 6, 7, 8). -/

namespace Sys2Proof.Config

/-- Hummocks of a package (01_machine.md R11). -/
def hummocks : Nat := 8
/-- Cores of a hummock (R4). -/
def coresPerHummock : Nat := 64
/-- Thread slots of a core (R15 Table 1.3). -/
def threadSlots : Nat := 1024
/-- Lane registers of a core (R15). -/
def laneRegisters : Nat := 65536
/-- Group places of a pipe (R15, R148). -/
def groupsPerPipe : Nat := 16
/-- Bins of a core (R15). -/
def bins : Nat := 64
/-- Lines of a core's scratchpad (R15). -/
def scratchLines : Nat := 3072
/-- Bytes of a core's scratchpad (R176). -/
def scratchBytes : Nat := 393216
/-- Bytes of a memory line (R15). -/
def lineBytes : Nat := 128
/-- Bytes of an HBM stack (R19 Table 1.6). -/
def stackBytes : Nat := 96 * 2 ^ 30
/-- Lines of a core's L1 data cache: 64 KiB (R198). -/
def l1Lines : Nat := 512
/-- The age in ns at which an L1 copy of an unowned word is dropped (R236). -/
def l1MaxAge : Nat := 4096

/-- Whether another package of that number is in the load-store domain (R11; log 9). -/
opaque inDomain : Nat → Bool
/-- A value the spec leaves open, by a counter that the step advances (log 6). -/
opaque freeValue : Nat → BitVec 64
/-- A byte of a map window whose layout the spec does not give, by its map address and a counter (log 7). -/
opaque mapByte : Nat → Nat → BitVec 8
/-- The bit at which the device places item `i` of a structure within its entry or window, where the spec says that the window
holds the item and gives no layout: by structure code and item (log 7). -/
opaque fieldAt : Nat → Nat → Nat
/-- The fabric window that the PF sets for a function, by a path the spec does not give: its base and size in bytes,
size 0 for none (R178; log 19). -/
opaque fabricWindow : Nat → Nat × Nat
/-- Where the device identity comes from (R403; log 8). -/
opaque identityBits : BitVec 128
/-- The 16-byte device identity: any value that is not all zero (R403; log 8). -/
def deviceIdentity : BitVec 128 := if identityBits = 0 then 1 else identityBits
/-- Where the private key of the root of trust comes from (16_tenants.md R389; log 8). -/
opaque keyBits : Nat
/-- Where the fresh secrets of the n-th signature come from, in the order they are tried (R389; log 8). -/
opaque secretBits : Nat → Nat → Nat
/-- The body of the base-die firmware image that the device carries from manufacture (R403, R415; log 8). -/
opaque firmware : List (BitVec 8)
/-- The set of an L2 slice in which a line stands, by slice and line (R382; log 51). -/
opaque l2Set : Nat → Nat → Nat
/-- The place, among the ways that a function may fill in a slice, of the way that a fill takes: by slice, function, its replacement
state and the ways of the set that hold a line (16_tenants.md R382; log 51). -/
opaque l2Victim : Nat → Nat → Nat → List Nat → Nat
/-- An 8-byte unit of window 0x15 where it shows tags and slice policies, by hummock, offset and the hummock's tags as numbers, since
the spec gives no layout (log 7). -/
opaque l2Unit : Nat → Nat → List Nat → Nat
/-- Whether a prefetch fills its line's home L2 slice, by a counter (08_memory_access.md R195; log 6). -/
opaque prefetchL2 : Nat → Bool
/-- The HBM channel of a line within its stack, 0 to 3 (07_work_creation.md R173, Table 7.5; log 16). -/
opaque hbmChannel : Nat → Nat
/-- The mesh link, 0 to 3, of a hummock towards a neighbouring one (R173; log 16). -/
opaque meshLink : Nat → Nat → Nat
/-- Whether a request of a hummock to another one goes along its row of the mesh first (R12; log 25). -/
opaque meshRowFirst : Nat → Nat → Bool
/-- The bytes a mesh link carries in an uncore cycle (R173; log 16). -/
opaque meshRate : Nat
/-- The route of a launch to another package, by the counter at its launch step 2: the hummock and the fabric port its
requests leave by (17_device_boundary.md R414; log 25). -/
opaque route : Nat → Nat → Nat × Nat
/-- The bytes that the decoder of the device attached to a CXL port covers, 0 without a device (17_device_boundary.md R411,
R412; log 25). -/
opaque cxlBytes : Nat → Nat
/-- The ECC code of a flit's 12 header bytes: it corrects one bit and detects two (R413; log 25). -/
opaque headerEcc : List (BitVec 8) → Nat
/-- The sequence number that a flit's header holds (R413; log 25). -/
opaque flitSeq : List (BitVec 8) → Nat
/-- The message that a flit's header and payload hold, if one for this package: its function, its sender's checkpoint number and
its effect (R371, R413; log 25). -/
opaque flitMsg : List (BitVec 8) → List (BitVec 8) → Option (Nat × Nat × Msg)
/-- What a flit's header tells the other end of a link: that it has every flit before a number (true), or asks for those from a number
again (false) (R413; log 25). -/
opaque flitCtl : List (BitVec 8) → Option (Bool × Nat)
/-- The vendor's public key, a point of the curve, under which firmware is signed (R415; log 8). -/
opaque vendorKey : Nat × Nat
/-- The first 248 bytes of the flit that carries a request, by the request's number and the flit's sequence number (R413;
log 25). -/
opaque flitOf : Nat → Nat → List (BitVec 8)
/-- The logical coordinates of a hummock of another package, by physical number, where it is valid (R166, R404; log 9). -/
opaque farHum : Nat → Option (Nat × Nat)
/-- What a hummock of another package answers at a chip time: 0 whether it lies in a function's partition, 1 whether it has a
context for a launch, 2 whether its card queue takes a function's cards, 3 whether it can hold a gang, 4 whether that gang has
ended, or the task of that card, 5 whether its card queue has room for a card of a launch, 6 whether its package's token satisfies a
launch; a gang is numbered launch × 2^24 + gang,
and a card beyond its launch's gangs (R159, R160, R166, R167, R390; log 9). -/
opaque farAnswer : Nat → Nat → Nat → Nat → Bool
/-- The frame that the swap engine takes for a page, by the uncore cycle and the page's address (R203, R230; log 25). -/
opaque swapFrame : Nat → Nat → Nat
/-- A byte of the holding tray, by a counter and the byte's place in the tray: the spec does not lay its entries out (R369; log 22). -/
opaque trayByte : Nat → Nat → BitVec 8
/-- Whether a prefetch fills the core's L1, by a counter (R195: either, both or neither; log 6). -/
opaque prefetchFills : Nat → Bool

end Sys2Proof.Config
end

