-- ==== Sys2Proof/Machine/Crypto.lean ====
section
/-! DEFINITION. SHA-384 and ECDSA on brainpoolP384r1, by which scrub tokens are signed and firmware is measured
(16_tenants.md R388, R389; 17_device_boundary.md R403, R415, R416).  The spec names the two standards; their constants are taken from
FIPS 180-4 and RFC 5639, PRESUMED (notes/assumptions 8). -/

namespace Sys2Proof.Machine

/-! ### SHA-384 -/

/-- The greatest number of at most `b` bits whose `k`-th power is at most `n`, from a number already found. -/
def rootGo (k n : Nat) : Nat → Nat → Nat
  | 0, r => r
  | b + 1, r => rootGo k n b (if (r + 2 ^ b) ^ k ≤ n then r + 2 ^ b else r)

/-- The first 64 bits of the fraction of the `k`-th root of a number below 512. -/
def rootFraction (k p : Nat) : DWord := BitVec.ofNat 64 (rootGo k (p * 2 ^ (64 * k)) 69 0)

/-- The primes below 410: the first 80. -/
def primes : List Nat := (List.range 410).filter (fun n => decide (2 ≤ n) && (List.range 21).all (fun d => decide (d < 2) || d == n || n % d != 0))

/-- The round constants: from the cube roots of the first 80 primes. -/
def shaConstants : List DWord := primes.map (rootFraction 3)

/-- The first hash value: from the square roots of the ninth to the sixteenth prime. -/
def shaInit : List DWord := ((primes.drop 8).take 8).map (rootFraction 2)

/-- The message schedule, the latest word first; `n` words are still to come. -/
def shaSchedule : Nat → List DWord → List DWord
  | 0, ws => ws
  | n + 1, ws =>
    let x := ws.getD 14 0
    let y := ws.getD 1 0
    let a := x.rotateRight 1 ^^^ x.rotateRight 8 ^^^ x >>> 7
    let b := y.rotateRight 19 ^^^ y.rotateRight 61 ^^^ y >>> 6
    shaSchedule n ((b + ws.getD 6 0 + a + ws.getD 15 0) :: ws)

/-- One round: `kw` is the round's constant and schedule word. -/
def shaRound (v : List DWord) (kw : DWord × DWord) : List DWord :=
  match v with
  | [a, b, c, d, e, f, g, h] =>
    let t := h + (e.rotateRight 14 ^^^ e.rotateRight 18 ^^^ e.rotateRight 41) + (e &&& f ^^^ ~~~e &&& g) + kw.1 + kw.2
    let u := (a.rotateRight 28 ^^^ a.rotateRight 34 ^^^ a.rotateRight 39) + (a &&& b ^^^ a &&& c ^^^ b &&& c)
    [t + u, a, b, c, d + t, e, f, g]
  | _ => v

/-- The big-endian number in a list of bytes. -/
def beNat (bs : List Byte) : Nat := bs.foldl (fun n b => 256 * n + b.toNat) 0

/-- Pieces of `n` items of a list, at most `k` of them. -/
def piecesOf {α : Type} (n : Nat) : Nat → List α → List (List α)
  | 0, _ => []
  | k + 1, xs => if xs.isEmpty then [] else xs.take n :: piecesOf n k (xs.drop n)

/-- The hash value after a block of 128 bytes. -/
def shaBlock (v : List DWord) (block : List Byte) : List DWord :=
  let ws := shaSchedule 64 ((piecesOf 8 16 block).map (fun bs => BitVec.ofNat 64 (beNat bs))).reverse
  v.zipWith (· + ·) ((shaConstants.zip ws.reverse).foldl shaRound v)

/-- A message with its padding: a one bit, zeros, and its length in bits in 16 bytes. -/
def shaPad (bs : List Byte) : List Byte :=
  bs ++ [0x80] ++ List.replicate ((239 - bs.length % 128) % 128) 0
    ++ (List.range 16).map (fun i => BitVec.ofNat 8 (8 * bs.length / 256 ^ (15 - i)))

/-- SHA-384 of a list of bytes, its 48 bytes as a big-endian number. -/
def sha384 (bs : List Byte) : Nat :=
  let m := shaPad bs
  (((piecesOf 128 (m.length / 128) m).foldl shaBlock shaInit).take 6).foldl (fun n w => 2 ^ 64 * n + w.toNat) 0

/-! ### The curve brainpoolP384r1 -/

/-- The field's prime. -/
def curveP : Nat := 0x8CB91E82A3386D280F5D6F7E50E641DF152F7109ED5456B412B1DA197FB71123ACD3A729901D1A71874700133107EC53
/-- The coefficient A. -/
def curveA : Nat := 0x7BC382C63D8C150C3C72080ACE05AFA0C2BEA28E4FB22787139165EFBA91F90F8AA5814A503AD4EB04A8C7DD22CE2826
/-- The order of the base point. -/
def curveQ : Nat := 0x8CB91E82A3386D280F5D6F7E50E641DF152F7109ED5456B31F166E6CAC0425A7CF3AB6AF6B7FC3103B883202E9046565
/-- The base point. -/
def curveG : Nat × Nat :=
  (0x1D1C64F068CF45FFA2A63A81B7C13F6B8847A3E77EF14FE3DB7FCAFE0CBD10E8E826E03436D646AAEF87B2E247D4AF1E,
   0x8ABE1D7520F9C2A45CB1EB8E95CFD55262B70B29FEEC5864E19C054FF99129280E4646217791811142820341263C5315)

/-- A power modulo `m`: the exponent's `n` low bits from the highest, onto a power already taken. -/
def powGo (m b e : Nat) : Nat → Nat → Nat
  | 0, x => x
  | n + 1, x => powGo m b e n (if e.testBit n then x * x % m * b % m else x * x % m)

/-- The inverse modulo a prime of 384 bits. -/
def invMod (m x : Nat) : Nat := powGo m (x % m) (m - 2) 384 1

/-- The sum of two points; none is the point at infinity. -/
def addPoint : Option (Nat × Nat) → Option (Nat × Nat) → Option (Nat × Nat)
  | none, q => q
  | p, none => p
  | some (x, y), some (x', y') =>
    if x = x' ∧ (y + y') % curveP = 0 then none
    else
      let l := if x = x' then (3 * x * x + curveA) * invMod curveP (2 * y) % curveP
               else (y' + curveP - y) * invMod curveP (x' + curveP - x) % curveP
      let x'' := (l * l + 2 * curveP - x - x') % curveP
      some (x'', (l * (x + curveP - x'') + curveP - y) % curveP)

/-- A multiple of a point: the factor's `n` low bits from the highest, onto a point already reached. -/
def mulGo (p : Option (Nat × Nat)) (e : Nat) : Nat → Option (Nat × Nat) → Option (Nat × Nat)
  | 0, x => x
  | n + 1, x => mulGo p e n (if e.testBit n then addPoint (addPoint x x) p else addPoint x x)

/-- A multiple of a point by a number of 384 bits. -/
def mulPoint (e : Nat) (p : Nat × Nat) : Option (Nat × Nat) := mulGo (some p) e 384 none

/-- A number from 1 to the order less 1. -/
def scalarOf (n : Nat) : Nat := 1 + n % (curveQ - 1)

/-! ### The root of trust -/

/-- The private key of the root of trust (R389). -/
def privateKey : Nat := scalarOf Config.keyBits

/-- The public key, x and y (R403). -/
def publicKey : Nat × Nat := (mulPoint privateKey curveG).getD curveG

/-- The ECDSA signature of a hash under the private key with a secret, r and s; none where either is 0. -/
def signWith (z k : Nat) : Option (Nat × Nat) :=
  let r := ((mulPoint k curveG).getD curveG).1 % curveQ
  let s := invMod curveQ k * (z + r * privateKey) % curveQ
  if r = 0 ∨ s = 0 then none else some (r, s)

/-- The signature of bytes with the first fresh secret, of those from the n-th on, that gives one (R389). -/
def signBytes (n : Nat) (bs : List Byte) : Nat × Nat :=
  ((List.range 8).findSome? (fun i => signWith (sha384 bs) (scalarOf (Config.secretBits n i)))).getD (1, 1)

/-- Whether a signature of bytes verifies under a public key (R389, R392). -/
def verifyBytes (key : Nat × Nat) (bs : List Byte) (r s : Nat) : Bool :=
  let w := invMod curveQ s
  match addPoint (mulPoint (sha384 bs * w % curveQ) curveG) (mulPoint (r * w % curveQ) key) with
  | some p => decide (0 < r) && decide (r < curveQ) && decide (0 < s) && decide (s < curveQ) && p.1 % curveQ == r
  | none => false

end Sys2Proof.Machine
end

