-- ==== Sys2Proof/WellFormed.lean ====
section
/-! DEFINITION. The operand checks of a decoded instruction: everything that raises ILLEGAL_OPERAND
beyond a reserved code or a nonzero reserved bit (02_words_and_assembly.md R34, R35 and the entry of
each instruction). -/

namespace Sys2Proof

/-- Whether a value is one of a list. -/
def Ty.among (t : Ty) (ts : List Ty) : Bool := ts.contains t

/-- Types of 64 bits, which occupy an even-aligned pair (R35). -/
def Ty.is64 (t : Ty) : Bool := t.among [.b64, .s64, .n64]
/-- The integer types 0x02 to 0x0B (R50). -/
def Ty.isInt (t : Ty) : Bool := t.among [.s8, .s16, .s32, .s64, .n8, .n16, .n32, .n64, .s4, .n4]
/-- The scalar floating-point types (R122). -/
def Ty.isFloat (t : Ty) : Bool := t.among [.f32, .f16, .bf16, .e4m3, .e5m2, .e2m1, .e8m0]
/-- The copy element types of Table 13.3. -/
def Ty.isCopy (t : Ty) : Bool :=
  t.among [.s4, .n4, .e2m1, .s8, .n8, .e4m3, .e5m2, .e8m0, .s16, .n16, .f16, .bf16, .b32, .s32, .n32, .f32]
/-- Copy types of 4 bits (Table 13.3). -/
def Ty.is4 (t : Ty) : Bool := t.among [.s4, .n4, .e2m1]
/-- The seven matrix operand types (R324). -/
def Ty.isMat (t : Ty) : Bool := t.among [.bf16, .f16, .e4m3, .e5m2, .e2m1, .s8, .s4]

/-- `.s32 .n32` -/
def Ty.i32 (t : Ty) : Bool := t.among [.s32, .n32]
/-- `.s32 .n32 .s64 .n64` -/
def Ty.arith (t : Ty) : Bool := t.among [.s32, .n32, .s64, .n64]
/-- `.b32 .b64` -/
def Ty.bits (t : Ty) : Bool := t.among [.b32, .b64]

/-- A named register exists: it lies below the launch's register count (R35). -/
def regOk (n : Nat) (r : Reg) : Bool := decide (r.toNat < n)
/-- An even-aligned pair exists (R35). -/
def pairOk (n : Nat) (r : Reg) : Bool := r.toNat % 2 == 0 && decide (r.toNat + 1 < n)
/-- A quad aligned to 4 exists (R182, R231, R358). -/
def quadOk (n : Nat) (r : Reg) : Bool := r.toNat % 4 == 0 && decide (r.toNat + 3 < n)
/-- A register of a type: a pair for the 64-bit types (R35). -/
def tyRegOk (n : Nat) (t : Ty) (r : Reg) : Bool := if t.is64 then pairOk n r else regOk n r

/-- A readable scalar source code (R36: 124 to 127 are reserved). -/
def srcOk (c : SCode) : Bool := decide (c.toNat < 124)
/-- A destination s0 to s31 (R37). -/
def dstOk (c : SCode) : Bool := decide (c.toNat < 32)
/-- A destination of `smov` and `smovi` (R37). -/
def dstMaskOk (c : SCode) : Bool := decide (c.toNat < 32) || (decide (96 ≤ c.toNat) && decide (c.toNat < 112))
/-- A constant k0 to k63 as destination (R37). -/
def dstConstOk (c : SCode) : Bool := decide (32 ≤ c.toNat) && decide (c.toNat < 96)
/-- A second operand whose code, if any, is readable (R46). -/
def Op2.ok : Op2 → Bool
  | .imm _ => true
  | .code c => srcOk c

/-- The negated and absolute sources an entry allows (R115 Table 5.3). -/
def Signs.ok (s : Signs) (a b c : Bool) : Bool := (a || (!s.na && !s.aa)) && (b || !s.nb) && (c || !s.nc)

/-- The barrier field of a barrier instruction (R272). -/
def barOk (b : BarR) : Bool := decide (b.toNat < 24)
/-- A workgroup barrier (R272). -/
def wbOk (b : BarR) : Bool := decide (b.toNat < 16)
/-- The counting barrier of a copy (R49). -/
def cbarOk (b : BarR) : Bool := decide (b.toNat < 16) || b.toNat == 63

/-- The types an atomic operation accepts (Table 11.2). -/
def AOp.accepts (op : AOp) (t : Ty) : Bool :=
  match op with
  | .add | .sub | .min | .max => t.arith
  | .and | .or | .xor | .exch | .cas => t.bits
  | .incWrap | .decWrap => t == .n32
  | .fadd | .fmin | .fmax => t.among [.f32, .bf16x2]

/-- The operand register of an atomic (R252). -/
def AOp.regOk (op : AOp) (n : Nat) (t : Ty) (a : Reg) : Bool :=
  match op with
  | .cas => if t.is64 then quadOk n a else pairOk n a
  | _ => tyRegOk n t a

/-- The forms of `red` and `reds` (Table 11.2). -/
def AOp.reduces (op : AOp) : Bool := !(op == .exch || op == .cas)

/-- The system register numbers that Table 15.3 and R402 assign (R357). -/
def sysAssigned (n : Nat) : Bool :=
  decide (n ≤ 2) || (decide (0x10 ≤ n) && decide (n ≤ 0x40)) || n == 0x48 || n == 0x50
    || (decide (0x60 ≤ n) && decide (n ≤ 0x66)) || n == 0x70
    || (decide (0xA0 ≤ n) && decide (n ≤ 0xA3)) || n == 0xA8 || n == 0xB0 || n == 0xB1

/-- Record-form operands: index and data registers exist (R183). -/
def RecOp.ok (o : RecOp) (n : Nat) (t : Ty) : Bool := tyRegOk n t o.a && regOk n o.b
/-- Scratchpad-form operands (R188). -/
def ScrOp.ok (o : ScrOp) (n : Nat) (t : Ty) : Bool := tyRegOk n t o.a && regOk n o.b
/-- Load types (Table 8.7). -/
def Ty.load (t : Ty) : Bool := t.among [.b32, .b64, .s8, .n8, .s16, .n16]
/-- Store types (Table 8.7). -/
def Ty.store (t : Ty) : Bool := t.among [.b32, .b64, .n8, .n16]
/-- A tile operand: descriptor quad and counting barrier (R299, R300). -/
def TileOp.ok (o : TileOp) (n : Nat) : Bool := quadOk n o.a && cbarOk o.bar
/-- A lane copy's operands (R300). -/
def CpaOp.ok (o : CpaOp) (n : Nat) : Bool := regOk n o.a && regOk n o.b && cbarOk o.bar

/-- A quantising pair of `tcopy` (R301). -/
def quantPair (mt ct : Ty) : Bool := mt.among [.f32, .f16, .bf16] && ct.among [.e4m3, .e5m2, .e2m1]

/-- The packed element type of `fpack` and its width (R125). -/
def Ty.packed (t : Ty) : Bool := t.among [.f16x2, .bf16x2, .e4m3x4, .e5m2x4, .e2m1x8]

/-- One half of a P word names its registers below N and rounds only where Table 2.12 allows (R43). -/
def PHalf.ok (p : PHalf) (odd : Bool) (n : Nat) : Bool :=
  decide (2 * p.d.toNat + b2n odd < n) && decide (2 * p.b.toNat + b2n odd < n)
    && (match p.op with
        | .fadd | .fsub | .fmul | .faddF16x2 | .faddBf16x2 => p.rm != .sr
        | .fmin | .fmax | .fminn | .fmaxn => p.rm == .rne
        | _ => p.rm == .rne && !p.nb)

/-- Every operand of the instruction is legal for a launch of `n` registers at level `lvl` (R34). -/
def wellFormed (n : Nat) (lvl : Level) : Instr → Bool
  | .smov _ d src => dstMaskOk d && srcOk src
  | .smovi _ d _ => dstMaskOk d
  | .sadd _ d a b | .ssub _ d a b | .smul _ d a b | .sand _ d a b | .sor _ d a b | .sxor _ d a b
  | .sshl _ d a b | .sshr _ d a b | .ssar _ d a b | .ssel _ _ d a b
  | .smulh _ _ d a b | .smin _ _ d a b | .smax _ _ d a b => dstOk d && srcOk a && b.ok
  | .scmp _ a b => srcOk a && srcOk b
  | .scmpi _ a _ => srcOk a
  | .sread _ d v l => dstOk d && regOk n v && (match l with | .imm _ => true | .code c => srcOk c)
  | .kst _ k b => dstConstOk k && b.ok
  | .bra _ t => (match t with | .imm v => v.toNat % 8 == 0 | .code c => srcOk c)
  | .br .. | .brmz .. | .brmnz .. | .brmf .. => true
  | .sloop _ c _ => dstOk c
  | .call _ l _ | .ret _ l => regOk n l
  | .trap .. | .nop .. | .hint .. | .yield .. | .reformTwo .. | .retire .. => true
  | .sleep _ b => b.ok
  | .spawn _ d _ f k e =>
    d != 0 && decide (k.toNat ≤ 8)
      && (if k.toNat == 0 then f == 0 else decide (f.toNat + k.toNat - 1 < n))
      && (match e with | .label _ => true | .code c => srcOk c)
  | .reform _ t => (match t with | none => true | some r => regOk n r)
  | .binAge _ b => (match b with | .imm v => decide (16 ≤ v.toNat) && decide (v.toNat ≤ 4096) | .code c => srcOk c)
  | .jpost _ d a _ k dir =>
    dstOk d && dstOk a && decide (k.toNat ≤ 8) && decide (dir.toNat ≤ 4)
      && (if k.toNat == 0 then a == 0 else decide (a.toNat + k.toNat - 1 ≤ 31))
  | .mov _ t d a => t.bits && tyRegOk n t d && tyRegOk n t a
  | .movScalar _ d src => regOk n d && srcOk src
  | .movi _ d _ | .tidx _ d => regOk n d
  | .add _ t d a b | .sub _ t d a b | .min _ t d a b | .max _ t d a b =>
    t.arith && tyRegOk n t d && tyRegOk n t a && tyRegOk n t b
  | .addc _ d a b _ | .subc _ d a b _ => regOk n d && regOk n a && regOk n b
  | .mul _ t d a b | .mulhi _ t d a b | .bfx _ t d a b => t.i32 && regOk n d && regOk n a && regOk n b
  | .mad _ t d a b e => t.i32 && regOk n d && regOk n a && regOk n b && regOk n e
  | .madw _ t d a b e => t.i32 && pairOk n d && regOk n a && regOk n b && pairOk n e
  | .neg _ t d a | .abs _ t d a => t.among [.s32, .s64] && tyRegOk n t d && tyRegOk n t a
  | .and _ t d a b | .or _ t d a b | .xor _ t d a b | .andn _ t d a b | .sel _ t d a b _ =>
    t.bits && tyRegOk n t d && tyRegOk n t a && tyRegOk n t b
  | .not _ t d a | .brev _ t d a => t.bits && tyRegOk n t d && tyRegOk n t a
  | .shl _ t d a b | .shr _ t d a b | .sar _ t d a b | .rot _ t d a b =>
    t.bits && tyRegOk n t d && tyRegOk n t a && regOk n b
  | .bfi _ d a b e => regOk n d && regOk n a && regOk n b && regOk n e
  | .popc _ t d a | .clz _ t d a => t.bits && regOk n d && tyRegOk n t a
  | .cmp _ _ t _ a b => t.arith && tyRegOk n t a && tyRegOk n t b
  | .cvti _ dt ft _ d a => dt.isInt && ft.isInt && tyRegOk n dt d && tyRegOk n ft a
  | .adds _ t d a b | .subs _ t d a b =>
    t.among [.s32, .n32, .s8x4, .n8x4, .s4x8, .n4x8] && regOk n d && regOk n a && regOk n b
  | .dot4 _ t d a b e => t.among [.s8x4, .n8x4] && regOk n d && regOk n a && regOk n b && regOk n e
  | .dot8 _ t d a b e => t.among [.s4x8, .n4x8] && regOk n d && regOk n a && regOk n b && regOk n e
  | .addImm _ d a _ | .addsImm _ _ d a _ | .mulImm _ d a _ | .andImm _ d a _ | .orImm _ d a _
  | .xorImm _ d a _ | .andnImm _ d a _ | .shlImm _ d a _ | .shrImm _ d a _ | .sarImm _ d a _
  | .rotImm _ d a _ | .minImm _ _ d a _ | .maxImm _ _ d a _ | .faddImm _ _ d a _ | .fmulImm _ _ d a _
  | .fmaImm _ _ d a _ | .fminImm _ d a _ | .fmaxImm _ d a _ => regOk n d && regOk n a
  | .cmpS32Imm _ _ _ a _ | .cmpN32Imm _ _ _ a _ | .fcmpImm _ _ _ a _ => regOk n a
  | .bfxImm _ _ d a pos wd =>
    regOk n d && regOk n a && decide (1 ≤ wd.toNat) && decide (pos.toNat + wd.toNat ≤ 32)
  | .fadd _ t rm sg d a b =>
    t.among [.f32, .f16x2, .bf16x2] && rm != .sr && sg.ok true true false && regOk n d && regOk n a && regOk n b
  | .fsub _ rm sg d a b | .fmul _ rm sg d a b | .fdiv _ rm sg d a b =>
    rm != .sr && sg.ok true true false && regOk n d && regOk n a && regOk n b
  | .fma _ t rm sg d a b e =>
    t.among [.f32, .f16x2, .bf16x2] && rm != .sr && sg.ok true true true
      && regOk n d && regOk n a && regOk n b && regOk n e
  | .fmin _ sg d a b | .fmax _ sg d a b | .fminn _ sg d a b | .fmaxn _ sg d a b =>
    sg.ok true true false && regOk n d && regOk n a && regOk n b
  | .fcmp _ _ sg _ a b => sg.ok true true false && regOk n a && regOk n b
  | .fclass _ sg d a | .fexp2 _ sg d a | .flog2 _ sg d a | .ffract _ sg d a =>
    sg.ok true false false && regOk n d && regOk n a
  | .frcp _ rm sg d a | .frsq _ rm sg d a | .fsqrt _ rm sg d a | .fround _ rm sg d a =>
    rm != .sr && sg.ok true false false && regOk n d && regOk n a
  | .fldexp _ rm sg d a b => rm != .sr && sg.ok true false false && regOk n d && regOk n a && regOk n b
  | .fcvt _ dt ft rm sat sg d a e =>
    (dt.isFloat || dt.isInt) && (ft.isFloat || ft.isInt) && (dt.isFloat || ft.isFloat) && dt != ft
      && (if rm == .sr then regOk n e else e == 0) && (!sat || (dt.isFloat && dt != .e2m1))
      && sg.ok (ft.isFloat && ft != .e8m0) false false && (dt != .e8m0 || rm == .rz || rm == .ru)
      && tyRegOk n dt d && tyRegOk n ft a
  | .fpack _ dt ft rm sat sg d a b e =>
    dt.packed && ft.among [.f32, .f16, .bf16] && (if rm == .sr then regOk n e else e == 0)
      && (!sat || dt != .e2m1x8) && sg.ok true true false && regOk n d && regOk n a && regOk n b
  | .fdot2 _ t rm sg d a b e =>
    t.among [.f16x2, .bf16x2] && rm != .sr && sg.ok true true true
      && regOk n d && regOk n a && regOk n b && regOk n e
  | .fdot4 _ t rm sg d a b e =>
    t.among [.e4m3x4, .e5m2x4] && rm != .sr && sg.ok true true true
      && regOk n d && regOk n a && regOk n b && regOk n e
  | .fdot8 _ rm sg d a b e =>
    rm != .sr && sg.ok true true true && regOk n d && regOk n a && regOk n b && regOk n e
  | .mxs _ t sg d a => t.among [.e4m3, .e5m2, .e2m1] && sg.ok true false false && regOk n d && regOk n a
  | .mand .. | .mor .. | .mxor .. | .mandn .. | .mnot .. | .mmov .. | .mseti .. => true
  | .mvoteBallot _ _ a | .mvoteEq _ _ a => regOk n a
  | .mpop _ d _ | .mfirst _ d _ | .mlast _ d _ => regOk n d
  | .qswx _ d a | .qswy _ d a | .qswd _ d a | .qbc _ d a _ | .gshu _ d a _ | .gshd _ d a _
  | .gshx _ d a _ | .gbc _ d a _ => regOk n d && regOk n a
  | .gshf _ d a b => regOk n d && regOk n a && regOk n b
  | .gred _ op t rm d a | .gscan _ op _ t rm d a =>
    t.among [.s32, .n32, .f32] && (t != .f32 || op == .add || op == .min || op == .max)
      && (rm == .rne || (t == .f32 && op == .add && rm != .sr)) && regOk n d && regOk n a
  | .pPair h0 h1 => h0.ok false n && h1.ok true n
  | .ld t o => t.load && o.ok n t
  | .st t o => t.store && o.ok n t
  | .ldAcq t o | .stRel t o | .ldw t o | .stw t o => t.bits && o.ok n t
  | .lds t o => t.load && o.ok n t
  | .sts t o => t.store && o.ok n t
  | .ldacc t o => t.among [.b32, .f32, .s32] && o.ok n t
  | .prf t _ b _ _ => t.load && regOk n b
  | .present _ _ b _ => regOk n b
  | .fence .. => true
  | .brec _ _ a | .brrd _ a _ => quadOk n a
  | .leaseQ _ a b _ _ | .leaseRenew _ a b _ _ => pairOk n a && regOk n b
  | .atom op t o => op.accepts t && op.regOk n t o.a && regOk n o.b
  | .red op t o => op.accepts t && op.reduces && op.regOk n t o.a && regOk n o.b
  | .atoms op t o => op.accepts t && op.regOk n t o.a && regOk n o.b
  | .reds op t o => op.accepts t && op.reduces && op.regOk n t o.a && regOk n o.b
  | .barArr _ b | .barArw _ b => barOk b
  | .barWait _ b p | .barTest _ _ b p => barOk b && (match p with | none => true | some r => regOk n r)
  | .barExp _ b r => wbOk b && regOk n r
  | .barPh _ a b => pairOk n a && barOk b
  | .cvdecl _ _ s =>
    (match s with | .imm k => decide (1 ≤ k.toNat) && decide (k.toNat ≤ 1024) | .reg r => regOk n r)
  | .cvq _ a _ => pairOk n a
  | .send _ _ a | .recv _ a _ | .chq _ a _ => regOk n a
  | .cpa4 o | .cpa8 o | .cpa16 o => o.ok n
  | .cpaFlush .. => true
  | .tcopy o out tr mt ct had fold mxs =>
    o.ok n && mt.isCopy && ct.isCopy && (mt == ct || quantPair mt ct)
      && (had == .none || quantPair mt ct) && (!fold || had != .none)
      && (!mxs || (mt == ct && mt.among [.e4m3, .e5m2, .e2m1] && decide (o.buf.toNat ≤ 30)))
      && (!tr || !mt.is4) && !(tr && mxs) && (!out || (!tr && had == .none && mt == ct))
  | .tgather o b t _ | .tscatter o b t =>
    o.ok n && t.isCopy && b.toNat % 8 == 0 && decide (b.toNat + 7 < n)
  | .tpack o f t _ | .tunpack o f t =>
    o.ok n && t.isCopy && f != 0 && !(t.is4 && (f.toNat + 1) % 2 == 1)
  | .mdcopy _ b _ bar _ _ _ _ => regOk n b && cbarOk bar
  | .cfill _ a b bar _ l => regOk n a && regOk n b && cbarOk bar && decide (1 ≤ l.toNat) && decide (l.toNat ≤ 3072)
  | .qfence _ q => q != 0
  | .qwait _ a _ => pairOk n a
  | .mldSt _ ta tb a _ => ta.isMat && tb.isMat && regOk n a
  | .mswap .. | .maccZ .. | .mcfg .. => true
  | .mstream _ ta tb sp mx _ s q a _ =>
    ta.isMat && tb.isMat && quadOk n a && (sp || s == 0) && (mx || q == 0)
  | .mtile _ ta tb _ _ t k a _ => ta.isMat && tb.isMat && quadOk n a && decide (t.toNat + k.toNat + 1 ≤ 4)
  | .maccSt _ t _ a _ | .maccLd _ t _ a _ => t.among [.f32, .s32, .bf16, .f16] && regOk n a
  | .mstat _ a _ => pairOk n a
  | .tret .. | .ckpt | .halt | .haltDbg => true
  | .tvec _ a | .vfsel _ a => regOk n a
  | .segLd _ h sgm a =>
    quadOk n a && (!h || lvl == .hypervisor) && (lvl != .supervisor || decide (sgm.toNat < 5))
  | .segRd _ a _ => quadOk n a
  | .sysRd _ a k | .sysWr _ k a => pairOk n a && sysAssigned k.toNat
  | .ckptQ _ a => quadOk n a
  | .snap _ b _ a => regOk n b && quadOk n a
  | .l2op _ _ b _ _ => regOk n b
  | .tlbProbe _ a b => quadOk n a && pairOk n b
  | .walkQ _ a b f s2 => quadOk n a && pairOk n b && (lvl == .hypervisor || (f == 0 && !s2))
  | .scrub _ a b => quadOk n a && pairOk n b
  | .tokRd _ a b _ => regOk n a && regOk n b
  | .partQ _ a b => quadOk n a && regOk n b
  | .trapEntry .. | .binAgeThreshold .. | .binDraw .. | .yieldEnd .. | .sleepWake ..
  | .schedStall .. | .parkWake .. | .loadComplete .. | .atomicReturn .. | .fenceRelease ..
  | .homeRequestArrival .. | .l1CopyExpiry .. | .tlbLeaseExpiry .. | .walkStart ..
  | .walkPendingRetry .. | .walkComplete .. | .swapRetry .. | .enlargerLeaseRenewal ..
  | .swapEngineExchange .. | .swapHorizonEnd .. | .windowReductionAccept ..
  | .windowContributionLimit .. | .switchMerge .. | .barrierArrivalCount ..
  | .barrierPhaseComplete .. | .barrierWaitRelease .. | .lbForward .. | .lbCompletionBroadcast ..
  | .sidebandPathLoss .. | .signatureRecord .. | .qmPlacement .. | .sendSlotFill ..
  | .recvSlotTake .. | .channelSlotFreed .. | .copyAccept .. | .copyLineWrite ..
  | .cpaCoalesceTimeout .. | .qfenceEntryComplete .. | .qwaitComplete .. | .matrixStep ..
  | .matrixWatchdog .. | .launchRecordTake .. | .rectClaim .. | .routeLoad .. | .residency ..
  | .gangPlacement .. | .launchSetup .. | .scrubTokenMatch .. | .cardReceive .. | .cardPlacement ..
  | .workgroupNormalEnd .. | .launchCompletion .. | .hostDoorbell .. | .prqReply ..
  | .prqReplyRefuse .. | .lqva .. | .leaseQueryDone .. | .hostApertureRead ..
  | .hostApertureWrite .. | .hostMapRead .. | .hostMapWrite .. | .mgdataRead .. | .mgdataWrite ..
  | .registerWrite .. | .prego .. | .killgo .. | .chipletReset .. | .chipletFence ..
  | .chipletDrop .. | .chipletFatal .. | .rsgo .. | .wdlim .. | .checkpointInstant ..
  | .checkpointDrainDone .. | .checkpointCommit .. | .crossPackageMessage .. | .partWrite ..
  | .connmatWrite .. | .waymaskWrite .. | .shareWrite .. | .scrubComplete .. | .dbmswap ..
  | .dbmSwapInstant .. | .dbmSwapDone .. | .rstgo .. | .restoreDone .. | .flitReceive ..
  | .linkFence .. | .linkgo .. | .clockSkew .. | .clockSkewRecover .. | .domen
  | .domainEpochLock .. | .domainLockTimeout .. | .fwgo | .firmwareCheckDone .. | .railSample ..
  | .minvClear .. | .railCrack .. | .thermalTrip .. | .thvalWrite .. | .thermalForecast ..
  | .bankRetiring .. | .bkack .. | .frameMove .. | .bankRetired .. | .powerOn .. | .packageReset
  | .powerLoss | .prqhead .. | .l2opDone .. | .snapCaptureDone .. | .uncorrectableError ..
  | .powerGating .. | .corePoweredAgain .. | .sensorFault .. | .vfEnable .. => true

end Sys2Proof
end

