-- ==== Sys2Proof/Decode.lean ====
section
/-! DEFINITION. The encodings of the four frames (02_words_and_assembly.md Tables 2.5 to 2.16 and the
field tables of each chapter): the reader of a word's fields, the encoder, and the decoder, which
accepts a word exactly when it is the encoding of a well-formed instruction (R34). -/

namespace Sys2Proof

/-! ### Field codes -/

/-- The types in code order (Table 2.4). -/
def Ty.all : List Ty :=
  [.b32, .b64, .s8, .s16, .s32, .s64, .n8, .n16, .n32, .n64, .s4, .n4, .f32, .f16, .bf16, .e4m3,
   .e5m2, .e2m1, .e8m0, .s8x4, .n8x4, .s4x8, .n4x8, .f16x2, .bf16x2, .e4m3x4, .e5m2x4, .e2m1x8]
/-- The code of a type (Table 2.4). -/
def Ty.code (t : Ty) : BitVec 5 := BitVec.ofNat 5 (Ty.all.idxOf t)
/-- The type of a code; 0x1C to 0x1F are reserved (R38). -/
def Ty.ofCode (c : BitVec 5) : Option Ty := Ty.all[c.toNat]?

/-- The rounding modes in code order (R39). -/
def Rnd.all : List Rnd := [.rne, .rz, .ru, .rd, .rna, .sr]
/-- The code of a rounding mode (R39). -/
def Rnd.code (r : Rnd) : BitVec 3 := BitVec.ofNat 3 (Rnd.all.idxOf r)
/-- The rounding mode of a code (R39). -/
def Rnd.ofCode (c : BitVec 3) : Option Rnd := Rnd.all[c.toNat]?

/-- The immediate rounding modes in variant order (Table 5.8). -/
def Rnd4.all : List Rnd4 := [.rne, .rz, .ru, .rd]
/-- The variant of an immediate rounding mode (Table 5.8). -/
def Rnd4.code (r : Rnd4) : BitVec 2 := BitVec.ofNat 2 (Rnd4.all.idxOf r)
/-- The immediate rounding mode of a variant (Table 5.8). -/
def Rnd4.ofCode (c : BitVec 2) : Option Rnd4 := Rnd4.all[c.toNat]?

/-- The S conditions in code order (R47). -/
def SCond.all : List SCond :=
  [.always, .eq, .ne, .lt, .ge, .le, .gt, .lo, .hs, .ls, .hi, .mi, .pl, .vs, .vc]
/-- The code of an S condition (R47). -/
def SCond.code (c : SCond) : BitVec 4 := BitVec.ofNat 4 (SCond.all.idxOf c)
/-- The S condition of a code; 0xF is reserved (R47). -/
def SCond.ofCode (c : BitVec 4) : Option SCond := SCond.all[c.toNat]?

/-- The selectors in code order (R69). -/
def SSel.all : List SSel := [.eq, .ne, .lt, .ge, .lo, .hs, .le, .gt]
/-- The code of a selector (R69). -/
def SSel.code (c : SSel) : BitVec 3 := BitVec.ofNat 3 (SSel.all.idxOf c)
/-- The selector of a code (R69). -/
def SSel.ofCode (c : BitVec 3) : Option SSel := SSel.all[c.toNat]?

/-- The integer conditions in sub-op order (R100). -/
def ICond.all : List ICond := [.eq, .ne, .lt, .le, .gt, .ge]
/-- The sub-op of an integer condition (R100). -/
def ICond.code (c : ICond) : BitVec 5 := BitVec.ofNat 5 (ICond.all.idxOf c)
/-- The integer condition of a sub-op (R100). -/
def ICond.ofCode (c : BitVec 5) : Option ICond := ICond.all[c.toNat]?

/-- The immediate conditions in variant order (Table 4.2). -/
def ImmCond.all : List ImmCond := [.eq, .ne, .lt, .ge]
/-- The variant of an immediate condition (Table 4.2). -/
def ImmCond.code (c : ImmCond) : BitVec 2 := BitVec.ofNat 2 (ImmCond.all.idxOf c)
/-- The immediate condition of a variant (Table 4.2). -/
def ImmCond.ofCode (c : BitVec 2) : Option ImmCond := ImmCond.all[c.toNat]?

/-- The floating-point conditions in sub-op order (Table 5.4). -/
def FCond.all : List FCond := [.eq, .ne, .lt, .le, .gt, .ge, .un, .ord]
/-- The sub-op of a floating-point condition (Table 5.4). -/
def FCond.code (c : FCond) : BitVec 5 := BitVec.ofNat 5 (FCond.all.idxOf c)
/-- The floating-point condition of a sub-op (Table 5.4). -/
def FCond.ofCode (c : BitVec 5) : Option FCond := FCond.all[c.toNat]?

/-- The reduction operations in code order (R140). -/
def GOp.all : List GOp := [.add, .min, .max, .and, .or, .xor]
/-- The code of a reduction operation (R140). -/
def GOp.code (c : GOp) : BitVec 3 := BitVec.ofNat 3 (GOp.all.idxOf c)
/-- The reduction operation of a code; 6 and 7 are reserved (R140). -/
def GOp.ofCode (c : BitVec 3) : Option GOp := GOp.all[c.toNat]?

/-- The fence modes in code order (R49). -/
def FenceMode.all : List FenceMode := [.rw, .r, .w, .io]
/-- The code of a fence mode (R49). -/
def FenceMode.code (c : FenceMode) : BitVec 4 := BitVec.ofNat 4 (FenceMode.all.idxOf c)
/-- The fence mode of a code (R49). -/
def FenceMode.ofCode (c : BitVec 4) : Option FenceMode := FenceMode.all[c.toNat]?

/-- The atomic operations in code order (Table 2.16). -/
def AOp.all : List AOp :=
  [.add, .sub, .min, .max, .and, .or, .xor, .exch, .cas, .incWrap, .decWrap, .fadd, .fmin, .fmax]
/-- The code of an atomic operation (Table 2.16). -/
def AOp.code (c : AOp) : BitVec 4 := BitVec.ofNat 4 (AOp.all.idxOf c)
/-- The atomic operation of a code; 14 and 15 are reserved (Table 2.16). -/
def AOp.ofCode (c : BitVec 4) : Option AOp := AOp.all[c.toNat]?

/-- The Hadamard modifiers in code order (Table 13.6). -/
def Had.all : List Had := [.none, .h16, .h32]
/-- The code of a Hadamard modifier (Table 13.6). -/
def Had.code (c : Had) : BitVec 2 := BitVec.ofNat 2 (Had.all.idxOf c)
/-- The Hadamard modifier of a code; 3 is reserved (Table 13.6). -/
def Had.ofCode (c : BitVec 2) : Option Had := Had.all[c.toNat]?

/-- The fills in code order (Table 13.6). -/
def Fill.all : List Fill := [.fz, .fnan, .fk]
/-- The code of a fill (Table 13.6). -/
def Fill.code (c : Fill) : BitVec 2 := BitVec.ofNat 2 (Fill.all.idxOf c)
/-- The fill of a code; 3 is reserved (Table 13.6). -/
def Fill.ofCode (c : BitVec 2) : Option Fill := Fill.all[c.toNat]?

/-- The `l2op` operations in code order (Table 15.2). -/
def L2Op.all : List L2Op := [.clean, .inv, .zero]
/-- The code of an `l2op` operation (Table 15.2). -/
def L2Op.code (c : L2Op) : BitVec 2 := BitVec.ofNat 2 (L2Op.all.idxOf c)
/-- The `l2op` operation of a code; 3 is reserved (Table 15.2). -/
def L2Op.ofCode (c : BitVec 2) : Option L2Op := L2Op.all[c.toNat]?

/-- The P opcodes in code order (Table 2.12). -/
def POp.all : List POp :=
  [.addN32, .subN32, .mulN32, .minS32, .maxS32, .minN32, .maxN32, .and, .or, .xor, .andn, .shl, .shr,
   .sar, .rot, .mov, .addsS32, .subsS32, .addsS8x4, .addsN8x4, .subsS8x4, .subsN8x4,
   .fadd, .fsub, .fmul, .fmin, .fmax, .fminn, .fmaxn, .faddF16x2, .faddBf16x2]
/-- The code of a P opcode: 0x00 to 0x15, then 0x40 to 0x48 (Table 2.12). -/
def POp.code (p : POp) : BitVec 7 :=
  BitVec.ofNat 7 (if POp.all.idxOf p < 22 then POp.all.idxOf p else POp.all.idxOf p - 22 + 0x40)
/-- The P opcode of a code, where Table 2.12 assigns one (R45). -/
def POp.ofCode (c : BitVec 7) : Option POp :=
  if c.toNat < 22 then POp.all[c.toNat]?
  else if 0x40 ≤ c.toNat then POp.all[c.toNat - 0x40 + 22]? else none

/-! ### The four frames -/

/-- A mask register in an 8-bit register field (R40: bits [7:4] zero). -/
def mField (m : MReg) : BitVec 8 := 0#4 ++ m
/-- One bit. -/
def bit1 (b : Bool) : BitVec 1 := if b then 1#1 else 0#1

/-- An F word, register form (Table 2.5). -/
def fWord (op : BitVec 8) (m : MReg) (d a b c : BitVec 8) (ty : Ty) (rm : Rnd) (mods sub : BitVec 5) : DWord :=
  0b00#2 ++ op ++ m ++ d ++ a ++ b ++ c ++ ty.code ++ rm.code ++ mods ++ sub
/-- An F word, immediate form (Table 2.6). -/
def iWord (op : BitVec 8) (m : MReg) (d a : BitVec 8) (v : BitVec 2) (imm : Word) : DWord :=
  0b00#2 ++ op ++ m ++ d ++ a ++ v ++ imm
/-- An S word (Table 2.8). -/
def sWord (op : BitVec 8) (d s : SCode) (c : SCond) (mod : BitVec 3) (i : Bool) (imm : Word) : DWord :=
  0b10#2 ++ op ++ d ++ s ++ c.code ++ mod ++ bit1 i ++ imm
/-- An X word (Table 2.15). -/
def xWord (op : BitVec 8) (m : MReg) (a b : BitVec 8) (buf : BufR) (bar : BarR) (q : BitVec 3)
    (mod : BitVec 20) : DWord :=
  0b11#2 ++ op ++ m ++ a ++ b ++ buf ++ bar ++ q ++ mod
/-- A half of a P word (Table 2.7). -/
def pHalf (p : PHalf) : BitVec 31 := p.op.code ++ p.m ++ p.d ++ p.b ++ 0#3 ++ bit1 p.nb ++ p.rm.code

/-- The modifier bits [9:5] of a floating-point opcode: negate a is bit 9 (Table 2.5). -/
def Signs.field (s : Signs) (sat : Bool) : BitVec 5 :=
  bit1 s.na ++ bit1 s.aa ++ bit1 s.nb ++ bit1 s.nc ++ bit1 sat
/-- The sign modifiers of bits [9:6]. -/
def Signs.ofField (f : BitVec 5) : Signs :=
  ⟨f.getLsbD 4, f.getLsbD 3, f.getLsbD 2, f.getLsbD 1⟩

/-- I and the immediate field of a second scalar operand (R46). -/
def Op2.isImm : Op2 → Bool
  | .imm _ => true
  | .code _ => false
/-- The immediate field of a second scalar operand (R46: bits [31:7] zero when I = 0). -/
def Op2.field : Op2 → Word
  | .imm v => v
  | .code c => 0#25 ++ c

/-- The report field (R183: 0 for no report, 0x10 + n for mn). -/
def repField : Option MReg → BarR
  | none => 0
  | some m => 0b01#2 ++ m
/-- The report mask of a report field. -/
def repOf (f : BarR) : Option MReg := if f = 0 then none else some (f.extractLsb' 0 4)

/-- A mask code 96 to 111 (R37). -/
def maskCode (m : MReg) : SCode := 0b110#3 ++ m

/-- The type and byte offset of the memory forms (R49). -/
def memMod (t : Ty) (off : BitVec 15) : BitVec 20 := t.code ++ off
/-- The type, operation and byte offset of the atomic forms (R49). -/
def atomMod (t : Ty) (op : AOp) (off : BitVec 11) : BitVec 20 := t.code ++ op.code ++ off

/-- A record-form word (Table 8.6). -/
def recWord (op : BitVec 8) (t : Ty) (o : RecOp) : DWord :=
  xWord op o.m o.a o.b o.buf (repField o.rep) 0 (memMod t o.off)
/-- A scratchpad-form word (Table 8.6). -/
def scrWord (op : BitVec 8) (t : Ty) (o : ScrOp) : DWord := xWord op o.m o.a o.b 0 0 0 (memMod t o.off)
/-- A tile-copy word (Table 13.5). -/
def tileWord (op : BitVec 8) (o : TileOp) (b : Reg) (mod : BitVec 20) : DWord :=
  xWord op o.m o.a b o.buf o.bar (0#1 ++ o.q) mod
/-- A lane-copy word (Table 13.5). -/
def cpaWord (op : BitVec 8) (o : CpaOp) : DWord :=
  xWord op o.m o.a o.b o.buf o.bar (0#1 ++ o.q) (0#5 ++ o.off)
/-- A matrix word: queue 4, B and buffer zero (R336). -/
def matWord (op : BitVec 8) (m : MReg) (a : Reg) (cv : BitVec 3) (mod : BitVec 20) : DWord :=
  xWord op m a 0 0 (0#3 ++ cv) 4 mod
/-- A system word without buffer, barrier and queue (Table 15.2). -/
def sysWord (op : BitVec 8) (m : MReg) (a b : Reg) (mod : BitVec 20) : DWord := xWord op m a b 0 0 0 mod
/-- The phase operand of `bar.wait` and `bar.test` (Table 12.4). -/
def phaseMod (p : Option Reg) : BitVec 20 := 0#19 ++ bit1 p.isSome
/-- The B field of `bar.wait` and `bar.test`. -/
def phaseReg (p : Option Reg) : Reg := p.getD 0

/-- No sign modifiers. -/
def Signs.zero : Signs := ⟨false, false, false, false⟩

/-- A floating-point word of two sources (Table 2.5). -/
def flWord (op : BitVec 8) (m : MReg) (t : Ty) (rm : Rnd) (sg : Signs) (d a b c : BitVec 8) : DWord :=
  fWord op m d a b c t rm (sg.field false) 0
/-- An integer word (Table 2.5). -/
def inWord (op : BitVec 8) (m : MReg) (t : Ty) (d a b c : BitVec 8) (sub : BitVec 5) : DWord :=
  fWord op m d a b c t .rne 0 sub
/-- A scalar arithmetic word (R65). -/
def saWord (op : BitVec 8) (c : SCond) (mod : BitVec 3) (d a : SCode) (b : Op2) : DWord :=
  sWord op d a c mod b.isImm b.field
/-- The modifier of an instruction with a signedness bit U at [33] (R66). -/
def uMod (u : Bool) : BitVec 3 := 0#2 ++ bit1 u

/-- The word of an instruction; events have none. -/
def encode : Instr → Option DWord
  | .smov c d src => some (sWord 0x00 d src c 0 false 0)
  | .smovi c d imm => some (sWord 0x01 d 0 c 0 true imm)
  | .sadd c d a b => some (saWord 0x02 c 0 d a b)
  | .ssub c d a b => some (saWord 0x03 c 0 d a b)
  | .smul c d a b => some (saWord 0x04 c 0 d a b)
  | .smulh c u d a b => some (saWord 0x05 c (uMod u) d a b)
  | .sand c d a b => some (saWord 0x06 c 0 d a b)
  | .sor c d a b => some (saWord 0x07 c 0 d a b)
  | .sxor c d a b => some (saWord 0x08 c 0 d a b)
  | .sshl c d a b => some (saWord 0x09 c 0 d a b)
  | .sshr c d a b => some (saWord 0x0A c 0 d a b)
  | .ssar c d a b => some (saWord 0x0B c 0 d a b)
  | .smin c u d a b => some (saWord 0x0C c (uMod u) d a b)
  | .smax c u d a b => some (saWord 0x0D c (uMod u) d a b)
  | .scmp c a b => some (saWord 0x0E c 0 0 a (.code b))
  | .scmpi c a imm => some (saWord 0x0F c 0 0 a (.imm imm))
  | .ssel c sel d a b => some (saWord 0x10 c sel.code d a b)
  | .sread c d v (.imm l) => some (sWord 0x11 d 0 c 0 true (0#19 ++ l ++ v))
  | .sread c d v (.code l) => some (sWord 0x11 d l c 0 true (0#18 ++ 1#1 ++ 0#5 ++ v))
  | .kst c k b => some (saWord 0x12 c 0 k 0 b)
  | .br c off => some (sWord 0x40 0 0 c 0 false off)
  | .bra c t => some (saWord 0x41 c 0 0 0 t)
  | .brmz c m off => some (sWord 0x42 0 (maskCode m) c 0 false off)
  | .brmnz c m off => some (sWord 0x43 0 (maskCode m) c 0 false off)
  | .brmf c m off => some (sWord 0x44 0 (maskCode m) c 0 false off)
  | .sloop c k off => some (sWord 0x45 k 0 c 0 false off)
  | .call c l off => some (sWord 0x46 (l.extractLsb' 0 7) 0 c (0#2 ++ l.extractLsb' 7 1) false off)
  | .ret c l => some (sWord 0x47 (l.extractLsb' 0 7) 0 c (0#2 ++ l.extractLsb' 7 1) false 0)
  | .trap c code => some (sWord 0x48 0 0 c 0 false (0#16 ++ code))
  | .nop c => some (sWord 0x49 0 0 c 0 false 0)
  | .hint n body => some (0b10#2 ++ 0xF#4 ++ n ++ body)
  | .yield c => some (sWord 0x4A 0 0 c 0 false 0)
  | .sleep c b => some (saWord 0x4B c 0 0 0 b)
  | .spawn c d s f k (.label off) =>
    some (sWord 0x60 (d ++ k.extractLsb' 0 3) 0 c (0#2 ++ k.extractLsb' 3 1) true (s ++ f ++ off))
  | .spawn c d s f k (.code e) =>
    some (sWord 0x60 (d ++ k.extractLsb' 0 3) e c (0#2 ++ k.extractLsb' 3 1) false (s ++ f ++ 0#20))
  | .reform c none => some (sWord 0x61 0 0 c 0 false 0)
  | .reform c (some t) => some (sWord 0x61 (t.extractLsb' 0 7) 0 c (0b10#2 ++ t.extractLsb' 7 1) false 0)
  | .reformTwo c m off => some (sWord 0x62 0 (maskCode m) c 0 false off)
  | .retire c => some (sWord 0x63 0 0 c 0 false 0)
  | .binAge c b => some (saWord 0x64 c 0 0 0 b)
  | .jpost c d a card k dir => some (sWord 0x65 d a c dir true (0#20 ++ k ++ 0#2 ++ card))
  | .mov m t d a => some (inWord 0x00 m t d a 0 0 0)
  | .movScalar m d src => some (inWord 0x00 m .b32 d (0#1 ++ src) 0 0 1)
  | .movi m d imm => some (iWord 0xE0 m d 0 0 imm)
  | .tidx m d => some (inWord 0x1D m .b32 d 0 0 0 0)
  | .add m t d a b => some (inWord 0x01 m t d a b 0 0)
  | .addc m d a b cm => some (inWord 0x02 m .n32 d a b (mField cm) 0)
  | .sub m t d a b => some (inWord 0x03 m t d a b 0 0)
  | .subc m d a b cm => some (inWord 0x04 m .n32 d a b (mField cm) 0)
  | .mul m t d a b => some (inWord 0x05 m t d a b 0 0)
  | .mulhi m t d a b => some (inWord 0x06 m t d a b 0 0)
  | .mad m t d a b e => some (inWord 0x07 m t d a b e 0)
  | .madw m t d a b e => some (inWord 0x08 m t d a b e 0)
  | .neg m t d a => some (inWord 0x09 m t d a 0 0 0)
  | .abs m t d a => some (inWord 0x0A m t d a 0 0 0)
  | .min m t d a b => some (inWord 0x0B m t d a b 0 0)
  | .max m t d a b => some (inWord 0x0C m t d a b 0 0)
  | .and m t d a b => some (inWord 0x0D m t d a b 0 0)
  | .or m t d a b => some (inWord 0x0E m t d a b 0 0)
  | .xor m t d a b => some (inWord 0x0F m t d a b 0 0)
  | .not m t d a => some (inWord 0x10 m t d a 0 0 0)
  | .andn m t d a b => some (inWord 0x11 m t d a b 0 0)
  | .shl m t d a b => some (inWord 0x12 m t d a b 0 0)
  | .shr m t d a b => some (inWord 0x13 m t d a b 0 0)
  | .sar m t d a b => some (inWord 0x14 m t d a b 0 0)
  | .rot m t d a b => some (inWord 0x15 m t d a b 0 0)
  | .bfx m t d a b => some (inWord 0x16 m t d a b 0 0)
  | .bfi m d a b e => some (inWord 0x17 m .b32 d a b e 0)
  | .popc m t d a => some (inWord 0x18 m t d a 0 0 0)
  | .clz m t d a => some (inWord 0x19 m t d a 0 0 0)
  | .brev m t d a => some (inWord 0x1A m t d a 0 0 0)
  | .sel m t d a b cm => some (inWord 0x1B m t d a b (mField cm) 0)
  | .cmp m cond t d a b => some (inWord 0x1C m t (mField d) a b 0 cond.code)
  | .cvti m dt ft sat d a => some (fWord 0x1E m d a 0 0 dt .rne (0#4 ++ bit1 sat) ft.code)
  | .adds m t d a b => some (inWord 0x1F m t d a b 0 0)
  | .subs m t d a b => some (inWord 0x20 m t d a b 0 0)
  | .dot4 m t d a b e => some (inWord 0x21 m t d a b e 0)
  | .dot8 m t d a b e => some (inWord 0x22 m t d a b e 0)
  | .addImm m d a imm => some (iWord 0xE1 m d a 0 imm)
  | .addsImm m u d a imm => some (iWord 0xE1 m d a (bit1 u ++ 1#1) imm)
  | .mulImm m d a imm => some (iWord 0xE2 m d a 0 imm)
  | .andImm m d a imm => some (iWord 0xE3 m d a 0 imm)
  | .orImm m d a imm => some (iWord 0xE4 m d a 0 imm)
  | .xorImm m d a imm => some (iWord 0xE5 m d a 0 imm)
  | .andnImm m d a imm => some (iWord 0xE6 m d a 0 imm)
  | .shlImm m d a k => some (iWord 0xE7 m d a 0 (0#27 ++ k))
  | .shrImm m d a k => some (iWord 0xE8 m d a 0 (0#27 ++ k))
  | .sarImm m d a k => some (iWord 0xE9 m d a 0 (0#27 ++ k))
  | .rotImm m d a k => some (iWord 0xEA m d a 0 (0#27 ++ k))
  | .minImm m u d a imm => some (iWord 0xEB m d a (bit1 u ++ 0#1) imm)
  | .maxImm m u d a imm => some (iWord 0xEC m d a (bit1 u ++ 0#1) imm)
  | .cmpS32Imm m cond d a imm => some (iWord 0xED m (mField d) a cond.code imm)
  | .cmpN32Imm m cond d a imm => some (iWord 0xEE m (mField d) a cond.code imm)
  | .bfxImm m sg d a pos wd => some (iWord 0xEF m d a (bit1 sg ++ 0#1) (0#18 ++ wd ++ 0#3 ++ pos))
  | .fadd m t rm sg d a b => some (flWord 0x40 m t rm sg d a b 0)
  | .fsub m rm sg d a b => some (flWord 0x41 m .f32 rm sg d a b 0)
  | .fmul m rm sg d a b => some (flWord 0x42 m .f32 rm sg d a b 0)
  | .fma m t rm sg d a b e => some (flWord 0x43 m t rm sg d a b e)
  | .fmin m sg d a b => some (flWord 0x44 m .f32 .rne sg d a b 0)
  | .fmax m sg d a b => some (flWord 0x45 m .f32 .rne sg d a b 0)
  | .fminn m sg d a b => some (flWord 0x46 m .f32 .rne sg d a b 0)
  | .fmaxn m sg d a b => some (flWord 0x47 m .f32 .rne sg d a b 0)
  | .fcmp m cond sg d a b => some (fWord 0x48 m (mField d) a b 0 .f32 .rne (sg.field false) cond.code)
  | .fclass m sg d a => some (flWord 0x49 m .f32 .rne sg d a 0 0)
  | .frcp m rm sg d a => some (flWord 0x4A m .f32 rm sg d a 0 0)
  | .frsq m rm sg d a => some (flWord 0x4B m .f32 rm sg d a 0 0)
  | .fsqrt m rm sg d a => some (flWord 0x4C m .f32 rm sg d a 0 0)
  | .fdiv m rm sg d a b => some (flWord 0x4D m .f32 rm sg d a b 0)
  | .fexp2 m sg d a => some (flWord 0x4E m .f32 .rne sg d a 0 0)
  | .flog2 m sg d a => some (flWord 0x4F m .f32 .rne sg d a 0 0)
  | .ffract m sg d a => some (flWord 0x50 m .f32 .rne sg d a 0 0)
  | .fround m rm sg d a => some (flWord 0x51 m .f32 rm sg d a 0 0)
  | .fldexp m rm sg d a b => some (flWord 0x52 m .f32 rm sg d a b 0)
  | .fcvt m dt ft rm sat sg d a e => some (fWord 0x53 m d a 0 e dt rm (sg.field sat) ft.code)
  | .fpack m dt ft rm sat sg d a b e => some (fWord 0x54 m d a b e dt rm (sg.field sat) ft.code)
  | .fdot2 m t rm sg d a b e => some (flWord 0x55 m t rm sg d a b e)
  | .fdot4 m t rm sg d a b e => some (flWord 0x56 m t rm sg d a b e)
  | .fdot8 m rm sg d a b e => some (flWord 0x57 m .e2m1x8 rm sg d a b e)
  | .mxs m t sg d a => some (flWord 0x58 m t .rne sg d a 0 0)
  | .faddImm m rm d a imm => some (iWord 0xF0 m d a rm.code imm)
  | .fmulImm m rm d a imm => some (iWord 0xF1 m d a rm.code imm)
  | .fmaImm m rm d a imm => some (iWord 0xF2 m d a rm.code imm)
  | .fminImm m d a imm => some (iWord 0xF3 m d a 0 imm)
  | .fmaxImm m d a imm => some (iWord 0xF4 m d a 0 imm)
  | .fcmpImm m cond d a imm => some (iWord 0xF5 m (mField d) a cond.code imm)
  | .mand m d a b => some (inWord 0x80 m .b32 (mField d) (mField a) (mField b) 0 0)
  | .mor m d a b => some (inWord 0x81 m .b32 (mField d) (mField a) (mField b) 0 0)
  | .mxor m d a b => some (inWord 0x82 m .b32 (mField d) (mField a) (mField b) 0 0)
  | .mandn m d a b => some (inWord 0x83 m .b32 (mField d) (mField a) (mField b) 0 0)
  | .mnot m d a => some (inWord 0x84 m .b32 (mField d) (mField a) 0 0 0)
  | .mmov m d a => some (inWord 0x85 m .b32 (mField d) (mField a) 0 0 0)
  | .mseti m d imm => some (iWord 0xF6 m (mField d) 0 0 imm)
  | .mvoteBallot m d a => some (inWord 0x86 m .b32 (mField d) a 0 0 0)
  | .mvoteEq m d a => some (inWord 0x86 m .b32 (mField d) a 0 0 1)
  | .mpop m d a => some (inWord 0x87 m .b32 d (mField a) 0 0 0)
  | .mfirst m d a => some (inWord 0x88 m .b32 d (mField a) 0 0 0)
  | .mlast m d a => some (inWord 0x89 m .b32 d (mField a) 0 0 0)
  | .qswx m d a => some (inWord 0x8A m .b32 d a 0 0 0)
  | .qswy m d a => some (inWord 0x8B m .b32 d a 0 0 0)
  | .qswd m d a => some (inWord 0x8C m .b32 d a 0 0 0)
  | .qbc m d a p => some (inWord 0x8D m .b32 d a 0 0 (0#3 ++ p))
  | .gshf m d a b => some (inWord 0x8E m .b32 d a b 0 0)
  | .gshu m d a k => some (inWord 0x8F m .b32 d a 0 0 k)
  | .gshd m d a k => some (inWord 0x90 m .b32 d a 0 0 k)
  | .gshx m d a k => some (inWord 0x91 m .b32 d a 0 0 k)
  | .gbc m d a k => some (inWord 0x92 m .b32 d a 0 0 k)
  | .gred m op t rm d a => some (fWord 0x93 m d a 0 0 t rm 0 (0#2 ++ op.code))
  | .gscan m op excl t rm d a => some (fWord 0x94 m d a 0 0 t rm 0 (bit1 excl ++ 0#1 ++ op.code))
  | .pPair h0 h1 => some (0b01#2 ++ pHalf h0 ++ pHalf h1)
  | .ld t o => some (recWord 0x00 t o)
  | .st t o => some (recWord 0x01 t o)
  | .ldAcq t o => some (recWord 0x02 t o)
  | .stRel t o => some (recWord 0x03 t o)
  | .lds t o => some (scrWord 0x04 t o)
  | .sts t o => some (scrWord 0x05 t o)
  | .ldw t o => some (recWord 0x06 t o)
  | .stw t o => some (recWord 0x07 t o)
  | .ldacc t o => some (scrWord 0x08 t o)
  | .prf t m b buf off => some (xWord 0x09 m 0 b buf 0 0 (memMod t off))
  | .present m d b off => some (xWord 0x0A m (mField d) b 0 0 0 (memMod .b32 off))
  | .fence m mode => some (xWord 0x0B m 0 0 0 0 0 (mode.code ++ 0#16))
  | .brec m buf a => some (xWord 0x0C m a 0 buf 0 0 0)
  | .brrd m a buf => some (xWord 0x0D m a 0 buf 0 0 0)
  | .leaseQ m a b buf off => some (xWord 0x0E m a b buf 0 0 (0#5 ++ off))
  | .leaseRenew m a b buf off => some (xWord 0x0F m a b buf 0 0 (0#5 ++ off))
  | .atom op t o => some (xWord 0x10 o.m o.a o.b o.buf (repField o.rep) 0 (atomMod t op o.off))
  | .red op t o => some (xWord 0x11 o.m o.a o.b o.buf (repField o.rep) 0 (atomMod t op o.off))
  | .atoms op t o => some (xWord 0x12 o.m o.a o.b 0 0 0 (atomMod t op o.off))
  | .reds op t o => some (xWord 0x13 o.m o.a o.b 0 0 0 (atomMod t op o.off))
  | .barArr m bar => some (xWord 0x40 m 0 0 0 bar 0 0)
  | .barWait m bar p => some (xWord 0x41 m 0 (phaseReg p) 0 bar 0 (phaseMod p))
  | .barArw m bar => some (xWord 0x42 m 0 0 0 bar 0 0)
  | .barExp m bar b => some (xWord 0x43 m 0 b 0 bar 0 0)
  | .barTest m d bar p => some (xWord 0x44 m (mField d) (phaseReg p) 0 bar 0 (phaseMod p))
  | .barPh m a bar => some (xWord 0x45 m a 0 0 bar 0 0)
  | .cvdecl m cv (.imm k) => some (xWord 0x46 m 0 0 0 (0#3 ++ cv) 0 (0#9 ++ k))
  | .cvdecl m cv (.reg r) => some (xWord 0x46 m 0 r 0 (0#3 ++ cv) 0 (0#7 ++ 1#1 ++ 0#12))
  | .cvq m a cv => some (xWord 0x47 m a 0 0 (0#3 ++ cv) 0 0)
  | .send m ch a => some (xWord 0x48 m a 0 0 (0#2 ++ ch) 0 0)
  | .recv m a ch => some (xWord 0x49 m a 0 0 (0#2 ++ ch) 0 0)
  | .chq m a ch => some (xWord 0x4A m a 0 0 (0#2 ++ ch) 0 0)
  | .cpa4 o => some (cpaWord 0x60 o)
  | .cpa8 o => some (cpaWord 0x61 o)
  | .cpa16 o => some (cpaWord 0x62 o)
  | .cpaFlush m => some (xWord 0x63 m 0 0 0 0 0 0)
  | .tcopy o out tr mt ct had fold mxs =>
    some (tileWord 0x64 o 0
      (0#4 ++ bit1 mxs ++ bit1 fold ++ had.code ++ ct.code ++ mt.code ++ bit1 tr ++ bit1 out))
  | .tgather o b t fill => some (tileWord 0x65 o b (0#13 ++ fill.code ++ t.code))
  | .tscatter o b t => some (tileWord 0x66 o b (0#15 ++ t.code))
  | .tpack o f t fill => some (tileWord 0x67 o 0 (0#7 ++ fill.code ++ t.code ++ f))
  | .tunpack o f t => some (tileWord 0x68 o 0 (0#9 ++ t.code ++ f))
  | .mdcopy m b buf bar q slot scale n =>
    some (xWord 0x69 m 0 b buf bar (0#1 ++ q) (0#9 ++ n ++ bit1 scale ++ slot))
  | .cfill m a b bar q lines => some (xWord 0x6A m a b 0 bar (0#1 ++ q) (0#8 ++ lines))
  | .qfence m qs => some (xWord 0x6B m 0 0 0 0 0 (0#15 ++ qs))
  | .qwait m a q => some (xWord 0x6C m a 0 0 0 (0#1 ++ q) 0)
  | .mldSt m ta tb a cv => some (matWord 0x80 m a cv (0#10 ++ tb.code ++ ta.code))
  | .mswap m cv => some (matWord 0x81 m 0 cv 0)
  | .mstream m ta tb sp mx t s q a cv =>
    some (matWord 0x82 m a cv (0#2 ++ q ++ s ++ t ++ bit1 mx ++ bit1 sp ++ tb.code ++ ta.code))
  | .mtile m ta tb mx set t k a cv =>
    some (matWord 0x83 m a cv (0#3 ++ bit1 set ++ k ++ t ++ bit1 mx ++ 0#1 ++ tb.code ++ ta.code))
  | .maccZ m t cv => some (matWord 0x84 m 0 cv (0#6 ++ t ++ 0#12))
  | .maccSt m ty t a cv => some (matWord 0x85 m a cv (0#6 ++ t ++ 0#7 ++ ty.code))
  | .maccLd m ty t a cv => some (matWord 0x86 m a cv (0#6 ++ t ++ 0#7 ++ ty.code))
  | .mstat m a t => some (matWord 0x87 m a 0 (0#6 ++ t ++ 0#12))
  | .mcfg m tiles flags f => some (matWord 0x88 m 0 0 (0#12 ++ bit1 f ++ flags ++ tiles))
  | .tret skip => some (sysWord 0xC0 0 0 0 (0#19 ++ bit1 skip))
  | .tvec m a => some (sysWord 0xC1 m a 0 0)
  | .segLd m h sgm a => some (sysWord 0xC2 m a 0 (0#16 ++ bit1 h ++ sgm))
  | .segRd m a sgm => some (sysWord 0xC3 m a 0 (0#17 ++ sgm))
  | .sysRd m a n => some (sysWord 0xC4 m a 0 (0#8 ++ n))
  | .sysWr m n a => some (sysWord 0xC5 m a 0 (0#8 ++ n))
  | .ckpt => some (sysWord 0xC6 0 0 0 0)
  | .ckptQ m a => some (sysWord 0xC7 m a 0 0)
  | .halt => some (sysWord 0xC8 0 0 0 0)
  | .haltDbg => some (sysWord 0xC8 0 0 0 1)
  | .snap m b buf a => some (xWord 0xC9 m a b buf 0 0 0)
  | .l2op m op b buf lines => some (xWord 0xCA m 0 b buf 0 0 (0#6 ++ op.code ++ lines))
  | .vfsel m a => some (sysWord 0xCB m a 0 0)
  | .tlbProbe m a b => some (sysWord 0xCC m a b 0)
  | .walkQ m a b f s2 => some (xWord 0xCD m a b 0 f 0 (0#3 ++ bit1 s2 ++ 0#16))
  | .scrub m a b => some (sysWord 0xCE m a b 0)
  | .tokRd m a b off => some (sysWord 0xCF m a b (0#5 ++ off))
  | .partQ m a b => some (sysWord 0xD0 m a b 0)
  | .trapEntry .. | .binAgeThreshold .. | .binDraw .. | .yieldEnd .. | .sleepWake ..
  | .schedStall .. | .parkWake .. | .loadComplete .. | .atomicReturn .. | .fenceRelease ..
  | .homeRequestArrival .. | .l1CopyExpiry .. | .tlbLeaseExpiry .. | .walkStart ..
  | .walkPendingRetry .. | .walkComplete .. | .swapRetry .. | .enlargerLeaseRenewal ..
  | .swapEngineExchange .. | .swapHorizonEnd .. | .windowReductionAccept ..
  | .windowContributionLimit .. | .switchMerge .. | .barrierArrivalCount ..
  | .barrierPhaseComplete .. | .barrierWaitRelease .. | .lbForward .. | .lbCompletionBroadcast ..
  | .sidebandPathLoss .. | .signatureRecord .. | .qmPlacement .. | .sendSlotFill ..
  | .recvSlotTake .. | .channelSlotFreed .. | .copyAccept .. | .copyLineWrite ..
  | .cpaCoalesceTimeout .. | .qfenceEntryComplete .. | .qwaitComplete .. | .matrixStep ..
  | .matrixWatchdog .. | .launchRecordTake .. | .rectClaim .. | .routeLoad .. | .residency ..
  | .gangPlacement .. | .launchSetup .. | .scrubTokenMatch .. | .cardReceive .. | .cardPlacement ..
  | .workgroupNormalEnd .. | .launchCompletion .. | .hostDoorbell .. | .prqReply ..
  | .prqReplyRefuse .. | .lqva .. | .leaseQueryDone .. | .hostApertureRead ..
  | .hostApertureWrite .. | .hostMapRead .. | .hostMapWrite .. | .mgdataRead .. | .mgdataWrite ..
  | .registerWrite .. | .prego .. | .killgo .. | .chipletReset .. | .chipletFence ..
  | .chipletDrop .. | .chipletFatal .. | .rsgo .. | .wdlim .. | .checkpointInstant ..
  | .checkpointDrainDone .. | .checkpointCommit .. | .crossPackageMessage .. | .partWrite ..
  | .connmatWrite .. | .waymaskWrite .. | .shareWrite .. | .scrubComplete .. | .dbmswap ..
  | .dbmSwapInstant .. | .dbmSwapDone .. | .rstgo .. | .restoreDone .. | .flitReceive ..
  | .linkFence .. | .linkgo .. | .clockSkew .. | .clockSkewRecover .. | .domen
  | .domainEpochLock .. | .domainLockTimeout .. | .fwgo | .firmwareCheckDone .. | .railSample ..
  | .minvClear .. | .railCrack .. | .thermalTrip .. | .thvalWrite .. | .thermalForecast ..
  | .bankRetiring .. | .bkack .. | .frameMove .. | .bankRetired .. | .powerOn .. | .packageReset
  | .powerLoss | .prqhead .. | .l2opDone .. | .snapCaptureDone .. | .uncorrectableError ..
  | .powerGating .. | .corePoweredAgain .. | .sensorFault .. | .vfEnable .. => none

/-! ### Reading the fields of a word -/

/-- The second scalar operand by I (R46). -/
def readOp2 (i : Bool) (imm : Word) : Op2 := if i then .imm imm else .code (imm.extractLsb' 0 7)

/-- The instruction of an F word's register-form fields; the canonical check of `decode` refuses what is
not in its place (Tables 2.5, 2.9 to 2.11). -/
def fArm (op : BitVec 8) (m : MReg) (d a b c : Reg) (tc : BitVec 5) (rc : BitVec 3) (mods sub : BitVec 5) :
    Option Instr :=
  let dm : MReg := d.extractLsb' 0 4
  let am : MReg := a.extractLsb' 0 4
  let bm : MReg := b.extractLsb' 0 4
  let cm : MReg := c.extractLsb' 0 4
  let sg := Signs.ofField mods
  let sat := mods.getLsbD 0
  let ty := Ty.ofCode tc
  let rm := Rnd.ofCode rc
  let ft := Ty.ofCode sub
  match op.toNat with
  | 0x00 => if sub = 1 then some (.movScalar m d (a.extractLsb' 0 7)) else ty.map (.mov m · d a)
  | 0x01 => ty.map (.add m · d a b)
  | 0x02 => some (.addc m d a b cm)
  | 0x03 => ty.map (.sub m · d a b)
  | 0x04 => some (.subc m d a b cm)
  | 0x05 => ty.map (.mul m · d a b)
  | 0x06 => ty.map (.mulhi m · d a b)
  | 0x07 => ty.map (.mad m · d a b c)
  | 0x08 => ty.map (.madw m · d a b c)
  | 0x09 => ty.map (.neg m · d a)
  | 0x0A => ty.map (.abs m · d a)
  | 0x0B => ty.map (.min m · d a b)
  | 0x0C => ty.map (.max m · d a b)
  | 0x0D => ty.map (.and m · d a b)
  | 0x0E => ty.map (.or m · d a b)
  | 0x0F => ty.map (.xor m · d a b)
  | 0x10 => ty.map (.not m · d a)
  | 0x11 => ty.map (.andn m · d a b)
  | 0x12 => ty.map (.shl m · d a b)
  | 0x13 => ty.map (.shr m · d a b)
  | 0x14 => ty.map (.sar m · d a b)
  | 0x15 => ty.map (.rot m · d a b)
  | 0x16 => ty.map (.bfx m · d a b)
  | 0x17 => some (.bfi m d a b c)
  | 0x18 => ty.map (.popc m · d a)
  | 0x19 => ty.map (.clz m · d a)
  | 0x1A => ty.map (.brev m · d a)
  | 0x1B => ty.map (.sel m · d a b cm)
  | 0x1C => ty.bind fun t => (ICond.ofCode sub).map (.cmp m · t dm a b)
  | 0x1D => some (.tidx m d)
  | 0x1E => ty.bind fun t => ft.map (.cvti m t · sat d a)
  | 0x1F => ty.map (.adds m · d a b)
  | 0x20 => ty.map (.subs m · d a b)
  | 0x21 => ty.map (.dot4 m · d a b c)
  | 0x22 => ty.map (.dot8 m · d a b c)
  | 0x40 => ty.bind fun t => rm.map (.fadd m t · sg d a b)
  | 0x41 => rm.map (.fsub m · sg d a b)
  | 0x42 => rm.map (.fmul m · sg d a b)
  | 0x43 => ty.bind fun t => rm.map (.fma m t · sg d a b c)
  | 0x44 => some (.fmin m sg d a b)
  | 0x45 => some (.fmax m sg d a b)
  | 0x46 => some (.fminn m sg d a b)
  | 0x47 => some (.fmaxn m sg d a b)
  | 0x48 => (FCond.ofCode sub).map (.fcmp m · sg dm a b)
  | 0x49 => some (.fclass m sg d a)
  | 0x4A => rm.map (.frcp m · sg d a)
  | 0x4B => rm.map (.frsq m · sg d a)
  | 0x4C => rm.map (.fsqrt m · sg d a)
  | 0x4D => rm.map (.fdiv m · sg d a b)
  | 0x4E => some (.fexp2 m sg d a)
  | 0x4F => some (.flog2 m sg d a)
  | 0x50 => some (.ffract m sg d a)
  | 0x51 => rm.map (.fround m · sg d a)
  | 0x52 => rm.map (.fldexp m · sg d a b)
  | 0x53 => ty.bind fun t => ft.bind fun f => rm.map (.fcvt m t f · sat sg d a c)
  | 0x54 => ty.bind fun t => ft.bind fun f => rm.map (.fpack m t f · sat sg d a b c)
  | 0x55 => ty.bind fun t => rm.map (.fdot2 m t · sg d a b c)
  | 0x56 => ty.bind fun t => rm.map (.fdot4 m t · sg d a b c)
  | 0x57 => rm.map (.fdot8 m · sg d a b c)
  | 0x58 => ty.map (.mxs m · sg d a)
  | 0x80 => some (.mand m dm am bm)
  | 0x81 => some (.mor m dm am bm)
  | 0x82 => some (.mxor m dm am bm)
  | 0x83 => some (.mandn m dm am bm)
  | 0x84 => some (.mnot m dm am)
  | 0x85 => some (.mmov m dm am)
  | 0x86 => if sub = 1 then some (.mvoteEq m dm a) else some (.mvoteBallot m dm a)
  | 0x87 => some (.mpop m d am)
  | 0x88 => some (.mfirst m d am)
  | 0x89 => some (.mlast m d am)
  | 0x8A => some (.qswx m d a)
  | 0x8B => some (.qswy m d a)
  | 0x8C => some (.qswd m d a)
  | 0x8D => some (.qbc m d a (sub.extractLsb' 0 2))
  | 0x8E => some (.gshf m d a b)
  | 0x8F => some (.gshu m d a sub)
  | 0x90 => some (.gshd m d a sub)
  | 0x91 => some (.gshx m d a sub)
  | 0x92 => some (.gbc m d a sub)
  | 0x93 => ty.bind fun t => rm.bind fun r => (GOp.ofCode (sub.extractLsb' 0 3)).map (.gred m · t r d a)
  | 0x94 => ty.bind fun t => rm.bind fun r =>
      (GOp.ofCode (sub.extractLsb' 0 3)).map (.gscan m · (sub.getLsbD 4) t r d a)
  | _ => none

/-- The instruction of an F word's immediate-form fields (Table 2.6). -/
def iArm (op : BitVec 8) (m : MReg) (d a : Reg) (v : BitVec 2) (imm : Word) : Option Instr :=
  let dm : MReg := d.extractLsb' 0 4
  let sh : BitVec 5 := imm.extractLsb' 0 5
  match op.toNat with
  | 0xE0 => some (.movi m d imm)
  | 0xE1 => if v = 0 then some (.addImm m d a imm) else some (.addsImm m (v.getLsbD 1) d a imm)
  | 0xE2 => some (.mulImm m d a imm)
  | 0xE3 => some (.andImm m d a imm)
  | 0xE4 => some (.orImm m d a imm)
  | 0xE5 => some (.xorImm m d a imm)
  | 0xE6 => some (.andnImm m d a imm)
  | 0xE7 => some (.shlImm m d a sh)
  | 0xE8 => some (.shrImm m d a sh)
  | 0xE9 => some (.sarImm m d a sh)
  | 0xEA => some (.rotImm m d a sh)
  | 0xEB => some (.minImm m (v.getLsbD 1) d a imm)
  | 0xEC => some (.maxImm m (v.getLsbD 1) d a imm)
  | 0xED => (ImmCond.ofCode v).map (.cmpS32Imm m · dm a imm)
  | 0xEE => (ImmCond.ofCode v).map (.cmpN32Imm m · dm a imm)
  | 0xEF => some (.bfxImm m (v.getLsbD 1) d a sh (imm.extractLsb' 8 6))
  | 0xF0 => (Rnd4.ofCode v).map (.faddImm m · d a imm)
  | 0xF1 => (Rnd4.ofCode v).map (.fmulImm m · d a imm)
  | 0xF2 => (Rnd4.ofCode v).map (.fmaImm m · d a imm)
  | 0xF3 => some (.fminImm m d a imm)
  | 0xF4 => some (.fmaxImm m d a imm)
  | 0xF5 => (ImmCond.ofCode v).map (.fcmpImm m · dm a imm)
  | 0xF6 => some (.mseti m dm imm)
  | _ => none

/-- The fields of an F word as an instruction: opcodes from 0xE0 are immediate forms (R41). -/
def parseF (w : DWord) : Option Instr :=
  let op : BitVec 8 := w.extractLsb' 54 8
  let m : MReg := w.extractLsb' 50 4
  let d : Reg := w.extractLsb' 42 8
  let a : Reg := w.extractLsb' 34 8
  if 0xE0 ≤ op.toNat then iArm op m d a (w.extractLsb' 32 2) (w.extractLsb' 0 32)
  else fArm op m d a (w.extractLsb' 26 8) (w.extractLsb' 18 8) (w.extractLsb' 13 5) (w.extractLsb' 10 3)
    (w.extractLsb' 5 5) (w.extractLsb' 0 5)

/-- One half of a P word (Table 2.7). -/
def parseHalf (x : BitVec 31) : Option PHalf :=
  (POp.ofCode (x.extractLsb' 24 7)).bind fun op =>
    (Rnd.ofCode (x.extractLsb' 0 3)).map fun rm =>
      ⟨op, x.extractLsb' 21 3, x.extractLsb' 14 7, x.extractLsb' 7 7, rm, x.getLsbD 3⟩

/-- The two halves of a P word (R43). -/
def parseP (w : DWord) : Option Instr :=
  (parseHalf (w.extractLsb' 31 31)).bind fun h0 => (parseHalf (w.extractLsb' 0 31)).map (.pPair h0 ·)

/-- The instruction of an S word's fields under a condition (Tables 2.8, 2.14, 3.2, 7.3). -/
def sArm (op : BitVec 8) (d s : SCode) (c : SCond) (md : BitVec 3) (i : Bool) (imm : Word) : Option Instr :=
  let sm : MReg := s.extractLsb' 0 4
  let u := md.getLsbD 0
  let b := readOp2 i imm
  let l : Reg := md.extractLsb' 0 1 ++ d
  match op.toNat with
  | 0x00 => some (.smov c d s)
  | 0x01 => some (.smovi c d imm)
  | 0x02 => some (.sadd c d s b)
  | 0x03 => some (.ssub c d s b)
  | 0x04 => some (.smul c d s b)
  | 0x05 => some (.smulh c u d s b)
  | 0x06 => some (.sand c d s b)
  | 0x07 => some (.sor c d s b)
  | 0x08 => some (.sxor c d s b)
  | 0x09 => some (.sshl c d s b)
  | 0x0A => some (.sshr c d s b)
  | 0x0B => some (.ssar c d s b)
  | 0x0C => some (.smin c u d s b)
  | 0x0D => some (.smax c u d s b)
  | 0x0E => some (.scmp c s (imm.extractLsb' 0 7))
  | 0x0F => some (.scmpi c s imm)
  | 0x10 => (SSel.ofCode md).map (.ssel c · d s b)
  | 0x11 => some (.sread c d (imm.extractLsb' 0 8) (if imm.getLsbD 13 then .code s else .imm (imm.extractLsb' 8 5)))
  | 0x12 => some (.kst c d b)
  | 0x40 => some (.br c imm)
  | 0x41 => some (.bra c b)
  | 0x42 => some (.brmz c sm imm)
  | 0x43 => some (.brmnz c sm imm)
  | 0x44 => some (.brmf c sm imm)
  | 0x45 => some (.sloop c d imm)
  | 0x46 => some (.call c l imm)
  | 0x47 => some (.ret c l)
  | 0x48 => some (.trap c (imm.extractLsb' 0 16))
  | 0x49 => some (.nop c)
  | 0x4A => some (.yield c)
  | 0x4B => some (.sleep c b)
  | 0x60 => some (.spawn c (d.extractLsb' 3 4) (imm.extractLsb' 28 4) (imm.extractLsb' 20 8)
      (md.extractLsb' 0 1 ++ (d.extractLsb' 0 3 : BitVec 3)) (if i then .label (imm.extractLsb' 0 20) else .code s))
  | 0x61 => some (.reform c (if md.getLsbD 2 then some l else none))
  | 0x62 => some (.reformTwo c sm imm)
  | 0x63 => some (.retire c)
  | 0x64 => some (.binAge c b)
  | 0x65 => some (.jpost c d s (imm.extractLsb' 0 6) (imm.extractLsb' 8 4) md)
  | _ => none

/-- The fields of an S word as an instruction; opcodes 0xF0 to 0xFF are hints (R52). -/
def parseS (w : DWord) : Option Instr :=
  if w.extractLsb' 58 4 = 0xF#4 then some (.hint (w.extractLsb' 54 4) (w.extractLsb' 0 54))
  else (SCond.ofCode (w.extractLsb' 36 4)).bind fun c =>
    sArm (w.extractLsb' 54 8) (w.extractLsb' 47 7) (w.extractLsb' 40 7) c (w.extractLsb' 33 3) (w.getLsbD 32)
      (w.extractLsb' 0 32)

/-- The instruction of an X word's fields (Table 2.15 and the field tables of chapters 8 to 16). -/
def xArm (op : BitVec 8) (m : MReg) (a b : Reg) (buf : BufR) (bar : BarR) (qf : BitVec 3) (mod : BitVec 20) :
    Option Instr :=
  let am : MReg := a.extractLsb' 0 4
  let cv : BitVec 3 := bar.extractLsb' 0 3
  let ch : BitVec 4 := bar.extractLsb' 0 4
  let q : BitVec 2 := qf.extractLsb' 0 2
  let off : BitVec 15 := mod.extractLsb' 0 15
  let off11 : BitVec 11 := mod.extractLsb' 0 11
  let ty := Ty.ofCode (mod.extractLsb' 15 5)
  let aop := AOp.ofCode (mod.extractLsb' 11 4)
  let ty0 := Ty.ofCode (mod.extractLsb' 0 5)
  let ty5 := Ty.ofCode (mod.extractLsb' 5 5)
  let t2 : BitVec 2 := mod.extractLsb' 12 2
  let ro : RecOp := ⟨m, a, b, buf, repOf bar, off⟩
  let so : ScrOp := ⟨m, a, b, off⟩
  let tl : TileOp := ⟨m, a, buf, bar, q⟩
  let co : CpaOp := ⟨m, a, b, buf, bar, q, off⟩
  let ph : Option Reg := if mod.getLsbD 0 then some b else none
  match op.toNat with
  | 0x00 => ty.map (.ld · ro)
  | 0x01 => ty.map (.st · ro)
  | 0x02 => ty.map (.ldAcq · ro)
  | 0x03 => ty.map (.stRel · ro)
  | 0x04 => ty.map (.lds · so)
  | 0x05 => ty.map (.sts · so)
  | 0x06 => ty.map (.ldw · ro)
  | 0x07 => ty.map (.stw · ro)
  | 0x08 => ty.map (.ldacc · so)
  | 0x09 => ty.map (.prf · m b buf off)
  | 0x0A => some (.present m am b off)
  | 0x0B => (FenceMode.ofCode (mod.extractLsb' 16 4)).map (.fence m ·)
  | 0x0C => some (.brec m buf a)
  | 0x0D => some (.brrd m a buf)
  | 0x0E => some (.leaseQ m a b buf off)
  | 0x0F => some (.leaseRenew m a b buf off)
  | 0x10 => ty.bind fun t => aop.map (.atom · t ⟨m, a, b, buf, repOf bar, off11⟩)
  | 0x11 => ty.bind fun t => aop.map (.red · t ⟨m, a, b, buf, repOf bar, off11⟩)
  | 0x12 => ty.bind fun t => aop.map (.atoms · t ⟨m, a, b, off11⟩)
  | 0x13 => ty.bind fun t => aop.map (.reds · t ⟨m, a, b, off11⟩)
  | 0x40 => some (.barArr m bar)
  | 0x41 => some (.barWait m bar ph)
  | 0x42 => some (.barArw m bar)
  | 0x43 => some (.barExp m bar b)
  | 0x44 => some (.barTest m am bar ph)
  | 0x45 => some (.barPh m a bar)
  | 0x46 => some (.cvdecl m cv (if mod.getLsbD 12 then .reg b else .imm off11))
  | 0x47 => some (.cvq m a cv)
  | 0x48 => some (.send m ch a)
  | 0x49 => some (.recv m a ch)
  | 0x4A => some (.chq m a ch)
  | 0x60 => some (.cpa4 co)
  | 0x61 => some (.cpa8 co)
  | 0x62 => some (.cpa16 co)
  | 0x63 => some (.cpaFlush m)
  | 0x64 => (Ty.ofCode (mod.extractLsb' 2 5)).bind fun mt => (Ty.ofCode (mod.extractLsb' 7 5)).bind fun ct =>
      (Had.ofCode t2).map (.tcopy tl (mod.getLsbD 0) (mod.getLsbD 1) mt ct · (mod.getLsbD 14) (mod.getLsbD 15))
  | 0x65 => ty0.bind fun t => (Fill.ofCode (mod.extractLsb' 5 2)).map (.tgather tl b t ·)
  | 0x66 => ty0.map (.tscatter tl b ·)
  | 0x67 => (Ty.ofCode (mod.extractLsb' 6 5)).bind fun t =>
      (Fill.ofCode (mod.extractLsb' 11 2)).map (.tpack tl (mod.extractLsb' 0 6) t ·)
  | 0x68 => (Ty.ofCode (mod.extractLsb' 6 5)).map (.tunpack tl (mod.extractLsb' 0 6) ·)
  | 0x69 => some (.mdcopy m b buf bar q (mod.extractLsb' 0 2) (mod.getLsbD 2) (mod.extractLsb' 3 8))
  | 0x6A => some (.cfill m a b bar q (mod.extractLsb' 0 12))
  | 0x6B => some (.qfence m (mod.extractLsb' 0 5))
  | 0x6C => some (.qwait m a q)
  | 0x80 => ty0.bind fun ta => ty5.map (.mldSt m ta · a cv)
  | 0x81 => some (.mswap m cv)
  | 0x82 => ty0.bind fun ta => ty5.map
      (.mstream m ta · (mod.getLsbD 10) (mod.getLsbD 11) t2 (mod.extractLsb' 14 2) (mod.extractLsb' 16 2) a cv)
  | 0x83 => ty0.bind fun ta => ty5.map
      (.mtile m ta · (mod.getLsbD 11) (mod.getLsbD 16) t2 (mod.extractLsb' 14 2) a cv)
  | 0x84 => some (.maccZ m t2 cv)
  | 0x85 => ty0.map (.maccSt m · t2 a cv)
  | 0x86 => ty0.map (.maccLd m · t2 a cv)
  | 0x87 => some (.mstat m a t2)
  | 0x88 => some (.mcfg m (mod.extractLsb' 0 4) (mod.extractLsb' 4 3) (mod.getLsbD 7))
  | 0xC0 => some (.tret (mod.getLsbD 0))
  | 0xC1 => some (.tvec m a)
  | 0xC2 => some (.segLd m (mod.getLsbD 3) (mod.extractLsb' 0 3) a)
  | 0xC3 => some (.segRd m a (mod.extractLsb' 0 3))
  | 0xC4 => some (.sysRd m a (mod.extractLsb' 0 12))
  | 0xC5 => some (.sysWr m (mod.extractLsb' 0 12) a)
  | 0xC6 => some .ckpt
  | 0xC7 => some (.ckptQ m a)
  | 0xC8 => if mod.getLsbD 0 then some .haltDbg else some .halt
  | 0xC9 => some (.snap m b buf a)
  | 0xCA => (L2Op.ofCode t2).map (.l2op m · b buf (mod.extractLsb' 0 12))
  | 0xCB => some (.vfsel m a)
  | 0xCC => some (.tlbProbe m a b)
  | 0xCD => some (.walkQ m a b bar (mod.getLsbD 16))
  | 0xCE => some (.scrub m a b)
  | 0xCF => some (.tokRd m a b off)
  | 0xD0 => some (.partQ m a b)
  | _ => none

/-- The fields of an X word as an instruction (Table 2.15). -/
def parseX (w : DWord) : Option Instr :=
  xArm (w.extractLsb' 54 8) (w.extractLsb' 50 4) (w.extractLsb' 42 8) (w.extractLsb' 34 8) (w.extractLsb' 29 5)
    (w.extractLsb' 23 6) (w.extractLsb' 20 3) (w.extractLsb' 0 20)

/-- The fields of a word by its frame (Table 2.1). -/
def parse (w : DWord) : Option Instr :=
  match (w.extractLsb' 62 2).toNat with
  | 0 => parseF w
  | 1 => parseP w
  | 2 => parseS w
  | _ => parseX w

/-! ### The decoder -/

/-- The decode traps, in rank order (Table 2.2). -/
inductive DecodeTrap where
  | illegalOpcode | illegalPair | privilege | illegalOperand
  deriving DecidableEq, Repr

/-- Whether a number lies in one of the ranges. -/
def inRanges (n : Nat) (rs : List (Nat × Nat)) : Bool := rs.any fun r => decide (r.1 ≤ n) && decide (n ≤ r.2)

/-- The assigned F opcodes (R50). -/
def fAssigned (op : Nat) : Bool := inRanges op [(0x00, 0x22), (0x40, 0x58), (0x80, 0x94), (0xE0, 0xF6)]
/-- The assigned S opcodes, hints included (R52). -/
def sAssigned (op : Nat) : Bool := inRanges op [(0x00, 0x12), (0x40, 0x4B), (0x60, 0x65), (0xF0, 0xFF)]
/-- The assigned X opcodes (R53). -/
def xAssigned (op : Nat) : Bool :=
  inRanges op [(0x00, 0x13), (0x40, 0x4A), (0x60, 0x6C), (0x80, 0x88), (0xC0, 0xD0)]

/-- The level an X opcode needs (Table 2.13). -/
def xLevel (op : Nat) : Level :=
  if op = 0xCB ∨ op = 0xCE then .hypervisor
  else if op ∈ [0xC0, 0xC1, 0xC2, 0xC5, 0xC6, 0xC8, 0xC9, 0xCA, 0xCC, 0xCD] then .supervisor
  else .user

/-- Ranks 1 to 3 of Table 2.2: the opcode is assigned and the level suffices (R45, R53). -/
def opcodeCheck (lvl : Level) (w : DWord) : Option DecodeTrap :=
  let op := (w.extractLsb' 54 8).toNat
  match (w.extractLsb' 62 2).toNat with
  | 0 => if fAssigned op then none else some .illegalOpcode
  | 1 =>
    if (POp.ofCode (w.extractLsb' 55 7)).isNone then some .illegalOpcode
    else if (POp.ofCode (w.extractLsb' 24 7)).isNone then some .illegalPair else none
  | 2 => if sAssigned op then none else some .illegalOpcode
  | _ =>
    if !xAssigned op then some .illegalOpcode
    else if lvl.rank < (xLevel op).rank then some .privilege else none

/-- The instruction of a word issued at level `lvl` by a launch of `n` registers, or the decode trap of
lowest rank (R34). -/
def decode (lvl : Level) (n : Nat) (w : DWord) : Except DecodeTrap Instr :=
  match opcodeCheck lvl w with
  | some t => .error t
  | none =>
    match parse w with
    | none => .error .illegalOperand
    | some i => if encode i = some w ∧ wellFormed n lvl i = true then .ok i else .error .illegalOperand

/-- The little-endian word of eight bytes (R32). -/
def wordOfBytes (bs : List Byte) : DWord :=
  BitVec.ofNat 64 (bs.foldr (fun b x => b.toNat + 256 * x) 0)

/-- The instruction of the bytes of one word at the privileged level with every register. -/
def decodeBytes (bs : List Byte) : Option Instr :=
  match decode .hypervisor 256 (wordOfBytes bs) with
  | .ok i => some i
  | .error _ => none

/-- The bytes of an instruction of `nbits` bits `w`, little-endian, the bits above `nbits` zero. -/
def tableBytes (nbits w : Nat) : List Byte :=
  (List.range 8).map fun k => BitVec.ofNat 8 (w % 2 ^ nbits / 256 ^ k)

/-- The instruction the decoder reads from a table row's word. -/
def decodeTableWord (nbits w : Nat) : Option Instr := decodeBytes (tableBytes nbits w)

end Sys2Proof
end

