-- ==== Sys2Proof/Machine/State.lean ====
section
/-! DEFINITION. The state of a GA820 package as plain data, what stops a step, and the state after
reset.  One package of eight hummocks is held in full; memory is the host-physical space of the whole
domain (notes/assumptions 9).  Every register has one home here (01_machine.md Tables 1.5 and 1.9). -/

namespace Sys2Proof.Machine

/-! ### Containers -/

/-- Entries by number, in rising order; an unlisted entry has the default its reader names. -/
abbrev NMap (α : Type) := List (Nat × α)

/-- The entry of a number, if listed. -/
def mfind {α : Type} : NMap α → Nat → Option α
  | [], _ => none
  | (j, v) :: m, k => if j = k then some v else mfind m k

/-- The entry of a number, or the default. -/
def mget {α : Type} (d : α) (m : NMap α) (k : Nat) : α := (mfind m k).getD d

/-- Set the entry of a number, keeping the order. -/
def mset {α : Type} : NMap α → Nat → α → NMap α
  | [], k, v => [(k, v)]
  | (j, w) :: m, k, v =>
    if k < j then (k, v) :: (j, w) :: m
    else if j = k then (k, v) :: m
    else (j, w) :: mset m k v

/-- Remove the entries of a number. -/
def mdel {α : Type} (m : NMap α) (k : Nat) : NMap α := m.filter (fun e => e.1 != k)

/-- Byte memory in canonical form: addresses strictly rising, no byte equal to what an unlisted address
reads as. -/
abbrev Memory := List Host.Cell

/-- What an unlisted byte reads as (notes/assumptions 1). -/
def Memory.unlisted : Byte := 0

/-- The byte at an address. -/
def memRead (m : Memory) (a : Nat) : Byte := mget Memory.unlisted m a

/-- Write the byte at an address; writing the unlisted value removes the entry. -/
def memWrite (m : Memory) (a : Nat) (b : Byte) : Memory :=
  if b = Memory.unlisted then mdel m a else mset m a b

/-- The canonical form of a byte memory. -/
def Memory.wf : Memory → Bool
  | [] => true
  | (_, b) :: [] => b != Memory.unlisted
  | (a, b) :: (a', b') :: m => decide (a < a') && b != Memory.unlisted && Memory.wf ((a', b') :: m)

/-! ### Segments, buffer records, translations -/

/-- A segment register (08_memory_access.md R177 Table 8.2); reserved bits are not stored. -/
structure Seg where
  base  : Nat := 0
  limit : Nat := 0
  r     : Bool := false
  w     : Bool := false
  x     : Bool := false
  a     : Bool := false
  valid : Bool := false
  deriving DecidableEq, Repr

/-- A buffer record (R179 Table 8.4). -/
structure BufRec where
  base   : Nat := 0
  stride : Nat := 0
  extent : Nat := 0
  esize  : Nat := 0
  swz    : Nat := 0
  sel    : Nat := 0
  pr     : Bool := false
  pw     : Bool := false
  pa     : Bool := false
  zf     : Bool := false
  valid  : Bool := false
  deriving DecidableEq, Repr

/-- A cached combined translation of one page (09_translation_leases.md R210, R211, R216). -/
structure Tlb where
  fn     : Nat := 0
  va     : Nat := 0
  size   : Nat := 65536
  frame  : Nat := 0
  r      : Bool := false
  w      : Bool := false
  x      : Bool := false
  d      : Bool := false
  sc     : Bool := false
  rwin   : Bool := false
  sp     : Nat := 0
  slice  : Nat := 0
  home   : Nat := 0
  tier   : Nat := 0
  cls    : Nat := 0
  read   : Nat := 0
  expiry : Nat := 0
  deriving DecidableEq, Repr

/-- A cached page-table entry of a walk cache: its two words, read time and expiry (R213). -/
structure WalkCache where
  fn     : Nat := 0
  lo     : Nat := 0
  hi     : Nat := 0
  read   : Nat := 0
  expiry : Nat := 0
  deriving DecidableEq, Repr

/-- A group of a core: hummock, core and active group number. -/
structure GRef where
  h : Nat := 0
  c : Nat := 0
  g : Nat := 0
  deriving DecidableEq, Repr

/-! ### Memory operations in flight -/

/-- What a memory operation does with its words. -/
inductive MemKind where
  | load | store | atom (op : AOp) | red (op : AOp)
  deriving DecidableEq, Repr

/-- One lane's access: its address in the space, whether it passed its checks, and its operands. -/
structure LaneAcc where
  lane   : Nat := 0
  pass   : Bool := true
  helper : Bool := false
  off    : Nat := 0
  addr   : Nat := 0
  val    : DWord := 0
  val2   : DWord := 0
  deriving DecidableEq, Repr

/-- The spaces a checked access reaches (R176). -/
inductive Space where
  | mem | scr | peer | map | acc
  deriving DecidableEq, Repr

/-- A checked access of one instruction: everything its effect needs (R185, R254). -/
structure MemOp where
  kind  : MemKind := .load
  space : Space := .mem
  sel   : Nat := 1
  ty    : Ty := .b32
  dst   : Reg := 0
  rep   : Option MReg := none
  inb   : Word := 0
  live  : Word := 0
  exe   : Word := 0
  acq   : Bool := false
  rel   : Bool := false
  items : List LaneAcc := []
  deriving DecidableEq, Repr

/-- A line request (R187, R212): its requester, translation and lane operations at host-physical bytes; `id` numbers its
instruction in issue order, `acc` its acceptance at the home (0 before), `rel` marks a release, performed after the accesses of
its threads up to the number `after` (R239), `mark` a request that its launch's reservation pays for, and `hops` how many arbiters
on its way have granted it; `eng` marks a line of the Enlarger or the matrix engine (R173). -/
structure Req where
  who    : GRef := {}
  slots  : List Nat := []
  fn     : Nat := 0
  va     : Nat := 0
  line   : Nat := 0
  expiry : Nat := 0
  kind   : MemKind := .load
  ty     : Ty := .b32
  items  : List LaneAcc := []
  sc     : Bool := false
  rwin   : Bool := false
  acq    : Bool := false
  tray   : Bool := false
  walking : Bool := false
  glb    : Bool := false
  launch : Nat := 0
  home   : Nat := 0
  id     : Nat := 0
  acc    : Nat := 0
  rel    : Bool := false
  after  : Nat := 0
  sel    : Nat := 1
  mark   : Bool := false
  slice  : Nat := 0
  sp     : Nat := 0
  hops   : Nat := 0
  eng    : Bool := false
  deriving DecidableEq, Repr

/-- An access whose completion is still to come: the threads and registers it writes, its group while that group lives, the
values returned so far, the address of its word, whether one of its lines has been accepted, and whether its group has gone on to
another word (03_scalar_control.md R64, 08_memory_access.md R185, R187, 09_translation_leases.md R228). -/
structure Outst where
  id    : Nat := 0
  grp   : Option Nat := none
  op    : MemOp := {}
  slots : NMap Nat := []
  regs  : NMap Nat := []
  got   : List LaneAcc := []
  pc    : Word := 0
  any   : Bool := false
  past  : Bool := false
  deriving DecidableEq, Repr

/-! ### Copies and matrix operations -/

/-- A tile descriptor (13_async_copy.md R299 Table 13.4). -/
structure TileDesc where
  mrow  : Nat := 0
  mcol  : Nat := 0
  ctot  : Nat := 0
  gstep : Nat := 0
  rows  : Nat := 0
  wl    : Nat := 0
  pline : Nat := 0
  sline : Nat := 0
  deriving DecidableEq, Repr

/-- What an accepted copy operation does. -/
inductive CopyKind where
  | lanes (items : List LaneAcc)
  | tile (out tr : Bool) (mt ct : Ty) (had : Nat) (fold mxs : Bool)
  | gather (idx : List Nat) (ty : Ty) (fill : Word)
  | scatter (idx : List Nat) (ty : Ty)
  | pack (f : Nat) (ty : Ty) (fill : Word)
  | unpack (f : Nat) (ty : Ty)
  | side (slot : Nat) (scale : Bool) (start n : Nat)
  | fill (line n : Nat) (v : Word)
  | fence (queues : Nat)
  deriving DecidableEq, Repr

/-- An Enlarger operation (R291 to R296 Table 13.2) with the operands read at issue, and the priorities that waiting groups
have passed to it (07_work_creation.md R171); `upto` is the number of its core's latest access when it was accepted (R240), and
`stale` holds the pages whose cached translations a renewal has found changed (09_translation_leases.md R229, R230). -/
structure CopyJob where
  opc    : Nat := 0
  core   : Nat := 0
  wgs    : Nat := 0
  queue  : Nat := 0
  bar    : Nat := 63
  kind   : CopyKind := .fence 0
  desc   : TileDesc := {}
  mrec   : BufRec := {}
  mrec1  : BufRec := {}
  segs   : NMap Seg := []
  fn     : Nat := 0
  user   : Bool := true
  lanes  : List Nat := []
  qpos   : Nat := 0
  seq    : Nat := 0
  ldone  : Nat := 0
  ltotal : Nat := 0
  bdone  : Nat := 0
  todo   : List Nat := []
  waits  : NMap Nat := []
  tlb    : List Tlb := []
  raised : NMap Nat := []
  upto   : Nat := 0
  stale  : List Nat := []
  sent   : List (Nat × Req) := []
  deriving DecidableEq, Repr

/-- What a matrix operation does (14_matrix.md R340 to R345). -/
inductive MatKind where
  | ldSt (ta tb : Ty) (pline : Nat)
  | swap
  | stream (ta tb : Ty) (sp mx : Bool) (t s q pline sline arow r crow : Nat)
  | tile (ta tb : Ty) (mx set : Bool) (t n m np stg : Nat)
  | accZ (t : Nat)
  | accSt (ty : Ty) (t pline row rows : Nat)
  | accLd (ty : Ty) (t pline row rows : Nat)
  | fence (queues : Nat)
  deriving DecidableEq, Repr

/-- A signed operation: the operand set and what it does (R331). -/
structure MatOp where
  opc   : Nat := 0
  set   : List Word := []
  kind  : MatKind := .swap
  recs  : NMap BufRec := []
  segs  : NMap Seg := []
  lines : List Nat := []
  step  : Nat := 0
  steps : Nat := 1
  waits : NMap Nat := []
  pos   : Nat := 0
  fn    : Nat := 0
  user  : Bool := true
  tlb   : List Tlb := []
  sent  : List Req := []
  deriving DecidableEq, Repr

/-! ### Why a group waits -/

/-- A trap to be taken (15_traps_preemption.md R351 to R355). -/
structure TrapInfo where
  code   : Nat := 0
  lane   : Nat := 0
  detail : Nat := 0
  addr   : Nat := 0
  pc     : Word := 0
  deriving DecidableEq, Repr

/-- The condition a lane of `bar.wait` waits for (12_synchronisation.md R274). -/
inductive BarCond where
  | phase (p : Word)
  | changed (p : Word)
  deriving DecidableEq, Repr

/-- What keeps a group from issuing (07_work_creation.md R170). -/
inductive Wait where
  | ready
  | yield (until_ : Nat) (others : List Nat)
  | sleep (wake : Nat)
  | walk (full : Bool)
  | drain (slots : List Nat) (full : Option Nat)
  | order (slots : List Nat)
  | mem (id : Nat)
  | park (op : MemOp) (seq : Nat)
  | ldacc (op : MemOp) (upto : Nat)
  | fence (mode : FenceMode) (exe : Word)
  | barArr (bar : Nat) (lanes counted : Word) (arw : Bool) (phc : Option Word) (conds : List (Nat × BarCond))
  | barWait (bar : Nat) (counted : Word) (conds : List (Nat × BarCond))
  | send (ch : Nat) (slots : List Nat) (words : List Word)
  | recv (ch : Nat) (dst : Reg) (m : MReg)
  | copies (jobs : List CopyJob)
  | sign (op : MatOp) (cv : Nat) (lanes : Word)
  | place (op : MatOp) (cv : Nat) (lanes : Word)
  | qwait (dst : Reg) (m : MReg) (q upto : Nat)
  | l2op (id : Nat) (any : Bool)
  | snap (id : Nat) (any : Bool)
  | scrub (seq : Nat) (dst : Reg) (live : Word)
  | token (dst : Reg) (live : Word) (at_ : Nat)
  | trap (t : TrapInfo)
  deriving DecidableEq, Repr

/-- The state a trap saves (R355, Table 15.3). -/
structure Saved where
  pc     : Word := 0
  s      : NMap Word := []
  m      : NMap Word := []
  flags  : Nat := 0
  code   : Nat := 0
  level  : Level := .user
  lane   : Nat := 0
  detail : Nat := 0
  addr   : Nat := 0
  deriving DecidableEq, Repr

/-- What a line is wanted for: the lanes of E of an access, its helper lanes alone, or a fetch. -/
inductive Purpose where
  | access | helper | fetch
  deriving DecidableEq, Repr

/-- An active group (01_machine.md R17, R18); `far` is how many times 2^32 its next address lies beyond the PC register
(02_words_and_assembly.md R48); `denied` holds the pages that the walks of its instruction found to deny it, and for what
(09_translation_leases.md R227). -/
structure Group where
  wgs     : Nat := 0
  roster  : NMap Nat := []
  member  : Word := 0
  helpers : Word := 0
  hregs   : NMap Word := []
  pc      : Word := 0
  s       : NMap Word := []
  m       : NMap Word := []
  z       : Bool := false
  n       : Bool := false
  c       : Bool := false
  v       : Bool := false
  segs    : NMap Seg := []
  lvl     : Level := .user
  hfn     : Nat := 0
  saved   : List Saved := []
  latch   : Option Word := none
  lanes   : Nat := 0
  binage  : Nat := 0
  pipe    : Nat := 0
  last    : Nat := 0
  wait    : Wait := .ready
  tlb     : List Tlb := []
  held    : Option BufRec := none
  far     : Int := 0
  denied  : List (Nat × Purpose) := []
  deriving DecidableEq, Repr

/-! ### Threads, bins, workgroups -/

/-- A thread slot (07_work_creation.md R145 Table 7.1): `fresh` until its first group is formed (R154), the priorities that
each waiting group has passed to it (R171), and whether it has passed a fence for stores, after which each of its stores is a
release (R239). -/
structure Slot where
  pc    : Word := 0
  tidx  : Nat := 0
  wgs   : Nat := 0
  state : Nat := 0
  bin   : Nat := 0
  ipri  : Nat := 0
  filed : Nat := 0
  far   : Int := 0
  fresh : Bool := false
  raised : NMap Nat := []
  fenced : Bool := false
  deriving DecidableEq, Repr

/-- A thread bin: its key, its threads in filing order, when it became ready (R146 to R148), and the entry as last written
through its window, with the cycle of that write (R149). -/
structure Bin where
  pc      : Word := 0
  far     : Int := 0
  wg      : Nat := 0
  threads : List Nat := []
  ready   : Option Nat := none
  entry   : Option (Nat × Nat) := none
  deriving DecidableEq, Repr

/-- A channel end (12_synchronisation.md R284 Table 12.7) and, at the receiver, its slots' words. -/
structure Chan where
  slots     : Nat := 0
  full      : Nat := 0
  head      : Nat := 0
  peerEnded : Bool := false
  snd       : Bool := false
  rcv       : Bool := false
  peer      : Nat := 0
  line0     : Nat := 0
  freed     : Nat := 0
  deriving DecidableEq, Repr

/-- The status bits that one operation has set in its queue, and its first bad index (13_async_copy.md R295, R309). -/
structure QNote where
  idxf  : Bool := false
  pois  : Bool := false
  zfill : Bool := false
  scnan : Bool := false
  bad   : Option Word := none
  deriving DecidableEq, Repr

/-- A copy queue's state (13_async_copy.md R295 Table 13.1): its status bits by the operation that set them, since a `qwait`
leaves those of later ones (R315), those that a map write put there, and how many operations and fence entries it has taken, which
numbers them in queue order (R292, R314). -/
structure CopyQ where
  outst    : Nat := 0
  was      : QNote := {}
  notes    : NMap QNote := []
  accn     : Nat := 0
  donen    : Nat := 0
  placed   : Nat := 0
  deriving DecidableEq, Repr

/-- The matrix queue's state (14_matrix.md R348 Table 14.7). -/
structure QmState where
  outst : Nat := 0
  fail  : Bool := false
  cause : Nat := 0
  fopc  : Nat := 0
  fstep : Nat := 0
  accn  : Nat := 0
  donen : Nat := 0
  placed : Nat := 0
  deriving DecidableEq, Repr

/-- A convergence register (12_synchronisation.md R280 Table 12.6) and the first signer's operands. -/
structure Cv where
  size   : Nat := 0
  signed : Nat := 0
  gen    : Nat := 0
  digest : Nat := 0
  opnds  : List Word := []
  deriving DecidableEq, Repr

/-- A thread's arrival record (R268 Table 12.3), one bit per barrier 0 to 23. -/
structure Arrival where
  memb : Nat := 0
  mark : Nat := 0
  deriving DecidableEq, Repr

/-- A resident workgroup: its context of window 0x0B and its identity (R17, R144, R178); `kw` is the core cycle and the group
of each constant's latest `kst`, under 64 of the latest `bin.age`, and under 65 + N of record N's latest `brec` (R72, R158,
R182). -/
structure Wg where
  num     : Nat := 0
  gang    : Nat := 0
  member  : Nat := 0
  launch  : Nat := 0
  fn      : Nat := 0
  prio    : Nat := 0
  rbase   : Nat := 0
  sbase   : Nat := 0
  lim     : Nat := 0
  n       : Nat := 8
  segs    : NMap Seg := []
  k       : NMap Word := []
  kw      : NMap (Nat × Nat) := []
  b       : NMap BufRec := []
  binAge  : Nat := 256
  chans   : NMap Chan := []
  qs      : NMap CopyQ := []
  qm      : QmState := {}
  cvs     : NMap Cv := []
  arr     : NMap Arrival := []
  gctx    : Nat := 0
  lctx    : Nat := 0
  peers   : List GRef := []
  units   : Nat := 0
  unit0   : Nat := 0
  holds   : Bool := false
  ended   : Bool := false
  stopped : Bool := false
  halting : Nat := 0
  deriving DecidableEq, Repr

/-- A workgroup barrier register (R267 Table 12.1). -/
structure Wbar where
  arrived : Nat := 0
  members : Nat := 0
  broken  : Bool := false
  owner   : Nat := 0
  valid   : Bool := false
  name    : Nat := 0
  pending : Int := 0
  phcnt   : Word := 0
  dormant : Bool := false
  deriving DecidableEq, Repr

/-- A gang or launch barrier entry (Table 12.2), with the retirements and withdrawn arrivals that a hummock has
not forwarded to the root (R279). -/
structure Gbar where
  arrived : Nat := 0
  members : Nat := 0
  broken  : Bool := false
  valid   : Bool := false
  root    : Bool := false
  phcnt   : Word := 0
  dormant : Bool := false
  retired : Nat := 0
  back    : Nat := 0
  deriving DecidableEq, Repr

/-! ### Kernels and job cards -/

/-- One kernel's descriptor and directive tables (02_words_and_assembly.md R61, R62). -/
structure Kernel where
  codeOff  : Nat := 0
  codeSize : Nat := 0
  regs     : Nat := 8
  wg       : Nat := 32
  gang     : Nat := 1
  holds    : Bool := false
  nonced   : Bool := false
  prio     : Nat := 128
  rectW    : Nat := 1
  rectH    : Nat := 1
  binAge   : Nat := 256
  resHbm   : Nat := 0
  resFab   : Nat := 0
  resMesh  : Nat := 0
  nonce    : List Byte := []
  ranges   : List (Nat × Nat × Nat × Nat × Nat) := []
  bars     : List (Nat × Nat) := []
  chans    : List (Nat × Nat × Nat × Nat) := []
  cards    : List (Nat × Nat) := []
  consts   : List Word := []
  deriving DecidableEq, Repr

/-- A job card posted and not yet placed (R159, R160). -/
structure Card where
  hum    : Nat := 0
  queue  : Nat := 0
  poster : Option Nat := none
  fn     : Nat := 0
  image  : Nat := 0
  kidx   : Nat := 0
  kernel : Kernel := {}
  lim    : Nat := 0
  units  : Nat := 0
  args   : List Word := []
  seq    : Option Nat := none
  deriving DecidableEq, Repr

/-! ### Cores -/

/-- A side-memory slot: bytes, ready bit, kind, poison mark (13_async_copy.md R312). -/
structure Side where
  bytes  : Memory := []
  ready  : Bool := true
  scale  : Bool := false
  poison : Bool := false
  deriving DecidableEq, Repr

/-- The matrix engine of a core (14_matrix.md R321 to R325, Table 14.6); `bscale` holds the scales of the B plane that `mtile`
loaded (R345), `since` the start of the span that the watchdog measures and `used` what it measured of this step before
(R347). -/
structure Engine where
  holder : Option Nat := none
  acc    : NMap Word := []
  flags  : NMap Nat := []
  live   : Memory := []
  shadow : Memory := []
  side   : NMap Side := []
  state  : Nat := 0
  opc    : Nat := 0
  wgs    : Nat := 0
  step   : Nat := 0
  steps  : Nat := 0
  tstep  : Nat := 0
  since  : Nat := 0
  used   : Nat := 0
  bscale : Memory := []
  wdog   : Nat := 0x01000000
  opnd   : List Word := []
  queue  : List MatOp := []
  deriving DecidableEq, Repr

/-- A line of an L1 data cache: bytes, which words are present, fill time (10_ordering.md R236). -/
structure L1Line where
  data : Memory := []
  have_ : Word := 0
  time : Nat := 0
  deriving DecidableEq, Repr

/-- A lane request the coalescer holds; `due` once it must be handed on (13_async_copy.md R304). -/
structure Coalesced where
  since : Nat := 0
  group : Nat := 0
  due   : Bool := false
  job   : CopyJob := {}
  deriving DecidableEq, Repr

/-- A thread effect that waits for the release it carries (03_scalar_control.md R83, 07_work_creation.md R154, R157,
R159, 11_atomics.md R258): a child to be filed, a slot to be freed, a card to be posted, a reduction in a scratchpad that a fence
for stores precedes, or nothing, for a lane of `st.rel` that writes nothing (08_memory_access.md R196). -/
inductive PendWhat where
  | file (slot : Nat) (pc : Word) (far : Int)
  | free (wgs slot tidx : Nat)
  | card (fn : Nat) (c : Card)
  | bank (fn : Nat) (op : MemOp)
  | nothing
  deriving DecidableEq, Repr

/-- A pending thread effect: the releasing threads, and the number up to which their accesses precede it (R239). -/
structure Pend where
  upto  : Nat := 0
  slots : List Nat := []
  what  : PendWhat
  deriving DecidableEq, Repr

/-- Whether a core runs (01_machine.md Table 1.9 code 0x0E). -/
inductive CoreStatus where
  | running | quiesced | fenced | gated
  deriving DecidableEq, Repr

/-- One core: everything of map windows 0x00 to 0x0E (01_machine.md R15, Table 1.9); `turns` is, for each pipe, the workgroup
slot it issued last and the cycle, and `turng`, for each pipe and workgroup slot as 8 × pipe + slot, the group (R170). -/
structure Core where
  status  : CoreStatus := .quiesced
  rf      : NMap Word := []
  slots   : NMap Slot := []
  bins    : NMap Bin := []
  groups  : NMap Group := []
  wgs     : NMap Wg := []
  wbars   : NMap Wbar := []
  scratch : Memory := []
  absent  : List Nat := []
  poison  : List Nat := []
  engine  : Engine := {}
  tlb     : List Tlb := []
  l1      : NMap L1Line := []
  icache  : NMap DWord := []
  reqs    : List Req := []
  outs    : List Outst := []
  pend    : List Pend := []
  coal    : List Coalesced := []
  turns   : NMap (Nat × Nat) := []
  turng   : NMap Nat := []
  deriving DecidableEq, Repr

/-! ### Base dies -/

/-- A walk: who asked, for what, and where it stands (09_translation_leases.md R220, R222, R225). -/
structure Walk where
  who    : GRef := {}
  enl    : Option Nat := none
  fn     : Nat := 0
  va     : Nat := 0
  write  : Bool := false
  fetch  : Bool := false
  glb    : Bool := false
  launch : Nat := 0
  lane   : Nat := 0
  off    : Nat := 0
  helper : Bool := false
  replay : Bool := false
  seen   : Nat := 0
  swapAt : Option Nat := none
  tag    : Option (Nat × Nat) := none
  deriving DecidableEq, Repr

/-- A hardware queue (07_work_creation.md R162 Table 7.5); `toks` is the level in bytes of each resource's token bucket and the
uncore cycle of that level (R173). -/
structure HwQueue where
  prio    : Nat := 0
  en      : Bool := false
  cardq   : Bool := false
  fn      : Nat := 0
  xfn     : Nat := 0
  xen     : Bool := false
  base    : Nat := 0
  size    : Nat := 0
  tail    : Nat := 0
  head    : Nat := 0
  seq     : Nat := 0
  share   : NMap Nat := []
  toks    : NMap (Nat × Nat) := []
  refused : Bool := false
  busy    : Option Nat := none
  deriving DecidableEq, Repr

/-- A partition entry PART(h, f) (16_tenants.md Table 16.1). -/
structure Part where
  sedge : Nat := 0
  msp   : Nat := 0
  en    : Bool := false
  deriving DecidableEq, Repr

/-- An accumulator of reduction-window contributions (11_atomics.md R260). -/
structure WinAcc where
  op    : AOp := .fadd
  ty    : Ty := .f32
  fn    : Nat := 0
  since : Nat := 0
  count : Nat := 0
  sum   : Int := 0
  sum2  : Int := 0
  pinf  : Bool := false
  ninf  : Bool := false
  nan   : Bool := false
  neg0  : Bool := true
  pinf2 : Bool := false
  ninf2 : Bool := false
  nan2  : Bool := false
  neg02 : Bool := true
  val   : DWord := 0
  deriving DecidableEq, Repr

/-- A window reduction on its way to another package: its home there, and the cores, slots and request numbers it comes
from (R262). -/
structure Travel where
  addr  : Nat := 0
  home  : Nat := 0
  fn    : Nat := 0
  froms : List (Nat × Nat × Nat) := []
  acc   : WinAcc := {}
  deriving DecidableEq, Repr

/-- A rail sense point (17_device_boundary.md R418 Table 17.5) and its suspicion's start. -/
structure RailPt where
  vnow    : Nat := 0
  vstep   : Int := 0
  suspect : Bool := false
  since   : Nat := 0
  vmin    : Nat := 0xFFFF
  tmin    : Nat := 0
  deriving DecidableEq, Repr

/-- A thermal sensor (R421); `hot` is since when its temperature is at or above its throttle point (R425). -/
structure Sensor where
  temp  : Int := 0
  adv   : Int := 1520
  thr   : Int := 1680
  shd   : Int := 1840
  isAdv : Bool := false
  isThr : Bool := false
  isShd : Bool := false
  bad   : Bool := false
  hot   : Option Nat := none
  deriving DecidableEq, Repr

/-- The availability of an HBM stack (R424). -/
structure Stack where
  dead     : List Nat := []
  bank     : Nat := 0
  retiring : Bool := false
  acked    : Bool := false
  remap    : Bool := false
  cause    : Nat := 0
  moved    : Nat := 0
  lowered  : Nat := 0
  deriving DecidableEq, Repr

/-- The state of a link or port (16_tenants.md R398, R414): the sequence number it takes next, whether it has requested a
retry from there, and the number up to which it has told the other end that it has every flit; the number it sends next, the one up to
which the other end has told it the same, the flits it keeps by their numbers, those to be sent again, and the flit that went on the
link last (R413). -/
structure Link where
  fenced  : Bool := false
  bad     : Nat := 0
  since   : Nat := 0
  next    : Nat := 0
  retry   : Bool := false
  told    : Nat := 0
  out     : Nat := 0
  acked   : Nat := 0
  buffer  : NMap (List Byte) := []
  again   : List Nat := []
  wire    : List Byte := []
  deriving DecidableEq, Repr

/-- The scrub engine's window (R452 Table 16.6) and its latest token. -/
structure Scrub where
  busy    : Bool := false
  signing : Bool := false
  done    : Nat := 0
  seq     : Nat := 0
  tstart  : Nat := 0
  tend    : Nat := 0
  out_    : Nat := 0
  in_     : Nat := 0
  sedges  : Nat := 0
  token   : List Byte := []
  desc    : List Word := []
  nonce   : List Byte := []
  who     : GRef := {}
  deriving DecidableEq, Repr

/-- The tag of a line that an L2 slice holds (16_tenants.md R382): its slice, 64 times the hummock and the slice there, its way, the
function it was filled for, its page's slice policy (08_memory_access.md R199), and whether it is modified. -/
structure L2Tag where
  slice  : Nat := 0
  line   : Nat := 0
  way    : Nat := 0
  fn     : Nat := 0
  policy : Nat := 0
  dirty  : Bool := false
  deriving DecidableEq, Repr

/-- The tags of the package's L2 slices and, for each slice and function apart, how often its replacement state has moved (R30,
R382); the data of the lines is the machine's memory. -/
structure L2 where
  tags  : List L2Tag := []
  turns : NMap Nat := []
  deriving DecidableEq, Repr

/-- Whether a chiplet serves (15_traps_preemption.md R374). -/
inductive Chiplet where
  | inService | fenced | dropped
  deriving DecidableEq, Repr

/-- The tenancy and management blocks of a hummock (Tables 16.1, 17.3) and its monitors. -/
structure HumRegs where
  connmat : NMap Nat := []
  part    : NMap Part := []
  waysl   : Nat := 0
  wayfn   : Nat := 0
  waymask : NMap Nat := []
  wayHeld : List (Nat × Nat × Nat) := []
  refused : Bool := false
  crkstep : Nat := 60
  crkdi   : Nat := 20
  crktime : Nat := 100
  minv    : List Nat := []
  crack   : List Nat := []
  thsel   : Nat := 0
  thref   : Bool := false
  fcen    : Bool := false
  fcvalid : Bool := false
  fctemp  : Int := 0
  fctime  : Nat := 0
  bkstk   : Nat := 0
  bkbank  : Nat := 0
  lport   : Nat := 0
  rails   : NMap RailPt := []
  curChip : Nat := 0
  curBase : Nat := 0
  current : List (Nat × Nat × Nat) := []
  sensors : NMap Sensor := []
  deriving DecidableEq, Repr

/-- One hummock's base die (01_machine.md Table 1.9 codes 0x10 to 0x1B); `arbs` is, for each arbiter, the queue it
served last and the reserved grants since its latest best-effort one (R173). -/
structure Hum where
  gbars   : NMap Gbar := []
  lbars   : NMap Gbar := []
  ctxs    : NMap Nat := []
  tlb     : List Tlb := []
  wcache  : NMap WalkCache := []
  pending : List Walk := []
  walks   : List Walk := []
  replies : List Walk := []
  queues  : NMap HwQueue := []
  enl     : NMap CopyJob := []
  wins    : NMap WinAcc := []
  scrub   : Scrub := {}
  regs    : HumRegs := {}
  banks   : NMap Stack := []
  links   : NMap Link := []
  arbs    : NMap (Nat × Nat) := []
  chiplet : Chiplet := .inService
  cyc     : Nat := 0
  cycAt   : Nat := 0
  half    : Bool := false
  deriving DecidableEq, Repr

/-! ### Functions, launches, the package -/

/-- A ring of entries in memory with its indices (07_work_creation.md R451). -/
structure Ring where
  base : Nat := 0
  size : Nat := 0
  tail : Nat := 0
  head : Nat := 0
  ovf  : Bool := false
  held : List (List Byte) := []
  deriving DecidableEq, Repr

/-- The checkpoint state of a function (15_traps_preemption.md R370 Table 15.5), or `leave` from a write of PREGO until its rollback
has ended (R373). -/
inductive CkState where
  | run | drain | commit | leave
  deriving DecidableEq, Repr

/-- An effect a holding tray keeps until the next commit (R369). -/
inductive TrayItem where
  | store (addr w : Nat) (v : DWord)
  | red (req : Req)
  | card (c : Card)
  | heal (line : Nat)
  | spoil (line : Nat)
  deriving DecidableEq, Repr

/-- What a checkpoint records of one hummock (R368). -/
structure HumImage where
  x      : Nat := 0
  y      : Nat := 0
  gbars  : NMap Gbar := []
  lbars  : NMap Gbar := []
  ctxs   : NMap Nat := []
  queues : NMap HwQueue := []
  enl    : NMap CopyJob := []
  deriving DecidableEq, Repr

/-- The steps a launch goes through (07_work_creation.md R165 Table 7.7). -/
inductive Phase where
  | claim | routes | resident | place | setup | token | filed | running | ended
  deriving DecidableEq, Repr

/-- A launch, or the task of a job card (R163 to R168, R160): `rect` holds its hummocks here, `cells` all of its rectangle's, with
8 added to the physical number of one of another package, and `away` the gangs placed on those and the cards posted there, with
their hummocks. -/
structure Launch where
  fn       : Nat := 0
  hum      : Nat := 0
  queue    : Nat := 0
  image    : Nat := 0
  kidx     : Nat := 0
  kernel   : Kernel := {}
  gangs    : Nat := 1
  slotLim  : Nat := 0
  cardq    : Nat := 0xFFFF
  units    : Nat := 0
  origin   : Option (Nat × Nat) := none
  compl    : Nat := 0
  phase    : Phase := .claim
  rect     : List Nat := []
  root     : Nat := 0
  reloads  : Nat := 0
  placed   : Nat := 0
  nextHum  : Nat := 0
  fresh    : List GRef := []
  wgs      : List GRef := []
  status   : Option Nat := none
  task     : Bool := false
  poster   : Option Nat := none
  args     : List Word := []
  cardKernels : NMap Kernel := []
  routes   : Nat := 0
  cells    : List Nat := []
  away     : List (Nat × Nat) := []
  waits    : List (Nat × Nat × Nat) := []
  deriving DecidableEq, Repr

/-- What a checkpoint records of a function (R368): its state, the bytes of its contact sheets from the base of the image
area with their number, and the size of its log. -/
structure Image where
  cores    : NMap Core := []
  hums     : NMap HumImage := []
  launches : NMap Launch := []
  cards    : List Card := []
  wins     : List (Nat × Nat × WinAcc) := []
  sheet    : Memory := []
  size     : Nat := 0
  logSz    : Nat := 0
  deriving DecidableEq, Repr

/-- The image of a function of another package that the bytes of memory from an address hold, if they hold one: its layout within the
windows is not given (R368, 16_tenants.md R396; notes/assumptions 22). -/
opaque Image.ofBytes : Memory → Nat → Option Image

/-- Checkpoint registers and state of a function (Tables 15.3, 15.5); `blocks` holds the units of map windows that the log has
entries of, by map address / 128 (R368), and each message its checkpoint number (R371). -/
structure Ckpt where
  en       : Bool := false
  int      : Nat := 50
  logBase  : Nat := 0
  logSz    : Nat := 0
  trayBase : Nat := 0
  imgBase  : Nat := 0
  seq      : Nat := 0
  time     : Nat := 0
  logged   : NMap (List Byte) := []
  blocks   : List Nat := []
  tray     : List TrayItem := []
  state    : CkState := .run
  instant  : Nat := 0
  early    : Option Nat := none
  image    : Option Image := none
  msgs     : List (Nat × Msg) := []
  heldMsgs : List (Nat × Msg) := []
  cardsIn  : List Card := []
  out_     : Bool := false
  deriving DecidableEq, Repr

/-- A function's register space (17_device_boundary.md Table 17.1; Tables 9.5, 16.2, 17.2, 15.6). -/
structure Fn where
  err      : Ring := {}
  lost     : Nat := 0
  rwdrain  : Nat := 0
  erren    : Bool := false
  tren     : Bool := false
  root1    : Nat := 0
  root2    : Nat := 0
  prq      : Ring := {}
  s2prq    : Ring := {}
  tags     : List (Nat × Nat) := []
  nextTag  : Nat := 0
  nonce    : NMap DWord := []
  tokseq   : Nat := 0
  token    : List Byte := []
  dbmBase0 : Nat := 0
  dbmBase1 : Nat := 0
  dbmFirst : Nat := 0
  dbmCount : Nat := 0
  dbmEn    : Bool := false
  dbmAct   : Bool := false
  dbmBusy  : Bool := false
  dbmFlip  : Bool := false
  dbmTsw   : Nat := 0
  dbmNext  : Nat := 0
  rstBase  : Nat := 0
  rstStat  : Nat := 0
  rstFrom  : Nat := 0
  rstWaits : List (Nat × Nat × Nat) := []
  rstFail  : Bool := false
  lqva     : Nat := 0
  lqres    : Nat := 0
  lqbusy   : Bool := false
  hwbase   : Nat := 0
  hport    : Bool := false
  hmbase   : Nat := 0
  hmsize   : Nat := 0
  hmvbase  : Nat := 0
  hseg     : NMap Seg := []
  tven     : Bool := false
  tvbase   : Nat := 0
  msix     : NMap Nat := []
  ck       : Ckpt := {}
  deriving DecidableEq, Repr

/-- What the outside last received from a read (17_device_boundary.md R410). -/
inductive HostResp where
  | none
  | data (v : Nat)
  | unsupported
  | abort
  deriving DecidableEq, Repr

/-- A swap of a page by the swap engine (09_translation_leases.md R230). -/
structure Swap where
  fn    : Nat := 0
  entry : Nat := 0
  cls   : Nat := 0
  from_ : Nat := 0
  to_   : Nat := 0
  tier  : Nat := 0
  size  : Nat := 65536
  until_ : Nat := 0
  deriving DecidableEq, Repr

/-- An access of the host: of `n` bytes of a function's memory through a port, of a register of a function's space, or of the map
(17_device_boundary.md R401, R410). -/
inductive HostAcc where
  | write (port f off n v : Nat)
  | read (port f off n : Nat)
  | regWrite (f off v : Nat)
  | regRead (f off : Nat)
  | mapWrite (off v : Nat)
  | mapRead (off : Nat)
  deriving DecidableEq, Repr

/-- Package-wide registers and units (Tables 15.3, 17.7; R26, R388, R416). -/
structure Pkg where
  held     : List HostAcc := []
  pkgnum   : Nat := 0
  epoch    : Nat := 0
  tref     : Nat := 0
  domen    : Bool := false
  domrdy   : Bool := false
  domAt    : Nat := 0
  domRef   : Bool := false
  lx       : NMap Nat := []
  ly       : NMap Nat := []
  lvalid   : NMap Bool := []
  vfsel    : Nat := 0
  rscore   : Nat := 0
  rswg     : Nat := 0
  chhum    : Nat := 0
  prevf    : Nat := 0
  killvf   : Nat := 0
  killid   : Nat := 0
  wdhum    : Nat := 0
  wdcore   : Nat := 0
  wdall    : Bool := false
  refused  : Bool := false
  mgsel    : Nat := 0
  mapsel   : Nat := 0
  fwbase   : Nat := 0
  fwlen    : Nat := 0
  fwstat   : Nat := 0
  fwNext   : Option (Nat × Nat) := none
  fwRun    : Option (Nat × Nat) := none
  measured : Bool := false
  up       : Bool := false
  scrubSeq : Nat := 0
  vfen     : Bool := false
  numvfs   : Nat := 0
  power    : Bool := true
  trip     : Bool := false
  resp     : HostResp := .none
  nextId   : Nat := 1
  chip     : Nat := 0
  chipAt   : Nat := 0
  faulty   : NMap Int := []
  deriving DecidableEq, Repr

/-! ### The machine -/

/-- A move of the outside or of the schedule, made by the next step (notes/assumptions 4): a group's issue, an event, the
internal event of a number in the order of those that can happen, the host's read of a register of a function's space
(17_device_boundary.md R401, R402), or the passing of uncore cycles. -/
inductive Move where
  | readReg (f off : Nat)
  | inner (k : Nat)
  | issue (h c g : Nat)
  | event (i : Instr)
  | tick (n : Nat)
  deriving DecidableEq, Repr

/-- The machine's state. -/
structure State where
  cores    : NMap Core
  hums     : NMap Hum
  fns      : NMap Fn
  launches : NMap Launch
  cards    : List Card
  travel   : List Travel
  swaps    : List Swap
  mem      : Memory
  poison   : List Nat
  owners   : NMap Nat
  l2       : L2
  pkg      : Pkg
  uc       : Nat
  reqCtr   : Nat
  agenda   : List Move
  cur      : GRef
  prompt   : Bool
  freeCtr  : Nat
  deriving DecidableEq, Repr

/-- Why the machine stops with a fault. -/
inductive Fault where
  /-- Raised by `step` when the package has no power: no state survives and nothing but power-on happens
  (17_device_boundary.md R422, R427; notes/assumptions 49).  Safe: the hardware does nothing either. -/
  | powerLost
  deriving DecidableEq, Repr

/-- Why the model gives no next state. -/
inductive Refusal where
  /-- Raised by `exec` for an instruction that has no meaning yet, by its mnemonic.  Safe. -/
  | notModelled (mnemonic : String)
  deriving DecidableEq, Repr

/-- The trip points of a die sensor and of an HBM sensor at reset (17_device_boundary.md R421), in
sixteenths of a degree. -/
def sensorReset (i : Nat) : Sensor :=
  if 176 ≤ i then { adv := 85 * 16, thr := 95 * 16, shd := 105 * 16 }
  else { adv := 95 * 16, thr := 105 * 16, shd := 115 * 16 }

/-- The PF's handler block at reset: HSEG5 valid over the whole map (15_traps_preemption.md R362). -/
def hseg5Reset : Seg := { base := 0, limit := 2 ^ 48, r := true, w := true, valid := true }

/-- The package right after package reset, before bring-up: no work, no memory listed, chip time 0 and every
register at its stated reset value (17_device_boundary.md R427; notes/assumptions 2, 3). -/
def State.reset : State where
  cores    := []
  hums     := []
  fns      := []
  launches := []
  cards    := []
  travel   := []
  swaps    := []
  mem      := []
  poison   := []
  owners   := []
  l2       := {}
  pkg      := {}
  uc       := 0
  reqCtr   := 0
  agenda   := []
  cur      := {}
  prompt   := true
  freeCtr  := 0

end Sys2Proof.Machine
end

