-- ==== Sys2Proof/Machine/Ops.lean ====
section
/-! DEFINITION. The named operations over the machine's state: places, registers, masks, memory, chip time,
the error queue, page walks, the end of workgroups and launches, and taking a trap with the return from
it. -/

namespace Sys2Proof.Machine

/-! ### Places -/

/-- The number of a core in the map of cores. -/
def coreKey (h c : Nat) : Nat := 64 * h + c

def State.coreAt (s : State) (h c : Nat) : Core := mget {} s.cores (coreKey h c)
def State.setCoreAt (s : State) (h c : Nat) (k : Core) : State :=
  { s with cores := mset s.cores (coreKey h c) k }
def State.humAt (s : State) (h : Nat) : Hum := mget {} s.hums h
def State.setHum (s : State) (h : Nat) (x : Hum) : State := { s with hums := mset s.hums h x }
def State.fnAt (s : State) (f : Nat) : Fn := mget {} s.fns f
def State.setFn (s : State) (f : Nat) (x : Fn) : State := { s with fns := mset s.fns f x }
def State.launchAt (s : State) (l : Nat) : Launch := mget {} s.launches l
def State.setLaunch (s : State) (l : Nat) (x : Launch) : State := { s with launches := mset s.launches l x }

/-- The root launch of a launch or card task: a task of the posting launch's own function belongs to it (R160). -/
def State.rootLaunch (s : State) (l : Nat) : Nat :=
  match (s.launchAt l).poster with
  | some p => p
  | none => l

/-- The core of the group that acts. -/
def State.core (s : State) : Core := s.coreAt s.cur.h s.cur.c
def State.setCore (s : State) (k : Core) : State := s.setCoreAt s.cur.h s.cur.c k
/-- The hummock of the group that acts. -/
def State.hum (s : State) : Hum := s.humAt s.cur.h
/-- The group that acts. -/
def State.grp (s : State) : Group := mget {} s.core.groups s.cur.g
def State.setGrp (s : State) (g : Group) : State :=
  s.setCore { s.core with groups := mset s.core.groups s.cur.g g }
/-- The workgroup of the group that acts. -/
def State.wg (s : State) : Wg := mget {} s.core.wgs s.grp.wgs
def State.setWg (s : State) (w : Wg) : State :=
  s.setCore { s.core with wgs := mset s.core.wgs s.grp.wgs w }
/-- Make a group the one that acts. -/
def State.at_ (s : State) (r : GRef) : State := { s with cur := r }

/-! ### Chip time and cycles -/

/-- Chip time in ns: the value set at the last lock plus 25/47 ns for each uncore cycle (R2, R26). -/
def State.chipTime (s : State) : Nat := s.pkg.chip + (s.uc - s.pkg.chipAt) * 25 / 47

/-- The core cycle count of a hummock: half the uncore cycles, a quarter under throttling (R2, R422). -/
def State.cycles (s : State) (h : Nat) : Nat :=
  (s.humAt h).cyc + (s.uc - (s.humAt h).cycAt) / (if (s.humAt h).half then 4 else 2)

/-- The physical number of a local hummock (R11). -/
def State.phys (s : State) (h : Nat) : Nat := 8 * s.pkg.pkgnum + h

/-- The local hummock of a physical number, if it lies in the package. -/
def State.localHum (s : State) (p : Nat) : Option Nat :=
  if p / 8 = s.pkg.pkgnum then some (p % 8) else none

/-- The logical coordinates of a local hummock (R404 Table 17.7). -/
def State.lx (s : State) (h : Nat) : Nat := mget (h % 4) s.pkg.lx h
def State.ly (s : State) (h : Nat) : Nat := mget (h / 4) s.pkg.ly h
def State.lvalid (s : State) (h : Nat) : Bool := mget true s.pkg.lvalid h

/-- Whether a chip-time unit is in the fault state: a core's by its number, a base die's by 512 + h (R214). -/
def State.faulty (s : State) (unit : Nat) : Bool := (mfind s.pkg.faulty unit).isSome

/-- Take a free value: the counter moves on (notes/assumptions 6). -/
def State.free (s : State) : DWord × State := (Config.freeValue s.freeCtr, { s with freeCtr := s.freeCtr + 1 })

/-! ### Scalar registers and operands -/

def Group.sreg (g : Group) (i : Nat) : Word := mget 0 g.s i
def Group.mreg (g : Group) (i : Nat) : Word := mget 0 g.m i
/-- The live mask m0. -/
def Group.m0 (g : Group) : Word := g.mreg 0

def State.setS (s : State) (i : Nat) (v : Word) : State := s.setGrp { s.grp with s := mset s.grp.s i v }

/-- Write a mask register: m0 keeps only member lanes (R70). -/
def State.setM (s : State) (i : Nat) (v : Word) : State :=
  s.setGrp { s.grp with m := mset s.grp.m i (if i = 0 then v &&& s.grp.member else v) }

/-- Write the bits of the executing lanes of a mask register (R89). -/
def State.setMBits (s : State) (i : Nat) (live bits : Word) : State :=
  s.setM i ((s.grp.mreg i &&& ~~~live) ||| (bits &&& live))

def State.setPc (s : State) (pc : Word) : State := s.setGrp { s.grp with pc := pc, far := 0 }
/-- The next word (R46: "the PC advances by 8"). -/
def State.advance (s : State) : State := s.setPc (s.grp.pc + 8)

/-- The address of a PC-relative target, as the PC register holds it (R48). -/
def State.target (s : State) (off : Word) : Word := s.grp.pc + off * 8
/-- How many times 2^32 a PC-relative target lies beyond the PC register: such a target is outside seg.code (R48). -/
def State.farOf (s : State) (off : Word) : Int := ((s.grp.pc.toNat : Int) + 8 * off.toInt) / 2 ^ 32
/-- Continue at a PC-relative target (R48). -/
def State.goTo (s : State) (off : Word) : State :=
  s.setGrp { s.grp with pc := s.target off, far := s.farOf off }

/-- The value of a scalar source code (R36 Table 2.3). -/
def State.scalar (s : State) (c : SCode) : Word :=
  let n := c.toNat
  if n < 32 then s.grp.sreg n
  else if n < 96 then mget 0 s.wg.k (n - 32)
  else if n < 112 then s.grp.mreg (n - 96)
  else match n with
    | 112 => BitVec.ofNat 32 s.grp.lanes
    | 113 => BitVec.ofNat 32 s.cur.g
    | 114 => BitVec.ofNat 32 s.wg.num
    | 115 => BitVec.ofNat 32 s.wg.gang
    | 116 => BitVec.ofNat 32 (s.rootLaunch s.wg.launch)
    | 117 => BitVec.ofNat 32 (s.lx s.cur.h)
    | 118 => BitVec.ofNat 32 (s.ly s.cur.h)
    | 119 => BitVec.ofNat 32 s.cur.c
    | 120 => BitVec.ofNat 32 s.wg.member
    | 121 => BitVec.ofNat 32 s.chipTime
    | 122 => s.grp.latch.getD (BitVec.ofNat 32 (s.chipTime / 2 ^ 32))
    | 123 => BitVec.ofNat 32 s.grp.binage
    | _ => 0

/-- Reading time.lo latches the high half of the same instant (R28). -/
def State.latchRead (s : State) (c : SCode) : State :=
  if c.toNat = 121 then s.setGrp { s.grp with latch := some (BitVec.ofNat 32 (s.chipTime / 2 ^ 32)) } else s

/-- The value of a second scalar operand (R46). -/
def State.op2 (s : State) : Op2 → Word
  | .imm v => v
  | .code c => s.scalar c
/-- The state after reading a second scalar operand. -/
def State.latchOp2 (s : State) : Op2 → State
  | .imm _ => s
  | .code c => s.latchRead c

/-! ### Lane registers and the executing set -/

/-- The physical register of register `j` of a member lane (R144, Table 1.9 code 0x00). -/
def State.physReg (s : State) (lane j : Nat) : Nat :=
  s.wg.rbase + (mget 0 s.grp.roster lane - s.wg.sbase) * s.wg.n + j

/-- A lane's register: a member's in its slot, a helper's in its scratch set, else zero (R131, R133). -/
def State.lreg (s : State) (lane j : Nat) : Word :=
  if s.grp.member.getLsbD lane then mget 0 s.core.rf (s.physReg lane j)
  else if s.grp.helpers.getLsbD lane then mget 0 s.grp.hregs (256 * lane + j)
  else 0

/-- Write a lane's register; a lane that is neither member nor helper has none. -/
def State.setLreg (s : State) (lane j : Nat) (v : Word) : State :=
  if s.grp.member.getLsbD lane then s.setCore { s.core with rf := mset s.core.rf (s.physReg lane j) v }
  else if s.grp.helpers.getLsbD lane then s.setGrp { s.grp with hregs := mset s.grp.hregs (256 * lane + j) v }
  else s

/-- A lane's register pair (R35). -/
def State.lpair (s : State) (lane j : Nat) : DWord := pair64 (s.lreg lane (j + 1)) (s.lreg lane j)

/-- A lane's operand of a type, zero-extended to 64 bits (R86). -/
def State.lval (s : State) (t : Ty) (lane j : Nat) : DWord :=
  if t.is64 then s.lpair lane j else (s.lreg lane j).setWidth 64

/-- Write a lane's result of a type (R86). -/
def State.setLval (s : State) (t : Ty) (lane j : Nat) (v : DWord) : State :=
  if t.is64 then (s.setLreg lane j (lo32 v)).setLreg lane (j + 1) (hi32 v) else s.setLreg lane j (lo32 v)

/-- E: the lanes of the named mask that are live (R132). -/
def State.exe (s : State) (m : MReg) : Word := s.grp.mreg m.toNat &&& s.grp.m0

/-- live(m) of an executing set: with the helper lanes of every quad that holds a lane of E (R132). -/
def State.liveOf (s : State) (e : Word) : Word :=
  e ||| maskBy (fun l => s.grp.helpers.getLsbD l && (List.range 4).any (fun i => e.getLsbD (l / 4 * 4 + i)))

/-- live(m) (R132). -/
def State.live (s : State) (m : MReg) : Word := s.liveOf (s.exe m)

/-- The lowest lane of a set, or 0. -/
def lowest (e : Word) : Nat := (lanesOf e).headD 0

/-- Write register `j` of each lane of a set, each value computed from the state before the write (R8). -/
def State.writeLanes (s : State) (live : Word) (j : Nat) (f : Nat → Word) : State :=
  (lanesOf live).foldl (fun t l => t.setLreg l j (f l)) s

/-- As `writeLanes`, for a result of a type. -/
def State.writeTy (s : State) (t : Ty) (live : Word) (j : Nat) (f : Nat → DWord) : State :=
  (lanesOf live).foldl (fun u l => u.setLval t l j (f l)) s

/-! ### Bytes and words of memory -/

/-- The number in `n` bytes from an address, little-endian (R3). -/
def readN (m : Memory) (a : Nat) : Nat → Nat
  | 0 => 0
  | n + 1 => (memRead m a).toNat + 256 * readN m (a + 1) n

/-- Write the low `n` bytes of a number, little-endian (R3). -/
def writeN (m : Memory) (a : Nat) : Nat → Nat → Memory
  | 0, _ => m
  | n + 1, v => writeN (memWrite m a (BitVec.ofNat 8 v)) (a + 1) n (v / 256)

/-- The bytes from an address. -/
def readBytes (m : Memory) (a n : Nat) : List Byte := (List.range n).map (fun i => memRead m (a + i))

/-- Write bytes from an address. -/
def writeBytes (m : Memory) (a : Nat) : List Byte → Memory
  | [] => m
  | b :: bs => writeBytes (memWrite m a b) (a + 1) bs

/-- The little-endian bytes of a number. -/
def bytesOf (n v : Nat) : List Byte := (List.range n).map (fun k => BitVec.ofNat 8 (v / 256 ^ k))

/-- Remove every byte of a range. -/
def zeroRange (m : Memory) (a n : Nat) : Memory := m.filter (fun e => decide (e.1 < a) || decide (a + n ≤ e.1))

/-! ### Physical memory: homes, ownership, undo log, dirty marks -/

/-- Whether a line lies in memory that exists (17_device_boundary.md R411): HBM below LIVETOP, host memory.
The second tier is reached by the swap engine only (R412). -/
def State.assigned (s : State) (a : Nat) : Bool :=
  if a / 2 ^ 54 = 1 then true
  else if a / 2 ^ 54 ≥ 2 then false
  else
    let p := a / 2 ^ 41
    let k := a / 2 ^ 37 % 16
    let x := a % 2 ^ 37
    if p = s.pkg.pkgnum then
      decide (x < Config.stackBytes - (mget {} (s.humAt (k / 2)).banks (k % 2)).lowered * 2 ^ 16)
    else Config.inDomain p && decide (p < 64) && decide (x < Config.stackBytes)

/-- Whether an address lies in host memory (R411). -/
def isHost (a : Nat) : Bool := a / 2 ^ 54 == 1
/-- Whether an address lies in the HBM of another package (R411). -/
def State.remote (s : State) (a : Nat) : Bool := decide (a < 2 ^ 54) && a / 2 ^ 41 != s.pkg.pkgnum

/-- The XOR of the successive `n`-bit groups of bits [55:7] (R199). -/
def fold (pa n : Nat) : Nat :=
  (List.range ((49 + n - 1) / n)).foldl (fun x i => x ^^^ bitsOf (bitsOf pa 7 49) (i * n) n) 0

/-- The home of a line: hummock (physical number) and slice (R199). -/
def State.homeOf (s : State) (t : Tlb) (pa : Nat) : Nat × Nat :=
  if isHost pa then (s.phys (if (s.fnAt t.fn).hport then 6 else 1), 64)
  else match t.sp with
    | 0 => (8 * (pa / 2 ^ 41) + fold pa 9 / 64, fold pa 9 % 64)
    | 1 => (t.home, fold pa 6)
    | _ => (t.home, t.slice)

/-- The ways a function may fill in a slice (16_tenants.md Table 16.1). -/
def HumRegs.waymaskAt (r : HumRegs) (slice f : Nat) : Nat := mget 0xFFFF r.waymask (64 * slice + f)

/-- The set of a slice in which a line stands. -/
def l2SetOf (slice line : Nat) : Nat := Config.l2Set slice line % 8192

/-- Whether a tag is of a slice and set. -/
def L2Tag.inSet (e : L2Tag) (slice set : Nat) : Bool := e.slice == slice && l2SetOf slice e.line == set

/-- A line is filled into one of the ways of a mask, in place of what that way of its set held; with no way it is not kept (R382). -/
def L2.fill (x : L2) (mask : Nat) (e : L2Tag) : L2 :=
  let n := mget 0 x.turns (64 * e.slice + e.fn)
  let ways := (List.range 16).filter mask.testBit
  let set := l2SetOf e.slice e.line
  let held := (x.tags.filter (fun d => d.inSet e.slice set)).map (fun d => d.way)
  match ways[Config.l2Victim e.slice e.fn n held % ways.length]? with
  | none => x
  | some way =>
    { tags := { e with way := way } :: x.tags.filter (fun d => !(d.inSet e.slice set && d.way == way))
      turns := mset x.turns (64 * e.slice + e.fn) (n + 1) }

/-- An access of a line at its slice: a line held in whichever way serves it, and is modified by a write; else it is filled for the
function of the access (R382). -/
def L2.touch (x : L2) (mask : Nat) (e : L2Tag) : L2 :=
  if x.tags.any (fun d => d.slice == e.slice && d.line == e.line) then
    { tags := x.tags.map (fun d => if d.slice == e.slice && d.line == e.line then { d with dirty := d.dirty || e.dirty } else d)
      turns := mset x.turns (64 * e.slice + e.fn) (mget 0 x.turns (64 * e.slice + e.fn) + 1) }
  else x.fill mask e

/-- A function's access of a line at its home passes the L2 slice there (R382); host memory and other packages have none here. -/
def State.l2Touch (s : State) (f : Nat) (home : Nat × Nat) (policy line : Nat) (write : Bool) : State :=
  match s.localHum home.1 with
  | some h =>
    if home.2 < 64 then
      { s with l2 := s.l2.touch ((s.humAt h).regs.waymaskAt home.2 f)
                 { slice := 64 * h + home.2, line := line, fn := f, policy := policy, dirty := write } }
    else s
  | none => s

/-- A unit's access of an address under its page's translation passes the L2 slice of its home (R382). -/
def State.l2At (s : State) (f : Nat) (t : Tlb) (pa : Nat) (write : Bool) : State :=
  s.l2Touch f (s.homeOf t pa) t.sp (pa / 128) write

/-- Owners of words (R235): 1 the Enlarger, 2 a host port, 3 a home, 4 + core number a core. -/
def ownEnlarger : Nat := 1
def ownHost : Nat := 2
def ownHome : Nat := 3
def ownCore (h c : Nat) : Nat := 4 + coreKey h c

/-- Mark a word present in an L1 line or drop it. -/
def L1Line.keep (l : L1Line) (keep : Word) : L1Line := { l with have_ := l.have_ &&& keep }

/-- The words of a line that a core owns. -/
def State.ownedWords (s : State) (h c line : Nat) : Word :=
  maskBy (fun i => mget 0 s.owners (line * 32 + i) == ownCore h c)

/-- The acquire step: the core's L1 drops every word the core does not own (R239). -/
def State.acquireAt (s : State) (h c : Nat) : State :=
  s.setCoreAt h c { s.coreAt h c with
    l1 := (s.coreAt h c).l1.map (fun e => (e.1, e.2.keep (s.ownedWords h c e.1))) }
/-- The acquire step of the acting group's core. -/
def State.acquire (s : State) : State := s.acquireAt s.cur.h s.cur.c

/-- The bits of a word and of the other word of its aligned pair in its line. -/
def pairBits (word : Nat) : Word := BitVec.ofNat 32 (3 * 2 ^ (word % 32 / 2 * 2))

/-- A core drops its copies of the aligned pair of a word. -/
def State.dropPair (s : State) (owner word : Nat) : State :=
  if owner < 4 then s
  else
    let k := mget {} s.cores (owner - 4)
    if (mfind k.l1 (word / 32)).isNone then s
    else { s with cores := mset s.cores (owner - 4) { k with
        l1 := k.l1.map (fun e => if e.1 = word / 32 then (e.1, e.2.keep (~~~(pairBits word))) else e) } }

/-- A word changes owner: the previous owner core drops its copy, and the new one any old copy (R235). -/
def State.setOwner (s : State) (word o : Nat) : State :=
  let old := mget 0 s.owners word
  let s := { s with owners := mset s.owners word o }
  if old = o then s else (s.dropPair old word).dropPair o word

/-- The bytes of a function's undo log (15_traps_preemption.md Table 15.3). -/
def Ckpt.logBytes (k : Ckpt) : Nat := 2 ^ (26 + k.logSz)

/-- The bytes of a function's holding tray (15_traps_preemption.md Table 15.3). -/
def trayBytes : Nat := 2 ^ 22

/-- Request an early checkpoint: the first multiple of 10 µs after the epoch at least 2 µs ahead (R369, R370). -/
def State.requestEarly (s : State) (f : Nat) : State :=
  let x := s.fnAt f
  let t := s.pkg.epoch + (s.chipTime + 2000 - s.pkg.epoch + 9999) / 10000 * 10000
  if x.ck.en && x.ck.early.isNone then s.setFn f { x with ck := { x.ck with early := some t } } else s

/-- Whether an address lies in the undo log, the tray or the image area of a function, whose writes are never
logged (R368). -/
def Ckpt.own (k : Ckpt) (a : Nat) : Bool :=
  (decide (k.logBase ≤ a) && decide (a < k.logBase + k.logBytes))
    || (decide (k.trayBase ≤ a) && decide (a < k.trayBase + trayBytes))
    || (match k.image with
        | some im => decide (k.imgBase ≤ a) && decide (a < k.imgBase + im.size)
        | none => false)

/-- The entries of the undo log: of memory lines and of blocks of map windows (R368). -/
def Ckpt.entries (k : Ckpt) : Nat := k.logged.length + k.blocks.length

/-- Write an entry at the next place of a function's undo log (R368, R444): its kind, the address, the chip time and the old 128
bytes; nothing is written where no memory is assigned (17_device_boundary.md R411).  A log past 7/8 requests an early checkpoint
(R369). -/
def State.putLog (s : State) (f n kind a : Nat) (old : List Byte) : State :=
  let k := (s.fnAt f).ck
  let e := bytesOf 8 (a * 256 + kind) ++ bytesOf 8 s.chipTime ++ old
  let s := if s.assigned (k.logBase + 144 * n) then { s with mem := writeBytes s.mem (k.logBase + 144 * n) e } else s
  if 7 * k.logBytes < 8 * 144 * (n + 1) then s.requestEarly f else s

/-- The bytes of `n` new entries of a function's holding tray in memory, where memory is assigned: the tray's writes are not logged
(R368), and an entry's layout is not given (notes/assumptions 22). -/
def State.trayBytesTo (s : State) (f n : Nat) : State :=
  let k := (s.fnAt f).ck
  let a := k.trayBase + 16 * k.tray.length
  if s.assigned a then
    { s with
      mem := writeBytes s.mem a ((List.range (16 * n)).map (fun i => Config.trayByte s.freeCtr (16 * k.tray.length + i)))
      freeCtr := s.freeCtr + 1 }
  else s

/-- Keep effects in a function's holding tray, in issue order; a tray past 7/8 requests an early checkpoint (R369). -/
def State.putTray (s : State) (f : Nat) (is : List TrayItem) : State :=
  let s := s.trayBytesTo f is.length
  let x := s.fnAt f
  let tray := x.ck.tray ++ is
  let s := s.setFn f { x with ck := { x.ck with tray := tray } }
  if 7 * trayBytes < 8 * 16 * tray.length then s.requestEarly f else s

/-- Whether a write to a line is logged: its function is checkpointed and has not logged the line in this interval (R368). -/
def State.logsLine (s : State) (f line : Nat) : Bool :=
  let x := s.fnAt f
  f != 0 && x.ck.en && (mfind x.ck.logged line).isNone && !(x.ck.own (line * 128))

/-- Record the old bytes of a line in the undo log of a checkpointed function whose interval has not logged it: an entry of
kind 0 (R368). -/
def State.logLine (s : State) (f line : Nat) : State :=
  let x := s.fnAt f
  if s.logsLine f line then
    let old := readBytes s.mem (line * 128) 128
    (s.setFn f { x with ck := { x.ck with logged := mset x.ck.logged line old } }).putLog f x.ck.entries 0 (line * 128) old
  else s

/-- Which dirty buffer a write marks at a chip time: the new one from the swap instant on (16_tenants.md R395). -/
def Fn.dbmNow (x : Fn) (now : Nat) : Bool := x.dbmAct != (x.dbmBusy && !x.dbmFlip && decide (x.dbmNext ≤ now))

/-- The byte of its dirty bitmap in which a function tracks a write, with the bit, if it tracks the frame (16_tenants.md R394). -/
def State.dirtyBit (s : State) (x : Fn) (a : Nat) : Option (Nat × Nat) :=
  let n := a / 65536 - x.dbmFirst
  if x.dbmEn && decide (x.dbmFirst ≤ a / 65536) && decide (n < x.dbmCount) && !(s.remote a) && !(isHost a) then
    some ((if x.dbmNow s.chipTime then x.dbmBase1 else x.dbmBase0) + n / 8, n % 8)
  else none

/-- Mark the frame of a write in the dirty bitmap of every function that tracks it (16_tenants.md R394), where the bitmap stands in
assigned memory (17_device_boundary.md R411). -/
def State.markDirty (s : State) (a : Nat) : State :=
  s.fns.foldl (fun t (e : Nat × Fn) =>
    match s.dirtyBit e.2 a with
    | some (b, i) =>
      if s.assigned b then { t with mem := memWrite t.mem b (memRead t.mem b ||| BitVec.ofNat 8 (2 ^ i)) } else t
    | none => t) s

/-- A store of `n` bytes at its home (R235): undo log, dirty mark, bytes, owner of each word. -/
def State.homeStore (s : State) (f o a n : Nat) (v : Nat) : State :=
  let s := if o = ownHost then s else s.logLine f (a / 128)
  let s := s.markDirty a
  let s := { s with mem := writeN s.mem a n v }
  (List.range ((a % 4 + n + 3) / 4)).foldl (fun t i => t.setOwner (a / 4 + i) o) s

/-- A store of bytes within one line at its home. -/
def State.homeBytes (s : State) (f o a : Nat) (bs : List Byte) : State :=
  let s := if o = ownHost then s else s.logLine f (a / 128)
  let s := s.markDirty a
  let s := { s with mem := writeBytes s.mem a bs }
  let s := (List.range ((a % 4 + bs.length + 3) / 4)).foldl (fun t i => t.setOwner (a / 4 + i) o) s
  if bs.length = 128 && a % 128 = 0 then { s with poison := s.poison.filter (· != a / 128) } else s

/-! ### Bins (07_work_creation.md R146) -/

/-- The bin of a key, if a bin has it. -/
def Core.binOf (k : Core) (wg : Nat) (pc : Word) (far : Int := 0) : Option Nat :=
  (k.bins.find? (fun e => e.2.wg == wg && e.2.pc == pc && e.2.far == far && !e.2.threads.isEmpty)).map Prod.fst

/-- The lowest free bin, DESIGN CHOICE, since R146 does not say which (notes/assumptions 57). -/
def Core.freeBin (k : Core) : Option Nat :=
  (List.range Config.bins).find? (fun b => (mget {} k.bins b).threads.isEmpty)

/-- Put a slot into a bin at the end of its filing order. -/
def Core.joinBin (k : Core) (b slot : Nat) : Core :=
  let sl := mget {} k.slots slot
  let bn := mget {} k.bins b
  let bn := if bn.threads.isEmpty then { pc := sl.pc, far := sl.far, wg := sl.wgs, threads := [slot] }
            else { bn with threads := bn.threads ++ [slot], entry := none }
  { k with slots := mset k.slots slot { sl with state := 2, bin := b }, bins := mset k.bins b bn }

/-- The slots in STATE 3, ascending. -/
def Core.waitingSlots (k : Core) : List Nat := (k.slots.filter (fun e => e.2.state == 3)).map Prod.fst

/-- Serve waiting threads in ascending slot order while bins are free (R146). -/
def Core.serveBins (k : Core) : Core :=
  k.waitingSlots.foldl (fun k sl =>
    let x := mget {} k.slots sl
    match k.binOf x.wgs x.pc x.far with
    | some b => k.joinBin b sl
    | none => match k.freeBin with
      | some b => k.joinBin b sl
      | none => k) k

/-- File a thread: set its PC and place it in the bin of its key, a free bin, or the waiting state; a free bin
goes first to the threads already waiting (R146). -/
def Core.file (k : Core) (slot : Nat) (pc : Word) (now : Nat) (far : Int := 0) : Core :=
  let sl := mget {} k.slots slot
  let k := { k with slots := mset k.slots slot { sl with pc := pc, far := far, filed := now % 2 ^ 32, state := 3 } }
  match k.binOf sl.wgs pc far with
  | some b => k.joinBin b slot
  | none =>
    if (k.waitingSlots.filter (· != slot)).isEmpty then
      match k.freeBin with
      | some b => k.joinBin b slot
      | none => k
    else k.serveBins

/-- Dissolve the acting group: its registers, masks and helper lanes are discarded (R77, R155), so a load still out writes
its threads' registers only, and its line operations in the coalescer are to be handed on (R304). -/
def State.dissolve (s : State) : State :=
  s.setCore { s.core with
    groups := mdel s.core.groups s.cur.g
    outs := s.core.outs.map (fun (x : Outst) => if x.grp = some s.cur.g then { x with grp := none } else x)
    coal := s.core.coal.map (fun (x : Coalesced) => if x.group = s.cur.g then { x with due := true } else x) }

/-! ### Requests in flight of a thread -/

/-- The slots of a set of member lanes of the acting group. -/
def State.slotsOf (s : State) (lanes : Word) : List Nat := (lanesOf lanes).map (fun l => mget 0 s.grp.roster l)

/-- Whether every access of these threads with one of the numbers is done (R239): its stores, atomics and reductions
performed, a window reduction accepted at its home in another package (R258, R262), and its loads complete. -/
def State.drainedIf (s : State) (number : Nat → Bool) (slots : List Nat) : Bool :=
  s.core.reqs.all (fun r => !number r.id || slots.all (fun t => !r.slots.contains t))
    && s.core.outs.all (fun o => !number o.id || slots.all (fun t => (mfind o.slots t).isNone))
    && s.travel.all (fun t => t.froms.all (fun x =>
        x.1 != coreKey s.cur.h s.cur.c || !number x.2.2 || !slots.contains x.2.1))

/-- Whether every store, atomic, reduction and load of these threads so far is done (R239). -/
def State.drained (s : State) (slots : List Nat) : Bool := s.drainedIf (fun _ => true) slots

/-- Whether an accepted request to a line has still to be performed: no later request to it overtakes it (09_translation_leases.md
R212). -/
def State.lineTaken (s : State) (line : Nat) : Bool :=
  s.cores.any (fun e => e.2.reqs.any (fun r => r.acc != 0 && r.line == line))

/-- Whether the earlier release points of these threads have taken effect (R239): no release store of theirs is on its
way, and no effect of theirs waits for its release. -/
def State.released (s : State) (slots : List Nat) : Bool :=
  s.core.reqs.all (fun r => !r.rel || slots.all (fun t => !r.slots.contains t))
    && s.core.pend.all (fun p => slots.all (fun t => !p.slots.contains t))

def State.setWait (s : State) (w : Wait) : State := s.setGrp { s.grp with wait := w }

/-! ### Ends of workgroups and launches (R376, R377) -/

/-- A barrier as its users see it, whichever unit holds it (12_synchronisation.md Tables 12.1, 12.2). -/
structure BView where
  arrived : Nat := 0
  members : Nat := 0
  broken  : Bool := false
  valid   : Bool := false
  dormant : Bool := false
  pending : Int := 0
  phcnt   : Word := 0

/-- The register of a workgroup's barrier wbn (R265). -/
def Core.wbarOf (k : Core) (w n : Nat) : Option Nat :=
  (k.wbars.find? (fun e => e.2.valid && e.2.owner == w && e.2.name == n)).map Prod.fst

/-- A barrier of a workgroup by its field: wb 0 to 15, gb 16 to 19, lb 20 to 23 (R49, R265). -/
def State.barView (s : State) (h c w bar : Nat) : BView :=
  let k := s.coreAt h c
  let wg := mget {} k.wgs w
  if bar < 16 then
    match k.wbarOf w bar with
    | none => {}
    | some r =>
      let b := mget {} k.wbars r
      { arrived := b.arrived, members := b.members, broken := b.broken, valid := b.valid, dormant := b.dormant,
        pending := b.pending, phcnt := b.phcnt }
  else
    let b := if bar < 20 then mget {} (s.humAt h).gbars (4 * wg.gctx + (bar - 16))
             else mget {} (s.humAt h).lbars (4 * wg.lctx + (bar - 20))
    { arrived := b.arrived, members := b.members, broken := b.broken, valid := b.valid, dormant := b.dormant,
      phcnt := b.phcnt }

/-- Change a workgroup's barrier register. -/
def State.modWbar (s : State) (h c w n : Nat) (f : Wbar → Wbar) : State :=
  match (s.coreAt h c).wbarOf w n with
  | none => s
  | some r => s.setCoreAt h c { s.coreAt h c with wbars := mset (s.coreAt h c).wbars r (f (mget {} (s.coreAt h c).wbars r)) }

/-- Change the entry of a gang or launch barrier in a workgroup's own hummock. -/
def State.modGbar (s : State) (h c w bar : Nat) (f : Gbar → Gbar) : State :=
  let wg := mget {} (s.coreAt h c).wgs w
  if bar < 20 then
    s.setHum h { s.humAt h with gbars := mset (s.humAt h).gbars (4 * wg.gctx + (bar - 16))
                                  (f (mget {} (s.humAt h).gbars (4 * wg.gctx + (bar - 16)))) }
  else
    s.setHum h { s.humAt h with lbars := mset (s.humAt h).lbars (4 * wg.lctx + (bar - 20))
                                  (f (mget {} (s.humAt h).lbars (4 * wg.lctx + (bar - 20)))) }

/-- Count `n` arrivals at a barrier (R273, R279). -/
def State.addArrived (s : State) (h c w bar n : Nat) : State :=
  if bar < 16 then s.modWbar h c w bar (fun b => { b with arrived := b.arrived + n })
  else s.modGbar h c w bar (fun b => { b with arrived := b.arrived + n })

/-- Withdraw one arrival: from the local count, or at the root when it was forwarded (R271, R278). -/
def State.dropArrived (s : State) (h c w bar : Nat) : State :=
  if bar < 16 then s.modWbar h c w bar (fun b => { b with arrived := b.arrived - 1 })
  else s.modGbar h c w bar (fun b =>
    if b.arrived = 0 then { b with back := b.back + 1 } else { b with arrived := b.arrived - 1 })

/-- A thread's arrival record (R268). -/
def State.arrival (s : State) (h c w tidx : Nat) : Arrival := mget {} (mget {} (s.coreAt h c).wgs w).arr tidx

/-- Whether a record makes its thread a member of a barrier (R268). -/
def Arrival.isMember (a : Arrival) (bar : Nat) : Bool := a.memb.testBit bar
/-- Whether a thread has arrived at the current phase of a barrier (R268). -/
def Arrival.arrivedAt (a : Arrival) (bar : Nat) (phcnt : Word) : Bool :=
  a.memb.testBit bar && a.mark.testBit bar == phcnt.getLsbD 0

/-- Set a thread's MARK for a barrier to a phase bit (R273). -/
def State.setMark (s : State) (h c w tidx bar : Nat) (b : Bool) : State :=
  let k := s.coreAt h c
  let wg := mget {} k.wgs w
  let a := mget {} wg.arr tidx
  let m := if a.mark.testBit bar = b then a.mark else a.mark ^^^ 2 ^ bar
  s.setCoreAt h c { k with wgs := mset k.wgs w { wg with arr := mset wg.arr tidx { a with mark := m } } }

/-! ### Priority inheritance (R169, R171) -/

/-- The effective priority of a thread slot (R169). -/
def Core.effPri (k : Core) (slot : Nat) : Nat :=
  let x := mget {} k.slots slot
  max (mget {} k.wgs x.wgs).prio x.ipri

/-- The effective priority of a group: the greatest among its members (R169). -/
def Core.groupPri (k : Core) (g : Group) : Nat :=
  (lanesOf g.member).foldl (fun p l => max p (k.effPri (mget 0 g.roster l))) 0

/-- The reference of a workgroup of a launch by its number, if it is resident. -/
def State.findWg (s : State) (launch num : Nat) : Option GRef :=
  s.cores.findSome? (fun (e : Nat × Core) =>
    (e.2.wgs.find? (fun w => w.2.launch == launch && w.2.num == num)).map
      (fun w => { h := e.1 / 64, c := e.1 % 64, g := w.1 }))

/-- What a map of raised priorities gives: the greatest of them (R171). -/
def raisedMax (m : NMap Nat) : Nat := m.foldl (fun p e => max p e.2) 0

/-- Pass a waiting group's priority to a thread: it keeps the greatest value that the wait passed to it (R171). -/
def Slot.raise (x : Slot) (waiter p : Nat) : Slot :=
  let m := mset x.raised waiter (max (mget 0 x.raised waiter) p)
  { x with raised := m, ipri := max x.ipri p }

/-- The waits that have ended no longer raise a thread: it keeps the greatest value passed to it until every wait that raised it
has ended, and then IPRI is 0 (R171). -/
def Slot.keepRaised (x : Slot) (keep : NMap Nat → NMap Nat) : Slot :=
  { x with raised := keep x.raised
           ipri := if !x.raised.isEmpty && (keep x.raised).isEmpty then 0 else x.ipri }

/-- Pass a waiting group's priority to the threads of a core that satisfy a test. -/
def Core.raise (k : Core) (waiter p : Nat) (f : Slot → Bool) : Core :=
  { k with slots := k.slots.map (fun (e : Nat × Slot) =>
      if e.2.state != 0 && f e.2 then (e.1, e.2.raise waiter p) else e) }

/-- The number of a group that waits, in the maps of raised priorities. -/
def waiterKey (key g : Nat) : Nat := 64 * key + g

/-- Whether a group waits where it passes its priority on (R171). -/
def Group.lends (g : Group) : Bool :=
  match g.wait with
  | .barWait .. => true
  | .barArr _ _ _ arw _ _ => arw
  | .recv .. => true
  | _ => false

/-- What one waiting group passes on: to the members of its barrier that have not arrived and to the Enlarger operations
counted on it, or to the threads of its channel's sender (R171). -/
def State.passOn (s : State) (key gi : Nat) (g : Group) : State :=
  let k := mget {} s.cores key
  let p := k.groupPri g
  let wg := mget {} k.wgs g.wgs
  let me := waiterKey key gi
  let toBar := fun (bar : Nat) =>
    { s with
      cores := s.cores.map (fun (e : Nat × Core) =>
        (e.1, e.2.raise me p (fun sl =>
          let v := mget {} e.2.wgs sl.wgs
          let same := v.launch == wg.launch && (decide (20 ≤ bar) || (v.gang == wg.gang
            && (decide (16 ≤ bar) || (e.1 == key && sl.wgs == g.wgs))))
          let a := mget {} v.arr sl.tidx
          same && a.isMember bar && !(a.arrivedAt bar (s.barView (e.1 / 64) (e.1 % 64) sl.wgs bar).phcnt))))
      hums := s.hums.map (fun (d : Nat × Hum) =>
        (d.1, if d.1 = key / 64 then { d.2 with enl := d.2.enl.map (fun (j : Nat × CopyJob) =>
            if j.2.core = key % 64 && j.2.wgs = g.wgs && j.2.bar = bar then
              (j.1, { j.2 with raised := mset j.2.raised me (max (mget 0 j.2.raised me) p) })
            else j) } else d.2)) }
  match g.wait with
  | .barWait bar _ _ => toBar bar
  | .barArr bar _ _ true _ _ => toBar bar
  | .recv ch _ _ =>
    match s.findWg wg.launch (mget {} wg.chans ch).peer with
    | none => s
    | some r => s.setCoreAt r.h r.c ((s.coreAt r.h r.c).raise me p (fun sl => sl.wgs == r.g))
  | _ => s

/-- Every waiting group passes its priority on, repeatedly, so that inheritance is transitive (R171). -/
def State.inheritGo (s : State) : Nat → State
  | 0 => s
  | n + 1 =>
    (s.cores.foldl (fun t (e : Nat × Core) =>
      e.2.groups.foldl (fun t (g : Nat × Group) => t.passOn e.1 g.1 g.2) t) s).inheritGo n

/-- The waiting groups of the package, as the maps of raised priorities number them. -/
def State.lenders (s : State) : List Nat :=
  s.cores.flatMap (fun (e : Nat × Core) => (e.2.groups.filter (fun g => g.2.lends)).map (fun g => waiterKey e.1 g.1))

/-- Inherited priorities as the waits now stand (R171): a thread's falls to 0 when every wait that raised it has ended, an Enlarger
operation's with the wait that raised it. -/
def State.inherit (s : State) : State :=
  let ls := s.lenders
  let keep := fun (m : NMap Nat) => m.filter (fun e => ls.contains e.1)
  let t : State := { s with
    cores := s.cores.map (fun (e : Nat × Core) =>
      (e.1, { e.2 with slots := e.2.slots.map (fun (x : Nat × Slot) =>
        (x.1, x.2.keepRaised keep)) }))
    hums := s.hums.map (fun (d : Nat × Hum) =>
      (d.1, { d.2 with enl := d.2.enl.map (fun (j : Nat × CopyJob) =>
        (j.1, { j.2 with raised := keep j.2.raised })) })) }
  t.inheritGo ls.length

/-- Threads and Enlarger operations that came after a wait began inherit too (R171). -/
def State.inheritNew (s : State) : State := if s.lenders.isEmpty then s else s.inherit

/-- Withdraw the arrivals that a waiting instruction counted in the current phase (R278). -/
def State.withdraw (s : State) (h c : Nat) (g : Group) (bar : Nat) (counted : Word) : State :=
  (lanesOf counted).foldl (fun t l =>
    let tidx := (mget {} (t.coreAt h c).slots (mget 0 g.roster l)).tidx
    let v := t.barView h c g.wgs bar
    if (t.arrival h c g.wgs tidx).arrivedAt bar v.phcnt then
      (t.setMark h c g.wgs tidx bar (!v.phcnt.getLsbD 0)).dropArrived h c g.wgs bar
    else t) s

/-- A barrier becomes broken. -/
def Gbar.breakIt (b : Gbar) : Gbar := if b.valid then { b with broken := true } else b

/-- The barrier and the counted lanes of a group's wait, if it waits at a barrier. -/
def Group.barWaits (g : Group) : Option (Nat × Word) :=
  match g.wait with
  | .barArr b _ n _ _ _ => some (b, n)
  | .barWait b n _ => some (b, n)
  | _ => none

/-- A group that waits at a broken barrier withdraws its arrivals and takes BAR_BROKEN (R278). -/
def State.breakGroup (s : State) (h c g : Nat) : State :=
  let k := s.coreAt h c
  let x := mget {} k.groups g
  match x.barWaits with
  | none => s
  | some (b, n) =>
    let s := s.withdraw h c x b n
    s.setCoreAt h c { s.coreAt h c with
      groups := mset (s.coreAt h c).groups g { x with wait := .trap { code := 12, pc := x.pc } } }

/-- Break every group of the package that waits at one of a set of barriers; the priorities they passed on return (R171,
R278). -/
def State.breakGroups (s : State) (who : Wg → Nat → Bool) : State :=
  (s.cores.foldl (fun t (e : Nat × Core) =>
    e.2.groups.foldl (fun t (g : Nat × Group) =>
      match g.2.barWaits with
      | some (b, _) => if who (mget {} e.2.wgs g.2.wgs) b then t.breakGroup (e.1 / 64) (e.1 % 64) g.1 else t
      | none => t) t) s).inherit

/-- Break every gang and launch barrier that holds members of a workgroup, and its waiters (R278). -/
def State.breakBarriers (s : State) (h c w : Nat) : State :=
  let wg := mget {} (s.coreAt h c).wgs w
  let held := fun (bar : Nat) => wg.arr.any (fun e => e.2.memb.testBit bar)
  let s := s.setHum h { s.humAt h with
    gbars := (s.humAt h).gbars.map (fun (e : Nat × Gbar) =>
      if e.1 / 4 = wg.gctx && held (16 + e.1 % 4) then (e.1, e.2.breakIt) else e) }
  let s := { s with hums := s.hums.map (fun (hm : Nat × Hum) =>
    (hm.1, { hm.2 with lbars := hm.2.lbars.map (fun (e : Nat × Gbar) =>
      if mget 0 hm.2.ctxs (e.1 / 4) = wg.launch && held (20 + e.1 % 4) then (e.1, e.2.breakIt) else e) })) }
  s.breakGroups (fun v bar => v.launch == wg.launch && held bar
    && (decide (20 ≤ bar) || (decide (16 ≤ bar) && v.gang == wg.gang)))

/-- Tell the other ends of a workgroup's channels that it has ended (R287). -/
def State.endChannels (s : State) (launch num : Nat) : State :=
  { s with cores := s.cores.map (fun (e : Nat × Core) => (e.1, { e.2 with
      wgs := e.2.wgs.map (fun (v : Nat × Wg) =>
        if v.2.launch = launch then
          (v.1, { v.2 with chans := v.2.chans.map (fun (ch : Nat × Chan) =>
            if ch.2.peer = num && (ch.2.snd || ch.2.rcv) then (ch.1, { ch.2 with peerEnded := true }) else ch) })
        else v) })) }

/-- The lines of a workgroup's scratchpad allocation and reserved channel lines. -/
def Wg.ownsLine (w : Wg) (l : Nat) : Bool :=
  (decide (w.unit0 * 32 ≤ l) && decide (l < (w.unit0 + w.units) * 32))
    || w.chans.any (fun ch => ch.2.rcv && decide (ch.2.line0 ≤ l) && decide (l < ch.2.line0 + ch.2.slots))

/-- Remove a workgroup from its core: groups, slots, bins, barrier registers, registers, scratchpad, engine and
queued operations are zeroed and released (R319, R346, R376, R377). -/
def State.clearWg (s : State) (h c w : Nat) : State :=
  let k := s.coreAt h c
  let wg := mget {} k.wgs w
  let keep := fun (l : Nat) => !wg.ownsLine l
  let k := { k with
    groups := k.groups.filter (fun e => e.2.wgs != w)
    slots := k.slots.filter (fun e => e.2.wgs != w || e.2.state == 0)
    bins := k.bins.filter (fun e => e.2.wg != w)
    wbars := k.wbars.filter (fun e => e.2.owner != w)
    wgs := mdel k.wgs w
    rf := k.rf.filter (fun e => decide (e.1 < wg.rbase) || decide (wg.rbase + wg.lim * wg.n ≤ e.1))
    scratch := k.scratch.filter (fun e => keep (e.1 / 128))
    absent := k.absent.filter keep
    poison := k.poison.filter keep
    outs := k.outs.filter (fun o => o.slots.all (fun x => decide (x.1 < wg.sbase) || decide (wg.sbase + wg.lim ≤ x.1)))
    pend := k.pend.filter (fun p => p.slots.all (fun t => decide (t < wg.sbase) || decide (wg.sbase + wg.lim ≤ t)))
    reqs := k.reqs.filter (fun r => !(r.slots.any (fun t => decide (wg.sbase ≤ t) && decide (t < wg.sbase + wg.lim))) || r.kind != MemKind.load)
    coal := k.coal.filter (fun x => x.job.wgs != w)
    engine := if wg.holds then { wdog := k.engine.wdog } else k.engine }
  let old := (s.coreAt h c).groups
  let d := s.humAt h
  let mine := fun (x : Walk) => x.who.h == h && x.who.c == c && (match x.enl with
    | some i => if i < 2048 then (mget {} d.enl i).wgs == w else wg.holds
    | none => (match mfind old x.who.g with
      | some g => g.wgs == w
      | none => false))
  let s := s.setCoreAt h c k.serveBins
  s.setHum h { d with
    enl := d.enl.filter (fun e => !(e.2.core == c && e.2.wgs == w))
    pending := d.pending.filter (fun x => x.replay || !mine x)
    walks := d.walks.filter (fun x => x.replay || !mine x)
    replies := d.replies.filter (fun x => x.replay || !mine x) }

/-- A workgroup ends abnormally (R377). -/
def State.endWgAbnormal (s : State) (r : GRef) : State :=
  let wg := mget {} (s.coreAt r.h r.c).wgs r.g
  (((s.breakBarriers r.h r.c r.g).endChannels wg.launch wg.num).clearWg r.h r.c r.g).inherit

/-- End a launch with a status: its workgroups and those of its card tasks end abnormally; a status already
set stands (R353, R377). -/
def State.endLaunch (s : State) (l status : Nat) : State :=
  let root := s.rootLaunch l
  let s := (s.launches.filter (fun e => e.1 == root || e.2.poster == some root)).foldl (fun t e =>
    let x := t.launchAt e.1
    let t := x.wgs.foldl (fun t r => t.endWgAbnormal r) t
    t.setLaunch e.1 { x with wgs := [], fresh := [], phase := .ended,
                             status := some (x.status.getD status) }) s
  { s with cards := s.cards.filter (fun c => c.poster != some root) }

/-! ### Taking a trap and returning (15_traps_preemption.md) -/

/-- The vector class of a trap code (R351 Table 15.1). -/
def trapClass (code : Nat) : Nat :=
  if code ≤ 4 then 0 else if code ≤ 6 then 1 else if code ≤ 9 then 2 else if code = 10 then 3
  else if code ≤ 16 then 4 else 5

/-- Status codes of R164 and R352. -/
def stBadRecord : Nat := 1
def stLease : Nat := 5
def stStall : Nat := 6
def stMatrixReset : Nat := 7
def stKilled : Nat := 8
def stChipletLost : Nat := 9
def stNested : Nat := 10
def stPathLost : Nat := 11

/-- A handler segment of a function's block; HSEG5 resets to the whole map (R362). -/
def Fn.hsegAt (x : Fn) (i : Nat) : Seg := mget (if i = 5 then hseg5Reset else {}) x.hseg i
/-- The handler set of a function. -/
def Fn.hsegs (x : Fn) : NMap Seg := (List.range 8).map (fun i => (i, x.hsegAt i))

/-- The level a trap goes to, and the function of its handler block (R353). -/
def State.trapTarget (s : State) : Option (Level × Nat) :=
  match s.grp.lvl with
  | .user => if s.wg.fn = 0 then some (.hypervisor, 0) else some (.supervisor, s.wg.fn)
  | .supervisor => some (.hypervisor, 0)
  | .hypervisor => none

/-- Z, N, C, V as SFLAGS holds them: V, C, N, Z in bits 0 to 3 (Table 15.3). -/
def Group.flags (g : Group) : Nat := b2n g.v + 2 * b2n g.c + 4 * b2n g.n + 8 * b2n g.z

/-- The saved set of a trap (R355). -/
def Group.save (g : Group) (t : TrapInfo) : Saved :=
  { pc := t.pc, s := g.s, m := g.m, flags := g.flags, code := t.code, level := g.lvl, lane := t.lane,
    detail := t.detail, addr := t.addr }

/-- The group at handler entry (R355). -/
def Group.enter (g : Group) (t : TrapInfo) (lvl : Level) (f : Nat) (x : Fn) : Group :=
  { g with
    saved := g.save t :: g.saved
    lvl := lvl, hfn := f, segs := x.hsegs
    pc := BitVec.ofNat 32 (x.tvbase + 64 * trapClass t.code)
    s := [(0, BitVec.ofNat 32 t.code), (1, BitVec.ofNat 32 t.detail), (2, BitVec.ofNat 32 t.lane),
          (3, BitVec.ofNat 32 t.addr), (4, BitVec.ofNat 32 (t.addr / 2 ^ 32)), (5, t.pc)]
    m := [(0, g.member)]
    z := false, n := false, c := false, v := false
    wait := .ready, tlb := [], denied := [], held := none, far := 0 }

/-- Trap entry, once the group's earlier accesses are performed (R353 to R355). -/
def State.enterTrap (s : State) (t : TrapInfo) : State :=
  match s.trapTarget with
  | none => s.endLaunch s.wg.launch stNested
  | some (lvl, f) =>
    if (s.fnAt f).tven then (s.setGrp (s.grp.enter t lvl f (s.fnAt f))).acquire
    else s.endLaunch s.wg.launch (32 + t.code)

/-- Take a trap: at once, or when the earlier accesses of the group's threads are performed (R354). -/
def State.takeTrap (s : State) (t : TrapInfo) : State :=
  if s.drained (s.slotsOf s.grp.member) then s.enterTrap t else s.setWait (.trap t)

/-- Raise a trap of the word at the PC. -/
def State.trap (s : State) (code : Nat) (lane : Nat := 0) (addr : Nat := 0) (detail : Nat := 0) : State :=
  s.takeTrap { code := code, lane := lane, addr := addr, detail := detail, pc := s.grp.pc }

/-- Trap codes (Table 15.1). -/
def tIllegalOpcode : Nat := 1
def tIllegalPair : Nat := 2
def tPrivilege : Nat := 3
def tIllegalOperand : Nat := 4
def tMisalignedPc : Nat := 5
def tSoftware : Nat := 6
def tBounds : Nat := 7
def tAccess : Nat := 8
def tAlign : Nat := 9
def tPoison : Nat := 10
def tBarUse : Nat := 11
def tBarBroken : Nat := 12
def tCvState : Nat := 13
def tCvMismatch : Nat := 14
def tChUse : Nat := 15
def tChBroken : Nat := 16
def tCopyDesc : Nat := 17
def tTypeCombo : Nat := 18
def tMatrixDesc : Nat := 19
def tMatrixSlot : Nat := 20

/-- The segment copies of a level: the workgroup's set at user level, the handler set of the VF at supervisor
level (R359). -/
def State.segsFor (s : State) (lvl : Level) : NMap Seg :=
  match lvl with
  | .user => s.wg.segs
  | .supervisor => (s.fnAt s.wg.fn).hsegs
  | .hypervisor => (s.fnAt 0).hsegs

/-- The return from a handler as one event (R359): the saved set is restored and the privilege falls. -/
def State.trapReturn (s : State) (skip : Bool) : State :=
  match s.grp.saved with
  | [] => s
  | sv :: rest =>
    let pc := if skip then sv.pc + 8 else sv.pc
    let s := (s.setGrp { s.grp with
      pc := pc, s := sv.s, m := mset sv.m 0 (mget 0 sv.m 0 &&& s.grp.member),
      v := sv.flags.testBit 0, c := sv.flags.testBit 1, n := sv.flags.testBit 2, z := sv.flags.testBit 3,
      lvl := sv.level, hfn := s.wg.fn, segs := s.segsFor sv.level, saved := rest, tlb := [], denied := [], held := none,
      far := 0 }).acquire
    if pc.toNat % 8 = 0 then s
    else s.takeTrap { code := tMisalignedPc, addr := pc.toNat, detail := 2, pc := pc }

end Sys2Proof.Machine
end

