-- ==== Sys2Proof/Machine/Operands.lean ====
section
/-! DEFINITION. The operand forms: typed lane operands as integers, packed elements, the scalar operands
of an S word, and the shapes the instructions share (03_scalar_control.md R65; 04_integer.md R86). -/

namespace Sys2Proof.Machine

/-- The outcome of a step of this machine. -/
abbrev Out := Host.Outcome State Fault Refusal

/-! ### Typed values -/

/-- The width of a value of a type in bits (R38 Table 2.4). -/
def tyWidth (t : Ty) : Nat :=
  match t with
  | .b64 | .s64 | .n64 => 64
  | .s16 | .n16 | .f16 | .bf16 => 16
  | .s8 | .n8 | .e4m3 | .e5m2 | .e8m0 => 8
  | .s4 | .n4 | .e2m1 => 4
  | .b32 | .s32 | .n32 | .f32 | .s8x4 | .n8x4 | .s4x8 | .n4x8 | .f16x2 | .bf16x2 | .e4m3x4 | .e5m2x4
  | .e2m1x8 => 32

/-- Whether a type's elements are two's complement (R86, R103). -/
def tySigned (t : Ty) : Bool := t.among [.s8, .s16, .s32, .s64, .s4, .s8x4, .s4x8]

/-- The width of a packed type's elements (04_integer.md, "Saturating and packed forms"). -/
def elemWidth (t : Ty) : Nat :=
  match t with
  | .s8x4 | .n8x4 => 8
  | .s4x8 | .n4x8 => 4
  | _ => tyWidth t

/-- The least value of an integer of `w` bits. -/
def intMin (sg : Bool) (w : Nat) : Int := if sg then -(2 ^ (w - 1) : Nat) else 0
/-- The greatest value of an integer of `w` bits. -/
def intMax (sg : Bool) (w : Nat) : Int := if sg then (2 ^ (w - 1) : Nat) - 1 else (2 ^ w : Nat) - 1
/-- An integer clamped to a range. -/
def clampI (lo hi x : Int) : Int := if x < lo then lo else if hi < x then hi else x
/-- The low `w` bits of a number read as signed or unsigned. -/
def asInt (sg : Bool) (w x : Nat) : Int := if sg then sextNat (x % 2 ^ w) w else ((x % 2 ^ w : Nat) : Int)
/-- The value of an operand of an integer type. -/
def tyInt (t : Ty) (x : DWord) : Int := asInt (tySigned t) (tyWidth t) x.toNat
/-- An integer modulo 2^64. -/
def ofI (x : Int) : DWord := BitVec.ofInt 64 x

/-- Combine two packed registers element by element (R103). -/
def packedMap (t : Ty) (f : Int → Int → Int) (a b : Word) : Word :=
  let w := elemWidth t
  BitVec.ofNat 32 ((List.range (32 / w)).foldl (fun acc i =>
    acc + (BitVec.ofInt w (f (asInt (tySigned t) w (a.toNat / 2 ^ (i * w))) (asInt (tySigned t) w (b.toNat / 2 ^ (i * w))))).toNat
      * 2 ^ (i * w)) 0)

/-- The saturating combination of each element (R103). -/
def packedSat (t : Ty) (f : Int → Int → Int) : Word → Word → Word :=
  packedMap t (fun x y => clampI (intMin (tySigned t) (elemWidth t)) (intMax (tySigned t) (elemWidth t)) (f x y))

/-- The exact sum of the products of the elements of two packed registers (R104). -/
def packedDot (t : Ty) (a b : Word) : Int :=
  let w := elemWidth t
  (List.range (32 / w)).foldl (fun acc i =>
    acc + asInt (tySigned t) w (a.toNat / 2 ^ (i * w)) * asInt (tySigned t) w (b.toNat / 2 ^ (i * w))) 0

/-! ### Scalar operands -/

/-- Write a destination s0 to s31 or m0 to m15 (R37, R67, R70). -/
def State.setDest (s : State) (d : SCode) (v : Word) : State :=
  if d.toNat < 32 then s.setS d.toNat v else s.setM (d.toNat - 96) v

/-- The two operands of an arithmetic S word, the first read first, and the state after reading them (R28,
R65). -/
def State.read2 (s : State) (a : SCode) (b : Op2) : Word × Word × State :=
  let s1 := s.latchRead a
  (s.scalar a, s1.op2 b, s1.latchOp2 b)

/-! ### Lane operands and results -/

/-- A lane instruction that writes a register of a type in every executing lane and advances (R85, R89). -/
def State.lanes (s : State) (m : MReg) (t : Ty) (d : Reg) (f : Nat → DWord) : State :=
  (s.writeTy t (s.live m) d.toNat f).advance

/-- A lane instruction that writes a 32-bit register. -/
def State.lanes32 (s : State) (m : MReg) (d : Reg) (f : Nat → Word) : State :=
  (s.writeLanes (s.live m) d.toNat f).advance

/-- A lane instruction that writes a mask: only the bits of executing lanes change (R89). -/
def State.lanesMask (s : State) (m d : MReg) (f : Nat → Bool) : State :=
  (s.setMBits d.toNat (s.live m) (maskBy f)).advance

end Sys2Proof.Machine
end

