-- ==== Sys2Proof/Machine/Flags.lean ====
section
/-! DEFINITION. The condition codes: when a condition holds (02_words_and_assembly.md R47), the selectors
of `ssel` (03_scalar_control.md R69) and what a compare sets (R68). -/

namespace Sys2Proof.Machine

/-- Whether the condition of an S word holds (R47). -/
def Group.holds (g : Group) (c : SCond) : Bool :=
  match c with
  | .always => true
  | .eq => g.z
  | .ne => !g.z
  | .lt => g.n != g.v
  | .ge => g.n == g.v
  | .le => g.z || g.n != g.v
  | .gt => !g.z && g.n == g.v
  | .lo => !g.c
  | .hs => g.c
  | .ls => !g.c || g.z
  | .hi => g.c && !g.z
  | .mi => g.n
  | .pl => !g.n
  | .vs => g.v
  | .vc => !g.v

/-- Whether a selector of `ssel` holds (R69). -/
def Group.selects (g : Group) (c : SSel) : Bool :=
  match c with
  | .eq => g.z
  | .ne => !g.z
  | .lt => g.n != g.v
  | .ge => g.n == g.v
  | .lo => !g.c
  | .hs => g.c
  | .le => g.z || g.n != g.v
  | .gt => !g.z && g.n == g.v

/-- The flags after comparing `a` with `b` (R68). -/
def Group.compare (g : Group) (a b : Word) : Group :=
  let t := a - b
  { g with z := t == 0, n := t.msb, c := decide (b.toNat ≤ a.toNat), v := a.msb != b.msb && t.msb != a.msb }

/-- A word that takes effect only when its condition holds; otherwise the PC advances (R46). -/
def State.when (s : State) (c : SCond) (t : State) : State := if s.grp.holds c then t else s.advance

/-- An arithmetic S word (R65). -/
def State.arith (s : State) (c : SCond) (d a : SCode) (b : Op2) (op : Word → Word → Word) : State :=
  let r := s.read2 a b
  s.when c (r.2.2.setS d.toNat (op r.1 r.2.1)).advance

end Sys2Proof.Machine
end

