-- ==== Sys2Proof/Machine/Scalar.lean ====
section
/-! DEFINITION. The meanings of the scalar and control instructions (03_scalar_control.md), but for work
creation. -/

namespace Sys2Proof.Machine

/-! ### Scalar arithmetic (R65 to R70, Table 3.1) -/

/-- `smov` (R67). -/
def execSmov (c : SCond) (d src : SCode) (s : State) : Out :=
  .next (s.when c ((s.latchRead src).setDest d (s.scalar src)).advance)

/-- `smovi` (R67). -/
def execSmovi (c : SCond) (d : SCode) (imm : Word) (s : State) : Out :=
  .next (s.when c (s.setDest d imm).advance)

/-- `sadd` (R66). -/
def execSadd (c : SCond) (d a : SCode) (b : Op2) (s : State) : Out := .next (s.arith c d a b (· + ·))
/-- `ssub` (R66). -/
def execSsub (c : SCond) (d a : SCode) (b : Op2) (s : State) : Out := .next (s.arith c d a b (· - ·))
/-- `smul` (R66). -/
def execSmul (c : SCond) (d a : SCode) (b : Op2) (s : State) : Out := .next (s.arith c d a b (· * ·))

/-- Bits [63:32] of the exact product, signed or unsigned (R66, R92). -/
def mulHigh (u : Bool) (a b : Word) : Word :=
  if u then BitVec.ofNat 32 (a.toNat * b.toNat / 2 ^ 32) else BitVec.ofInt 32 (a.toInt * b.toInt / 2 ^ 32)

/-- `smulh` (R66). -/
def execSmulh (c : SCond) (u : Bool) (d a : SCode) (b : Op2) (s : State) : Out :=
  .next (s.arith c d a b (mulHigh u))
/-- `sand` (R66). -/
def execSand (c : SCond) (d a : SCode) (b : Op2) (s : State) : Out := .next (s.arith c d a b (· &&& ·))
/-- `sor` (R66). -/
def execSor (c : SCond) (d a : SCode) (b : Op2) (s : State) : Out := .next (s.arith c d a b (· ||| ·))
/-- `sxor` (R66). -/
def execSxor (c : SCond) (d a : SCode) (b : Op2) (s : State) : Out := .next (s.arith c d a b (· ^^^ ·))

/-- A left shift; 0 for a count of 32 or more (R66). -/
def shiftL (a b : Word) : Word := if 32 ≤ b.toNat then 0 else a <<< b.toNat
/-- A right shift with zeros entering; 0 for a count of 32 or more (R66). -/
def shiftR (a b : Word) : Word := a >>> b.toNat
/-- A right shift with copies of bit 31 entering (R66). -/
def shiftA (a b : Word) : Word := a.sshiftRight b.toNat

/-- `sshl` (R66). -/
def execSshl (c : SCond) (d a : SCode) (b : Op2) (s : State) : Out := .next (s.arith c d a b shiftL)
/-- `sshr` (R66). -/
def execSshr (c : SCond) (d a : SCode) (b : Op2) (s : State) : Out := .next (s.arith c d a b shiftR)
/-- `ssar` (R66). -/
def execSsar (c : SCond) (d a : SCode) (b : Op2) (s : State) : Out := .next (s.arith c d a b shiftA)

/-- The lesser of two words, unsigned or signed (R66). -/
def wordMin (u : Bool) (a b : Word) : Word :=
  if u then (if a.toNat ≤ b.toNat then a else b) else (if a.toInt ≤ b.toInt then a else b)
/-- The greater of two words, unsigned or signed (R66). -/
def wordMax (u : Bool) (a b : Word) : Word :=
  if u then (if a.toNat ≤ b.toNat then b else a) else (if a.toInt ≤ b.toInt then b else a)

/-- `smin` (R66). -/
def execSmin (c : SCond) (u : Bool) (d a : SCode) (b : Op2) (s : State) : Out :=
  .next (s.arith c d a b (wordMin u))
/-- `smax` (R66). -/
def execSmax (c : SCond) (u : Bool) (d a : SCode) (b : Op2) (s : State) : Out :=
  .next (s.arith c d a b (wordMax u))

/-- Set the flags of a compare (R68). -/
def State.setFlags (s : State) (a b : Word) : State := s.setGrp (s.grp.compare a b)

/-- `scmp` (R68). -/
def execScmp (c : SCond) (a b : SCode) (s : State) : Out :=
  let r := s.read2 a (.code b)
  .next (s.when c (r.2.2.setFlags r.1 r.2.1).advance)

/-- `scmpi` (R68). -/
def execScmpi (c : SCond) (a : SCode) (imm : Word) (s : State) : Out :=
  let r := s.read2 a (.imm imm)
  .next (s.when c (r.2.2.setFlags r.1 r.2.1).advance)

/-- `ssel` (R69): both operands are read, and the selector is evaluated on the flags at issue. -/
def execSsel (c : SCond) (sel : SSel) (d a : SCode) (b : Op2) (s : State) : Out :=
  .next (s.arith c d a b (fun x y => if s.grp.selects sel then x else y))

/-! ### Lane and constant transfers (R71, R72) -/

/-- The lane that `sread` names (R71). -/
def State.laneSel (s : State) (l : LaneSel) : Nat :=
  match l with
  | .imm n => n.toNat
  | .code c => (s.scalar c).toNat % 32

/-- The state after reading the lane operand (R28). -/
def State.latchSel (s : State) (l : LaneSel) : State :=
  match l with
  | .imm _ => s
  | .code c => s.latchRead c

/-- `sread` (R71). -/
def execSread (c : SCond) (d : SCode) (v : Reg) (l : LaneSel) (s : State) : Out :=
  .next (s.when c ((s.latchSel l).setS d.toNat (s.lreg (s.laneSel l) v.toNat)).advance)

/-- Whether a group of a lower active group number has written item `i` of the workgroup in this core cycle: its value holds
(R72, R158). -/
def State.outranked (s : State) (i : Nat) : Bool :=
  match mfind s.wg.kw i with
  | some (t, g) => t == s.cycles s.cur.h && decide (g < s.cur.g)
  | none => false

/-- The writes of a workgroup's items with the acting group's of item `i` (R72, R158). -/
def State.written (s : State) (i : Nat) : NMap (Nat × Nat) := mset s.wg.kw i (s.cycles s.cur.h, s.cur.g)

/-- Write a workgroup constant (R72): of two groups that write it in one core cycle, the value of the lower active group
number holds. -/
def State.setK (s : State) (i : Nat) (v : Word) : State :=
  if s.outranked i then s else s.setWg { s.wg with k := mset s.wg.k i v, kw := s.written i }

/-- `kst` (R72). -/
def execKst (c : SCond) (k : SCode) (b : Op2) (s : State) : Out :=
  .next (s.when c ((s.latchOp2 b).setK (k.toNat - 32) (s.op2 b)).advance)

/-! ### Branches and loops (R73 to R75) -/

/-- Branch to a PC-relative target when a test holds. -/
def State.branchIf (s : State) (c : SCond) (taken : Bool) (off : Word) : State :=
  s.when c (if taken then s.goTo off else s.advance)

/-- `br` (R73). -/
def execBr (c : SCond) (off : Word) (s : State) : Out := .next (s.branchIf c true off)

/-- `bra` (R73, R75): a misaligned register target traps with nothing changed. -/
def execBra (c : SCond) (t : Op2) (s : State) : Out :=
  let v := s.op2 t
  .next (s.when c (if v.toNat % 8 = 0 then (s.latchOp2 t).setPc v else s.trap tMisalignedPc))

/-- `brmz` (R73). -/
def execBrmz (c : SCond) (m : MReg) (off : Word) (s : State) : Out :=
  .next (s.branchIf c (s.exe m == 0) off)
/-- `brmnz` (R73). -/
def execBrmnz (c : SCond) (m : MReg) (off : Word) (s : State) : Out :=
  .next (s.branchIf c (s.exe m != 0) off)
/-- `brmf` (R73). -/
def execBrmf (c : SCond) (m : MReg) (off : Word) (s : State) : Out :=
  .next (s.branchIf c (s.exe m == s.grp.m0) off)

/-- `sloop` (R74). -/
def execSloop (c : SCond) (ctr : SCode) (off : Word) (s : State) : Out :=
  let n := s.grp.sreg ctr.toNat - 1
  let t := s.setS ctr.toNat n
  .next (s.when c (if n != 0 then t.goTo off else t.advance))

/-! ### Calls, returns and regrouping (R76, R77) -/

/-- `call` (R76): the link goes to every member lane, live or not. -/
def execCall (c : SCond) (l : Reg) (off : Word) (s : State) : Out :=
  .next (s.when c ((s.writeLanes s.grp.member l.toNat (fun _ => s.grp.pc + 8)).goTo off))

/-- File threads of the acting group's core, each at its own PC, in the order given (R146). -/
def State.fileAll (s : State) (ts : List (Nat × Word × Int)) : State :=
  s.setCore (ts.foldl (fun k t => k.file t.1 t.2.1 (s.cycles s.cur.h) t.2.2) s.core)

/-- Dissolve the acting group, filing its members where `target` says (R77, R155); a target may lie beyond the PC register
(R48).  Members are filed in ascending lane order, and so claim free bins in it: DESIGN CHOICE, the spec gives no order
(notes/assumptions 57). -/
def State.dissolveTo (s : State) (target : Nat → Word) (far : Nat → Int := fun _ => 0) : State :=
  (s.fileAll ((lanesOf s.grp.member).map (fun l => (mget 0 s.grp.roster l, target l, far l)))).dissolve

/-- The first lane of a set whose code address is misaligned. -/
def misaligned (ls : List Nat) (target : Nat → Word) : Option Nat :=
  ls.find? (fun l => (target l).toNat % 8 != 0)

/-- `ret` (R77): a misaligned link traps, a uniform link continues, else the group dissolves. -/
def execRet (c : SCond) (l : Reg) (s : State) : Out :=
  let ls := lanesOf s.grp.member
  let link := fun (i : Nat) => s.lreg i l.toNat
  .next (s.when c (match misaligned ls link with
    | some b => s.trap tMisalignedPc b
    | none =>
      if ls.all (fun i => link i == link (lowest s.grp.member)) then s.setPc (link (lowest s.grp.member))
      else s.dissolveTo link))

/-! ### Traps, hints, yield and sleep (R78 to R81) -/

/-- `trap` (R78): taken after the instruction completes, with the PC past it. -/
def execTrap (c : SCond) (code : BitVec 16) (s : State) : Out :=
  .next (s.when c (s.advance.takeTrap { code := tSoftware, detail := code.toNat, pc := s.grp.pc + 8 }))

/-- `nop` (R79). -/
def execNop (_ : SCond) (s : State) : Out := .next s.advance

/-- A hint executes as `nop` (R52, R79). -/
def execHint (_ : BitVec 4) (_ : BitVec 54) (s : State) : Out := .next s.advance

end Sys2Proof.Machine
end

