-- ==== Sys2Proof/Machine/Integer.lean ====
section
/-! DEFINITION. The meanings of the integer, address and packed sub-word instructions
(04_integer.md). -/

namespace Sys2Proof.Machine

/-! ### Shapes -/

/-- A two-source form of a type (R92). -/
def State.int2 (s : State) (m : MReg) (t : Ty) (d a b : Reg) (op : DWord → DWord → DWord) : State :=
  s.lanes m t d (fun l => op (s.lval t l a.toNat) (s.lval t l b.toNat))

/-- A one-source form of a type. -/
def State.int1 (s : State) (m : MReg) (t : Ty) (d a : Reg) (op : DWord → DWord) : State :=
  s.lanes m t d (fun l => op (s.lval t l a.toNat))

/-- A two-source form of 32-bit registers. -/
def State.word2 (s : State) (m : MReg) (d a b : Reg) (op : Word → Word → Word) : State :=
  s.lanes32 m d (fun l => op (s.lreg l a.toNat) (s.lreg l b.toNat))

/-- A form with an immediate in place of b (R105). -/
def State.wordImm (s : State) (m : MReg) (d a : Reg) (imm : Word) (op : Word → Word → Word) : State :=
  s.lanes32 m d (fun l => op (s.lreg l a.toNat) imm)

/-! ### Moves and thread index (R90, R91) -/

/-- `mov`, register form (R90). -/
def execMov (m : MReg) (ty : Ty) (d a : Reg) (s : State) : Out := .next (s.int1 m ty d a id)

/-- `mov` of a scalar source, read once at issue (R90). -/
def execMovScalar (m : MReg) (d : Reg) (src : SCode) (s : State) : Out :=
  .next ((s.latchRead src).lanes32 m d (fun _ => s.scalar src))

/-- `movi` (R90). -/
def execMovi (m : MReg) (d : Reg) (imm : Word) (s : State) : Out := .next (s.lanes32 m d (fun _ => imm))

/-- The thread index of a lane; a helper's is all ones (R91). -/
def State.laneTidx (s : State) (l : Nat) : Word :=
  if s.grp.member.getLsbD l then BitVec.ofNat 32 (mget {} s.core.slots (mget 0 s.grp.roster l)).tidx
  else 0xFFFFFFFF

/-- `tidx` (R91). -/
def execTidx (m : MReg) (d : Reg) (s : State) : Out := .next (s.lanes32 m d (fun l => s.laneTidx l))

/-! ### Arithmetic (R92 to R95) -/

/-- `add` (R92). -/
def execAdd (m : MReg) (ty : Ty) (d a b : Reg) (s : State) : Out := .next (s.int2 m ty d a b (· + ·))
/-- `sub` (R92). -/
def execSub (m : MReg) (ty : Ty) (d a b : Reg) (s : State) : Out := .next (s.int2 m ty d a b (· - ·))
/-- `mul` (R92). -/
def execMul (m : MReg) (_ : Ty) (d a b : Reg) (s : State) : Out := .next (s.word2 m d a b (· * ·))
/-- `mulhi` (R92). -/
def execMulhi (m : MReg) (ty : Ty) (d a b : Reg) (s : State) : Out :=
  .next (s.word2 m d a b (mulHigh (!tySigned ty)))

/-- The lesser as a type compares (R92). -/
def tyMin (t : Ty) (a b : DWord) : DWord := if tyInt t a ≤ tyInt t b then a else b
/-- The greater as a type compares (R92). -/
def tyMax (t : Ty) (a b : DWord) : DWord := if tyInt t a ≤ tyInt t b then b else a

/-- `min` (R92). -/
def execMin (m : MReg) (ty : Ty) (d a b : Reg) (s : State) : Out := .next (s.int2 m ty d a b (tyMin ty))
/-- `max` (R92). -/
def execMax (m : MReg) (ty : Ty) (d a b : Reg) (s : State) : Out := .next (s.int2 m ty d a b (tyMax ty))

/-- `neg` (R93). -/
def execNeg (m : MReg) (ty : Ty) (d a : Reg) (s : State) : Out := .next (s.int1 m ty d a (fun x => -x))
/-- `abs` (R93). -/
def execAbs (m : MReg) (ty : Ty) (d a : Reg) (s : State) : Out :=
  .next (s.int1 m ty d a (fun x => if 0 ≤ tyInt ty x then x else -x))

/-- `mad` (R94). -/
def execMad (m : MReg) (_ : Ty) (d a b e : Reg) (s : State) : Out :=
  .next (s.lanes32 m d (fun l => s.lreg l a.toNat * s.lreg l b.toNat + s.lreg l e.toNat))

/-- The exact product of two registers modulo 2^64, signed or unsigned by the type (R94). -/
def wideProduct (t : Ty) (a b : Word) : DWord :=
  if tySigned t then a.signExtend 64 * b.signExtend 64 else a.setWidth 64 * b.setWidth 64

/-- `madw` (R94). -/
def execMadw (m : MReg) (ty : Ty) (d a b e : Reg) (s : State) : Out :=
  .next (s.lanes m .n64 d (fun l => wideProduct ty (s.lreg l a.toNat) (s.lreg l b.toNat) + s.lpair l e.toNat))

/-- A sum or difference with a carry mask: the registers and the mask bits change together (R89, R95). -/
def State.carryOp (s : State) (m : MReg) (d : Reg) (cm : MReg) (f : Nat → Word × Bool) : State :=
  ((s.writeLanes (s.live m) d.toNat (fun l => (f l).1)).setMBits cm.toNat (s.live m)
    (maskBy (fun l => (f l).2))).advance

/-- `addc` (R95). -/
def execAddc (m : MReg) (d a b : Reg) (cm : MReg) (s : State) : Out :=
  .next (s.carryOp m d cm (fun l =>
    let t := (s.lreg l a.toNat).toNat + (s.lreg l b.toNat).toNat + b2n ((s.grp.mreg cm.toNat).getLsbD l)
    (BitVec.ofNat 32 t, decide (2 ^ 32 ≤ t))))

/-- `subc` (R95). -/
def execSubc (m : MReg) (d a b : Reg) (cm : MReg) (s : State) : Out :=
  .next (s.carryOp m d cm (fun l =>
    let t : Int := (s.lreg l a.toNat).toNat - (s.lreg l b.toNat).toNat - b2n ((s.grp.mreg cm.toNat).getLsbD l)
    (BitVec.ofInt 32 t, decide (t < 0))))

/-! ### Logic, shifts and bit fields (R96 to R99) -/

/-- `and` (R96). -/
def execAnd (m : MReg) (ty : Ty) (d a b : Reg) (s : State) : Out := .next (s.int2 m ty d a b (· &&& ·))
/-- `or` (R96). -/
def execOr (m : MReg) (ty : Ty) (d a b : Reg) (s : State) : Out := .next (s.int2 m ty d a b (· ||| ·))
/-- `xor` (R96). -/
def execXor (m : MReg) (ty : Ty) (d a b : Reg) (s : State) : Out := .next (s.int2 m ty d a b (· ^^^ ·))
/-- `not` (R96). -/
def execNot (m : MReg) (ty : Ty) (d a : Reg) (s : State) : Out := .next (s.int1 m ty d a (fun x => ~~~x))
/-- `andn` (R96). -/
def execAndn (m : MReg) (ty : Ty) (d a b : Reg) (s : State) : Out :=
  .next (s.int2 m ty d a b (fun x y => x &&& ~~~y))

/-- A shift of a type: the count is the 32-bit register b (R97). -/
def State.shiftOp (s : State) (m : MReg) (t : Ty) (d a b : Reg) (op : DWord → Nat → DWord) : State :=
  s.lanes m t d (fun l => op (s.lval t l a.toNat) (s.lreg l b.toNat).toNat)

/-- A value of a type shifted right with copies of its top bit entering (R97). -/
def tySar (t : Ty) (x : DWord) (n : Nat) : DWord :=
  if t.is64 then x.sshiftRight n else ((lo32 x).sshiftRight n).setWidth 64

/-- A value of a type rotated left (R97). -/
def tyRot (t : Ty) (x : DWord) (n : Nat) : DWord :=
  if t.is64 then x.rotateLeft (n % 64) else ((lo32 x).rotateLeft (n % 32)).setWidth 64

/-- `shl` (R97). -/
def execShl (m : MReg) (ty : Ty) (d a b : Reg) (s : State) : Out :=
  .next (s.shiftOp m ty d a b (fun x n => if tyWidth ty ≤ n then 0 else x <<< n))
/-- `shr` (R97). -/
def execShr (m : MReg) (ty : Ty) (d a b : Reg) (s : State) : Out :=
  .next (s.shiftOp m ty d a b (fun x n => x >>> n))
/-- `sar` (R97). -/
def execSar (m : MReg) (ty : Ty) (d a b : Reg) (s : State) : Out := .next (s.shiftOp m ty d a b (tySar ty))
/-- `rot` (R97). -/
def execRot (m : MReg) (ty : Ty) (d a b : Reg) (s : State) : Out := .next (s.shiftOp m ty d a b (tyRot ty))

/-- The field of `wd` bits at `pos`, sign- or zero-extended; 0 for a width of 0 (R98). -/
def fieldOf (sg : Bool) (x : Word) (pos wd : Nat) : Word :=
  if wd = 0 then 0 else BitVec.ofInt 32 (asInt sg wd (x.toNat / 2 ^ pos))

/-- The position and width held by a register (R98). -/
def fieldPos (b : Word) : Nat := b.toNat % 32
def fieldWd (b : Word) : Nat := min (bitsOf b.toNat 8 6) (32 - fieldPos b)

/-- `bfx` (R98). -/
def execBfx (m : MReg) (ty : Ty) (d a b : Reg) (s : State) : Out :=
  .next (s.word2 m d a b (fun x y => fieldOf (tySigned ty) x (fieldPos y) (fieldWd y)))

/-- `bfi` (R98). -/
def execBfi (m : MReg) (d a b e : Reg) (s : State) : Out :=
  .next (s.lanes32 m d (fun l =>
    let y := s.lreg l b.toNat
    let fld := BitVec.ofNat 32 ((2 ^ fieldWd y - 1) * 2 ^ fieldPos y)
    (s.lreg l e.toNat &&& ~~~fld) ||| ((s.lreg l a.toNat <<< fieldPos y) &&& fld)))

/-- `popc` (R99). -/
def execPopc (m : MReg) (ty : Ty) (d a : Reg) (s : State) : Out :=
  .next (s.lanes32 m d (fun l => BitVec.ofNat 32 (popNat (s.lval ty l a.toNat).toNat 64)))

/-- The zero bits above the highest set bit among `w` bits (R99). -/
def clzNat (w x : Nat) : Nat := if x = 0 then w else w - 1 - Nat.log2 x

/-- `clz` (R99). -/
def execClz (m : MReg) (ty : Ty) (d a : Reg) (s : State) : Out :=
  .next (s.lanes32 m d (fun l => BitVec.ofNat 32 (clzNat (tyWidth ty) (s.lval ty l a.toNat).toNat)))

/-- The bits of a value in reverse order (R99). -/
def bitReverse (w x : Nat) : Nat :=
  (List.range w).foldl (fun acc i => acc + b2n (x.testBit i) * 2 ^ (w - 1 - i)) 0

/-- `brev` (R99). -/
def execBrev (m : MReg) (ty : Ty) (d a : Reg) (s : State) : Out :=
  .next (s.int1 m ty d a (fun x => BitVec.ofNat 64 (bitReverse (tyWidth ty) x.toNat)))

/-! ### Compare and select (R100, R101) -/

/-- `sel` (R101). -/
def execSel (m : MReg) (ty : Ty) (d a b : Reg) (cm : MReg) (s : State) : Out :=
  .next (s.lanes m ty d (fun l =>
    if (s.grp.mreg cm.toNat).getLsbD l then s.lval ty l a.toNat else s.lval ty l b.toNat))

/-- Whether an integer comparison holds (R100). -/
def icondHolds (c : ICond) (x y : Int) : Bool :=
  match c with
  | .eq => x == y
  | .ne => x != y
  | .lt => decide (x < y)
  | .le => decide (x ≤ y)
  | .gt => decide (y < x)
  | .ge => decide (y ≤ x)

/-- `cmp` (R100). -/
def execCmp (m : MReg) (cond : ICond) (ty : Ty) (d : MReg) (a b : Reg) (s : State) : Out :=
  .next (s.lanesMask m d (fun l =>
    icondHolds cond (tyInt ty (s.lval ty l a.toNat)) (tyInt ty (s.lval ty l b.toNat))))

/-! ### Conversion, saturating and packed forms (R102 to R104) -/

/-- An integer brought to a type: clamped, or modulo its width and read as the type (R102). -/
def convertI (dt : Ty) (sat : Bool) (x : Int) : Int :=
  if sat then clampI (intMin (tySigned dt) (tyWidth dt)) (intMax (tySigned dt) (tyWidth dt)) x
  else asInt (tySigned dt) (tyWidth dt) (x % (2 ^ tyWidth dt : Nat)).toNat

/-- `cvti` (R102). -/
def execCvti (m : MReg) (dt ft : Ty) (sat : Bool) (d a : Reg) (s : State) : Out :=
  .next (s.lanes m dt d (fun l => ofI (convertI dt sat (tyInt ft (s.lval ft l a.toNat)))))

/-- `adds` (R103). -/
def execAdds (m : MReg) (ty : Ty) (d a b : Reg) (s : State) : Out :=
  .next (s.word2 m d a b (packedSat ty (· + ·)))
/-- `subs` (R103). -/
def execSubs (m : MReg) (ty : Ty) (d a b : Reg) (s : State) : Out :=
  .next (s.word2 m d a b (packedSat ty (· - ·)))

/-- A packed dot product added to c and clamped (R104). -/
def State.dotOp (s : State) (m : MReg) (t : Ty) (d a b e : Reg) : State :=
  s.lanes32 m d (fun l => BitVec.ofInt 32 (clampI (intMin (tySigned t) 32) (intMax (tySigned t) 32)
    (asInt (tySigned t) 32 (s.lreg l e.toNat).toNat + packedDot t (s.lreg l a.toNat) (s.lreg l b.toNat))))

/-- `dot4` (R104). -/
def execDot4 (m : MReg) (ty : Ty) (d a b e : Reg) (s : State) : Out := .next (s.dotOp m ty d a b e)
/-- `dot8` (R104). -/
def execDot8 (m : MReg) (ty : Ty) (d a b e : Reg) (s : State) : Out := .next (s.dotOp m ty d a b e)

/-! ### Immediate forms (R105, Table 4.2) -/

/-- `add` with an immediate (R105). -/
def execAddImm (m : MReg) (d a : Reg) (imm : Word) (s : State) : Out := .next (s.wordImm m d a imm (· + ·))
/-- `adds` with an immediate (R105). -/
def execAddsImm (m : MReg) (u : Bool) (d a : Reg) (imm : Word) (s : State) : Out :=
  .next (s.wordImm m d a imm (packedSat (if u then .n32 else .s32) (· + ·)))
/-- `mul` with an immediate (R105). -/
def execMulImm (m : MReg) (d a : Reg) (imm : Word) (s : State) : Out := .next (s.wordImm m d a imm (· * ·))
/-- `and` with an immediate (R105). -/
def execAndImm (m : MReg) (d a : Reg) (imm : Word) (s : State) : Out := .next (s.wordImm m d a imm (· &&& ·))
/-- `or` with an immediate (R105). -/
def execOrImm (m : MReg) (d a : Reg) (imm : Word) (s : State) : Out := .next (s.wordImm m d a imm (· ||| ·))
/-- `xor` with an immediate (R105). -/
def execXorImm (m : MReg) (d a : Reg) (imm : Word) (s : State) : Out := .next (s.wordImm m d a imm (· ^^^ ·))
/-- `andn` with an immediate (R105). -/
def execAndnImm (m : MReg) (d a : Reg) (imm : Word) (s : State) : Out :=
  .next (s.wordImm m d a imm (fun x y => x &&& ~~~y))
/-- `shl` with an immediate (R105). -/
def execShlImm (m : MReg) (d a : Reg) (n : BitVec 5) (s : State) : Out :=
  .next (s.wordImm m d a (n.setWidth 32) shiftL)
/-- `shr` with an immediate (R105). -/
def execShrImm (m : MReg) (d a : Reg) (n : BitVec 5) (s : State) : Out :=
  .next (s.wordImm m d a (n.setWidth 32) shiftR)
/-- `sar` with an immediate (R105). -/
def execSarImm (m : MReg) (d a : Reg) (n : BitVec 5) (s : State) : Out :=
  .next (s.wordImm m d a (n.setWidth 32) shiftA)
/-- `rot` with an immediate (R105). -/
def execRotImm (m : MReg) (d a : Reg) (n : BitVec 5) (s : State) : Out :=
  .next (s.lanes32 m d (fun l => (s.lreg l a.toNat).rotateLeft n.toNat))
/-- `min` with an immediate (R105). -/
def execMinImm (m : MReg) (u : Bool) (d a : Reg) (imm : Word) (s : State) : Out :=
  .next (s.wordImm m d a imm (wordMin u))
/-- `max` with an immediate (R105). -/
def execMaxImm (m : MReg) (u : Bool) (d a : Reg) (imm : Word) (s : State) : Out :=
  .next (s.wordImm m d a imm (wordMax u))

/-- Whether a comparison of an immediate form holds (Table 4.2). -/
def immHolds (c : ImmCond) (x y : Int) : Bool :=
  match c with
  | .eq => x == y
  | .ne => x != y
  | .lt => decide (x < y)
  | .ge => decide (y ≤ x)

/-- `cmp.s32` with an immediate (R105). -/
def execCmpS32Imm (m : MReg) (cond : ImmCond) (d : MReg) (a : Reg) (imm : Word) (s : State) : Out :=
  .next (s.lanesMask m d (fun l => immHolds cond (s.lreg l a.toNat).toInt imm.toInt))
/-- `cmp.n32` with an immediate (R105). -/
def execCmpN32Imm (m : MReg) (cond : ImmCond) (d : MReg) (a : Reg) (imm : Word) (s : State) : Out :=
  .next (s.lanesMask m d (fun l => immHolds cond (s.lreg l a.toNat).toNat imm.toNat))

/-- `bfx` with the field from the immediate (R105). -/
def execBfxImm (m : MReg) (sg : Bool) (d a : Reg) (pos : BitVec 5) (wd : BitVec 6) (s : State) : Out :=
  .next (s.lanes32 m d (fun l => fieldOf sg (s.lreg l a.toNat) pos.toNat wd.toNat))

end Sys2Proof.Machine
end

