-- ==== Sys2Proof/Machine/FloatOps.lean ====
section
/-! DEFINITION. Number formats, exact arithmetic and rounding (05_float.md R109 to R127): a value is a NaN,
an infinity or a signed dyadic number, every operation is exact, and one rounding follows. -/

namespace Sys2Proof.Machine

/-! ### Formats (Table 5.1) -/

/-- The value of a floating-point operand: NaN, an infinity, or (-1)^neg × m × 2^e. -/
inductive FVal where
  | nan
  | inf (neg : Bool)
  | fin (neg : Bool) (m : Nat) (e : Int)
  deriving DecidableEq, Repr

/-- A format: exponent bits, mantissa bits, bias (Table 5.1). -/
structure Fmt where
  eb   : Nat
  mb   : Nat
  bias : Int
  deriving DecidableEq, Repr

/-- The format of a type; packed types give their elements' (R109, R125). -/
def fmtOf (t : Ty) : Fmt :=
  match t with
  | .f16 | .f16x2 => ⟨5, 10, 15⟩
  | .bf16 | .bf16x2 => ⟨8, 7, 127⟩
  | .e4m3 | .e4m3x4 => ⟨4, 3, 7⟩
  | .e5m2 | .e5m2x4 => ⟨5, 2, 15⟩
  | .e2m1 | .e2m1x8 => ⟨2, 1, 1⟩
  | _ => ⟨8, 23, 127⟩

/-- Whether the format has infinities (Table 5.1). -/
def fmtInf (t : Ty) : Bool := !t.among [.e4m3, .e4m3x4, .e2m1, .e2m1x8, .e8m0]
/-- The bit pattern of the largest finite magnitude (Table 5.1). -/
def fmtMax (t : Ty) : Nat :=
  let f := fmtOf t
  if t.among [.e4m3, .e4m3x4] then 0x7E
  else if t.among [.e2m1, .e2m1x8] then 0x7
  else (2 ^ f.eb - 1) * 2 ^ f.mb - 1
/-- The canonical NaN; an E2M1 destination has none and takes 0 (Tables 5.1, 5.7). -/
def fmtNan (t : Ty) : Nat :=
  let f := fmtOf t
  if t.among [.e4m3, .e4m3x4] then 0x7F
  else if t.among [.e2m1, .e2m1x8] then 0
  else if t == .e8m0 then 0xFF
  else (2 ^ f.eb - 1) * 2 ^ f.mb + 2 ^ (f.mb - 1)
/-- The sign bit's place. -/
def fmtSign (t : Ty) : Nat := (fmtOf t).eb + (fmtOf t).mb
/-- The width of an element of the format. -/
def fmtWidth (t : Ty) : Nat := if t == .e8m0 then 8 else fmtSign t + 1

/-- The value of a pattern (R109). -/
def toF (t : Ty) (x : Nat) : FVal :=
  if t == .e8m0 then (if x % 256 = 255 then .nan else .fin false 1 ((x % 256 : Nat) - 127))
  else
    let f := fmtOf t
    let neg := x.testBit (fmtSign t)
    let e := bitsOf x f.mb f.eb
    let m := x % 2 ^ f.mb
    if fmtInf t && e = 2 ^ f.eb - 1 then (if m = 0 then .inf neg else .nan)
    else if t.among [.e4m3, .e4m3x4] && e = 15 && m = 7 then .nan
    else if e = 0 then .fin neg m (1 - f.bias - f.mb)
    else .fin neg (2 ^ f.mb + m) (e - f.bias - f.mb)

/-- The value of an FP32 register. -/
def f32 (x : Word) : FVal := toF .f32 x.toNat

/-! ### Rounding (R113, R114) -/

/-- Round the magnitude m × 2^e (plus something less than one unit of 2^e when `st`) to a multiple of 2^g,
giving the multiple. -/
def roundAt (mode : Rnd) (rnd : Nat) (neg : Bool) (m : Nat) (e : Int) (st : Bool) (g : Int) : Nat :=
  if g ≤ e then m * 2 ^ (e - g).toNat
  else
    let k := (g - e).toNat
    let q := m / 2 ^ k
    let r := m % 2 ^ k
    let half := 2 ^ (k - 1)
    let up := match mode with
      | .rne => decide (half < r) || (r == half && (st || q % 2 == 1))
      | .rna => decide (half ≤ r)
      | .rz => false
      | .ru => (r != 0 || st) && !neg
      | .rd => (r != 0 || st) && neg
      | .sr => decide (2 ^ 32 ≤ r * 2 ^ 32 / 2 ^ k + rnd)
    q + b2n up

/-- A sign and a magnitude's pattern. -/
def signed (t : Ty) (neg : Bool) (x : Nat) : Nat := x + b2n neg * 2 ^ fmtSign t

/-- The pattern of an infinity (Table 5.7). -/
def infPat (t : Ty) (sat neg : Bool) : Nat :=
  if t.among [.e2m1, .e2m1x8] || sat then signed t neg (fmtMax t)
  else if fmtInf t then signed t neg ((2 ^ (fmtOf t).eb - 1) * 2 ^ (fmtOf t).mb)
  else fmtNan t

/-- The pattern of an overflow (Tables 5.2, 5.7). -/
def overflowPat (t : Ty) (mode : Rnd) (sat neg : Bool) : Nat :=
  let toInf := match mode with
    | .rne | .rna | .sr => true
    | .rz => false
    | .ru => !neg
    | .rd => neg
  if toInf then infPat t sat neg else signed t neg (fmtMax t)

/-- The pattern of q × 2^g, a value of the format (R109). -/
def packMag (t : Ty) (q : Nat) (g : Int) : Nat :=
  let f := fmtOf t
  if q = 0 then 0
  else
    let l := Nat.log2 q
    let e := (l : Int) + g
    if e < 1 - f.bias then q * 2 ^ (g - (1 - f.bias - f.mb)).toNat
    else
      let m := if l ≤ f.mb then q * 2 ^ (f.mb - l) else q / 2 ^ (l - f.mb)
      (e + f.bias).toNat * 2 ^ f.mb + (m - 2 ^ f.mb)

/-- Round a magnitude to a format and encode it (R113, R114, Table 5.7). -/
def roundMag (t : Ty) (mode : Rnd) (rnd : Nat) (sat neg : Bool) (m : Nat) (e : Int) (st : Bool) : Nat :=
  if m = 0 then signed t neg 0
  else
    let f := fmtOf t
    let top := (Nat.log2 m : Int) + e
    let g := (if top < 1 - f.bias then 1 - f.bias else top) - f.mb
    let q := roundAt mode rnd neg m e st g
    let p := packMag t q g
    if fmtMax t < p then overflowPat t mode sat neg else signed t neg p

/-- Round a value to a format (R112, R113, R123). -/
def roundV (t : Ty) (mode : Rnd) (rnd : Nat) (sat : Bool) (v : FVal) : Nat :=
  match v with
  | .nan => fmtNan t
  | .inf neg => infPat t sat neg
  | .fin neg m e => roundMag t mode rnd sat neg m e false

/-- A result in FP32. -/
def toF32 (mode : Rnd) (v : FVal) : Word := BitVec.ofNat 32 (roundV .f32 mode 0 false v)

/-- Convert to E8M0 (R124). -/
def toE8m0 (mode : Rnd) (sat : Bool) (v : FVal) : Nat :=
  match v with
  | .nan => 0xFF
  | .inf _ => if sat then 0xFE else 0xFF
  | .fin _ m e =>
    if m = 0 then 0
    else
      let l := (Nat.log2 m : Int) + e
      let up := mode == .ru && m != 2 ^ Nat.log2 m
      let x := l + b2n up + 127
      if x ≤ 0 then 0 else if x ≤ 0xFE then x.toNat else if sat then 0xFE else 0xFF

/-- Convert to an integer type: rounded to an integer, then clamped (R122, R123). -/
def toIntTy (t : Ty) (mode : Rnd) (rnd : Nat) (v : FVal) : Int :=
  let lo := intMin (tySigned t) (tyWidth t)
  let hi := intMax (tySigned t) (tyWidth t)
  match v with
  | .nan => 0
  | .inf neg => if neg then lo else hi
  | .fin neg m e =>
    let q : Int := roundAt mode rnd neg m e false 0
    clampI lo hi (if neg then -q else q)

/-! ### Exact arithmetic (R116) -/

/-- The sign of an exact zero sum of terms that are not all zeros of one sign (R113). -/
def zeroNeg (mode : Rnd) : Bool := mode == .rd

/-- The signed integer of a magnitude. -/
def sgnI (neg : Bool) (m : Nat) : Int := if neg then -(m : Int) else m

/-- The exact sum (R113, R116). -/
def addV (mode : Rnd) (a b : FVal) : FVal :=
  match a, b with
  | .nan, _ => .nan
  | _, .nan => .nan
  | .inf x, .inf y => if x = y then .inf x else .nan
  | .inf x, _ => .inf x
  | _, .inf y => .inf y
  | .fin x m e, .fin y n f =>
    if m = 0 && n = 0 then .fin (if x = y then x else zeroNeg mode) 0 0
    else if m = 0 then .fin y n f
    else if n = 0 then .fin x m e
    else
      let g := min e f
      let t := sgnI x (m * 2 ^ (e - g).toNat) + sgnI y (n * 2 ^ (f - g).toNat)
      if t = 0 then .fin (zeroNeg mode) 0 0 else .fin (decide (t < 0)) t.natAbs g

/-- The exact product (R116). -/
def mulV (a b : FVal) : FVal :=
  match a, b with
  | .nan, _ => .nan
  | _, .nan => .nan
  | .inf x, .inf y => .inf (x != y)
  | .inf x, .fin y n _ => if n = 0 then .nan else .inf (x != y)
  | .fin x m _, .inf y => if m = 0 then .nan else .inf (x != y)
  | .fin x m e, .fin y n f => .fin (x != y) (m * n) (e + f)

/-- The value with its sign changed. -/
def negV (a : FVal) : FVal :=
  match a with
  | .nan => .nan
  | .inf x => .inf (!x)
  | .fin x m e => .fin (!x) m e

/-- The exact sum of a list, for dot products: the order does not matter (R126). -/
def sumV (mode : Rnd) (c : FVal) (ts : List FVal) : FVal := ts.foldl (addV mode) c

/-- Whether a < b, with -0 and +0 equal; false when either is NaN (R118). -/
def ltV (a b : FVal) : Bool :=
  match a, b with
  | .nan, _ => false
  | _, .nan => false
  | .inf x, .inf y => x && !y
  | .inf x, _ => x
  | _, .inf y => !y
  | .fin x m e, .fin y n f =>
    let g := min e f
    decide (sgnI x (m * 2 ^ (e - g).toNat) < sgnI y (n * 2 ^ (f - g).toNat))

/-- Whether either operand is NaN. -/
def unordered (a b : FVal) : Bool := a == .nan || b == .nan

/-- Whether a = b as numbers (R118). -/
def eqV (a b : FVal) : Bool := !(unordered a b) && !(ltV a b) && !(ltV b a)

/-- The sign of a value. -/
def FVal.isNeg (a : FVal) : Bool :=
  match a with
  | .nan => false
  | .inf x => x
  | .fin x _ _ => x

/-- a is at most b, ordering -0 below +0 (R117). -/
def leMin (a b : FVal) : Bool := ltV a b || (eqV a b && (a.isNeg || !b.isNeg))

/-- `fmin` or `fmax`; `n` for the forms that ignore one NaN (R117). -/
def minMaxV (wantMax n : Bool) (a b : FVal) : FVal :=
  if a == .nan then (if n then b else .nan)
  else if b == .nan then (if n then a else .nan)
  else if leMin a b != wantMax then a else b

/-- Whether a condition of `fcmp` holds (Table 5.4). -/
def fcondHolds (c : FCond) (a b : FVal) : Bool :=
  match c with
  | .eq => eqV a b
  | .ne => !(eqV a b)
  | .lt => ltV a b
  | .le => ltV a b || eqV a b
  | .gt => ltV b a
  | .ge => ltV b a || eqV a b
  | .un => unordered a b
  | .ord => !(unordered a b)

/-! ### Correctly rounded functions (R120) -/

/-- a/b rounded once: the quotient carries at least 64 bits and whether it is inexact. -/
def divF (t : Ty) (mode : Rnd) (a b : FVal) : Nat :=
  match a, b with
  | .nan, _ => fmtNan t
  | _, .nan => fmtNan t
  | .inf _, .inf _ => fmtNan t
  | .inf x, .fin y _ _ => infPat t false (x != y)
  | .fin x _ _, .inf y => signed t (x != y) 0
  | .fin x m e, .fin y n f =>
    if n = 0 then (if m = 0 then fmtNan t else infPat t false (x != y))
    else
      let k := 64 + Nat.log2 n
      roundMag t mode 0 false (x != y) (m * 2 ^ k / n) (e - f - k) (m * 2 ^ k % n != 0)

/-- The integer square root, by its bits from bit `i` down. -/
def isqrtGo (x : Nat) : Nat → Nat → Nat
  | 0, r => if (r + 1) * (r + 1) ≤ x then r + 1 else r
  | i + 1, r => isqrtGo x i (if (r + 2 ^ (i + 1)) * (r + 2 ^ (i + 1)) ≤ x then r + 2 ^ (i + 1) else r)

/-- The integer square root of a number below 2^160. -/
def isqrt (x : Nat) : Nat := isqrtGo x 80 0

/-- √a rounded once. -/
def sqrtF (mode : Rnd) (a : FVal) : Nat :=
  match a with
  | .nan => fmtNan .f32
  | .inf x => if x then fmtNan .f32 else infPat .f32 false false
  | .fin x m e =>
    if m = 0 then signed .f32 x 0
    else if x then fmtNan .f32
    else
      let m2 := if e % 2 = 0 then m else 2 * m
      let e2 := if e % 2 = 0 then e else e - 1
      let y := m2 * 2 ^ 80
      let r := isqrt y
      roundMag .f32 mode 0 false false r (e2 / 2 - 40) (r * r != y)

/-- 1/√a rounded once. -/
def rsqF (mode : Rnd) (a : FVal) : Nat :=
  match a with
  | .nan => fmtNan .f32
  | .inf x => if x then fmtNan .f32 else 0
  | .fin x m e =>
    if m = 0 then infPat .f32 false x
    else if x then fmtNan .f32
    else
      let m2 := if e % 2 = 0 then m else 2 * m
      let e2 := if e % 2 = 0 then e else e - 1
      let r := isqrt (2 ^ 128 / m2)
      roundMag .f32 mode 0 false false r (-(e2 / 2) - 64) (r * r * m2 != 2 ^ 128)

/-- ln 2 in units of 2^-320 (notes/assumptions 10). -/
def ln2Fix : Nat := (List.range 330).foldl (fun acc k => acc + 2 ^ 320 / ((k + 1) * 2 ^ (k + 1))) 0

/-- e^y for y in units of 2^-320, by its power series. -/
def expFix (y : Nat) : Nat :=
  ((List.range 80).foldl (fun (p : Nat × Nat) k =>
    let t := p.2 * y / (2 ^ 320 * (k + 1))
    (p.1 + t, t)) (2 ^ 320, 2 ^ 320)).1

/-- 2^a rounded once to nearest even; a fraction's power is irrational, so its expansion is inexact. -/
def exp2F (a : FVal) : Nat :=
  match a with
  | .nan => fmtNan .f32
  | .inf x => if x then 0 else infPat .f32 false false
  | .fin x m e =>
    if m = 0 then 0x3F800000
    else
      let fl : Int := if e < 0 then (sgnI x m) / (2 ^ (-e).toNat : Nat) else sgnI x (m * 2 ^ (min e 200).toNat)
      if 128 ≤ fl then infPat .f32 false false
      else if fl < -151 then 0
      else
        let fr : Nat := if e < 0 then ((sgnI x m) % (2 ^ (-e).toNat : Nat)).toNat * 2 ^ (320 - (-e).toNat) else 0
        if fr = 0 then roundMag .f32 .rne 0 false false 1 fl false
        else roundMag .f32 .rne 0 false false (expFix (fr * ln2Fix / 2 ^ 320)) (fl - 320) true

/-- log2 of a positive number m × 2^e that is no power of two, in units of 2^-320. -/
def log2Fix (m : Nat) (e : Int) : Int :=
  let l := Nat.log2 m
  let z := (m - 2 ^ l) * 2 ^ 320 / (m + 2 ^ l)
  let z2 := z * z / 2 ^ 320
  let at_ := ((List.range 110).foldl (fun (p : Nat × Nat) k =>
    (p.1 + p.2 / (2 * k + 1), p.2 * z2 / 2 ^ 320)) (0, z)).1
  ((l : Int) + e) * (2 ^ 320 : Nat) + ((2 * at_ * 2 ^ 320 / ln2Fix : Nat) : Int)

/-- log2 a rounded once to nearest even. -/
def flog2F (a : FVal) : Nat :=
  match a with
  | .nan => fmtNan .f32
  | .inf x => if x then fmtNan .f32 else infPat .f32 false false
  | .fin x m e =>
    if m = 0 then infPat .f32 false true
    else if x then fmtNan .f32
    else if m = 2 ^ Nat.log2 m then
      let k := (Nat.log2 m : Int) + e
      roundMag .f32 .rne 0 false (decide (k < 0)) k.natAbs 0 false
    else
      let v := log2Fix m e
      roundMag .f32 .rne 0 false (decide (v < 0)) v.natAbs (-320) true

/-! ### Integral parts and scaling (R121) -/

/-- a rounded to an integral value; the sign is a's. -/
def roundIntF (mode : Rnd) (a : FVal) : Nat :=
  match a with
  | .nan => fmtNan .f32
  | .inf x => infPat .f32 false x
  | .fin x m e =>
    if 0 ≤ e then roundMag .f32 .rz 0 false x m e false
    else roundMag .f32 .rz 0 false x (roundAt mode 0 x m e false 0) 0 false

/-- a - floor(a), rounded toward zero. -/
def fractF (a : FVal) : Nat :=
  match a with
  | .nan => fmtNan .f32
  | .inf _ => fmtNan .f32
  | .fin x m e =>
    if 0 ≤ e then 0
    else
      let k := (-e).toNat
      roundMag .f32 .rz 0 false false ((sgnI x m) % (2 ^ k : Nat)).toNat e false

/-- a × 2^n rounded once; a scale beyond 600 in size rounds as 600 does, since every finite nonzero FP32 value
lies between 2^-149 and 2^128. -/
def ldexpF (mode : Rnd) (a : FVal) (n : Int) : Nat :=
  match a with
  | .nan => fmtNan .f32
  | .inf x => infPat .f32 false x
  | .fin x m e => roundMag .f32 mode 0 false x m (e + clampI (-600) 600 n) false

/-! ### Sign modifiers and conversion (R41, R122, R125) -/

/-- Flip or clear the sign bit of each element of a register (R41, R115). -/
def signBits (t : Ty) : Nat :=
  let w := fmtWidth t
  if t.packed then (List.range (32 / w)).foldl (fun acc i => acc + 2 ^ (i * w + w - 1)) 0 else 2 ^ (w - 1)

/-- An operand as read, its absolute value taken before its negation (Table 2.5). -/
def modify (t : Ty) (aa na : Bool) (x : Word) : Word :=
  let m := BitVec.ofNat 32 (signBits t)
  let y := if aa then x &&& ~~~m else x
  if na then y ^^^ m else y

/-- The exact value of a source of a conversion. -/
def convSource (t : Ty) (x : DWord) : FVal :=
  if t.isInt then
    let v := tyInt t x
    .fin (decide (v < 0)) v.natAbs 0
  else toF t (x.toNat % 2 ^ fmtWidth t)

/-- Convert a value to a destination type, as the 64-bit value written (R110, R122). -/
def convertV (t : Ty) (mode : Rnd) (rnd : Nat) (sat : Bool) (v : FVal) : DWord :=
  if t.isInt then ofI (toIntTy t mode rnd v)
  else if t == .e8m0 then BitVec.ofNat 64 (toE8m0 mode sat v)
  else BitVec.ofNat 64 (roundV t mode rnd sat v)

/-- Element `i` of a packed register (R110). -/
def elemF (t : Ty) (x : Word) (i : Nat) : FVal := toF t (x.toNat / 2 ^ (i * fmtWidth t) % 2 ^ fmtWidth t)

/-- Apply an operation to each element of packed registers (R116). -/
def packedF (t : Ty) (f : Nat → Nat) : Word :=
  BitVec.ofNat 32 ((List.range (32 / fmtWidth t)).foldl (fun acc i => acc + f i * 2 ^ (i * fmtWidth t)) 0)

/-- The class of an FP32 value as a bit (R119). -/
def classF (x : Word) : Word :=
  let neg := x.msb
  let b : Nat := match f32 x with
    | .nan => if x.getLsbD 22 then 1 else 0
    | .inf _ => if neg then 2 else 9
    | .fin _ m _ =>
      if m = 0 then (if neg then 5 else 6)
      else if m < 2 ^ 23 then (if neg then 4 else 7)
      else (if neg then 3 else 8)
  BitVec.ofNat 32 (2 ^ b)

/-- The shared scale of a block whose largest magnitude is x (R127). -/
def mxScale (t : Ty) (v : FVal) : Nat :=
  let emax : Int := if t == .e4m3 then 8 else if t == .e5m2 then 15 else 2
  match v with
  | .nan => 0xFF
  | .inf _ => 0xFF
  | .fin _ m e => if m = 0 then 0 else (clampI 0 254 ((Nat.log2 m : Int) + e - emax + 127)).toNat

end Sys2Proof.Machine
end

