-- ==== Sys2Proof/Machine/Tables.lean ====
section
/-! DEFINITION. What a memory word becomes and how an address is found: atomic operations and window accumulators
(11_atomics.md R251, R260 to R262), the crossbar's check of a path (16_tenants.md R380), page walks (09_translation_leases.md
R207 to R222), and the writes of the device's own rings (17_device_boundary.md R406, R407). -/

namespace Sys2Proof.Machine

/-- The bytes an access of a type moves (Table 8.7, R251). -/
def memWidth (t : Ty) : Nat := tyWidth t / 8

/-! ### Atomic operations (Table 11.2) -/

/-- The new value of an atomic operation (R251, R252). -/
def atomNew (op : AOp) (t : Ty) (old x swp : DWord) : DWord :=
  match op with
  | .add => old + x
  | .sub => old - x
  | .min => tyMin t old x
  | .max => tyMax t old x
  | .and => old &&& x
  | .or => old ||| x
  | .xor => old ^^^ x
  | .exch => x
  | .cas => if t.is64 then (if old = x then swp else old) else (if lo32 old = lo32 x then swp else old)
  | .incWrap => if (lo32 x).toNat ≤ (lo32 old).toNat then 0 else old + 1
  | .decWrap => if lo32 old = 0 || decide ((lo32 x).toNat < (lo32 old).toNat) then x else old - 1
  | .fadd => (elementwiseA t (fun a b => addV .rne a b) (lo32 old) (lo32 x)).setWidth 64
  | .fmin => (elementwiseA t (fun a b => minMaxV false false a b) (lo32 old) (lo32 x)).setWidth 64
  | .fmax => (elementwiseA t (fun a b => minMaxV true false a b) (lo32 old) (lo32 x)).setWidth 64
where
  /-- Combine FP32 values or packed elements, rounding to nearest even. -/
  elementwiseA (t : Ty) (f : FVal → FVal → FVal) (a b : Word) : Word :=
    packedF t (fun i => roundV t .rne 0 false (f (elemF t a i) (elemF t b i)))

/-! ### Window accumulators (R260 to R262) -/

/-- add and sub of one type share an accumulator (R260). -/
def winClass (op : AOp) : AOp := if op == .sub then .add else op

/-- Take one FP32 or BF16 contribution into a sum: the sum, +∞, -∞, NaN, and whether all were -0. -/
def winFloat (t : Ty) (x : Nat) (z : Int × Bool × Bool × Bool × Bool) : Int × Bool × Bool × Bool × Bool :=
  match toF t x with
  | .nan => (z.1, z.2.1, z.2.2.1, true, false)
  | .inf neg => (z.1, z.2.1 || !neg, z.2.2.1 || neg, z.2.2.2.1, false)
  | .fin neg m e => (z.1 + sgnI neg (m * 2 ^ (e + 149).toNat), z.2.1, z.2.2.1, z.2.2.2.1, z.2.2.2.2 && neg && m == 0)

/-- An accumulator of one contribution (R260). -/
def winOne (op : AOp) (t : Ty) (f now : Nat) (x : DWord) : WinAcc :=
  let w : WinAcc := { op := winClass op, ty := t, fn := f, since := now, count := 1 }
  match op with
  | .fadd =>
    let a := winFloat t (if t == .bf16x2 then x.toNat % 65536 else x.toNat % 2 ^ 32) (0, false, false, false, true)
    let b := winFloat t (if t == .bf16x2 then x.toNat / 65536 % 65536 else 0x80000000) (0, false, false, false, true)
    { w with sum := a.1, pinf := a.2.1, ninf := a.2.2.1, nan := a.2.2.2.1, neg0 := a.2.2.2.2,
             sum2 := b.1, pinf2 := b.2.1, ninf2 := b.2.2.1, nan2 := b.2.2.2.1, neg02 := b.2.2.2.2 }
  | .add => { w with val := x }
  | .sub => { w with val := -x }
  | _ => { w with val := x }

/-- Combine two partial results of one operation and type exactly (R260, R262). -/
def winMerge (a b : WinAcc) : WinAcc :=
  let c : WinAcc := { a with since := min a.since b.since, count := a.count + b.count }
  match a.op with
  | .fadd =>
    { c with sum := a.sum + b.sum, sum2 := a.sum2 + b.sum2, pinf := a.pinf || b.pinf, ninf := a.ninf || b.ninf,
             nan := a.nan || b.nan, neg0 := a.neg0 && b.neg0, pinf2 := a.pinf2 || b.pinf2,
             ninf2 := a.ninf2 || b.ninf2, nan2 := a.nan2 || b.nan2, neg02 := a.neg02 && b.neg02 }
  | op => { c with val := atomNew op a.ty a.val b.val 0 }

/-- The drained value of one FP32 or BF16 word element (R260). -/
def winFloatResult (t : Ty) (m : Nat) (sum : Int) (pinf ninf nan neg0 : Bool) : Nat :=
  let v := toF t m
  if nan || (pinf && ninf) || v == .nan then fmtNan t
  else if pinf then roundV t .rne 0 false (addV .rne v (.inf false))
  else if ninf then roundV t .rne 0 false (addV .rne v (.inf true))
  else roundV t .rne 0 false (addV .rne v (.fin (if sum = 0 then neg0 else decide (sum < 0)) sum.natAbs (-149)))

/-- The word after draining an accumulator into it (R260). -/
def winResult (a : WinAcc) (m : DWord) : DWord :=
  match a.op with
  | .fadd =>
    if a.ty == .bf16x2 then
      BitVec.ofNat 64 (winFloatResult .bf16 (m.toNat % 65536) a.sum a.pinf a.ninf a.nan a.neg0
        + 65536 * winFloatResult .bf16 (m.toNat / 65536 % 65536) a.sum2 a.pinf2 a.ninf2 a.nan2 a.neg02)
    else BitVec.ofNat 64 (winFloatResult .f32 (m.toNat % 2 ^ 32) a.sum a.pinf a.ninf a.nan a.neg0)
  | op => atomNew op a.ty m a.val 0

/-- The base die that holds a home's accumulators: a local hummock, or one of another package. -/
def State.winHum (s : State) (home : Nat) : Nat :=
  match s.localHum home with
  | some h => h
  | none => 64 + home

/-- Drain the accumulator of a word in one step, as a store owned by the home (R260). -/
def State.drainWin (s : State) (h a : Nat) : State :=
  match mfind (s.humAt h).wins a with
  | none => s
  | some w =>
    let s := s.setHum h { s.humAt h with wins := mdel (s.humAt h).wins a }
    s.homeStore w.fn ownHome a (memWidth w.ty) (winResult w (BitVec.ofNat 64 (readN s.mem a (memWidth w.ty)))).toNat

/-- Drain every accumulator that an access of `n` bytes touches (R260). -/
def State.drainFor (s : State) (a n : Nat) : State :=
  s.hums.foldl (fun t (e : Nat × Hum) =>
    (e.2.wins.filter (fun w => decide (w.1 < a + n) && decide (a < w.1 + memWidth w.2.ty))).foldl
      (fun t w => t.drainWin e.1 w.1) t) s

/-- Whether an accumulator is pending on `n` bytes. -/
def State.winPending (s : State) (a n : Nat) : Bool :=
  s.hums.any (fun (e : Nat × Hum) => e.2.wins.any (fun w => decide (w.1 < a + n) && decide (a < w.1 + memWidth w.2.ty)))

/-- Make room for an accumulator: when all 16,384 of a hummock are busy the one whose first contribution entered it first drains,
which RWDRAIN counts (R261). -/
def State.winRoom (s : State) (h : Nat) : State :=
  if (s.humAt h).wins.length < 16384 then s
  else
    let old := (s.humAt h).wins.foldl (fun m w => min m w.2.since) (2 ^ 80)
    match (s.humAt h).wins.find? (fun w => w.2.since == old) with
    | none => s
    | some w =>
      let x := s.fnAt w.2.fn
      (s.setFn w.2.fn { x with rwdrain := min (x.rwdrain + 1) (2 ^ 32 - 1) }).drainWin h w.1

/-- Bind a new accumulator to a word; every accumulator of another operation or type that touches it drains first
(R260).  `since` numbers a hummock's accumulators in the order in which their first contributions entered it (R261). -/
def State.winBind (s : State) (h a : Nat) (c : WinAcc) : State :=
  let s := (s.drainFor a (memWidth c.ty)).winRoom h
  let n := (s.humAt h).wins.foldl (fun m w => max m (w.2.since + 1)) 0
  s.setHum h { s.humAt h with wins := mset (s.humAt h).wins a { c with since := n } }

/-- A contribution, alone or a partial, enters the home's accumulator (R260 to R262). -/
def State.winAccept (s : State) (home a : Nat) (c : WinAcc) : State :=
  let h := s.winHum home
  match mfind (s.humAt h).wins a with
  | some w =>
    if w.op = c.op && w.ty = c.ty && decide (w.count + c.count ≤ 2 ^ 40) then
      s.setHum h { s.humAt h with wins := mset (s.humAt h).wins a { winMerge w c with since := w.since } }
    else s.winBind h a c
  | none => s.winBind h a c

/-! ### The crossbar (16_tenants.md R378, R380) -/

/-- A function's entry of a hummock's partition (16_tenants.md R378): the PF owns everything at reset. -/
def HumRegs.partAt (r : HumRegs) (f : Nat) : Part :=
  mget (if f = 0 then { sedge := 0xFF, msp := 0xFF, en := true } else {}) r.part f

/-- A bit of the connection matrix (Table 16.1). -/
def State.conn (s : State) (h i j : Nat) : Bool := (mget 0xFFFF (s.humAt h).regs.connmat i).testBit j

/-- Whether a function may enter a hummock's crossbar at a requester port (R380). -/
def State.entryOk (s : State) (h f i : Nat) : Bool :=
  decide (8 ≤ i) || (((s.humAt h).regs.partAt f).en && ((s.humAt h).regs.partAt f).sedge.testBit i)

/-- Whether a function may reach a memory-side port of a hummock (R380). -/
def State.exitOk (s : State) (h f j : Nat) : Bool :=
  decide (j ≤ 7) || (((s.humAt h).regs.partAt f).en && ((s.humAt h).regs.partAt f).msp.testBit (j - 8))

/-- The connection check of a request of function `f` that enters at port `i` of hummock `h` for memory-side port `j` of hummock
`hh` of the package (R380): the mesh is crossed at port 13, and the port bits are tested where the port stands. -/
def State.reach (s : State) (f h i hh j : Nat) : Bool :=
  if hh = h then s.conn h i j && s.entryOk h f i && s.exitOk h f j
  else s.conn h i 13 && s.entryOk h f i && s.conn hh 13 j && s.exitOk hh f j

/-- The connection check of a request that leaves the package by the fabric ports (R380). -/
def State.reachOut (s : State) (f h i : Nat) : Bool := s.conn h i 12 && s.entryOk h f i && s.exitOk h f 12

/-- The connection check of a request for a home (R380). -/
def State.pathOk (s : State) (f h i : Nat) (home : Nat × Nat) : Bool :=
  match s.localHum home.1 with
  | some hh => s.reach f h i hh (if home.2 = 64 then 10 else home.2 / 8)
  | none => s.reachOut f h i

/-! ### Links (16_tenants.md R398, 17_device_boundary.md R414) -/

/-- The state of a link of a hummock: numbers as LINKPORT (0 to 2 fabric, 8 CXL, 16 host), 4 to 7 the mesh links
(notes/assumptions 25). -/
def State.linkAt (s : State) (h l : Nat) : Link := mget {} (s.humAt h).links l

/-- Whether a hummock has a link of a number: a third fabric port stands on hummocks 0 and 7, a host port on 1 and 6
(01_machine.md R12). -/
def hasLink (h l : Nat) : Bool :=
  decide (h < 8) && (decide (l < 2) || (l == 2 && (h == 0 || h == 7)) || (decide (4 ≤ l) && decide (l ≤ 8))
    || (l == 16 && (h == 1 || h == 6)))

/-- The neighbour to which a request for another hummock of the package goes next: one step nearer in the mesh of two rows of four
(01_machine.md R11; notes/assumptions 25). -/
def meshNext (h to_ : Nat) : Nat :=
  if h % 4 != to_ % 4 && (h / 4 == to_ / 4 || Config.meshRowFirst h to_) then (if h % 4 < to_ % 4 then h + 1 else h - 1)
  else if h < to_ then h + 4 else h - 4

/-- The hummocks that a request passes on its way to another one, the last included; at most `n`. -/
def meshWay : (n : Nat) → (h to_ : Nat) → List Nat
  | 0, _, _ => []
  | n + 1, h, to_ => if h = to_ then [] else meshNext h to_ :: meshWay n (meshNext h to_) to_

/-- The mesh steps of a request to another hummock of the package. -/
def meshSteps (h to_ : Nat) : List (Nat × Nat) := (h :: meshWay 4 h to_).zip (meshWay 4 h to_)

/-- The number of a hummock's mesh link towards a neighbour. -/
def meshPort (h k : Nat) : Nat := 4 + Config.meshLink h k % 4

/-- The fabric port by which a request to another package leaves: that of its launch's route (R414). -/
def State.fabricOf (s : State) (r : Req) : Nat × Nat := Config.route (s.launchAt (s.rootLaunch r.launch)).routes (r.home / 8)

/-- The hummock of the package to which a request goes, and the port by which it leaves the package from there, if it does. -/
def State.wayOf (s : State) (r : Req) : Nat × Option Nat :=
  if isHost (r.line * 128) then (if (s.fnAt r.fn).hport then 6 else 1, some 16)
  else match s.localHum r.home with
  | some h => (h, none)
  | none => ((s.fabricOf r).1, some (s.fabricOf r).2)

/-- The links that a line request crosses, by hummock and number, each mesh link at both of its ends, then the host port or the
fabric port of its launch's route (notes/assumptions 25). -/
def State.linksOf (s : State) (r : Req) : List (Nat × Nat) :=
  let w := s.wayOf r
  (meshSteps r.who.h w.1).flatMap (fun p => [(p.1, meshPort p.1 p.2), (p.2, meshPort p.2 p.1)])
    ++ (match w.2 with
      | some l => [(w.1, l)]
      | none => [])

/-- Whether a request in flight crosses a link of a hummock. -/
def State.crosses (s : State) (h l : Nat) (r : Req) : Bool := (s.linksOf r).contains (h, l)

/-- Whether a request would cross a fenced link: it gets no response (R398). -/
def State.overFenced (s : State) (r : Req) : Bool := (s.linksOf r).any (fun p => (s.linkAt p.1 p.2).fenced)

/-- A unit's request from a hummock for the line of an address of a page without a policy of its own, as the links see it. -/
def State.unitReq (s : State) (h f l a : Nat) : Req :=
  { who := { h := h }, fn := f, line := a / 128, home := (s.homeOf {} a).1, launch := l }

/-! ### Lines that cannot be read -/

/-- Whether a line's data is poisoned, or the line is unassigned and returned poisoned (R204, R411). -/
def State.linePoison (s : State) (line : Nat) : Bool := s.poison.contains line || !(s.assigned (line * 128))

/-! ### Page walks (09_translation_leases.md) -/

/-- A page-table entry (R208 Table 9.2); `cached` when a walk cache gave it, `dead` when its line could not be read
(notes/assumptions 56). -/
structure Pte where
  addr   : Nat := 0
  lo     : Nat := 0
  hi     : Nat := 0
  read   : Nat := 0
  cached : Bool := false
  dead   : Bool := false

def Pte.v (p : Pte) : Bool := bitOf p.lo 0
def Pte.leaf (p : Pte) : Bool := bitOf p.lo 1
def Pte.r (p : Pte) : Bool := bitOf p.lo 2
def Pte.w (p : Pte) : Bool := bitOf p.lo 3
def Pte.x (p : Pte) : Bool := bitOf p.lo 4
def Pte.cls (p : Pte) : Nat := bitsOf p.lo 5 4
def Pte.sp (p : Pte) : Nat := bitsOf p.lo 9 2
def Pte.slice (p : Pte) : Nat := bitsOf p.lo 11 6
def Pte.sc (p : Pte) : Bool := bitOf p.lo 17
def Pte.home (p : Pte) : Nat := bitsOf p.lo 18 9
def Pte.rwin (p : Pte) : Bool := bitOf p.lo 27
def Pte.tier (p : Pte) : Nat := bitsOf p.lo 28 2
def Pte.swap (p : Pte) : Bool := bitOf p.lo 30
def Pte.a (p : Pte) : Bool := bitOf p.lo 31
def Pte.d (p : Pte) : Bool := bitOf p.lo 32
/-- The address of the page or next table. -/
def Pte.frame (p : Pte) : Nat := bitsOf p.hi 0 40 * 65536
/-- The duration of a lease class (R211). -/
def leaseNs (cls : Nat) : Nat := 2 ^ (cls + 9)

/-- A malformed entry at a level; `eff` when its SP, SLICE and HOME take effect, `guest` for a VF's stage 1
(R209). -/
def State.malformed (s : State) (p : Pte) (level : Nat) (eff guest : Bool) : Bool :=
  bitsOf p.lo 33 31 != 0 || bitsOf p.hi 40 24 != 0 || p.sp == 3 || decide (2 ≤ p.tier)
    || (level == 1 && !p.leaf)
    || (p.leaf && ((level == 2 && bitsOf p.hi 0 12 != 0) || (level == 3 && bitsOf p.hi 0 20 != 0)))
    || (!p.leaf && (bitsOf p.lo 2 3 != 0 || bitsOf p.lo 9 21 != 0 || p.a || p.d))
    || (guest && bitsOf p.hi 36 4 != 0)
    || (p.leaf && eff && (p.sp == 1 || p.sp == 2) && p.home / 8 != s.pkg.pkgnum && !(Config.inDomain (p.home / 8)))

/-- How a walk of one stage ended; `stage2` for a table page that stage 2 does not give for reading. -/
inductive WalkEnd where
  | leaf (p : Pte) (level : Nat)
  | invalid (level : Nat)
  | swap
  | stage2 (level : Nat) (invalid : Bool) (page : Nat)

/-- A walk of one stage: its end, the entries of its path, the malformed ones it met (address, level, whether the
table is a stage-2 one), the untranslated address of the table that held the leaf with the entry that translated that
table, and the addresses it read at their homes. -/
structure WalkPath where
  res   : WalkEnd
  path  : List Pte := []
  bad   : List (Nat × Nat × Bool) := []
  table : Nat := 0
  via   : Pte := {}
  reads : List Nat := []

/-- The entry at a host-physical address: from the walk cache while its lease runs and it is a pointer, else
from its home, with the accumulators of its words drained (R213, R218, R260); a poisoned or unassigned line, or one
that the crossbar denies the walk scheduler, gives no entry (R204, R380, R411). -/
def State.readPte (s : State) (h f a : Nat) : Pte :=
  let m := (s.drainFor a 16).mem
  let home : Pte := {
    addr := a, lo := readN m a 8, hi := readN m (a + 8) 8, read := s.chipTime
    dead := s.linePoison (a / 128) || !(s.pathOk f h 9 (s.homeOf {} a)) }
  match mfind (s.humAt h).wcache a with
  | some w =>
    if w.fn = f && decide (s.chipTime < w.expiry) then { addr := a, lo := w.lo, hi := w.hi, read := w.read, cached := true }
    else home
  | none => home

/-- Walk the levels of one table (R207): `tr` translates the address of a table entry, giving the path of
that translation, or how it failed.  An entry with SWAP = 1 is not used at all (R221). -/
def walkLevels (s : State) (h f : Nat) (eff guest : Bool) (tr : Nat → WalkPath × Nat) (va : Nat) :
    (levels : List Nat) → (table : Nat) → WalkPath
  | [], _ => { res := .invalid 1 }
  | l :: ls, table =>
    let t := tr (table + bitsOf va (12 * l + 4) 12 * 16)
    match t.1.res with
    | .leaf via _ =>
      let p := s.readPte h f t.2
      let here : WalkPath := {
        res := .invalid l, path := t.1.path, bad := t.1.bad, table := table, via := via
        reads := if p.cached then t.1.reads else t.1.reads ++ [p.addr] }
      if p.dead then here
      else if p.swap then { here with res := .swap }
      else if !p.v then here
      else if s.malformed p l eff guest then { here with bad := (p.addr, l, eff) :: t.1.bad }
      else if p.leaf then
        if l = 3 && bitsOf va 36 4 ≠ 0 then here else { here with res := .leaf p l, path := p :: t.1.path }
      else
        let r := walkLevels s h f eff guest tr va ls p.frame
        { r with path := p :: (t.1.path ++ r.path), bad := t.1.bad ++ r.bad, reads := here.reads ++ r.reads }
    | e => { res := e, path := t.1.path, bad := t.1.bad, reads := t.1.reads }

/-- The bytes a leaf of a level maps (R207 Table 9.1). -/
def leafSize (level : Nat) : Nat := if level = 1 then 2 ^ 16 else if level = 2 then 2 ^ 28 else 2 ^ 36

/-- The translation of table addresses that are host-physical already. -/
def trDirect (a : Nat) : WalkPath × Nat := ({ res := .leaf {} 1 }, a)

/-- A stage-2 walk of a guest-physical address (R210). -/
def State.walk2 (s : State) (h f gpa : Nat) : WalkPath :=
  walkLevels s h f true false trDirect gpa [3, 2, 1] (s.fnAt f).root2

/-- The translation of a stage-1 table address through stage 2, which must grant R (R210). -/
def State.trGuest (s : State) (h f a : Nat) : WalkPath × Nat :=
  let p := s.walk2 h f a
  let page := a / 65536 * 65536
  match p.res with
  | .leaf e l => if e.r then (p, e.frame + a % leafSize l) else ({ p with res := .stage2 l false page }, 0)
  | .invalid l => ({ p with res := .stage2 l true page }, 0)
  | r => ({ p with res := r }, 0)

/-- What an access needs of a translation. -/
structure Need where
  r : Bool := false
  w : Bool := false
  x : Bool := false
  deriving DecidableEq, Repr

/-- Whether a walk serves an access, and so sets A and D (R221): a query needs nothing and sets neither (R232,
R233). -/
def Need.any (n : Need) : Bool := n.r || n.w || n.x

/-- How a full walk ended: a translation and the low words the walker writes; a held walk; or a failure with
its stage, level, whether invalid, the page it names and what was needed of that page. -/
inductive WalkRes where
  | ok (t : Tlb) (upd : List (Nat × Nat))
  | swap
  | fail (stage level : Nat) (invalid : Bool) (need : Need) (page : Nat)

/-- A full walk: how it ended, the malformed entries it met, the entries of its path, and the addresses it read at
their homes. -/
structure Walked where
  res   : WalkRes
  bad   : List (Nat × Nat × Bool) := []
  path  : List Pte := []
  reads : List Nat := []

/-- The permissions suffice. -/
def needOk (n : Need) (r w x : Bool) : Bool := (!n.r || r) && (!n.w || w) && (!n.x || x)

/-- The low word of a leaf with A set, and D for a store (R221). -/
def Pte.marked (p : Pte) (w : Bool) : Nat := p.lo ||| 2 ^ 31 ||| (if w then 2 ^ 32 else 0)
/-- Whether the walker writes A or D. -/
def Pte.needsMark (p : Pte) (w : Bool) : Bool := !p.a || (w && !p.d)

/-- The least class and the earliest expiry along a path (R213). -/
def pathCls (p : List Pte) : Nat := p.foldl (fun m e => min m e.cls) 15
def pathMaxCls (p : List Pte) : Nat := p.foldl (fun m e => max m e.cls) 0
def pathExpiry (p : List Pte) : Nat := p.foldl (fun m e => min m (e.read + leaseNs e.cls)) (2 ^ 80)
def pathRead (p : List Pte) : Nat := p.foldl (fun m e => min m e.read) (2 ^ 80)

/-- A full walk of function `f` for a virtual address (R210, R211, R221), with no effect yet.  Where the stage-1 leaf grants too little
and the stage-2 walk of its page fails too, stage 2 is reported: DESIGN CHOICE, R210 names no order (notes/assumptions 58). -/
def State.walkFull (s : State) (h f va : Nat) (need : Need) : Walked :=
  let x := s.fnAt f
  let page := va / 65536 * 65536
  let marks := fun (p : Pte) => if need.any && p.needsMark need.w then [(p.addr, p.marked need.w)] else []
  if !x.tren then { res := .fail 1 3 true need page }
  else if f = 0 then
    let p := walkLevels s h f true false trDirect va [3, 2, 1] x.root1
    let out := fun (r : WalkRes) => ({ res := r, bad := p.bad, path := p.path, reads := p.reads } : Walked)
    match p.res with
    | .leaf e l =>
      if needOk need e.r e.w e.x then
        let sz := leafSize l
        out (.ok { fn := f, va := va / sz * sz, size := sz, frame := e.frame / sz * sz, r := e.r, w := e.w, x := e.x,
                   d := e.d || need.w, sc := e.sc, rwin := e.rwin, sp := e.sp, slice := e.slice, home := e.home,
                   tier := e.tier, cls := pathCls p.path, read := pathRead p.path, expiry := pathExpiry p.path }
                 (marks e))
      else out (.fail 1 l false need page)
    | .swap => out .swap
    | .invalid l => out (.fail 1 l true need page)
    | .stage2 l i g => out (.fail 2 l i { r := true } g)
  else
    let p := walkLevels s h f false true (s.trGuest h f) va [3, 2, 1] x.root1
    match p.res with
    | .leaf e1 l1 =>
      let gpa := e1.frame / leafSize l1 * leafSize l1 + va % leafSize l1
      let gpage := gpa / 65536 * 65536
      let q := s.walk2 h f gpa
      let path := p.path ++ q.path
      let out := fun (r : WalkRes) => ({ res := r, bad := p.bad ++ q.bad, path := path, reads := p.reads ++ q.reads } : Walked)
      match q.res with
      | .leaf e2 l2 =>
        if !(needOk need e1.r e1.w e1.x) then out (.fail 1 l1 false need page)
        else if !(needOk need e2.r e2.w e2.x) then out (.fail 2 l2 false need gpage)
        else if need.any && e1.needsMark need.w && !p.via.w then
          out (.fail 2 1 false { w := true } (p.table / 65536 * 65536))
        else
          let sz := min (leafSize l1) (leafSize l2)
          let hpa := e2.frame / leafSize l2 * leafSize l2 + gpa % leafSize l2
          let tables := p.path.filter (fun e => need.any && e.leaf && e.addr != e1.addr && !e.a)
          out (.ok { fn := f, va := va / sz * sz, size := sz, frame := hpa / sz * sz,
                     r := e1.r && e2.r, w := e1.w && e2.w, x := e1.x && e2.x,
                     d := (e1.d && e2.d) || need.w, sc := e1.sc || e2.sc, rwin := e1.rwin || e2.rwin,
                     sp := e2.sp, slice := e2.slice, home := e2.home, tier := e2.tier,
                     cls := pathCls path, read := pathRead path, expiry := pathExpiry path }
                   (tables.map (fun e => (e.addr, e.marked false)) ++ marks e1 ++ marks e2))
      | .swap => out .swap
      | .invalid l => out (.fail 2 l true need gpage)
      | .stage2 l i g => out (.fail 2 l i { r := true } g)
    | .swap => { res := .swap, bad := p.bad, path := p.path, reads := p.reads }
    | .invalid l => { res := .fail 1 l true need page, bad := p.bad, path := p.path, reads := p.reads }
    | .stage2 l i g => { res := .fail 2 l i { r := true } g, bad := p.bad, path := p.path, reads := p.reads }

/-- The host-physical address of a virtual address under a translation. -/
def Tlb.hpa (t : Tlb) (va : Nat) : Nat := t.frame + (va - t.va)
/-- Whether a cached translation serves an address at a chip time (R211). -/
def Tlb.serves (t : Tlb) (f va now : Nat) : Bool :=
  t.fn == f && decide (t.va ≤ va) && decide (va < t.va + t.size) && decide (now < t.expiry)

/-- Keep the pointer entries of a walk's path in the walk caches (R213, R218). -/
def State.keepWalk (s : State) (h f : Nat) (path : List Pte) : State :=
  let keep := fun (m : NMap WalkCache) (p : Pte) =>
    if p.leaf || p.cls == 0 || (m.length == 1024 && (mfind m p.addr).isNone) then m
    else mset m p.addr { fn := f, lo := p.lo, hi := p.hi, read := p.read, expiry := p.read + leaseNs p.cls }
  s.setHum h { s.humAt h with wcache := path.foldl keep (s.humAt h).wcache }

/-- Drain the accumulators of the entries a walk read (R260). -/
def State.drainReads (s : State) (as : List Nat) : State := as.foldl (fun t a => t.drainFor a 16) s

/-- Write A and D as a walk does: a compare-and-swap of the low 64 bits at the entry's home (R221). -/
def State.writeMarks (s : State) (f : Nat) (upd : List (Nat × Nat)) : State :=
  upd.foldl (fun t u => ((t.drainFor u.1 8).l2At f {} u.1 true).homeStore f ownHome u.1 8 u.2) s

/-! ### Error queue and message signals (17_device_boundary.md R406, R407) -/

/-- The entry count of a ring of `2^(size + k)` entries. -/
def Ring.count (r : Ring) (k : Nat) : Nat := 2 ^ (r.size + k)
/-- A full ring (R451). -/
def Ring.isFull (r : Ring) (k : Nat) : Bool := (r.tail + 1) % r.count k == r.head

/-- Signal a vector of a function: its count grows (R406). -/
def State.signal (s : State) (f v : Nat) : State :=
  let x := s.fnAt f
  s.setFn f { x with msix := mset x.msix v (mget 0 x.msix v + 1) }

/-- The number of a port pair in a log entry (Table 17.4). -/
def portPair (i j : Nat) : Nat := i + 256 * j

/-- The memory-side port at which a request leaves hummock `h` for a home (Table 1.2). -/
def State.portOfHome (s : State) (h : Nat) (home : Nat × Nat) : Nat :=
  match s.localHum home.1 with
  | some hh => if hh = h then (if home.2 = 64 then 10 else home.2 / 8) else 13
  | none => 12

/-- Count an error entry that is not written (R406). -/
def State.lostErr (s : State) (f : Nat) : State :=
  let x := s.fnAt f
  s.setFn f { x with lost := min (x.lost + 1) (2 ^ 32 - 1) }

/-- What stops a device unit's write at a host-physical address: the entry that the PF's queue takes, for an unassigned line or a
path that the crossbar denies (R380, R411). -/
def State.writeDenied (s : State) (f h i pa : Nat) (home : Nat × Nat) : Option (Nat × Nat × Nat) :=
  if !(s.assigned pa) then some (3, pa / 128 * 128, 0)
  else if s.pathOk f h i home then none
  else some (4, portPair i (s.portOfHome h home), f)

/-- Write an entry at ERRTAIL under its page's translation and signal it (R406, R407). -/
def State.putErr (s : State) (f pa : Nat) (entry : List Byte) : State :=
  let s := (s.drainFor pa 32).homeBytes f ownEnlarger pa entry
  let x := s.fnAt f
  (s.setFn f { x with err := { x.err with tail := (x.err.tail + 1) % x.err.count 5 } }).signal f 0

/-- The entry of Table 17.4 (R407). -/
def State.errEntry (s : State) (f kind h i0 i1 : Nat) : List Byte :=
  bytesOf 2 kind ++ bytesOf 1 f ++ bytesOf 1 0 ++ bytesOf 2 (s.phys h) ++ bytesOf 2 0
    ++ bytesOf 8 s.chipTime ++ bytesOf 8 i0 ++ bytesOf 8 i1

/-- Whether a line's home cannot take a device unit's request now: its clock is at fault (R214), or an accepted request to the line
has still to be performed (R212). -/
def State.homeHolds (s : State) (home : Nat × Nat) (pa : Nat) : Bool :=
  s.faulty (512 + (s.localHum home.1).getD 64) || s.lineTaken (pa / 128)

/-- Write an entry at ERRTAIL, address `va`, under the walk `w` of its page: written; held while the entry of the page is being changed,
the base die's clock is at fault or the line's home cannot take it (R212, R214, R222); or counted in LOST, where an unassigned line or
a denied path gives the PF's queue an entry (R380, R411). -/
def State.tryErr (s : State) (f h va : Nat) (entry : List Byte) (w : Walked) : State × Option (Nat × Nat × Nat) :=
  let hold := s.setFn f { s.fnAt f with err := { (s.fnAt f).err with held := [entry] } }
  if s.faulty (512 + h) then (hold, none)
  else match w.res with
    | .ok t upd =>
      let pa := t.hpa va
      match s.writeDenied f h 15 pa (s.homeOf t pa) with
      | some e => ((s.writeMarks f upd).lostErr f, some e)
      | none =>
        if s.homeHolds (s.homeOf t pa) pa then (hold, none)
        else (((s.writeMarks f upd).l2At f t pa true).putErr f pa entry, none)
    | .swap => (hold, none)
    | .fail _ _ _ _ _ => (s.lostErr f, none)

/-- Log an entry to a function's error queue through its own translation (R406, R407).  A line that is unassigned or denied is logged
in the PF's queue (R380, R411), and so are the malformed entries that this walk meets in their owners', to depth `n`. -/
def State.logErrN : Nat → State → (f kind h i0 i1 : Nat) → State
  | n, s, f, kind, h, i0, i1 =>
    let x := s.fnAt f
    let entry := s.errEntry f kind h i0 i1
    if !x.erren then s.lostErr f
    else if !x.err.held.isEmpty then s.setFn f { x with err := { x.err with held := x.err.held ++ [entry] } }
    else if x.err.isFull 5 then s.lostErr f
    else
      let va := x.err.base + 32 * x.err.tail
      let w := s.walkFull h f va { w := true }
      let found := (s.drainReads w.reads).tryErr f h va entry w
      match n with
      | 0 => found.1
      | n + 1 =>
        let s := match found.2 with
          | some e => State.logErrN n found.1 0 e.1 h e.2.1 e.2.2
          | none => found.1
        w.bad.foldl (fun t e => State.logErrN n t (if e.2.2 then 0 else f) 2 h e.1 e.2.1) s

/-- Log an entry to a function's error queue (R406, R407). -/
def State.logErr (s : State) (f kind h i0 i1 : Nat) : State := State.logErrN 1 s f kind h i0 i1

/-- Whether a walk of a function's page for an access grants it now: the unit that waited for it goes on. -/
def State.grants (s : State) (h f va : Nat) (need : Need) : Bool :=
  !(s.faulty (512 + h)) && (match (s.walkFull h f va need).res with
    | .ok _ _ => true
    | _ => false)

/-- Write the error entries that a function's queue holds while its translation grants the writes and their homes take them (R212,
R222, R406); `held` are those not yet written. -/
def State.flushErrs (s : State) (h f : Nat) : (held : List (List Byte)) → State
  | [] => s
  | e :: es =>
    let x := s.fnAt f
    let va := x.err.base + 32 * x.err.tail
    let rest := fun (t : State) => t.setFn f { t.fnAt f with err := { (t.fnAt f).err with held := es } }
    if !x.erren || x.err.isFull 5 then ((rest s).lostErr f).flushErrs h f es
    else
      let w := s.walkFull h f va { w := true }
      match w.res with
      | .ok t upd =>
        let pa := t.hpa va
        let u := (s.drainReads w.reads).writeMarks f upd
        match s.writeDenied f h 15 pa (s.homeOf t pa) with
        | some d => (State.logErrN 0 ((rest u).lostErr f) 0 d.1 h d.2.1 d.2.2).flushErrs h f es
        | none => if s.homeHolds (s.homeOf t pa) pa then s else (rest ((u.l2At f t pa true).putErr f pa e)).flushErrs h f es
      | .swap => s
      | .fail _ _ _ _ _ =>
        let s := rest (s.drainReads w.reads)
        let s := w.bad.foldl (fun t b => State.logErrN 0 t (if b.2.2 then 0 else f) 2 h b.1 b.2.1) s
        (s.lostErr f).flushErrs h f es

/-! ### Stores and what they write beside their bytes -/

/-- An address that a unit of a hummock writes beside its store: the accumulators of its words drain (R260), and an unassigned one is
logged (R411). -/
def State.besides (s : State) (h a n : Nat) : State :=
  if s.assigned a then s.drainFor a n else s.logErr 0 3 h (a / 128 * 128) 0

/-- The dirty bitmaps that a write marks are ready for it (R394). -/
def State.dirtyReady (s : State) (a : Nat) : State :=
  (s.fns.filterMap (fun e => s.dirtyBit e.2 a)).foldl (fun t b => t.besides (a / 2 ^ 38 % 8) b.1 1) s

/-- The place of an entry of a function's undo log is ready for it (R368). -/
def State.logReady (s : State) (f h : Nat) : State := s.besides h ((s.fnAt f).ck.logBase + 144 * (s.fnAt f).ck.entries) 144

/-- What a store of an owner writes beside its bytes is ready for it. -/
def State.storeReady (s : State) (f o a : Nat) : State :=
  let t := s.dirtyReady a
  if o ≠ ownHost && t.logsLine f (a / 128) then t.logReady f (a / 2 ^ 38 % 8) else t

/-- Perform a store of `n` bytes at its home (R235). -/
def State.performStore (s : State) (f o a n : Nat) (v : Nat) : State := (s.storeReady f o a).homeStore f o a n v

/-- Perform a store of bytes within one line at its home. -/
def State.performBytes (s : State) (f o a : Nat) (bs : List Byte) : State := (s.storeReady f o a).homeBytes f o a bs

/-- A contribution reaches its home: a poisoned line drops it and logs it (11_atomics.md R257). -/
def State.winArrive (s : State) (home a : Nat) (c : WinAcc) : State :=
  if s.linePoison (a / 128) then s.logErr c.fn 13 ((s.localHum home).getD 0) a 0 else s.winAccept home a c

/-- The effects of a walk whatever it found: the accumulators of the entries it read drain (R260), a malformed entry is
logged in the queue of its table's owner, the PF for a stage-2 table (R209), and an unassigned address or a denied path in
the PF's (R380, R411). -/
def State.noteWalk (s : State) (f h : Nat) (r : Walked) : State :=
  let s := s.drainReads r.reads
  let s := r.bad.foldl (fun t e => t.logErr (if e.2.2 then 0 else f) 2 h e.1 e.2.1) s
  r.reads.foldl (fun t a =>
    if !(t.assigned a) then t.logErr 0 3 h a 0
    else if t.pathOk f h 9 (t.homeOf {} a) then t.l2At f {} a false
    else t.logErr 0 4 h (portPair 9 (t.portOfHome h (t.homeOf {} a))) f) s

/-! ### Device accesses through a function's translation -/

/-- What a walk of a device unit finds: a translation, an entry being changed (or a base die whose clock is at fault), nothing
that grants the access, or an entry over a fenced link, for which no answer comes (R214, R222, R398). -/
inductive DevRes where
  | ok (t : Tlb)
  | hold
  | denied
  | lost

/-- Whether one of the entries that a walk of a launch reads lies over a fenced link (R398). -/
def State.walkLost (s : State) (h f l : Nat) (reads : List Nat) : Bool := reads.any (fun a => s.overFenced (s.unitReq h f l a))

/-- A walk of a device unit: it marks the entries it uses and posts no page request (R62, R163). -/
def State.devWalk (s : State) (h f va : Nat) (need : Need) : State × DevRes :=
  if s.faulty (512 + h) then (s, .hold)
  else
    let r := s.walkFull h f va need
    if s.walkLost h f 0 r.reads then (s, .lost)
    else
      let s := s.noteWalk f h r
      match r.res with
      | .ok t upd => ((s.writeMarks f upd).keepWalk h f r.path, .ok t)
      | .swap => (s, .hold)
      | .fail _ _ _ _ _ => (s, .denied)

/-- Write bytes within a line at a virtual address of a function through its own translation, entering the crossbar at
port `i`; a path that the crossbar denies drops and logs the request, and an unassigned line is logged (R380, R411); a line whose
home cannot take it now holds it (R212, R214). -/
def State.devWrite (s : State) (h f i va : Nat) (bs : List Byte) : State × DevRes :=
  match s.devWalk h f va { w := true } with
  | (s, .ok t) =>
    let pa := t.hpa va
    let home := s.homeOf t pa
    match s.writeDenied f h i pa home with
    | some e => (s.logErr 0 e.1 h e.2.1 e.2.2, .denied)
    | none => if s.homeHolds home pa then (s, .hold)
      else (((s.drainFor pa bs.length).l2At f t pa true).performBytes f ownEnlarger pa bs, .ok t)
  | r => r

end Sys2Proof.Machine
end

