-- ==== Sys2Proof/Machine/MemOps.lean ====
section
/-! DEFINITION. Memory accesses: segments and buffer records, the checks by rank, translation of lines, what a
request does at its home, window accumulators, and completion (08_memory_access.md to
11_atomics.md). -/

namespace Sys2Proof.Machine

/-! ### Segments and records (R177, R180, R184) -/

/-- The size of a segment: a LIMIT field of 0 stands for 2^52 (R177). -/
def Seg.size (g : Seg) : Nat := if g.limit = 0 then 2 ^ 52 else g.limit

/-- The acting group's copy of a segment (Table 8.1). -/
def State.segOf (s : State) (i : Nat) : Seg := mget {} s.grp.segs i

/-- A record usable in any access (R180). -/
def BufRec.usable (r : BufRec) : Bool :=
  r.valid && r.stride != 0 && decide (r.esize ≤ 4) && decide (r.swz ≤ 3) && (r.swz == 0 || r.base % 128 == 0)

/-- The swizzled offset (Table 8.5). -/
def swzOff (mode o : Nat) : Nat :=
  match mode with
  | 1 => o ^^^ (bitsOf o 7 3 * 16)
  | 2 => o ^^^ (bitsOf o 7 2 * 16)
  | 3 => o ^^^ (bitsOf o 7 1 * 16)
  | _ => o

/-- The segment offset of an element offset (R184). -/
def BufRec.segOff (r : BufRec) (o : Int) : Nat := (r.base + swzOff r.swz (o % (2 ^ 64 : Nat)).toNat) % 2 ^ 64

/-- An element offset lies in the record (R184). -/
def BufRec.inb (r : BufRec) (o : Int) (w : Nat) : Bool :=
  decide (0 ≤ o) && decide (o + w ≤ ((r.stride * r.extent : Nat) : Int))

/-- The permission an access needs, in the record and the segment together (Table 8.7, R253). -/
def permOk (k : MemKind) (r : BufRec) (g : Seg) : Bool :=
  match k with
  | .load => r.pr && g.r
  | .store => r.pw && g.w
  | .atom _ => r.pa && g.a
  | .red _ => r.pa && g.a

/-- The permission a direct scratchpad access needs (R188, R256). -/
def segPermOk (k : MemKind) (g : Seg) : Bool :=
  match k with
  | .load => g.r
  | .store => g.w
  | .atom _ => g.a
  | .red _ => g.a

/-- The space of a segment select (Table 8.1). -/
def selSpace (sel : Nat) : Space :=
  match sel with
  | 2 => .scr
  | 3 => .acc
  | 4 => .peer
  | 5 => .map
  | _ => .mem

/-- The record a record form uses: the one read at its first issue (R182). -/
def State.recordOf (s : State) (b : BufR) : BufRec := s.grp.held.getD (mget {} s.wg.b b.toNat)

/-- The operands of a lane: store data, or an atomic's operand with cas's new value (R185, R252). -/
def State.laneData (s : State) (k : MemKind) (t : Ty) (a : Reg) (l : Nat) : DWord × DWord :=
  match k with
  | .load => (0, 0)
  | .atom .cas =>
    if t.is64 then (s.lpair l a.toNat, s.lpair l (a.toNat + 2))
    else ((s.lreg l a.toNat).setWidth 64, (s.lreg l (a.toNat + 1)).setWidth 64)
  | _ => (s.lval t l a.toNat, 0)

/-! ### The on-chip map's extent (R21 to R25) -/

/-- The parts of an on-chip map address: physical hummock, core, structure code, offset (Table 1.8). -/
def mapHum (a : Nat) : Nat := bitsOf a 39 9
def mapCore (a : Nat) : Nat := bitsOf a 33 6
def mapCode (a : Nat) : Nat := bitsOf a 28 5
def mapOff (a : Nat) : Nat := bitsOf a 0 28

/-- The window contents of a structure code: the ranges of offsets it has (Table 1.9). -/
def mapExtent (code : Nat) : List (Nat × Nat) :=
  match code with
  | 0x00 => [(0, 0x40000)]
  | 0x01 => [(0, 0x60000), (0x100000, 0x100180)]
  | 0x02 => [(0, 0x40000), (0x100000, 0x100010)]
  | 0x03 => [(0, 0x10000)]
  | 0x04 => [(0, 0x4000)]
  | 0x05 => [(0, 0x300)]
  | 0x06 => [(0, 0x400)]
  | 0x07 => [(0, 0x4000)]
  | 0x08 => [(0, 0x400)]
  | 0x09 => [(0, 0x1000)]
  | 0x0A => [(0, 0x8000)]
  | 0x0B => [(0, 0x20000)]
  | 0x0C => [(0, 0x800)]
  | 0x0D => [(0, 0x1000)]
  | 0x0E => [(0, 0x100)]
  | 0x10 => [(0, 0x10000)]
  | 0x11 => [(0, 0x40000)]
  | 0x12 => [(0, 0x4000)]
  | 0x13 => [(0, 0x40000)]
  | 0x14 => [(0, 0x10000)]
  | 0x15 => [(0, 0x100000)]
  | 0x16 => [(0, 0x10000)]
  | 0x17 => [(0, 0x1000)]
  | 0x18 => [(0, 0x1000)]
  | 0x19 => [(0, 0x100)]
  | 0x1A => [(0, 0x10000)]
  | 0x1B => [(0, 0x1000)]
  | _ => []

/-- Whether a physical hummock is in the domain (R11, R23). -/
def State.humExists (s : State) (p : Nat) : Bool :=
  p / 8 == s.pkg.pkgnum || (decide (p < 512) && Config.inDomain (p / 8))

/-- An access of `w` bytes lies within the map (R23). -/
def State.inMap (s : State) (a w : Nat) : Bool :=
  decide (a < 2 ^ 48) && s.humExists (mapHum a) && (decide (mapCode a < 0x10) || mapCore a == 63)
    && (mapExtent (mapCode a)).any (fun e => decide (e.1 ≤ mapOff a) && decide (mapOff a + w ≤ e.2))

/-- A window written only while its core is quiesced (R25). -/
def mapQuiesced (code : Nat) : Bool := code == 0 || (decide (5 ≤ code) && decide (code ≤ 0x0B))

/-- Whether a local hummock lies in a function's partition (R378). -/
def State.inPartition (s : State) (h f : Nat) : Bool :=
  let p := (s.humAt h).regs.partAt f
  p.en && p.sedge != 0

/-- Whether a physical hummock lies in the function's partition; partitions are kept per package, and another package's answer is a
free predicate (R378; notes/assumptions 9). -/
def State.physInPartition (s : State) (p f : Nat) : Bool :=
  match s.localHum p with
  | some h => s.inPartition h f
  | none => Config.farAnswer p 0 f 0

/-- What the map's checks find for a thread access: a trap, or none (R23 to R25, R193). -/
def State.mapTrap (s : State) (write : Bool) (a w : Nat) : Option Nat :=
  if !(s.inMap a w) then some tBounds
  else if s.grp.lvl == .supervisor && !(s.physInPartition (mapHum a) s.wg.fn) then some tAccess
  else if write && mapQuiesced (mapCode a) then
    match s.localHum (mapHum a) with
    | some h => if (s.coreAt h (mapCore a)).status == .quiesced then none else some tBounds
    | none => none
  else none

/-! ### Gang peers (R193) -/

/-- The workgroup of a gang member, if it has not ended. -/
def State.peerWg (s : State) (member : Nat) : Option (GRef × Wg) :=
  match s.wg.peers[member]? with
  | none => none
  | some r =>
    match mfind (s.coreAt r.h r.c).wgs r.g with
    | some w =>
      if w.launch = s.wg.launch && w.gang = s.wg.gang && w.member = member && !w.ended then some (r, w) else none
    | none => none

/-- A byte of a core's scratchpad as a peer address: 2^20 bytes for each core of the package. -/
def peerAddr (h c byte : Nat) : Nat := coreKey h c * 2 ^ 20 + byte

/-- The peer address of a segment offset, or none where the access leaves the members' scratchpads (R193). -/
def State.peerOf (s : State) (x w : Nat) : Option Nat :=
  match s.peerWg (x / 2 ^ 19) with
  | none => none
  | some (r, v) =>
    let g := mget {} v.segs 2
    if x % 2 ^ 19 + w ≤ g.size then some (peerAddr r.h r.c (g.base + x % 2 ^ 19)) else none

/-! ### The checks of ranks 1 to 5 (R184, R188) -/

/-- What the checks of an access find: no executing lane, a trap with its lane and segment offset, or the
checked access. -/
inductive Chk where
  | empty
  | trap (code lane addr : Nat)
  | go (op : MemOp)

/-- The fixed part of an access form; `free` for one that needs no permission (R232). -/
structure Form where
  kind : MemKind
  ty   : Ty
  dst  : Reg := 0
  rep  : Option MReg := none
  sels : List Nat := []
  acq  : Bool := false
  rel  : Bool := false
  free : Bool := false

/-- The trap of rank 5 for a segment offset (R193). -/
def State.rank5 (s : State) (sel : Nat) (write : Bool) (base x w : Nat) : Option Nat :=
  match selSpace sel with
  | .peer => if (s.peerOf x w).isNone then some tBounds else none
  | .map => s.mapTrap write (base + x) w
  | _ => none

/-- The address of a segment offset in its space. -/
def State.spaceAddr (s : State) (sel base x w : Nat) : Nat :=
  match selSpace sel with
  | .peer => (s.peerOf x w).getD 0
  | .mem => (base + x) % 2 ^ 52
  | _ => base + x

/-- Whether an access writes. -/
def MemKind.writes (k : MemKind) : Bool := k != MemKind.load

/-- The checks of a record form (R184 ranks 1 to 5). -/
def State.recCheck (s : State) (f : Form) (m : MReg) (b : Reg) (buf : BufR) (off : Int) : Chk :=
  let e := s.exe m
  let live := s.live m
  let r := s.recordOf buf
  let sg := s.segOf r.sel
  let w := memWidth f.ty
  let o := fun (l : Nat) => ((s.lreg l b.toNat).toNat * r.stride : Nat) + off
  let x := fun (l : Nat) => r.segOff (o l)
  let inb := fun (l : Nat) => r.inb (o l) w
  let aligned := fun (l : Nat) => (sg.base + x l) % w == 0
  let fits := fun (l : Nat) => decide (x l + w ≤ sg.size)
  let r5 := fun (l : Nat) => s.rank5 r.sel f.kind.writes sg.base (x l) w
  let es := lanesOf e
  if e = 0 then .empty
  else if !(r.usable && f.sels.contains r.sel && sg.valid && (f.free || permOk f.kind r sg)) then
    .trap tAccess (lowest e) (x (lowest e))
  else match es.find? (fun l => !(inb l) && !r.zf) with
  | some l => .trap tBounds l (x l)
  | none => match es.find? (fun l => inb l && !(aligned l)) with
  | some l => .trap tAlign l (x l)
  | none => match es.find? (fun l => inb l && !(fits l)) with
  | some l => .trap tBounds l (x l)
  | none => match es.find? (fun l => inb l && (r5 l).isSome) with
  | some l => .trap ((r5 l).getD 0) l (x l)
  | none => .go {
      kind := f.kind, space := selSpace r.sel, sel := r.sel, ty := f.ty, dst := f.dst, rep := f.rep,
      inb := maskBy inb, live := live, exe := e, acq := f.acq, rel := f.rel,
      items := (lanesOf live).map (fun l =>
        { lane := l, helper := !(e.getLsbD l), off := x l,
          pass := inb l && aligned l && fits l && (r5 l).isNone,
          addr := s.spaceAddr r.sel sg.base (x l) w,
          val := (s.laneData f.kind f.ty f.dst l).1, val2 := (s.laneData f.kind f.ty f.dst l).2 }) }

/-- The checks of a direct scratchpad form (R188, R256). -/
def State.scrCheck (s : State) (f : Form) (m : MReg) (b : Reg) (off : Int) : Chk :=
  let e := s.exe m
  let live := s.live m
  let sg := s.segOf 2
  let w := memWidth f.ty
  let o := fun (l : Nat) => ((s.lreg l b.toNat).toNat : Int) + off
  let x := fun (l : Nat) => (o l % (2 ^ 64 : Nat)).toNat
  let fits := fun (l : Nat) => decide (0 ≤ o l) && decide (o l + w ≤ (sg.size : Int))
  let aligned := fun (l : Nat) => x l % w == 0
  let es := lanesOf e
  if e = 0 then .empty
  else if !(sg.valid && segPermOk f.kind sg) then .trap tAccess (lowest e) (x (lowest e))
  else match es.find? (fun l => !(fits l)) with
  | some l => .trap tBounds l (x l)
  | none => match es.find? (fun l => !(aligned l)) with
  | some l => .trap tAlign l (x l)
  | none => .go {
      kind := f.kind, space := .scr, sel := 2, ty := f.ty, dst := f.dst, rep := none,
      inb := maskBy fits, live := live, exe := e, acq := false,
      items := (lanesOf live).map (fun l =>
        { lane := l, helper := !(e.getLsbD l), off := x l, pass := fits l && aligned l, addr := sg.base + x l,
          val := (s.laneData f.kind f.ty f.dst l).1, val2 := (s.laneData f.kind f.ty f.dst l).2 }) }

/-- The lanes' accesses that take part in lines: those that passed; helpers only in loads (R187). -/
def MemOp.parts (op : MemOp) : List LaneAcc :=
  op.items.filter (fun i => i.pass && (!i.helper || op.kind == MemKind.load))

/-- The lines an access touches, in the order of the lowest lane that touches each (R187). -/
def MemOp.lines (op : MemOp) : List Nat :=
  op.parts.foldl (fun ls i => if ls.contains (i.addr / 128) then ls else ls ++ [i.addr / 128]) []

/-! ### Declared ranges and the crossbar (R168, R380) -/

/-- The declared ranges of the acting group's launch; a card task has its poster's (R160). -/
def State.rangesOf (s : State) (launch : Nat) : List (Nat × Nat × Nat × Nat × Nat) :=
  (s.launchAt (s.rootLaunch launch)).kernel.ranges

/-- Whether a byte lies in a range whose mode permits the access (R168). -/
def inRange (write : Bool) (a : Nat) (r : Nat × Nat × Nat × Nat × Nat) : Bool :=
  decide (r.2.2.1 ≤ a) && decide (a < r.2.2.1 + r.2.2.2.1 * r.2.2.2.2) && (!write || decide (2 ≤ r.2.1))

/-- Whether every byte of an access lies in the declared ranges (R168). -/
def State.declared (s : State) (launch : Nat) (write : Bool) (a w : Nat) : Bool :=
  (List.range w).all (fun i => (s.rangesOf launch).any (inRange write (a + i)))

/-! ### Translation caches (R211, R216 to R218) -/

/-- Insert a translation into a cache of a size: it replaces the same page's, then an absent entry, then the
earliest to expire (R216). -/
def tlbInsert (cap now : Nat) (ts : List Tlb) (t : Tlb) : List Tlb :=
  let ts := ts.filter (fun e => !(e.fn == t.fn && e.va == t.va && e.size == t.size))
  if ts.length < cap then t :: ts
  else
    let live := ts.filter (fun e => decide (now < e.expiry))
    if live.length < cap then t :: live
    else
      let m := live.foldl (fun a e => min a e.expiry) (2 ^ 80)
      match live.find? (fun e => e.expiry == m) with
      | some v => t :: live.erase v
      | none => t :: live

/-- Whether a translation grants what an access needs; a store needs D (R221). -/
def Tlb.grants (t : Tlb) (n : Need) : Bool := needOk n t.r t.w t.x && (!n.w || t.d)

/-- A cached translation of a page that grants the access, unexpired (R216).  One that does not grant it is a miss, which is walked
afresh: DESIGN CHOICE, the spec says so of D = 0 alone (notes/assumptions 58). -/
def findTlb (ts : List Tlb) (f va now : Nat) (n : Need) : Option Tlb :=
  ts.find? (fun t => t.serves f va now && t.grants n)

/-- The translations cached by the other cores of a core's sedge (R217). -/
def State.sedgeTlbs (s : State) (h c : Nat) : List Tlb :=
  (List.range 8).flatMap (fun i => if c / 8 * 8 + i = c then [] else (s.coreAt h (c / 8 * 8 + i)).tlb)

/-- Whether the acting group's function may reach the hummock's TLB and walks, at memory-side port 9 (R380). -/
def State.tlbPath (s : State) : Bool := s.reach s.wg.fn s.cur.h (s.cur.c / 8) s.cur.h 9

/-- Look a page up for the acting group: its own instruction's, the core's, the sedge's, the hummock's (R216 to
R218). -/
def State.lookup (s : State) (f va : Nat) (n : Need) : Option Tlb :=
  let now := s.chipTime
  if s.faulty (coreKey s.cur.h s.cur.c) then none
  else match findTlb s.grp.tlb f va now n with
  | some t => some t
  | none => match findTlb s.core.tlb f va now n with
  | some t => some t
  | none => match findTlb (s.sedgeTlbs s.cur.h s.cur.c) f va now n with
  | some t => some t
  | none => if s.tlbPath then findTlb s.hum.tlb f va now n else none

/-- Keep a translation that a lookup used: class 0 with the instruction, any other in the core's L1 TLB (R211,
R217, R218). -/
def State.keepTlb (s : State) (t : Tlb) : State :=
  if s.core.tlb.contains t || s.grp.tlb.contains t then s
  else if t.cls = 0 then s.setGrp { s.grp with tlb := t :: s.grp.tlb }
  else s.setCore { s.core with tlb := tlbInsert 64 s.chipTime s.core.tlb t }

/-- Install the result of a walk (R211, R216, R218). -/
def State.installTlb (s : State) (r : GRef) (t : Tlb) : State :=
  let k := s.coreAt r.h r.c
  if t.cls = 0 then
    match mfind k.groups r.g with
    | some g => s.setCoreAt r.h r.c { k with groups := mset k.groups r.g { g with tlb := t :: g.tlb } }
    | none => s
  else
    let s := s.setCoreAt r.h r.c { k with tlb := tlbInsert 64 s.chipTime k.tlb t }
    s.setHum r.h { s.humAt r.h with tlb := tlbInsert 8192 s.chipTime (s.humAt r.h).tlb t }

/-! ### Asking for a walk (R220) -/

/-- Queue the walks of one instruction of the acting group, as many as the pending list has room for, and make it wait;
a full list makes it retry (R220). -/
def State.askWalks (s : State) (ws : List Walk) : State :=
  let room := 256 - s.hum.pending.length
  if room = 0 then s.setWait (.walk true)
  else (s.setHum s.cur.h { s.hum with pending := s.hum.pending ++ ws.take room }).setWait (.walk false)

/-- Queue one walk. -/
def State.askWalk (s : State) (w : Walk) : State := s.askWalks [w]

/-! ### Rank 6: translation of the lines (R184, R227) -/

/-- What rank 6 finds: every line translated, lines to walk (and whether only helper lanes touch them), a violation of the
declared ranges, or a trap. -/
inductive Rank6 where
  | ok (ts : List (Nat × Tlb))
  | miss (lines : List (Nat × Bool))
  | lease
  | trap (code lane addr detail : Nat)

/-- What an access needs of a page. -/
def MemKind.need (k : MemKind) : Need := if k == MemKind.load then { r := true } else { w := true }

/-- Whether a function's effects on a space wait in its holding tray (R202, R369). -/
def State.trays (s : State) (f sel : Nat) : Bool := (s.fnAt f).ck.en && f != 0 && (sel == 6 || sel == 7)

/-- Whether a host-physical address lies in a function's host window (R202, R409). -/
def State.inHostWindow (s : State) (f a w : Nat) : Bool :=
  let x := s.fnAt f
  let b := 2 ^ 54 + x.hmbase
  decide (b ≤ a) && decide (a + w ≤ b + x.hmsize * 65536) && decide (a + w ≤ 2 ^ 55)

/-- Whether an operation is refused on a reduction window (R259). -/
def MemKind.noWindow (k : MemKind) : Bool :=
  match k with
  | .atom _ => true
  | .red .incWrap => true
  | .red .decWrap => true
  | _ => false

/-- The checks of one translated line: host window, checkpointed remote atomic, crossbar, reduction window. -/
def State.lineCheck (s : State) (f : Nat) (op : MemOp) (t : Tlb) (i : LaneAcc) : Option Rank6 :=
  let pa := t.hpa i.addr
  if op.sel = 7 && !(s.inHostWindow f pa (memWidth op.ty)) then some .lease
  else if (match op.kind with | .atom _ => true | _ => false) && op.sel == 6 && s.trays f op.sel then
    some (.trap tAccess i.lane i.off 0)
  else if !(s.pathOk s.wg.fn s.cur.h (s.cur.c / 8) (s.homeOf t pa)) then some (.trap tAccess i.lane i.off 0)
  else if t.rwin && op.kind.noWindow then some (.trap tIllegalOperand i.lane i.off 1)
  else none

/-- Whether a page that no cache holds is denied to the acting group's instruction: a walk has found so (R227), or the crossbar denies
its request (R380). -/
def State.denies (s : State) (p : Purpose) (va : Nat) : Bool := !s.tlbPath || s.grp.denied.contains (va / 65536, p)

/-- What rank 6 finds of one line (R187): the translation that serves it, a walk to make, a failure of its lowest lane of E, or
nothing.  A line that helper lanes alone touch passes the same checks and is left out where it fails one (R184). -/
inductive LineFound where
  | use (t : Tlb)
  | walk (helper : Bool)
  | bad (lane : Nat) (r : Rank6)
  | none

/-- Translate one line of an access and check it. -/
def State.rank6Line (s : State) (f : Nat) (op : MemOp) (ln : Nat) : LineFound :=
  let here := op.parts.filter (fun i => i.addr / 128 == ln)
  match here.find? (fun i => !i.helper), s.lookup f (ln * 128) op.kind.need with
  | none, none => if s.denies .access (ln * 128) || s.denies .helper (ln * 128) then .none else .walk true
  | none, some t => if (s.lineCheck f op t (here.headD {})).isSome then .none else .use t
  | some i, none => if s.denies .access (ln * 128) then .bad i.lane (.trap tAccess i.lane i.off 0) else .walk false
  | some i, some t =>
    match s.lineCheck f op t i with
    | some b => .bad i.lane b
    | none => .use t

/-- Rank 6 on the lines of an access in order (R187): every line is translated before the lowest failing lane is known (R184). -/
def State.rank6Go (s : State) (f : Nat) (op : MemOp) :
    List Nat → List (Nat × Tlb) → List (Nat × Bool) → Option (Nat × Rank6) → Rank6
  | [], acc, miss, bad =>
    if !miss.isEmpty then .miss miss
    else match bad with
      | some b => b.2
      | none => .ok acc
  | ln :: rest, acc, miss, bad =>
    match s.rank6Line f op ln with
    | .use t => s.rank6Go f op rest (acc ++ [(ln, t)]) miss bad
    | .walk h => s.rank6Go f op rest acc (miss ++ [(ln, h)]) bad
    | .none => s.rank6Go f op rest acc miss bad
    | .bad l r =>
      s.rank6Go f op rest acc miss (match bad with
        | some b => some (if l < b.1 then (l, r) else b)
        | none => some (l, r))

/-- The function whose translation an access of the acting group uses (R29, R362). -/
def State.accFn (s : State) : Nat := if s.grp.lvl == .user then s.wg.fn else s.grp.hfn

/-- Whether an access must lie in the declared ranges (R168): user code through seg.glb. -/
def State.ranged (s : State) (sel : Nat) : Bool := sel == 1 && s.grp.lvl == .user

/-- An access with the helper lanes outside the declared ranges suppressed (R184). -/
def State.trimHelpers (s : State) (op : MemOp) : MemOp :=
  if s.ranged op.sel then
    { op with items := op.items.map (fun i =>
        if i.helper && !(s.declared s.wg.launch op.kind.writes i.addr (memWidth op.ty)) then { i with pass := false } else i) }
  else op

/-- Rank 6 of R184. -/
def State.rank6 (s : State) (op : MemOp) : Rank6 :=
  if s.ranged op.sel && op.parts.any (fun i =>
      !i.helper && !(s.declared s.wg.launch op.kind.writes i.addr (memWidth op.ty))) then .lease
  else s.rank6Go s.accFn op op.lines [] [] none

/-! ### Flits (17_device_boundary.md R413) -/

/-- One bit step of the CRC-64 of ECMA-182. -/
def crcBit (c : Nat) (b : Bool) : Nat :=
  let top := c.testBit 63 != b
  let c := c * 2 % 2 ^ 64
  if top then c ^^^ 0x42F0E1EBA9EA3693 else c

/-- The CRC-64 of ECMA-182 of bytes: not reflected, initial value 0, no final XOR (12_synchronisation.md R282, 17_device_boundary.md R413). -/
def crc64 (bs : List Byte) : Nat :=
  bs.foldl (fun c b => (List.range 8).foldl (fun c i => crcBit c (b.getLsbD (7 - i))) c) 0

/-- A port numbers a flit with 12 bits and keeps it among the last 1,024 (R413); `n` is the number of the request it carries. -/
def Link.send (x : Link) (n : Nat) : Link :=
  let body := Config.flitOf n x.out
  { x with
    out := (x.out + 1) % 4096
    buffer := mset (mdel x.buffer ((x.out + 3072) % 4096)) x.out (body ++ bytesOf 8 (crc64 body))
    wire := body ++ bytesOf 8 (crc64 body) }

/-- The fabric port by which a request to another package leaves carries it in a flit (R413, R414). -/
def State.sendFlit (s : State) (r : Req) : State :=
  if isHost (r.line * 128) || (s.localHum r.home).isSome then s
  else
    let p := s.fabricOf r
    if hasLink p.1 p.2 then
      s.setHum p.1 { s.humAt p.1 with links := mset (s.humAt p.1).links p.2 ((s.linkAt p.1 p.2).send r.id) }
    else s

/-! ### What a request does at its home (R212, R235, R236, R254, R255) -/

/-- The value of a word as the tray of a checkpointed function makes it: the latest held store to each byte
(R369). -/
def State.trayByte (s : State) (f a : Nat) : Option Byte :=
  (s.fnAt f).ck.tray.foldl (fun r i =>
    match i with
    | .store b w v => if b ≤ a && a < b + w then some (v.extractLsb' (8 * (a - b)) 8) else r
    | _ => r) none

/-- The copy of a word in a core's L1 that a plain load reads: the core does not own the word, the copy is present
and no older than 4,096 ns (R236). -/
def State.l1Word (s : State) (h c a : Nat) : Option Memory :=
  match mfind (s.coreAt h c).l1 (a / 128) with
  | none => none
  | some l =>
    if mget 0 s.owners (a / 4) != ownCore h c && l.have_.getLsbD (a / 4 % 32)
        && decide (s.chipTime < l.time + Config.l1MaxAge) then some l.data else none

/-- The two words of the aligned pair of an address. -/
def pairWords (a : Nat) : List Nat := [a / 8 * 8, a / 8 * 8 + 4]

/-- Make room for a line in a core's L1 of 512 lines (R198): the copy that leaves is a free choice (notes/assumptions 6). -/
def State.l1Room (s : State) (h c line : Nat) : State :=
  let k := s.coreAt h c
  let live := k.l1.filter (fun e => e.2.have_ != 0)
  if (mfind k.l1 line).isSome || decide (k.l1.length < Config.l1Lines) then s
  else if live.length < Config.l1Lines then s.setCoreAt h c { k with l1 := live }
  else
    let v := s.free
    let out := (live.map Prod.fst).getD (v.1.toNat % live.length) 0
    v.2.setCoreAt h c { k with l1 := mdel live out }

/-- Fill the aligned pair of a word into a core's L1, but for a word the core owns or one with a pending accumulator (R236,
R260): a line keeps the time of its first fill, and a pair is filled and dropped as one, so that a 64-bit load is never
torn (R185). -/
def State.l1Fill (s : State) (h c a : Nat) : State :=
  let s := s.l1Room h c (a / 128)
  let k := s.coreAt h c
  let old : L1Line := mget {} k.l1 (a / 128)
  let l : L1Line := if s.chipTime < old.time + Config.l1MaxAge && old.have_ != 0 then old else { time := s.chipTime }
  let l := l.keep (~~~(pairBits (a / 4)))
  let ws := (pairWords a).filter (fun w => mget 0 s.owners (w / 4) != ownCore h c && !(s.winPending w 4))
  let l := ws.foldl (fun (l : L1Line) w =>
    { l with data := writeN l.data (w % 128) 4 (readN s.mem w 4),
             have_ := l.have_ ||| BitVec.ofNat 32 (2 ^ (w / 4 % 32)) }) l
  s.setCoreAt h c { k with l1 := mset k.l1 (a / 128) l }

/-- One byte as a load sees it. -/
def State.loadByte (s : State) (h c f a : Nat) (l1 : Bool) : Byte :=
  match s.trayByte f a with
  | some b => b
  | none =>
    if l1 then
      match s.l1Word h c a with
      | some d => memRead d (a % 128)
      | none => memRead s.mem a
    else memRead s.mem a

/-- The number in `n` bytes as a load sees them. -/
def State.loadN (s : State) (h c f a : Nat) (l1 : Bool) : Nat → Nat
  | 0 => 0
  | n + 1 => (s.loadByte h c f a l1).toNat + 256 * s.loadN h c f (a + 1) l1 n

/-- Whether a core may read an access of `w` bytes from its L1: a copy of each of its words is there. -/
def State.l1Has (s : State) (h c a w : Nat) : Bool :=
  (s.l1Word h c a).isSome && (decide (w ≤ 4) || (s.l1Word h c (a + 4)).isSome)

/-- Read the bytes of a lane's load as one access (R185): from the L1 where it holds them, otherwise at the home, which
drains their accumulators and fills the L1, or drops an older copy from it (R236). -/
def State.loadLane (s : State) (r : Req) (i : LaneAcc) : State × DWord :=
  let w := memWidth r.ty
  let plain := !r.sc && !(isHost (r.line * 128))
  if plain && !r.acq && s.l1Has r.who.h r.who.c i.addr w then
    (s, BitVec.ofNat 64 (s.loadN r.who.h r.who.c r.fn i.addr true w))
  else
    let s := s.drainFor (i.addr / 4 * 4) (max 4 w)
    let s := if plain then s.l1Fill r.who.h r.who.c i.addr else s.dropPair (ownCore r.who.h r.who.c) (i.addr / 4)
    (s, BitVec.ofNat 64 (s.loadN r.who.h r.who.c r.fn i.addr false w))

/-- One lane operation at its home (R235, R254, R255, R259): the value a load or atomic returns. -/
def State.lanePerform (s : State) (r : Req) (i : LaneAcc) : State × DWord :=
  let w := memWidth r.ty
  let own := ownCore r.who.h r.who.c
  match r.kind with
  | .load => s.loadLane r i
  | .store =>
    if r.tray then
      (s.putTray r.fn [.store i.addr w i.val], 0)
    else ((s.drainFor i.addr w).performStore r.fn own i.addr w i.val.toNat, 0)
  | .atom op =>
    let s := s.drainFor i.addr w
    let old := BitVec.ofNat 64 (readN s.mem i.addr w)
    (s.performStore r.fn own i.addr w (atomNew op r.ty old i.val i.val2).toNat, old)
  | .red op =>
    if r.rwin then
      let s := s.dropPair own (i.addr / 4)
      let c := winOne op r.ty r.fn s.chipTime i.val
      if (s.localHum r.home).isSome then (s.winAccept r.home i.addr c, 0)
      else
        let t : Travel := {
          addr := i.addr, home := r.home, fn := r.fn
          froms := r.slots.map (fun x => (coreKey r.who.h r.who.c, x, r.id)), acc := c }
        ({ s with travel := s.travel ++ [t] }, 0)
    else
      let s := s.drainFor i.addr w
      let old := BitVec.ofNat 64 (readN s.mem i.addr w)
      (s.performStore r.fn own i.addr w (atomNew op r.ty old i.val 0).toNat, 0)

/-- Whether a load's lanes all find their words in the core's L1. -/
def State.l1Hit (s : State) (r : Req) : Bool :=
  r.kind == .load && !r.sc && !r.acq && !(isHost (r.line * 128))
    && r.items.all (fun i => s.l1Has r.who.h r.who.c i.addr (memWidth r.ty))

/-- Perform a request at its home: its lane operations in ascending order (R254). A line found poisoned performs
none of an atomic's operations and drops a reduction's (R257); an unassigned line is logged (R411). -/
def State.performReq (s : State) (r : Req) : State × List LaneAcc :=
  let s := if s.assigned (r.line * 128) then s else s.logErr 0 3 r.who.h (r.line * 128) 0
  let s := if r.tray then s else s.sendFlit r
  let s := if r.tray || s.l1Hit r then s else s.l2Touch r.fn (r.home, r.slice) r.sp r.line r.kind.writes
  let dropped := s.linePoison r.line && (match r.kind with | .load => false | .store => !(s.assigned (r.line * 128)) | _ => true)
  if dropped then
    let s := match r.kind with
      | .store => s
      | _ => s.logErr r.fn 13 r.who.h ((r.items.head?.map (fun i => i.addr)).getD (r.line * 128)) 0
    (s, r.items.map (fun i => { i with val := 0 }))
  else if r.tray && (match r.kind with | .red _ => true | _ => false) then
    (s.putTray r.fn [.red r], [])
  else
    let whole := r.kind == MemKind.store && (List.range 128).all (fun b => r.items.any (fun i =>
      decide (i.addr ≤ r.line * 128 + b) && decide (r.line * 128 + b < i.addr + memWidth r.ty)))
    let p := r.items.foldl (fun (p : State × List LaneAcc) i =>
      let q := p.1.lanePerform r i
      (q.1, p.2 ++ [{ i with val := q.2 }])) (s, [])
    let s := p.1
    (if !whole then s
     else if r.tray then s.putTray r.fn [.heal r.line]
     else { s with poison := s.poison.filter (· != r.line) }, p.2)

/-! ### Requests of an access and completion (R185, R187) -/

/-- Whether a line request of a checkpointed function waits in its tray: through seg.fab or seg.host, or a window reduction
in another package (R262, R369). -/
def State.traysReq (s : State) (f : Nat) (op : MemOp) (t : Tlb) (pa : Nat) : Bool :=
  s.trays f op.sel
    || ((s.fnAt f).ck.en && f != 0 && t.rwin && (match op.kind with | .red _ => true | _ => false)
        && (s.localHum (s.homeOf t pa).1).isNone)

/-- The requests of an access, one for each line in order. -/
def State.reqsOf (s : State) (op : MemOp) (ts : List (Nat × Tlb)) : List Req :=
  ts.map (fun p =>
    let items := (op.parts.filter (fun i => i.addr / 128 == p.1)).map (fun i => { i with addr := p.2.hpa i.addr })
    let slots := (items.filter (fun i => !i.helper)).map (fun i => mget 0 s.grp.roster i.lane)
    let pa := p.2.hpa (p.1 * 128)
    { who := s.cur, slots := slots, fn := s.accFn, va := p.1 * 128, line := pa / 128,
      expiry := p.2.expiry, kind := op.kind, ty := op.ty, items := items, sc := p.2.sc, rwin := p.2.rwin,
      acq := op.acq, rel := op.rel, sel := op.sel, tray := s.traysReq s.accFn op p.2 pa, glb := s.ranged op.sel,
      launch := s.wg.launch, home := (s.homeOf p.2 pa).1, slice := (s.homeOf p.2 pa).2, sp := p.2.sp })

/-- A loaded value extended to its register (R185, R254). -/
def extendLoad (t : Ty) (v : DWord) : DWord :=
  match t with
  | .s8 => ((v.extractLsb' 0 8).signExtend 32).setWidth 64
  | .s16 => ((v.extractLsb' 0 16).signExtend 32).setWidth 64
  | .n8 => (v.extractLsb' 0 8).setWidth 64
  | .n16 => (v.extractLsb' 0 16).setWidth 64
  | _ => v

/-- The value returned to a lane, or 0 (R185, R254). -/
def gotVal (got : List LaneAcc) (l : Nat) : DWord :=
  match got.find? (fun i => i.lane == l) with
  | some i => i.val
  | none => 0

/-- Whether an access writes its data register. -/
def MemKind.returns (k : MemKind) : Bool :=
  match k with
  | .load => true
  | .atom _ => true
  | _ => false

/-- Write the report mask: the lanes of E out of bounds (R185). -/
def State.report (s : State) (op : MemOp) : State :=
  match op.rep with
  | none => s
  | some m => s.setMBits m.toNat op.exe (~~~op.inb)

/-- The instruction is done: what it held is dropped and the PC advances. -/
def State.endMem (s : State) : State :=
  (s.setGrp { s.grp with tlb := [], denied := [], held := none, wait := .ready }).advance

/-- Complete an access with the values returned: registers and report mask as one event (R185, R254), and the
acquire of `ld.acq` (R196). -/
def State.complete (s : State) (op : MemOp) (got : List LaneAcc) : State :=
  let s := if op.kind.returns then
      s.writeTy op.ty op.live op.dst.toNat (fun l => extendLoad op.ty (gotVal got l)) else s
  let s := s.report op
  (if op.acq then s.acquire else s).endMem

/-! ### Scratchpad accesses (R188 to R192, R254 to R257) -/

/-- The core whose scratchpad an access of a space touches, and the byte, from its address. -/
def scrCore (s : State) (op : MemOp) (a : Nat) : Nat × Nat :=
  if op.space == .peer then (a / 2 ^ 20, a % 2 ^ 20) else (coreKey s.cur.h s.cur.c, a)

/-- Whether every line an access touches is present (R190). -/
def State.allPresent (s : State) (op : MemOp) : Bool :=
  op.parts.all (fun i =>
    let p := scrCore s op i.addr
    !((mget {} s.cores p.1).absent.contains (p.2 / 128)))

/-- The lowest lane of E that touches a poisoned scratchpad line (R204). -/
def State.scrPoison (s : State) (op : MemOp) : Option LaneAcc :=
  op.parts.find? (fun i =>
    let p := scrCore s op i.addr
    !i.helper && (mget {} s.cores p.1).poison.contains (p.2 / 128))

/-- Write bytes of a core's scratchpad. -/
def State.setScr (s : State) (key a n v : Nat) : State :=
  let k := mget {} s.cores key
  { s with cores := mset s.cores key { k with scratch := writeN k.scratch a n v } }

/-- Whether the scratchpad line of an access is poisoned. -/
def State.scrBad (s : State) (op : MemOp) (a : Nat) : Bool :=
  let p := scrCore s op a
  (mget {} s.cores p.1).poison.contains (p.2 / 128)

/-- One lane's access at its bank; an atomic operation on a poisoned line has no effect and returns 0 (R257). -/
def State.scrLane (s : State) (op : MemOp) (i : LaneAcc) : State × DWord :=
  let p := scrCore s op i.addr
  let w := memWidth op.ty
  let bad := s.scrBad op i.addr
  let old := BitVec.ofNat 64 (readN (mget {} s.cores p.1).scratch p.2 w)
  match op.kind with
  | .load => (s, if bad && i.helper then 0 else old)
  | .store => (s.setScr p.1 p.2 w i.val.toNat, 0)
  | .atom o => if bad then (s, 0) else (s.setScr p.1 p.2 w (atomNew o op.ty old i.val i.val2).toNat, old)
  | .red o => if bad then (s, 0) else (s.setScr p.1 p.2 w (atomNew o op.ty old i.val 0).toNat, 0)

/-- Log each poisoned line that an atomic operation of a function drops, by the address of its first access (R257). -/
def State.scrDrops (s : State) (f : Nat) (op : MemOp) : State :=
  match op.kind with
  | .load => s
  | .store => s
  | _ => op.lines.foldl (fun t ln =>
      if s.scrBad op (ln * 128) then
        let a := ((op.parts.find? (fun i => i.addr / 128 == ln)).getD {}).addr
        t.logErr f 13 t.cur.h (scrCore s op a).2 0
      else t) s

/-- The lines that one store instruction writes whole lose their poison (R204). -/
def State.scrHeal (s : State) (op : MemOp) : State :=
  if op.kind == MemKind.store then
    op.lines.foldl (fun t ln =>
      if (List.range 128).all (fun b => op.parts.any (fun i =>
          decide (i.addr ≤ ln * 128 + b) && decide (ln * 128 + b < i.addr + memWidth op.ty))) then
        let p := scrCore s op (ln * 128)
        let k := mget {} t.cores p.1
        { t with cores := mset t.cores p.1 { k with poison := k.poison.filter (· != p.2 / 128) } }
      else t) s
  else s

/-- The lanes' accesses of a scratchpad access of a function at their banks, in ascending order (R192, R254). -/
def State.scrAccess (s : State) (f : Nat) (op : MemOp) : State × List LaneAcc :=
  let p := op.parts.foldl (fun (p : State × List LaneAcc) i =>
    let q := p.1.scrLane op i
    (q.1, p.2 ++ [{ i with val := q.2 }])) (s.scrDrops f op, [])
  (p.1.scrHeal op, p.2)

/-- Perform a scratchpad access in full and complete it (R190, R192). -/
def State.scrPerform (s : State) (op : MemOp) : State :=
  let p := s.scrAccess s.wg.fn op
  p.1.complete op p.2

/-- The words of the scratchpads that an access touches. -/
def State.scrWords (s : State) (op : MemOp) : List (Nat × Nat) :=
  op.parts.flatMap (fun i =>
    let p := scrCore s op i.addr
    (List.range ((p.2 % 4 + memWidth op.ty + 3) / 4)).map (fun j => (p.1, p.2 / 4 + j)))

/-- Whether an access numbered before `seq` of the core is parked, or waits for its release, on a word that this one touches: a
core's accesses to a word take effect in issue order (R237). -/
def State.scrBehind (s : State) (op : MemOp) (seq : Nat) : Bool :=
  let meets := fun (o : MemOp) => (s.scrWords o).any (fun w => (s.scrWords op).contains w)
  s.core.groups.any (fun e => match e.2.wait with
    | .park o n => e.1 != s.cur.g && decide (n < seq) && meets o
    | _ => false)
  || s.core.pend.any (fun p => match p.what with
    | .bank _ o => decide (p.upto < seq) && meets o
    | _ => false)

/-- The threads of a set that have passed a fence for stores: their stores are releases (R239). -/
def State.fencedOf (s : State) (slots : List Nat) : List Nat := slots.filter (fun t => (mget {} s.core.slots t).fenced)

/-- Whether the earlier accesses of those threads of a set that have passed a fence for stores are done (R239). -/
def State.fencesMet (s : State) (slots : List Nat) : Bool := s.drained (s.fencedOf slots)

/-- A reduction in a scratchpad never stalls its group (R258): one that is a release after a fence for stores takes its effect once
its threads' earlier accesses are done (R239). -/
def State.scrDefer (s : State) (op : MemOp) : State :=
  let n := s.reqCtr
  let p : Pend := { upto := n, slots := s.fencedOf (s.slotsOf op.exe), what := .bank s.wg.fn op }
  ((({ s with reqCtr := n + 1 } : State).setCore { s.core with pend := s.core.pend ++ [p] }).report op).endMem

/-- A scratchpad access whose lines are present acts, or waits for its release. -/
def State.scrAct (s : State) (op : MemOp) : State :=
  match op.kind with
  | .red _ => if s.fencesMet (s.slotsOf op.exe) then s.scrPerform op else s.scrDefer op
  | _ => s.scrPerform op

/-- A checked scratchpad access: POISON at rank 7, parking at rank 8, otherwise performed (R184, R190, R257). -/
def State.scrGo (s : State) (op : MemOp) : State :=
  match (if op.kind.returns then s.scrPoison op else none) with
  | some i => s.trap tPoison i.lane i.off
  | none =>
    if s.allPresent op && !(s.scrBehind op (s.reqCtr + 1)) then s.scrAct op
    else ({ s with reqCtr := s.reqCtr + 1 } : State).setWait (.park op (s.reqCtr + 1))

/-! ### Accesses of translated spaces -/

/-- The walk an access asks for on a line, or on a line that helper lanes alone touch. -/
def State.walkFor (s : State) (op : MemOp) (line : Nat × Bool) : Walk :=
  let i := (op.parts.find? (fun i => i.helper == line.2 && i.addr / 128 == line.1)).getD {}
  { lane := i.lane, off := i.off, who := s.cur, fn := s.accFn, va := line.1 * 128, write := op.kind.writes,
    glb := s.ranged op.sel && !line.2, launch := s.wg.launch, helper := line.2 }

/-- The lowest lane of E whose line is poisoned, when the access reads (R184 rank 7, R257). -/
def State.rank7 (s : State) (op : MemOp) (ts : List (Nat × Tlb)) : Option LaneAcc :=
  if op.kind.returns then
    op.parts.find? (fun i => !i.helper && ts.any (fun p => p.1 == i.addr / 128 && s.linePoison (p.2.hpa (p.1 * 128) / 128)))
  else none

/-! ### Reservations (07_work_creation.md R172, R173) -/

/-- The number of a fabric port of the package: two for each hummock, then the third ports of hummocks 0 and 7
(01_machine.md R12; notes/assumptions 16). -/
def fabricPort (h l : Nat) : Nat := if l < 2 then 2 * h + l else if h = 0 then 16 else 17

/-- The final resource of a request, as Table 7.5 numbers the shares: the HBM channel of its line, the mesh link or the fabric
port it leaves by; none for host memory. -/
def State.finalRes (s : State) (r : Req) : Option Nat :=
  let a := r.line * 128
  if isHost a then none
  else if s.remote a || (s.localHum r.home).isNone then
    some (64 + fabricPort (s.fabricOf r).1 (s.fabricOf r).2)
  else if r.home % 8 != r.who.h then some (78 + meshPort r.who.h (meshNext r.who.h (r.home % 8)))
  else some (4 * (a / 2 ^ 37 % 16) + Config.hbmChannel r.line % 4)

/-- A launch's share of a resource: the lesser of its kernel's `.reserve` value and its queue's SHARE (R172). -/
def State.shareOf (s : State) (l res : Nat) : Nat :=
  let x := s.launchAt (s.rootLaunch l)
  let q := mget {} (s.humAt x.hum).queues x.queue
  let k := x.kernel
  Nat.min (if res < 64 then k.resHbm else if res < 82 then k.resFab else k.resMesh) (mget 0 q.share res)

/-- The bytes that a resource carries in 47 uncore cycles, which are 25 ns: an HBM channel 819.2 B/ns, a fabric port
224 B/ns (01_machine.md R19; notes/assumptions 16). -/
def rateOf (res : Nat) : Nat := if res < 64 then 20480 else if res < 82 then 5600 else 47 * Config.meshRate

/-- The depth of a token bucket in bytes. -/
def bucketDepth : Nat := 16384

/-- The level of the token bucket of a queue and resource now (R173): it refills at share/256 of the resource's rate.  A bucket begins
empty: DESIGN CHOICE, the spec states no initial level (notes/assumptions 16). -/
def State.bucket (s : State) (l res : Nat) : Nat :=
  let x := s.launchAt (s.rootLaunch l)
  let b := mget (0, 0) (mget {} (s.humAt x.hum).queues x.queue).toks res
  Nat.min bucketDepth (b.1 + (s.uc - b.2) * rateOf res * s.shareOf l res / (47 * 256))

/-- Mark a request reserved as it issues, if the bucket of its final resource can pay its line, and debit the bucket
(R173).  A request pays the 128 bytes of its line: DESIGN CHOICE, the spec states no size (notes/assumptions 16). -/
def State.markReq (s : State) (r : Req) : State × Req :=
  let x := s.launchAt (s.rootLaunch r.launch)
  if x.kernel.resHbm = 0 && x.kernel.resFab = 0 && x.kernel.resMesh = 0 then (s, r)
  else match s.finalRes r with
  | none => (s, r)
  | some res =>
    let n := s.bucket r.launch res
    let pays := decide (s.shareOf r.launch res ≠ 0) && decide (128 ≤ n)
    let d := s.humAt x.hum
    let q := mget {} d.queues x.queue
    (if pays then s.setHum x.hum { d with queues := mset d.queues x.queue { q with toks := mset q.toks res (n - 128, s.uc) } }
     else s, { r with mark := pays })

/-- Mark the requests of an instruction in their order. -/
def State.markReqs (s : State) (rs : List Req) : State × List Req :=
  rs.foldl (fun (p : State × List Req) r =>
    let q := p.1.markReq r
    (q.1, p.2 ++ [q.2])) (s, [])

/-! ### Issuing the requests of an access -/

/-- Whether a window reduction of a request's core is on its way to the request's line (R237, R262). -/
def State.travels (s : State) (r : Req) : Bool :=
  s.travel.any (fun t => t.addr / 128 == r.line && t.froms.any (fun x => x.1 == coreKey r.who.h r.who.c))

/-- The lines of the Enlarger and the matrix engines that are on their way (R173). -/
def State.engineReqs (s : State) : List Req :=
  s.hums.flatMap (fun (d : Nat × Hum) => d.2.enl.flatMap (fun (j : Nat × CopyJob) => j.2.sent.map Prod.snd))
    ++ s.cores.flatMap (fun (e : Nat × Core) =>
        if e.2.status == .running then e.2.engine.queue.flatMap (fun op => op.sent) else [])

/-- Whether requests are performed as they issue: the model's memory answers at once, no access is on its way, no home's
clock is at fault, no link on the way is fenced, and a release has nothing to wait for (R214, R239, R398;
notes/assumptions 55). -/
def State.atOnce (s : State) (rs : List Req) : Bool :=
  s.prompt && s.cores.all (fun e => e.2.reqs.isEmpty) && s.engineReqs.isEmpty && s.core.outs.isEmpty && s.core.pend.isEmpty
    && rs.all (fun r => !(s.faulty (512 + (s.localHum r.home).getD 64)) && !(s.overFenced r)
      && (!r.rel || s.drained r.slots) && !(s.travels r))

/-- A request as it issues, numbered: a release form, and a store, atomic or reduction of a thread that has passed a fence for
stores, follows every earlier access of its threads (R239). -/
def State.numbered (s : State) (id : Nat) (r : Req) : Req :=
  if r.rel || (r.kind.writes && !(s.fencedOf r.slots).isEmpty) then { r with id := id, rel := true, after := id - 1 }
  else { r with id := id }

/-- The record of an access that is on its way (R64, R185). -/
def State.outOf (s : State) (op : MemOp) (id : Nat) : Outst :=
  let ls := lanesOf (op.live &&& s.grp.member)
  { id := id, grp := some s.cur.g, op := op
    slots := ls.foldl (fun m l => mset m (mget 0 s.grp.roster l) l) []
    regs := ls.map (fun l => (l, s.physReg l op.dst.toNat))
    pc := s.grp.pc }

/-- Perform the requests of an access in their order. -/
def State.performAll (s : State) (rs : List Req) : State × List LaneAcc :=
  rs.foldl (fun (p : State × List LaneAcc) r =>
    let q := p.1.performReq r
    (q.1, p.2 ++ q.2)) (s, [])

/-- Put numbered requests on their way to their homes, with what they return to. -/
def State.sendReqs (s : State) (rs : List Req) (os : List Outst) : State :=
  let k := s.core
  ({ s with reqCtr := s.reqCtr + 1 } : State).setCore { k with reqs := k.reqs ++ rs, outs := k.outs ++ os }

/-- The threads of the lanes of E whose access was dropped. -/
def State.droppedOf (s : State) (op : MemOp) : List Nat :=
  s.slotsOf (maskBy (fun l => op.exe.getLsbD l && op.items.any (fun i => i.lane == l && !i.pass)))

/-- A lane of `st.rel` that writes nothing keeps its ordering role (R196): its release takes effect once its thread's earlier
accesses are done. -/
def State.relDropped (s : State) (op : MemOp) : State :=
  let slots := s.droppedOf op
  if op.rel && !(s.drained slots) then
    s.setCore { s.core with pend := s.core.pend ++ [{ upto := s.reqCtr, slots := slots, what := .nothing }] }
  else s

/-- Perform the requests of an access, or put them on their way to their homes: the group goes on, but after `ld.acq` it waits for
the data (R64, R196, R212). -/
def State.issueReqs (s : State) (op : MemOp) (rs : List Req) : State :=
  let m := (s.relDropped op).markReqs (rs.map (s.numbered (s.reqCtr + 1)))
  if s.atOnce m.2 || rs.isEmpty then
    let p := m.1.performAll m.2
    p.1.complete op (p.2.filter (fun i => !(i.helper && s.linePoison (i.addr / 128))))
  else
    let t := m.1.sendReqs m.2 [s.outOf op (s.reqCtr + 1)]
    if op.acq then t.setWait (.mem (s.reqCtr + 1)) else t.endMem

/-- Whether the undo log or the tray of a function has no room for a write (R369). -/
def State.ckFull (s : State) (f : Nat) : Bool :=
  let k := (s.fnAt f).ck
  k.en && f != 0 && (decide (k.logBytes < 144 * (k.entries + 33)) || decide (trayBytes < 16 * (k.tray.length + 33)))

/-- Whether a function's undo log is too full for the blocks that an instruction may write: its groups are not ready until the
commit (R369). -/
def State.logTight (s : State) (f : Nat) : Bool :=
  let k := (s.fnAt f).ck
  k.en && f != 0 && decide (k.logBytes < 144 * (k.entries + 4096))

/-- A checked access of a translated space from rank 6 on (R184). -/
def State.memGo (s : State) (op : MemOp) : State :=
  let op := s.trimHelpers op
  match s.rank6 op with
  | .lease => s.endLaunch s.wg.launch stLease
  | .trap code lane addr detail => s.trap code lane addr detail
  | .miss lines => s.askWalks (lines.map (s.walkFor op))
  | .ok ts =>
    match s.rank7 op ts with
    | some i =>
      let s := if ts.any (fun p => p.1 == i.addr / 128 && s.assigned (p.2.hpa (p.1 * 128))) then s
               else s.logErr 0 3 s.cur.h i.addr 0
      s.trap tPoison i.lane i.off
    | none =>
      let s := ts.foldl (fun t p => t.keepTlb p.2) s
      s.issueReqs op (s.reqsOf op ts)

/-- What an access that bypasses the line path waits for before it acts: one that writes, but for a reduction, follows its threads'
earlier accesses after a fence for stores, and one that returns a value, which a later fence can make an acquire point, follows
their earlier releases (R239, R258; notes/assumptions 55). -/
def State.bankWait (s : State) (op : MemOp) : Option Wait :=
  let slots := s.slotsOf op.exe
  let red := match op.kind with
    | .red _ => true
    | _ => false
  if op.kind.writes && !red && !(s.fencesMet slots) then some (.drain (s.fencedOf slots) none)
  else if op.kind.returns && !(s.released slots) then some (.order slots)
  else none

/-- A checked access goes to its space. -/
def State.accGo (s : State) (op : MemOp) : State :=
  let bank := fun (_ : Unit) =>
    match s.bankWait op with
    | some w => s.setWait w
    | none => s.scrGo op
  match op.space with
  | .scr => bank ()
  | .peer => bank ()
  | _ => s.memGo op

/-- Act on the outcome of the checks: no executing lane has no effect (R184), a trap is taken, else the access
goes on. -/
def State.chkGo (s : State) (c : Chk) (go : MemOp → State) : State :=
  match c with
  | .empty => s.endMem
  | .trap code lane addr => s.trap code lane addr
  | .go op => go op

/-- A record form from its first check to its effect: an acquire form first waits for the thread's earlier releases, a
release in the scratchpad for its earlier accesses (R196, R239), and a writer while its function's log or tray is full
(R369). -/
def State.recForm (s : State) (f : Form) (m : MReg) (b : Reg) (buf : BufR) (off : Int) : State :=
  let s := if s.grp.held.isNone then s.setGrp { s.grp with held := some (mget {} s.wg.b buf.toNat) } else s
  s.chkGo (s.recCheck f m b buf off) (fun op =>
    let slots := s.slotsOf (s.exe m)
    if f.acq && !(s.released slots) then s.setWait (.order slots)
    else if f.rel && op.space == .scr && !(s.drained slots) then s.setWait (.drain slots none)
    else if f.kind.writes && s.ckFull s.accFn then s.setWait (.drain [] (some s.accFn))
    else s.accGo op)

/-- A direct scratchpad form. -/
def State.scrForm (s : State) (f : Form) (m : MReg) (b : Reg) (off : Int) : State :=
  s.chkGo (s.scrCheck f m b off) (fun op => s.accGo op)

end Sys2Proof.Machine
end

