-- ==== Sys2Proof/Machine/Mem.lean ====
section
/-! DEFINITION. The meanings of the memory access instructions (08_memory_access.md), the lease instructions
(09_translation_leases.md R232) and the atomics (11_atomics.md), but for the map and peer forms. -/

namespace Sys2Proof.Machine

/-! ### Loads and stores (R184 to R188, R196) -/

/-- `ld` (R184, R185). -/
def execLd (ty : Ty) (o : RecOp) (s : State) : Out :=
  .next (s.recForm { kind := .load, ty := ty, dst := o.a, rep := o.rep, sels := [0, 1, 2, 6, 7] }
    o.m o.b o.buf o.off.toInt)

/-- `st` (R184, R185). -/
def execSt (ty : Ty) (o : RecOp) (s : State) : Out :=
  .next (s.recForm { kind := .store, ty := ty, dst := o.a, rep := o.rep, sels := [1, 2, 6, 7] }
    o.m o.b o.buf o.off.toInt)

/-- `ld.acq` (R196): it issues once the thread's earlier releases have taken effect (R239; notes/assumptions 12). -/
def execLdAcq (ty : Ty) (o : RecOp) (s : State) : Out :=
  .next (s.recForm { kind := .load, ty := ty, dst := o.a, rep := o.rep, sels := [1, 2, 6, 7], acq := true }
    o.m o.b o.buf o.off.toInt)

/-- `st.rel` (R196). -/
def execStRel (ty : Ty) (o : RecOp) (s : State) : Out :=
  .next (s.recForm { kind := .store, ty := ty, dst := o.a, rep := o.rep, sels := [1, 2, 6, 7], rel := true }
    o.m o.b o.buf o.off.toInt)

/-- `lds` (R188). -/
def execLds (ty : Ty) (o : ScrOp) (s : State) : Out :=
  .next (s.scrForm { kind := .load, ty := ty, dst := o.a } o.m o.b o.off.toInt)

/-- `sts` (R188). -/
def execSts (ty : Ty) (o : ScrOp) (s : State) : Out :=
  .next (s.scrForm { kind := .store, ty := ty, dst := o.a } o.m o.b o.off.toInt)

/-! ### Accumulator reads (R194) -/

/-- The element of the accumulator memory at a byte. -/
def Engine.accWord (g : Engine) (a : Nat) : Word := mget 0 g.acc (a / 4)

/-- Perform `ldacc` once the earlier qm operations have completed: an acquire for the tiles they wrote
(Table 10.1). -/
def State.ldaccPerform (s : State) (op : MemOp) : State :=
  let k := s.core
  (s.acquire).complete op (op.items.map (fun i =>
    { i with val := if i.pass then (k.engine.accWord i.addr).setWidth 64 else 0 }))

/-- The checks of `ldacc` (R194): a workgroup that does not hold the engine takes ACCESS (R321). -/
def State.accCheck (s : State) (f : Form) (m : MReg) (b : Reg) (off : Int) : Chk :=
  let e := s.exe m
  let live := s.live m
  let sg := s.segOf 3
  let o := fun (l : Nat) => ((s.lreg l b.toNat).toNat : Int) + off
  let x := fun (l : Nat) => (o l % (2 ^ 64 : Nat)).toNat
  let fits := fun (l : Nat) => decide (0 ≤ o l) && decide (o l + 4 ≤ (sg.size : Int))
  let es := lanesOf e
  if e = 0 then .empty
  else if !(s.wg.holds && sg.valid && sg.r) then .trap tAccess (lowest e) (x (lowest e))
  else match es.find? (fun l => !(fits l)) with
  | some l => .trap tBounds l (x l)
  | none => match es.find? (fun l => x l % 4 != 0) with
  | some l => .trap tAlign l (x l)
  | none => .go {
      kind := .load, space := .acc, sel := 3, ty := .b32, dst := f.dst, inb := maskBy fits, live := live, exe := e,
      items := (lanesOf live).map (fun l =>
        { lane := l, helper := !(e.getLsbD l), off := x l, pass := fits l && x l % 4 == 0, addr := sg.base + x l }) }

/-- `ldacc` (R194): it parks until every operation placed in qm before it has completed, and as an acquire until its threads'
earlier releases have taken effect (R239). -/
def execLdacc (ty : Ty) (o : ScrOp) (s : State) : Out :=
  .next (s.chkGo (s.accCheck { kind := .load, ty := ty, dst := o.a } o.m o.b o.off.toInt) (fun op =>
    if s.wg.qm.accn ≤ s.wg.qm.donen && s.released (s.slotsOf op.exe) then s.ldaccPerform op
    else s.setWait (.ldacc op s.wg.qm.accn)))

/-! ### Prefetch and presence (R191, R195) -/

/-- The addresses a prefetch names: those of the lanes of E that pass ranks 1 to 4, declared where they must be (R195). -/
def State.prfAddrs (s : State) (ty : Ty) (m : MReg) (b : Reg) (buf : BufR) (off : Int) : List Nat :=
  let r := s.recordOf buf
  let sg := s.segOf r.sel
  let w := memWidth ty
  if r.usable && [0, 1, 6].contains r.sel && sg.valid && permOk .load r sg then
    (lanesOf (s.exe m)).filterMap (fun l =>
      let o : Int := ((s.lreg l b.toNat).toNat * r.stride : Nat) + off
      let x := r.segOff o
      let va := (sg.base + x) % 2 ^ 52
      if r.inb o w && (sg.base + x) % w == 0 && decide (x + w ≤ sg.size)
          && (!(s.ranged r.sel) || s.declared s.wg.launch false va w) then some va else none)
  else []

/-- The translation of a prefetched page: a cached one, or a walk that sets A and posts no request (R195, R221); none where
the page denies the load, its entry is being changed, or a clock is at fault (R214). -/
def State.prfWalk (s : State) (va : Nat) : State × Option Tlb :=
  match s.lookup s.accFn va { r := true } with
  | some t => (s, some t)
  | none =>
    if s.faulty (coreKey s.cur.h s.cur.c) then (s, none)
    else match s.devWalk s.cur.h s.accFn va { r := true } with
    | (s, .ok t) => (s.installTlb s.cur t, some t)
    | (s, _) => (s, none)

/-- Fill the words of a line that the core does not own. -/
def State.fillLine (s : State) (line : Nat) : State :=
  (List.range 32).foldl (fun t i =>
    if mget 0 t.owners (line * 32 + i) == ownCore t.cur.h t.cur.c then t
    else (t.drainFor (line * 128 + 4 * i) 4).l1Fill t.cur.h t.cur.c (line * 128 + 4 * i)) s

/-- Fill the line of a prefetched address, where the L1 may hold it and it is not poisoned: the L1, the home L2 slice or both, as the
free values of number `n` say (R195, R198, R204; notes/assumptions 6). -/
def State.prfLine (s : State) (n va : Nat) : State :=
  match s.prfWalk va with
  | (s, none) => s
  | (s, some t) =>
    let pa := t.hpa va
    if t.sc || isHost pa || s.linePoison (pa / 128) || s.homeHolds (s.homeOf t pa) pa
        || !(s.pathOk s.wg.fn s.cur.h (s.cur.c / 8) (s.homeOf t pa)) then s
    else
      let s := if Config.prefetchFills n then s.fillLine (pa / 128) else s
      { s with l2 := if Config.prefetchL2 n then (s.l2At s.accFn t pa false).l2 else s.l2 }

/-- The lines of the addresses that a prefetch may read, each once. -/
def State.prfLines (s : State) (ty : Ty) (m : MReg) (b : Reg) (buf : BufR) (off : Int) : List Nat :=
  (s.prfAddrs ty m b buf off).foldl (fun ls a => if ls.contains (a / 128 * 128) then ls else ls ++ [a / 128 * 128]) []

/-- Prefetch a line, if its free values say that it is filled anywhere (R195). -/
def State.prfOne (s : State) (va : Nat) : State :=
  let t : State := { s with freeCtr := s.freeCtr + 1 }
  if Config.prefetchFills s.freeCtr || Config.prefetchL2 s.freeCtr then t.prfLine s.freeCtr va else t

/-- `prf` (R195): a hint; whether each line's L1 fill is made is a free value, and it is made at issue: DESIGN CHOICE, the spec leaves
both open (notes/assumptions 6). -/
def execPrf (ty : Ty) (m : MReg) (b : Reg) (buf : BufR) (off : BitVec 15) (s : State) : Out :=
  let u := (s.prfLines ty m b buf off.toInt).foldl State.prfOne s
  .next ((u.setGrp { u.grp with tlb := [], denied := [] }).advance)

/-- `present` (R191): never parks; a lane of E that reads 1 performs an acquire. -/
def execPresent (m d : MReg) (b : Reg) (off : BitVec 15) (s : State) : Out :=
  let e := s.exe m
  let sg := s.segOf 2
  let o := fun (l : Nat) => ((s.lreg l b.toNat).toNat : Int) + off.toInt
  let x := fun (l : Nat) => (o l % (2 ^ 64 : Nat)).toNat
  let fits := fun (l : Nat) => decide (0 ≤ o l) && decide (o l < (sg.size : Int))
  let bit := fun (l : Nat) => fits l && !(s.core.absent.contains ((sg.base + x l) / 128))
  .next (
    if e = 0 then s.advance
    else if !(s.released (s.slotsOf e)) then s.setWait (.order (s.slotsOf e))
    else if !sg.valid then s.trap tAccess (lowest e) (x (lowest e))
    else match (lanesOf e).find? (fun l => !(fits l)) with
    | some l => s.trap tBounds l (x l)
    | none =>
      let t := s.setMBits d.toNat (s.live m) (maskBy bit)
      (if (lanesOf e).any bit then t.acquire else t).advance)

/-! ### Fences (R197) -/

/-- The fence's condition for a set of threads (R197): a reduction on its way to another package counts as a store (R258,
R262), and a mode that acquires waits for the threads' earlier releases (R239). -/
def State.fenceDone (s : State) (mode : FenceMode) (slots : List Nat) : Bool :=
  let mine := fun (r : Req) => slots.any (fun t => r.slots.contains t)
  match mode with
  | .r => s.core.reqs.all (fun r => !(mine r && r.kind.returns))
      && s.core.outs.all (fun o => slots.all (fun t => (mfind o.slots t).isNone)) && s.released slots
  | .w => s.core.reqs.all (fun r => !(mine r && r.kind.writes))
      && s.travel.all (fun t => t.froms.all (fun x => x.1 != coreKey s.cur.h s.cur.c || !slots.contains x.2.1))
  | .rw => s.drained slots && s.released slots
  | .io => s.drained slots && s.released slots

/-- Each later store of some threads is a release (R239). -/
def State.markFenced (s : State) (slots : List Nat) : State :=
  s.setCore { s.core with slots := slots.foldl (fun m t => mset m t { mget {} m t with fenced := true }) s.core.slots }

/-- The end of a fence: modes .r, .rw and .io make the L1 self-invalidate (R197), and modes .w, .rw and .io make the threads'
later stores releases (R239). -/
def State.fenceEnd (s : State) (mode : FenceMode) (slots : List Nat) : State :=
  (match mode with
   | .r => s.acquire
   | .w => s.markFenced slots
   | _ => (s.markFenced slots).acquire).endMem

/-- `fence` (R197). -/
def execFence (m : MReg) (mode : FenceMode) (s : State) : Out :=
  .next (if s.exe m = 0 then s.advance
         else if s.fenceDone mode (s.slotsOf (s.exe m)) then s.fenceEnd mode (s.slotsOf (s.exe m))
         else s.setWait (.fence mode (s.exe m)))

/-! ### Buffer records (R182) -/

/-- The record held in 128 bits (Table 8.4). -/
def BufRec.ofNat (x : Nat) : BufRec :=
  { base := bitsOf x 0 52, stride := bitsOf x 52 24, extent := bitsOf x 76 32, esize := bitsOf x 108 3,
    swz := bitsOf x 111 3, sel := bitsOf x 114 3, pr := bitOf x 117, pw := bitOf x 118, pa := bitOf x 119,
    zf := bitOf x 120, valid := bitOf x 121 }

/-- The 128 bits of a record; reserved bits are zero. -/
def BufRec.toNat (r : BufRec) : Nat :=
  r.base % 2 ^ 52 + r.stride % 2 ^ 24 * 2 ^ 52 + r.extent % 2 ^ 32 * 2 ^ 76 + r.esize % 8 * 2 ^ 108
    + r.swz % 8 * 2 ^ 111 + r.sel % 8 * 2 ^ 114 + b2n r.pr * 2 ^ 117 + b2n r.pw * 2 ^ 118 + b2n r.pa * 2 ^ 119
    + b2n r.zf * 2 ^ 120 + b2n r.valid * 2 ^ 121

/-- The 128 bits of four registers of a lane, the lowest first. -/
def State.lquad (s : State) (l a : Nat) : Nat :=
  (s.lreg l a).toNat + (s.lreg l (a + 1)).toNat * 2 ^ 32 + (s.lreg l (a + 2)).toNat * 2 ^ 64
    + (s.lreg l (a + 3)).toNat * 2 ^ 96

/-- Write four registers of each lane of a set. -/
def State.writeQuad (s : State) (live : Word) (a : Nat) (f : Nat → Nat) : State :=
  (List.range 4).foldl (fun t i => t.writeLanes live (a + i) (fun l => BitVec.ofNat 32 (f l / 2 ^ (32 * i)))) s

/-- Write a register pair of each lane of a set. -/
def State.writePair (s : State) (live : Word) (a : Nat) (f : Nat → Nat) : State :=
  s.writeTy .n64 live a (fun l => BitVec.ofNat 64 (f l))

/-- Write a buffer record: of two groups that write it in one core cycle, the value of the lower active group number holds
(R182). -/
def State.setRec (s : State) (n : Nat) (r : BufRec) : State :=
  if s.outranked (65 + n) then s else s.setWg { s.wg with b := mset s.wg.b n r, kw := s.written (65 + n) }

/-- `brec` (R182): the record of the lowest lane of E. -/
def execBrec (m : MReg) (buf : BufR) (a : Reg) (s : State) : Out :=
  .next (if s.exe m = 0 then s.advance
         else (s.setRec buf.toNat (BufRec.ofNat (s.lquad (lowest (s.exe m)) a.toNat))).advance)

/-- `brrd` (R182). -/
def execBrrd (m : MReg) (a : Reg) (buf : BufR) (s : State) : Out :=
  .next (s.writeQuad (s.live m) a.toNat (fun _ => (mget {} s.wg.b buf.toNat).toNat)).advance

/-! ### Lease instructions (R232) -/

/-- A state whose walks read every entry at its home, not from the walk cache. -/
def State.uncached (s : State) (h : Nat) : State := s.setHum h { s.humAt h with wcache := [] }

/-- The reuse horizon that a query's walk gives, or 0 (R232, R408). -/
def State.horizonOf (s : State) (w : Walked) : Nat :=
  match w.res with
  | .ok _ _ => s.chipTime + leaseNs (pathMaxCls w.path) + 128
  | _ => 0

/-- A walk afresh of a page at its homes, for a query: it installs nothing and sets no A or D (R232). -/
def State.queryWalk (s : State) (h f va : Nat) : State × Walked :=
  let w := (s.uncached h).walkFull h f va {}
  (s.noteWalk f h w, w)

/-! ### Atomics (R250 to R257) -/

/-- `atom` (R253, R254). -/
def execAtom (op : AOp) (ty : Ty) (o : AtomRec) (s : State) : Out :=
  .next (s.recForm { kind := .atom op, ty := ty, dst := o.a, rep := o.rep, sels := [1, 2, 4, 6] }
    o.m o.b o.buf o.off.toInt)

/-- `red` (R253, R254). -/
def execRed (op : AOp) (ty : Ty) (o : AtomRec) (s : State) : Out :=
  .next (s.recForm { kind := .red op, ty := ty, dst := o.a, rep := o.rep, sels := [1, 2, 4, 6] }
    o.m o.b o.buf o.off.toInt)

/-- `atoms` (R256). -/
def execAtoms (op : AOp) (ty : Ty) (o : AtomScr) (s : State) : Out :=
  .next (s.scrForm { kind := .atom op, ty := ty, dst := o.a } o.m o.b o.off.toInt)

/-- `reds` (R256). -/
def execReds (op : AOp) (ty : Ty) (o : AtomScr) (s : State) : Out :=
  .next (s.scrForm { kind := .red op, ty := ty, dst := o.a } o.m o.b o.off.toInt)

end Sys2Proof.Machine
end

