-- ==== Sys2Proof/Machine/Sync.lean ====
section
/-! DEFINITION. The meanings of the barrier, convergence and channel instructions and of their events, with
priority inheritance (12_synchronisation.md; 07_work_creation.md R171). -/

namespace Sys2Proof.Machine

/-! ### Barriers (R265 to R278) -/

/-- A barrier of the acting group's workgroup. -/
def State.bar (s : State) (bar : Nat) : BView := s.barView s.cur.h s.cur.c s.grp.wgs bar

/-- The thread index of a lane of the acting group. -/
def State.tidxOf (s : State) (l : Nat) : Nat := (mget {} s.core.slots (mget 0 s.grp.roster l)).tidx

/-- The arrival record of a lane's thread. -/
def State.arrOf (s : State) (l : Nat) : Arrival := s.arrival s.cur.h s.cur.c s.grp.wgs (s.tidxOf l)

/-- Whether a lane's thread must be held: it has already arrived at the current phase (R273). -/
def State.mustHold (s : State) (bar l : Nat) : Bool :=
  !(s.bar bar).dormant && (s.arrOf l).arrivedAt bar (s.bar bar).phcnt

/-- Whether a core's requests reach the unit of a barrier: a gang or launch barrier's stands behind port 8 of the central crossbar
(R380). -/
def State.barReach (s : State) (h c w bar : Nat) : Bool :=
  decide (bar < 16) || s.reach (mget {} (s.coreAt h c).wgs w).fn h (c / 8) h 8

/-- A request for a barrier's unit that the crossbar denies is dropped and logged (R380). -/
def State.barDenied (s : State) (h c w : Nat) : State :=
  s.logErr 0 4 h (portPair (c / 8) 8) (mget {} (s.coreAt h c).wgs w).fn

/-- Whether a lane's arrival is one to count (R273). -/
def State.toCount (s : State) (bar l : Nat) : Bool := !(s.bar bar).dormant && (s.arrOf l).isMember bar

/-- Whether a lane's arrival is counted (R273): one that the crossbar denies is not (R380). -/
def State.mustCount (s : State) (bar l : Nat) : Bool := s.toCount bar l && s.barReach s.cur.h s.cur.c s.grp.wgs bar

/-- The arrivals of a set of lanes that are not held (R273): counted, marked, with the lanes that counted. -/
def State.arrive (s : State) (bar : Nat) (ls : List Nat) : State :=
  let b := s.bar bar
  let cs := ls.filter (fun l => s.mustCount bar l)
  let t := cs.foldl (fun t l => t.setMark s.cur.h s.cur.c s.grp.wgs (s.tidxOf l) bar (b.phcnt.getLsbD 0)) s
  if s.barReach s.cur.h s.cur.c s.grp.wgs bar || !(ls.any (s.toCount bar)) then t.addArrived s.cur.h s.cur.c s.grp.wgs bar cs.length
  else s.barDenied s.cur.h s.cur.c s.grp.wgs

/-- Whether a wait condition holds (R274). -/
def condHolds (b : BView) (c : BarCond) : Bool :=
  b.dormant || (match c with
    | .phase p => decide (1 ≤ (b.phcnt - p).toNat) && decide ((b.phcnt - p).toNat ≤ 2 ^ 31)
    | .changed p => b.phcnt != p)

/-- The end of a barrier wait: an acquire step, and the priorities it passed on return (R171, R274). -/
def State.waitEnd (s : State) : State := (s.acquire.endMem).inherit

/-- Wait for conditions, or go on at once where they hold (R274). -/
def State.waitFor (s : State) (bar : Nat) (counted : Word) (cs : List (Nat × BarCond)) : State :=
  if cs.all (fun c => condHolds (s.bar bar) c.2) then s.waitEnd
  else (s.setWait (.barWait bar counted cs)).inherit

/-- The arrivals of an instruction once their release points are satisfied: lanes that have arrived at the current
phase are held (R273); `bar.arw` then waits in its explicit form (R274). -/
def State.arriveGo (s : State) (bar : Nat) (lanes counted : Word) (arw : Bool) (cs : List (Nat × BarCond)) : State :=
  let p := (s.bar bar).phcnt
  let ls := lanesOf lanes
  let held := ls.filter (fun l => s.mustHold bar l)
  let go := ls.filter (fun l => !(s.mustHold bar l))
  let n := counted ||| maskOf (go.filter (fun l => s.mustCount bar l))
  let cs := if arw then cs ++ go.map (fun l => (l, BarCond.phase p)) else cs
  let t := s.arrive bar go
  if held.isEmpty then (if arw then t.waitFor bar n cs else t.endMem.inherit)
  else (t.setWait (.barArr bar (maskOf held) n arw (some p) cs)).inherit

/-- `bar.arr` or `bar.arw` (R272 to R274); the wait of `bar.arw` is an acquire point, which the threads' earlier releases
precede (R239). -/
def State.arriveInstr (s : State) (m : MReg) (bar : Nat) (arw : Bool) : State :=
  let e := s.exe m
  let b := s.bar bar
  if e = 0 then s.advance
  else if !b.valid then s.trap tBarUse
  else if b.broken then s.trap tBarBroken
  else if arw && !(s.released (s.slotsOf e)) then s.setWait (.order (s.slotsOf e))
  else if s.drained (s.slotsOf e) then s.arriveGo bar e 0 arw []
  else s.setWait (.barArr bar e 0 arw none [])

/-- `bar.arr` (R273). -/
def execBarArr (m : MReg) (bar : BarR) (s : State) : Out := .next (s.arriveInstr m bar.toNat false)
/-- `bar.arw` (R274). -/
def execBarArw (m : MReg) (bar : BarR) (s : State) : Out := .next (s.arriveInstr m bar.toNat true)

/-- The condition a lane of `bar.wait` waits for, if any (R274). -/
def State.waitCond (s : State) (bar : Nat) (p : Option Reg) (l : Nat) : Option BarCond :=
  let b := s.bar bar
  match p with
  | some r => some (.phase (s.lreg l r.toNat))
  | none =>
    if b.dormant then none
    else if (s.arrOf l).isMember bar && !((s.arrOf l).arrivedAt bar b.phcnt) then none
    else some (.changed b.phcnt)

/-- `bar.wait` (R274). -/
def execBarWait (m : MReg) (bar : BarR) (p : Option Reg) (s : State) : Out :=
  let e := s.exe m
  let b := s.bar bar.toNat
  .next (if e = 0 then s.advance
    else if !b.valid then s.trap tBarUse
    else if b.broken then s.trap tBarBroken
    else if !(s.released (s.slotsOf e)) then s.setWait (.order (s.slotsOf e))
    else s.waitFor bar.toNat 0 ((lanesOf e).filterMap (fun l => (s.waitCond bar.toNat p l).map (fun c => (l, c)))))

/-- `bar.exp` (R275). -/
def execBarExp (m : MReg) (bar : BarR) (b : Reg) (s : State) : Out :=
  let e := s.exe m
  let v := s.bar bar.toNat
  let sum : Int := (lanesOf e).foldl (fun n l => n + (s.lreg l b.toNat).toNat) 0
  .next (if e = 0 then s.advance
    else if !v.valid then s.trap tBarUse
    else if v.broken then s.trap tBarBroken
    else if (2 ^ 47 : Int) - 1 < v.pending + sum then s.trap tBarUse
    else (s.modWbar s.cur.h s.cur.c s.grp.wgs bar.toNat (fun x => { x with pending := x.pending + sum })).advance)

/-- `bar.test` (R276): only the bits of lanes of E change. -/
def execBarTest (m d : MReg) (bar : BarR) (p : Option Reg) (s : State) : Out :=
  let e := s.exe m
  let b := s.bar bar.toNat
  let bit := fun (l : Nat) => !b.broken && (match s.waitCond bar.toNat p l with
    | none => true
    | some c => condHolds b c)
  .next (if e = 0 then s.advance
    else if !b.valid then s.trap tBarUse
    else if !(s.released (s.slotsOf e)) then s.setWait (.order (s.slotsOf e))
    else
      let t := s.setMBits d.toNat e (maskBy bit)
      (if (lanesOf e).any bit then t.acquire else t).advance)

/-- The status word of `bar.ph` for a lane (R277). -/
def State.barStatus (s : State) (bar l : Nat) : Nat :=
  let b := s.bar bar
  let mem := s.grp.member.getLsbD l
  b2n b.broken + 2 * b2n (mem && (s.arrOf l).isMember bar)
    + 4 * b2n (mem && (s.arrOf l).arrivedAt bar b.phcnt) + 8 * b2n b.dormant

/-- `bar.ph` (R277): an acquire point. -/
def execBarPh (m : MReg) (a : Reg) (bar : BarR) (s : State) : Out :=
  let e := s.exe m
  let b := s.bar bar.toNat
  .next (if e = 0 then s.advance
    else if !b.valid then s.trap tBarUse
    else if !(s.released (s.slotsOf e)) then s.setWait (.order (s.slotsOf e))
    else ((s.writePair (s.live m) a.toNat (fun l => b.phcnt.toNat + 2 ^ 32 * s.barStatus bar.toNat l)).acquire).advance)

/-- A retiring thread leaves its barriers (R271); what the crossbar denies is dropped and logged (R380). -/
def State.leaveBarriers (s : State) (h c w tidx : Nat) : State :=
  (List.range 24).foldl (fun t bar =>
    let b := t.barView h c w bar
    let a := t.arrival h c w tidx
    if b.valid && a.isMember bar && !(t.barReach h c w bar) then t.barDenied h c w
    else if b.valid && a.isMember bar then
      let t := if a.arrivedAt bar b.phcnt && !b.dormant then t.dropArrived h c w bar else t
      if bar < 16 then t.modWbar h c w bar (fun x => { x with members := x.members - 1 })
      else t.modGbar h c w bar (fun x =>
        { x with members := x.members - 1, retired := if x.root then x.retired else x.retired + 1 })
    else t) s

/-! ### Barrier events -/

/-- The acting group's arrivals take effect: their release points are satisfied, and a held lane's phase has
completed (R273). -/
def execBarrierArrivalCount (h c g : Nat) (s0 : State) : Out :=
  let s := s0.at_ { h := h, c := c, g := g }
  match s.grp.wait with
  | .barArr bar lanes counted arw phc cs =>
    if phc != some (s.bar bar).phcnt && s.drained (s.slotsOf lanes) then .next (s.arriveGo bar lanes counted arw cs)
    else .next s0
  | _ => .next s0

/-- The condition of a workgroup barrier's phase (R269). -/
def BView.complete (b : BView) : Bool :=
  b.valid && !b.dormant && decide (b.members ≤ b.arrived) && b.pending == 0

/-- A workgroup barrier's unit tests its phase: where it is complete, the count starts again and the phase advances, and with no
member left the barrier becomes dormant (R269). -/
def Wbar.settle (b : Wbar) : Wbar :=
  if b.valid && !b.dormant && decide (b.members ≤ b.arrived) && b.pending == 0 then
    { b with arrived := 0, phcnt := b.phcnt + 1, dormant := b.members == 0 }
  else b

/-- The next phase (R269): the count starts again and the phase advances; with no member left the barrier becomes
dormant. -/
def Gbar.next (b : Gbar) : Gbar := { b with arrived := 0, phcnt := b.phcnt + 1, dormant := b.members == 0 }

/-- Whether a gang or launch barrier entry completes its phase: the totals of a launch barrier are the root's (R269,
R279). -/
def Gbar.complete (b : Gbar) : Bool := b.valid && b.root && !b.dormant && decide (b.members ≤ b.arrived)

/-- A gang or launch barrier's unit tests its phase (R269). -/
def Gbar.settle (b : Gbar) : Gbar := if b.complete then b.next else b

/-- The completion of a phase (R269): of barrier `bar` of the workgroup in slot `w` of a core, or, for core number 64, of the
base die's gang or launch context `w` (R279). -/
def execBarrierPhaseComplete (h c w bar : Nat) (s : State) : Out :=
  let d := s.humAt h
  if c < 64 && bar < 16 then
    .next (if (s.barView h c w bar).complete then
        s.modWbar h c w bar (fun x => { x with arrived := 0, phcnt := x.phcnt + 1, dormant := x.members == 0 })
      else s)
  else
    let wg := mget {} (s.coreAt h c).wgs w
    if bar < 20 then
      let k := 4 * (if c < 64 then wg.gctx else w) + (bar - 16)
      let b := mget {} d.gbars k
      .next (if b.complete then s.setHum h { d with gbars := mset d.gbars k b.next } else s)
    else
      let k := 4 * (if c < 64 then wg.lctx else w) + (bar - 20)
      let b := mget {} d.lbars k
      .next (if b.complete then s.setHum h { d with lbars := mset d.lbars k b.next } else s)

/-- A group that waits at a barrier goes on when every condition holds (R274). -/
def execBarrierWaitRelease (h c g : Nat) (s0 : State) : Out :=
  let s := s0.at_ { h := h, c := c, g := g }
  match s.grp.wait with
  | .barWait bar _ cs =>
    if cs.all (fun x => condHolds (s.bar bar) x.2) then .next s.waitEnd else .next s0
  | _ => .next s0

/-- The context number of a launch on a hummock (R165). -/
def State.lctxOf (s : State) (h l : Nat) : Option Nat :=
  ((s.humAt h).ctxs.find? (fun e => e.2 == l)).map Prod.fst

/-- The entry of a launch barrier on a hummock. -/
def State.lbAt (s : State) (h l n : Nat) : Option (Nat × Gbar) :=
  (s.lctxOf h l).map (fun x => (4 * x + n, mget {} (s.humAt h).lbars (4 * x + n)))

/-- Arrivals and retirements that a hummock forwards reach the root's entry (R279); an arrival that a retiring thread takes back
leaves only the phase `phc` it was made at (R271). -/
def Gbar.take (r : Gbar) (arrived retired back : Nat) (phc : Word) : Gbar :=
  { r with arrived := r.arrived + arrived - (if r.phcnt = phc then back else 0), members := r.members - retired }

/-- The root's completion of a phase reaches a hummock's entry (R279). -/
def Gbar.reached (b : Gbar) (phc : Word) (dormant : Bool) : Gbar :=
  { b with phcnt := phc, dormant := dormant, back := if phc = b.phcnt then b.back else 0 }

/-- Change the entry of a launch barrier on a hummock, if it is valid. -/
def State.modLb (s : State) (h l n : Nat) (f : Gbar → Gbar) : State :=
  match s.lbAt h l n with
  | some (k, b) => if b.valid then s.setHum h { s.humAt h with lbars := mset (s.humAt h).lbars k (f b) } else s
  | none => s

/-- A hummock forwards its local arrivals and retirements of a launch barrier to the root (R279): to a root in another package they
leave the model's package (notes/assumptions 9). -/
def execLbForward (l h n : Nat) (s : State) : Out :=
  let x := s.launchAt l
  let sent := fun (b : Gbar) => { b with arrived := 0, retired := 0, back := 0 }
  if 8 ≤ x.root then .next (if h < 8 then s.modLb h l n sent else s)
  else
    match s.lbAt h l n, s.lbAt x.root l n with
    | some (_, b), some (_, r) =>
      if h = x.root || !b.valid || !r.valid then .next s
      else .next ((s.modLb h l n sent).modLb x.root l n (fun r => r.take b.arrived b.retired b.back b.phcnt))
    | _, _ => .next s

/-- The root's completion reaches a hummock, where the local count advances (R279). -/
def execLbCompletionBroadcast (l h n : Nat) (s : State) : Out :=
  let x := s.launchAt l
  match s.lbAt h l n, s.lbAt x.root l n with
  | some (k, b), some (_, r) => .next (s.setHum h { s.humAt h with lbars := mset (s.humAt h).lbars k (b.reached r.phcnt r.dormant) })
  | _, _ => .next s

/-- Some launch barriers of a launch break, with the groups of this package that wait at them (R278). -/
def State.breakLbs (s : State) (l : Nat) (which : Nat → Bool) : State :=
  let s := { s with hums := s.hums.map (fun (hm : Nat × Hum) =>
    (hm.1, { hm.2 with lbars := hm.2.lbars.map (fun (e : Nat × Gbar) =>
      if mget 0 hm.2.ctxs (e.1 / 4) = l && which (e.1 % 4) then (e.1, e.2.breakIt) else e) })) }
  s.breakGroups (fun v bar => v.launch == l && decide (20 ≤ bar) && which (bar - 20))

/-- The sideband path between a hummock of a launch's rectangle, here or in another package, and its root is lost: its launch barriers
break (R278). -/
def execSidebandPathLoss (l h : Nat) (s : State) : Out :=
  let x := s.launchAt l
  if (x.rect.contains h || x.cells.contains h) && h != x.root then .next (s.breakLbs l (fun _ => true)) else .next s

/-! ### Convergence registers (R280 to R283) -/

/-- Declare the set size of a convergence register: of two groups that declare it in one core cycle, the value of the lower
active group number holds (R281). -/
def State.setCvSize (s : State) (cv n : Nat) : State :=
  if s.outranked (97 + cv) then s
  else s.setWg { s.wg with
    cvs := mset s.wg.cvs cv { mget {} s.wg.cvs cv with size := n }, kw := s.written (97 + cv) }

/-- `cvdecl` (R281). -/
def execCvdecl (m : MReg) (cv : BitVec 3) (size : CvSize) (s : State) : Out :=
  let e := s.exe m
  let n := match size with
    | .imm k => k.toNat
    | .reg b => (s.lreg (lowest e) b.toNat).toNat
  let x := mget {} s.wg.cvs cv.toNat
  .next (if e = 0 then s.advance
    else if n < 1 || 1024 < n || x.signed != 0 then s.trap tCvState
    else (s.setCvSize cv.toNat n).advance)

/-- `cvq` (R283). -/
def execCvq (m : MReg) (a : Reg) (cv : BitVec 3) (s : State) : Out :=
  let x := mget {} s.wg.cvs cv.toNat
  .next (s.writePair (s.live m) a.toNat (fun _ => x.size + x.signed * 2 ^ 16 + x.gen % 2 ^ 32 * 2 ^ 32)).advance

/-! ### Channels (R284 to R288) -/

/-- A channel state of the acting group's workgroup (R284). -/
def State.chan (s : State) (ch : Nat) : Chan := mget {} s.wg.chans ch

/-- Change a channel state of a workgroup. -/
def State.modChan (s : State) (r : GRef) (ch : Nat) (f : Chan → Chan) : State :=
  let k := s.coreAt r.h r.c
  let w := mget {} k.wgs r.g
  s.setCoreAt r.h r.c { k with wgs := mset k.wgs r.g { w with chans := mset w.chans ch (f (mget {} w.chans ch)) } }

/-- The acting group's workgroup. -/
def State.wgRef (s : State) : GRef := { h := s.cur.h, c := s.cur.c, g := s.grp.wgs }

/-- Put words into the next slot of a channel at its receiver. -/
def State.putSlotAt (s : State) (r : GRef) (ch : Nat) (words : List Word) : State :=
  let q := mget {} (mget {} (s.coreAt r.h r.c).wgs r.g).chans ch
  let line := q.line0 + (q.head + q.full) % q.slots
  let s := (List.range 32).foldl (fun t i =>
    t.setScr (coreKey r.h r.c) (line * 128 + 4 * i) 4 (words.getD i 0).toNat) s
  s.modChan r ch (fun x => { x with full := x.full + 1 })

/-- Fill the next slot of a channel at its receiver (R286); a workgroup that is both ends holds one entry for both (R284). -/
def State.fillSlot (s : State) (ch : Nat) (words : List Word) : State :=
  match s.findWg s.wg.launch (s.chan ch).peer with
  | none => s
  | some r =>
    let s := s.putSlotAt r ch words
    if r = s.wgRef then s else s.modChan s.wgRef ch (fun x => { x with full := x.full + 1 })

/-- A send once it can be decided: the receiver has ended, or the release points hold and a slot is free (R286). -/
def State.sendGo (s : State) (ch : Nat) (words : List Word) : State :=
  if (s.chan ch).peerEnded then s.trap tChBroken else (s.fillSlot ch words).endMem

/-- Whether a send can be decided: the receiver's slots exist once its workgroup is placed (R284). -/
def State.canSend (s : State) (ch : Nat) (slots : List Nat) : Bool :=
  (s.chan ch).peerEnded || (s.drained slots && decide ((s.chan ch).full < (s.chan ch).slots)
    && (s.findWg s.wg.launch (s.chan ch).peer).isSome)

/-- `send` (R286). -/
def execSend (m : MReg) (ch : BitVec 4) (a : Reg) (s : State) : Out :=
  let e := s.exe m
  let words := (List.range 32).map (fun l => if e.getLsbD l then s.lreg l a.toNat else 0)
  .next (if !(s.chan ch.toNat).snd then s.trap tChUse
    else if e = 0 then s.advance
    else if s.canSend ch.toNat (s.slotsOf e) then s.sendGo ch.toNat words
    else s.setWait (.send ch.toNat (s.slotsOf e) words))

/-- Take the slot at HEAD (R286): registers, the freed slot and the acquire as one event. -/
def State.takeSlot (s : State) (ch : Nat) (d : Reg) (m : MReg) : State :=
  let q := s.chan ch
  let base := (q.line0 + q.head) * 128
  let t := s.writeLanes (s.live m) d.toNat (fun l => BitVec.ofNat 32 (readN s.core.scratch (base + 4 * l) 4))
  let t := t.modChan s.wgRef ch (fun x =>
    { x with full := x.full - 1, head := (x.head + 1) % x.slots, freed := if x.snd then x.freed else x.freed + 1 })
  t.acquire.endMem

/-- A receive once it can be decided (R286, R287). -/
def State.recvGo (s : State) (ch : Nat) (d : Reg) (m : MReg) : State :=
  if (s.chan ch).full = 0 then s.trap tChBroken else s.takeSlot ch d m

/-- `recv` (R286). -/
def execRecv (m : MReg) (a : Reg) (ch : BitVec 4) (s : State) : Out :=
  .next (if !(s.chan ch.toNat).rcv then s.trap tChUse
    else if s.exe m = 0 then s.advance
    else if !(s.released (s.slotsOf (s.exe m))) then s.setWait (.order (s.slotsOf (s.exe m)))
    else if (s.chan ch.toNat).full = 0 && !(s.chan ch.toNat).peerEnded then (s.setWait (.recv ch.toNat a m)).inherit
    else s.recvGo ch.toNat a m)

/-- `chq` (R288). -/
def execChq (m : MReg) (a : Reg) (ch : BitVec 4) (s : State) : Out :=
  let q := s.chan ch.toNat
  .next (s.writeLanes (s.live m) a.toNat (fun _ => BitVec.ofNat 32
    (q.slots % 128 + q.full % 128 * 2 ^ 7 + b2n q.peerEnded * 2 ^ 14 + b2n q.snd * 2 ^ 15 + b2n q.rcv * 2 ^ 16))).advance

/-- A waiting send fills its slot, or finds its receiver ended (R286). -/
def execSendSlotFill (h c g : Nat) (s0 : State) : Out :=
  let s := s0.at_ { h := h, c := c, g := g }
  match s.grp.wait with
  | .send ch slots words =>
    if s.canSend ch slots then .next (s.sendGo ch words) else .next s0
  | _ => .next s0

/-- A waiting receive takes the slot at HEAD, or finds its sender ended (R286, R287). -/
def execRecvSlotTake (h c g : Nat) (s0 : State) : Out :=
  let s := s0.at_ { h := h, c := c, g := g }
  match s.grp.wait with
  | .recv ch d m =>
    if (s.chan ch).full = 0 && !(s.chan ch).peerEnded then .next s0 else .next (s.recvGo ch d m).inherit
  | _ => .next s0

/-- A freed slot becomes available to the sender (R286): the receiver's workgroup `w` freed it. -/
def execChannelSlotFreed (h c w ch : Nat) (s : State) : Out :=
  let r : GRef := { h := h, c := c, g := w }
  let wg := mget {} (s.coreAt h c).wgs w
  let q := mget {} wg.chans ch
  if q.rcv && q.freed != 0 then
    let s := s.modChan r ch (fun x => { x with freed := x.freed - 1 })
    match s.findWg wg.launch q.peer with
    | none => .next s
    | some p => .next (s.modChan p ch (fun x => { x with full := x.full - 1 }))
  else .next s

end Sys2Proof.Machine
end

