-- ==== Sys2Proof/Machine/Walk.lean ====
section
/-! DEFINITION. Walks and page requests: the walk scheduler, the page-request rings, replies, lease expiry and the
swap engine (09_translation_leases.md R211 to R230), with request arrival at homes and window reductions on
their way (R212, R228, R260 to R262). -/

namespace Sys2Proof.Machine

/-! ### Page requests (R225, R226) -/

/-- The ring of a stage. -/
def Fn.ring (x : Fn) (stage : Nat) : Ring := if stage = 2 then x.s2prq else x.prq
def Fn.setRing (x : Fn) (stage : Nat) (r : Ring) : Fn := if stage = 2 then { x with s2prq := r } else { x with prq := r }

/-- The function whose translation a request ring is written through: the hypervisor serves stage 2. -/
def ringFn (f stage : Nat) : Nat := if stage = 2 then 0 else f

/-- Write the requests a ring holds while it has room (R225): vector 1 of the function, or vector 2 of the PF,
signals each (R406).  A page whose translation is being changed or does not grant the write holds them (R222; notes/assumptions
56). -/
def State.flushRing (s : State) (h f stage : Nat) : List (List Byte) → State
  | [] => s
  | e :: es =>
    let r := (s.fnAt f).ring stage
    let hold := fun (t : State) (ovf : Bool) =>
      let x := t.fnAt f
      t.setFn f (x.setRing stage { x.ring stage with held := e :: es, ovf := (x.ring stage).ovf || ovf })
    if r.isFull 5 then hold s true
    else match s.devWrite h (ringFn f stage) 9 (r.base + 32 * r.tail) e with
    | (t, .ok _) =>
      let x := t.fnAt f
      let r := x.ring stage
      let t := t.setFn f (x.setRing stage { r with tail := (r.tail + 1) % r.count 5, held := es })
      (t.signal (ringFn f stage) stage).flushRing h f stage es
    | (t, _) => hold t false

/-- Write the requests that a ring holds once its page grants the write (R222, R225). -/
def State.retryRing (s : State) (f stage : Nat) : State :=
  let r := (s.fnAt f).ring stage
  if r.isFull 5 || !(s.grants 0 (ringFn f stage) (r.base + 32 * r.tail) { w := true }) then s
  else s.flushRing 0 f stage r.held

/-- Post a page request for a walk (R225 Table 9.6): the state, and the request's stage and tag. -/
def State.postRequest (s : State) (h f stage : Nat) (flags page launch : Nat) : State × Nat :=
  let x := s.fnAt f
  let tag := (x.nextTag + 1) % 2 ^ 32
  let e := bytesOf 4 tag ++ bytesOf 2 f ++ bytesOf 1 stage ++ bytesOf 1 flags ++ bytesOf 8 page
    ++ bytesOf 4 launch ++ bytesOf 4 0 ++ bytesOf 8 s.chipTime
  let s := s.setFn f { x with nextTag := tag, tags := x.tags ++ [(stage, tag)] }
  (s.flushRing h f stage (((s.fnAt f).ring stage).held ++ [e]), tag)

/-- The flags of a request (Table 9.6), from what was needed of the page that the walk names: of a table page a read, or a
write for A and D (R210). -/
def reqFlags (need : Need) (running invalid : Bool) : Nat :=
  b2n need.w + 2 * b2n need.x + 4 * b2n running + 8 * b2n invalid

/-! ### Walks in flight (R220 to R228) -/

/-- What a walk needs. -/
def Walk.need (w : Walk) : Need := { r := !w.write && !w.fetch, w := w.write, x := w.fetch }

/-- Change the group a walk serves. -/
def State.modGroup (s : State) (r : GRef) (f : Group → Group) : State :=
  let k := s.coreAt r.h r.c
  match mfind k.groups r.g with
  | none => s
  | some g => s.setCoreAt r.h r.c { k with groups := mset k.groups r.g (f g) }

/-- A group that waits for a walk may issue again. -/
def Group.walked (g : Group) : Group :=
  match g.wait with
  | .walk false => { g with wait := .ready }
  | _ => g

/-- A walk that a group's instruction asked for as it issued. -/
def Walk.firstOf (r : GRef) (w : Walk) : Bool := w.who == r && w.enl.isNone && !w.replay

/-- A group issues its instruction again once none of the walks it asked for is left (R220). -/
def State.wake (s : State) (r : GRef) : State :=
  let d := s.humAt r.h
  if (d.pending ++ d.walks ++ d.replies).any (Walk.firstOf r) then s else s.modGroup r Group.walked

/-- The request of a core's list that a replayed walk serves. -/
def Req.awaits (r : Req) (w : Walk) : Bool := r.walking && r.who == w.who && r.fn == w.fn && r.va == w.va

/-- A request under a new translation (R228). -/
def State.moved (s : State) (r : Req) (t : Tlb) : Req :=
  let pa := t.hpa r.va
  { r with
    walking := false, expiry := t.expiry, line := pa / 128, sc := t.sc, rwin := t.rwin, home := (s.homeOf t pa).1
    slice := (s.homeOf t pa).2, sp := t.sp, hops := 0
    tray := s.traysReq r.fn { kind := r.kind, sel := r.sel } t pa
    items := r.items.map (fun i => { i with addr := pa / 128 * 128 + i.addr % 128 }) }

/-- What a new translation of a request's line fails, of the checks of rank 6 (R184, R202, R259). -/
def State.movedBad (s : State) (r : Req) (t : Tlb) : Option Rank6 :=
  let i := (r.items.find? (fun i => !i.helper)).getD (r.items.headD {})
  (s.at_ r.who).lineCheck r.fn { kind := r.kind, sel := r.sel, ty := r.ty } t { i with addr := r.va + i.addr % 128 }

/-- A line that helper lanes alone touch. -/
def Req.helperOnly (r : Req) : Bool := r.items.all (fun i => i.helper)

/-- The number of the span whose lines a group waits for, and whether one of them has been accepted (R228, R365, R366). -/
def Group.accepting (g : Group) : Option (Nat × Bool) :=
  match g.wait with
  | .l2op id any => some (id, any)
  | .snap id any => some (id, any)
  | _ => none

/-- A line of the span that a group waits for has been accepted. -/
def Group.accepted (g : Group) : Group :=
  match g.wait with
  | .l2op id _ => { g with wait := .l2op id true }
  | .snap id _ => { g with wait := .snap id true }
  | _ => g

/-- An instruction's accesses in flight are withdrawn. -/
def State.dropAccess (s : State) (r : GRef) (id : Nat) : State :=
  let k := s.coreAt r.h r.c
  s.setCoreAt r.h r.c { k with reqs := k.reqs.filter (fun e => e.id != id), outs := k.outs.filter (fun o => o.id != id) }

/-- The address of the word of an access in flight that can still trap precisely: none of its lines has been accepted and its
group has not gone on (R186, R228; notes/assumptions 55). -/
def State.traceable (s : State) (r : Req) : Option Word :=
  let k := s.coreAt r.who.h r.who.c
  let g := mget {} k.groups r.who.g
  if g.accepting = some (r.id, false) then some g.pc
  else (k.outs.find? (fun o => o.id == r.id && o.grp == some r.who.g && !o.any && !o.past)).map (fun o => o.pc)

/-- A line of an access in flight fails a check: the instruction traps where that can be precise; otherwise the launch ends with a
status (R228). -/
def State.failLate (s : State) (r : Req) (code lane off detail status : Nat) : State :=
  match s.traceable r with
  | some pc =>
    ((s.dropAccess r.who r.id).at_ r.who).takeTrap { code := code, lane := lane, addr := off, detail := detail, pc := pc }
  | none => (s.dropAccess r.who r.id).endLaunch r.launch status

/-- A line of an access in flight is denied (R228). -/
def State.deniedLate (s : State) (r : Req) (code lane off detail : Nat) : State := s.failLate r code lane off detail stLease

/-- What follows from a failed check of a replayed line (R184, R202, R228). -/
def State.movedFail (s : State) (r : Req) : Rank6 → State
  | .trap code lane off detail => s.deniedLate r code lane off detail
  | _ => (s.dropAccess r.who r.id).endLaunch r.launch stLease

/-- Change the requests of a core that a replayed walk serves. -/
def State.modAwaiting (s : State) (w : Walk) (f : Req → Req) : State :=
  let k := s.coreAt w.who.h w.who.c
  s.setCoreAt w.who.h w.who.c { k with reqs := k.reqs.map (fun r => if r.awaits w then f r else r) }

/-- A line that helper lanes alone touch is suppressed: it reads 0 (R184). -/
def Req.suppressed (r : Req) : Req := { r with walking := false, items := [], expiry := 2 ^ 80 }

/-- The requests of a core that a replayed walk serves take its translation, if it passes their checks (R228). -/
def State.retarget (s : State) (w : Walk) (t : Tlb) : State :=
  let rs := (s.coreAt w.who.h w.who.c).reqs.filter (fun r => r.awaits w)
  match rs.findSome? (fun r => if r.helperOnly then none else (s.movedBad r t).map (fun b => (r, b))) with
  | some (r, b) => s.movedFail r b
  | none => s.modAwaiting w (fun r => if (s.movedBad r t).isSome then r.suppressed else s.moved r t)

/-- Replace a copy job. -/
def State.setJob (s : State) (h k : Nat) (j : CopyJob) : State :=
  s.setHum h { s.humAt h with enl := mset (s.humAt h).enl k j }

/-- Give a translation to a unit's operation: entry k of the Enlarger, or for k = 2048 + core the operation at the head of
that core's qm. -/
def State.giveTlb (s : State) (h k : Nat) (w : Walk) (t : Tlb) : State :=
  let keep := fun (ts : List Tlb) => t :: ts.filter (fun e => !(decide (e.va ≤ w.va) && decide (w.va < e.va + e.size)))
  if k < 2048 then
    match mfind (s.humAt h).enl k with
    | none => s
    | some j => s.setJob h k { j with tlb := keep j.tlb }
  else
    let c := s.coreAt h (k - 2048)
    match c.engine.queue with
    | [] => s
    | op :: rest =>
      s.setCoreAt h (k - 2048) { c with engine := { c.engine with queue := { op with tlb := keep op.tlb } :: rest } }

/-- The launch that a unit's operation belongs to. -/
def State.unitLaunch (s : State) (h k : Nat) : Nat :=
  if k < 2048 then
    let j := mget {} (s.humAt h).enl k
    (mget {} (s.coreAt h j.core).wgs j.wgs).launch
  else (mget {} (s.coreAt h (k - 2048)).wgs ((s.coreAt h (k - 2048)).engine.holder.getD 8)).launch

/-- A walk found the translation: it is installed, or given to the copy or request that waits (R216, R228, R229).  One of class 0
serves the request that was walked again and no other (R211). -/
def State.walkOk (s : State) (h : Nat) (w : Walk) (t : Tlb) : State :=
  match w.enl with
  | some k => s.giveTlb h k w t
  | none =>
    if w.replay then (if t.cls = 0 then s else s.installTlb w.who t).retarget w t
    else (s.installTlb w.who t).wake w.who

/-- What a walk's line is wanted for. -/
def Walk.purpose (w : Walk) : Purpose := if w.fetch then .fetch else if w.helper then .helper else .access

/-- A line outside any declared range is denied (R227): the instruction issues again and finds it so at rank 6, in the order of
its lines; a line walked again traps or ends the launch (R228). -/
def State.walkDenied (s : State) (h : Nat) (w : Walk) : State :=
  match w.enl with
  | some k => s.endLaunch (s.unitLaunch h k) stLease
  | none =>
    if w.replay then
      match (s.coreAt w.who.h w.who.c).reqs.find? (fun r => r.awaits w && !r.helperOnly) with
      | some r => s.deniedLate r tAccess w.lane w.off 0
      | none => s.modAwaiting w Req.suppressed
    else (s.modGroup w.who (fun g => { g with denied := g.denied ++ [(w.va / 65536, w.purpose)] })).wake w.who

/-- The bound of the reply table (R220). -/
def replyPlaces : Nat := 512

/-- A walk waits in the scheduler to be made again after 256 ns (R222). -/
def State.holdWalk (s : State) (h : Nat) (w : Walk) : State :=
  s.setHum h { s.humAt h with walks := (s.humAt h).walks ++ [{ w with swapAt := some (s.chipTime + 256) }] }

/-- A walk failed: a line of a declared range waits for a page request, any other is denied (R227).  With the reply table full
the walk is held and made again (R220; notes/assumptions 56). -/
def State.walkFailed (s : State) (h : Nat) (w : Walk) (stage : Nat) (invalid : Bool) (need : Need) (page : Nat) : State :=
  if !w.glb then s.walkDenied h w
  else if replyPlaces ≤ (s.humAt h).replies.length then s.holdWalk h w
  else
    let p := s.postRequest h w.fn stage (reqFlags need true invalid) page (s.rootLaunch w.launch)
    p.1.setHum h { p.1.humAt h with replies := (p.1.humAt h).replies ++ [{ w with tag := some (stage, p.2) }] }

/-- A walk reads its entries (R221, R222): the entries of a path are read and marked in one step, so no compare
fails. -/
def State.walkGo (s : State) (h : Nat) (w : Walk) : State :=
  let r := s.walkFull h w.fn w.va w.need
  let s := s.noteWalk w.fn h r
  match r.res with
  | .swap => s.holdWalk h w
  | .ok t upd => ((s.writeMarks w.fn upd).keepWalk h w.fn r.path).walkOk h w t
  | .fail stage _ invalid need page => s.walkFailed h w stage invalid need page

/-- Whether two walks have one requester. -/
def Walk.same (a b : Walk) : Bool := a.who == b.who && a.enl == b.enl

/-- The pending walk that the scheduler starts (R220): one that 64 others have overtaken, else one of the
requester with the fewest walks in flight. -/
def Hum.nextWalk (d : Hum) : Option Nat :=
  let idx := List.range d.pending.length
  let fl := fun (k : Nat) => (d.walks.filter (fun x => x.same (d.pending.getD k {}))).length
  match idx.find? (fun k => decide (64 ≤ (d.pending.getD k {}).seen)) with
  | some k => some k
  | none => idx.find? (fun k => idx.all (fun j => decide (fl k ≤ fl j)))

/-- Whether two walks belong to one instruction and share the top table's entry (R207, R220). -/
def Walk.shares (a b : Walk) : Bool := a.same b && a.fn == b.fn && a.va / 2 ^ 40 == b.va / 2 ^ 40

/-- The pending walks that start with walk `k`: those that share its upper levels, as many as there is room for (R220). -/
def Hum.batch (d : Hum) (k : Nat) : List Nat :=
  let w := d.pending.getD k {}
  (k :: (List.range d.pending.length).filter (fun j => j != k && w.shares (d.pending.getD j {}))).take (64 - d.walks.length)

/-- Walks whose reply has come and that found the pending list full enter it as it gets room (R220, R226). -/
def Hum.refill (d : Hum) : Hum :=
  let back := d.replies.filter (fun w => w.tag.isNone)
  let take := back.take (256 - d.pending.length)
  { d with pending := d.pending ++ take, replies := take.foldl (fun l w => l.erase w) d.replies }

/-- Start walks of the pending list: those they overtake count it (R220). -/
def Hum.start (d : Hum) (ks : List Nat) : Hum :=
  let idx := List.range d.pending.length
  let stay := (idx.filter (fun j => !ks.contains j)).map (fun j =>
    let w := d.pending.getD j {}
    { w with seen := w.seen + (ks.filter (fun i => decide (j < i))).length })
  ({ d with pending := stay, walks := d.walks ++ ks.map (fun j => d.pending.getD j {}) } : Hum).refill

/-- The walk scheduler starts the pending walk `k` with those that share its upper levels (R220); a unit in the fault state
starts none (R214). -/
def execWalkStart (h k : Nat) (s : State) : Out :=
  let d := s.humAt h
  if d.nextWalk = some k && decide (d.walks.length < 64) && !(s.faulty (512 + h)) then
    .next (s.setHum h (d.start (d.batch k)))
  else .next s

/-- Whether a walk in flight waits for an entry over a fenced link (R398). -/
def State.walkStuck (s : State) (h : Nat) (w : Walk) : Bool :=
  s.walkLost h w.fn w.launch (s.walkFull h w.fn w.va w.need).reads

/-- The walk `k` in flight finishes (R221). -/
def execWalkComplete (h k : Nat) (s : State) : Out :=
  match (s.humAt h).walks[k]? with
  | none => .next s
  | some w =>
    if w.swapAt.isSome || s.faulty (512 + h) || s.walkStuck h w then .next s
    else .next ((s.setHum h { s.humAt h with walks := (s.humAt h).walks.eraseIdx k }).walkGo h w)

/-- A walk that found SWAP set reads the entry again after 256 ns (R222). -/
def execSwapRetry (h k : Nat) (s : State) : Out :=
  match (s.humAt h).walks[k]? with
  | none => .next s
  | some w =>
    match w.swapAt with
    | none => .next s
    | some t =>
      if s.chipTime < t || s.faulty (512 + h) || s.walkStuck h w then .next s
      else .next ((s.setHum h { s.humAt h with walks := (s.humAt h).walks.eraseIdx k }).walkGo h { w with swapAt := none })

/-- A group that found the pending list full tries again (R220). -/
def execWalkPendingRetry (h c g : Nat) (s : State) : Out :=
  let x := mget {} (s.coreAt h c).groups g
  match x.wait with
  | .walk true =>
    if (s.humAt h).pending.length < 256 && !(s.faulty (512 + h)) && !(s.faulty (coreKey h c)) then
      .next (s.modGroup { h := h, c := c, g := g } (fun x => { x with wait := .ready }))
    else .next s
  | _ => .next s

/-- Whether a reply value is dropped: a reserved bit, or a tag not outstanding (R226). -/
def Fn.dropsReply (x : Fn) (stage v : Nat) : Bool :=
  v / 2 ^ 33 != 0 || !(x.tags.contains (stage, v % 2 ^ 32))

/-- The reply table entry of a tag, on whichever hummock holds it. -/
def State.findReply (s : State) (f stage tag : Nat) : Option (Nat × Walk) :=
  s.hums.findSome? (fun (e : Nat × Hum) =>
    (e.2.replies.find? (fun w => w.fn == f && w.tag == some (stage, tag))).map (fun w => (e.1, w)))

/-- A write of a REPLY register (R226): refuse clear starts the walk again from the top, refuse set ends the
launch. -/
def State.reply (s : State) (f stage v : Nat) : State :=
  let x := s.fnAt f
  if x.dropsReply stage v then s.logErr f 12 0 v 0
  else
    let tag := v % 2 ^ 32
    let s := s.setFn f { x with tags := x.tags.erase (stage, tag) }
    match s.findReply f stage tag with
    | none =>
      -- a residency walk of launch step 3 (R224) or of a restore (R396): it walks again, or ends
      let mine := fun (ws : List (Nat × Nat × Nat)) => ws.any (fun e => e.1 == stage && e.2.1 == tag)
      let drop := fun (ws : List (Nat × Nat × Nat)) => ws.filter (fun e => !(e.1 == stage && e.2.1 == tag))
      match s.launches.find? (fun (l : Nat × Launch) => l.2.fn == f && mine l.2.waits) with
      | none =>
        let x := s.fnAt f
        if mine x.rstWaits then
          s.setFn f { x with rstWaits := drop x.rstWaits, rstFail := x.rstFail || v / 2 ^ 32 % 2 == 1 }
        else s
      | some l =>
        if v / 2 ^ 32 % 2 = 1 then s.endLaunch l.1 stLease
        else s.setLaunch l.1 { l.2 with waits := drop l.2.waits }
    | some (h, w) =>
      let d := s.humAt h
      let s := s.setHum h { d with replies := d.replies.erase w }
      if v / 2 ^ 32 % 2 = 1 then s.endLaunch w.launch stLease
      else
        let d := s.humAt h
        s.setHum h ({ d with replies := d.replies ++ [{ w with tag := none }] } : Hum).refill

/-- A reply with refuse clear (R226). -/
def execPrqReply (f stage tag : Nat) (s : State) : Out := .next (s.reply f stage tag)
/-- A reply with refuse set (R226). -/
def execPrqReplyRefuse (f stage tag : Nat) (s : State) : Out := .next (s.reply f stage (tag + 2 ^ 32))

/-- A driver writes a page-request queue's HEAD, and the held requests are written (R225, R451). -/
def State.writePrqHead (s : State) (f stage v : Nat) : State :=
  let x := s.fnAt f
  let r := x.ring stage
  if r.count 5 ≤ v then s.logErr f 11 0 (if stage = 2 then 0x3050 else 0x3020) 0
  else (s.setFn f (x.setRing stage { r with head := v })).flushRing 0 f stage r.held

/-- A write of HEAD by the driver (R225). -/
def execPrqhead (f stage v : Nat) (s : State) : Out := .next (s.writePrqHead f stage v)

/-! ### Lease expiry (R211, R213, R229) -/

/-- Cached translations that have reached their expiry become absent: of a core, or of the base die for core
number 64 (R211, R213). -/
def execTlbLeaseExpiry (h c : Nat) (s : State) : Out :=
  let now := s.chipTime
  let keep := fun (t : Tlb) => decide (now < t.expiry)
  if c < 64 then
    let k := s.coreAt h c
    if k.tlb.all keep then .next s else .next (s.setCoreAt h c { k with tlb := k.tlb.filter keep })
  else
    let d := s.humAt h
    if d.tlb.all keep && d.wcache.all (fun (e : Nat × WalkCache) => decide (now < e.2.expiry)) then .next s
    else .next (s.setHum h { d with
      tlb := d.tlb.filter keep, wcache := d.wcache.filter (fun (e : Nat × WalkCache) => decide (now < e.2.expiry)) })

/-- Whether an operation writes the translated space that its records lie in, rather than reads it (13_async_copy.md R305 to
R311). -/
def CopyKind.writesMem : CopyKind → Bool
  | .tile out _ _ _ _ _ _ => out
  | .scatter _ _ => true
  | .pack _ _ _ => true
  | _ => false

/-- The operation uses what a renewal found: the new translation, or, where the walk found SWAP = 1 or no entry that still grants
the access, none, and no cached one either, so that it stalls for a walk of its own (R222, R229, R230). -/
def CopyJob.renewed (j : CopyJob) (t : Tlb) : WalkRes → CopyJob
  | .ok n _ => { j with tlb := j.tlb.map (fun e => if e = t then n else e) }
  | _ => { j with tlb := j.tlb.filter (· != t), stale := t.va / 65536 :: j.stale }

/-- The Enlarger walks again a page whose lease has less than a quarter left, for the access that its operation makes; lines not
yet accepted use what the walk finds (R221, R229).  A combined translation's duration is taken from the earliest read on its path to
its expiry: DESIGN CHOICE, R229 speaks of one entry's duration (notes/assumptions 58).  A walk over a fenced link gets no answer, and the
operation goes on to its lease's end (R398). -/
def State.renew (s : State) (h k : Nat) (t : Tlb) : State :=
  let now := s.chipTime
  match mfind (s.humAt h).enl k with
  | none => s
  | some j =>
    if now < t.expiry && 4 * (t.expiry - now) < t.expiry - t.read && !(s.faulty (512 + h)) then
      let w := j.kind.writesMem
      let r := s.walkFull h t.fn t.va { r := !w, w := w }
      if s.walkLost h t.fn (s.unitLaunch h k) r.reads then s
      else
        let s := s.noteWalk t.fn h r
        let s := match r.res with
          | .ok _ upd => (s.writeMarks t.fn upd).keepWalk h t.fn r.path
          | _ => s
        s.setJob h k (j.renewed t r.res)
    else s

/-- The Enlarger renews the leases of an operation that near their end (R229). -/
def execEnlargerLeaseRenewal (h k : Nat) (s : State) : Out :=
  match mfind (s.humAt h).enl k with
  | none => .next s
  | some j => .next (j.tlb.foldl (fun s t => s.renew h k t) s)

/-- An L1 copy of an unowned word is dropped 4,096 ns after its fill (R236). -/
def execL1CopyExpiry (h c line : Nat) (s : State) : Out :=
  let k := s.coreAt h c
  match mfind k.l1 line with
  | none => .next s
  | some l => if l.time + Config.l1MaxAge ≤ s.chipTime then .next (s.setCoreAt h c { k with l1 := mdel k.l1 line }) else .next s

/-! ### The swap engine (R230) -/

/-- Move the bytes of a range, keeping those already listed elsewhere. -/
def copyRange (m : Memory) (src dst n : Nat) : Memory :=
  (m.filter (fun (e : Nat × Byte) => decide (src ≤ e.1) && decide (e.1 < src + n))).foldl
    (fun a (e : Nat × Byte) => memWrite a (dst + (e.1 - src)) e.2) (zeroRange m dst n)

/-- Move the poison marks of the lines of a range. -/
def movePoison (p : List Nat) (src dst n : Nat) : List Nat :=
  (p.filter (fun l => !(decide (dst / 128 ≤ l) && decide (l < (dst + n) / 128))))
    ++ (p.filter (fun l => decide (src / 128 ≤ l) && decide (l < (src + n) / 128))).map (fun l => dst / 128 + (l - src / 128))

/-- Drain every accumulator that lies in a range. -/
def State.drainRange (s : State) (a n : Nat) : State :=
  s.hums.foldl (fun t (e : Nat × Hum) =>
    (e.2.wins.filter (fun w => decide (a ≤ w.1) && decide (w.1 < a + n))).foldl (fun t w => t.drainWin e.1 w.1) t) s

/-- The leaf whose TIER a page takes and its level: the PF's, or a VF's stage-2 leaf (R210). -/
def State.leafOf (s : State) (h f va : Nat) : Option (Pte × Nat) :=
  let x := s.fnAt f
  if f = 0 then
    match (walkLevels s h f true false trDirect va [3, 2, 1] x.root1).res with
    | .leaf e l => some (e, l)
    | _ => none
  else
    match (walkLevels s h f false true (s.trGuest h f) va [3, 2, 1] x.root1).res with
    | .leaf e l =>
      match (s.walk2 h f (e.frame / leafSize l * leafSize l + va % leafSize l)).res with
      | .leaf e2 l2 => some (e2, l2)
      | _ => none
    | _ => none

/-- Whether a host-physical range lies within one HBM stack below its LIVETOP, or within the decoder of the device attached to
a CXL port (17_device_boundary.md R411, R412). -/
def State.swappable (s : State) (a n : Nat) : Bool :=
  if a / 2 ^ 54 = 2 then
    let x := a % 2 ^ 54
    let c := x / 2 ^ 42 % 8
    decide (x / 2 ^ 45 = s.pkg.pkgnum) && decide (x / 2 ^ 51 = 0)
      && decide (x % 2 ^ 42 + n ≤ min (Config.cxlBytes c) (2 ^ 42)) && !((s.linkAt c 8).fenced)
  else decide (a < 2 ^ 54) && !(s.remote a) && s.assigned a && s.assigned (a + n - 1) && decide (a / 2 ^ 37 = (a + n - 1) / 2 ^ 37)

/-- Whether the swap engine can exchange a page: both frames exist, and the new one lies in the tier that it goes to. -/
def State.swapOk (s : State) (p : Pte) (level frame tier : Nat) : Bool :=
  let n := leafSize level
  s.swappable (p.frame / n * n) n && s.swappable (frame * 65536) n && decide (frame * 65536 % n = 0)
    && (decide (tier % 2 = 1) == decide (frame * 65536 / 2 ^ 54 = 2))

/-- The swap engine begins exchanging a page (R230 step 1): its leaf takes SWAP = 1 and L = 0, once the leaf's home can take the write
(R212, R214); `frame` is the new frame's number. -/
def State.beginSwap (s : State) (f va frame tier : Nat) : State :=
  match (s.uncached 0).leafOf 0 f va with
  | none => s
  | some (p, l) =>
    if p.swap || !(s.swapOk p l frame tier) || s.homeHolds (s.homeOf {} p.addr) p.addr then s
    else
      let s := (s.drainFor p.addr 8).performStore 0 ownHome p.addr 8 ((p.lo - p.cls * 2 ^ 5) ||| 2 ^ 30)
      let n := leafSize l
      let w : Swap := {
        fn := f, entry := p.addr, cls := p.cls, from_ := p.frame / n * n, to_ := frame * 65536
        tier := tier % 2, size := n, until_ := s.chipTime + leaseNs p.cls + 128 }
      { s with swaps := s.swaps ++ [w] }

/-- The swap engine begins an exchange (R230). -/
def execSwapEngineExchange (f va frame tier : Nat) (s : State) : Out := .next (s.beginSwap f va frame tier)

/-- Whether a request accepted in a range has still to be performed there (R230: the copy holds every accepted write). -/
def State.acceptedIn (s : State) (a n : Nat) : Bool :=
  s.cores.any (fun (e : Nat × Core) => e.2.reqs.any (fun r =>
    r.acc != 0 && decide (a ≤ r.line * 128) && decide (r.line * 128 < a + n)))

/-- The swap engine copies a page, its poison marks with it (R412), and rewrites its entry (R230 steps 3 to 5).  The class of step 5 is
the one that the entry had: DESIGN CHOICE, R230 calls it the entry's new class and gives none (notes/assumptions 33). -/
def State.endSwap (s : State) (w : Swap) : State :=
  let s := s.drainRange w.from_ w.size
  let s := { s with mem := copyRange s.mem w.from_ w.to_ w.size, poison := movePoison s.poison w.from_ w.to_ w.size }
  let s := s.drainFor w.entry 16
  let lo := readN s.mem w.entry 8
  let lo := lo - bitsOf lo 28 2 * 2 ^ 28 + w.tier * 2 ^ 28
  let lo := lo - bitsOf lo 5 4 * 2 ^ 5 + w.cls * 2 ^ 5
  let hi := readN s.mem (w.entry + 8) 8
  let s := s.performStore 0 ownHome (w.entry + 8) 8 (hi - bitsOf hi 0 40 + w.to_ / 65536)
  s.performStore 0 ownHome w.entry 8 (lo - (if bitOf lo 30 then 2 ^ 30 else 0))

/-- After the horizon, and over CXL ports in service, the swap engine makes the exchange (R230, R398). -/
def execSwapHorizonEnd (k : Nat) (s : State) : Out :=
  match s.swaps[k]? with
  | none => .next s
  | some w =>
    if s.chipTime < w.until_ || s.acceptedIn w.from_ w.size || !(s.swappable w.from_ w.size) || !(s.swappable w.to_ w.size)
        || s.homeHolds (s.homeOf {} w.entry) w.entry then
      .next s
    else .next (({ s with swaps := s.swaps.eraseIdx k } : State).endSwap w)

/-! ### Requests at their homes (R201, R212, R228) -/

/-- The arbiters on a request's way (R173 Table 7.8), as a hummock and a number there (notes/assumptions 16): its sedge's local
crossbar port (100 and the sedge) or the Enlarger's queue selector (108), the memory-side ports of the central crossbars (200 and the
port), the mesh links (78 and the link), then the slice (300 and its number) and the HBM channel (its number), the fabric port (64 and
its number), or the host port. -/
def State.arbsOf (s : State) (r : Req) : List (Nat × Nat) :=
  let w := s.wayOf r
  (if r.eng then [(r.who.h, 108)] else [(r.who.h, 100 + r.who.c / 8)])
    ++ (meshSteps r.who.h w.1).flatMap (fun p => [(p.1, 213), (p.1, 78 + meshPort p.1 p.2)])
    ++ (match w.2 with
      | some 16 => [(w.1, 210)]
      | some l => [(w.1, 212), (w.1, 64 + fabricPort w.1 l)]
      | none => [(w.1, 200 + r.slice / 8), (w.1, 300 + r.slice),
          (w.1, 4 * (r.line * 128 / 2 ^ 37 % 16) + Config.hbmChannel r.line % 4)])

/-- Whether every arbiter on its way has granted a request. -/
def State.through (s : State) (r : Req) : Bool := decide ((s.arbsOf r).length ≤ r.hops)

/-- The number of the queue whose launch a request belongs to. -/
def State.queueOf (s : State) (r : Req) : Nat :=
  let x := s.launchAt (s.rootLaunch r.launch)
  64 * x.hum + x.queue

/-- Two requests are to one line, or to one address whose translation lapsed (R228, R237). -/
def Req.sameLine (a b : Req) : Bool := a.line == b.line || (a.fn == b.fn && a.va == b.va)

/-- A store that passes the host ordering point (R202). -/
def Req.posted (r : Req) : Bool := isHost (r.line * 128) && r.kind.writes

/-- Two requests pass one point in the order in which they issue: posted writes at one host ordering point (R202), or effects in
one function's tray (R369). -/
def Req.queued (a b : Req) : Bool := (a.posted && b.posted && a.home == b.home) || (a.tray && b.tray && a.fn == b.fn)

/-- Whether the releases that bear on a request are done (R239): a release follows the accesses it orders, and a load or
returning atomic, which a later fence can make an acquire point, follows its threads' earlier releases; an SC load is not held back
by accesses to other pages (R246; notes/assumptions 55). -/
def State.inTurn (s : State) (rs : List Req) (k : Nat) (r : Req) : Bool :=
  let here := s.at_ r.who
  (!r.rel || here.drainedIf (fun n => decide (n ≤ r.after)) r.slots)
    && (!r.kind.returns || (r.sc && !r.acq)
      || ((rs.take k).all (fun e => !(e.rel && e.slots.any (fun t => r.slots.contains t)))
        && here.core.pend.all (fun p => decide (r.id ≤ p.upto) || p.slots.all (fun t => !r.slots.contains t))))

/-- Whether request `k` of a core may be accepted (R201, R202, R212, R237, R239, R369): its home runs, it can get there, the core's
earlier requests to its line or to SC pages are accepted, no window reduction of the core is on its way to its line, and every
earlier request that passes its ordering point or its tray is accepted. -/
def State.acceptable (s : State) (rs : List Req) (k : Nat) (r : Req) : Bool :=
  r.acc == 0 && !r.walking && !(s.faulty (512 + (s.localHum r.home).getD 64)) && !(s.overFenced r) && !(s.travels r)
    && (rs.take k).all (fun e => e.acc != 0 || !(e.sameLine r || (r.sc && e.sc) || e.queued r))
    && s.cores.all (fun c => c.2.reqs.all (fun e => e.acc != 0 || !(e.queued r) || decide (r.id ≤ e.id)))
    && s.inTurn rs k r

/-- Whether a line of an engine can go on its way: its function runs and its translation holds, its home runs and is free, and no link
on the way is fenced (R212, R214, R370, R398). -/
def State.engineReady (s : State) (r : Req) : Bool :=
  (s.fnAt r.fn).ck.state == .run && !(s.ckFull r.fn) && decide (s.chipTime < r.expiry)
    && !(s.faulty (512 + (s.localHum r.home).getD 64)) && !(s.lineTaken r.line) && !(s.overFenced r)

/-- The requests that wait at an arbiter: of threads, and of the engines. -/
def State.waitingAt (s : State) (a : Nat × Nat) : List Req :=
  (s.cores.flatMap (fun (e : Nat × Core) =>
    ((List.range e.2.reqs.length).filterMap (fun k =>
      (e.2.reqs[k]?).bind (fun r => if s.acceptable e.2.reqs k r && decide (s.chipTime < r.expiry) then some r else none))))
    ++ s.engineReqs.filter s.engineReady).filter (fun r => (s.arbsOf r)[r.hops]? == some a)

/-- Whether no request anywhere is reserved: every arbiter then grants what reaches it. -/
def State.noMarks (s : State) : Bool :=
  s.cores.all (fun (e : Nat × Core) => e.2.reqs.all (fun r => !r.mark)) && s.engineReqs.all (fun r => !r.mark)

/-- The first number after `last` of some numbers, in cyclic order. -/
def nextAround (last : Nat) (qs : List Nat) : Nat :=
  let above := qs.filter (fun q => decide (last < q))
  (if above.isEmpty then qs else above).foldl min (2 ^ 20)

/-- What an arbiter grants next, among the waiting requests (R173): best-effort ones when none is reserved or after seven
reserved grants, else the reserved ones of the next queue in turn. -/
def State.granted (s : State) (last since : Nat) (ws : List Req) (r : Req) : Bool :=
  let reserved := ws.filter (fun w => w.mark)
  if reserved.isEmpty || (decide (7 ≤ since) && ws.any (fun w => !w.mark)) then !r.mark
  else r.mark && s.queueOf r == nextAround last (reserved.map s.queueOf)

/-- An arbiter's state after it served a request. -/
def State.served (s : State) (last since : Nat) (ws : List Req) (r : Req) : Nat × Nat :=
  if r.mark then (s.queueOf r, if ws.any (fun w => !w.mark) then since + 1 else 0) else (last, 0)

/-- Whether an arbiter grants a request that has reached it, and the state after that (R173). -/
def State.grant (s : State) (a : Nat × Nat) (r : Req) : Option State :=
  let x := mget (2 ^ 20, 0) (s.humAt a.1).arbs a.2
  let ws := r :: s.waitingAt a
  if ws.all (fun w => !w.mark) then some s
  else if s.granted x.1 x.2 ws r then
    some (s.setHum a.1 { s.humAt a.1 with arbs := mset (s.humAt a.1).arbs a.2 (s.served x.1 x.2 ws r) })
  else none

/-- A request passes the arbiters on its way that grant it, at most `n`. -/
def State.pass : (n : Nat) → State → Req → State × Req
  | 0, s, r => (s, r)
  | n + 1, s, r =>
    match (s.arbsOf r)[r.hops]? with
    | none => (s, r)
    | some a => match s.grant a r with
      | some t => State.pass n t { r with hops := r.hops + 1 }
      | none => (s, r)

/-- A request goes on its way as far as the arbiters grant (R173). -/
def State.arbitrate (s : State) (r : Req) : State × Req :=
  if !r.mark && s.noMarks then (s, { r with hops := (s.arbsOf r).length }) else s.pass 32 r

/-- The lines of an engine's unit go on their way as far as the arbiters grant (R173): `sent` are those that went before, and the
others issue now. -/
def State.sendLines (s : State) (sent rs : List Req) : State × List Req :=
  rs.foldl (fun (p : State × List Req) r =>
    let q := match sent.find? (fun e => e.line == r.line) with
      | some e => (p.1, e)
      | none => p.1.markReq r
    let t := q.1.arbitrate q.2
    (t.1, p.2 ++ [t.2])) (s, [])

/-- Send a lapsed line to be walked again (R228); with the pending list full it waits (R220). -/
def State.replayReq (s : State) (k : Nat) (r : Req) : State :=
  let c := s.coreAt r.who.h r.who.c
  let d := s.humAt r.who.h
  if 256 ≤ d.pending.length then s
  else
    let i := (r.items.find? (fun i => !i.helper)).getD {}
    let s := s.setCoreAt r.who.h r.who.c { c with reqs := c.reqs.set k { r with walking := true, hops := 0 } }
    let w : Walk := {
      who := r.who, fn := r.fn, va := r.va, write := r.kind.writes, glb := r.glb && !r.helperOnly, launch := r.launch
      lane := i.lane, off := i.off, helper := r.helperOnly, replay := true }
    s.setHum r.who.h { d with pending := d.pending ++ [w] }

/-- A store or reduction all of whose lines are accepted is complete: its group's report mask is written (R185, R228). -/
def State.posted (s : State) (r : Req) : State :=
  let k := s.coreAt r.who.h r.who.c
  match k.outs.find? (fun o => o.id == r.id) with
  | none => s
  | some o =>
    if o.op.kind.returns || k.reqs.any (fun e => e.id == r.id && e.acc == 0) then s
    else
      let t := s.setCoreAt r.who.h r.who.c { k with outs := k.outs.filter (fun x => x.id != r.id) }
      match o.grp with
      | some g => (t.at_ { r.who with g := g }).report o.op
      | none => t

/-- A line of an access has been accepted (R228). -/
def State.noteAccepted (s : State) (r : Req) : State :=
  let k := s.coreAt r.who.h r.who.c
  let s := s.setCoreAt r.who.h r.who.c { k with
    outs := k.outs.map (fun o => if o.id = r.id then { o with any := true } else o) }
  let s := if ((mget {} k.groups r.who.g).accepting.map Prod.fst) = some r.id then s.modGroup r.who Group.accepted else s
  s.posted r

/-- Request `k` is accepted at its home (R212); a load whose line has become poisoned traps with POISON, or its launch ends with the
status of that trap where its group has gone on (R204, R353; notes/assumptions 55). -/
def State.acceptReq (s : State) (k : Nat) (r : Req) : State :=
  match (if r.kind = .load && s.linePoison r.line then r.items.find? (fun i => !i.helper) else none) with
  | some i =>
    let s := if s.assigned (r.line * 128) then s else s.logErr 0 3 r.who.h (r.line * 128) 0
    s.failLate r tPoison i.lane i.off 0 (32 + tPoison)
  | none =>
    let c := s.coreAt r.who.h r.who.c
    let n := s.reqCtr + 1
    (({ s with reqCtr := n } : State).setCoreAt r.who.h r.who.c { c with reqs := c.reqs.set k { r with acc := n } }).noteAccepted r

/-- Whether an accepted request may be performed: after the earlier ones to its line (R212, R237), the core's earlier SC
accesses (R201), and the earlier ones that pass its ordering point or its tray (R202, R369). -/
def State.performable (s : State) (rs : List Req) (k : Nat) (r : Req) : Bool :=
  (rs.take k).all (fun e => !(e.sameLine r) && !(r.sc && e.sc) && !(e.queued r))
    && s.cores.all (fun c => c.2.reqs.all (fun e =>
        e.acc == 0 || decide (r.acc ≤ e.acc) || !(e.line == r.line || e.queued r)))

/-- Perform accepted request `k` (R235, R255): the values it returns are kept for its instruction's completion. -/
def State.performAt (s : State) (k : Nat) (r : Req) : State :=
  let c := s.coreAt r.who.h r.who.c
  let s := s.setCoreAt r.who.h r.who.c { c with reqs := c.reqs.eraseIdx k }
  let p := s.performReq r
  let got := p.2.filter (fun i => !(i.helper && p.1.linePoison (i.addr / 128)))
  let c := p.1.coreAt r.who.h r.who.c
  p.1.setCoreAt r.who.h r.who.c { c with
    outs := c.outs.map (fun o => if o.id = r.id then { o with got := o.got ++ got } else o) }

/-- A line request `k` of a core goes on to its home (R173, R212): once the arbiters on its way have granted it, it is accepted below
its expiry, else walked again; an accepted one is performed. -/
def execHomeRequestArrival (h c k : Nat) (s : State) : Out :=
  let rs := (s.coreAt h c).reqs
  match rs[k]? with
  | none => .next s
  | some r =>
    if r.acc ≠ 0 then (if s.performable rs k r then .next (s.performAt k r) else .next s)
    else if !(s.acceptable rs k r) then .next s
    else if r.expiry ≤ s.chipTime then .next (s.replayReq k r)
    else
      let p := s.arbitrate r
      .next (if p.1.through p.2 then p.1.acceptReq k p.2
        else p.1.setCoreAt h c { p.1.coreAt h c with reqs := rs.set k p.2 })

/-! ### Completion of loads and returning atomics (R64, R185, R254) -/

/-- The registers and the report mask of an access, written as one event: of its group while that lives, else of its threads;
`ld.acq` then makes its acquire and its group goes on (R185, R196, R254). -/
def State.finish (s : State) (h c : Nat) (o : Outst) : State :=
  let k := s.coreAt h c
  let s := s.setCoreAt h c { k with outs := k.outs.filter (fun x => x.id != o.id) }
  let val := fun (l : Nat) => extendLoad o.op.ty (gotVal o.got l)
  match o.grp with
  | some g =>
    let s := s.at_ { h := h, c := c, g := g }
    let s := (s.writeTy o.op.ty o.op.live o.op.dst.toNat val).report o.op
    if s.grp.wait = .mem o.id then s.acquire.endMem else s
  | none =>
    let k := s.coreAt h c
    s.setCoreAt h c { k with rf := o.regs.foldl (fun m (e : Nat × Nat) =>
      let m := mset m e.2 (lo32 (val e.1))
      if o.op.ty.is64 then mset m (e.2 + 1) (hi32 (val e.1)) else m) k.rf }

/-- An access of a group, or of threads whose group has dissolved for group number 64, all of whose lines have returned. -/
def Core.returned (k : Core) (g : Nat) (load : Bool) : Option Outst :=
  k.outs.find? (fun o => o.grp == (if g < 64 then some g else none) && o.op.kind.returns && (o.op.kind == .load) == load
    && k.reqs.all (fun r => r.id != o.id))

/-- A load's last line has returned (R185, R187). -/
def execLoadComplete (h c g : Nat) (s : State) : Out :=
  match (s.coreAt h c).returned g true with
  | some o => .next (s.finish h c o)
  | none => .next s

/-- A returning atomic's last lane operation has returned (R254). -/
def execAtomicReturn (h c g : Nat) (s : State) : Out :=
  match (s.coreAt h c).returned g false with
  | some o => .next (s.finish h c o)
  | none => .next s

/-- A fence's conditions hold and the group goes on (R197). -/
def execFenceRelease (h c g : Nat) (s0 : State) : Out :=
  let s := s0.at_ { h := h, c := c, g := g }
  match s.grp.wait with
  | .fence mode e => if s.fenceDone mode (s.slotsOf e) then .next (s.fenceEnd mode (s.slotsOf e)) else .next s0
  | _ => .next s0

/-- `tok.rd` writes its function's token to two lines of its own scratchpad (16_tenants.md R391); `at_` is the first byte. -/
def State.tokenGo (s : State) (dst : Reg) (live : Word) (at_ : Nat) : State :=
  let x := s.fnAt s.accFn
  let bytes := (List.range 256).map (fun i => x.token.getD i 0)
  let s := s.setCore { s.core with
    scratch := writeBytes s.core.scratch at_ bytes
    poison := s.core.poison.filter (fun l => l != at_ / 128 && l != at_ / 128 + 1) }
  ((s.acquire).writeLanes live dst.toNat (fun _ => if x.tokseq = 0 then 1 else 0)).endMem

/-- Whether both lines of a token's place are present (R190). -/
def State.tokenReady (s : State) (at_ : Nat) : Bool :=
  !(s.core.absent.contains (at_ / 128)) && !(s.core.absent.contains (at_ / 128 + 1))

/-- A parked access whose lines are present: a load that finds a poisoned line takes POISON (R204), and otherwise ends with an
acquire (R190); an atomic's check at rank 7 stands (R257). -/
def State.unpark (s : State) (op : MemOp) : State :=
  match (if op.kind == .load then s.scrPoison op else none) with
  | some i => s.trap tPoison i.lane i.off
  | none => if op.kind == .load then (s.scrAct op).acquire else s.scrAct op

/-- A parked access performs once its lines are present, in its turn among the core's accesses to its words (R190, R237); an
acquire waits for its threads' releases (R239).  So do a parked `ldacc`, once the operations before it have completed (R194), and
a parked `tok.rd` (R391). -/
def execParkWake (h c g : Nat) (s0 : State) : Out :=
  let s := s0.at_ { h := h, c := c, g := g }
  match s.grp.wait with
  | .park op n =>
    if s.allPresent op && !(s.scrBehind op n) && (!op.kind.returns || s.released (s.slotsOf op.exe)) then .next (s.unpark op)
    else .next s0
  | .ldacc op n => if n ≤ s.wg.qm.donen && s.released (s.slotsOf op.exe) then .next (s.ldaccPerform op) else .next s0
  | .token dst live at_ =>
    if s.tokenReady at_ && s.released (s.slotsOf live) then .next (s.tokenGo dst live at_) else .next s0
  | _ => .next s0

/-! ### Window reductions on their way (R260, R262) -/

/-- A travelling window reduction reaches its home's accumulator (R260, R262). -/
def execWindowReductionAccept (k : Nat) (s : State) : Out :=
  match s.travel[k]? with
  | none => .next s
  | some t => .next ({ s with travel := s.travel.eraseIdx k }.winArrive t.home t.addr t.acc)

/-- An accumulator that has taken 2^40 contributions drains (R260). -/
def execWindowContributionLimit (h a : Nat) (s : State) : Out :=
  match mfind (s.humAt h).wins a with
  | none => .next s
  | some w => if 2 ^ 40 ≤ w.count then .next (s.drainWin h a) else .next s

/-- A fabric switch combines two window reductions for one word (R262). -/
def execSwitchMerge (k j : Nat) (s : State) : Out :=
  match s.travel[k]?, s.travel[j]? with
  | some a, some b =>
    if k < j && a.addr = b.addr && a.fn = b.fn && a.acc.op = b.acc.op && a.acc.ty = b.acc.ty then
      let m := { a with froms := a.froms ++ b.froms, acc := winMerge a.acc b.acc }
      .next { s with travel := (s.travel.eraseIdx j).set k m }
    else .next s
  | _, _ => .next s

end Sys2Proof.Machine
end

