-- ==== Sys2Proof/Machine/Work.lean ====
section
/-! DEFINITION. Yield and sleep, work creation, bins and drawing, and job posting (03_scalar_control.md R80, R81;
07_work_creation.md R144 to R160). -/

namespace Sys2Proof.Machine

/-! ### Yield and sleep (R80, R81) -/

/-- Whether a group is ready (R170). -/
def Group.ready (g : Group) : Bool := g.wait == Wait.ready

/-- The other ready groups of the acting group's pipe at the same or a higher effective priority (R80). -/
def State.yieldTo (s : State) : List Nat :=
  let k := s.core
  ((k.groups.filter (fun (e : Nat × Group) =>
    e.1 != s.cur.g && e.2.pipe == s.grp.pipe && e.2.ready && decide (k.groupPri s.grp ≤ k.groupPri e.2)
      && !(mget {} k.wgs e.2.wgs).stopped))).map Prod.fst

/-- `yield` (R80). -/
def execYield (c : SCond) (s : State) : Out :=
  .next (s.when c (match s.yieldTo with
    | [] => s.advance
    | o => (s.advance).setWait (.yield (s.cycles s.cur.h + 16) o)))

/-- `sleep` (R81). -/
def execSleep (c : SCond) (b : Op2) (s : State) : Out :=
  let n := (s.op2 b).toNat
  .next (s.when c (if n = 0 then (s.latchOp2 b).advance
    else ((s.latchOp2 b).advance).setWait (.sleep (s.chipTime + n))))

/-- A yielding group becomes eligible again (R80). -/
def execYieldEnd (h c g : Nat) (s0 : State) : Out :=
  let s := s0.at_ { h := h, c := c, g := g }
  match s.grp.wait with
  | .yield t others =>
    if t ≤ s.cycles h || others.all (fun o => (mfind s.core.groups o).isNone) then .next (s.setWait .ready) else .next s0
  | _ => .next s0

/-- A sleeping group wakes (R81). -/
def execSleepWake (h c g : Nat) (s0 : State) : Out :=
  let s := s0.at_ { h := h, c := c, g := g }
  match s.grp.wait with
  | .sleep t => if t ≤ s.chipTime then .next (s.setWait .ready) else .next s0
  | _ => .next s0

/-! ### Spawn (R153, R154) -/

/-- The entry of a spawn (R153). -/
def State.spawnEntry (s : State) : SpawnEntry → Word
  | .label off => s.target (off.signExtend 32)
  | .code c => s.scalar c

/-- The state after reading the entry (R28). -/
def State.latchEntry (s : State) : SpawnEntry → State
  | .label _ => s
  | .code c => s.latchRead c

/-- The lowest free slot of a workgroup's reservation (R144). -/
def Core.freeSlot (k : Core) (w : Wg) : Option Nat :=
  ((List.range w.lim).map (fun i => w.sbase + i)).find? (fun i => (mget {} k.slots i).state == 0)

/-- The lowest free thread index of a workgroup (R144). -/
def Core.freeIdx (k : Core) (wgs : Nat) (w : Wg) : Nat :=
  ((List.range w.lim).find? (fun i => k.slots.all (fun (e : Nat × Slot) =>
    e.2.state == 0 || e.2.wgs != wgs || e.2.tidx != i))).getD 0

/-- Zero the registers of a slot (R144). -/
def Core.zeroSlot (k : Core) (w : Wg) (slot : Nat) : Core :=
  let r := w.rbase + (slot - w.sbase) * w.n
  { k with rf := k.rf.filter (fun (e : Nat × Word) => decide (e.1 < r) || decide (r + w.n ≤ e.1)) }

/-- Allocate a slot to a new thread with an index: zeroed, with no arrival record (R144, R268).  Its STATE reads 1 until it is filed:
DESIGN CHOICE, R145 names no state for a spawned thread whose filing waits for its parent's accesses (notes/assumptions 58). -/
def Core.allot (k : Core) (wgs slot tidx : Nat) : Core :=
  let w := mget {} k.wgs wgs
  let k := k.zeroSlot w slot
  { k with slots := mset k.slots slot { tidx := tidx, wgs := wgs, state := 1, fresh := true },
           wgs := mset k.wgs wgs { w with arr := mdel w.arr tidx } }

/-- An effect that carries a release of some threads: it takes place at once where their earlier accesses are done, and
otherwise when they are (03_scalar_control.md R83, R239). -/
def State.release (s : State) (slots : List Nat) (what : PendWhat) (now : State → State) : State :=
  if s.drained slots then now s
  else s.setCore { s.core with pend := s.core.pend ++ [{ upto := s.reqCtr, slots := slots, what := what }] }

/-- File a thread of a core. -/
def State.fileAt (s : State) (h c slot : Nat) (pc : Word) (far : Int) : State :=
  s.setCoreAt h c ((s.coreAt h c).file slot pc (s.cycles h) far)

/-- Create one thread from a lane, if a slot is free: it is filed once the lane's earlier accesses are done (R153, R154). -/
def State.spawnLane (s : State) (e : Word) (far : Int) (f n l : Nat) : State × Bool :=
  let k := s.core
  match k.freeSlot s.wg with
  | none => (s, false)
  | some t =>
    let regs := (List.range n).map (fun i => s.lreg l (f + i))
    let k := k.allot s.grp.wgs t (k.freeIdx s.grp.wgs s.wg)
    let base := s.wg.rbase + (t - s.wg.sbase) * s.wg.n
    let rf := (List.range n).foldl (fun m i => mset m (base + i) (regs.getD i 0)) k.rf
    ((s.setCore { k with rf := rf }).release [mget 0 s.grp.roster l] (.file t e far)
      (fun u => u.fileAt s.cur.h s.cur.c t e far), true)

/-- How far beyond the PC register the entry of a spawn lies (R48). -/
def State.spawnFar (s : State) : SpawnEntry → Int
  | .label off => s.farOf (off.signExtend 32)
  | .code _ => 0

/-- `spawn` (R153, R154): a release of each spawning lane's earlier stores, which delays the filing of its child alone. -/
def execSpawn (c : SCond) (d src : MReg) (f : Reg) (n : BitVec 4) (e : SpawnEntry) (s : State) : Out :=
  let a := s.spawnEntry e
  let set := s.grp.mreg src.toNat &&& s.grp.m0
  .next (s.when c (
    if a.toNat % 8 ≠ 0 then s.trap tMisalignedPc
    else
      let p := (lanesOf set).foldl (fun (p : State × Word) l =>
        let q := p.1.spawnLane a (s.spawnFar e) f.toNat n.toNat l
        (q.1, if q.2 then p.2 ||| BitVec.ofNat 32 (2 ^ l) else p.2)) (s.latchEntry e, 0)
      (p.1.setM d.toNat p.2).advance))

/-! ### Reform and retire (R155 to R157) -/

/-- `reform` (R155). -/
def execReform (c : SCond) (t : Option Reg) (s : State) : Out :=
  let target := fun (l : Nat) => match t with
    | some r => if s.grp.m0.getLsbD l then s.lreg l r.toNat else s.grp.pc + 8
    | none => s.grp.pc + 8
  .next (s.when c (match misaligned (lanesOf s.grp.member) target with
    | some l => s.trap tMisalignedPc l
    | none => s.dissolveTo target))

/-- `reform.two` (R156). -/
def execReformTwo (c : SCond) (m : MReg) (off : Word) (s : State) : Out :=
  let hit := fun (l : Nat) => (s.exe m).getLsbD l
  .next (s.when c (s.dissolveTo (fun l => if hit l then s.target off else s.grp.pc + 8)
    (fun l => if hit l then s.farOf off else 0)))

/-- Whether a workgroup has a thread in any state. -/
def Core.hasThreads (k : Core) (wgs : Nat) : Bool :=
  k.slots.any (fun (e : Nat × Slot) => e.2.state != 0 && e.2.wgs == wgs)

/-- A workgroup whose last thread has retired has ended (R157): the other ends of its channels learn it (R287). -/
def State.noteEnd (s : State) (h c wgs : Nat) : State :=
  let k := s.coreAt h c
  let w := mget {} k.wgs wgs
  if k.hasThreads wgs then s
  else (s.setCoreAt h c { k with wgs := mset k.wgs wgs { w with ended := true } }).endChannels w.launch w.num

/-- A thread ends: it leaves its barriers, its slot and index are freed, and its workgroup may have ended (R157, R271). -/
def State.endThread (s : State) (h c wgs slot tidx : Nat) : State :=
  let s := s.leaveBarriers h c wgs tidx
  let k := s.coreAt h c
  let w := mget {} k.wgs wgs
  let k := { k with slots := mdel k.slots slot, wgs := mset k.wgs wgs { w with arr := mdel w.arr tidx } }
  (s.setCoreAt h c k).noteEnd h c wgs

/-- End the threads of some lanes, each once its earlier accesses are done (R157). -/
def State.endLanes (s : State) (ls : List Nat) : State :=
  ls.foldl (fun t l =>
    let slot := mget 0 s.grp.roster l
    let tidx := s.tidxOf l
    t.release [slot] (.free s.grp.wgs slot tidx) (fun u => u.endThread s.cur.h s.cur.c s.grp.wgs slot tidx)) s

/-- `retire` (R157): a release of each ending thread's earlier stores, which delays that thread's end alone. -/
def execRetire (c : SCond) (s : State) : Out :=
  let ending := s.grp.m0 &&& s.grp.member
  let rest := (lanesOf (s.grp.member &&& ~~~ending)).map (fun l => (mget 0 s.grp.roster l, s.grp.pc + 8, (0 : Int)))
  .next (s.when c (((s.endLanes (lanesOf ending)).fileAll rest).dissolve))

/-- Set the bin-age threshold of the acting workgroup (R158): of two groups that set it in one core cycle, the value of the lower
active group number holds, as for a constant (R72). -/
def State.setBinAge (s : State) (v : Nat) : State :=
  if s.outranked 64 then s else s.setWg { s.wg with binAge := v, kw := s.written 64 }

/-- `bin.age` (R158): the scalar is clamped as an unsigned value, DESIGN CHOICE, since the spec does not say whether it has a
sign (notes/assumptions 58). -/
def execBinAge (c : SCond) (b : Op2) (s : State) : Out :=
  let v := Nat.min 4096 (Nat.max 16 (s.op2 b).toNat)
  .next (s.when c ((s.latchOp2 b).setBinAge v).advance)

/-! ### Bins (R146 to R151) -/

/-- The age of a thread filed at a cycle: FILED holds 32 bits of the cycle count (R145). -/
def agedBy (now filed : Nat) : Nat := (now % 2 ^ 32 + 2 ^ 32 - filed) % 2 ^ 32

/-- The age of a bin (R146): one written through the window goes on from there (R149). -/
def Core.binAgeOf (k : Core) (now : Nat) (b : Bin) : Nat :=
  match b.entry with
  | some (x, at_) => bitsOf x 47 13 + (now - at_)
  | none => b.threads.foldl (fun a t => max a (agedBy now (mget {} k.slots t).filed)) 0

/-- The highest effective priority of a bin's threads; one written through the window stands unless a thread inherits a higher
(R149, R171). -/
def Core.binPri (k : Core) (b : Bin) : Nat :=
  match b.entry with
  | some (x, _) => b.threads.foldl (fun p t => max p (mget {} k.slots t).ipri) (bitsOf x 74 8)
  | none => b.threads.foldl (fun p t => max p (k.effPri t)) 0

/-- The number of a bin's threads, as its entry has it (Table 7.2). -/
def Bin.occ (b : Bin) : Nat :=
  match b.entry with
  | some (x, _) => bitsOf x 36 11
  | none => b.threads.length

/-- Whether a bin is ready (R147). -/
def Core.binReady (k : Core) (now : Nat) (b : Bin) : Bool :=
  let age := k.binAgeOf now b
  !b.threads.isEmpty &&
    (decide (32 ≤ b.occ) || decide ((mget {} k.wgs b.wg).binAge ≤ age)
      || (!k.waitingSlots.isEmpty && k.bins.all (fun (e : Nat × Bin) => decide (k.binAgeOf now e.2 ≤ age)))
      || b.threads.any (fun t => decide ((mget {} k.wgs (mget {} k.slots t).wgs).prio < (mget {} k.slots t).ipri)))

/-- A bin becomes ready, or ready no longer (R147). -/
def execBinAgeThreshold (h c b : Nat) (s : State) : Out :=
  let k := s.coreAt h c
  let x := mget {} k.bins b
  let is := k.binReady (s.cycles h) x
  if x.ready.isSome = is then .next s
  else .next (s.setCoreAt h c { k with
    bins := mset k.bins b { x with ready := if is then some (s.cycles h) else none } })

/-- The groups of a pipe. -/
def Core.pipeCount (k : Core) (p : Nat) : Nat := (k.groups.filter (fun (e : Nat × Group) => e.2.pipe == p)).length

/-- The pipe with fewest active groups, if one has a free place (R147). -/
def Core.drawPipe (k : Core) : Option Nat :=
  (List.range 4).find? (fun p => decide (k.pipeCount p < Config.groupsPerPipe)
    && (List.range 4).all (fun q => decide (k.pipeCount p ≤ k.pipeCount q)))

/-- The bin a core draws from: the ready bin of highest priority, and of these the oldest (R147); among bins of one priority and
age the lowest, DESIGN CHOICE (notes/assumptions 57). -/
def Core.drawBin (k : Core) (now : Nat) : Option (Nat × Bin) :=
  let rs := k.bins.filter (fun (e : Nat × Bin) => k.binReady now e.2)
  rs.find? (fun e => rs.all (fun x => decide (k.binPri x.2 < k.binPri e.2)
    || (k.binPri x.2 == k.binPri e.2 && decide (k.binAgeOf now x.2 ≤ k.binAgeOf now e.2))))

/-- Insert into a list in rising order of a key. -/
def insertBy (key : Nat → Nat) (x : Nat) : List Nat → List Nat
  | [] => [x]
  | y :: ys => if key x < key y then x :: y :: ys else y :: insertBy key x ys

/-- Sort by a key, keeping the order of equals. -/
def sortBy (key : Nat → Nat) (xs : List Nat) : List Nat := xs.foldl (fun ys x => insertBy key x ys) []

/-- The threads a draw takes: up to 32 in filing order, ties by thread index (R147), then by index (R148). -/
def Core.drawn (k : Core) (now : Nat) (b : Bin) : List Nat :=
  let byIdx := sortBy (fun t => (mget {} k.slots t).tidx) b.threads
  let order := sortBy (fun t => 2 ^ 32 - agedBy now (mget {} k.slots t).filed) byIdx
  sortBy (fun t => (mget {} k.slots t).tidx) (order.take 32)

/-- The group formed from threads of a bin (R18, R130, R148), at a chip cycle `uc` from which its turn to issue counts.  It is at
user level: DESIGN CHOICE where a handler filed or spawned its threads, for which the spec gives no level (R29, R77, R153 to R157;
notes/assumptions 58). -/
def newGroup (w : Wg) (b : Bin) (pipe age uc : Nat) (ts : List Nat) : Group :=
  let n := ts.length
  let lanes := List.range n
  { wgs := b.wg
    roster := lanes.map (fun l => (l, ts.getD l 0))
    member := maskOf lanes
    helpers := maskBy (fun l => decide (n ≤ l) && decide (l < (n + 3) / 4 * 4))
    pc := b.pc
    far := b.far
    m := [(0, maskOf lanes)]
    segs := w.segs
    hfn := w.fn
    lanes := n
    binage := age
    pipe := pipe
    last := uc }

/-- The threads of a bin that enter a group. -/
def Core.enterGroup (k : Core) (ts : List Nat) : Core :=
  { k with slots := ts.foldl (fun m t => mset m t { mget {} m t with state := 1, bin := 0, fresh := false }) k.slots }

/-- What is left of a bin after a draw; a bin without threads is free (R146). -/
def Core.leaveBin (k : Core) (bi : Nat) (b : Bin) (ts : List Nat) : Core :=
  let rest := b.threads.filter (fun t => !ts.contains t)
  { k with bins := if rest.isEmpty then mdel k.bins bi
                   else mset k.bins bi { b with threads := rest, ready := none, entry := none } }

/-- A core draws a ready bin into a new group (R147, R148); the group takes the lowest free number of 0 to 63, whatever its pipe:
DESIGN CHOICE, the spec does not say which (notes/assumptions 57). -/
def Core.draw (k : Core) (now uc : Nat) : Option Core :=
  match k.drawPipe, k.drawBin now, (List.range 64).find? (fun g => (mfind k.groups g).isNone) with
  | some p, some (bi, b), some g =>
    let ts := k.drawn now b
    let grp := newGroup (mget {} k.wgs b.wg) b p (k.binAgeOf now b) uc ts
    let k := (k.enterGroup ts).leaveBin bi b ts
    some ({ k with groups := mset k.groups g grp }).serveBins
  | _, _, _ => none

/-- Whether a bin that a core would draw holds a thread that has not run yet. -/
def Core.drawsFresh (k : Core) (now : Nat) : Bool :=
  match k.drawBin now with
  | some (_, b) => (k.drawn now b).any (fun t => (mget {} k.slots t).fresh)
  | none => false

/-- A ready bin of a core that runs is drawn (R147, R148); a thread that has not run yet begins with an acquire (R154, R165). -/
def execBinDraw (h c : Nat) (s : State) : Out :=
  let k := s.coreAt h c
  match (if k.status == .running then k.draw (s.cycles h) s.uc else none) with
  | some k' =>
    let t := s.setCoreAt h c k'
    .next (if k.drawsFresh (s.cycles h) then t.acquireAt h c else t)
  | none => .next s

/-- Whether a group holds its place parked or sleeping, not on its scoreboard or on the checks of its instruction (R148, R151,
R170). -/
def Group.parked (g : Group) : Bool :=
  match g.wait with
  | .ready => false
  | .yield _ _ => false
  | .walk _ => false
  | .drain _ _ => false
  | .order _ => false
  | .mem _ => false
  | .fence _ _ => false
  | .trap _ => false
  | _ => true

/-- A core whose group places are all held by parked or sleeping groups while a bin has been ready for 2^20 cc ends
the launches with a workgroup on it (R151). -/
def execSchedStall (h c : Nat) (s : State) : Out :=
  let k := s.coreAt h c
  if k.groups.length = 64 && k.groups.all (fun (e : Nat × Group) => e.2.parked)
      && k.bins.any (fun (e : Nat × Bin) => match e.2.ready with
        | some t => decide (t + 2 ^ 20 ≤ s.cycles h)
        | none => false) then
    .next ((k.wgs.map (fun (e : Nat × Wg) => e.2.launch)).foldl (fun t l => t.endLaunch l stStall) s)
  else .next s

/-! ### Job cards (R159, R160) -/

/-- The local hummock with logical coordinates. -/
def State.humAtXY (s : State) (x y : Int) : Option Nat :=
  (List.range 8).find? (fun h => s.lvalid h && (s.lx h : Int) == x && (s.ly h : Int) == y)

/-- The hummock of a launch's mesh with logical coordinates: of the package, or one of its rectangle in another package, by its
physical number with 8 added (notes/assumptions 9). -/
def State.meshAt (s : State) (l : Launch) (x y : Int) : Option Nat :=
  match s.humAtXY x y with
  | some h => some h
  | none => l.cells.find? (fun h => decide (8 ≤ h) && (match Config.farHum (h - 8) with
    | some c => (c.1 : Int) == x && (c.2 : Int) == y
    | none => false))

/-- The hummock that a direction selects from the poster's (R159). -/
def State.jpostHum (s : State) (l : Launch) (dir : Nat) : Option Nat :=
  let x : Int := s.lx s.cur.h
  let y : Int := s.ly s.cur.h
  match dir with
  | 0 => some s.cur.h
  | 1 => s.meshAt l (x + 1) y
  | 2 => s.meshAt l (x - 1) y
  | 3 => s.meshAt l x (y + 1)
  | _ => s.meshAt l x (y - 1)

/-- Whether a queue's register takes the cards of a function (R160, R162): its own, or another's that XEN and XFN name. -/
def HwQueue.cardsOf (q : HwQueue) (f : Nat) : Bool := q.cardq && (q.fn == f || (q.xen && q.xfn == f))

/-- The cards that a list of a tray or of pending effects holds for a queue. -/
def cardsFor (h q : Nat) (cs : List Card) : Nat := (cs.filter (fun c => c.hum == h && c.queue == q)).length

/-- The cards that wait in a function's tray. -/
def Ckpt.trayCards (k : Ckpt) : List Card := k.tray.filterMap (fun i => match i with
  | .card c => some c
  | _ => none)

/-- The cards that wait for their poster's release. -/
def Core.pendCards (k : Core) : List Card := k.pend.filterMap (fun p => match p.what with
  | .card _ c => some c
  | _ => none)

/-- Whether the card queue of a number on a hummock of a launch's mesh takes the cards of a function. -/
def State.cardQueueTakes (s : State) (f q h : Nat) : Bool :=
  if h < 8 then (mget ({} : HwQueue) (s.humAt h).queues q).cardsOf f else Config.farAnswer (h - 8) 2 f 0

/-- Whether a card queue can take no further card (R159): 2^(SIZE + 6) - 1 cards, those in trays and those whose release waits
included, since the spec gives no capacity for cards: DESIGN CHOICE (notes/assumptions 39). -/
def State.cardsFull (s : State) (l h q : Nat) : Bool :=
  if 8 ≤ h then !(Config.farAnswer (h - 8) 5 l s.chipTime)
  else
  let held := s.fns.foldl (fun n (e : Nat × Fn) => n + cardsFor h q e.2.ck.trayCards) 0
    + s.cores.foldl (fun n (e : Nat × Core) => n + cardsFor h q e.2.pendCards) 0
  decide (2 ^ ((mget {} (s.humAt h).queues q).size + 6) ≤ cardsFor h q s.cards + held + 1)

/-- A card of a launch for its card queue on a hummock (R159, R160). -/
def State.cardFor (s : State) (l h kidx : Nat) (args : List Word) : Card :=
  let x := s.launchAt l
  let f := if h < 8 then (mget ({} : HwQueue) (s.humAt h).queues x.cardq).fn else x.fn
  { hum := h, queue := x.cardq, poster := if f = x.fn then some l else none
    fn := f, image := x.image, kidx := kidx, kernel := mget {} x.cardKernels kidx
    lim := x.slotLim, units := x.units, args := args }

/-- The status of a post and the card it would post (R159); a queue that no longer takes the launch's cards is none (R162;
notes/assumptions 58). -/
def State.jpostCard (s : State) (card n a dir : Nat) : Nat × Card :=
  let root := s.rootLaunch s.wg.launch
  let x := s.launchAt root
  match x.kernel.cards.find? (fun e => e.1 == card) with
  | none => (3, {})
  | some e =>
    if x.cardq = 0xFFFF then (3, {})
    else match s.jpostHum x dir with
    | none => (2, {})
    | some h =>
      if !(x.rect.contains h || x.cells.contains h) then (2, {})
      else
        let c := s.cardFor root h e.2 ((List.range n).map (fun i => s.grp.sreg (a + i)))
        if !(s.cardQueueTakes x.fn x.cardq h) then (3, {})
        else if s.cardsFull root h x.cardq then (1, c) else (0, c)

/-- A card leaves for another package's hummock, where its task runs out of sight: its launch waits for it as for a gang there, by
a number beyond its gangs' (R160; notes/assumptions 9). -/
def State.sendCard (s : State) (l : Nat) (c : Card) : State :=
  let x := s.launchAt l
  s.setLaunch l { x with away := x.away ++ [(c.hum, x.away.foldl (fun n e => max n (e.2 + 1)) x.gangs)] }

/-- The port pair at which the crossbar denies a card on its way from a core, if it does (R380). -/
def State.cardDenied (s : State) (f h c : Nat) (x : Card) : Option Nat :=
  if 8 ≤ x.hum then (if s.reachOut f h (c / 8) then none else some (portPair (c / 8) 12))
  else if s.reach f h (c / 8) x.hum 15 then none else some (portPair (c / 8) (if x.hum = h then 15 else 13))

/-- A function posts a card from a core; one that its rollback could not withdraw waits in the tray (R369), and one that the crossbar
denies on the way to the queue is dropped and logged (R380). -/
def State.postCard (s : State) (h core f : Nat) (c : Card) : State :=
  let x := s.fnAt f
  match s.cardDenied f h core c with
  | some p => s.logErr 0 4 h p f
  | none =>
  if 8 ≤ c.hum then s.sendCard (c.poster.getD 0) c
  else if x.ck.en && f != 0 && c.fn != f then s.putTray f [.card c]
  else { s with cards := s.cards ++ [c] }

/-- `jpost` (R159): an accepted post is a release of every member thread's earlier stores, which delays the card alone. -/
def execJpost (c : SCond) (d a : SCode) (card : BitVec 6) (n : BitVec 4) (dir : BitVec 3) (s : State) : Out :=
  let p := s.jpostCard card.toNat n.toNat a.toNat dir.toNat
  .next (s.when c (
    if p.1 = 0 then
      if p.2.fn != s.wg.fn && s.ckFull s.wg.fn then s.setWait (.drain [] (some s.wg.fn))
      else ((s.release (s.slotsOf s.grp.member) (.card s.wg.fn p.2) (fun u => u.postCard s.cur.h s.cur.c s.wg.fn p.2)).setS d.toNat 0).advance
    else (s.setS d.toNat (BitVec.ofNat 32 p.1)).advance))

/-! ### Effects that waited for their release (R83, R239) -/

/-- Whether a core's pending effect `p` may take place: the accesses before it are done. -/
def State.canRelease (s : State) (h c : Nat) (p : Pend) : Bool :=
  (s.at_ { h := h, c := c }).drainedIf (fun n => decide (n ≤ p.upto)) p.slots

/-- A pending effect takes place. -/
def State.releaseGo (s : State) (h c : Nat) : PendWhat → State
  | .file slot pc far => s.fileAt h c slot pc far
  | .free wgs slot tidx => s.endThread h c wgs slot tidx
  | .card f x => s.postCard h c f x
  | .bank f op => ((s.at_ { h := h, c := c }).scrAccess f op).1
  | .nothing => s

/-- The pending effect `k` of a core takes place once its release is satisfied. -/
def execRelease (h c k : Nat) (s : State) : Out :=
  match (s.coreAt h c).pend[k]? with
  | none => .next s
  | some p =>
    if s.canRelease h c p then
      .next ((s.setCoreAt h c { s.coreAt h c with pend := (s.coreAt h c).pend.eraseIdx k }).releaseGo h c p.what)
    else .next s

/-! ### Cards in their queues (R160) -/

/-- The sequence number of the latest card a queue accepted grows by one (R160). -/
def State.numberCard (s : State) (c : Card) : State × Card :=
  let d := s.humAt c.hum
  let q := mget {} d.queues c.queue
  (s.setHum c.hum { d with queues := mset d.queues c.queue { q with seq := q.seq + 1 } }, { c with seq := some (q.seq + 1) })

/-- Whether a card's queue takes the cards of its poster's function (R162). -/
def State.cardAllowed (s : State) (c : Card) : Bool :=
  let q := mget {} (s.humAt c.hum).queues c.queue
  q.cardq && (c.poster.isSome || q.xen) && q.fn == c.fn

/-- A posted card reaches its card queue and takes the next sequence number (R160); a checkpointed function remembers the
cards of other functions, which a rollback takes again (R371). -/
def execCardReceive (k : Nat) (s : State) : Out :=
  match s.cards[k]? with
  | none => .next s
  | some c =>
    if c.seq.isSome || (s.fnAt c.fn).ck.out_ || !(s.cardAllowed c) then .next s
    else
      let p := s.numberCard c
      let s := { p.1 with cards := s.cards.set k p.2 }
      let x := s.fnAt c.fn
      .next (if c.poster.isNone && x.ck.en then s.setFn c.fn { x with ck := { x.ck with cardsIn := x.ck.cardsIn ++ [c] } }
             else s)

end Sys2Proof.Machine
end

