-- ==== Sys2Proof/Machine/Scoreboard.lean ====
section
/-! DEFINITION. The scoreboard: the lane registers and mask registers that an instruction reads or writes, and the
instructions that wait for a load on its way (03_scalar_control.md R64; 10_ordering.md R238). -/

namespace Sys2Proof.Machine

/-- What an instruction touches of a group's registers: ranges of lane registers (first and count) and mask registers. -/
structure Touches where
  regs  : List (Nat × Nat) := []
  masks : List Nat := []

/-- Neither a lane register nor a mask register. -/
def nothing : Touches := {}

/-- How many lane registers a value of a type takes (R35). -/
def tyRegs (t : Ty) : Nat := if t.is64 then 2 else 1

/-- How many lane registers the data field of an atomic operation names: `cas` has the new value beside its operand (R252). -/
def atomRegs (op : AOp) (t : Ty) : Nat :=
  match op with
  | .cas => 2 * tyRegs t
  | _ => tyRegs t

/-- The mask register that a scalar code names (R36, R37). -/
def codeMask (c : SCode) : List Nat := if 96 ≤ c.toNat && decide (c.toNat < 112) then [c.toNat - 96] else []
/-- The mask register of a second scalar operand. -/
def op2Mask : Op2 → List Nat
  | .imm _ => []
  | .code c => codeMask c
/-- The mask register of the lane operand of `sread`. -/
def selMask : LaneSel → List Nat
  | .imm _ => []
  | .code c => codeMask c
/-- The mask register of the entry of `spawn`. -/
def entryMask : SpawnEntry → List Nat
  | .label _ => []
  | .code c => codeMask c
/-- The mask register of a report field. -/
def optMask (m : Option MReg) : List Nat := (m.map (fun x => x.toNat)).toList
/-- The lane register of an optional operand. -/
def optReg (r : Option Reg) : List (Nat × Nat) := (r.map (fun x => (x.toNat, 1))).toList
/-- The lane register of a size operand. -/
def sizeReg : CvSize → List (Nat × Nat)
  | .imm _ => []
  | .reg b => [(b.toNat, 1)]
/-- The registers of the two halves of a P word: H0 names even registers and H1 odd ones (R43). -/
def halves (p q : PHalf) : Touches :=
  { regs := [(2 * p.d.toNat, 1), (2 * p.b.toNat, 1), (2 * q.d.toNat + 1, 1), (2 * q.b.toNat + 1, 1)]
    masks := [0, p.m.toNat, q.m.toNat] }

/-- What an instruction touches; an event touches nothing of a group's. -/
def touches (i : Instr) : Touches :=
  match i with
  | .smov _ d src => ⟨[], codeMask d ++ codeMask src⟩
  | .smovi _ d _ => ⟨[], codeMask d⟩
  | .sadd _ d a b => ⟨[], codeMask d ++ codeMask a ++ op2Mask b⟩
  | .ssub _ d a b => ⟨[], codeMask d ++ codeMask a ++ op2Mask b⟩
  | .smul _ d a b => ⟨[], codeMask d ++ codeMask a ++ op2Mask b⟩
  | .smulh _ _ d a b => ⟨[], codeMask d ++ codeMask a ++ op2Mask b⟩
  | .sand _ d a b => ⟨[], codeMask d ++ codeMask a ++ op2Mask b⟩
  | .sor _ d a b => ⟨[], codeMask d ++ codeMask a ++ op2Mask b⟩
  | .sxor _ d a b => ⟨[], codeMask d ++ codeMask a ++ op2Mask b⟩
  | .sshl _ d a b => ⟨[], codeMask d ++ codeMask a ++ op2Mask b⟩
  | .sshr _ d a b => ⟨[], codeMask d ++ codeMask a ++ op2Mask b⟩
  | .ssar _ d a b => ⟨[], codeMask d ++ codeMask a ++ op2Mask b⟩
  | .smin _ _ d a b => ⟨[], codeMask d ++ codeMask a ++ op2Mask b⟩
  | .smax _ _ d a b => ⟨[], codeMask d ++ codeMask a ++ op2Mask b⟩
  | .scmp _ a b => ⟨[], codeMask a ++ codeMask b⟩
  | .scmpi _ a _ => ⟨[], codeMask a⟩
  | .ssel _ _ d a b => ⟨[], codeMask d ++ codeMask a ++ op2Mask b⟩
  | .sread _ d v lane => ⟨[(v.toNat, 1)], [0] ++ codeMask d ++ selMask lane⟩
  | .kst _ k b => ⟨[], codeMask k ++ op2Mask b⟩
  | .br _ _ => nothing
  | .bra _ t => ⟨[], op2Mask t⟩
  | .brmz _ m _ => ⟨[], [0, m.toNat]⟩
  | .brmnz _ m _ => ⟨[], [0, m.toNat]⟩
  | .brmf _ m _ => ⟨[], [0, m.toNat]⟩
  | .sloop _ ctr _ => ⟨[], codeMask ctr⟩
  | .call _ l _ => ⟨[(l.toNat, 1)], []⟩
  | .ret _ l => ⟨[(l.toNat, 1)], []⟩
  | .trap _ _ => nothing
  | .nop _ => nothing
  | .hint _ _ => nothing
  | .yield _ => nothing
  | .sleep _ b => ⟨[], op2Mask b⟩
  | .spawn _ d s f n e => ⟨[(f.toNat, n.toNat)], [0, d.toNat, s.toNat] ++ entryMask e⟩
  | .reform _ t => ⟨optReg t, [0]⟩
  | .reformTwo _ m _ => ⟨[], [0, m.toNat]⟩
  | .retire _ => ⟨[], [0]⟩
  | .binAge _ b => ⟨[], op2Mask b⟩
  | .jpost _ d a _ _ _ => ⟨[], codeMask d ++ codeMask a⟩
  | .mov m ty d a => ⟨[(d.toNat, tyRegs ty), (a.toNat, tyRegs ty)], [0, m.toNat]⟩
  | .movScalar m d src => ⟨[(d.toNat, 1)], [0, m.toNat] ++ codeMask src⟩
  | .movi m d _ => ⟨[(d.toNat, 1)], [0, m.toNat]⟩
  | .tidx m d => ⟨[(d.toNat, 1)], [0, m.toNat]⟩
  | .add m ty d a b => ⟨[(d.toNat, tyRegs ty), (a.toNat, tyRegs ty), (b.toNat, tyRegs ty)], [0, m.toNat]⟩
  | .addc m d a b cm => ⟨[(d.toNat, 1), (a.toNat, 1), (b.toNat, 1)], [0, m.toNat, cm.toNat]⟩
  | .sub m ty d a b => ⟨[(d.toNat, tyRegs ty), (a.toNat, tyRegs ty), (b.toNat, tyRegs ty)], [0, m.toNat]⟩
  | .subc m d a b cm => ⟨[(d.toNat, 1), (a.toNat, 1), (b.toNat, 1)], [0, m.toNat, cm.toNat]⟩
  | .mul m ty d a b => ⟨[(d.toNat, tyRegs ty), (a.toNat, tyRegs ty), (b.toNat, tyRegs ty)], [0, m.toNat]⟩
  | .mulhi m ty d a b => ⟨[(d.toNat, tyRegs ty), (a.toNat, tyRegs ty), (b.toNat, tyRegs ty)], [0, m.toNat]⟩
  | .mad m ty d a b e => ⟨[(d.toNat, tyRegs ty), (a.toNat, tyRegs ty), (b.toNat, tyRegs ty), (e.toNat, tyRegs ty)], [0, m.toNat]⟩
  | .madw m _ d a b e => ⟨[(d.toNat, 2), (a.toNat, 1), (b.toNat, 1), (e.toNat, 2)], [0, m.toNat]⟩
  | .neg m ty d a => ⟨[(d.toNat, tyRegs ty), (a.toNat, tyRegs ty)], [0, m.toNat]⟩
  | .abs m ty d a => ⟨[(d.toNat, tyRegs ty), (a.toNat, tyRegs ty)], [0, m.toNat]⟩
  | .min m ty d a b => ⟨[(d.toNat, tyRegs ty), (a.toNat, tyRegs ty), (b.toNat, tyRegs ty)], [0, m.toNat]⟩
  | .max m ty d a b => ⟨[(d.toNat, tyRegs ty), (a.toNat, tyRegs ty), (b.toNat, tyRegs ty)], [0, m.toNat]⟩
  | .and m ty d a b => ⟨[(d.toNat, tyRegs ty), (a.toNat, tyRegs ty), (b.toNat, tyRegs ty)], [0, m.toNat]⟩
  | .or m ty d a b => ⟨[(d.toNat, tyRegs ty), (a.toNat, tyRegs ty), (b.toNat, tyRegs ty)], [0, m.toNat]⟩
  | .xor m ty d a b => ⟨[(d.toNat, tyRegs ty), (a.toNat, tyRegs ty), (b.toNat, tyRegs ty)], [0, m.toNat]⟩
  | .not m ty d a => ⟨[(d.toNat, tyRegs ty), (a.toNat, tyRegs ty)], [0, m.toNat]⟩
  | .andn m ty d a b => ⟨[(d.toNat, tyRegs ty), (a.toNat, tyRegs ty), (b.toNat, tyRegs ty)], [0, m.toNat]⟩
  | .shl m ty d a b => ⟨[(d.toNat, tyRegs ty), (a.toNat, tyRegs ty), (b.toNat, 1)], [0, m.toNat]⟩
  | .shr m ty d a b => ⟨[(d.toNat, tyRegs ty), (a.toNat, tyRegs ty), (b.toNat, 1)], [0, m.toNat]⟩
  | .sar m ty d a b => ⟨[(d.toNat, tyRegs ty), (a.toNat, tyRegs ty), (b.toNat, 1)], [0, m.toNat]⟩
  | .rot m ty d a b => ⟨[(d.toNat, tyRegs ty), (a.toNat, tyRegs ty), (b.toNat, 1)], [0, m.toNat]⟩
  | .bfx m ty d a b => ⟨[(d.toNat, tyRegs ty), (a.toNat, tyRegs ty), (b.toNat, 1)], [0, m.toNat]⟩
  | .bfi m d a b e => ⟨[(d.toNat, 1), (a.toNat, 1), (b.toNat, 1), (e.toNat, 1)], [0, m.toNat]⟩
  | .popc m ty d a => ⟨[(d.toNat, tyRegs ty), (a.toNat, tyRegs ty)], [0, m.toNat]⟩
  | .clz m ty d a => ⟨[(d.toNat, tyRegs ty), (a.toNat, tyRegs ty)], [0, m.toNat]⟩
  | .brev m ty d a => ⟨[(d.toNat, tyRegs ty), (a.toNat, tyRegs ty)], [0, m.toNat]⟩
  | .sel m ty d a b cm => ⟨[(d.toNat, tyRegs ty), (a.toNat, tyRegs ty), (b.toNat, tyRegs ty)], [0, m.toNat, cm.toNat]⟩
  | .cmp m _ ty d a b => ⟨[(a.toNat, tyRegs ty), (b.toNat, tyRegs ty)], [0, m.toNat, d.toNat]⟩
  | .cvti m dt ft _ d a => ⟨[(d.toNat, tyRegs dt), (a.toNat, tyRegs ft)], [0, m.toNat]⟩
  | .adds m ty d a b => ⟨[(d.toNat, tyRegs ty), (a.toNat, tyRegs ty), (b.toNat, tyRegs ty)], [0, m.toNat]⟩
  | .subs m ty d a b => ⟨[(d.toNat, tyRegs ty), (a.toNat, tyRegs ty), (b.toNat, tyRegs ty)], [0, m.toNat]⟩
  | .dot4 m ty d a b e => ⟨[(d.toNat, tyRegs ty), (a.toNat, tyRegs ty), (b.toNat, tyRegs ty), (e.toNat, tyRegs ty)], [0, m.toNat]⟩
  | .dot8 m ty d a b e => ⟨[(d.toNat, tyRegs ty), (a.toNat, tyRegs ty), (b.toNat, tyRegs ty), (e.toNat, tyRegs ty)], [0, m.toNat]⟩
  | .addImm m d a _ => ⟨[(d.toNat, 1), (a.toNat, 1)], [0, m.toNat]⟩
  | .addsImm m _ d a _ => ⟨[(d.toNat, 1), (a.toNat, 1)], [0, m.toNat]⟩
  | .mulImm m d a _ => ⟨[(d.toNat, 1), (a.toNat, 1)], [0, m.toNat]⟩
  | .andImm m d a _ => ⟨[(d.toNat, 1), (a.toNat, 1)], [0, m.toNat]⟩
  | .orImm m d a _ => ⟨[(d.toNat, 1), (a.toNat, 1)], [0, m.toNat]⟩
  | .xorImm m d a _ => ⟨[(d.toNat, 1), (a.toNat, 1)], [0, m.toNat]⟩
  | .andnImm m d a _ => ⟨[(d.toNat, 1), (a.toNat, 1)], [0, m.toNat]⟩
  | .shlImm m d a _ => ⟨[(d.toNat, 1), (a.toNat, 1)], [0, m.toNat]⟩
  | .shrImm m d a _ => ⟨[(d.toNat, 1), (a.toNat, 1)], [0, m.toNat]⟩
  | .sarImm m d a _ => ⟨[(d.toNat, 1), (a.toNat, 1)], [0, m.toNat]⟩
  | .rotImm m d a _ => ⟨[(d.toNat, 1), (a.toNat, 1)], [0, m.toNat]⟩
  | .minImm m _ d a _ => ⟨[(d.toNat, 1), (a.toNat, 1)], [0, m.toNat]⟩
  | .maxImm m _ d a _ => ⟨[(d.toNat, 1), (a.toNat, 1)], [0, m.toNat]⟩
  | .cmpS32Imm m _ d a _ => ⟨[(a.toNat, 1)], [0, m.toNat, d.toNat]⟩
  | .cmpN32Imm m _ d a _ => ⟨[(a.toNat, 1)], [0, m.toNat, d.toNat]⟩
  | .bfxImm m _ d a _ _ => ⟨[(d.toNat, 1), (a.toNat, 1)], [0, m.toNat]⟩
  | .fadd m ty _ _ d a b => ⟨[(d.toNat, tyRegs ty), (a.toNat, tyRegs ty), (b.toNat, tyRegs ty)], [0, m.toNat]⟩
  | .fsub m _ _ d a b => ⟨[(d.toNat, 1), (a.toNat, 1), (b.toNat, 1)], [0, m.toNat]⟩
  | .fmul m _ _ d a b => ⟨[(d.toNat, 1), (a.toNat, 1), (b.toNat, 1)], [0, m.toNat]⟩
  | .fma m ty _ _ d a b e => ⟨[(d.toNat, tyRegs ty), (a.toNat, tyRegs ty), (b.toNat, tyRegs ty), (e.toNat, tyRegs ty)], [0, m.toNat]⟩
  | .fmin m _ d a b => ⟨[(d.toNat, 1), (a.toNat, 1), (b.toNat, 1)], [0, m.toNat]⟩
  | .fmax m _ d a b => ⟨[(d.toNat, 1), (a.toNat, 1), (b.toNat, 1)], [0, m.toNat]⟩
  | .fminn m _ d a b => ⟨[(d.toNat, 1), (a.toNat, 1), (b.toNat, 1)], [0, m.toNat]⟩
  | .fmaxn m _ d a b => ⟨[(d.toNat, 1), (a.toNat, 1), (b.toNat, 1)], [0, m.toNat]⟩
  | .fcmp m _ _ d a b => ⟨[(a.toNat, 1), (b.toNat, 1)], [0, m.toNat, d.toNat]⟩
  | .fclass m _ d a => ⟨[(d.toNat, 1), (a.toNat, 1)], [0, m.toNat]⟩
  | .frcp m _ _ d a => ⟨[(d.toNat, 1), (a.toNat, 1)], [0, m.toNat]⟩
  | .frsq m _ _ d a => ⟨[(d.toNat, 1), (a.toNat, 1)], [0, m.toNat]⟩
  | .fsqrt m _ _ d a => ⟨[(d.toNat, 1), (a.toNat, 1)], [0, m.toNat]⟩
  | .fdiv m _ _ d a b => ⟨[(d.toNat, 1), (a.toNat, 1), (b.toNat, 1)], [0, m.toNat]⟩
  | .fexp2 m _ d a => ⟨[(d.toNat, 1), (a.toNat, 1)], [0, m.toNat]⟩
  | .flog2 m _ d a => ⟨[(d.toNat, 1), (a.toNat, 1)], [0, m.toNat]⟩
  | .ffract m _ d a => ⟨[(d.toNat, 1), (a.toNat, 1)], [0, m.toNat]⟩
  | .fround m _ _ d a => ⟨[(d.toNat, 1), (a.toNat, 1)], [0, m.toNat]⟩
  | .fldexp m _ _ d a b => ⟨[(d.toNat, 1), (a.toNat, 1), (b.toNat, 1)], [0, m.toNat]⟩
  | .fcvt m dt ft _ _ _ d a e => ⟨[(d.toNat, tyRegs dt), (a.toNat, tyRegs ft), (e.toNat, 1)], [0, m.toNat]⟩
  | .fpack m _ _ _ _ _ d a b e => ⟨[(d.toNat, 1), (a.toNat, 1), (b.toNat, 1), (e.toNat, 1)], [0, m.toNat]⟩
  | .fdot2 m ty _ _ d a b e => ⟨[(d.toNat, tyRegs ty), (a.toNat, tyRegs ty), (b.toNat, tyRegs ty), (e.toNat, tyRegs ty)], [0, m.toNat]⟩
  | .fdot4 m ty _ _ d a b e => ⟨[(d.toNat, tyRegs ty), (a.toNat, tyRegs ty), (b.toNat, tyRegs ty), (e.toNat, tyRegs ty)], [0, m.toNat]⟩
  | .fdot8 m _ _ d a b e => ⟨[(d.toNat, 1), (a.toNat, 1), (b.toNat, 1), (e.toNat, 1)], [0, m.toNat]⟩
  | .mxs m ty _ d a => ⟨[(d.toNat, tyRegs ty), (a.toNat, tyRegs ty)], [0, m.toNat]⟩
  | .faddImm m _ d a _ => ⟨[(d.toNat, 1), (a.toNat, 1)], [0, m.toNat]⟩
  | .fmulImm m _ d a _ => ⟨[(d.toNat, 1), (a.toNat, 1)], [0, m.toNat]⟩
  | .fmaImm m _ d a _ => ⟨[(d.toNat, 1), (a.toNat, 1)], [0, m.toNat]⟩
  | .fminImm m d a _ => ⟨[(d.toNat, 1), (a.toNat, 1)], [0, m.toNat]⟩
  | .fmaxImm m d a _ => ⟨[(d.toNat, 1), (a.toNat, 1)], [0, m.toNat]⟩
  | .fcmpImm m _ d a _ => ⟨[(a.toNat, 1)], [0, m.toNat, d.toNat]⟩
  | .mand m d a b => ⟨[], [0, m.toNat, d.toNat, a.toNat, b.toNat]⟩
  | .mor m d a b => ⟨[], [0, m.toNat, d.toNat, a.toNat, b.toNat]⟩
  | .mxor m d a b => ⟨[], [0, m.toNat, d.toNat, a.toNat, b.toNat]⟩
  | .mandn m d a b => ⟨[], [0, m.toNat, d.toNat, a.toNat, b.toNat]⟩
  | .mnot m d a => ⟨[], [0, m.toNat, d.toNat, a.toNat]⟩
  | .mmov m d a => ⟨[], [0, m.toNat, d.toNat, a.toNat]⟩
  | .mseti m d _ => ⟨[], [0, m.toNat, d.toNat]⟩
  | .mvoteBallot m d a => ⟨[(a.toNat, 1)], [0, m.toNat, d.toNat]⟩
  | .mvoteEq m d a => ⟨[(a.toNat, 1)], [0, m.toNat, d.toNat]⟩
  | .mpop m d a => ⟨[(d.toNat, 1)], [0, m.toNat, a.toNat]⟩
  | .mfirst m d a => ⟨[(d.toNat, 1)], [0, m.toNat, a.toNat]⟩
  | .mlast m d a => ⟨[(d.toNat, 1)], [0, m.toNat, a.toNat]⟩
  | .qswx m d a => ⟨[(d.toNat, 1), (a.toNat, 1)], [0, m.toNat]⟩
  | .qswy m d a => ⟨[(d.toNat, 1), (a.toNat, 1)], [0, m.toNat]⟩
  | .qswd m d a => ⟨[(d.toNat, 1), (a.toNat, 1)], [0, m.toNat]⟩
  | .qbc m d a _ => ⟨[(d.toNat, 1), (a.toNat, 1)], [0, m.toNat]⟩
  | .gshf m d a b => ⟨[(d.toNat, 1), (a.toNat, 1), (b.toNat, 1)], [0, m.toNat]⟩
  | .gshu m d a _ => ⟨[(d.toNat, 1), (a.toNat, 1)], [0, m.toNat]⟩
  | .gshd m d a _ => ⟨[(d.toNat, 1), (a.toNat, 1)], [0, m.toNat]⟩
  | .gshx m d a _ => ⟨[(d.toNat, 1), (a.toNat, 1)], [0, m.toNat]⟩
  | .gbc m d a _ => ⟨[(d.toNat, 1), (a.toNat, 1)], [0, m.toNat]⟩
  | .gred m _ _ _ d a => ⟨[(d.toNat, 1), (a.toNat, 1)], [0, m.toNat]⟩
  | .gscan m _ _ _ _ d a => ⟨[(d.toNat, 1), (a.toNat, 1)], [0, m.toNat]⟩
  | .pPair h0 h1 => halves h0 h1
  | .ld ty o => ⟨[(o.a.toNat, tyRegs ty), (o.b.toNat, 1)], [0, o.m.toNat] ++ optMask o.rep⟩
  | .st ty o => ⟨[(o.a.toNat, tyRegs ty), (o.b.toNat, 1)], [0, o.m.toNat] ++ optMask o.rep⟩
  | .ldAcq ty o => ⟨[(o.a.toNat, tyRegs ty), (o.b.toNat, 1)], [0, o.m.toNat] ++ optMask o.rep⟩
  | .stRel ty o => ⟨[(o.a.toNat, tyRegs ty), (o.b.toNat, 1)], [0, o.m.toNat] ++ optMask o.rep⟩
  | .lds ty o => ⟨[(o.a.toNat, tyRegs ty), (o.b.toNat, 1)], [0, o.m.toNat]⟩
  | .sts ty o => ⟨[(o.a.toNat, tyRegs ty), (o.b.toNat, 1)], [0, o.m.toNat]⟩
  | .ldw ty o => ⟨[(o.a.toNat, tyRegs ty), (o.b.toNat, 1)], [0, o.m.toNat] ++ optMask o.rep⟩
  | .stw ty o => ⟨[(o.a.toNat, tyRegs ty), (o.b.toNat, 1)], [0, o.m.toNat] ++ optMask o.rep⟩
  | .ldacc ty o => ⟨[(o.a.toNat, tyRegs ty), (o.b.toNat, 1)], [0, o.m.toNat]⟩
  | .prf _ m b _ _ => ⟨[(b.toNat, 1)], [0, m.toNat]⟩
  | .present m d b _ => ⟨[(b.toNat, 1)], [0, m.toNat, d.toNat]⟩
  | .fence m _ => ⟨[], [0, m.toNat]⟩
  | .brec m _ a => ⟨[(a.toNat, 4)], [0, m.toNat]⟩
  | .brrd m a _ => ⟨[(a.toNat, 4)], [0, m.toNat]⟩
  | .leaseQ m a b _ _ => ⟨[(a.toNat, 2), (b.toNat, 1)], [0, m.toNat]⟩
  | .leaseRenew m a b _ _ => ⟨[(a.toNat, 2), (b.toNat, 1)], [0, m.toNat]⟩
  | .atom op ty o => ⟨[(o.a.toNat, atomRegs op ty), (o.b.toNat, 1)], [0, o.m.toNat] ++ optMask o.rep⟩
  | .red _ ty o => ⟨[(o.a.toNat, tyRegs ty), (o.b.toNat, 1)], [0, o.m.toNat] ++ optMask o.rep⟩
  | .atoms op ty o => ⟨[(o.a.toNat, atomRegs op ty), (o.b.toNat, 1)], [0, o.m.toNat]⟩
  | .reds _ ty o => ⟨[(o.a.toNat, tyRegs ty), (o.b.toNat, 1)], [0, o.m.toNat]⟩
  | .barArr m _ => ⟨[], [0, m.toNat]⟩
  | .barWait m _ p => ⟨optReg p, [0, m.toNat]⟩
  | .barArw m _ => ⟨[], [0, m.toNat]⟩
  | .barExp m _ b => ⟨[(b.toNat, 1)], [0, m.toNat]⟩
  | .barTest m d _ p => ⟨optReg p, [0, m.toNat, d.toNat]⟩
  | .barPh m a _ => ⟨[(a.toNat, 2)], [0, m.toNat]⟩
  | .cvdecl m _ size => ⟨sizeReg size, [0, m.toNat]⟩
  | .cvq m a _ => ⟨[(a.toNat, 2)], [0, m.toNat]⟩
  | .send m _ a => ⟨[(a.toNat, 1)], [0, m.toNat]⟩
  | .recv m a _ => ⟨[(a.toNat, 1)], [0, m.toNat]⟩
  | .chq m a _ => ⟨[(a.toNat, 2)], [0, m.toNat]⟩
  | .cpa4 o => ⟨[(o.a.toNat, 1), (o.b.toNat, 1)], [0, o.m.toNat]⟩
  | .cpa8 o => ⟨[(o.a.toNat, 1), (o.b.toNat, 1)], [0, o.m.toNat]⟩
  | .cpa16 o => ⟨[(o.a.toNat, 1), (o.b.toNat, 1)], [0, o.m.toNat]⟩
  | .cpaFlush m => ⟨[], [0, m.toNat]⟩
  | .tcopy o _ _ _ _ _ _ _ => ⟨[(o.a.toNat, 8)], [0, o.m.toNat]⟩
  | .tgather o b _ _ => ⟨[(b.toNat, 8), (o.a.toNat, 8)], [0, o.m.toNat]⟩
  | .tscatter o b _ => ⟨[(b.toNat, 8), (o.a.toNat, 8)], [0, o.m.toNat]⟩
  | .tpack o _ _ _ => ⟨[(o.a.toNat, 8)], [0, o.m.toNat]⟩
  | .tunpack o _ _ => ⟨[(o.a.toNat, 8)], [0, o.m.toNat]⟩
  | .mdcopy m b _ _ _ _ _ _ => ⟨[(b.toNat, 1)], [0, m.toNat]⟩
  | .cfill m a b _ _ _ => ⟨[(a.toNat, 1), (b.toNat, 1)], [0, m.toNat]⟩
  | .qfence m _ => ⟨[], [0, m.toNat]⟩
  | .qwait m a _ => ⟨[(a.toNat, 2)], [0, m.toNat]⟩
  | .mldSt m _ _ a _ => ⟨[(a.toNat, 8)], [0, m.toNat]⟩
  | .mswap m _ => ⟨[], [0, m.toNat]⟩
  | .mstream m _ _ _ _ _ _ _ a _ => ⟨[(a.toNat, 8)], [0, m.toNat]⟩
  | .mtile m _ _ _ _ _ _ a _ => ⟨[(a.toNat, 8)], [0, m.toNat]⟩
  | .maccZ m _ _ => ⟨[], [0, m.toNat]⟩
  | .maccSt m _ _ a _ => ⟨[(a.toNat, 8)], [0, m.toNat]⟩
  | .maccLd m _ _ a _ => ⟨[(a.toNat, 8)], [0, m.toNat]⟩
  | .mstat m a _ => ⟨[(a.toNat, 2)], [0, m.toNat]⟩
  | .mcfg m _ _ _ => ⟨[], [0, m.toNat]⟩
  | .tvec m a => ⟨[(a.toNat, 8)], [0, m.toNat]⟩
  | .segLd m _ _ a => ⟨[(a.toNat, 4)], [0, m.toNat]⟩
  | .segRd m a _ => ⟨[(a.toNat, 4)], [0, m.toNat]⟩
  | .sysRd m a _ => ⟨[(a.toNat, 2)], [0, m.toNat]⟩
  | .sysWr m _ a => ⟨[(a.toNat, 2)], [0, m.toNat]⟩
  | .ckpt => nothing
  | .ckptQ m a => ⟨[(a.toNat, 4)], [0, m.toNat]⟩
  | .halt => nothing
  | .haltDbg => nothing
  | .snap m b _ a => ⟨[(b.toNat, 2), (a.toNat, 4)], [0, m.toNat]⟩
  | .l2op m _ b _ _ => ⟨[(b.toNat, 1)], [0, m.toNat]⟩
  | .vfsel m a => ⟨[(a.toNat, 8)], [0, m.toNat]⟩
  | .tlbProbe m a b => ⟨[(a.toNat, 4), (b.toNat, 2)], [0, m.toNat]⟩
  | .walkQ m a b _ _ => ⟨[(a.toNat, 4), (b.toNat, 2)], [0, m.toNat]⟩
  | .scrub m a b => ⟨[(a.toNat, 4), (b.toNat, 2)], [0, m.toNat]⟩
  | .tokRd m a b _ => ⟨[(a.toNat, 8), (b.toNat, 8)], [0, m.toNat]⟩
  | .partQ m a b => ⟨[(a.toNat, 4), (b.toNat, 1)], [0, m.toNat]⟩
  | .tret _ => nothing
  | .trapEntry _ _ _ => nothing
  | .binAgeThreshold _ _ _ => nothing
  | .binDraw _ _ => nothing
  | .yieldEnd _ _ _ => nothing
  | .sleepWake _ _ _ => nothing
  | .schedStall _ _ => nothing
  | .parkWake _ _ _ => nothing
  | .loadComplete _ _ _ => nothing
  | .atomicReturn _ _ _ => nothing
  | .fenceRelease _ _ _ => nothing
  | .homeRequestArrival _ _ _ => nothing
  | .l1CopyExpiry _ _ _ => nothing
  | .tlbLeaseExpiry _ _ => nothing
  | .walkStart _ _ => nothing
  | .walkPendingRetry _ _ _ => nothing
  | .walkComplete _ _ => nothing
  | .swapRetry _ _ => nothing
  | .enlargerLeaseRenewal _ _ => nothing
  | .swapEngineExchange _ _ _ _ => nothing
  | .swapHorizonEnd _ => nothing
  | .windowReductionAccept _ => nothing
  | .windowContributionLimit _ _ => nothing
  | .switchMerge _ _ => nothing
  | .barrierArrivalCount _ _ _ => nothing
  | .barrierPhaseComplete _ _ _ _ => nothing
  | .barrierWaitRelease _ _ _ => nothing
  | .lbForward _ _ _ => nothing
  | .lbCompletionBroadcast _ _ _ => nothing
  | .sidebandPathLoss _ _ => nothing
  | .signatureRecord _ _ _ => nothing
  | .qmPlacement _ _ _ => nothing
  | .sendSlotFill _ _ _ => nothing
  | .recvSlotTake _ _ _ => nothing
  | .channelSlotFreed _ _ _ _ => nothing
  | .copyAccept _ _ _ => nothing
  | .copyLineWrite _ _ _ => nothing
  | .cpaCoalesceTimeout _ _ => nothing
  | .qfenceEntryComplete _ _ => nothing
  | .qwaitComplete _ _ _ => nothing
  | .matrixStep _ _ => nothing
  | .matrixWatchdog _ _ => nothing
  | .launchRecordTake _ _ => nothing
  | .rectClaim _ => nothing
  | .routeLoad _ _ => nothing
  | .residency _ => nothing
  | .gangPlacement _ => nothing
  | .launchSetup _ => nothing
  | .scrubTokenMatch _ => nothing
  | .cardReceive _ => nothing
  | .cardPlacement _ _ => nothing
  | .workgroupNormalEnd _ _ _ => nothing
  | .launchCompletion _ => nothing
  | .hostDoorbell _ _ _ _ => nothing
  | .prqReply _ _ _ => nothing
  | .prqReplyRefuse _ _ _ => nothing
  | .lqva _ _ => nothing
  | .leaseQueryDone _ => nothing
  | .hostApertureRead _ _ _ _ => nothing
  | .hostApertureWrite _ _ _ _ _ => nothing
  | .hostMapRead _ => nothing
  | .hostMapWrite _ _ => nothing
  | .mgdataRead _ _ => nothing
  | .mgdataWrite _ _ _ => nothing
  | .registerWrite _ _ _ => nothing
  | .prego _ => nothing
  | .killgo _ _ => nothing
  | .chipletReset _ => nothing
  | .chipletFence _ => nothing
  | .chipletDrop _ => nothing
  | .chipletFatal _ _ _ => nothing
  | .rsgo _ _ _ => nothing
  | .wdlim _ _ _ _ => nothing
  | .checkpointInstant _ => nothing
  | .checkpointDrainDone _ => nothing
  | .checkpointCommit _ => nothing
  | .crossPackageMessage _ _ _ _ => nothing
  | .partWrite _ _ _ => nothing
  | .connmatWrite _ _ _ => nothing
  | .waymaskWrite _ _ => nothing
  | .shareWrite _ _ _ _ => nothing
  | .scrubComplete _ _ _ => nothing
  | .dbmswap _ => nothing
  | .dbmSwapInstant _ => nothing
  | .dbmSwapDone _ => nothing
  | .rstgo _ => nothing
  | .restoreDone _ => nothing
  | .flitReceive _ _ _ _ => nothing
  | .linkFence _ _ => nothing
  | .linkgo _ _ => nothing
  | .clockSkew _ _ _ => nothing
  | .clockSkewRecover _ _ => nothing
  | .domen => nothing
  | .domainEpochLock _ => nothing
  | .domainLockTimeout _ _ => nothing
  | .fwgo => nothing
  | .firmwareCheckDone _ => nothing
  | .railSample _ _ _ _ => nothing
  | .minvClear _ _ _ => nothing
  | .railCrack _ _ => nothing
  | .thermalTrip _ _ _ => nothing
  | .thvalWrite _ _ => nothing
  | .thermalForecast _ _ => nothing
  | .bankRetiring _ _ _ _ => nothing
  | .bkack _ _ _ => nothing
  | .frameMove _ _ => nothing
  | .bankRetired _ _ => nothing
  | .powerOn _ => nothing
  | .packageReset => nothing
  | .powerLoss => nothing
  | .prqhead _ _ _ => nothing
  | .l2opDone _ _ _ => nothing
  | .snapCaptureDone _ _ _ => nothing
  | .uncorrectableError _ _ _ _ => nothing
  | .powerGating _ _ => nothing
  | .corePoweredAgain _ _ => nothing
  | .sensorFault _ _ => nothing
  | .vfEnable _ _ => nothing

/-- Whether a range of lane registers shares one with another. -/
def overlaps (a b : Nat × Nat) : Bool := decide (a.1 < b.1 + b.2) && decide (b.1 < a.1 + a.2)

/-- Whether an instruction of a group must wait for an access on its way: it touches a register that the access writes for one
of the group's lanes, or the group's report mask (R64). -/
def Outst.stalls (o : Outst) (g : Nat) (slots : List Nat) (t : Touches) : Bool :=
  let mine := o.grp == some g
  (o.op.kind.returns && (mine || o.slots.any (fun x => slots.contains x.1))
      && t.regs.any (overlaps (o.op.dst.toNat, tyRegs o.op.ty)))
    || (mine && (optMask o.op.rep).any (fun m => t.masks.contains m))

/-- Whether an instruction of the acting group waits on its scoreboard (R64, R170). -/
def State.stalled (s : State) (i : Instr) : Bool :=
  s.core.outs.any (fun o => o.stalls s.cur.g (s.slotsOf s.grp.member) (touches i))

end Sys2Proof.Machine
end

