-- ==== Sys2Proof/Machine/Fetch.lean ====
section
/-! DEFINITION. Fetching a word, its checks, and decoding it at the group's privilege and register count
(02_words_and_assembly.md R32 to R34). -/

namespace Sys2Proof.Machine

/-- What a fetch gives: a trap with the fetched address, a page to walk, a line whose home cannot take it now, or the word, its
address in memory and the translation used. -/
inductive Fetched where
  | trap (code addr : Nat)
  | walk (va : Nat)
  | hold
  | word (w : DWord) (hpa : Nat) (t : Tlb)

/-- The word at a host-physical address as a core's instruction cache holds it, else as its home does, which drains the word's
accumulators (R33, R260). -/
def State.codeWord (s : State) (hpa : Nat) : DWord :=
  match mfind s.core.icache hpa with
  | some w => w
  | none => BitVec.ofNat 64 (readN (s.drainFor hpa 8).mem hpa 8)

/-- The address a fetch trap reports: the virtual address of the word, seg.code BASE + PC.  DESIGN CHOICE: R32's "fetched
address" is not said to be a code address or a virtual one (notes/assumptions 58). -/
def State.fetchAddr (s : State) : Nat :=
  (((s.segOf 0).base + s.grp.pc.toNat : Int) + s.grp.far * 2 ^ 32).emod (2 ^ 52) |>.toNat

/-- Fetch the word at the acting group's PC with the checks of R32 in order; an address beyond the PC register lies outside
seg.code (R48), and the crossbar may deny the path (16_tenants.md R380). -/
def State.fetch (s : State) : Fetched :=
  let sg := s.segOf 0
  let pc := s.grp.pc.toNat
  let va := s.fetchAddr
  if !(sg.valid && sg.x) then .trap tAccess va
  else if sg.size < pc + 8 || s.grp.far != 0 then .trap tBounds va
  else match s.lookup s.accFn va { x := true } with
  | none => if s.denies .fetch va then .trap tAccess va else .walk va
  | some t =>
    let hpa := t.hpa va
    let home := s.homeOf t hpa
    if !(s.pathOk s.wg.fn s.cur.h (s.cur.c / 8) home) then .trap tAccess va
    else if s.linePoison (hpa / 128) then .trap tPoison va
    else if (mfind s.core.icache hpa).isNone && s.homeHolds home hpa then .hold
    else .word (s.codeWord hpa) hpa t

/-- The code of a decode trap (Table 15.1). -/
def decodeCode : DecodeTrap → Nat
  | .illegalOpcode => tIllegalOpcode
  | .illegalPair => tIllegalPair
  | .privilege => tPrivilege
  | .illegalOperand => tIllegalOperand

/-- The walk of a fetch (R227). -/
def State.fetchWalk (s : State) (va : Nat) : Walk :=
  { who := s.cur, fn := s.accFn, va := va, fetch := true, launch := s.wg.launch, off := va }

/-- The acting group issues: every yielding group that waits for it counts its issue (R80), and its pipe's turn has passed
(R170). -/
def State.noteIssue (s : State) : State :=
  let g := s.cur.g
  let k := s.core
  let me := s.grp
  s.setCore { k with
    turns := mset k.turns me.pipe (me.wgs, s.cycles s.cur.h + 1)
    turng := mset k.turng (8 * me.pipe + me.wgs) g
    outs := k.outs.map (fun (o : Outst) => if o.grp = some g then { o with past := true } else o)
    groups := k.groups.map (fun (e : Nat × Group) =>
      if e.1 = g then (e.1, { e.2 with last := s.uc, wait := .ready })
      else match e.2.wait with
        | .yield t o => (e.1, { e.2 with wait := if o.erase g = [] then .ready else .yield t (o.erase g) })
        | _ => e) }

/-- After an instruction: what it held for its own lines is dropped, unless it is to be issued again. -/
def State.settleIssue (s : State) : State :=
  match mfind s.core.groups s.cur.g with
  | none => s
  | some g =>
    match g.wait with
    | .walk _ => s
    | .drain _ _ => s
    | .order _ => s
    | _ =>
      if g.tlb.isEmpty && g.denied.isEmpty && g.held.isNone then s
      else s.setGrp { g with tlb := [], denied := [], held := none }

/-- The end of an issue. -/
def State.afterIssue (s : State) (r : GRef) : State := ({ s with cur := r }).settleIssue

/-- Whether a pipe has issued in the present core cycle: it issues one group in each (R170). -/
def State.pipeUsed (s : State) (h : Nat) (k : Core) (pipe : Nat) : Bool :=
  (mget (0, 0) k.turns pipe).2 == s.cycles h + 1

/-- Whether the wait of a group allows its instruction to issue: it is ready, or what it waits for has come (R170, R239). -/
def State.waitOver (s : State) (g : Group) : Bool :=
  match g.wait with
  | .ready => true
  | .drain slots full => s.drained slots && (match full with
    | some f => !(s.ckFull f)
    | none => true)
  | .order slots => s.released slots
  | _ => false

/-- Whether the word that a group would issue waits on the scoreboard (R64), or its line at its home (R212, R214). -/
def State.interlocked (s : State) : Bool :=
  match s.fetch with
  | .word w _ _ => !s.core.outs.isEmpty && (match decode s.grp.lvl s.wg.n w with
    | .ok i => s.stalled i
    | .error _ => false)
  | .hold => true
  | _ => false

/-- Whether a line of an access of a group is being walked again: the group waits (R228). -/
def Core.replays (k : Core) (g : Nat) : Bool :=
  k.reqs.any (fun r => r.walking && k.outs.any (fun o => o.id == r.id && o.grp == some g))

/-- Whether a group may issue now: it is ready, its core runs, its workgroup is not stopped, and its function is not draining for
a checkpoint and has room in its undo log (R170, R363, R369, R370). -/
def State.canIssue (s : State) (r : GRef) : Bool :=
  let k := s.coreAt r.h r.c
  match mfind k.groups r.g with
  | none => false
  | some g =>
    let w := mget {} k.wgs g.wgs
    (s.at_ r).waitOver g && k.status == .running && !w.stopped && (s.fnAt w.fn).ck.state == .run
      && !(s.logTight w.fn) && !(k.replays r.g) && !(s.at_ r).interlocked

/-- The acting group before its instruction's effect: its issue is noted and the word it fetched is kept by the core's
instruction cache and translation cache (R33, R217, R218). -/
def State.afterFetch (s : State) (w : DWord) (hpa : Nat) (t : Tlb) : State :=
  let s := (if (mfind s.core.icache hpa).isSome then s else (s.drainFor hpa 8).l2At s.accFn t hpa false).keepTlb t
  s.setCore { s.core with icache := mset s.core.icache hpa w }

end Sys2Proof.Machine
end

