-- ==== Sys2Proof/Machine/CopyOps.lean ====
section
/-! DEFINITION. What the Enlarger's operations read, compute and write: the canonical layout, quantisation,
the destination lines of each operation, and their translation and presence (13_async_copy.md R291 to R319). -/

namespace Sys2Proof.Machine

/-! ### Status bits of a queue (R295, R309, R315) -/

/-- The status bits that a map write or the operations of a queue numbered below `n` have set: IDXF, POIS, ZFILL and SCNAN from
bit 0. -/
def CopyQ.flags (q : CopyQ) (n : Nat) : Nat :=
  let has := fun (p : QNote → Bool) => p q.was || q.notes.any (fun e => decide (e.1 < n) && p e.2)
  b2n (has (fun e => e.idxf)) + 2 * b2n (has (fun e => e.pois)) + 4 * b2n (has (fun e => e.zfill))
    + 8 * b2n (has (fun e => e.scnan))

/-- FIRSTBAD of the operations numbered below `n`: bad indices are ordered by queue acceptance, and the first is recorded unless
one is (R309). -/
def CopyQ.firstBad (q : CopyQ) (n : Nat) : Word :=
  let first := q.notes.findSome? (fun e => if e.1 < n then e.2.bad else none)
  (if q.was.idxf then q.was.bad else first.or q.was.bad).getD 0

/-- The status bits of the operations numbered below `n` are cleared (R315). -/
def CopyQ.clear (q : CopyQ) (n : Nat) : CopyQ :=
  { q with was := {}, notes := q.notes.filter (fun e => decide (n ≤ e.1)) }

/-- Change the status bits of an operation. -/
def CopyQ.note (q : CopyQ) (n : Nat) (f : QNote → QNote) : CopyQ := { q with notes := mset q.notes n (f (mget {} q.notes n)) }

/-! ### Types and the canonical layout (R297, R298) -/

/-- The number of a record's ESIZE that a copy type needs (Table 13.3). -/
def copySize (t : Ty) : Nat := if tyWidth t ≤ 8 then 0 else if tyWidth t = 16 then 1 else 2

/-- The canonical element type of an operation. -/
def CopyKind.cty : CopyKind → Ty
  | .tile _ _ _ ct _ _ _ => ct
  | .gather _ t _ => t
  | .scatter _ t => t
  | .pack _ t _ => t
  | .unpack _ t => t
  | _ => .n8

/-- The memory element type of an operation. -/
def CopyKind.mty : CopyKind → Ty
  | .tile _ _ mt _ _ _ _ => mt
  | k => k.cty

/-- The bits of a canonical element. -/
def CopyJob.cbits (j : CopyJob) : Nat := tyWidth j.kind.cty
/-- The bits of a memory element. -/
def CopyJob.mbits (j : CopyJob) : Nat := tyWidth j.kind.mty
/-- C: the elements of a canonical row (R297). -/
def CopyJob.cols (j : CopyJob) : Nat := j.desc.wl * 1024 / j.cbits
/-- The elements of a canonical line. -/
def CopyJob.perLine (j : CopyJob) : Nat := 1024 / j.cbits

/-- The first byte of seg.scr. -/
def CopyJob.scr (j : CopyJob) : Seg := mget {} j.segs 2
/-- The scratchpad line of row r, column block b, with PLINE counted from seg.scr's first line (R297). -/
def tileLine (scr pline wl r b : Nat) : Nat := scr / 128 + pline + ((r / 16) * wl + b) * 16 + r % 16
/-- The row and column block of a scratchpad line of a tile. -/
def tileSpot (scr pline wl line : Nat) : Nat × Nat :=
  let x := line - scr / 128 - pline
  ((x / 16) / wl * 16 + x % 16, (x / 16) % wl)
/-- The byte of the scratchpad that holds byte `q` of canonical row r (R297): chunks are swizzled by the row. -/
def tileByte (scr pline wl r q : Nat) : Nat :=
  tileLine scr pline wl r (q / 128) * 128 + ((q % 128 / 16) ^^^ (r % 8)) * 16 + q % 16

/-- The byte of the scratchpad that holds byte `q` of a job's canonical row. -/
def CopyJob.cByte (j : CopyJob) (r q : Nat) : Nat := tileByte j.scr.base j.desc.pline j.desc.wl r q
/-- The byte of the scratchpad that holds scale k of canonical row r. -/
def CopyJob.scaleByte (j : CopyJob) (r k : Nat) : Nat :=
  (j.scr.base / 128 + j.desc.sline) * 128 + r * (j.cols / 32) + k

/-! ### Destination units

A destination line has a code: 8 × its number + a tag.  Tags: 0 scratchpad line of a tile, fill or lane copy; 1
scratchpad line of scales; 2 line through the record; 3 line through the scale record; 4 line of a side-memory slot; 5
dropped or superseded row or unit, which only counts; 6 dropped scale row. -/

/-- A unit's tag and number. -/
def unitOf (code : Nat) : Nat × Nat := (code % 8, code / 8)
/-- The code of a unit. -/
def unitCode (tag n : Nat) : Nat := 8 * n + tag

/-- Keep the first of equal numbers. -/
def dedup (xs : List Nat) : List Nat := xs.foldl (fun ys x => if ys.contains x then ys else ys ++ [x]) []

/-- The segment offset of a natural element offset (R184). -/
def BufRec.atOff (r : BufRec) (o : Nat) : Nat := r.segOff (o : Int)

/-- The first byte of a record's segment; a gang peer's address is the segment offset itself (R193). -/
def CopyJob.segBase (j : CopyJob) (sel : Nat) : Nat := if sel = 4 then 0 else (mget {} j.segs sel).base

/-- The address in the space of an element offset of a record, before any wrap: its segment's BASE plus its segment
offset. -/
def CopyJob.place (j : CopyJob) (second : Bool) (o : Nat) : Nat :=
  let r := if second then j.mrec1 else j.mrec
  j.segBase r.sel + r.atOff o

/-- The lines through a record that hold `n` bytes from an element offset; a swizzle moves bytes within a row of 128, which
stands across two lines where the segment's BASE is no multiple of 128 (R180). -/
def CopyJob.linesAt (j : CopyJob) (second : Bool) (o n : Nat) : List Nat :=
  let r := if second then j.mrec1 else j.mrec
  let a := j.segBase r.sel + r.base + o
  if r.swz = 0 then (List.range ((a + n - 1) / 128 + 1 - a / 128)).map (fun i => a / 128 + i)
  else dedup ((List.range n).map (fun i => j.place second (o + i) / 128))

/-- The groups of channels of `tpack` (R311). -/
def CopyJob.groups (j : CopyJob) (f : Nat) : Nat := (j.desc.ctot + f - 1) / f

/-- The units (g, p) of `tpack` in ascending order with their record elements. -/
def CopyJob.packUnits (j : CopyJob) (f : Nat) : List (Nat × Nat × Nat) :=
  (List.range (j.groups f)).flatMap (fun g => (List.range j.desc.rows).map (fun p =>
    (g, p, j.desc.mrow + g * j.desc.gstep + p)))

/-- Whether a later unit of the list has the same element. -/
def laterSame (us : List (Nat × Nat × Nat)) (i : Nat) : Bool :=
  (us.drop (i + 1)).any (fun u => u.2.2 == (us.getD i (0, 0, 0)).2.2)

/-- Whether the row of an index of `tscatter` is bad or superseded by a later equal one (R309). -/
def scatterDrop (ext : Nat) (idx : List Nat) (i : Nat) : Bool :=
  decide (ext ≤ idx.getD i 0) || (idx.drop (i + 1)).contains (idx.getD i 0)

/-- The destination units of an operation. -/
def CopyJob.units (j : CopyJob) : List Nat :=
  let rows := List.range j.desc.rows
  let tile := fun (r0 : Nat) => rows.flatMap (fun r => (List.range j.desc.wl).map (fun b =>
    unitCode 0 (tileLine j.scr.base j.desc.pline j.desc.wl (r0 + r) b)))
  match j.kind with
  | .lanes items => dedup (items.map (fun i => unitCode 0 (i.off / 128)))
  | .tile false _ mt ct _ _ mxs =>
    tile 0 ++ (if mxs || mt != ct then
      (List.range ((j.desc.rows * (j.cols / 32) + 127) / 128)).map (fun i =>
        unitCode 1 (j.scr.base / 128 + j.desc.sline + i)) else [])
  | .tile true _ _ _ _ _ mxs =>
    let live := rows.filter (fun r => decide (j.desc.mrow + r < j.mrec.extent))
    let gone := rows.filter (fun r => !(decide (j.desc.mrow + r < j.mrec.extent)))
    let so := fun (r : Nat) => (j.desc.mrow + r) * j.mrec1.stride + j.desc.mcol * 8 / j.mbits / 32
    let slive := rows.filter (fun r => decide (so r < j.mrec1.stride * j.mrec1.extent))
    let sgone := rows.filter (fun r => decide (j.mrec1.stride * j.mrec1.extent < so r + j.cols / 32))
    (dedup (live.flatMap (fun r => j.linesAt false ((j.desc.mrow + r) * j.mrec.stride + j.desc.mcol) (j.desc.wl * 128)))).map (unitCode 2)
      ++ gone.map (unitCode 5)
      ++ (if mxs then
        (dedup (slive.flatMap (fun r => j.linesAt true (so r) (j.cols / 32)))).map (unitCode 3) ++ sgone.map (unitCode 6)
        else [])
  | .gather _ _ _ => tile j.desc.mrow
  | .scatter idx _ =>
    let ok := rows.filter (fun i => !(scatterDrop j.mrec.extent idx i))
    (dedup (ok.flatMap (fun i => j.linesAt false (idx.getD i 0 * j.mrec.stride + j.desc.mcol) (j.desc.wl * 128)))).map (unitCode 2)
      ++ (rows.filter (fun i => scatterDrop j.mrec.extent idx i)).map (unitCode 5)
  | .pack f _ _ =>
    let us := j.packUnits f
    let is := List.range us.length
    let drop := fun (i : Nat) => decide (j.mrec.extent ≤ (us.getD i (0, 0, 0)).2.2) || laterSame us i
    (dedup ((is.filter (fun i => !(drop i))).flatMap (fun i =>
        j.linesAt false ((us.getD i (0, 0, 0)).2.2 * j.mrec.stride) (f * j.cbits / 8)))).map (unitCode 2)
      ++ (is.filter drop).map (unitCode 5)
  | .unpack _ _ => tile 0
  | .side _ _ _ n => (List.range ((n + 127) / 128)).map (unitCode 4)
  | .fill line n _ => (List.range n).map (fun i => unitCode 0 (j.scr.base / 128 + line + i))
  | .fence _ => []

/-! ### Element values -/

/-- The transform of R307 of one group. -/
def hadamard (xs : List FVal) : List FVal :=
  if xs.any (fun x => match x with
    | .fin _ _ _ => false
    | _ => true) then xs.map (fun _ => FVal.nan)
  else (List.range xs.length).map (fun i => (List.range xs.length).foldl (fun a j =>
    let x := xs.getD j .nan
    let t := if popNat (i &&& j) 6 % 2 = 1 then negV x else x
    if j = 0 then t else addV .rne a t) .nan)

/-- Split a list into groups of `n`, for at most `k` groups. -/
def groupsOf (n : Nat) (xs : List FVal) : Nat → List (List FVal)
  | 0 => []
  | k + 1 => if xs.isEmpty then [] else xs.take n :: groupsOf n (xs.drop n) k

/-- Scale a value by a power of two. -/
def scaleV (v : FVal) (n : Int) : FVal :=
  match v with
  | .fin a m e => .fin a m (e + n)
  | x => x

/-- The larger magnitude of two values. -/
def absMax (a b : FVal) : FVal :=
  match a, b with
  | .fin _ m e, .fin _ m' e' => if ltV (.fin false m e) (.fin false m' e') then b else a
  | .fin _ _ _, x => x
  | x, _ => x

/-- MX quantisation of one block (R306): its elements, its scale byte, and whether the scale is NaN. -/
def quantBlock (ct : Ty) (k : Nat) (fd : Bool) (xs : List FVal) : List Nat × Nat × Bool :=
  if xs.any (fun x => match x with
    | .fin _ _ _ => false
    | _ => true) then (xs.map (fun _ => fmtNan ct), 0xFF, true)
  else
    let s := mxScale ct (xs.foldl absMax (.fin false 0 0))
    let sq := if fd && decide (s < k) then k else s
    let sc := if fd then s - k else s
    (xs.map (fun x => roundV ct .rne 0 true (scaleV x (127 - (sq : Int)))), sc, false)

/-- A byte of a source: by record or scratchpad, and its place (segment offset or scratchpad byte). -/
inductive Src where
  | rcd (second : Bool) (x : Nat)
  | scr (b : Nat)
  deriving DecidableEq, Repr

/-- The source bytes of an element of the record; none beyond its extent. -/
def CopyJob.elemSrc (j : CopyJob) (row bit : Nat) : List Src :=
  if j.mrec.extent ≤ row then []
  else (List.range ((j.mbits + 7) / 8)).map (fun i => .rcd false (j.mrec.atOff (row * j.mrec.stride + bit / 8 + i)))

/-- The value of an element from its source bytes. -/
def elemVal (rd : Src → Nat) (bits bit : Nat) (src : List Src) : Nat :=
  match src with
  | [] => 0
  | s :: rest =>
    if bits < 8 then rd s / 2 ^ (bit % 8) % 2 ^ bits
    else rd s + 256 * (rest.foldr (fun s a => rd s + 256 * a) 0)

/-- The memory row and bit position of canonical element e of row r of `tcopy.in` (R305). -/
def CopyJob.tileElem (j : CopyJob) (tr : Bool) (r e : Nat) : Nat × Nat :=
  if tr then (j.desc.mrow + e, j.desc.mcol * 8 + r * j.mbits) else (j.desc.mrow + r, j.desc.mcol * 8 + e * j.mbits)

/-- The source byte of scale k of row r with MXS; none beyond the scale record (R308). -/
def CopyJob.scaleSrc (j : CopyJob) (r k : Nat) : List Src :=
  let o := (j.desc.mrow + r) * j.mrec1.stride + k + j.desc.mcol * 8 / j.mbits / 32
  if j.mrec1.inb o 1 then [.rcd true (j.mrec1.atOff o)] else []

/-- The elements of 32-element block k of row r as the record holds them, transformed (R305, R307). -/
def CopyJob.blockVals (j : CopyJob) (rd : Src → Nat) (tr : Bool) (had : Nat) (r k : Nat) : List FVal :=
  let xs := (List.range 32).map (fun i =>
    let p := j.tileElem tr r (32 * k + i)
    toF j.kind.mty (elemVal rd j.mbits p.2 (j.elemSrc p.1 p.2)))
  if had = 0 then xs else (groupsOf (if had = 1 then 16 else 32) xs 2).flatMap hadamard

/-- The Hadamard code of a tile copy. -/
def hadBits (had : Nat) : Nat := if had = 0 then 0 else if had = 1 then 4 else 5

/-- What a unit writes: bytes by their offset in the line, the counted bytes, whether bytes were zero-filled or
dropped, and whether a scale was NaN. -/
structure UnitOut where
  bytes   : List (Nat × Nat) := []
  counted : Nat := 0
  zfill   : Bool := false
  scnan   : Bool := false

/-- The little-endian bytes of elements of `b` bits. -/
def packElems (b : Nat) (xs : List Nat) : List Nat :=
  if b < 8 then (List.range (xs.length / 2)).map (fun i => xs.getD (2 * i) 0 % 16 + 16 * (xs.getD (2 * i + 1) 0 % 16))
  else xs.flatMap (fun x => (List.range (b / 8)).map (fun i => x / 256 ^ i % 256))

/-- The swizzled places of the bytes of a canonical line of row r. -/
def swizzleLine (r : Nat) (bs : List Nat) : List (Nat × Nat) :=
  bs.zipIdx.map (fun p => (((p.2 / 16) ^^^ (r % 8)) * 16 + p.2 % 16, p.1))

/-- A line of `tcopy.in` (R305 to R308). -/
def CopyJob.tileIn (j : CopyJob) (rd : Src → Nat) (tr : Bool) (had : Nat) (fd mxs : Bool) (line : Nat) : UnitOut :=
  let p := tileSpot j.scr.base j.desc.pline j.desc.wl line
  let r := p.1
  let e0 := p.2 * j.perLine
  let es := (List.range j.perLine).map (fun i => j.tileElem tr r (e0 + i))
  let zf := es.any (fun q => decide (j.mrec.extent ≤ q.1))
  let ct := j.kind.cty
  if j.kind.mty == ct then
    let xs := es.map (fun q => elemVal rd j.mbits q.2 (j.elemSrc q.1 q.2))
    let sc := fun (i : Nat) => elemVal rd 8 0 (j.scaleSrc r ((e0 + i) / 32))
    let bad := fun (i : Nat) => mxs && sc i == 0xFF
    let ys := xs.zipIdx.map (fun x => if bad x.2 then fmtNan ct else x.1)
    { bytes := swizzleLine r (packElems j.cbits ys), counted := 128
      zfill := zf || (mxs && (List.range (j.perLine / 32)).any (fun k => (j.scaleSrc r (e0 / 32 + k)).isEmpty))
      scnan := (List.range (j.perLine / 32)).any (fun k => bad (32 * k)) }
  else
    let bs := (List.range (j.perLine / 32)).map (fun k => quantBlock ct (hadBits had) fd (j.blockVals rd tr had r (e0 / 32 + k)))
    { bytes := swizzleLine r (packElems j.cbits (bs.flatMap Prod.fst)), counted := 128, zfill := zf
      scnan := bs.any (fun b => b.2.2) }

/-- The scales a line of the scale area holds: line offset, row and block. -/
def CopyJob.scalesOf (j : CopyJob) (line : Nat) : List (Nat × Nat × Nat) :=
  let i := line - j.scr.base / 128 - j.desc.sline
  let per := j.cols / 32
  ((List.range 128).filter (fun b => decide (128 * i + b < j.desc.rows * per))).map (fun b =>
    (b, (128 * i + b) / per, (128 * i + b) % per))

/-- A line of scales of `tcopy.in`. -/
def CopyJob.scaleIn (j : CopyJob) (rd : Src → Nat) (tr : Bool) (had : Nat) (fd mxs : Bool) (line : Nat) : UnitOut :=
  let ss := j.scalesOf line
  let v := fun (q : Nat × Nat × Nat) =>
    if mxs then elemVal rd 8 0 (j.scaleSrc q.2.1 q.2.2)
    else (quantBlock j.kind.cty (hadBits had) fd (j.blockVals rd tr had q.2.1 q.2.2)).2.1
  { bytes := ss.map (fun q => (q.1, v q)), counted := ss.length
    zfill := mxs && ss.any (fun q => (j.scaleSrc q.2.1 q.2.2).isEmpty) }

/-- The element offset of a byte of a line through a record, if the byte lies at or beyond its BASE (R184). -/
def CopyJob.offOf (j : CopyJob) (second : Bool) (a : Nat) : Option Nat :=
  let r := if second then j.mrec1 else j.mrec
  let b := j.segBase r.sel + r.base
  if a < b then none else some (swzOff r.swz (a - b))

/-- The canonical source of a destination byte of the record: the nibbles or byte it is made of, or a constant. -/
inductive OutByte where
  | keep
  | scr (b : Nat)
  | parts (lo hi : Option (Nat × Nat)) (fill : Nat)
  | const (v : Nat)
  deriving DecidableEq, Repr

/-- The scratchpad bytes an output byte reads. -/
def OutByte.src : OutByte → List Nat
  | .scr b => [b]
  | .parts lo hi _ => (lo.map Prod.fst).toList ++ (hi.map Prod.fst).toList
  | _ => []

/-- The value of an output byte. -/
def OutByte.val (rd : Src → Nat) : OutByte → Option Nat
  | .keep => none
  | .scr b => some (rd (.scr b))
  | .parts lo hi f =>
    let n := fun (x : Option (Nat × Nat)) => match x with
      | some p => rd (.scr p.1) / 2 ^ p.2 % 16
      | none => f % 16
    some (n lo + 16 * n hi)
  | .const v => some v

/-- What writes a byte of the record at an element offset, by kind (R305, R309, R311). -/
def CopyJob.outByte (j : CopyJob) (o : Nat) : OutByte :=
  let m := o / j.mrec.stride
  let pos := o % j.mrec.stride
  let q := pos - j.desc.mcol
  let inRow := decide (j.desc.mcol ≤ pos) && decide (q < j.desc.wl * 128)
  if j.mrec.extent ≤ m then .keep
  else match j.kind with
  | .tile _ _ _ _ _ _ _ =>
    if inRow && decide (j.desc.mrow ≤ m) && decide (m < j.desc.mrow + j.desc.rows) then .scr (j.cByte (m - j.desc.mrow) q)
    else .keep
  | .scatter idx _ =>
    match ((List.range j.desc.rows).filter (fun i => idx.getD i 0 == m)).getLast? with
    | some i => if inRow then .scr (j.cByte (j.desc.mrow + i) q) else .keep
    | none => .keep
  | .pack f _ fill =>
    match ((j.packUnits f).filter (fun u => u.2.2 == m)).getLast? with
    | none => .keep
    | some u =>
      let b := j.cbits
      if f * b / 8 ≤ pos then .keep
      else if b < 8 then
        let nib := fun (c : Nat) => if c < j.desc.ctot then some (j.cByte u.2.1 (c / 2), c % 2 * 4) else none
        .parts (nib (u.1 * f + 2 * pos)) (nib (u.1 * f + 2 * pos + 1)) fill.toNat
      else
        let c := u.1 * f + pos / (b / 8)
        if c < j.desc.ctot then .scr (j.cByte u.2.1 (c * (b / 8) + pos % (b / 8)))
        else .const (fill.toNat / 256 ^ (pos % (b / 8)) % 256)
  | _ => .keep

/-- The element offset of the first scale of canonical row r (R308). -/
def CopyJob.scaleOff (j : CopyJob) (r : Nat) : Nat :=
  (j.desc.mrow + r) * j.mrec1.stride + j.desc.mcol * 8 / j.mbits / 32

/-- The canonical rows one of whose scales lies at an element offset of the scale record. -/
def CopyJob.scaleRows (j : CopyJob) (o : Nat) : List Nat :=
  (List.range j.desc.rows).filter (fun r => decide (j.scaleOff r ≤ o) && decide (o < j.scaleOff r + j.cols / 32))

/-- What writes a byte of the scale record at an element offset (R308). -/
def CopyJob.outScale (j : CopyJob) (o : Nat) : OutByte :=
  match (j.scaleRows o).getLast? with
  | some r => if j.mrec1.inb o 1 then .scr (j.scaleByte r (o - j.scaleOff r)) else .keep
  | none => .keep

/-- Whether an address lies in the segment of a record's operation; rows of `tgather` and `tscatter` can lie beyond it, and
are then neither read nor written (R309; notes/assumptions 18). -/
def CopyJob.within (j : CopyJob) (sel a : Nat) : Bool := decide (a - j.segBase sel < (mget {} j.segs sel).size)

/-- What the operation has for byte `b` of a line through a record, within the segment or beyond it. -/
def CopyJob.outAt (j : CopyJob) (second : Bool) (line b : Nat) : OutByte :=
  match j.offOf second (line * 128 + b) with
  | none => .keep
  | some o => if second then j.outScale o else j.outByte o

/-- The bytes of a line through a record and what writes each. -/
def CopyJob.outLine (j : CopyJob) (second : Bool) (line : Nat) : List (Nat × OutByte) :=
  (List.range 128).map (fun b =>
    (b, if j.within (if second then j.mrec1.sel else j.mrec.sel) (line * 128 + b) then j.outAt second line b else .keep))

/-- A line written through a record: bytes dropped beyond the segment count as if written (R294). -/
def CopyJob.writeOut (j : CopyJob) (rd : Src → Nat) (second : Bool) (line : Nat) : UnitOut :=
  { bytes := (j.outLine second line).filterMap (fun p => (p.2.val rd).map (fun v => (p.1, v)))
    counted := ((List.range 128).filter (fun b => j.outAt second line b != .keep)).length }

/-- The source bytes of `tgather`, `tunpack`, `mdcopy` for a destination byte; none for a filled one, with the fill
value. -/
def CopyJob.byteSrc (j : CopyJob) (r q : Nat) : Option Src × Nat :=
  match j.kind with
  | .gather idx _ fill =>
    let m := idx.getD (r - j.desc.mrow) 0
    let b := j.cbits
    if m < j.mrec.extent then (some (.rcd false (j.mrec.atOff (m * j.mrec.stride + j.desc.mcol + q))), 0)
    else (none, if b < 8 then fill.toNat % 16 * 17 else fill.toNat / 256 ^ (q % (b / 8)) % 256)
  | .unpack f _ =>
    let b := j.cbits
    let c := q * 8 / b
    let u := j.desc.mrow + c / f * j.desc.gstep + r
    if j.desc.ctot ≤ c || j.mrec.extent ≤ u then (none, 0)
    else (some (.rcd false (j.mrec.atOff (u * j.mrec.stride + c % f * b / 8 + (if b < 8 then 0 else q % (b / 8))))), 0)
  | _ => (none, 0)

/-- Whether byte q of row r of `tunpack` reads a unit beyond the extent (R311). -/
def CopyJob.beyond (j : CopyJob) (r q : Nat) : Bool :=
  match j.kind with
  | .unpack f _ =>
    let c := q * 8 / j.cbits
    decide (c < j.desc.ctot) && decide (j.mrec.extent ≤ j.desc.mrow + c / f * j.desc.gstep + r)
  | _ => false

/-- A byte of `tgather` or `tunpack`: a last odd 4-bit channel leaves the upper half zero (R311). -/
def CopyJob.rowByte (j : CopyJob) (rd : Src → Nat) (r q : Nat) : Nat :=
  match j.byteSrc r q with
  | (some s, _) =>
    match j.kind with
    | .unpack _ _ => if j.cbits < 8 && j.desc.ctot ≤ 2 * q + 1 then rd s % 16 else rd s
    | _ => rd s
  | (none, v) => v

/-- A line of `tgather` or `tunpack`. -/
def CopyJob.rowIn (j : CopyJob) (rd : Src → Nat) (line : Nat) : UnitOut :=
  let p := tileSpot j.scr.base j.desc.pline j.desc.wl line
  { bytes := swizzleLine p.1 ((List.range 128).map (fun b => j.rowByte rd p.1 (128 * p.2 + b))), counted := 128
    zfill := (List.range 128).any (fun b => j.beyond p.1 (128 * p.2 + b)) }

/-- The source byte of byte t of an `mdcopy`; none beyond the record (R312). -/
def CopyJob.sideSrc (j : CopyJob) (start t : Nat) : Option Src :=
  let o := start * j.mrec.stride + t
  if o < j.mrec.stride * j.mrec.extent then some (.rcd false ((j.mrec.base + o) % 2 ^ 64)) else none

/-- The canonical bytes of the blocks whose scales a line through the scale record holds: their poison spoils it (R317). -/
def CopyJob.scaledBytes (j : CopyJob) (line : Nat) : List Src :=
  (List.range 128).flatMap (fun b =>
    match j.offOf true (line * 128 + b) with
    | none => []
    | some o =>
      match (j.scaleRows o).getLast? with
      | none => []
      | some r =>
        let n := 32 * j.cbits / 8
        if j.mrec1.inb o 1 then (List.range n).map (fun i => Src.scr (j.cByte r ((o - j.scaleOff r) * n + i))) else [])

/-- The source bytes a unit reads; those of a scale line with the elements they scale (R317). -/
def CopyJob.reads (j : CopyJob) (code : Nat) : List Src :=
  let n := (unitOf code).2
  let line := fun (second : Bool) => (j.outLine second n).flatMap (fun p => p.2.src.map Src.scr)
  match (unitOf code).1, j.kind with
  | 0, .lanes items =>
    (items.filter (fun i => i.off / 128 == n && i.pass)).flatMap (fun i =>
      (List.range i.val.toNat).map (fun b => Src.rcd false (i.addr + b)))
  | 0, .tile _ tr _ _ _ _ mxs =>
    let p := tileSpot j.scr.base j.desc.pline j.desc.wl n
    (List.range j.perLine).flatMap (fun i =>
      let q := j.tileElem tr p.1 (p.2 * j.perLine + i)
      j.elemSrc q.1 q.2)
      ++ (if mxs then (List.range (j.perLine / 32)).flatMap (fun k => j.scaleSrc p.1 (p.2 * j.perLine / 32 + k)) else [])
  | 0, .gather _ _ _ | 0, .unpack _ _ =>
    let p := tileSpot j.scr.base j.desc.pline j.desc.wl n
    (List.range 128).filterMap (fun b => (j.byteSrc p.1 (128 * p.2 + b)).1)
  | 1, .tile _ tr _ _ _ _ mxs =>
    (j.scalesOf n).flatMap (fun q =>
      (if mxs then j.scaleSrc q.2.1 q.2.2 else []) ++ (List.range 32).flatMap (fun i =>
        let e := j.tileElem tr q.2.1 (32 * q.2.2 + i)
        j.elemSrc e.1 e.2))
  | 2, _ => line false
  | 3, _ => line true ++ j.scaledBytes n
  | 4, .side _ _ start w =>
    ((List.range 128).filter (fun b => decide (128 * n + b < w))).filterMap (fun b => j.sideSrc start (128 * n + b))
  | _, _ => []

/-- What a unit writes, from a reader of source bytes. -/
def CopyJob.eval (j : CopyJob) (rd : Src → Nat) (code : Nat) : UnitOut :=
  let n := (unitOf code).2
  match (unitOf code).1, j.kind with
  | 0, .lanes items =>
    let mine := items.filter (fun i => i.off / 128 == n)
    { bytes := mine.flatMap (fun i => (List.range i.val.toNat).map (fun b =>
        (i.off % 128 + b, if i.pass then rd (.rcd false (i.addr + b)) else 0)))
      counted := mine.foldl (fun c i => c + i.val.toNat) 0, zfill := mine.any (fun i => !i.pass) }
  | 0, .tile _ tr _ _ had fd mxs => j.tileIn rd tr had fd mxs n
  | 0, .gather _ _ _ => j.rowIn rd n
  | 0, .unpack _ _ => j.rowIn rd n
  | 0, .fill _ _ v => { bytes := (List.range 128).map (fun b => (b, v.toNat / 256 ^ (b % 4) % 256)), counted := 128 }
  | 1, .tile _ tr _ _ had fd mxs => j.scaleIn rd tr had fd mxs n
  | 2, _ => j.writeOut rd false n
  | 3, _ =>
    { j.writeOut rd true n with
      counted := (List.range 128).foldl (fun c b => c + (match j.offOf true (n * 128 + b) with
        | some o => if j.mrec1.inb o 1 then (j.scaleRows o).length else 0
        | none => 0)) 0 }
  | 4, .side _ _ start w =>
    let bs := (List.range 128).filter (fun b => decide (128 * n + b < w))
    { bytes := bs.map (fun b => (b, match j.sideSrc start (128 * n + b) with
        | some s => rd s
        | none => 0))
      counted := bs.length, zfill := bs.any (fun b => (j.sideSrc start (128 * n + b)).isNone) }
  | 5, .pack f _ _ =>
    { counted := f * j.cbits / 8, zfill := decide (j.mrec.extent ≤ ((j.packUnits f).getD n (0, 0, 0)).2.2) }
  | 5, .tile _ _ _ _ _ _ _ => { counted := j.desc.wl * 128, zfill := true }
  | 5, _ => { counted := j.desc.wl * 128 }
  | 6, _ =>
    { counted := min (j.cols / 32) (j.scaleOff n + j.cols / 32 - j.mrec1.stride * j.mrec1.extent), zfill := true }
  | _, _ => {}

/-! ### Places in the machine -/

/-- Where a byte of a space stands: in a translated space, in a scratchpad, in a gang peer that has ended, or beyond its
segment. -/
inductive Spot where
  | mem (va : Nat)
  | scr (key byte : Nat)
  | gone
  | past
  deriving DecidableEq, Repr

/-- The place of a segment offset of a gang peer as a workgroup sees it (R193, R316). -/
def State.peerSpot (s : State) (w : Wg) (x : Nat) : Spot :=
  match w.peers[x / 2 ^ 19]? with
  | none => .gone
  | some r =>
    match mfind (s.coreAt r.h r.c).wgs r.g with
    | some v =>
      if v.launch = w.launch && v.gang = w.gang && v.member = x / 2 ^ 19 && !v.ended
          && decide (x % 2 ^ 19 < (mget {} v.segs 2).size) then
        .scr (coreKey r.h r.c) ((mget {} v.segs 2).base + x % 2 ^ 19)
      else .gone
    | none => .gone

/-- The place of an address of a record's space. -/
def State.spotAt (s : State) (h : Nat) (j : CopyJob) (sel a : Nat) : Spot :=
  if !(j.within sel a) then .past
  else match sel with
  | 2 => .scr (coreKey h j.core) a
  | 4 => s.peerSpot (mget {} (s.coreAt h j.core).wgs j.wgs) a
  | _ => .mem (a % 2 ^ 52)

/-- The place of a source byte. -/
def State.srcSpot (s : State) (h : Nat) (j : CopyJob) : Src → Spot
  | .scr b => .scr (coreKey h j.core) b
  | .rcd second x =>
    let r := if second then j.mrec1 else j.mrec
    s.spotAt h j r.sel (j.segBase r.sel + x)

/-- The line that a unit writes; a side-memory slot's stands beyond the scratchpads. -/
def State.destSpot (s : State) (h : Nat) (j : CopyJob) (code : Nat) : Spot :=
  let n := (unitOf code).2
  match (unitOf code).1 with
  | 0 => .scr (coreKey h j.core) (n * 128)
  | 1 => .scr (coreKey h j.core) (n * 128)
  | 2 => s.spotAt h j j.mrec.sel (n * 128)
  | 3 => s.spotAt h j j.mrec1.sel (n * 128)
  | 4 => .scr (2 ^ 20 + 4 * coreKey h j.core + (match j.kind with
      | .side slot _ _ _ => slot
      | _ => 0)) (n * 128)
  | _ => .past

/-- The translation a job holds for an address. -/
def CopyJob.tlbFor (j : CopyJob) (va now : Nat) (write : Bool) : Option Tlb :=
  findTlb j.tlb j.fn va now (if write then { w := true } else { r := true })

/-- The value of a byte at a place as the Enlarger reads it (R244). -/
def State.spotByte (s : State) (h : Nat) (j : CopyJob) : Spot → Nat
  | .gone => 0
  | .past => 0
  | .scr key b => (memRead (mget {} s.cores key).scratch b).toNat
  | .mem va =>
    match j.tlbFor va s.chipTime false with
    | some t => (s.loadByte h j.core j.fn (t.hpa va) false).toNat
    | none => 0

/-- Whether a place's line is poisoned. -/
def State.spotPoison (s : State) (j : CopyJob) : Spot → Bool
  | .gone => false
  | .past => false
  | .scr key b => (mget {} s.cores key).poison.contains (b / 128)
  | .mem va =>
    match j.tlbFor va s.chipTime false with
    | some t => s.linePoison (t.hpa va / 128)
    | none => false

/-- Whether a place may be read now: a scratchpad line is present (R245). -/
def State.spotPresent (s : State) : Spot → Bool
  | .scr key b => !((mget {} s.cores key).absent.contains (b / 128))
  | _ => true

/-- The line of a place: two places with one line share it. -/
def Spot.line : Spot → Spot
  | .mem va => .mem (va / 128)
  | .scr key b => .scr key (b / 128)
  | .gone => .gone
  | .past => .past

end Sys2Proof.Machine
end

