-- ==== Sys2Proof/Machine/Copy.lean ====
section
/-! DEFINITION. The meanings of the asynchronous copy instructions and of the Enlarger's events: checks, acceptance, the
coalescer, line writes, fences and `qwait` (13_async_copy.md R291 to R319). -/

namespace Sys2Proof.Machine

/-! ### Checks (R302) -/

/-- A record and its segment grant one side of a copy (R302 rank 1). -/
def State.copyRec (s : State) (r : BufRec) (write : Bool) : Bool :=
  let g := s.segOf r.sel
  r.usable && [1, 2, 4, 6].contains r.sel && g.valid && (if write then r.pw && g.w else r.pr && g.r)

/-- seg.scr grants one side of a copy (R302 rank 1). -/
def State.copyScr (s : State) (write : Bool) : Bool :=
  let g := s.segOf 2
  g.valid && (if write then g.w else g.r)

/-- The counting barrier is undeclared (R302 rank 2). -/
def State.barMissing (s : State) (bar : Nat) : Bool := decide (bar < 16) && (s.core.wbarOf s.grp.wgs bar).isNone

/-- An operation of the acting group before its operands (R292). -/
def State.newJob (s : State) (opc : Nat) (m : MReg) (q : BitVec 2) (bar : BarR) : CopyJob :=
  { opc := opc, core := s.cur.c, wgs := s.grp.wgs, queue := q.toNat, bar := bar.toNat, segs := s.grp.segs,
    fn := s.accFn, user := s.grp.lvl == .user, lanes := s.slotsOf (s.exe m) }

/-- The record elements that an operation reads or writes (R305, R309, R311). -/
def CopyJob.memRows (j : CopyJob) : List Nat :=
  match j.kind with
  | .tile _ true _ _ _ _ _ => (List.range j.cols).map (fun c => j.desc.mrow + c)
  | .tile _ false _ _ _ _ _ => (List.range j.desc.rows).map (fun r => j.desc.mrow + r)
  | .gather idx _ _ => (idx.take j.desc.rows).filter (fun m => decide (m < j.mrec.extent))
  | .scatter idx _ => (idx.take j.desc.rows).filter (fun m => decide (m < j.mrec.extent))
  | .pack f _ _ => (j.packUnits f).map (fun u => u.2.2)
  | .unpack f _ => (j.packUnits f).map (fun u => u.2.2)
  | _ => []

/-- The byte of a record element where an operation's elements begin. -/
def CopyJob.rowStart (j : CopyJob) : Nat :=
  match j.kind with
  | .pack _ _ _ => 0
  | .unpack _ _ => 0
  | _ => j.desc.mcol

/-- The bytes of a record element that an operation spans (R302 rank 3). -/
def CopyJob.rowSpan (j : CopyJob) : Nat :=
  match j.kind with
  | .tile _ true _ _ _ _ _ => (j.desc.rows * j.mbits + 7) / 8
  | .pack f _ _ => f * j.cbits / 8
  | .unpack f _ => f * j.cbits / 8
  | _ => j.cols * j.mbits / 8

/-- The element offset of an operation's bytes in a record element. -/
def CopyJob.rowOff (j : CopyJob) (m : Nat) : Nat := m * j.mrec.stride + j.rowStart

/-- The canonical rows of an operation. -/
def CopyJob.canonRows (j : CopyJob) : List Nat :=
  let r0 := match j.kind with
    | .gather _ _ _ => j.desc.mrow
    | .scatter _ _ => j.desc.mrow
    | _ => 0
  (List.range j.desc.rows).map (fun r => r0 + r)

/-- Whether a segment offset may be accessed: within the segment's size, and for a gang peer that has not ended within
its allocation (Table 8.2, R193; notes/assumptions 18). -/
def State.copyFits (s : State) (sel x : Nat) : Bool :=
  decide (x < (s.segOf sel).size) &&
    (sel != 4 || (match s.peerWg (x / 2 ^ 19) with
      | none => true
      | some p => decide (x % 2 ^ 19 < (mget {} p.2.segs 2).size)))

/-- A byte of `n` bytes from an element offset of a record that lies beyond its segment: the last line decides. -/
def State.rowPast (s : State) (r : BufRec) (o n : Nat) : Option Nat :=
  ((List.range (min n 128)).map (fun i => r.atOff (o + (n - 1 - i)))).find? (fun x => !(s.copyFits r.sel x))

/-- Whether a row of a tile instruction lies beyond the segment. -/
def State.rowMisfit (s : State) (j : CopyJob) (m : Nat) : Bool := (s.rowPast j.mrec (j.rowOff m) j.rowSpan).isSome

/-- The first in-bounds scale byte of canonical row r that lies beyond the scale record's segment (R184, R308). -/
def State.scaleMisfit (s : State) (j : CopyJob) (r : Nat) : Option Nat :=
  let o := (j.desc.mrow + r) * j.mrec1.stride + j.desc.mcol * 8 / j.mbits / 32
  ((List.range (j.cols / 32)).find? (fun k =>
    j.mrec1.inb (o + k : Nat) 1 && !(s.copyFits j.mrec1.sel (j.mrec1.atOff (o + k))))).map (fun k => j.mrec1.atOff (o + k))

/-- Whether an operation has scale bytes. -/
def CopyJob.scaled (j : CopyJob) : Bool :=
  match j.kind with
  | .tile _ _ mt ct _ _ mxs => mxs || mt != ct
  | _ => false

/-- Whether an operation's scales are in memory. -/
def CopyJob.mxs (j : CopyJob) : Bool :=
  match j.kind with
  | .tile _ _ _ _ _ _ mxs => mxs
  | _ => false

/-- Whether a row out of bounds traps: `tcopy`, `tpack`, `tunpack` (R302 rank 4). -/
def CopyJob.boundsRows (j : CopyJob) : Bool :=
  match j.kind with
  | .tile _ _ _ _ _ _ _ => true
  | .pack _ _ _ => true
  | .unpack _ _ => true
  | _ => false

/-- The rules of COPY_DESC that need the record and type (R302 rank 3). -/
def CopyJob.descSpan (j : CopyJob) : Bool :=
  j.desc.mcol * 8 % max 8 j.mbits == 0 && decide (j.rowStart + j.rowSpan ≤ j.mrec.stride)
    && (!j.mxs || j.desc.mcol * 8 / j.mbits % 32 == 0)

/-- The checks of a tile instruction in rank order: a trap and its address, or none (R302). -/
def State.tileCheck (s : State) (j : CopyJob) (out descOk : Bool) : Option (Nat × Nat) :=
  let first := j.mrec.atOff (j.rowOff (j.memRows.headD 0))
  let inRec := j.memRows.filter (fun m => decide (m < j.mrec.extent))
  let sg := s.segOf j.mrec.sel
  let scr := s.segOf 2
  let scaleEnd := fun (r : Nat) => (j.desc.mrow + r) * j.mrec1.stride + j.desc.mcol * 8 / j.mbits / 32 + j.cols / 32
  if !(s.copyRec j.mrec out && s.copyScr (!out) && j.mrec.esize == copySize j.kind.mty
      && (!j.mxs || (s.copyRec j.mrec1 out && j.mrec1.esize == 0))) then some (tAccess, first)
  else if s.barMissing j.bar then some (tBarUse, 0)
  else if !(descOk && j.descSpan) then some (tCopyDesc, 0)
  else match (if j.boundsRows && !j.mrec.zf then j.memRows.find? (fun m => decide (j.mrec.extent ≤ m)) else none) with
  | some m => some (tBounds, j.mrec.atOff (j.rowOff m))
  | none => match (if j.mxs && !j.mrec1.zf then
      (List.range j.desc.rows).find? (fun r => decide (j.mrec1.stride * j.mrec1.extent < scaleEnd r)) else none) with
  | some r => some (tBounds, j.mrec1.atOff (scaleEnd r - 1))
  | none => match (if j.boundsRows then inRec.find? (fun m => s.rowMisfit j m) else none) with
  | some m => some (tBounds, j.mrec.atOff (j.rowOff m))
  | none => match (if j.mxs then (List.range j.desc.rows).findSome? (fun r => s.scaleMisfit j r) else none) with
  | some x => some (tBounds, x)
  | none => match inRec.find? (fun m => (sg.base + j.mrec.atOff (j.rowOff m)) * 8 % max 8 j.mbits != 0) with
  | some m => some (tAlign, j.mrec.atOff (j.rowOff m))
  | none =>
    let line := fun (r : Nat) => tileLine 0 j.desc.pline j.desc.wl r (j.desc.wl - 1) * 128
    match j.canonRows.find? (fun r => decide (scr.size < line r + 128)) with
    | some r => some (tBounds, line r)
    | none =>
      if j.scaled && decide (scr.size < j.desc.sline * 128 + j.desc.rows * (j.cols / 32)) then
        some (tBounds, j.desc.sline * 128)
      else none

/-! ### Descriptors (R299 Table 13.4) -/

/-- A descriptor and whether each of its fields is in range; ROWS up to a limit. -/
def descCommon (c d rowMax : Nat) : Bool :=
  decide (1 ≤ bitsOf c 0 13) && decide (bitsOf c 0 13 ≤ rowMax) && bitsOf c 13 3 == 0 && decide (1 ≤ bitsOf c 16 6)
    && decide (bitsOf c 16 6 ≤ 32) && decide (c < 2 ^ 22) && bitsOf d 0 12 % 16 == 0

/-- The descriptor of `tcopy`. -/
def descTcopy (a b c d : Nat) : TileDesc :=
  { mrow := a, mcol := bitsOf b 0 16, rows := bitsOf c 0 13, wl := bitsOf c 16 6, pline := bitsOf d 0 12,
    sline := bitsOf d 16 12 }
/-- Its ranges; SLINE is zero without scales. -/
def descTcopyOk (scaled : Bool) (b c d : Nat) : Bool :=
  decide (b < 2 ^ 16) && descCommon c d 4096 && bitsOf d 12 4 == 0 && decide (d < 2 ^ 28)
    && (scaled || bitsOf d 16 12 == 0)

/-- The descriptor of `tgather` and `tscatter`; `mrow` holds CROW0. -/
def descRows (a b c d : Nat) : TileDesc :=
  { mrow := bitsOf a 0 12, mcol := bitsOf b 0 16, rows := bitsOf c 0 13, wl := bitsOf c 16 6, pline := bitsOf d 0 12 }
/-- Its ranges. -/
def descRowsOk (a b c d : Nat) : Bool :=
  decide (a < 2 ^ 12) && decide (b < 2 ^ 16) && descCommon c d 8 && decide (d < 2 ^ 12)

/-- The descriptor of `tpack` and `tunpack`. -/
def descPack (a b c d : Nat) : TileDesc :=
  { mrow := a, ctot := bitsOf b 0 16, gstep := bitsOf b 16 16, rows := bitsOf c 0 13, wl := bitsOf c 16 6,
    pline := bitsOf d 0 12 }
/-- Its ranges; CTOT is at most C. -/
def descPackOk (bits b c d : Nat) : Bool :=
  decide (1 ≤ bitsOf b 0 16) && decide (bitsOf b 0 16 ≤ bitsOf c 16 6 * 1024 / bits) && decide (1 ≤ bitsOf b 16 16)
    && descCommon c d 4096 && decide (d < 2 ^ 12)

/-- The four registers of a descriptor, of the lowest lane of E. -/
def State.descRegs (s : State) (m : MReg) (a : Reg) : Nat × Nat × Nat × Nat :=
  let r := fun (i : Nat) => (s.lreg (lowest (s.exe m)) (a.toNat + i)).toNat
  (r 0, r 1, r 2, r 3)

/-- A fill element (R310): canonical NaN of the type, zero for the integer types, or k63's low bits. -/
def fillValue (t : Ty) (f : Fill) (k63 : Word) : Word :=
  match f with
  | .fz => 0
  | .fnan =>
    if t.among [.f32, .f16, .bf16, .e4m3, .e5m2, .e2m1, .e8m0] then BitVec.ofNat 32 (fmtNan t) else 0
  | .fk => BitVec.ofNat 32 (k63.toNat % 2 ^ tyWidth t)

/-! ### Acceptance (R291, R292) -/

/-- The operations of a hummock's Enlarger: accepted, in its coalescers and its fence entries (R291). -/
def State.entries (s : State) (h : Nat) : Nat :=
  (s.humAt h).enl.length + s.cores.foldl (fun (n : Nat) (e : Nat × Core) => if e.1 / 64 = h then n + e.2.coal.length else n) 0

/-- The state of a copy queue of a workgroup. -/
def State.copyQ (s : State) (h c w q : Nat) : CopyQ := mget {} (mget {} (s.coreAt h c).wgs w).qs q

/-- Change a copy queue's state. -/
def State.modQ (s : State) (h c w q : Nat) (f : CopyQ → CopyQ) : State :=
  let k := s.coreAt h c
  let x := mget {} k.wgs w
  s.setCoreAt h c { k with wgs := mset k.wgs w { x with qs := mset x.qs q (f (mget {} x.qs q)) } }

/-- Whether an operation is a fence entry. -/
def CopyJob.isFence (j : CopyJob) : Bool :=
  match j.kind with
  | .fence _ => true
  | _ => false

/-- Room for `n` more entries; a fence entry is no operation of its queue (R291). -/
def State.room (s : State) (h : Nat) (j : CopyJob) (n : Nat) : Bool :=
  decide (s.entries h + n ≤ 2048) && (j.isFence || decide ((s.copyQ h j.core j.wgs j.queue).outst + n ≤ 64))

/-- The lowest free entry of the Enlarger (Table 13.2), DESIGN CHOICE, since the spec does not say which (notes/assumptions 57). -/
def Hum.freeEntry (d : Hum) : Nat := ((List.range 2048).find? (fun i => (mfind d.enl i).isNone)).getD 0

/-- Change a core by its number in the map of cores. -/
def State.modKey (s : State) (key : Nat) (f : Core → Core) : State :=
  { s with cores := mset s.cores key (f (mget {} s.cores key)) }

/-- One destination line becomes absent, once for each operation that targets it (R189, R292). -/
def State.markAbsent (s : State) (h : Nat) (j : CopyJob) (code : Nat) : State :=
  if (unitOf code).1 = 4 then s
  else match s.destSpot h j code with
  | .scr key b => s.modKey key (fun k => { k with absent := (b / 128) :: k.absent })
  | _ => s

/-- Change the matrix engine of a core. -/
def State.modEngine (s : State) (h c : Nat) (f : Engine → Engine) : State :=
  s.setCoreAt h c { s.coreAt h c with engine := f (s.coreAt h c).engine }

/-- A side-memory slot loses its ready bit and takes its kind (R312). -/
def State.takeSide (s : State) (h : Nat) (j : CopyJob) : State :=
  match j.kind with
  | .side slot scale _ _ => s.modEngine h j.core (fun e =>
      { e with side := mset e.side slot { mget {} e.side slot with ready := false, scale := scale, poison := false } })
  | _ => s

/-- Accept an operation: it takes its number in its queue, and its destinations become absent (R292). -/
def State.accept (s : State) (h : Nat) (j : CopyJob) : State × CopyJob :=
  let q := s.copyQ h j.core j.wgs j.queue
  let us := j.units
  let j := { j with
    qpos := q.accn, seq := q.placed, upto := s.reqCtr, todo := us, ltotal := (us.filter (fun u => decide ((unitOf u).1 < 5))).length }
  let s := s.modQ h j.core j.wgs j.queue (fun q =>
    if j.isFence then { q with placed := q.placed + 1 }
    else { q with placed := q.placed + 1, accn := q.accn + 1, outst := q.outst + 1 })
  ((us.foldl (fun t u => t.markAbsent h j u) s).takeSide h j, j)

/-- Hand an accepted operation to the Enlarger. -/
def State.enlarge (s : State) (h : Nat) (j : CopyJob) : State :=
  let d := s.humAt h
  s.setHum h { d with enl := mset d.enl d.freeEntry j }

/-- Hand on every line operation of a core's coalescer (R304). -/
def State.handOn (s : State) (h c : Nat) : State :=
  let xs := (s.coreAt h c).coal
  let s := s.setCoreAt h c { s.coreAt h c with coal := [] }
  xs.foldl (fun t (x : Coalesced) => t.enlarge h x.job) s

/-- The lane requests of a lane copy. -/
def CopyJob.items (j : CopyJob) : List LaneAcc :=
  match j.kind with
  | .lanes items => items
  | _ => []

/-- The source line of a lane request, none where it is zero-filled, and its destination line. -/
def LaneAcc.lines (i : LaneAcc) : Option Nat × Nat := (if i.pass then some (i.addr / 128) else none, i.off / 128)

/-- Whether two lane copies merge (R304). -/
def CopyJob.merges (a b : CopyJob) : Bool :=
  a.wgs == b.wgs && a.queue == b.queue && a.bar == b.bar && a.mrec == b.mrec && a.segs == b.segs && a.fn == b.fn
    && a.user == b.user && (match a.items, b.items with
      | x :: _, y :: _ => x.lines == y.lines
      | _, _ => false)

/-- One lane copy with the items of another appended. -/
def CopyJob.append (a b : CopyJob) : CopyJob :=
  { a with kind := .lanes (a.items ++ b.items), lanes := dedup (a.lanes ++ b.lanes), upto := max a.upto b.upto }

/-- Merge consecutive lane requests of one instruction (R304). -/
def mergeLanes (js : List CopyJob) : List CopyJob :=
  js.foldl (fun acc j =>
    match acc.getLast? with
    | some p => if p.merges j then acc.dropLast ++ [p.append j] else acc ++ [j]
    | none => [j]) []

/-- The open line operation of a core's coalescer that a request of a group may join (R304): the queue has taken nothing
since, whose order the merging would break (R243). -/
def Core.openLine (k : Core) (g : Nat) (j : CopyJob) : Option Coalesced :=
  let placed := (mget {} (mget {} k.wgs j.wgs).qs j.queue).placed
  match k.coal.getLast? with
  | some x => if x.group = g && !x.due && x.job.seq + 1 == placed && x.job.merges j then some x else none
  | none => none

/-- Take a line operation into the coalescer: it merges with the open one, or that one is handed on (R304). -/
def State.coalesce (s : State) (h c g : Nat) (j : CopyJob) : State :=
  let k := s.coreAt h c
  match k.openLine g j with
  | some x => s.setCoreAt h c { k with coal := k.coal.dropLast ++ [{ x with job := x.job.append j }] }
  | none =>
    let p := (s.handOn h c).accept h j
    p.1.setCoreAt h c { p.1.coreAt h c with
      coal := (p.1.coreAt h c).coal ++ [{ since := s.cycles h, group := g, job := p.2 }] }

/-- The places of the bytes that an operation of the acting group's core reads. -/
def State.sources (s : State) (j : CopyJob) : List Spot := j.units.flatMap (fun u => (j.reads u).map (s.srcSpot s.cur.h j))

/-- Whether a store writes one of some bytes of a translated space. -/
def Req.storesTo (r : Req) (src : List Spot) : Bool :=
  r.kind.writes && r.items.any (fun i =>
    let va := r.va + (i.addr - r.line * 128)
    src.any (fun p => match p with
      | .mem a => decide (va ≤ a) && decide (a < va + memWidth r.ty)
      | _ => false))

/-- Whether a scratchpad access touches one of an operation's source bytes or of the lines that it writes. -/
def State.scrMeets (s : State) (j : CopyJob) (src : List Spot) (op : MemOp) : Bool :=
  let ws := s.scrWords op
  src.any (fun p => match p with
    | .scr key b => ws.contains (key, b / 4)
    | _ => false)
  || j.units.any (fun u => match s.destSpot s.cur.h j u with
    | .scr key b => ws.any (fun w => w.1 == key && w.2 / 32 == b / 128)
    | _ => false)

/-- Whether the stores of an operation's threads to its source bytes have been performed, and the earlier scratchpad accesses to
the lines that it writes (R240, R292).  A store that reaches a source through another virtual address is waited for when the line is
read. -/
def State.sourcesDone (s : State) (j : CopyJob) : Bool :=
  let src := s.sources j
  s.core.reqs.all (fun r => r.slots.all (fun t => !j.lanes.contains t) || !(r.storesTo src))
    && s.core.pend.all (fun p => match p.what with
      | .bank _ op => !(s.scrMeets j src op)
      | _ => true)

/-- Whether an instruction's operations may be accepted now: room, and the earlier stores of its threads to their sources
performed (R291, R292). -/
def State.mayAccept (s : State) (js : List CopyJob) : Bool :=
  match js with
  | [] => true
  | j :: _ =>
    let joins := match j.kind with
      | .lanes _ => b2n (s.core.openLine s.cur.g j).isSome
      | _ => 0
    let n := match j.kind with
      | .fence qs => popNat qs 4
      | _ => js.length
    s.room s.cur.h j (n - joins) && (j.isFence || s.drained j.lanes && s.core.pend.isEmpty || js.all (fun j => s.sourcesDone j))

/-- What a fence entry waits for: in each queue it names, everything placed so far; queue 4 is qm (R314, R335). -/
def State.fenceWaits (s : State) (h c w queues : Nat) : NMap Nat :=
  let x := mget {} (s.coreAt h c).wgs w
  (List.range 5).filterMap (fun q =>
    if queues.testBit q then
      (if q = 4 then (if x.holds then some (4, x.qm.placed) else none) else some (q, (mget {} x.qs q).placed))
    else none)

/-- Place the fence entry of qm (R335). -/
def State.placeQmFence (s : State) (h c w queues : Nat) (ws : NMap Nat) : State :=
  let k := s.coreAt h c
  let x := mget {} k.wgs w
  let op : MatOp := { opc := 0x6B, kind := .fence queues, waits := ws, pos := x.qm.placed }
  s.setCoreAt h c { k with
    wgs := mset k.wgs w { x with qm := { x.qm with placed := x.qm.placed + 1 } }
    engine := { k.engine with queue := k.engine.queue ++ [op] } }

/-- Place a fence: an entry in each copy queue it names and in qm where its workgroup holds the engine (R314). -/
def State.placeFence (s : State) (h : Nat) (j : CopyJob) (queues : Nat) : State :=
  let ws := s.fenceWaits h j.core j.wgs queues
  let s := ((List.range 4).filter (fun q => queues.testBit q)).foldl (fun t q =>
    let p := t.accept h { j with queue := q, waits := ws }
    p.1.enlarge h p.2) s
  if queues.testBit 4 && (mget {} (s.coreAt h j.core).wgs j.wgs).holds then s.placeQmFence h j.core j.wgs queues ws else s

/-- Accept one operation of the acting group into the Enlarger or its coalescer. -/
def State.acceptOne (s : State) (j : CopyJob) : State :=
  match j.kind with
  | .lanes _ => s.coalesce s.cur.h s.cur.c s.cur.g j
  | .fence qs => s.placeFence s.cur.h j qs
  | _ =>
    let p := s.accept s.cur.h j
    p.1.enlarge s.cur.h p.2

/-- Accept the operations of an instruction as one event, and go on (R292). -/
def State.acceptAll (s : State) (js : List CopyJob) : State := (js.foldl (fun t j => t.acceptOne j) s).endMem

/-- An instruction that passed its checks: accepted, or its group waits (R291). -/
def State.copyGo (s : State) (js : List CopyJob) : State :=
  if s.mayAccept js then s.acceptAll js else s.setWait (.copies js)

/-- A waiting copy instruction is accepted (R291, R292). -/
def execCopyAccept (h c g : Nat) (s0 : State) : Out :=
  let s := s0.at_ { h := h, c := c, g := g }
  match s.grp.wait with
  | .copies js => if s.mayAccept js then .next (s.acceptAll js) else .next s0
  | _ => .next s0

/-! ### Lane copies (R303, R304) -/

/-- `cpa.n` (R302 to R304). -/
def State.cpa (s : State) (opc n : Nat) (o : CpaOp) : State :=
  let e := s.exe o.m
  let r := mget {} s.wg.b o.buf.toNat
  let sg := s.segOf r.sel
  let scr := s.segOf 2
  let off := fun (l : Nat) => ((s.lreg l o.b.toNat).toNat * r.stride : Nat) + o.off.toInt
  let x := fun (l : Nat) => r.segOff (off l)
  let inb := fun (l : Nat) => r.inb (off l) n
  let d := fun (l : Nat) => (s.lreg l o.a.toNat).toNat
  let es := lanesOf e
  let fits := fun (l : Nat) => s.copyFits r.sel (x l) && s.copyFits r.sel (x l + n - 1)
  if e = 0 then s.advance
  else if !(s.copyRec r false && s.copyScr true) then s.trap tAccess (lowest e) (x (lowest e))
  else if s.barMissing o.bar.toNat then s.trap tBarUse (lowest e)
  else match es.find? (fun l => if inb l then !(fits l) else !r.zf) with
  | some l => s.trap tBounds l (x l)
  | none => match es.find? (fun l => inb l && (sg.base + x l) % n != 0) with
  | some l => s.trap tAlign l (x l)
  | none => match es.find? (fun l => decide (scr.size < d l + n)) with
  | some l => s.trap tBounds l (d l)
  | none => match es.find? (fun l => d l % n != 0) with
  | some l => s.trap tAlign l (d l)
  | none =>
    let j := s.newJob 0xFF o.m o.q o.bar
    let base := if r.sel = 4 then 0 else sg.base
    s.copyGo (mergeLanes (es.map (fun l =>
      let i : LaneAcc := {
        lane := l, pass := inb l, off := scr.base + d l, addr := base + x l, val := BitVec.ofNat 64 n }
      { j with opc := opc, kind := .lanes [i], mrec := { sel := r.sel }, segs := [] })))

/-- `cpa.4` (R303). -/
def execCpa4 (o : CpaOp) (s : State) : Out := .next (s.cpa 0xFF 4 o)
/-- `cpa.8` (R303). -/
def execCpa8 (o : CpaOp) (s : State) : Out := .next (s.cpa 0xFF 8 o)
/-- `cpa.16` (R303). -/
def execCpa16 (o : CpaOp) (s : State) : Out := .next (s.cpa 0xFF 16 o)

/-- `cpa.flush` hands on the group's line operations (R304). -/
def execCpaFlush (m : MReg) (s : State) : Out :=
  .next (if s.exe m = 0 then s.advance
         else if s.core.coal.any (fun x => x.group == s.cur.g) then (s.handOn s.cur.h s.cur.c).advance
         else s.advance)

/-- A line operation is handed on 32 core cycles after its first request, or when its group has dissolved (R304). -/
def execCpaCoalesceTimeout (h c : Nat) (s : State) : Out :=
  if (s.coreAt h c).coal.any (fun x => x.due || decide (x.since + 32 ≤ s.cycles h)) then .next (s.handOn h c) else .next s

/-! ### Tile copies (R305 to R313) -/

/-- A tile instruction from its checks to acceptance. -/
def State.tileGo (s : State) (m : MReg) (j : CopyJob) (out descOk : Bool) : State :=
  if s.exe m = 0 then s.advance
  else match s.tileCheck j out descOk with
  | some (code, addr) => s.trap code (lowest (s.exe m)) addr
  | none => s.copyGo [j]

/-- The code of a Hadamard transform (Table 13.6). -/
def hadCode : Had → Nat
  | .none => 0
  | .h16 => 1
  | .h32 => 2

/-- `tcopy` (R305 to R308). -/
def execTcopy (o : TileOp) (out tr : Bool) (mt ct : Ty) (had : Had) (fold mxs : Bool) (s : State) : Out :=
  let d := s.descRegs o.m o.a
  let j := { s.newJob 0x64 o.m o.q o.bar with
    kind := .tile out tr mt ct (hadCode had) fold mxs, desc := descTcopy d.1 d.2.1 d.2.2.1 d.2.2.2
    mrec := mget {} s.wg.b o.buf.toNat, mrec1 := if mxs then mget {} s.wg.b (o.buf.toNat + 1) else {} }
  .next (s.tileGo o.m j out (descTcopyOk j.scaled d.2.1 d.2.2.1 d.2.2.2))

/-- The indices of a row gather or scatter (R309). -/
def State.indices (s : State) (m : MReg) (b : Reg) : List Nat :=
  (List.range 8).map (fun i => (s.lreg (lowest (s.exe m)) (b.toNat + i)).toNat)

/-- `tgather` (R309). -/
def execTgather (o : TileOp) (b : Reg) (ty : Ty) (fill : Fill) (s : State) : Out :=
  let d := s.descRegs o.m o.a
  let j := { s.newJob 0x65 o.m o.q o.bar with
    kind := .gather (s.indices o.m b) ty (fillValue ty fill (mget 0 s.wg.k 63))
    desc := descRows d.1 d.2.1 d.2.2.1 d.2.2.2, mrec := mget {} s.wg.b o.buf.toNat }
  .next (s.tileGo o.m j false (descRowsOk d.1 d.2.1 d.2.2.1 d.2.2.2))

/-- `tscatter` (R309). -/
def execTscatter (o : TileOp) (b : Reg) (ty : Ty) (s : State) : Out :=
  let d := s.descRegs o.m o.a
  let j := { s.newJob 0x66 o.m o.q o.bar with
    kind := .scatter (s.indices o.m b) ty
    desc := descRows d.1 d.2.1 d.2.2.1 d.2.2.2, mrec := mget {} s.wg.b o.buf.toNat }
  .next (s.tileGo o.m j true (descRowsOk d.1 d.2.1 d.2.2.1 d.2.2.2))

/-- `tpack` (R311); the field holds f - 1. -/
def execTpack (o : TileOp) (f : BitVec 6) (ty : Ty) (fill : Fill) (s : State) : Out :=
  let d := s.descRegs o.m o.a
  let j := { s.newJob 0x67 o.m o.q o.bar with
    kind := .pack (f.toNat + 1) ty (fillValue ty fill (mget 0 s.wg.k 63))
    desc := descPack d.1 d.2.1 d.2.2.1 d.2.2.2, mrec := mget {} s.wg.b o.buf.toNat }
  .next (s.tileGo o.m j true (descPackOk (tyWidth ty) d.2.1 d.2.2.1 d.2.2.2))

/-- `tunpack` (R311). -/
def execTunpack (o : TileOp) (f : BitVec 6) (ty : Ty) (s : State) : Out :=
  let d := s.descRegs o.m o.a
  let j := { s.newJob 0x68 o.m o.q o.bar with
    kind := .unpack (f.toNat + 1) ty
    desc := descPack d.1 d.2.1 d.2.2.1 d.2.2.2, mrec := mget {} s.wg.b o.buf.toNat }
  .next (s.tileGo o.m j false (descPackOk (tyWidth ty) d.2.1 d.2.2.1 d.2.2.2))

/-- `mdcopy` (R302, R312): the field holds bytes / 16 - 1. -/
def execMdcopy (m : MReg) (b : Reg) (buf : BufR) (bar : BarR) (q : BitVec 2) (slot : BitVec 2) (scale : Bool)
    (n : BitVec 8) (s : State) : Out :=
  let e := s.exe m
  let r := mget {} s.wg.b buf.toNat
  let bytes := (n.toNat + 1) * 16
  let start := (s.lreg (lowest e) b.toNat).toNat
  let o := start * r.stride
  let last := min (o + bytes) (r.stride * r.extent) - 1
  let x := (r.base + o) % 2 ^ 64
  .next (
    if e = 0 then s.advance
    else if !(s.copyRec r false && (s.segOf 2).valid && s.wg.holds) then s.trap tAccess (lowest e) x
    else if s.barMissing bar.toNat then s.trap tBarUse (lowest e)
    else if (!r.zf && decide (r.stride * r.extent < o + bytes))
        || (decide (o < r.stride * r.extent)
          && (!(s.copyFits r.sel x) || !(s.copyFits r.sel ((r.base + last) % 2 ^ 64)))) then
      s.trap tBounds (lowest e) x
    else s.copyGo [{ s.newJob 0x69 m q bar with kind := .side slot.toNat scale start bytes, mrec := r }])

/-- `cfill` (R302, R313). -/
def execCfill (m : MReg) (a b : Reg) (bar : BarR) (q : BitVec 2) (lines : BitVec 12) (s : State) : Out :=
  let e := s.exe m
  let first := (s.lreg (lowest e) b.toNat).toNat
  .next (
    if e = 0 then s.advance
    else if !(s.copyScr true) then s.trap tAccess (lowest e) (first * 128)
    else if s.barMissing bar.toNat then s.trap tBarUse (lowest e)
    else if (s.segOf 2).size < (first + lines.toNat) * 128 then s.trap tBounds (lowest e) (first * 128)
    else s.copyGo [{ s.newJob 0x6A m q bar with kind := .fill first lines.toNat (s.lreg (lowest e) a.toNat) }])

/-! ### Fences and `qwait` (R314, R315) -/

/-- `qfence` (R314): it waits only for room. -/
def execQfence (m : MReg) (qs : BitVec 5) (s : State) : Out :=
  .next (if s.exe m = 0 then s.advance
         else s.copyGo [{ s.newJob 0x6B m 0 63 with kind := .fence qs.toNat }])

/-- The operations and fence entries of a copy queue that have not completed. -/
def State.queueJobs (s : State) (h c w q : Nat) : List CopyJob :=
  let mine := fun (j : CopyJob) => j.core == c && j.wgs == w && j.queue == q
  (((s.humAt h).enl.map Prod.snd) ++ (s.coreAt h c).coal.map (fun x => x.job)).filter mine

/-- Whether everything placed in a queue below a number has completed; queue 4 is qm. -/
def State.queueDone (s : State) (h c w q upto : Nat) : Bool :=
  if q = 4 then (s.coreAt h c).engine.queue.all (fun op => decide (upto ≤ op.pos))
  else (s.queueJobs h c w q).all (fun j => decide (upto ≤ j.seq))

/-- The sequencer turns to the operation at the head of qm, or idles (Table 14.6). -/
def Engine.beginHead (e : Engine) (w now : Nat) : Engine :=
  match e.queue with
  | [] => { e with state := 0, opc := 0, step := 0, steps := 0, opnd := [] }
  | o :: _ => { e with
      state := 1, opc := o.opc, wgs := w, step := o.step, steps := o.steps, tstep := now, since := now, used := 0
      opnd := o.set }

/-- A fence entry completes when everything placed before it in the queues it names has completed: entry k of the
Enlarger, or for k = 2048 + core the head of that core's qm (R314, R335). -/
def execQfenceEntryComplete (h k : Nat) (s : State) : Out :=
  if k < 2048 then
    match mfind (s.humAt h).enl k with
    | none => .next s
    | some j =>
      if j.isFence && j.waits.all (fun e => s.queueDone h j.core j.wgs e.1 e.2) then
        .next (s.setHum h { s.humAt h with enl := mdel (s.humAt h).enl k })
      else .next s
  else
    let c := k - 2048
    let e := (s.coreAt h c).engine
    match e.queue, e.holder with
    | op :: rest, some w =>
      (match op.kind with
       | .fence _ =>
         if op.waits.all (fun x => s.queueDone h c w x.1 x.2) then
           .next (s.modEngine h c (fun e => { e with queue := rest }.beginHead w s.chipTime))
         else .next s
       | _ => .next s)
    | _, _ => .next s

/-- The end of `qwait` (R315): an acquire, the status pair, and the flags cleared, all of the operations numbered below
`n`. -/
def State.qwaitEnd (s : State) (m : MReg) (a : Reg) (q n : Nat) : State :=
  let x := s.copyQ s.cur.h s.cur.c s.grp.wgs q
  let s := s.acquire
  let s := s.writeLanes (s.live m) a.toNat (fun _ => BitVec.ofNat 32 (x.flags n))
  let s := s.writeLanes (s.live m) (a.toNat + 1) (fun _ => x.firstBad n)
  (s.modQ s.cur.h s.cur.c s.grp.wgs q (fun x => x.clear n)).endMem

/-- Whether a `qwait` of the acting group may end: everything placed below `n` has completed, and, since it is an acquire point,
its threads' earlier releases have taken effect (R239, R315). -/
def State.qwaitDone (s : State) (m : MReg) (q n : Nat) : Bool :=
  s.queueDone s.cur.h s.cur.c s.grp.wgs q n && s.released (s.slotsOf (s.exe m))

/-- Whether a group of the same workgroup and a lower number can complete a `qwait` on a queue: it reads first (R315). -/
def State.qwaitAhead (s : State) (q : Nat) : Bool :=
  s.core.groups.any (fun e => decide (e.1 < s.cur.g) && e.2.wgs == s.grp.wgs && (match e.2.wait with
    | .qwait _ m p n => p == q && (s.at_ { s.cur with g := e.1 }).qwaitDone m q n
    | _ => false))

/-- `qwait` (R315). -/
def execQwait (m : MReg) (a : Reg) (q : BitVec 2) (s : State) : Out :=
  let n := (s.copyQ s.cur.h s.cur.c s.grp.wgs q.toNat).placed
  .next (if s.exe m = 0 then s.advance
         else if s.qwaitDone m q.toNat n && !(s.qwaitAhead q.toNat) then s.qwaitEnd m a q.toNat n
         else s.setWait (.qwait a m q.toNat n))

/-- A waiting `qwait` completes (R315). -/
def execQwaitComplete (h c g : Nat) (s0 : State) : Out :=
  let s := s0.at_ { h := h, c := c, g := g }
  match s.grp.wait with
  | .qwait a m q n => if s.qwaitDone m q n && !(s.qwaitAhead q) then .next (s.qwaitEnd m a q n) else .next s0
  | _ => .next s0

/-! ### Line writes (R293, R294, R316 to R318) -/

/-- The source lines of a unit. -/
def State.unitReads (s : State) (h : Nat) (j : CopyJob) (code : Nat) : List Spot :=
  (j.reads code).foldl (fun ls r =>
    let p := (s.srcSpot h j r).line
    if ls.contains p then ls else ls ++ [p]) []

/-- The lines a unit touches: it reads some and writes one. -/
def State.unitLines (s : State) (h : Nat) (j : CopyJob) (code : Nat) : List Spot :=
  (s.destSpot h j code).line :: s.unitReads h j code

/-- The frame's line behind a line of a translated space, where the operation holds a translation of it. -/
def CopyJob.frameLine (j : CopyJob) (now : Nat) (write : Bool) (va : Nat) : Option Nat :=
  (j.tlbFor (va * 128) now write).map (fun t => t.hpa (va * 128) / 128)

/-- The lines a unit touches: where it reads or writes a translated space, the frame's lines, so far as they are known. -/
def State.unitFrames (s : State) (h : Nat) (j : CopyJob) (code : Nat) : List Spot :=
  let frame := fun (w : Bool) (p : Spot) => match p with
    | .mem a => (j.frameLine s.chipTime w a).map Spot.mem
    | .scr key b => some (.scr key b)
    | _ => none
  (frame true (s.destSpot h j code).line).toList ++ (s.unitReads h j code).filterMap (frame false)

/-- Whether an operation has yet to write one of some lines; a line of which it holds no translation yet may be any line of a
translated space. -/
def State.willWrite (s : State) (h : Nat) (e : CopyJob) (mine : List Spot) : Bool :=
  e.todo.any (fun u => match (s.destSpot h e u).line with
    | .mem a => (match e.frameLine s.chipTime true a with
      | some ln => mine.contains (.mem ln)
      | none => mine.any (fun p => match p with
        | .mem _ => true
        | _ => false))
    | .scr key b => mine.contains (.scr key b)
    | _ => false)

/-- Whether the operation, or an earlier one of its queue, must come first (R243, R316): it or an earlier one waits for a page
request, or an earlier one is a fence or has yet to write a line that the unit touches, under whichever address. -/
def State.unitBlocked (s : State) (h : Nat) (j : CopyJob) (code : Nat) : Bool :=
  let mine := s.unitFrames h j code
  let asks := fun (e : CopyJob) => (s.humAt h).replies.any (fun w => match w.enl with
    | some k => mfind (s.humAt h).enl k == some e
    | none => false)
  asks j || (s.queueJobs h j.core j.wgs j.queue).any (fun e => decide (e.seq < j.seq) &&
    (e.isFence || asks e || s.willWrite h e mine))

/-- A byte of a translated space that a unit reads or writes, and whether the declared ranges bind it. -/
structure MemByte where
  va    : Nat
  write : Bool
  glb   : Bool

/-- The bytes of translated spaces that a unit touches (R168, R316). -/
def State.unitMem (s : State) (h : Nat) (j : CopyJob) (code : Nat) : List MemByte :=
  let n := (unitOf code).2
  let sel := fun (second : Bool) => if second then j.mrec1.sel else j.mrec.sel
  let out := fun (second : Bool) =>
    ((j.outLine second n).filter (fun p => p.2 != OutByte.keep)).filterMap (fun p =>
      match s.spotAt h j (sel second) (n * 128 + p.1) with
      | .mem va => some { va := va, write := true, glb := j.user && sel second == 1 }
      | _ => none)
  (j.reads code).filterMap (fun r => match r, s.srcSpot h j r with
      | .rcd second _, .mem va => some { va := va, write := false, glb := j.user && sel second == 1 }
      | _, _ => none)
    ++ (match (unitOf code).1 with
      | 2 => out false
      | 3 => out true
      | _ => [])

/-- A byte whose page the operation holds no translation for. -/
def State.unitMissing (s : State) (j : CopyJob) (bs : List MemByte) : Option MemByte :=
  bs.find? (fun b => (j.tlbFor b.va s.chipTime b.write).isNone)

/-- Whether the operation has a walk or page request of its own under way for a line. -/
def Hum.asked (d : Hum) (k va : Nat) (write : Bool) : Bool :=
  (d.pending ++ d.walks ++ d.replies).any (fun w => w.enl == some k && w.va / 128 == va / 128 && w.write == write)

/-- Ask for the translation of a line, from the hummock's cache, unless a renewal has found the page changed, or by a walk (R216 to
R220, R229, R230, R316); a function that may not reach them is denied the page (R380). -/
def State.askCopyWalk (s : State) (h k : Nat) (j : CopyJob) (b : MemByte) : State :=
  let d := s.humAt h
  let wg := mget {} (s.coreAt h j.core).wgs j.wgs
  let cache := if j.stale.contains (b.va / 65536) then [] else d.tlb
  match findTlb cache j.fn b.va s.chipTime (if b.write then { w := true } else { r := true }) with
  | some t =>
    if s.reach wg.fn h 8 h 9 then s.setJob h k { j with tlb := t :: j.tlb } else s.endLaunch wg.launch stLease
  | none =>
    if !(s.reach wg.fn h 8 h 9) then s.endLaunch wg.launch stLease
    else if d.asked k b.va b.write || decide (256 ≤ d.pending.length) then s
    else
      let w : Walk := {
        who := { h := h, c := j.core }, enl := some k, fn := j.fn, va := b.va / 128 * 128, write := b.write
        glb := b.glb, launch := wg.launch }
      s.setHum h { d with pending := d.pending ++ [w] }

/-- Whether bytes lie outside the declared ranges that bind them (R168, R316). -/
def State.unitUndeclared (s : State) (h : Nat) (j : CopyJob) (bs : List MemByte) : Bool :=
  bs.any (fun b => b.glb && !(s.declared (mget {} (s.coreAt h j.core).wgs j.wgs).launch b.write b.va 1))

/-- Whether the Enlarger's port may reach the homes of a unit's bytes, for the function of its workgroup (R380). -/
def State.unitPath (s : State) (h : Nat) (j : CopyJob) (bs : List MemByte) : Bool :=
  let f := (mget {} (s.coreAt h j.core).wgs j.wgs).fn
  (dedup (bs.map (fun b => b.va / 128))).all (fun ln =>
    match bs.find? (fun b => b.va / 128 == ln) with
    | none => true
    | some b =>
      match j.tlbFor b.va s.chipTime b.write with
      | none => true
      | some t => s.pathOk f h 8 (s.homeOf t (t.hpa b.va)))

/-- The requests of a unit's lines, as the links and homes see them. -/
def State.unitReqs (s : State) (h : Nat) (j : CopyJob) (bs : List MemByte) : List Req :=
  (dedup (bs.map (fun b => b.va / 128))).filterMap (fun ln =>
    (bs.find? (fun b => b.va / 128 == ln)).bind (fun b =>
      (j.tlbFor b.va s.chipTime b.write).map (fun t =>
        let pa := t.hpa (ln * 128)
        { who := { h := h, c := j.core }, fn := j.fn, va := ln * 128, line := pa / 128, home := (s.homeOf t pa).1
          slice := (s.homeOf t pa).2, sp := t.sp, expiry := t.expiry, eng := true
          kind := if bs.any (fun b => b.va / 128 == ln && b.write) then .store else .load, launch := (mget {} (s.coreAt h j.core).wgs j.wgs).launch })))

/-- An engine's lines pass the L2 slices of their homes (16_tenants.md R382). -/
def State.l2Lines (s : State) (rs : List Req) : State :=
  rs.foldl (fun t r => t.l2Touch r.fn (r.home, r.slice) r.sp r.line r.kind.writes) s

/-- Whether a store that a thread of the operation issued before its acceptance is still on its way to a line: the operation reads
what it stores (R240, R244). -/
def State.ownStores (s : State) (h : Nat) (j : CopyJob) (line : Nat) : Bool :=
  let mine := fun (c t : Nat) => c == coreKey h j.core && j.lanes.contains t
  (s.coreAt h j.core).reqs.any (fun r =>
    r.kind.writes && r.line == line && decide (r.id ≤ j.upto) && r.slots.any (fun t => mine (coreKey h j.core) t))
  || s.travel.any (fun t => t.addr / 128 == line && t.froms.any (fun x => mine x.1 x.2.1 && decide (x.2.2 ≤ j.upto)))

/-- Whether a line of a unit gets no answer yet: its home's clock is at fault, so that it accepts none (R214), an accepted request to
the line has still to be performed (R212), it would cross a fenced link (R398), or a thread's store to a source is on its way
(R240). -/
def State.unitHeld (s : State) (h : Nat) (j : CopyJob) (bs : List MemByte) : Bool :=
  (s.unitReqs h j bs).any (fun r => s.faulty (512 + (s.localHum r.home).getD 64) || s.lineTaken r.line || s.overFenced r)
  || (bs.filter (fun b => !b.write)).any (fun b => match j.frameLine s.chipTime false (b.va / 128) with
    | some ln => s.ownStores h j ln
    | none => false)

/-- Aligned words of a list of bytes by address, then what is left as bytes: address, width and value. -/
def wordsOf (bs : List (Nat × Nat)) : List (Nat × Nat × Nat) :=
  let full := fun (a : Nat) => (List.range 4).all (fun i => bs.any (fun b => b.1 == a + i))
  let val := fun (a : Nat) => ((bs.find? (fun b => b.1 == a)).map Prod.snd).getD 0
  let ws := (dedup (bs.map (fun b => b.1 / 4 * 4))).filter full
  ws.map (fun a => (a, 4, val a + 256 * val (a + 1) + 65536 * val (a + 2) + 16777216 * val (a + 3)))
    ++ (bs.filter (fun b => !(ws.contains (b.1 / 4 * 4)))).map (fun b => (b.1, 1, b.2))

/-- Write a line of a translated space (R244, R316, R411): held in the tray for seg.fab of a checkpointed VF, else performed as
stores owned by the Enlarger. -/
def State.writeMemLine (s : State) (h : Nat) (j : CopyJob) (sel : Nat) (bs : List (Nat × Nat)) (pois : Bool) : State :=
  match bs with
  | [] => s
  | b :: _ =>
    match j.tlbFor b.1 s.chipTime true with
    | none => s
    | some t =>
      let ps := bs.map (fun b => (t.hpa b.1, b.2))
      let line := t.hpa b.1 / 128
      if s.trays j.fn sel then
        s.putTray j.fn ((wordsOf ps).map (fun w => TrayItem.store w.1 w.2.1 (BitVec.ofNat 64 w.2.2))
          ++ (if pois then [.spoil line] else if ps.length = 128 then [.heal line] else []))
      else if !(s.assigned (line * 128)) then s.logErr 0 3 h (line * 128) 0
      else
        let s := (wordsOf ps).foldl (fun (u : State) w =>
          (u.drainFor w.1 w.2.1).performStore j.fn ownEnlarger w.1 w.2.1 w.2.2) s
        if pois then (if s.poison.contains line then s else { s with poison := line :: s.poison })
        else if ps.length = 128 then { s with poison := s.poison.filter (· != line) }
        else s

/-- Remove one copy's hold on a line's presence bit (R189). -/
def Core.deliver (k : Core) (line : Nat) : Core := { k with absent := k.absent.erase line }

/-- Write a line of a scratchpad with its poison bit, and present it (R189, R204, R317). -/
def State.writeScrLine (s : State) (key line : Nat) (bs : List (Nat × Nat)) (pois : Bool) : State :=
  s.modKey key (fun k =>
    let k := { k with scratch := bs.foldl (fun m b => memWrite m (line * 128 + b.1) (BitVec.ofNat 8 b.2)) k.scratch }
    let k := if pois then { k with poison := if k.poison.contains line then k.poison else line :: k.poison }
             else if bs.length = 128 then { k with poison := k.poison.filter (· != line) } else k
    k)

/-- Write a line of a side-memory slot (R312, R317). -/
def State.writeSide (s : State) (h c slot n : Nat) (bs : List (Nat × Nat)) (pois : Bool) : State :=
  s.modEngine h c (fun e =>
    let d : Side := mget {} e.side slot
    { e with side := mset e.side slot { d with
        bytes := bs.foldl (fun m b => memWrite m (n * 128 + b.1) (BitVec.ofNat 8 b.2)) d.bytes
        poison := d.poison || pois } })

/-- The first bad index of a gather or scatter (R309). -/
def CopyJob.firstBad (j : CopyJob) : Option Nat :=
  match j.kind with
  | .gather idx _ _ => (idx.take j.desc.rows).find? (fun m => decide (j.mrec.extent ≤ m))
  | .scatter idx _ => (idx.take j.desc.rows).find? (fun m => decide (j.mrec.extent ≤ m))
  | _ => none

/-- Record the first bad index of an operation that begins (R309). -/
def QNote.noteBad (n : QNote) (b : Option Nat) : QNote :=
  match b with
  | none => n
  | some m => { n with idxf := true, bad := some (BitVec.ofNat 32 m) }

/-- An operation whose last destination line is written completes (R293). -/
def State.finishJob (s : State) (h k : Nat) (j : CopyJob) : State :=
  let keep := fun (w : Walk) => w.enl != some k
  let d := s.humAt h
  let s := s.setHum h { d with
    enl := mdel d.enl k, pending := d.pending.filter keep, walks := d.walks.filter keep, replies := d.replies.filter keep }
  let s := s.modQ h j.core j.wgs j.queue (fun q => { q with outst := q.outst - 1, donen := q.donen + 1 })
  match j.kind with
  | .side slot _ _ _ => s.modEngine h j.core (fun e => { e with side := mset e.side slot { mget {} e.side slot with ready := true } })
  | _ => s

/-- Put a unit's bytes at their destination; true where the destination has ended (R316). -/
def State.putUnit (s : State) (h : Nat) (j : CopyJob) (code : Nat) (u : UnitOut) (pois : Bool) : State × Bool :=
  let n := (unitOf code).2
  match (unitOf code).1 with
  | 4 =>
    (match j.kind with
     | .side slot _ _ _ => (s.writeSide h j.core slot n u.bytes pois, false)
     | _ => (s, false))
  | 5 => (s, false)
  | 6 => (s, false)
  | tag =>
    match s.destSpot h j code with
    | .scr key b => ((s.writeScrLine key (b / 128) u.bytes pois).modKey key (fun k => k.deliver (b / 128)), false)
    | .mem va =>
      (s.writeMemLine h j (if tag = 3 then j.mrec1.sel else j.mrec.sel) (u.bytes.map (fun b => ((va + b.1) % 2 ^ 52, b.2))) pois, false)
    | .gone => (s, true)
    | .past => (s, false)

/-- Write one unit: read the sources, write the line, count the bytes, set the status bits (R293, R294, R317). -/
def State.writeUnit (s : State) (h k : Nat) (j : CopyJob) (code : Nat) (bs : List MemByte) : State :=
  let s := bs.foldl (fun (t : State) b =>
    match j.tlbFor b.va t.chipTime b.write with
    | some e => if b.write then t else t.drainFor (e.hpa b.va / 4 * 4) 4
    | none => t) s
  let reads := s.unitReads h j code
  let lost := reads.any (fun p => p == Spot.gone)
  let lineOf := fun (p : Spot) => match p with
    | .mem l => Spot.mem (l * 128)
    | .scr key l => Spot.scr key (l * 128)
    | .gone => Spot.gone
    | .past => Spot.past
  let pois := reads.any (fun p => s.spotPoison j (lineOf p))
  let bad := reads.filterMap (fun p => match p with
    | .mem l => (match j.tlbFor (l * 128) s.chipTime false with
      | some t => if s.assigned (t.hpa (l * 128)) then none else some (t.hpa (l * 128))
      | none => none)
    | _ => none)
  let rd := fun (r : Src) => s.spotByte h j (s.srcSpot h j r)
  let u := j.eval rd code
  let s := bad.foldl (fun (t : State) a => t.logErr 0 3 h a 0) s
  let first := j.todo == j.units
  let p := s.putUnit h j code u pois
  let s := p.1.modQ h j.core j.wgs j.queue (fun q => q.note j.seq (fun n =>
    { (if first then n.noteBad j.firstBad else n) with
      zfill := n.zfill || u.zfill || lost || p.2, pois := n.pois || pois, scnan := n.scnan || u.scnan }))
  let s := if j.bar < 16 then s.modWbar h j.core j.wgs j.bar (fun b => { b with pending := b.pending - u.counted }) else s
  let j := { j with
    todo := j.todo.erase code, ldone := j.ldone + b2n (decide ((unitOf code).1 < 5)), bdone := j.bdone + u.counted }
  if j.todo.isEmpty then s.finishJob h k j else s.setJob h k j

/-- The Enlarger writes a destination line of operation `k` (R293, R316): once the operations before it allow, its sources are
present, its lines translated and the arbiters on their way have granted them (R173). -/
def execCopyLineWrite (h k line : Nat) (s : State) : Out :=
  match mfind (s.humAt h).enl k with
  | none => .next s
  | some j =>
    let bs := s.unitMem h j line
    let present := (s.unitReads h j line).all (fun p => match p with
      | .scr key l => s.spotPresent (.scr key (l * 128))
      | _ => true)
    if !(j.todo.contains line) || j.isFence || (s.fnAt j.fn).ck.state != .run || s.unitBlocked h j line || !present then .next s
    else if s.unitUndeclared h j bs then
      .next (s.endLaunch (mget {} (s.coreAt h j.core).wgs j.wgs).launch stLease)
    else match s.unitMissing j bs with
    | some b => .next (s.askCopyWalk h k j b)
    | none =>
      if !(s.unitPath h j bs) then .next (s.endLaunch (mget {} (s.coreAt h j.core).wgs j.wgs).launch stLease)
      else if s.unitHeld h j bs || (bs.any (fun b => b.write) && s.ckFull j.fn) then .next s
      else
        let p := s.sendLines ((j.sent.filter (fun x => x.1 == line)).map Prod.snd) (s.unitReqs h j bs)
        let rest := j.sent.filter (fun x => x.1 != line)
        .next (if p.2.all p.1.through then (p.1.l2Lines p.2).writeUnit h k { j with sent := rest } line bs
          else p.1.setJob h k { j with sent := rest ++ p.2.map (fun r => (line, r)) })

end Sys2Proof.Machine
end

