-- ==== Sys2Proof/Machine/Matrix.lean ====
section
/-! DEFINITION. The meanings of the matrix instructions and of the sequencer's steps: signing and placement, planes, streams,
accumulator moves and the macro-operation (14_matrix.md R321 to R348). -/

namespace Sys2Proof.Machine

/-! ### Type pairs (R324 Table 14.2) -/

/-- A legal type pair: its plane depth KP, its MX value, and whether SP = 1 is allowed. -/
def matPair (ta tb : Ty) : Option (Nat × Bool × Bool) :=
  match ta, tb with
  | .bf16, .bf16 => some (128, false, true)
  | .f16, .f16 => some (128, false, true)
  | .e4m3, .e4m3 => some (256, false, true)
  | .e4m3, .e5m2 => some (256, false, true)
  | .e5m2, .e4m3 => some (256, false, true)
  | .e5m2, .e5m2 => some (256, false, true)
  | .s8, .s8 => some (256, false, true)
  | .s8, .s4 => some (256, false, true)
  | .s4, .s8 => some (256, false, true)
  | .e4m3, .e2m1 => some (256, true, true)
  | .e2m1, .e4m3 => some (256, true, true)
  | .e2m1, .e2m1 => some (512, true, false)
  | .s4, .s4 => some (512, false, true)
  | _, _ => none

/-- KP of a pair. -/
def pairKp (ta tb : Ty) : Nat := ((matPair ta tb).map Prod.fst).getD 128
/-- A legal combination of a pair with MX and SP (R324). -/
def comboOk (ta tb : Ty) (mx sp : Bool) : Bool :=
  match matPair ta tb with
  | none => false
  | some p => p.2.1 == mx && (!sp || p.2.2)
/-- The logical depth KL (R324). -/
def pairKl (ta tb : Ty) (sp : Bool) : Nat := if sp then 2 * pairKp ta tb else pairKp ta tb

/-! ### Signing (R282, R331, R332) -/

/-- The digest of an operand set: each word little-endian (R282). -/
def digestOf (set : List Word) : Nat := crc64 (set.flatMap (fun w => bytesOf 4 w.toNat))

/-- The operand set of a signing instruction: its word without frame and mask, then its descriptor registers (R282, R331). -/
def State.operandSet (s : State) (m : MReg) (word : DWord) (a : Reg) (n : Nat) : List Word :=
  let w := word &&& 0x3FFFFFFFFFFFFFFF
  lo32 w :: hi32 w :: (List.range n).map (fun i => s.lreg (lowest (s.exe m)) (a.toNat + i))

/-- Check 6 of R331: the signing rules of R282. -/
def State.signTrap (s : State) (op : MatOp) (cv n : Nat) : Option Nat :=
  let x := mget {} s.wg.cvs cv
  if x.size = 0 || x.size < x.signed + n then some tCvState
  else if x.signed != 0 && x.opnds != op.set then some tCvMismatch
  else none

/-- The trap of a pending failure (R334 Table 14.7). -/
def QmState.trap (q : QmState) : Nat := if q.cause = 2 then tMatrixSlot else tPoison

/-- Place an operation at the end of the acting workgroup's qm; the scratchpad lines it will write become absent (R332). -/
def State.qmPlace (s : State) (op : MatOp) : State :=
  let w := s.wg
  let s := s.setWg { w with qm := { w.qm with outst := w.qm.outst + 1, accn := w.qm.accn + 1, placed := w.qm.placed + 1 } }
  let k := s.core
  let e := k.engine
  let op := { op with pos := w.qm.placed }
  let q := { e with queue := e.queue ++ [op] }
  s.setCore { k with absent := op.lines ++ k.absent, engine := if e.queue.isEmpty then q.beginHead s.grp.wgs s.chipTime else q }

/-- Place the operation of a complete set if qm has room: the set begins anew.  Else the group waits, and the set stays complete
(R282, R332). -/
def State.placeOp (s : State) (op : MatOp) (cv : Nat) (lanes : Word) : State :=
  if s.wg.qm.outst < 64 then
    let x := mget {} s.wg.cvs cv
    ((s.setWg { s.wg with cvs := mset s.wg.cvs cv { x with signed := 0, gen := (x.gen + 1) % 2 ^ 32 } }).qmPlace op).endMem
  else s.setWait (.place op cv lanes)

/-- Record a signature; the one that completes the set places the operation (R282, R332). -/
def State.record (s : State) (op : MatOp) (cv : Nat) (lanes : Word) : State :=
  let n := popNat lanes.toNat 32
  if s.wg.qm.fail then s.trap s.wg.qm.trap (lowest lanes)
  else match s.signTrap op cv n with
  | some code => s.trap code (lowest lanes)
  | none =>
    let x := mget {} s.wg.cvs cv
    let x := if x.signed = 0 then { x with opnds := op.set, digest := digestOf op.set } else x
    let s := s.setWg { s.wg with cvs := mset s.wg.cvs cv { x with signed := x.signed + n } }
    if x.signed + n = x.size then s.placeOp op cv lanes else s.endMem

/-- A check of R331 that fails: its trap, address and detail. -/
abbrev MatTrap := Option (Nat × Nat × Nat)

/-- A signing instruction: the checks of R331 in order, then its signature once its threads' earlier accesses are
performed (R332). -/
def State.sign (s : State) (m : MReg) (cv : BitVec 3) (bad : MatTrap) (op : MatOp) : State :=
  let e := s.exe m
  let op := { op with segs := s.grp.segs, fn := s.accFn, user := s.grp.lvl == .user }
  if e = 0 then s.advance
  else if s.wg.qm.fail then s.trap s.wg.qm.trap (lowest e)
  else if !s.wg.holds then s.trap tAccess (lowest e)
  else match bad with
  | some (code, addr, detail) => s.trap code (lowest e) addr detail
  | none =>
    match s.signTrap op cv.toNat (popNat e.toNat 32) with
    | some code => s.trap code (lowest e)
    | none =>
      if s.drained (s.slotsOf e) then s.record op cv.toNat e else s.setWait (.sign op cv.toNat e)

/-- A signature is recorded once its threads' earlier accesses are performed (R332). -/
def execSignatureRecord (h c g : Nat) (s0 : State) : Out :=
  let s := s0.at_ { h := h, c := c, g := g }
  match s.grp.wait with
  | .sign op cv lanes => if s.drained (s.slotsOf lanes) then .next (s.record op cv lanes) else .next s0
  | _ => .next s0

/-- A complete set is placed once qm has room (R332). -/
def execQmPlacement (h c g : Nat) (s0 : State) : Out :=
  let s := s0.at_ { h := h, c := c, g := g }
  match s.grp.wait with
  | .place op cv lanes => if s.wg.qm.outst < 64 then .next (s.placeOp op cv lanes) else .next s0
  | _ => .next s0

/-! ### The signing instructions (R336 to R345) -/

/-- The first failing check among a list, in order. -/
def firstBad : List (Bool × Nat × Nat × Nat) → MatTrap
  | [] => none
  | (ok, t) :: rest => if ok then firstBad rest else some t

/-- The size of seg.scr; none where it is invalid (R177). -/
def State.scrSize (s : State) : Nat := if (s.segOf 2).valid then (s.segOf 2).size else 0

/-- Whether the canonical rows of a tile lie within seg.scr (R331 check 5): `last` is the last row, of the end of a
panel. -/
def State.tileFits (s : State) (pline wl last : Nat) : Bool :=
  decide ((tileLine 0 pline wl last (wl - 1) + 1) * 128 ≤ s.scrSize)

/-- The detail of TYPE_COMBO: bits [11:0] of the word (R324). -/
def comboDetail (w : DWord) : Nat := w.toNat % 2 ^ 12

/-- `mld.st` (R340). -/
def execMldSt (m : MReg) (ta tb : Ty) (a : Reg) (cv : BitVec 3) (s : State) : Out :=
  let w := matWord 0x80 0 a cv (0#10 ++ tb.code ++ ta.code)
  let set := s.operandSet m w a 1
  let v := (set.getD 2 0).toNat
  let wlb := pairKp ta tb * tyWidth tb / 1024
  .next (s.sign m cv (firstBad [
      ((matPair ta tb).isSome, tTypeCombo, 0, comboDetail w),
      (decide (v < 2 ^ 12) && v % 16 == 0, tMatrixDesc, 0, 0),
      (s.tileFits v wlb 127, tBounds, v * 128, 0)])
    { opc := 0x80, set := set, kind := .ldSt ta tb v, steps := 8 })

/-- `mswap` (R341). -/
def execMswap (m : MReg) (cv : BitVec 3) (s : State) : Out :=
  .next (s.sign m cv none { opc := 0x81, set := s.operandSet m (matWord 0x81 0 0 cv 0) 0 0, kind := .swap })

/-- `mstream` (R342 Table 14.4). -/
def execMstream (m : MReg) (ta tb : Ty) (sp mx : Bool) (t sl q : BitVec 2) (a : Reg) (cv : BitVec 3) (s : State) : Out :=
  let w := matWord 0x82 0 a cv (0#2 ++ q ++ sl ++ t ++ bit1 mx ++ bit1 sp ++ tb.code ++ ta.code)
  let set := s.operandSet m w a 4
  let v := fun (i : Nat) => (set.getD (2 + i) 0).toNat
  let kl := pairKl ta tb sp
  let u := pairKp ta tb / 128
  let pline := bitsOf (v 0) 0 12
  let sline := bitsOf (v 0) 16 12
  let arow := bitsOf (v 1) 0 12
  let r := bitsOf (v 1) 16 8
  let crow := bitsOf (v 2) 0 7
  let descOk := pline % 16 == 0 && bitsOf (v 0) 12 4 == 0 && decide (v 0 < 2 ^ 28) && (mx || sline == 0)
    && arow % 16 == 0 && bitsOf (v 1) 12 4 == 0 && decide (v 1 < 2 ^ 24) && decide (16 ≤ r) && decide (r ≤ 128)
    && r % 16 == 0 && decide (arow + r ≤ 4096) && decide (v 2 < 2 ^ 7) && crow % 16 == 0 && decide (crow + r ≤ 128)
    && v 3 == 0
  let slotOk := (!sp || decide (sl.toNat + u ≤ 4))
    && !(sp && mx && decide (sl.toNat ≤ q.toNat) && decide (q.toNat < sl.toNat + u))
  .next (s.sign m cv (firstBad [
      (comboOk ta tb mx sp, tTypeCombo, 0, comboDetail w),
      (descOk && slotOk, tMatrixDesc, 0, 0),
      (s.tileFits pline (kl * tyWidth ta / 1024) (arow + r - 1), tBounds, pline * 128, 0),
      (!mx || decide (sline * 128 + (arow + r) * (kl / 32) ≤ s.scrSize), tBounds, sline * 128, 0)])
    { opc := 0x82, set := set, steps := r / 16,
      kind := .stream ta tb sp mx t.toNat sl.toNat q.toNat pline sline arow r crow })

/-- A record of `mtile` grants its side (R344). -/
def State.mtileRec (s : State) (r : BufRec) (read write : Bool) (size : Nat) : Bool :=
  let g := s.segOf r.sel
  r.usable && [1, 2, 6].contains r.sel && g.valid && (!read || (r.pr && g.r)) && (!write || (r.pw && g.w)) && r.esize == size

/-- A record of `mtile` that ends before its row count, or a row of it that lies beyond its segment: the segment offset
(R331 check 5, R344, Table 8.2). -/
def State.mtilePast (s : State) (r : BufRec) (rows n : Nat) : Option Nat :=
  if r.extent < rows then some (r.atOff (r.extent * r.stride))
  else (List.range rows).findSome? (fun i => s.rowPast r (i * r.stride) n)

/-- The scratchpad lines of consecutive 512-byte rows from a byte, each line once (R332, R344). -/
def cLines (a stride rows : Nat) : List Nat :=
  (List.range rows).flatMap (fun i =>
    let b := a + i * stride
    ((List.range ((b + 511) / 128 + 1 - b / 128)).map (fun q => b / 128 + q)).filter (fun l =>
      i == 0 || decide ((b - stride + 511) / 128 < l)))

/-- `mtile` (R344 Table 14.5). -/
def execMtile (m : MReg) (ta tb : Ty) (mx set : Bool) (t n : BitVec 2) (a : Reg) (cv : BitVec 3) (s : State) : Out :=
  let w := matWord 0x83 0 a cv (0#3 ++ bit1 set ++ n ++ t ++ bit1 mx ++ 0#1 ++ tb.code ++ ta.code)
  let os := s.operandSet m w a 4
  let v := fun (i : Nat) => (os.getD (2 + i) 0).toNat
  let rec_ := fun (i : Nat) => mget {} s.wg.b i
  let ra := bitsOf (v 0) 0 5
  let rb := bitsOf (v 0) 8 5
  let rc := bitsOf (v 0) 16 5
  let mm := bitsOf (v 1) 0 13
  let np := bitsOf (v 1) 16 9
  let stg := bitsOf (v 2) 0 12
  let k := np * pairKp ta tb
  let accessOk := s.mtileRec (rec_ ra) true false (copySize ta) && s.mtileRec (rec_ rb) true false (copySize tb)
    && s.mtileRec (rec_ rc) (!set) true 2
    && (!mx || ((ra == 31 || s.mtileRec (rec_ (ra + 1)) true false 0) && (rb == 31 || s.mtileRec (rec_ (rb + 1)) true false 0)))
  let descOk := bitsOf (v 0) 5 3 == 0 && bitsOf (v 0) 13 3 == 0 && decide (v 0 < 2 ^ 21) && bitsOf (v 1) 13 3 == 0
    && decide (v 1 < 2 ^ 25) && decide (16 ≤ mm) && decide (mm ≤ 4096) && mm % 16 == 0 && decide (1 ≤ np)
    && decide (np ≤ 256) && decide (v 2 < 2 ^ 12) && stg % 16 == 0 && v 3 == 0
    && (!mx || (decide (ra ≤ 30) && decide (rb ≤ 30)))
    && decide (k * tyWidth ta / 8 ≤ (rec_ ra).stride) && decide (k * tyWidth tb / 8 ≤ (rec_ rb).stride)
    && decide (512 ≤ (rec_ rc).stride)
    && (!mx || (decide (k / 32 ≤ (rec_ (ra + 1)).stride) && decide (k / 32 ≤ (rec_ (rb + 1)).stride)))
  let past := ([(rec_ ra, mm, k * tyWidth ta / 8), (rec_ rc, mm, 512), (rec_ rb, 128, k * tyWidth tb / 8)]
    ++ (if mx then [(rec_ (ra + 1), mm, k / 32), (rec_ (rb + 1), 128, k / 32)] else [])).findSome? (fun x =>
      s.mtilePast x.1 x.2.1 x.2.2)
  let nt := n.toNat + 1
  let l := 8 * nt + np * (9 + 8 * nt) + 8 * nt
  let nsb := (mm + 128 * nt - 1) / (128 * nt)
  let g := (mm - (nsb - 1) * (128 * nt)) / 16
  .next (s.sign m cv (firstBad [
      (accessOk, tAccess, 0, 0),
      (comboOk ta tb mx false, tTypeCombo, 0, comboDetail w),
      (descOk, tMatrixDesc, 0, 0),
      (past.isNone, tBounds, past.getD 0, 0),
      (decide ((stg + 640) * 128 ≤ s.scrSize), tBounds, stg * 128, 0)])
    { opc := 0x83, set := os, steps := (nsb - 1) * l + (8 * nt + np * (9 + g) + g) + 1,
      kind := .tile ta tb mx set t.toNat nt mm np stg,
      recs := [(0, rec_ ra), (1, rec_ rb), (2, rec_ rc), (3, rec_ (ra + 1)), (4, rec_ (rb + 1))],
      lines := (List.range 640).map (fun i => (s.segOf 2).base / 128 + stg + i)
        ++ (if (rec_ rc).sel = 2 then cLines ((s.segOf 2).base + (rec_ rc).base) (rec_ rc).stride mm else []) })

/-- `macc.z` (R343). -/
def execMaccZ (m : MReg) (t : BitVec 2) (cv : BitVec 3) (s : State) : Out :=
  .next (s.sign m cv none
    { opc := 0x84, set := s.operandSet m (matWord 0x84 0 0 cv (0#6 ++ t ++ 0#12)) 0 0, kind := .accZ t.toNat, steps := 8 })

/-- The lines of a canonical row of an accumulator move. -/
def maccWl (ty : Ty) : Nat := if tyWidth ty = 32 then 4 else 2

/-- The descriptor register of the accumulator moves is in range (R343). -/
def maccDescOk (v : Nat) : Bool :=
  let row := bitsOf v 16 7
  let rows := bitsOf v 24 8
  bitsOf v 0 12 % 16 == 0 && bitsOf v 12 4 == 0 && bitsOf v 23 1 == 0 && row % 16 == 0 && decide (16 ≤ rows)
    && decide (rows ≤ 128) && rows % 16 == 0 && decide (row + rows ≤ 128)

/-- The checks of an accumulator move. -/
def State.maccBad (s : State) (ty : Ty) (v : Nat) : MatTrap :=
  firstBad [(maccDescOk v, tMatrixDesc, 0, 0),
    (s.tileFits (bitsOf v 0 12) (maccWl ty) (bitsOf v 24 8 - 1), tBounds, bitsOf v 0 12 * 128, 0)]

/-- `macc.st` (R343). -/
def execMaccSt (m : MReg) (ty : Ty) (t : BitVec 2) (a : Reg) (cv : BitVec 3) (s : State) : Out :=
  let set := s.operandSet m (matWord 0x85 0 a cv (0#6 ++ t ++ 0#7 ++ ty.code)) a 1
  let v := (set.getD 2 0).toNat
  let rows := bitsOf v 24 8
  .next (s.sign m cv (s.maccBad ty v)
    { opc := 0x85, set := set, kind := .accSt ty t.toNat (bitsOf v 0 12) (bitsOf v 16 7) rows, steps := rows / 16,
      lines := (List.range rows).flatMap (fun r => (List.range (maccWl ty)).map (fun b =>
        tileLine (s.segOf 2).base (bitsOf v 0 12) (maccWl ty) r b)) })

/-- `macc.ld` (R343). -/
def execMaccLd (m : MReg) (ty : Ty) (t : BitVec 2) (a : Reg) (cv : BitVec 3) (s : State) : Out :=
  let set := s.operandSet m (matWord 0x86 0 a cv (0#6 ++ t ++ 0#7 ++ ty.code)) a 1
  let v := (set.getD 2 0).toNat
  .next (s.sign m cv (s.maccBad ty v)
    { opc := 0x86, set := set, kind := .accLd ty t.toNat (bitsOf v 0 12) (bitsOf v 16 7) (bitsOf v 24 8),
      steps := bitsOf v 24 8 / 16 })

/-! ### Status and configuration (R338, R339) -/

/-- `mstat` (R339). -/
def execMstat (m : MReg) (a : Reg) (t : BitVec 2) (s : State) : Out :=
  let q := s.wg.qm
  let v := mget 0 s.core.engine.flags t.toNat % 8 + 8 * b2n q.fail + 16 * (q.cause % 16) + 256 * (q.outst % 128)
    + 32768 * b2n (s.core.engine.state == 3)
  .next (if s.exe m = 0 then s.advance
    else if !s.wg.holds then s.trap tAccess (lowest (s.exe m))
    else ((s.writeLanes (s.live m) a.toNat (fun _ => BitVec.ofNat 32 v)).writeLanes (s.live m) (a.toNat + 1)
      (fun _ => BitVec.ofNat 32 q.donen)).advance)

/-- Clear flag bits of a set of tiles (R338). -/
def Engine.clearFlags (e : Engine) (tiles flags : Nat) : Engine :=
  { e with flags := (List.range 4).foldl (fun m t =>
      if tiles.testBit t then mset m t (mget 0 m t &&& (7 - flags)) else m) e.flags }

/-- `mcfg` (R338). -/
def execMcfg (m : MReg) (tiles : BitVec 4) (flags : BitVec 3) (f : Bool) (s : State) : Out :=
  .next (if s.exe m = 0 then s.advance
    else if !s.wg.holds then s.trap tAccess (lowest (s.exe m))
    else
      let s := s.modEngine s.cur.h s.cur.c (fun e => e.clearFlags tiles.toNat flags.toNat)
      (if f then s.setWg { s.wg with qm := { s.wg.qm with fail := false, cause := 0, fopc := 0, fstep := 0 } } else s).advance)

/-! ### Arithmetic (R328, R329, R330) -/

/-- The elements of a type in a row of bytes. -/
def rowElems (ty : Ty) (rd : Nat → Nat) (n : Nat) : List FVal :=
  (List.range n).map (fun k =>
    let x := if tyWidth ty = 4 then rd (k / 2) / 2 ^ (k % 2 * 4) % 16
      else if tyWidth ty = 8 then rd k else rd (2 * k) + 256 * rd (2 * k + 1)
    convSource ty (BitVec.ofNat 64 x))

/-- Split a list into chunks of 32, for at most `k` chunks. -/
def chunks32 {α : Type} (xs : List α) : Nat → List (List α)
  | 0 => []
  | k + 1 => xs.take 32 :: chunks32 (xs.drop 32) k

/-- A stationary row by chunk: each present element's position in its chunk, and its value. -/
abbrev PlaneRow := List (List (Nat × FVal))

/-- A dense stationary row. -/
def denseRow (xs : List FVal) (n : Nat) : PlaneRow := (chunks32 xs n).map (fun c => c.zipIdx.map (fun p => (p.2, p.1)))

/-- A 2:4 sparse stationary row: kept element j stands at 4 (j / 2) + its index (R327, R330). -/
def sparseRow (xs : List FVal) (idx : Nat → Nat) (n : Nat) : PlaneRow :=
  let ps := xs.zipIdx.map (fun p => (4 * (p.2 / 2) + idx p.2, p.1))
  (List.range n).map (fun c => (ps.filter (fun p => p.1 / 32 == c)).map (fun p => (p.1 % 32, p.2)))

/-- The exact sum of the products of a chunk; NaN and infinities combine as R328 says. -/
def chunkSum (a : List FVal) (b : List (Nat × FVal)) : FVal :=
  b.foldl (fun s p => addV .rne s (mulV (a.getD p.1 (.fin false 0 0)) p.2)) (.fin false 0 0)

/-- A value is finite. -/
def FVal.finite (v : FVal) : Bool :=
  match v with
  | .fin _ _ _ => true
  | _ => false

/-- One chunk of a floating-point pair (R328): the new element and the flags it raises. -/
def fpChunk (acc : Word) (sum : FVal) (scale : Option (Nat × Nat)) : Word × Nat :=
  let s := match scale with
    | none => sum
    | some (sa, sb) => if sa = 0xFF || sb = 0xFF then .nan else scaleV sum ((sa : Int) - 127 + ((sb : Int) - 127))
  let q := toF .f32 (roundV .f32 .rne 0 false s)
  let t := roundV .f32 .rne 0 false (addV .rne (f32 acc) q)
  let tv := toF .f32 t
  let inf := fun (v : FVal) => match v with
    | .inf _ => true
    | _ => false
  let ovf := (s.finite && inf q) || ((f32 acc).finite && q.finite && inf tv)
  (BitVec.ofNat 32 t, b2n ovf + 4 * b2n (tv == .nan))

/-- One chunk of an integer pair (R329). -/
def intChunk (acc : Word) (sum : FVal) : Word × Nat :=
  let s := match sum with
    | .fin neg m e => sgnI neg (m * 2 ^ e.toNat)
    | _ => 0
  let x := acc.toInt + s
  let y := clampI (-(2 ^ 31 : Nat)) ((2 ^ 31 : Nat) - 1) x
  (BitVec.ofInt 32 y, 2 * b2n (x != y))

/-- Update one element with a row of A and a plane row, chunk by chunk (R328, R329). -/
def updateElem (int : Bool) (acc : Word) : List (List FVal) → PlaneRow → List (Option (Nat × Nat)) → Word × Nat
  | a :: as, b :: bs, sc :: scs =>
    let p := if int then intChunk acc (chunkSum a b) else fpChunk acc (chunkSum a b) sc
    let r := updateElem int p.1 as bs scs
    (r.1, p.2 ||| r.2)
  | _, _, _ => (acc, 0)

/-- The word of an accumulator element: tile, row, column. -/
def accIdx (t i j : Nat) : Nat := t * 0x4000 + 128 * i + j

/-- Set an accumulator element; zero is not listed. -/
def accSet (m : NMap Word) (k : Nat) (v : Word) : NMap Word := if v = 0 then mdel m k else mset m k v

/-- A row of A for a stream: its destination row, chunks and scales. -/
structure StreamRow where
  row    : Nat
  chunks : List (List FVal)
  scales : List Nat

/-- Stream rows of A past a plane into a tile: every element once, and the tile's flags (R342). -/
def Engine.streamRows (e : Engine) (int mx : Bool) (t : Nat) (rows : List StreamRow) (plane : List (PlaneRow × List Nat)) : Engine :=
  let out := rows.flatMap (fun r => plane.zipIdx.map (fun p =>
    let sc := (List.range r.chunks.length).map (fun c =>
      if mx then some (r.scales.getD c 0, p.1.2.getD c 0) else none)
    let k := accIdx t r.row p.2
    (k, updateElem int (mget 0 e.acc k) r.chunks p.1.1 sc)))
  let fl := out.foldl (fun f o => f ||| o.2.2) 0
  { e with
    acc := out.foldl (fun m o => accSet m o.1 o.2.1) e.acc
    flags := if fl = 0 then e.flags else mset e.flags t (mget 0 e.flags t ||| fl) }

/-! ### What a step reads and writes (R346) -/

/-- The phases of `mtile` (R345). -/
inductive MPhase where
  | init (t row c : Nat)
  | load (p g : Nat)
  | swap
  | stream (p t row c : Nat)
  | store (t row c : Nat)
  | zero
  deriving DecidableEq, Repr

/-- The phase of a step of `mtile`: tile, first tile row and first C row of its 16 rows. -/
def mtilePhase (t n m np : Nat) (step : Nat) : MPhase :=
  let l := 8 * n + np * (9 + 8 * n) + 8 * n
  let nsb := (m + 128 * n - 1) / (128 * n)
  let sb := min (step / l) (nsb - 1)
  let r := step - sb * l
  let mb := 128 * n * sb
  let g := min (8 * n) ((m - mb) / 16)
  let at_ := fun (q : Nat) => (t + q / 8, q % 8 * 16, mb + 16 * q)
  if r < 8 * n then .init (at_ r).1 (at_ r).2.1 (at_ r).2.2
  else
    let r := r - 8 * n
    if r < np * (9 + g) then
      let q := r % (9 + g)
      if q < 8 then .load (r / (9 + g)) q
      else if q = 8 then .swap
      else .stream (r / (9 + g)) (at_ (q - 9)).1 (at_ (q - 9)).2.1 (at_ (q - 9)).2.2
    else
      let r := r - np * (9 + g)
      if r < g then .store (at_ r).1 (at_ r).2.1 (at_ r).2.2 else .zero

/-- What a step needs before it runs: scratchpad lines, slots with their kind (true for scales), and bytes of the operation's
records by record, element offset and whether they are written. -/
structure StepNeed where
  lines : List Nat := []
  slots : List (Nat × Bool) := []
  bytes : List (Nat × Nat × Bool) := []

/-- Consecutive element offsets of a record. -/
def recSpan (r o n : Nat) (w : Bool) : List (Nat × Nat × Bool) := (List.range n).map (fun i => (r, o + i, w))

/-- seg.scr's first byte as the operation's signer had it. -/
def MatOp.scr (op : MatOp) : Nat := (mget {} op.segs 2).base
/-- A record of the operation. -/
def MatOp.rec_ (op : MatOp) (r : Nat) : BufRec := mget {} op.recs r

/-- The lines of sixteen canonical rows. -/
def sixteenLines (scr pline wl r0 : Nat) : List Nat :=
  (List.range 16).flatMap (fun i => (List.range wl).map (fun b => tileLine scr pline wl (r0 + i) b))

/-- The lines of a range of scratchpad bytes. -/
def byteLines (a n : Nat) : List Nat := if n = 0 then [] else (List.range ((a + n - 1) / 128 + 1 - a / 128)).map (fun i => a / 128 + i)

/-- The needs of the next step of an operation. -/
def MatOp.need (op : MatOp) : StepNeed :=
  match op.kind with
  | .ldSt ta tb pline => { lines := sixteenLines op.scr pline (pairKp ta tb * tyWidth tb / 1024) (16 * op.step) }
  | .stream ta tb sp mx _ sl q pline sline arow _ _ =>
    let kl := pairKl ta tb sp
    let r0 := arow + 16 * op.step
    { lines := sixteenLines op.scr pline (kl * tyWidth ta / 1024) r0
        ++ (if mx then byteLines ((op.scr / 128 + sline) * 128 + r0 * (kl / 32)) (16 * (kl / 32)) else [])
      slots := (if sp then (List.range (pairKp ta tb / 128)).map (fun i => (sl + i, false)) else [])
        ++ (if mx then [(q, true)] else []) }
  | .accLd ty _ pline _ _ => { lines := sixteenLines op.scr pline (maccWl ty) (16 * op.step) }
  | .tile ta tb mx set t n m np _ =>
    let kp := pairKp ta tb
    let rows := List.range 16
    { bytes := match mtilePhase t n m np op.step with
        | .init _ _ c => if set || m ≤ c then [] else rows.flatMap (fun i => recSpan 2 ((c + i) * (op.rec_ 2).stride) 512 false)
        | .load p g =>
          let b := kp * tyWidth tb / 8
          rows.flatMap (fun i => recSpan 1 ((16 * g + i) * (op.rec_ 1).stride + p * b) b false)
            ++ (if mx then
                rows.flatMap (fun i => recSpan 4 ((16 * g + i) * (op.rec_ 4).stride + p * (kp / 32)) (kp / 32) false)
              else [])
        | .stream p _ _ c =>
          let b := kp * tyWidth ta / 8
          rows.flatMap (fun i => recSpan 0 ((c + i) * (op.rec_ 0).stride + p * b) b false)
            ++ (if mx then
                rows.flatMap (fun i => recSpan 3 ((c + i) * (op.rec_ 3).stride + p * (kp / 32)) (kp / 32) false)
              else [])
        | .store _ _ c => rows.flatMap (fun i => recSpan 2 ((c + i) * (op.rec_ 2).stride) 512 true)
        | _ => [] }
  | _ => {}

/-! ### The bytes a step sees -/

/-- A copy operation that stands for a matrix operation's access to one of its records (R345: through the Enlarger). -/
def MatOp.job (op : MatOp) (c w r : Nat) : CopyJob :=
  { core := c, wgs := w, mrec := op.rec_ r, segs := op.segs, fn := op.fn, user := op.user, tlb := op.tlb }

/-- The place of a byte of a record. -/
def State.matSpot (s : State) (h c w : Nat) (op : MatOp) (r o : Nat) : Spot :=
  s.srcSpot h (op.job c w r) (.rcd false ((op.rec_ r).atOff o))

/-- A byte of a record. -/
def State.matByte (s : State) (h c w : Nat) (op : MatOp) (r o : Nat) : Nat :=
  s.spotByte h (op.job c w r) (s.matSpot h c w op r o)

/-- A byte of the core's scratchpad. -/
def Core.scrByte (k : Core) (b : Nat) : Nat := (memRead k.scratch b).toNat

/-- Byte q of canonical row r of a tile in the core's scratchpad. -/
def Core.canonByte (k : Core) (scr pline wl r q : Nat) : Nat := k.scrByte (tileByte scr pline wl r q)

/-- A byte of a side-memory slot. -/
def Engine.sideByte (e : Engine) (slot b : Nat) : Nat := (memRead (mget {} e.side slot).bytes b).toNat

/-- Write sixteen rows of the shadow plane: `n` bytes of each, the rest of its 256 bytes zero (R325). -/
def Engine.loadRows (e : Engine) (r0 n : Nat) (rd : Nat → Nat → Nat) : Engine :=
  { e with shadow := (List.range 16).foldl (fun m i =>
      (List.range 256).foldl (fun m q =>
        memWrite m (256 * (r0 + i) + q) (BitVec.ofNat 8 (if q < n then rd i q else 0))) m) e.shadow }

/-- Keep the scales of sixteen rows of the B plane, `n` of each (R345). -/
def Engine.loadScales (e : Engine) (r0 n : Nat) (rd : Nat → Nat → Nat) : Engine :=
  { e with bscale := (List.range 16).foldl (fun m i =>
      (List.range n).foldl (fun m c => memWrite m (16 * (r0 + i) + c) (BitVec.ofNat 8 (rd i c))) m) e.bscale }

/-- The stationary rows of the live plane (R325, R327, R330). -/
def Engine.plane (e : Engine) (tb : Ty) (kp kl : Nat) (sp : Bool) (slot : Nat) (scale : Nat → Nat → Nat) : List (PlaneRow × List Nat) :=
  (List.range 128).map (fun n =>
    let xs := rowElems tb (fun q => (memRead e.live (256 * n + q)).toNat) kp
    let idx := fun (j : Nat) =>
      let b := 2 * (n * kp + j)
      e.sideByte (slot + b / 8 / 4096) (b / 8 % 4096) / 2 ^ (b % 8) % 4
    (if sp then sparseRow xs idx (kl / 32) else denseRow xs (kl / 32), (List.range (kl / 32)).map (fun c => scale n c)))

/-- A row of A as chunks and scales. -/
def streamRow (ta : Ty) (kl row : Nat) (rd : Nat → Nat) (sc : Nat → Nat) : StreamRow :=
  { row := row, chunks := chunks32 (rowElems ta rd kl) (kl / 32), scales := (List.range (kl / 32)).map sc }

/-- The floating-point or integer nature of a pair. -/
def pairInt (ta : Ty) : Bool := ta.among [.s8, .s4]

/-- An element of an accumulator move converted to its canonical type (R343). -/
def maccOut (ty : Ty) (x : Word) : Nat :=
  if tyWidth ty = 32 then x.toNat else roundV ty .rne 0 false (f32 x)
/-- An element of an accumulator move widened to the tile (R343). -/
def maccIn (ty : Ty) (x : Nat) : Word :=
  if tyWidth ty = 32 then BitVec.ofNat 32 x else toF32 .rne (toF ty x)

/-- The bytes of a row of numbers, each of `w` bytes. -/
def rowBytes (w : Nat) (xs : List Nat) : List Nat := xs.flatMap (fun x => (List.range w).map (fun i => x / 256 ^ i % 256))

/-- Write sixteen canonical rows of an accumulator store: whole lines, which lose their poison (R343, R204). -/
def Core.storeRows (k : Core) (scr pline wl r0 : Nat) (row : Nat → List Nat) : Core :=
  let k := (List.range 16).foldl (fun (k : Core) i =>
    { k with scratch := (row i).zipIdx.foldl (fun m p =>
        memWrite m (tileByte scr pline wl (r0 + i) p.2) (BitVec.ofNat 8 p.1)) k.scratch }) k
  (sixteenLines scr pline wl r0).foldl (fun (k : Core) l => { k with poison := k.poison.filter (· != l) }) k

/-- The effect of a step on its core (R340 to R345), but for what it writes to memory. -/
def State.stepCore (s : State) (h c w : Nat) (op : MatOp) : Core :=
  let k := s.coreAt h c
  let e := k.engine
  let rows := List.range 16
  match op.kind with
  | .ldSt ta tb pline =>
    let wl := pairKp ta tb * tyWidth tb / 1024
    { k with engine := e.loadRows (16 * op.step) (wl * 128) (fun i q => k.canonByte op.scr pline wl (16 * op.step + i) q) }
  | .swap => { k with engine := { e with live := e.shadow, shadow := e.live } }
  | .stream ta tb sp mx t sl q pline sline arow _ crow =>
    let kl := pairKl ta tb sp
    let wl := kl * tyWidth ta / 1024
    let r0 := arow + 16 * op.step
    let scaleA := fun (r c : Nat) => k.scrByte ((op.scr / 128 + sline) * 128 + r * (kl / 32) + c)
    let plane := e.plane tb (pairKp ta tb) kl sp sl (fun n c => e.sideByte q (n * (kl / 32) + c))
    { k with engine := e.streamRows (pairInt ta) mx t (rows.map (fun i =>
        streamRow ta kl (crow + 16 * op.step + i) (fun b => k.canonByte op.scr pline wl (r0 + i) b) (scaleA (r0 + i)))) plane }
  | .accZ t =>
    { k with engine := { e with acc := e.acc.filter (fun x =>
        decide (x.1 < accIdx t (16 * op.step) 0) || decide (accIdx t (16 * op.step) 0 + 2048 ≤ x.1)) } }
  | .accSt ty t pline row _ =>
    k.storeRows op.scr pline (maccWl ty) (16 * op.step) (fun i =>
      rowBytes (tyWidth ty / 8) ((List.range 128).map (fun j => maccOut ty (mget 0 e.acc (accIdx t (row + 16 * op.step + i) j)))))
  | .accLd ty t pline row _ =>
    let b := tyWidth ty / 8
    { k with engine := { e with acc := rows.foldl (fun m i => (List.range 128).foldl (fun m j =>
        let x := (List.range b).foldl (fun x q =>
          x + 256 ^ q * k.canonByte op.scr pline (maccWl ty) (16 * op.step + i) (b * j + q)) 0
        accSet m (accIdx t (row + 16 * op.step + i) j) (maccIn ty x)) m) e.acc } }
  | .tile ta tb mx set t n m np stg =>
    let kp := pairKp ta tb
    let rd := fun (r o : Nat) => s.matByte h c w op r o
    (match mtilePhase t n m np op.step with
     | .init tt row cc =>
       { k with engine := { e with acc := rows.foldl (fun a i => (List.range 128).foldl (fun a j =>
           let x := if set || m ≤ cc + i then 0
             else (List.range 4).foldl (fun x q => x + 256 ^ q * rd 2 ((cc + i) * (op.rec_ 2).stride + 4 * j + q)) 0
           accSet a (accIdx tt (row + i) j) (BitVec.ofNat 32 x)) a) e.acc } }
     | .load p g =>
       let b := kp * tyWidth tb / 8
       let e := e.loadRows (16 * g) b (fun i q => rd 1 ((16 * g + i) * (op.rec_ 1).stride + p * b + q))
       { k with engine :=
           if mx then e.loadScales (16 * g) (kp / 32) (fun i c => rd 4 ((16 * g + i) * (op.rec_ 4).stride + p * (kp / 32) + c))
           else e }
     | .swap => { k with engine := { e with live := e.shadow, shadow := e.live } }
     | .stream p tt row cc =>
       let b := kp * tyWidth ta / 8
       let scale := fun (r i c : Nat) => rd r (i * (op.rec_ r).stride + p * (kp / 32) + c)
       let plane := e.plane tb kp kp false 0 (fun j c => if mx then (memRead e.bscale (16 * j + c)).toNat else 0)
       { k with engine := e.streamRows (pairInt ta) mx tt (rows.map (fun i =>
           streamRow ta kp (row + i) (fun q => rd 0 ((cc + i) * (op.rec_ 0).stride + p * b + q))
             (fun c => if mx then scale 3 (cc + i) c else 0))) plane }
     | .store _ _ _ => k
     | .zero =>
       let lines := (List.range 640).map (fun i => op.scr / 128 + stg + i)
       lines.foldl (fun (k : Core) l => { k with poison := k.poison.filter (· != l) })
         { k with scratch := zeroRange k.scratch ((op.scr / 128 + stg) * 128) (640 * 128)
                  engine := { k.engine with bscale := [] } })
  | .fence _ => k

/-- The bytes that a step of `mtile` stores: element offset of the C record and value (R345). -/
def Engine.stepStores (e : Engine) (op : MatOp) : List (Nat × Nat) :=
  match op.kind with
  | .tile _ _ _ _ t n m np _ =>
    (match mtilePhase t n m np op.step with
     | .store tt row cc => (List.range 16).flatMap (fun i => (List.range 128).flatMap (fun j =>
         let x := (mget 0 e.acc (accIdx tt (row + i) j)).toNat
         (List.range 4).map (fun q => ((cc + i) * (op.rec_ 2).stride + 4 * j + q, x / 256 ^ q % 256))))
     | _ => [])
  | _ => []

/-! ### Performing a step -/

/-- Change the state of a workgroup's qm. -/
def State.modQm (s : State) (h c w : Nat) (f : QmState → QmState) : State :=
  let k := s.coreAt h c
  let x := mget {} k.wgs w
  s.setCoreAt h c { k with wgs := mset k.wgs w { x with qm := f x.qm } }

/-- Whether an operation is a fence entry. -/
def MatOp.isFence (op : MatOp) : Bool :=
  match op.kind with
  | .fence _ => true
  | _ => false

/-- The groups of a workgroup that wait for room in qm, which has failed: no signature of theirs stands, and they take its trap
(R331, R334). -/
def State.placeFail (s : State) (h c w : Nat) : State :=
  (s.coreAt h c).groups.foldl (fun (t : State) (e : Nat × Group) =>
    match e.2.wait with
    | .place _ _ lanes =>
      if e.2.wgs = w then
        let t := t.at_ { h := h, c := c, g := e.1 }
        t.trap t.wg.qm.trap (lowest lanes)
      else t
    | _ => t) s

/-- qm fails (R334): the failing operation and those behind it complete without effect, their lines present again, and no
signature stands. -/
def State.qmFail (s : State) (h c w cause : Nat) (op : MatOp) : State :=
  let k := s.coreAt h c
  let ops := k.engine.queue.filter (fun o => !o.isFence)
  let x := mget {} k.wgs w
  (s.setCoreAt h c { k with
    wgs := mset k.wgs w { x with
      qm := { x.qm with fail := true, cause := cause, fopc := op.opc, fstep := op.step, outst := 0,
                        donen := x.qm.donen + ops.length }
      cvs := x.cvs.map (fun (e : Nat × Cv) => (e.1, { e.2 with signed := 0 })) }
    absent := ops.foldl (fun a o => o.lines.foldl (fun a l => a.erase l) a) k.absent
    engine := { k.engine with queue := k.engine.queue.filter (fun o => o.isFence), state := 0, bscale := [] } }).placeFail h c w

/-- The watchdog's measure at an instant (R347, Table 14.6): a step that waits is state 2 and its time does not count. -/
def Engine.measure (e : Engine) (waits : Bool) (now : Nat) : Engine :=
  if waits && e.state == 1 then { e with state := 2, used := e.used + (now - e.since) }
  else if !waits && e.state == 2 then { e with state := 1, since := now }
  else e

/-- The time measured of a step (R347). -/
def Engine.measured (e : Engine) (now : Nat) : Nat := e.used + (if e.state = 1 then now - e.since else 0)

/-- The sequencer waits (Table 14.6 STATE 2). -/
def State.stepWait (s : State) (h c : Nat) : State := s.modEngine h c (fun e => e.measure true s.chipTime)

/-- The bytes of translated spaces that a step touches. -/
def State.stepMem (s : State) (h c w : Nat) (op : MatOp) (n : StepNeed) : List MemByte :=
  n.bytes.filterMap (fun b => match s.matSpot h c w op b.1 b.2.1 with
    | .mem va => some { va := va, write := b.2.2, glb := op.user && (op.rec_ b.1).sel == 1 }
    | _ => none)

/-- The scratchpad lines that a step reads. -/
def State.stepLines (s : State) (h c w : Nat) (op : MatOp) (n : StepNeed) : List Nat :=
  n.lines ++ n.bytes.filterMap (fun b => match s.matSpot h c w op b.1 b.2.1 with
    | .scr _ x => if b.2.2 then none else some (x / 128)
    | _ => none)

/-- The cause of a failure of the step, if any: a poisoned line or slot, or a slot of the wrong kind (R334). -/
def State.stepFails (s : State) (h c w : Nat) (op : MatOp) (n : StepNeed) (ms : List MemByte) : Option Nat :=
  let k := s.coreAt h c
  if (s.stepLines h c w op n).any (fun l => k.poison.contains l)
      || n.slots.any (fun x => (mget {} k.engine.side x.1).poison)
      || ms.any (fun b => !b.write && s.spotPoison (op.job c w 0) (.mem b.va)) then some 1
  else if n.slots.any (fun x => (mget {} k.engine.side x.1).scale != x.2) then some 2
  else none

/-- The scratchpad lines whose last byte the next step of an operation writes (R189, R332, R345). -/
def MatOp.delivers (op : MatOp) : List Nat :=
  match op.kind with
  | .accSt ty _ pline _ _ => sixteenLines op.scr pline (maccWl ty) (16 * op.step)
  | .tile _ _ _ _ t n m np stg =>
    (match mtilePhase t n m np op.step with
     | .store _ _ c =>
       if (op.rec_ 2).sel = 2 then
         let a := op.scr + (op.rec_ 2).base
         let d := (op.rec_ 2).stride
         (cLines (a + c * d) d 16).filter (fun l => decide (m ≤ c + 16) || decide (l < (a + (c + 16) * d) / 128))
       else []
     | .zero => (List.range 640).map (fun i => op.scr / 128 + stg + i)
     | _ => [])
  | _ => []

/-- The head operation has done a step: the lines it completed are present, and it goes on, or completes (R189, R346,
R348). -/
def State.stepDone (s : State) (h c w : Nat) (op : MatOp) : State :=
  let s := s.setCoreAt h c { s.coreAt h c with absent := op.delivers.foldl (fun a l => a.erase l) (s.coreAt h c).absent }
  let e := (s.coreAt h c).engine
  let rest := e.queue.drop 1
  let now := s.chipTime
  if op.step + 1 < op.steps then
    let next := { op with step := op.step + 1, lines := op.delivers.foldl (fun a l => a.erase l) op.lines }
    s.modEngine h c (fun e => { e with queue := next :: rest }.beginHead w now)
  else
    (s.modQm h c w (fun q => { q with outst := q.outst - 1, donen := q.donen + 1 })).modEngine h c (fun e =>
      { e with queue := rest }.beginHead w now)

/-- Perform the stores of a step of `mtile` (R244, R345). -/
def State.doStores (s : State) (h c w : Nat) (op : MatOp) : State :=
  let bs := (s.coreAt h c).engine.stepStores op
  let spots := bs.map (fun b => (s.matSpot h c w op 2 b.1, b.2))
  let mem := spots.filterMap (fun p => match p.1 with
    | .mem va => some (va, p.2)
    | _ => none)
  let scr := spots.filterMap (fun p => match p.1 with
    | .scr _ b => some (b, p.2)
    | _ => none)
  let s := (dedup (scr.map (fun p => p.1 / 128))).foldl (fun (t : State) l =>
    t.writeScrLine (coreKey h c) l ((scr.filter (fun p => p.1 / 128 == l)).map (fun p => (p.1 % 128, p.2))) false) s
  (dedup (mem.map (fun p => p.1 / 128))).foldl (fun t l =>
    t.writeMemLine h (op.job c w 2) (op.rec_ 2).sel (mem.filter (fun p => p.1 / 128 == l)) false) s

/-- Whether what a step reads is not there: an absent line, but for one absent for the operation's own sake (R345;
notes/assumptions 54), or a slot that is not ready (R333). -/
def State.stepAbsent (s : State) (h c w : Nat) (op : MatOp) : Bool :=
  let k := s.coreAt h c
  let n := op.need
  (s.stepLines h c w op n).any (fun l => decide (op.lines.count l < k.absent.count l))
    || n.slots.any (fun x => !(mget {} k.engine.side x.1).ready)

/-- Whether the next step of the operation at the head of qm waits: on presence, slot readiness, translation, room in its
function's log or tray, a home or link that gives no answer (R347), or because its core does not run. -/
def State.stepWaits (s : State) (h c w : Nat) (op : MatOp) : Bool :=
  let ms := s.stepMem h c w op op.need
  (s.coreAt h c).status != .running || s.stepAbsent h c w op || (s.unitMissing (op.job c w 0) ms).isSome
    || s.unitHeld h (op.job c w 0) ms || (ms.any (fun b => b.write) && s.ckFull op.fn)

/-- Every sequencer's measure before time passes (R347). -/
def State.measureAll (s : State) : State :=
  s.cores.foldl (fun (t : State) (e : Nat × Core) =>
    match e.2.engine.holder, e.2.engine.queue with
    | some w, op :: _ =>
      if op.isFence then t
      else t.modKey e.1 (fun k => { k with
        engine := k.engine.measure (s.stepWaits (e.1 / 64) (e.1 % 64) w op) s.chipTime })
    | _, _ => t) s

/-- The next step of the operation at the head of qm, once what it reads is present, ready and translated and the arbiters on the way
have granted its lines (R173, R333, R334, R346). -/
def State.matStep (s : State) (h c w : Nat) (op : MatOp) : State :=
  let k := s.coreAt h c
  let n := op.need
  let ms := s.stepMem h c w op n
  let launch := (mget {} k.wgs w).launch
  if s.stepAbsent h c w op then s.stepWait h c
  else if ms.any (fun b => b.glb && !(s.declared launch b.write b.va 1)) then s.endLaunch launch stLease
  else match s.unitMissing (op.job c w 0) ms with
  | some b =>
    -- a walk of the operation's own, or the hummock's translation (R316)
    let d := s.humAt h
    (match findTlb d.tlb op.fn b.va s.chipTime (if b.write then { w := true } else { r := true }) with
     | some t => s.giveTlb h (2048 + c) { va := b.va } t
     | none =>
       if d.asked (2048 + c) b.va b.write || decide (256 ≤ d.pending.length) then s.stepWait h c
       else
         let wk : Walk := {
           who := { h := h, c := c }, enl := some (2048 + c), fn := op.fn, va := b.va / 128 * 128, write := b.write
           glb := b.glb, launch := launch }
         (s.setHum h { d with pending := d.pending ++ [wk] }).stepWait h c)
  | none =>
    if !(s.unitPath h (op.job c w 0) ms) then s.endLaunch launch stLease
    else if s.unitHeld h (op.job c w 0) ms || (ms.any (fun b => b.write) && s.ckFull op.fn) then s.stepWait h c
    else
      let p := s.sendLines op.sent (s.unitReqs h (op.job c w 0) ms)
      if !(p.2.all p.1.through) then
        p.1.modEngine h c (fun e => { e with queue := { op with sent := p.2 } :: e.queue.drop 1 })
      else
      let op := { op with sent := [] }
      let s := ms.foldl (fun (t : State) b =>
        match op.tlb.find? (fun e => e.serves op.fn b.va t.chipTime) with
        | some e => if b.write then t else t.drainFor (e.hpa b.va / 4 * 4) 4
        | none => t) (p.1.l2Lines p.2)
      match s.stepFails h c w op n ms with
      | some cause => s.qmFail h c w cause op
      | none =>
        let t := s.setCoreAt h c (s.stepCore h c w op)
        (t.doStores h c w op).stepDone h c w op

/-- The sequencer completes one step of the operation at the head of qm (R346). -/
def execMatrixStep (h c : Nat) (s : State) : Out :=
  let k := s.coreAt h c
  match k.engine.holder, k.engine.queue with
  | some w, op :: _ =>
    if op.isFence || k.engine.state == 3 || k.status != .running || (s.fnAt (mget {} k.wgs w).fn).ck.state != .run then .next s
    else .next (s.matStep h c w op)
  | _, _ => .next s

end Sys2Proof.Machine
end

