-- ==== Sys2Proof/Machine/Regs.lean ====
section
/-! DEFINITION. Reading the function register spaces (17_device_boundary.md Table 17.1) and the on-chip map windows
(01_machine.md Table 1.9), with the layouts that the chapters give their entries. -/

namespace Sys2Proof.Machine

/-- A register of fields, each a position, a width and a value. -/
def packFields (fs : List (Nat × Nat × Nat)) : Nat := fs.foldl (fun x f => x + f.2.2 % 2 ^ f.2.1 * 2 ^ f.1) 0

/-- The number of a list of bytes, the lowest first. -/
def leNat : List Byte → Nat
  | [] => 0
  | b :: bs => b.toNat + 256 * leNat bs

/-- The low `n` bytes of a number, the highest first. -/
def beBytes (n v : Nat) : List Byte := (bytesOf n v).reverse

/-- The aligned 8-byte unit of a list of bytes. -/
def unitAt (bs : List Byte) (off : Nat) : Nat := leNat ((bs.drop off).take 8)

/-- The 64-bit half of a 128-bit entry. -/
def halfOf (v off : Nat) : Nat := v / 2 ^ (64 * (off / 8 % 2)) % 2 ^ 64

/-- The 64-bit unit at a byte offset of an entry or window held as a number. -/
def unitOfNat (v o : Nat) : Nat := v / 2 ^ (64 * (o / 8)) % 2 ^ 64

/-- The bits of a list of positions. -/
def bitsFrom (ps : List Nat) (lo n : Nat) : Nat :=
  ((List.range n).filter (fun i => ps.contains (lo + i))).foldl (fun x i => x + 2 ^ i) 0

/-! ### Segment registers (08_memory_access.md Table 8.2) -/

/-- The 128 bits of a segment register. -/
def Seg.toNat (g : Seg) : Nat :=
  packFields [(0, 52, g.base), (52, 52, g.limit), (104, 1, b2n g.r), (105, 1, b2n g.w), (106, 1, b2n g.x),
    (107, 1, b2n g.a), (108, 1, b2n g.valid)]

/-- Segment `i` held in 128 bits; X is zero except in seg.code. -/
def Seg.ofNat (i x : Nat) : Seg :=
  { base := bitsOf x 0 52, limit := bitsOf x 52 52, r := bitOf x 104, w := bitOf x 105, x := bitOf x 106 && i == 0
    a := bitOf x 107, valid := bitOf x 108 }

/-! ### The blocks of a function's register space (R400) -/

/-- The security version of the running base-die firmware (R403, R415, R416). -/
def Pkg.fwVersion (p : Pkg) : Nat :=
  match p.fwRun with
  | some r => r.1
  | none => leNat ((Config.firmware.drop 4).take 4)

/-- The measurement of the running base-die firmware (R403, R416). -/
def Pkg.fwMeasure (p : Pkg) : Nat :=
  match p.fwRun with
  | some r => r.2
  | none => sha384 Config.firmware

/-- The identity block (R403); firmware fields are zero until the firmware is verified. -/
def State.identBytes (s : State) (f : Nat) : List Byte :=
  let fw := s.pkg.measured
  bytesOf 16 Config.deviceIdentity.toNat
    ++ bytesOf 1 s.pkg.pkgnum ++ bytesOf 1 f ++ bytesOf 6 0
    ++ bytesOf 4 (if fw then s.pkg.fwVersion else 0) ++ bytesOf 4 0
    ++ beBytes 48 publicKey.1 ++ beBytes 48 publicKey.2
    ++ beBytes 48 (if fw then s.pkg.fwMeasure else 0)

/-- The base and size of a ring in one register (Tables 9.5, 17.2). -/
def Ring.baseReg (r : Ring) : Nat := packFields [(0, 52, r.base / 4096 * 4096), (52, 4, r.size)]

/-- The error queue block (Table 17.2). -/
def Fn.errRead (x : Fn) (o : Nat) : Nat :=
  match o with
  | 0x000 => x.err.baseReg
  | 0x008 => x.err.tail
  | 0x010 => x.err.head
  | 0x018 => x.lost
  | 0x020 => x.rwdrain
  | 0x028 => b2n x.erren
  | _ => 0

/-- The translation block (Table 9.5). -/
def Fn.transRead (x : Fn) (hyp : Bool) (o : Nat) : Nat :=
  match o with
  | 0x000 => b2n x.tren + x.root1
  | 0x008 => if hyp then x.root2 else 0
  | 0x010 => x.prq.baseReg
  | 0x018 => x.prq.tail
  | 0x020 => x.prq.head
  | 0x030 => b2n x.prq.ovf
  | 0x040 => if hyp then x.s2prq.baseReg else 0
  | 0x048 => if hyp then x.s2prq.tail else 0
  | 0x050 => if hyp then x.s2prq.head else 0
  | 0x060 => if hyp then b2n x.s2prq.ovf else 0
  | _ => 0

/-- The function's tenancy block (16_tenants.md Table 16.2). -/
def Fn.tenantRead (x : Fn) (hyp : Bool) (now o : Nat) : Nat :=
  if o < 0x20 then (mget 0 x.nonce (o / 8)).toNat
  else if 0x100 ≤ o && o < 0x200 then unitAt x.token (o - 0x100)
  else match o with
  | 0x020 => x.tokseq
  | 0x040 => if hyp then x.dbmBase0 else 0
  | 0x048 => if hyp then x.dbmBase1 else 0
  | 0x050 => if hyp then x.dbmFirst * 65536 else 0
  | 0x058 => if hyp then x.dbmCount else 0
  | 0x060 => (if hyp then b2n x.dbmEn else 0) + 2 * b2n (x.dbmNow now) + 8 * b2n x.dbmBusy
  | 0x068 => x.dbmTsw
  | 0x080 => if hyp then x.rstBase else 0
  | 0x090 => x.rstStat
  | _ => 0

/-- The lease query and host aperture block (R408 to R410). -/
def State.portRead (s : State) (hyp : Bool) (f o : Nat) : Nat :=
  let x := s.fnAt f
  match o with
  | 0x00 => x.lqva
  | 0x08 => x.lqres
  | 0x10 => b2n x.lqbusy
  | 0x18 => x.hwbase
  | 0x20 => if hyp then b2n x.hport else 0
  | 0x28 => if hyp then x.hmbase else 0
  | 0x30 => if hyp then x.hmsize else 0
  | 0x38 => if hyp && f == 0 then s.pkg.mapsel else 0
  | 0x40 => if hyp then x.hmvbase else 0
  | _ => 0

/-- The handler block (15_traps_preemption.md Table 15.6); its vector control is SUP in a VF's space. -/
def Fn.handlerRead (x : Fn) (hyp : Bool) (o : Nat) : Nat :=
  if o < 0x80 then (if hyp then halfOf (x.hsegAt (o / 16)).toNat o else 0)
  else if o = 0x80 then b2n x.tven + x.tvbase
  else 0

/-- A partition entry in its register (Table 16.1). -/
def Part.toNat (p : Part) : Nat := packFields [(0, 8, p.sedge), (8, 8, p.msp), (16, 1, b2n p.en)]

/-- The hummock tenancy block (Table 16.1). -/
def HumRegs.tenantRead (r : HumRegs) (o : Nat) : Nat :=
  if o < 0x80 then mget 0xFFFF r.connmat (o / 8)
  else if o < 0x280 then (r.partAt ((o - 0x80) / 8)).toNat
  else match o with
  | 0x300 => packFields [(0, 6, r.waysl), (8, 6, r.wayfn)]
  | 0x308 => r.waymaskAt r.waysl r.wayfn
  | 0x310 => b2n r.refused
  | _ => 0

/-- A sensor of a hummock (R421). -/
def HumRegs.sensorAt (r : HumRegs) (i : Nat) : Sensor := mget (sensorReset i) r.sensors i

/-- A signed field of 16 bits. -/
def field16 (x : Int) : Nat := (x % 65536).toNat

/-- The trip points of a sensor in the layout of THVAL. -/
def Sensor.trips (t : Sensor) : Nat := packFields [(0, 16, field16 t.adv), (16, 16, field16 t.thr), (32, 16, field16 t.shd)]

/-- The hummock management block (Table 17.3). -/
def HumRegs.mgmtRead (r : HumRegs) (o : Nat) : Nat :=
  match o with
  | 0x000 => packFields [(0, 8, r.crkstep), (8, 8, r.crkdi), (16, 16, r.crktime)]
  | 0x008 => bitsFrom r.minv 0 64
  | 0x010 => bitsFrom r.minv 64 16
  | 0x018 => bitsFrom r.crack 0 64
  | 0x020 => bitsFrom r.crack 64 16
  | 0x028 => r.thsel
  | 0x030 => (r.sensorAt r.thsel).trips
  | 0x038 => b2n r.thref
  | 0x040 => b2n r.fcen
  | 0x048 => packFields [(0, 1, r.bkstk), (1, 11, r.bkbank)]
  | 0x050 => r.lport
  | _ => 0

/-- The firmware block (R416). -/
def Pkg.fwRead (p : Pkg) (o : Nat) : Nat :=
  match o with
  | 0x00 => p.fwbase
  | 0x08 => p.fwlen
  | 0x18 => p.fwstat
  | _ => 0

/-- The domain block (Table 17.7). -/
def State.domainRead (s : State) (o : Nat) : Nat :=
  if 0x40 ≤ o && o < 0x80 then
    let h := (o - 0x40) / 8
    packFields [(0, 8, s.lx h), (8, 8, s.ly h), (16, 1, b2n (s.lvalid h))]
  else match o with
  | 0x00 => s.pkg.pkgnum
  | 0x08 => s.pkg.epoch
  | 0x10 => s.pkg.tref
  | 0x18 => b2n s.pkg.domen + 2 * b2n s.pkg.domrdy + 4 * b2n s.pkg.domRef
  | _ => 0

/-- The registers of a hardware queue (07_work_creation.md Table 7.5). -/
def HwQueue.read (q : HwQueue) (hyp : Bool) (o : Nat) : Nat :=
  if 0x40 ≤ o && o < 0xF0 then
    if hyp then (List.range 4).foldl (fun x i =>
      let k := (o - 0x40) / 2 + i
      if k < 86 then x + mget 0 q.share k % 65536 * 2 ^ (16 * i) else x) 0
    else 0
  else match o with
  | 0x000 =>
    if hyp then packFields [(0, 8, q.prio), (8, 1, b2n q.en), (9, 1, b2n q.cardq), (10, 6, q.fn), (16, 6, q.xfn),
      (22, 1, b2n q.xen)]
    else 0
  | 0x008 => packFields [(0, 52, q.base / 4096 * 4096), (52, 4, q.size)]
  | 0x010 => q.tail
  | 0x018 => q.head
  | 0x020 => q.seq
  | 0x100 => b2n q.refused
  | _ => 0

/-- The hummock and number of the queue at an offset (Table 17.1). -/
def queueAtOff (off : Nat) : Nat × Nat := ((off - 0x200000) / 0x800 / 128, (off - 0x200000) / 0x800 % 128)

/-- Whether a function reaches a queue: the PF every one, a VF those whose FN names it (Table 17.1). -/
def State.reachesQueue (s : State) (f h q : Nat) : Bool := f == 0 || (mget {} (s.humAt h).queues q).fn == f

/-- The blocks of a register space (Table 17.1). -/
inductive RegBlock where
  | ident | err | trans | tenant | port | handler
  | humTenant (h : Nat) | mgmt (h : Nat) | firmware | domain
  | queue (h q : Nat)
  | none
  deriving DecidableEq, Repr

/-- The block that an offset of a function's space lies in, and the offset within it. -/
def State.regBlock (s : State) (f off : Nat) : RegBlock × Nat :=
  if off < 0xB0 then (.ident, off)
  else if 0x1000 ≤ off && off < 0x1030 then (.err, off - 0x1000)
  else if 0x3000 ≤ off && off < 0x3078 then (.trans, off - 0x3000)
  else if 0x4000 ≤ off && off < 0x4200 then (.tenant, off - 0x4000)
  else if 0x5000 ≤ off && off < 0x5048 then (if off = 0x5038 && f != 0 then (.none, 0) else (.port, off - 0x5000))
  else if 0x5100 ≤ off && off < 0x5188 then (.handler, off - 0x5100)
  else if f = 0 && 0x6000 ≤ off && off < 0x8000 then (.humTenant ((off - 0x6000) / 0x400), (off - 0x6000) % 0x400)
  else if f = 0 && 0x8000 ≤ off && off < 0xC000 then (.mgmt ((off - 0x8000) / 0x800), (off - 0x8000) % 0x800)
  else if f = 0 && 0xC000 ≤ off && off < 0xC020 then (.firmware, off - 0xC000)
  else if f = 0 && 0xD000 ≤ off && off < 0xD080 then (.domain, off - 0xD000)
  else if 0x200000 ≤ off && off < 0x400000 then
    let q := queueAtOff off
    if s.reachesQueue f q.1 q.2 && off % 0x800 < 0x108 then (.queue q.1 q.2, off % 0x800) else (.none, 0)
  else (.none, 0)

/-- A register of a function's space, read at supervisor or hypervisor level (R400 to R402); an unassigned offset
reads as zero. -/
def State.regRead (s : State) (hyp : Bool) (f off : Nat) : Nat :=
  let o := off / 8 * 8
  let b := s.regBlock f o
  (match b.1 with
   | .ident => unitAt (s.identBytes f) b.2
   | .err => (s.fnAt f).errRead b.2
   | .trans => (s.fnAt f).transRead hyp b.2
   | .tenant => (s.fnAt f).tenantRead hyp s.chipTime b.2
   | .port => s.portRead hyp f b.2
   | .handler => (s.fnAt f).handlerRead hyp b.2
   | .humTenant h => (s.humAt h).regs.tenantRead b.2
   | .mgmt h => (s.humAt h).regs.mgmtRead b.2
   | .firmware => s.pkg.fwRead b.2
   | .domain => s.domainRead b.2
   | .queue h q => (mget {} (s.humAt h).queues q).read hyp b.2
   | .none => 0) % 2 ^ 64

/-! ### Entries of the map windows -/

/-- A workgroup barrier register (Table 12.1). -/
def Wbar.toNat (b : Wbar) : Nat :=
  packFields [(0, 11, b.arrived), (11, 11, b.members), (22, 1, b2n b.broken), (23, 3, b.owner), (26, 1, b2n b.valid),
    (27, 4, b.name), (32, 48, (b.pending % (2 ^ 48 : Nat)).toNat), (96, 32, b.phcnt.toNat)]

/-- A gang or launch barrier entry (Table 12.2). -/
def Gbar.toNat (b : Gbar) : Nat :=
  packFields [(0, 32, b.arrived), (32, 32, b.members), (64, 1, b2n b.broken), (65, 1, b2n b.valid), (66, 1, b2n b.root),
    (96, 32, b.phcnt.toNat)]

/-- A convergence register (Table 12.6). -/
def Cv.toNat (v : Cv) : Nat :=
  packFields [(0, 11, v.size), (11, 11, v.signed), (32, 32, v.gen), (64, 64, v.digest)]

/-! ### Items whose place in a window the spec does not give (notes/assumptions 7) -/

/-- Items of a structure code, each a number, a width and a value, at the places that the device gives them. -/
def placedNat (code : Nat) (fs : List (Nat × Nat × Nat)) : Nat := packFields (fs.map (fun f => (Config.fieldAt code f.1, f.2)))

/-- An item of such a number. -/
def placedField (code x i n : Nat) : Nat := bitsOf x (Config.fieldAt code i) n

/-- The unit at an offset of a number of items; none where no item reaches it. -/
def placedUnit (code : Nat) (fs : List (Nat × Nat × Nat)) (o : Nat) : Option Nat :=
  if fs.any (fun f => decide (Config.fieldAt code f.1 < 64 * (o / 8) + 64)
      && decide (64 * (o / 8) < Config.fieldAt code f.1 + f.2.1)) then
    some (unitOfNat (placedNat code fs) o)
  else none

/-- The items of a group's entry of window 0x09: the slot of each lane, its members and its helper lanes. -/
def Group.rosterItems (g : Group) : List (Nat × Nat × Nat) :=
  (List.range 32).map (fun l => (l, 10, mget 0 g.roster l)) ++ [(32, 32, g.member.toNat), (33, 32, g.helpers.toNat)]

/-- The wake time of a sleeping group, or 0 (03_scalar_control.md R81). -/
def Group.wakeTime (g : Group) : Nat :=
  match g.wait with
  | .sleep t => t
  | _ => 0

/-- The items of a group's entry of window 0x0A: s0 to s31, m0 to m15, the flags, the priority, the wake time (R81). -/
def Core.groupItems (k : Core) (g : Group) : List (Nat × Nat × Nat) :=
  (List.range 32).map (fun i => (i, 32, (g.sreg i).toNat)) ++ (List.range 16).map (fun i => (32 + i, 32, (g.mreg i).toNat))
    ++ [(48, 1, b2n g.z), (49, 1, b2n g.n), (50, 1, b2n g.c), (51, 1, b2n g.v), (52, 8, k.groupPri g),
      (53, 64, g.wakeTime)]

/-- The items of a workgroup's entry of window 0x0B that have no given place: segments, k0 to k63, b0 to b31. -/
def Wg.ctxItems (w : Wg) : List (Nat × Nat × Nat) :=
  (List.range 8).map (fun i => (i, 128, (mget {} w.segs i).toNat))
    ++ (List.range 64).map (fun i => (8 + i, 32, (mget 0 w.k i).toNat))
    ++ (List.range 32).map (fun i => (72 + i, 128, (mget {} w.b i).toNat))

/-- The items of a TLB entry (windows 0x0C and 0x11). -/
def Tlb.items (t : Tlb) : List (Nat × Nat × Nat) :=
  [(0, 6, t.fn), (1, 52, t.va), (2, 40, t.size), (3, 56, t.frame), (4, 1, b2n t.r), (5, 1, b2n t.w), (6, 1, b2n t.x),
   (7, 1, b2n t.d), (8, 1, b2n t.sc), (9, 1, b2n t.rwin), (10, 2, t.sp), (11, 6, t.slice), (12, 9, t.home), (13, 2, t.tier),
   (14, 4, t.cls), (15, 64, t.read), (16, 1, 1)]

/-- The items of walk `i` of the walk scheduler (window 0x12): 0 to 63 in flight, 64 to 319 pending. -/
def Walk.items (w : Walk) (i : Nat) : List (Nat × Nat × Nat) :=
  [(8 * i, 6, w.fn), (8 * i + 1, 52, w.va), (8 * i + 2, 1, b2n w.write), (8 * i + 3, 1, b2n w.fetch), (8 * i + 4, 9, w.who.h),
   (8 * i + 5, 6, w.who.c), (8 * i + 6, 6, w.who.g), (8 * i + 7, 1, 1)]

/-- The number of a launch's phase. -/
def Phase.code : Phase → Nat
  | .claim => 1
  | .routes => 2
  | .resident => 3
  | .place => 4
  | .setup => 5
  | .token => 6
  | .filed => 7
  | .running => 8
  | .ended => 9

/-- The items of a queue's placement state (window 0x13): its launch and how far that has come. -/
def State.placementItems (s : State) (q : HwQueue) : List (Nat × Nat × Nat) :=
  match q.busy with
  | none => [(0, 1, 0)]
  | some l =>
    let x := s.launchAt l
    [(0, 1, 1), (1, 32, l), (2, 4, x.phase.code), (3, 32, x.placed), (4, 8, x.nextHum), (5, 64, x.rect.foldl (fun m h => m + 2 ^ h) 0),
     (6, 32, x.gangs)]

/-- The number of a core's status. -/
def CoreStatus.code : CoreStatus → Nat
  | .running => 0
  | .quiesced => 1
  | .fenced => 2
  | .gated => 3

/-- A thread slot (Table 7.1). -/
def Slot.toNat (t : Slot) : Nat :=
  packFields [(0, 32, t.pc.toNat), (32, 10, t.tidx), (42, 3, t.wgs), (45, 3, t.state), (48, 6, t.bin), (54, 8, t.ipri),
    (64, 32, t.filed)]

/-- The oldest thread of a bin: the earliest filed, of these the lowest thread index. -/
def Core.binOldest (k : Core) (now : Nat) (b : Bin) : Nat :=
  let byIdx := sortBy (fun t => (mget {} k.slots t).tidx) b.threads
  (sortBy (fun t => 2 ^ 32 - agedBy now (mget {} k.slots t).filed) byIdx).headD 0

/-- A thread slot as it reads: the PC of a thread in a group is its group's next PC (R145). -/
def Core.slotView (k : Core) (i : Nat) : Slot :=
  let t := mget {} k.slots i
  match k.groups.find? (fun (e : Nat × Group) => (lanesOf e.2.member).any (fun l => mget 0 e.2.roster l == i)) with
  | some e => if t.state = 1 then { t with pc := e.2.pc } else t
  | none => t

/-- A bin (Table 7.2): what was last written through the window stands until a thread joins or leaves it, while the bin ages and its
threads inherit (R25, R149, R171). -/
def Core.binNat (k : Core) (now : Nat) (b : Bin) : Nat :=
  let of := fun (valid oldest : Nat) =>
    packFields [(0, 32, b.pc.toNat), (32, 3, b.wg), (35, 1, valid), (36, 11, b.occ),
      (47, 13, min 8191 (k.binAgeOf now b)), (64, 10, oldest), (74, 8, k.binPri b)]
  match b.entry with
  | some (x, _) => of (bitsOf x 35 1) (bitsOf x 64 10)
  | none => if b.threads.isEmpty then 0 else of 1 (k.binOldest now b)

/-- A channel state (Table 12.7). -/
def Chan.toNat (ch : Chan) : Nat :=
  packFields [(0, 7, ch.slots), (7, 7, ch.full), (14, 6, ch.head), (20, 1, b2n ch.peerEnded), (21, 1, b2n ch.snd),
    (22, 1, b2n ch.rcv), (32, 28, ch.peer), (64, 12, ch.line0)]

/-- A copy queue's state (Table 13.1). -/
def CopyQ.toNat (q : CopyQ) : Nat :=
  packFields [(0, 7, q.outst), (7, 4, q.flags (2 ^ 64)), (32, 32, (q.firstBad (2 ^ 64)).toNat), (64, 32, q.accn),
    (96, 32, q.donen)]

/-- The matrix queue's state (Table 14.7). -/
def QmState.toNat (q : QmState) : Nat :=
  packFields [(0, 7, q.outst), (7, 1, b2n q.fail), (8, 4, q.cause), (12, 8, q.fopc), (32, 32, q.fstep), (64, 32, q.accn),
    (96, 32, q.donen)]

/-- An arrival record (Table 12.3). -/
def Arrival.toNat (a : Arrival) : Nat := packFields [(0, 24, a.memb), (32, 24, a.mark)]

/-- The entry of a workgroup's reservation (R144). -/
def Wg.reservation (w : Wg) : Nat := packFields [(0, 16, w.rbase), (16, 10, w.sbase), (26, 11, w.lim), (37, 9, w.n)]

/-- An 8-byte unit of a workgroup's context (window 0x0B). -/
def Core.ctxUnit (k : Core) (w o : Nat) : Option Nat :=
  let g := mget {} k.wgs w
  if 0x0C00 ≤ o && o < 0x0D00 then some (halfOf (mget {} g.chans ((o - 0x0C00) / 16)).toNat o)
  else if 0x0D00 ≤ o && o < 0x0D40 then some (halfOf (mget {} g.qs ((o - 0x0D00) / 16)).toNat o)
  else if 0x0D40 ≤ o && o < 0x0D50 then some (halfOf g.qm.toNat o)
  else if 0x0E00 ≤ o && o < 0x0E10 then
    some (if (mfind k.wgs w).isSome then halfOf g.reservation o else 0)
  else if 0x2000 ≤ o then some (mget {} g.arr ((o - 0x2000) / 8)).toNat
  else placedUnit 0x0B g.ctxItems o

/-- An 8-byte unit of the matrix sequencer (Table 14.6), as a supervisor or the hypervisor reads it (R6): of the operand set in
flight the word, then each register in a unit of its own. -/
def Engine.seqUnit (g : Engine) (hyp : Bool) (o : Nat) : Nat :=
  if o = 0x40 then (g.opnd.getD 0 0).toNat + (g.opnd.getD 1 0).toNat * 2 ^ 32
  else if 0x48 ≤ o && o < 0x68 then (g.opnd.getD ((o - 0x48) / 8 + 2) 0).toNat
  else match o with
  | 0x00 => packFields [(0, 3, g.state), (3, 8, g.opc), (11, 3, g.wgs)]
  | 0x08 => packFields [(0, 32, g.step), (32, 32, g.steps)]
  | 0x10 => g.tstep
  | 0x18 => if hyp then g.wdog else 0
  | _ => 0

/-- The presence bits of 64 lines. -/
def Core.presence (k : Core) (line : Nat) : Nat :=
  ((List.range 64).filter (fun i => !(k.absent.contains (line + i)))).foldl (fun x i => x + 2 ^ i) 0

/-- Whether a resident workgroup holds a physical register (Table 1.9 code 0x00). -/
def Core.holdsReg (k : Core) (r : Nat) : Bool :=
  k.wgs.any (fun (e : Nat × Wg) => decide (e.2.rbase ≤ r) && decide (r < e.2.rbase + e.2.lim * e.2.n))

/-- A register as window 0x00 reads it: zero where no resident workgroup holds it (Table 1.9). -/
def Core.regView (k : Core) (r : Nat) : Nat := if k.holdsReg r then (mget 0 k.rf r).toNat else 0

/-- Whether a line is a staging line of the `mtile` that runs: it reads as zero, or operand bytes (14_matrix.md R31, R345). -/
def Engine.stages (g : Engine) (line : Nat) : Bool :=
  match g.queue with
  | op :: _ =>
    (match op.kind with
     | .tile _ _ _ _ _ _ _ _ stg => decide (op.scr / 128 + stg ≤ line) && decide (line < op.scr / 128 + stg + 640)
     | _ => false)
  | [] => false

/-- The items of a core's status (window 0x0E): its state, its clock, and the sensors of both layers. -/
def State.statusItems (s : State) (h c : Nat) : List (Nat × Nat × Nat) :=
  let r := (s.humAt h).regs
  [(0, 2, (s.coreAt h c).status.code), (1, 64, s.cycles h), (2, 1, b2n (s.humAt h).half),
   (3, 16, field16 (r.sensorAt c).temp), (4, 16, field16 (r.sensorAt (64 + c)).temp)]

/-- An 8-byte unit of a core's window, as a supervisor or the hypervisor reads it (R6, Table 1.9); none where it holds nothing that
the spec names.  An entry of window 0x09, 0x0A or 0x0C that holds no active group or translation reads as zero: DESIGN CHOICE, the
spec does not say what it reads (notes/assumptions 7). -/
def State.coreUnit (s : State) (hyp : Bool) (h c code o : Nat) : Option Nat :=
  let k := s.coreAt h c
  match code with
  | 0x00 => some (k.regView (o / 4) + k.regView (o / 4 + 1) * 2 ^ 32)
  | 0x01 =>
    some (if o < 0x60000 then (if k.engine.stages (o / 128) then 0 else readN k.scratch o 8)
          else k.presence ((o - 0x100000) * 8))
  | 0x02 =>
    some (if o < 0x40000 then (k.engine.accWord o).toNat + (k.engine.accWord (o + 4)).toNat * 2 ^ 32
          else mget 0 k.engine.flags ((o - 0x100000) / 4) + mget 0 k.engine.flags ((o - 0x100000) / 4 + 1) * 2 ^ 32)
  | 0x03 => some (if o < 0x8000 then readN k.engine.live o 8 else readN k.engine.shadow (o - 0x8000) 8)
  | 0x04 => some (readN (mget {} k.engine.side (o / 0x1000)).bytes (o % 0x1000) 8)
  | 0x05 => some (halfOf (mget {} k.wbars (o / 16)).toNat o)
  | 0x06 => some (halfOf (mget {} (mget {} k.wgs (o / 128)).cvs (o / 16 % 8)).toNat o)
  | 0x07 => some (halfOf (k.slotView (o / 16)).toNat o)
  | 0x08 => some (halfOf (k.binNat (s.cycles h) (mget {} k.bins (o / 16))) o)
  | 0x09 =>
    (match mfind k.groups (o / 64) with
     | some g => placedUnit 0x09 g.rosterItems (o % 64)
     | none => some 0)
  | 0x0A =>
    (match mfind k.groups (o / 512) with
     | some g => placedUnit 0x0A (k.groupItems g) (o % 512)
     | none => some 0)
  | 0x0B => k.ctxUnit (o / 0x4000) (o % 0x4000)
  | 0x0C =>
    (match k.tlb[o / 32]? with
     | some t => placedUnit 0x0C t.items (o % 32)
     | none => some 0)
  | 0x0D => some (k.engine.seqUnit hyp o)
  | 0x0E => placedUnit 0x0E (s.statusItems h c) o
  | _ => none

/-- An Enlarger entry (Table 13.2). -/
def CopyJob.toNat (j : CopyJob) : Nat :=
  packFields [(0, 8, j.opc), (8, 1, 1), (9, 3, j.wgs), (12, 6, j.core), (18, 3, j.queue), (21, 6, j.bar), (32, 32, j.qpos),
    (64, 32, j.ldone), (96, 32, j.ltotal), (128, 48, j.bdone)]

/-- The host-physical address just above a stack's live capacity (17_device_boundary.md R424). -/
def State.livetop (s : State) (h k : Nat) : Nat :=
  s.pkg.pkgnum * 2 ^ 41 + (2 * h + k) * 2 ^ 37 + (Config.stackBytes - (mget {} (s.humAt h).banks k).lowered * 2 ^ 16)

/-- The availability map of 64 banks. -/
def Stack.liveBanks (t : Stack) (b : Nat) : Nat :=
  ((List.range 64).filter (fun i => !(t.dead.contains (b + i)))).foldl (fun x i => x + 2 ^ i) 0

/-- A sense point's entry (Table 17.5). -/
def RailPt.toNat (p : RailPt) : Nat :=
  packFields [(0, 16, p.vnow), (16, 16, field16 p.vstep), (32, 1, b2n p.suspect), (64, 16, p.vmin), (80, 48, p.tmin)]

/-- A sensor's entry (R421). -/
def Sensor.toNat (t : Sensor) : Nat :=
  packFields [(0, 16, field16 t.temp), (16, 48, t.trips), (64, 1, b2n t.isAdv), (65, 1, b2n t.isThr), (66, 1, b2n t.isShd),
    (67, 1, b2n t.bad)]

/-- An 8-byte unit of the scrub engine's window (Table 16.6). -/
def Scrub.unit (g : Scrub) (o : Nat) : Nat :=
  if 0x100 ≤ o && o < 0x200 then unitAt g.token (o - 0x100)
  else match o with
  | 0x00 => b2n g.busy + 2 * b2n g.signing
  | 0x08 => g.done
  | 0x10 => g.seq
  | 0x18 => g.tstart
  | 0x20 => packFields [(0, 7, g.out_), (8, 7, g.in_), (16, 8, g.sedges)]
  | _ => 0

/-- The items of the walk scheduler (window 0x12). -/
def Hum.walkItems (d : Hum) : List (Nat × Nat × Nat) :=
  (d.walks.zipIdx.flatMap (fun p => p.1.items p.2)) ++ (d.pending.zipIdx.flatMap (fun p => p.1.items (64 + p.2)))

/-- The items of a chip-time unit (window 0x19): current time, synchronisation state, measured skew. -/
def State.timeItems (s : State) (h : Nat) : List (Nat × Nat × Nat) :=
  [(0, 64, s.chipTime), (1, 1, b2n s.pkg.domen), (2, 1, b2n s.pkg.domrdy), (3, 1, b2n s.pkg.domRef),
   (4, 16, field16 (mget 0 s.pkg.faulty (512 + h)))]

/-- The items of the mesh and external ports (window 0x1A): link state and retry counters. -/
def Hum.linkItems (d : Hum) : List (Nat × Nat × Nat) :=
  (List.range 17).flatMap (fun l =>
    let x : Link := mget {} d.links l
    [(4 * l, 1, b2n x.fenced), (4 * l + 1, 8, x.bad), (4 * l + 2, 64, x.since)])

/-- The dirty bitmap pointers (window 0x16); the bases are the hypervisor's (16_tenants.md Table 16.2). -/
def State.bitmapItems (s : State) (hyp : Bool) : List (Nat × Nat × Nat) :=
  (List.range 64).flatMap (fun f =>
    let x := s.fnAt f
    [(3 * f, 52, if hyp then x.dbmBase0 else 0), (3 * f + 1, 52, if hyp then x.dbmBase1 else 0), (3 * f + 2, 1, b2n x.dbmAct)])

/-- The way masks of the L2 slices (window 0x15), which are the hypervisor's (16_tenants.md Table 16.1). -/
def HumRegs.wayItems (r : HumRegs) (hyp : Bool) : List (Nat × Nat × Nat) :=
  (List.range 4096).map (fun i => (i, 16, if hyp then mget 0xFFFF r.waymask i else 0))

/-- The tags of a hummock's L2 slices as numbers, for window 0x15. -/
def L2.shown (x : L2) (h : Nat) : List Nat :=
  (x.tags.filter (fun e => e.slice / 64 == h)).map (fun e => packFields
    [(0, 6, e.slice), (6, 4, e.way), (10, 6, e.fn), (16, 2, e.policy), (18, 1, b2n e.dirty), (19, 49, e.line)])

/-- An 8-byte unit of a base die's window, as a supervisor or the hypervisor reads it (Table 1.9, R6); none where it holds nothing
that the spec names.  An entry of window 0x11 that holds no translation reads as zero: DESIGN CHOICE, the spec does not say what it
reads (notes/assumptions 7). -/
def State.baseUnit (s : State) (hyp : Bool) (h code o : Nat) : Option Nat :=
  let d := s.humAt h
  match code with
  | 0x10 =>
    some (if o < 0x8000 then halfOf (mget { root := true } d.gbars (o / 16)).toNat o
          else if o < 0x8400 then halfOf (mget {} d.lbars ((o - 0x8000) / 16)).toNat o else 0)
  | 0x11 =>
    (match d.tlb[o / 32]? with
     | some t => placedUnit 0x11 t.items (o % 32)
     | none => some 0)
  | 0x12 => placedUnit 0x12 d.walkItems o
  | 0x13 =>
    let q : HwQueue := mget {} d.queues (o / 0x800)
    if o % 0x800 < 0x108 then some (q.read hyp (o % 0x800)) else placedUnit 0x13 (s.placementItems q) (o % 0x800 - 0x108)
  | 0x14 =>
    some (match mfind d.enl (o / 32) with
      | some j => j.toNat / 2 ^ (64 * (o / 8 % 4)) % 2 ^ 64
      | none => 0)
  | 0x15 =>
    if 0xF0000 ≤ o then some (if o < 0xF0400 && (hyp || o = 0xF0310) then d.regs.tenantRead (o - 0xF0000) else 0)
    else some (match placedUnit 0x15 (d.regs.wayItems hyp) o with
      | some v => v
      | none => Config.l2Unit h o (s.l2.shown h))
  | 0x16 =>
    if o < 0x200 then some ((mget {} d.banks (o / 0x100)).liveBanks (o % 0x100 * 8))
    else if o < 0x220 then
      let t := mget {} d.banks ((o - 0x200) / 16)
      some (if o % 16 = 0 then packFields [(0, 11, t.bank), (11, 1, b2n t.retiring), (12, 1, b2n t.acked),
              (13, 1, b2n t.remap), (14, 2, t.cause), (16, 32, t.moved)]
            else s.livetop h ((o - 0x200) / 16))
    else placedUnit 0x16 (s.bitmapItems hyp) (o - 0x220)
  | 0x17 =>
    some (if o < 0xA00 then (mget {} d.regs.rails (o / 32)).toNat / 2 ^ (64 * (o / 8 % 4)) % 2 ^ 64
          else if o = 0xA00 then packFields [(0, 16, d.regs.curChip), (16, 16, d.regs.curBase)] else 0)
  | 0x18 =>
    some (if o < 0xC00 then halfOf (d.regs.sensorAt (o / 16)).toNat o
          else if o = 0xC00 then packFields [(0, 16, field16 d.regs.fctemp), (16, 1, b2n (d.regs.fcvalid && d.regs.fcen))]
          else if o = 0xC08 then d.regs.fctime else 0)
  | 0x19 => placedUnit 0x19 (s.timeItems h) o
  | 0x1A => placedUnit 0x1A d.linkItems o
  | 0x1B => some (d.scrub.unit o)
  | _ => none

/-- A byte of the on-chip map as it stands, as a supervisor or the hypervisor reads it (R6, R30); a byte of another package, or of
a window where it holds nothing that the spec names, is a free value (notes/assumptions 7). -/
def State.mapByteAt (s : State) (hyp : Bool) (a : Nat) : Byte :=
  let u := match s.localHum (mapHum a) with
    | none => none
    | some h =>
      if mapCode a < 0x10 then s.coreUnit hyp h (mapCore a) (mapCode a) (mapOff a / 8 * 8)
      else s.baseUnit hyp h (mapCode a) (mapOff a / 8 * 8)
  match u with
  | some v => BitVec.ofNat 8 (v / 256 ^ (mapOff a % 8))
  | none => Config.mapByte a s.freeCtr

/-- The number in `n` bytes of the map. -/
def State.mapReadN (s : State) (hyp : Bool) (a : Nat) : Nat → Nat
  | 0 => 0
  | n + 1 => (s.mapByteAt hyp a).toNat + 256 * s.mapReadN hyp (a + 1) n

end Sys2Proof.Machine
end

