-- ==== Sys2Proof/Machine/MapOps.lean ====
section
/-! DEFINITION. Writing the on-chip map windows, the window loads and stores, and the host's accesses to the map
(01_machine.md R23 to R25; 08_memory_access.md R193; 10_ordering.md R248). -/

namespace Sys2Proof.Machine

/-! ### Writing entries -/

/-- A number with the `w` bytes at a byte position replaced. -/
def putBytes (old pos w v : Nat) : Nat :=
  old - bitsOf old (8 * pos) (8 * w) * 2 ^ (8 * pos) + v % 2 ^ (8 * w) * 2 ^ (8 * pos)

/-- The words that an access of `w` bytes writes: each with its number and value. -/
def mapWords (o w v : Nat) : List (Nat × Word) :=
  (List.range (w / 4)).map (fun i => (o / 4 + i, BitVec.ofNat 32 (v / 2 ^ (32 * i))))

/-- A barrier register written through the map. -/
def Wbar.put (b : Wbar) (x : Nat) : Wbar :=
  { b with arrived := bitsOf x 0 11, members := bitsOf x 11 11, broken := bitOf x 22, owner := bitsOf x 23 3
           valid := bitOf x 26, name := bitsOf x 27 4, pending := sextNat (bitsOf x 32 48) 48
           phcnt := BitVec.ofNat 32 (bitsOf x 96 32) }

/-- A convergence register written through the map. -/
def Cv.put (v : Cv) (x : Nat) : Cv :=
  { v with size := bitsOf x 0 11, signed := bitsOf x 11 11, gen := bitsOf x 32 32, digest := bitsOf x 64 64 }

/-- A thread slot written through the map.  A PC that is no multiple of 8 is kept as written, and a group drawn from it fetches
there: DESIGN CHOICE, the spec does not say what such a write does (R32; notes/assumptions 58). -/
def Slot.put (t : Slot) (x : Nat) : Slot :=
  { t with pc := BitVec.ofNat 32 x, tidx := bitsOf x 32 10, wgs := bitsOf x 42 3, state := bitsOf x 45 3
           bin := bitsOf x 48 6, ipri := bitsOf x 54 8, filed := bitsOf x 64 32 }

/-- A channel state written through the map. -/
def Chan.put (ch : Chan) (x : Nat) : Chan :=
  { ch with slots := bitsOf x 0 7, full := bitsOf x 7 7, head := bitsOf x 14 6, peerEnded := bitOf x 20
            snd := bitOf x 21, rcv := bitOf x 22, peer := bitsOf x 32 28, line0 := bitsOf x 64 12 }

/-- A copy queue's state written through the map. -/
def CopyQ.put (q : CopyQ) (x : Nat) : CopyQ :=
  let n : QNote := {
    idxf := bitOf x 7, pois := bitOf x 8, zfill := bitOf x 9, scnan := bitOf x 10
    bad := if bitsOf x 32 32 = 0 then none else some (BitVec.ofNat 32 (bitsOf x 32 32)) }
  { q with outst := bitsOf x 0 7, was := n, notes := [], accn := bitsOf x 64 32, donen := bitsOf x 96 32 }

/-- The matrix queue's state written through the map. -/
def QmState.put (q : QmState) (x : Nat) : QmState :=
  { q with outst := bitsOf x 0 7, fail := bitOf x 7, cause := bitsOf x 8 4, fopc := bitsOf x 12 8
           fstep := bitsOf x 32 32, accn := bitsOf x 64 32, donen := bitsOf x 96 32 }

/-- A workgroup's reservation written through the map (R144). -/
def Wg.putReservation (g : Wg) (x : Nat) : Wg :=
  { g with rbase := bitsOf x 0 16, sbase := bitsOf x 16 10, lim := bitsOf x 26 11, n := bitsOf x 37 9 }

/-- The items of a workgroup's context without a given place, written through the map (notes/assumptions 7). -/
def Wg.putItems (g : Wg) (x : Nat) : Wg :=
  { g with
    segs := (List.range 8).foldl (fun m i => mset m i (Seg.ofNat i (placedField 0x0B x i 128))) g.segs
    k := (List.range 64).foldl (fun m i => mset m i (BitVec.ofNat 32 (placedField 0x0B x (8 + i) 32))) g.k
    b := (List.range 32).foldl (fun m i => mset m i (BufRec.ofNat (placedField 0x0B x (72 + i) 128))) g.b }

/-- Write `w` bytes of a workgroup's context (window 0x0B). -/
def Wg.putCtx (g : Wg) (o w v : Nat) : Wg :=
  if 0x0C00 ≤ o && o < 0x0D00 then
    let i := (o - 0x0C00) / 16
    let e := mget {} g.chans i
    { g with chans := mset g.chans i (e.put (putBytes e.toNat (o % 16) w v)) }
  else if 0x0D00 ≤ o && o < 0x0D40 then
    let i := (o - 0x0D00) / 16
    let e := mget {} g.qs i
    { g with qs := mset g.qs i (e.put (putBytes e.toNat (o % 16) w v)) }
  else if 0x0D40 ≤ o && o < 0x0D50 then { g with qm := g.qm.put (putBytes g.qm.toNat (o % 16) w v) }
  else if 0x0E00 ≤ o && o < 0x0E10 then g.putReservation (putBytes g.reservation (o % 16) w v)
  else if 0x2000 ≤ o then
    let i := (o - 0x2000) / 8
    let x := putBytes (mget {} g.arr i).toNat (o % 8) w v
    { g with arr := mset g.arr i { memb := bitsOf x 0 24, mark := bitsOf x 32 24 } }
  else g.putItems (putBytes (placedNat 0x0B g.ctxItems) o w v)

/-- The next PC of a group that a thread is in, written through the thread's slot (R145). -/
def Core.putGroupPc (k : Core) (i : Nat) (pc : Word) : Core :=
  { k with groups := k.groups.map (fun (e : Nat × Group) =>
      if (lanesOf e.2.member).any (fun l => mget 0 e.2.roster l == i) then (e.1, { e.2 with pc := pc }) else e) }

/-- Write a thread slot through the map: a binned thread joins its bin's list, and the PC of one in a group is its group's. -/
def Core.putSlot (k : Core) (i x : Nat) : Core :=
  let t := (mget {} k.slots i).put x
  let k := if t.state = 1 then k.putGroupPc i t.pc else k
  let bins := k.bins.map (fun (e : Nat × Bin) => (e.1, { e.2 with threads := e.2.threads.filter (· != i) }))
  let b := mget {} bins t.bin
  { k with slots := mset k.slots i t
           bins := if t.state = 2 then mset bins t.bin { b with threads := b.threads ++ [i] } else bins }

/-- The bits of a bin entry that hold fields (Table 7.2). -/
def binFields (x : Nat) : Nat := bitsOf x 0 60 + bitsOf x 64 18 * 2 ^ 64

/-- Write a bin through the map at a core cycle (R25, R149): its key and its entry, which readiness and the order of draws go by; a
draw takes the threads whose slots name the bin.  A KEYPC that is no multiple of 8 is kept as written, DESIGN CHOICE as for a slot's
PC (R32; notes/assumptions 58). -/
def Core.putBin (k : Core) (now i x : Nat) : Core :=
  { k with bins := mset k.bins i { mget {} k.bins i with
      pc := BitVec.ofNat 32 x, wg := bitsOf x 32 3, entry := some (binFields x, now) } }

/-- A group that a write of its roster brings to life: its workgroup and PC are those of its lowest lane's thread
(notes/assumptions 7). -/
def Core.groupFor (k : Core) (n slot : Nat) : Group :=
  let t := mget {} k.slots slot
  let w := mget {} k.wgs t.wgs
  { wgs := t.wgs, pc := t.pc, segs := w.segs, hfn := w.fn, pipe := n / 16 }

/-- Write a group's roster through the map (window 0x09; notes/assumptions 7). -/
def Core.putRoster (k : Core) (n o w v : Nat) : Core :=
  let old : Group := mget {} k.groups n
  let x := putBytes (placedNat 0x09 old.rosterItems) o w v
  let roster := (List.range 32).map (fun l => (l, placedField 0x09 x l 10))
  let member := BitVec.ofNat 32 (placedField 0x09 x 32 32)
  if member = 0 then { k with groups := mdel k.groups n }
  else
    let g := if (mfind k.groups n).isSome then old else k.groupFor n (mget 0 roster (lowest member))
    { k with groups := mset k.groups n { g with
        roster := roster, member := member, helpers := BitVec.ofNat 32 (placedField 0x09 x 33 32) } }

/-- A group that is ready or asleep, with its wake time written: 0 for none (R81). -/
def Group.putWake (g : Group) (t : Nat) : Group :=
  match g.wait with
  | .ready => { g with wait := if t = 0 then .ready else .sleep t }
  | .sleep _ => { g with wait := if t = 0 then .ready else .sleep t }
  | _ => g

/-- Write an active group's state through the map (window 0x0A; notes/assumptions 7); its priority is that of its threads. -/
def Core.putGroup (k : Core) (n o w v : Nat) : Core :=
  match mfind k.groups n with
  | none => k
  | some g =>
    let x := putBytes (placedNat 0x0A (k.groupItems g)) o w v
    { k with groups := mset k.groups n { g.putWake (placedField 0x0A x 53 64) with
        s := (List.range 32).map (fun i => (i, BitVec.ofNat 32 (placedField 0x0A x i 32)))
        m := (List.range 16).map (fun i => (i, BitVec.ofNat 32 (placedField 0x0A x (32 + i) 32)))
        z := placedField 0x0A x 48 1 == 1, n := placedField 0x0A x 49 1 == 1
        c := placedField 0x0A x 50 1 == 1, v := placedField 0x0A x 51 1 == 1 } }

/-- Write one byte of a matrix engine's plane or side memory, or clear flag bits (R323). -/
def Engine.putByte (g : Engine) (code o : Nat) (b : Byte) : Engine :=
  if code = 3 then
    if o < 0x8000 then { g with live := memWrite g.live o b } else { g with shadow := memWrite g.shadow (o - 0x8000) b }
  else
    let m := mget {} g.side (o / 0x1000)
    { g with side := mset g.side (o / 0x1000) { m with bytes := memWrite m.bytes (o % 0x1000) b } }

/-- Write `w` bytes of a core's window; presence bits ignore writes (R248). -/
def Core.putWindow (k : Core) (cycles code o w v : Nat) : Core :=
  match code with
  | 0x00 => { k with rf := (mapWords o w v).foldl (fun m x => if k.holdsReg x.1 then mset m x.1 x.2 else m) k.rf }
  | 0x01 => if o < 0x60000 then { k with scratch := writeN k.scratch o w v } else k
  | 0x02 =>
    if o < 0x40000 then
      { k with engine := { k.engine with acc := (mapWords o w v).foldl (fun m x => mset m x.1 x.2) k.engine.acc } }
    else
      { k with engine := { k.engine with flags := (mapWords (o - 0x100000) w v).foldl (fun m x =>
          mset m x.1 (mget 0 m x.1 &&& (7 - x.2.toNat % 8))) k.engine.flags } }
  | 0x03 => { k with engine := (List.range w).foldl (fun g i => g.putByte 3 (o + i) (BitVec.ofNat 8 (v / 256 ^ i))) k.engine }
  | 0x04 => { k with engine := (List.range w).foldl (fun g i => g.putByte 4 (o + i) (BitVec.ofNat 8 (v / 256 ^ i))) k.engine }
  | 0x05 =>
    let b := mget {} k.wbars (o / 16)
    { k with wbars := mset k.wbars (o / 16) (b.put (putBytes b.toNat (o % 16) w v)) }
  | 0x06 =>
    let g := mget {} k.wgs (o / 128)
    let c := mget {} g.cvs (o / 16 % 8)
    { k with wgs := mset k.wgs (o / 128) { g with cvs := mset g.cvs (o / 16 % 8) (c.put (putBytes c.toNat (o % 16) w v)) } }
  | 0x07 => k.putSlot (o / 16) (putBytes (k.slotView (o / 16)).toNat (o % 16) w v)
  | 0x08 => k.putBin cycles (o / 16) (putBytes (k.binNat cycles (mget {} k.bins (o / 16))) (o % 16) w v)
  | 0x09 => k.putRoster (o / 64) (o % 64) w v
  | 0x0A => k.putGroup (o / 512) (o % 512) w v
  | 0x0B => { k with wgs := mset k.wgs (o / 0x4000) ((mget {} k.wgs (o / 0x4000)).putCtx (o % 0x4000) w v) }
  | _ => k

/-- A write of `w` bytes to a map address (R24, R248); base-die windows are read only. -/
def State.mapWrite (s : State) (a w v : Nat) : State :=
  match s.localHum (mapHum a) with
  | none => s
  | some h =>
    if mapCode a < 0x0C then
      s.setCoreAt h (mapCore a) ((s.coreAt h (mapCore a)).putWindow (s.cycles h) (mapCode a) (mapOff a) w v)
    else s

/-- Whether function `f` may reach a map address from requester port `i` of hummock `h` (R380): base-die windows stand
at memory-side port 14. -/
def State.mapPath (s : State) (f h i a : Nat) : Bool :=
  decide (mapCode a < 0x10) || s.pathOk f h i (mapHum a, 112)

/-! ### Contact sheets (15_traps_preemption.md R367) -/

/-- The size of a structure's window (Table 1.9). -/
def windowSize (code : Nat) : Nat :=
  match mapExtent code with
  | e :: _ => e.2
  | [] => 0

/-- The helper entries that follow window 0x0A: three for each active group, in group order (Table 15.4). -/
def Core.helperEntries (k : Core) : List Byte :=
  (List.range 64).flatMap (fun g =>
    let x := mget {} k.groups g
    let n := (mget {} k.wgs x.wgs).n
    let hs := lanesOf x.helpers
    (List.range 3).flatMap (fun i =>
      match hs[i]? with
      | none => List.replicate 1032 0
      | some l => bytesOf 8 (l + 256)
          ++ (List.range 256).flatMap (fun j => bytesOf 4 (if j < n then (mget 0 x.hregs (256 * l + j)).toNat else 0))))

/-- The bytes of a contact sheet as a supervisor or the hypervisor takes it (R6, R367 Table 15.4): `a` is the map address of the
core or base die, `mask` the structures. -/
def State.sheet (s : State) (hyp : Bool) (a mask : Nat) : List Byte :=
  let body := ((List.range 28).filter (fun c => mask.testBit c)).flatMap (fun c =>
    let w := a + c * 2 ^ 28
    (List.range (windowSize c)).map (fun i => s.mapByteAt hyp (w + i))
      ++ (if c = 0x0A then (match s.localHum (mapHum a) with
          | some h => (s.coreAt h (mapCore a)).helperEntries
          | none => (List.range (192 * 1032)).map (fun i => Config.mapByte (w + i) s.freeCtr)) else []))
  bytesOf 4 0x43545348 ++ bytesOf 4 1 ++ bytesOf 8 a ++ bytesOf 8 s.chipTime ++ bytesOf 4 mask ++ bytesOf 4 0
    ++ bytesOf 8 (64 + body.length) ++ bytesOf 24 0 ++ body

/-! ### The host's view of the map (17_device_boundary.md R410) -/

/-- The outside receives the outcome of a read. -/
def State.respond (s : State) (r : HostResp) : State := { s with pkg := { s.pkg with resp := r } }

end Sys2Proof.Machine
end

