-- ==== Sys2Proof/Machine/Ckpt.lean ====
section
/-! DEFINITION. Checkpoints of a function: what one records, its instants and states, messages between packages,
the renaming of an image's places, rollback, pre-emption and kill (15_traps_preemption.md R368 to R375; 16_tenants.md R397). -/

namespace Sys2Proof.Machine

/-! ### What a checkpoint records (R368) -/

/-- Whether a core holds a workgroup of a function. -/
def Core.worksFor (k : Core) (f : Nat) : Bool := k.wgs.any (fun (e : Nat × Wg) => e.2.fn == f)

/-- A group as it starts again: it holds no translation, and an instruction that waited for a walk issues anew
(R370, R372). -/
def Group.settle (g : Group) : Group :=
  { g with
    tlb := [], denied := [], held := none
    wait := match g.wait with
      | .walk _ => .ready
      | .drain _ _ => .ready
      | .order _ => .ready
      | w => w }

/-- A core as a checkpoint records it: no copy of memory or of a translation is kept, a request on its way, which only an
image taken as checkpointing is enabled has, is translated anew, and a step of the engine that restarts is measured anew (R347, R370,
R372). -/
def Core.settle (k : Core) : Core :=
  { k with
    tlb := [], l1 := [], icache := []
    reqs := k.reqs.map (fun (r : Req) => { r with expiry := 0, walking := false })
    groups := k.groups.map (fun (e : Nat × Group) => (e.1, e.2.settle))
    engine := { k.engine with
      queue := k.engine.queue.map (fun (o : MatOp) => { o with tlb := [] }), used := 0
      state := if k.engine.queue.isEmpty then k.engine.state else 2 } }

/-- A core with no work; its status and its watchdog limit stay. -/
def Core.blank (k : Core) : Core := { status := k.status, engine := { wdog := k.engine.wdog } }

/-- The gang contexts that a function's resident workgroups use on a hummock. -/
def State.gangCtxs (s : State) (f h : Nat) : List Nat :=
  (List.range 64).flatMap (fun c =>
    ((s.coreAt h c).wgs.filter (fun (e : Nat × Wg) => e.2.fn == f)).map (fun (e : Nat × Wg) => e.2.gctx))

/-- Whether a launch context of a hummock is a function's. -/
def State.ctxOfFn (s : State) (f : Nat) (e : Nat × Nat) : Bool := (s.launchAt e.2).fn == f

/-- Whether a gang barrier entry is a function's. -/
def State.gbarOfFn (s : State) (f h : Nat) (e : Nat × Gbar) : Bool := (s.gangCtxs f h).contains (e.1 / 4)

/-- Whether a launch barrier entry is a function's. -/
def State.lbarOfFn (s : State) (f h : Nat) (e : Nat × Gbar) : Bool :=
  ((s.humAt h).ctxs.filter (s.ctxOfFn f)).any (fun x => x.1 == e.1 / 4)

/-- Whether an Enlarger operation is a function's. -/
def State.jobOfFn (s : State) (f h : Nat) (e : Nat × CopyJob) : Bool := (s.coreAt h e.2.core).worksFor f

/-- What a checkpoint records of one hummock: the function's entries of windows 0x10, 0x13 and 0x14. -/
def State.humImage (s : State) (f h : Nat) : HumImage :=
  let d := s.humAt h
  { x := s.lx h, y := s.ly h
    gbars := d.gbars.filter (s.gbarOfFn f h)
    lbars := d.lbars.filter (s.lbarOfFn f h)
    ctxs := d.ctxs.filter (s.ctxOfFn f)
    queues := d.queues.filter (fun (e : Nat × HwQueue) => e.2.fn == f)
    enl := (d.enl.filter (s.jobOfFn f h)).map (fun (e : Nat × CopyJob) => (e.1, { e.2 with tlb := [] })) }

/-- Whether a core of a hummock belongs to a function's partition. -/
def State.coreOf (s : State) (f h c : Nat) : Bool :=
  s.inPartition h f && ((s.humAt h).regs.partAt f).sedge.testBit (c / 8)

/-- The map address of a core, or of the base die as number 63. -/
def State.mapBase (s : State) (h c : Nat) : Nat := s.phys h * 2 ^ 39 + c * 2 ^ 33

/-- The state with a function's entries alone in the base-die windows that a checkpoint records. -/
def State.only (s : State) (f h : Nat) : State :=
  let im := s.humImage f h
  s.setHum h { s.humAt h with gbars := im.gbars, lbars := im.lbars, queues := im.queues, enl := im.enl }

/-- The contact sheets of the image area (R368): of each core of the partition its windows 0x00 to 0x0D, and of each base die
the function's entries of windows 0x10, 0x13 and 0x14, in ascending physical number. -/
def State.imageSheets (s : State) (f : Nat) : List (List Byte) :=
  ((List.range 8).filter (fun h => s.inPartition h f)).flatMap (fun h =>
    ((List.range 64).filter (s.coreOf f h)).map (fun c => s.sheet true (s.mapBase h c) 0x3FFF)
      ++ [(s.only f h).sheet true (s.mapBase h 63) 0x190000])

/-- The bytes of a list that are not zero, at rising addresses. -/
def cellsFrom (a : Nat) (bs : List Byte) : Memory :=
  (bs.zipIdx a).filterMap (fun p => if p.1 = Memory.unlisted then none else some (p.2, p.1))

/-- Lists of bytes one after another: their number and their cells. -/
def areaOf (bss : List (List Byte)) : Nat × Memory :=
  bss.foldl (fun p bs => (p.1 + bs.length, p.2 ++ cellsFrom p.1 bs)) (0, [])

/-- Put an area of `n` bytes at an address. -/
def putArea (m : Memory) (a n : Nat) (cells : Memory) : Memory :=
  m.filter (fun e => decide (e.1 < a)) ++ cells.map (fun e => (a + e.1, e.2)) ++ m.filter (fun e => decide (a + n ≤ e.1))

/-- Whether an area of `n` bytes at an address holds these cells. -/
def areaHolds (m : Memory) (a n : Nat) (cells : Memory) : Bool :=
  m.filter (fun e => decide (a ≤ e.1) && decide (e.1 < a + n)) == cells.map (fun e => (a + e.1, e.2))

/-- A posted card on its way to a queue of another function than its poster's. -/
def Card.onItsWay (c : Card) : Bool := c.poster.isNone && c.seq.isNone

/-- Whether a window accumulator is one that a function's rollback withdraws: what went to another package has left the tray at a
commit (R262). -/
def State.ownWin (s : State) (f : Nat) (w : Nat × WinAcc) : Bool := w.2.fn == f && !(s.remote w.1)

/-- The window contributions of a function in this package that no accumulator has drained yet. -/
def State.winsOf (s : State) (f : Nat) : List (Nat × Nat × WinAcc) :=
  s.hums.flatMap (fun (e : Nat × Hum) => (e.2.wins.filter (s.ownWin f)).map (fun (w : Nat × WinAcc) => (e.1, w.1, w.2)))

/-- The image of a function as its state stands (R368). -/
def State.capture (s : State) (f : Nat) : Image :=
  let area := areaOf (s.imageSheets f)
  { cores := (s.cores.filter (fun (e : Nat × Core) => e.2.worksFor f)).map (fun (e : Nat × Core) => (e.1, e.2.settle))
    hums := ((List.range 8).filter (fun h => s.inPartition h f)).map (fun h => (h, s.humImage f h))
    launches := (s.launches.filter (fun (e : Nat × Launch) => e.2.fn == f)).map
      (fun (e : Nat × Launch) => (e.1, { e.2 with waits := [] }))
    cards := s.cards.filter (fun c => c.fn == f && !c.onItsWay)
    wins := s.winsOf f
    sheet := area.2, size := area.1, logSz := (s.fnAt f).ck.logSz }

/-- Change the checkpoint state of a function. -/
def State.modCk (s : State) (f : Nat) (g : Ckpt → Ckpt) : State := s.setFn f { s.fnAt f with ck := g (s.fnAt f).ck }

/-- Write an image into its function's image area (R368): the writes are neither logged nor marked; accumulators pending on it drain
first (R260), and an area that is not all assigned is logged and not written (R411). -/
def State.writeImage (s : State) (f : Nat) (im : Image) : State :=
  let a := (s.fnAt f).ck.imgBase
  if s.assigned a && s.assigned (a + im.size - 1) then
    let s := s.drainFor a im.size
    { s with mem := putArea s.mem a im.size im.sheet }
  else s.logErr 0 3 0 a 0

/-! ### Messages between packages (R371) -/

/-- A reduction that arrives from another package, at its home (R254, R257, R262). -/
def State.arriveRed (s : State) (f : Nat) (op : AOp) (ty : Ty) (win : Option Nat) (a v : Nat) : State :=
  let w := memWidth ty
  match win with
  | some h => s.winArrive h a (winOne op ty f s.chipTime (BitVec.ofNat 64 v))
  | none =>
    if s.linePoison (a / 128) then s.logErr f 13 0 a 0
    else
      let s := s.drainFor a w
      s.performStore f ownHome a w (atomNew op ty (BitVec.ofNat 64 (readN s.mem a w)) (BitVec.ofNat 64 v) 0).toNat

/-- A message enters the package at the fabric ports of its hummock for a memory-side port: one that the crossbar denies is dropped
and logged (R380; notes/assumptions 25). -/
def State.enter (s : State) (f h j : Nat) (g : State → State) : State :=
  if s.reach f h 12 h j then g s else s.logErr 0 4 h (portPair 12 j) f

/-- A message for a line of this package enters at its home's hummock. -/
def State.enterLine (s : State) (f a : Nat) (g : State → State) : State :=
  match s.localHum (s.homeOf {} a).1 with
  | some h => s.enter f h (if (s.homeOf {} a).2 = 64 then 10 else (s.homeOf {} a).2 / 8) g
  | none => g s

/-- Deliver the effect of a message. -/
def State.deliverMsg (s : State) (f : Nat) : Msg → State
  | .store a n v => s.enterLine f a (fun s => ((s.drainFor a n).l2At f {} a true).performStore f ownHome a n v)
  | .red op ty win a v => s.enterLine f a (fun s => (s.l2At f {} a true).arriveRed f op ty win a v)
  | .slot l w ch ws =>
    match s.findWg l w with
    | some r => s.putSlotAt r ch ws
    | none => s
  | .arrive l bar n gone back phc =>
    s.enter f (s.launchAt l).root 8 (fun s => s.modLb (s.launchAt l).root l bar (fun r => r.take n gone back phc))
  | .phase l bar phc dormant =>
    (s.launchAt l).rect.foldl (fun t h => t.enter f h 8 (fun t => t.modLb h l bar (fun b => b.reached phc dormant))) s
  | .breaks l bar => s.enter f (((s.launchAt l).rect.find? (· < 8)).getD 0) 8 (fun s => s.breakLbs l (· == bar))
  | .card l h kidx args => s.enter f h 15 (fun s => { s with cards := s.cards ++ [s.cardFor l h kidx args] })

/-- A message of the function arrives from another package with its sender's checkpoint number (R371): one that the receiver
has yet to reach is held, and one that meets a checkpoint in progress is recorded in it, by the receiver's number. -/
def State.takeMsg (s : State) (f seq : Nat) (msg : Msg) : State :=
  let k := (s.fnAt f).ck
  if !k.en then s.deliverMsg f msg
  else if decide (k.seq < seq) || k.out_ || k.state == .leave then s.modCk f (fun k => { k with heldMsgs := k.heldMsgs ++ [(seq, msg)] })
  else if k.state == .run then s.deliverMsg f msg
  else s.modCk f (fun k => { k with msgs := k.msgs ++ [(k.seq, msg)] })

/-- A message arrives from the package of a number, another than this one (R371). -/
def execCrossPackageMessage (f seq sender : Nat) (msg : Msg) (s : State) : Out :=
  .next (if sender = s.pkg.pkgnum then s else s.takeMsg f seq msg)

/-! ### Checkpoint states (R370 Table 15.5) -/

/-- The period of a function's regular instants in ns. -/
def Ckpt.period (k : Ckpt) : Nat := k.int * 1000

/-- The first regular instant after a chip time (R370). -/
def State.nextInstant (s : State) (k : Ckpt) (t : Nat) : Nat :=
  s.pkg.epoch + ((t - s.pkg.epoch) / k.period + 1) * k.period

/-- The instant that a function's units act at now, if one has arrived: the earlier of the regular and the requested
one (R370). -/
def State.dueInstant (s : State) (k : Ckpt) : Option Nat :=
  let r := s.nextInstant k k.instant
  let t := match k.early with
    | some e => min e r
    | none => r
  if t ≤ s.chipTime then some t else none

/-- The instant arrives: the function's groups stop issuing (Table 15.5 RUN). -/
def execCheckpointInstant (f : Nat) (s : State) : Out :=
  let k := (s.fnAt f).ck
  if f ≠ 0 && k.en && !k.out_ && k.state == .run then
    match s.dueInstant k with
    | some t => .next (s.modCk f (fun k => { k with state := .drain, instant := t }))
    | none => .next s
  else .next s

/-- Whether a group has an issued memory instruction that has not completed. -/
def Group.inFlight (g : Group) : Bool :=
  match g.wait with
  | .mem _ => true
  | .walk _ => true
  | .l2op _ _ => true
  | .snap _ _ => true
  | _ => false

/-- Every issued memory instruction of the function has completed (Table 15.5 DRAIN); copies and matrix operations stand
at line and step boundaries between steps of the model. -/
def State.ckDrained (s : State) (f : Nat) : Bool :=
  s.cores.all (fun (e : Nat × Core) => !(e.2.worksFor f)
    || (e.2.reqs.isEmpty && e.2.outs.isEmpty && e.2.pend.isEmpty && e.2.groups.all (fun (g : Nat × Group) => !g.2.inFlight)))
  && s.travel.all (fun t => t.fn != f)

/-- The drain ends (Table 15.5). -/
def execCheckpointDrainDone (f : Nat) (s : State) : Out :=
  if (s.fnAt f).ck.state == .drain && s.ckDrained f then .next (s.modCk f (fun k => { k with state := .commit }))
  else .next s

/-- One effect leaves the holding tray (R369): performed at its home, and not logged. -/
def State.releaseItem (s : State) (f : Nat) (i : TrayItem) : State :=
  match i with
  | .store a w v => ((s.drainFor a w).l2At f {} a true).performStore f ownHome a w v.toNat
  | .red r => (s.performReq { r with tray := false }).1
  | .card c => { s with cards := s.cards ++ [c] }
  | .heal l => { s with poison := s.poison.filter (· != l) }
  | .spoil l => { s with poison := l :: s.poison.filter (· != l) }

/-- Release a function's tray in entry order (Table 15.5 COMMIT); what leaves the tray is not logged again. -/
def State.releaseTray (s : State) (f : Nat) : State :=
  let items := (s.fnAt f).ck.tray
  let en := (s.fnAt f).ck.en
  let s := s.modCk f (fun k => { k with tray := [], en := false })
  (items.foldl (fun t i => t.releaseItem f i) s).modCk f (fun k => { k with en := en })

/-- Deliver the messages of a list whose number the function has reached. -/
def State.deliverAll (s : State) (f : Nat) (ms : List (Nat × Msg)) : State :=
  ms.foldl (fun t m => t.deliverMsg f m.2) s

/-- The messages recorded in the checkpoint that follows a number (R371). -/
def Ckpt.recorded (k : Ckpt) (seq : Nat) : List (Nat × Msg) := k.msgs.filter (fun m => m.1 == seq)

/-- Commit (Table 15.5): the image is that of the instant, in its area, the log is emptied and the tray is released, whose window
contributions are of the new checkpoint (11_atomics.md R262); messages recorded in this checkpoint or held for its instant are
delivered. -/
def execCheckpointCommit (f : Nat) (s : State) : Out :=
  let k0 := (s.fnAt f).ck
  if k0.state == .commit then
    let im := s.capture f
    let s := (s.writeImage f im).modCk f (fun k => { k with
      logged := [], blocks := [], seq := k.seq + 1, time := k.instant, instant := s.chipTime, state := .run
      early := k.early.filter (fun e => decide (s.chipTime < e)), cardsIn := [] })
    let s := s.releaseTray f
    let s := s.modCk f (fun k => { k with image := some { im with wins := s.winsOf f } })
    let now := k0.recorded k0.seq ++ k0.heldMsgs.filter (fun m => decide (m.1 ≤ k0.seq + 1))
    let s := s.modCk f (fun k => { k with
      msgs := k.recorded k0.seq, heldMsgs := k.heldMsgs.filter (fun m => decide (k0.seq + 1 < m.1)) })
    .next (s.deliverAll f now)
  else .next s

/-- Checkpointing is enabled: the state as it stands is what a rollback returns to; or disabled: the tray's effects
leave (notes/assumptions 22). -/
def State.setCken (s : State) (f : Nat) (en : Bool) : State :=
  let k := (s.fnAt f).ck
  if en == k.en then s
  else if en then
    let im := s.capture f
    (s.writeImage f im).modCk f (fun k => { k with
      en := true, image := some im, logged := [], blocks := [], instant := s.chipTime, early := none })
  else (s.releaseTray f).modCk f (fun k => { k with en := false, state := .run, early := none, msgs := [], heldMsgs := [] })

/-! ### Renaming places -/

/-- How the places of an image are renamed: function, hummocks, cores, gang contexts, launch contexts and Enlarger
entries. -/
structure Places where
  fn   : Nat
  hum  : Nat → Nat
  core : Nat → Nat
  gctx : Nat → Nat → Nat
  lctx : Nat → Nat → Nat
  enl  : Nat → Nat → Nat

/-- A place renamed. -/
def Places.ref (p : Places) (r : GRef) : GRef :=
  { r with h := p.core (coreKey r.h r.c) / 64, c := p.core (coreKey r.h r.c) % 64 }

/-- A function renamed: what acts for the PF stays the PF's. -/
def Places.fnOf (p : Places) (f : Nat) : Nat := if f = 0 then 0 else p.fn

/-- Raised priorities by the renamed groups that passed them on. -/
def Places.raisedBy (p : Places) (m : NMap Nat) : NMap Nat :=
  m.foldl (fun a (e : Nat × Nat) => mset a (waiterKey (p.core (e.1 / 64)) (e.1 % 64)) e.2) []

/-- A copy job renamed; `h` is its hummock in the image. -/
def Places.job (p : Places) (h : Nat) (j : CopyJob) : CopyJob :=
  { j with core := p.core (coreKey h j.core) % 64, fn := p.fnOf j.fn, raised := p.raisedBy j.raised }

/-- A parked access of a peer's scratchpad names the peer's core. -/
def Places.memOp (p : Places) (op : MemOp) : MemOp :=
  if op.space == .peer then
    { op with items := op.items.map (fun i => { i with addr := p.core (i.addr / 2 ^ 20) * 2 ^ 20 + i.addr % 2 ^ 20 }) }
  else op

/-- A group renamed. -/
def Places.group (p : Places) (h : Nat) (g : Group) : Group :=
  { g with
    hfn := p.fnOf g.hfn
    wait := match g.wait with
      | .park op n => .park (p.memOp op) n
      | .copies js => .copies (js.map (p.job h))
      | w => w }

/-- A workgroup renamed. -/
def Places.wg (p : Places) (h : Nat) (w : Wg) : Wg :=
  { w with fn := p.fn, gctx := p.gctx h w.gctx, lctx := if w.lctx < 16 then p.lctx h w.lctx else w.lctx
           peers := w.peers.map p.ref }

/-- A card renamed. -/
def Places.card (p : Places) (c : Card) : Card := { c with fn := p.fn, hum := p.hum c.hum }

/-- An effect that waits for its release, renamed: a card to another function's queue keeps its place. -/
def Places.pend (p : Places) (f : Nat) (x : Pend) : Pend :=
  { x with what := match x.what with
      | .card g c => .card (p.fnOf g) (if c.fn = f then p.card c else c)
      | w => w }

/-- A core renamed. -/
def Places.coreIm (p : Places) (h : Nat) (k : Core) : Core :=
  { k with
    groups := k.groups.map (fun (e : Nat × Group) => (e.1, p.group h e.2))
    slots := k.slots.map (fun (e : Nat × Slot) => (e.1, { e.2 with raised := p.raisedBy e.2.raised }))
    wgs := k.wgs.map (fun (e : Nat × Wg) => (e.1, p.wg h e.2))
    engine := { k.engine with queue := k.engine.queue.map (fun (o : MatOp) => { o with fn := p.fnOf o.fn }) }
    reqs := k.reqs.map (fun (r : Req) => { r with who := p.ref r.who, fn := p.fnOf r.fn })
    outs := k.outs.map (fun (o : Outst) => { o with op := p.memOp o.op })
    pend := k.pend.map (p.pend ((k.wgs.map (fun (e : Nat × Wg) => e.2.fn)).headD 0))
    coal := k.coal.map (fun x => { x with job := p.job h x.job }) }

/-- Entries of four for each context renamed. -/
def renameCtx (f : Nat → Nat) (m : NMap Gbar) : NMap Gbar :=
  m.foldl (fun a (e : Nat × Gbar) => mset a (4 * f (e.1 / 4) + e.1 % 4) e.2) []

/-- A hummock's entries renamed; its coordinates are kept (R397). -/
def Places.humIm (p : Places) (h : Nat) (d : HumImage) : HumImage :=
  { d with
    gbars := renameCtx (p.gctx h) d.gbars
    lbars := renameCtx (p.lctx h) d.lbars
    ctxs := d.ctxs.foldl (fun a (e : Nat × Nat) => mset a (p.lctx h e.1) e.2) []
    enl := d.enl.foldl (fun a (e : Nat × CopyJob) => mset a (p.enl h e.1) (p.job h e.2)) []
    queues := d.queues.map (fun (e : Nat × HwQueue) => (e.1, { e.2 with fn := p.fn })) }

/-- A launch renamed; its identifier is kept (R397). -/
def Places.launch (p : Places) (l : Launch) : Launch :=
  { l with fn := p.fn, hum := p.hum l.hum, rect := l.rect.map p.hum, root := p.hum l.root
           cells := l.cells.map (fun h => if h < 8 then p.hum h else h)
           wgs := l.wgs.map p.ref, fresh := l.fresh.map p.ref }

/-- An image renamed. -/
def Places.image (p : Places) (im : Image) : Image :=
  { im with
    cores := im.cores.foldl (fun a (e : Nat × Core) => mset a (p.core e.1) (p.coreIm (e.1 / 64) e.2)) []
    hums := im.hums.foldl (fun a (e : Nat × HumImage) => mset a (p.hum e.1) (p.humIm e.1 e.2)) []
    launches := im.launches.map (fun (e : Nat × Launch) => (e.1, p.launch e.2))
    cards := im.cards.map p.card
    wins := im.wins.map (fun w => (w.1, w.2.1, { w.2.2 with fn := p.fn })) }

/-! ### Rollback (R372) -/

/-- A logged line takes its old bytes again: a write that the dirty bitmap counts (R394), and that drains the accumulators pending on
the line (R260). -/
def State.undoLine (s : State) (e : Nat × List Byte) : State :=
  let s := (s.dirtyReady (e.1 * 128)).drainFor (e.1 * 128) 128
  let s := s.markDirty (e.1 * 128)
  let s := { s with mem := writeBytes s.mem (e.1 * 128) e.2 }
  (List.range 32).foldl (fun t i => t.setOwner (e.1 * 32 + i) ownHome) s

/-- Every logged line is restored (R372 step 3): the log holds each line once, so the order of restoring is of no
effect. -/
def State.undoLog (s : State) (f : Nat) : State :=
  ((s.fnAt f).ck.logged.foldl (fun t e => t.undoLine e) s).modCk f (fun k => { k with logged := [], blocks := [] })

/-- Remove a function's work and its translations from every unit of the package, whether a core works for it or not (R219, R372
steps 1 and 5); what has left its tray goes on its way (R262, R375). -/
def State.dropWork (s : State) (f : Nat) : State :=
  let mine := fun (w : Walk) => w.fn == f || (s.coreAt w.who.h w.who.c).worksFor f
  let hums := s.hums.map (fun (e : Nat × Hum) =>
    let d := e.2
    (e.1, { d with
      gbars := d.gbars.filter (fun x => !(s.gbarOfFn f e.1 x))
      lbars := d.lbars.filter (fun x => !(s.lbarOfFn f e.1 x))
      ctxs := d.ctxs.filter (fun x => !(s.ctxOfFn f x))
      enl := d.enl.filter (fun x => !(s.jobOfFn f e.1 x))
      wins := d.wins.filter (fun x => !(s.ownWin f x))
      tlb := d.tlb.filter (fun t => t.fn != f)
      wcache := d.wcache.filter (fun (x : Nat × WalkCache) => x.2.fn != f)
      pending := d.pending.filter (fun w => !mine w)
      walks := d.walks.filter (fun w => !mine w)
      replies := d.replies.filter (fun w => !mine w)
      queues := d.queues.map (fun (q : Nat × HwQueue) => if q.2.fn = f then (q.1, { q.2 with busy := none }) else q) }))
  { s with
    cores := s.cores.map (fun (e : Nat × Core) =>
      if e.2.worksFor f then (e.1, e.2.blank) else (e.1, { e.2 with tlb := e.2.tlb.filter (fun (t : Tlb) => t.fn != f) }))
    hums := hums
    launches := s.launches.filter (fun (e : Nat × Launch) => e.2.fn != f)
    cards := s.cards.filter (fun c => c.fn != f || c.onItsWay) }

/-- Put the entries of one map over another. -/
def moverlay {α : Type} (m : NMap α) (es : NMap α) : NMap α := es.foldl (fun m e => mset m e.1 e.2) m

/-- Put a core of an image back; the core's status and watchdog limit stay. -/
def Core.putBack (k : Core) (im : Core) : Core :=
  { im with status := k.status, engine := { im.engine with wdog := k.engine.wdog } }

/-- Put a queue's HEAD and SEQ back: what the driver wrote stays (R372, R375). -/
def HwQueue.putBack (q : HwQueue) (im : HwQueue) : HwQueue := { q with head := im.head, seq := im.seq, busy := im.busy }

/-- Put the queues of an image back, where they still belong to its function (01_machine.md R25). -/
def State.putQueues (s : State) (im : Image) : State :=
  im.hums.foldl (fun t (e : Nat × HumImage) =>
    let d := t.humAt e.1
    t.setHum e.1 { d with queues := e.2.queues.foldl (fun (m : NMap HwQueue) (q : Nat × HwQueue) =>
      let x : HwQueue := mget {} m q.1
      if x.fn = q.2.fn then mset m q.1 (x.putBack q.2) else m) d.queues }) s

/-- Put a function's image back: its state resumes (R372 step 7). -/
def State.putBack (s : State) (im : Image) : State :=
  let s := { s with
    cores := im.cores.foldl (fun (m : NMap Core) (e : Nat × Core) => mset m e.1 ((mget ({} : Core) m e.1).putBack e.2)) s.cores
    launches := moverlay s.launches im.launches
    cards := s.cards ++ im.cards }
  let s := im.hums.foldl (fun t (e : Nat × HumImage) =>
    let d := t.humAt e.1
    t.setHum e.1 { d with
      gbars := moverlay d.gbars e.2.gbars, lbars := moverlay d.lbars e.2.lbars, ctxs := moverlay d.ctxs e.2.ctxs
      enl := moverlay d.enl e.2.enl }) s
  let s := im.wins.foldl (fun t w => t.setHum w.1 { t.humAt w.1 with wins := mset (t.humAt w.1).wins w.2.1 w.2.2 }) s
  s.putQueues im

/-- The image a rollback returns to, with the cards of other functions that arrived since: they are received anew
(R371). -/
def Ckpt.target (k : Ckpt) : Image :=
  let im := k.image.getD {}
  { im with cards := im.cards ++ k.cardsIn.map (fun c => { c with seq := none }) }

/-- Steps 1 to 5 of a rollback: the function's work and translations are gone, the tray is discarded and the log restored (R372). -/
def State.unwind (s : State) (f : Nat) : State :=
  let im := (s.fnAt f).ck.target
  ((s.dropWork f).undoLog f).modCk f (fun k => { k with
    tray := [], state := .run, early := none, cardsIn := [], image := some im
    msgs := k.msgs.filter (fun m => m.1 + 1 == k.seq) })

/-- Where number `x` of an image goes: it stays unless another function has taken it since, and is else the next free number that
the image does not use; none where there is no such number. -/
def rehome (olds : List Nat) (limit : Nat) (used : Nat → Bool) (x : Nat) : Option Nat :=
  if used x then
    let free := (List.range limit).filter (fun i => !used i && !olds.contains i)
    ((olds.filter used).findIdx? (· == x)).bind (fun i => free[i]?)
  else some x

/-- The gang contexts that the workgroups of an image use on a hummock. -/
def Image.gctxs (im : Image) (h : Nat) : List Nat :=
  ((im.cores.filter (fun (e : Nat × Core) => e.1 / 64 == h)).flatMap (fun e =>
    e.2.wgs.map (fun (w : Nat × Wg) => w.2.gctx))).eraseDups

/-- Whether a workgroup of the package uses a gang context of a hummock. -/
def State.gctxUsed (s : State) (h g : Nat) : Bool :=
  (List.range 64).any (fun c => (s.coreAt h c).wgs.any (fun (w : Nat × Wg) => w.2.gctx == g))

/-- A sedge on which a function's gangs may be placed: owned, and not under a scrub (16_tenants.md R378, R387). -/
def State.sedgeOpen (s : State) (h f i : Nat) : Bool :=
  let d := s.humAt h
  (d.regs.partAt f).en && (d.regs.partAt f).sedge.testBit i && !(d.scrub.busy && d.scrub.sedges.testBit i)

/-- Whether the sedges on which an image's cores are to stand are open. -/
def State.coresOpen (s : State) (f : Nat) (im : Image) (core : Nat → Nat) : Bool :=
  im.cores.all (fun (e : Nat × Core) => s.sedgeOpen (core e.1 / 64) f (core e.1 % 64 / 8))

/-- The places to which an image returns on its own cores: each context and Enlarger entry keeps its number, unless another function
holds it now (01_machine.md R25); none where a hummock has none left. -/
def State.returnPlaces (s : State) (f : Nat) (im : Image) : Option Places :=
  let g := fun (h : Nat) => rehome (im.gctxs h) 512 (s.gctxUsed h)
  let l := fun (h : Nat) => rehome ((mget {} im.hums h).ctxs.map Prod.fst) 16 (fun c => (mfind (s.humAt h).ctxs c).isSome)
  let e := fun (h : Nat) => rehome ((mget {} im.hums h).enl.map Prod.fst) 2048 (fun i => (mfind (s.humAt h).enl i).isSome)
  if im.hums.all (fun x => (im.gctxs x.1).all (fun i => (g x.1 i).isSome)
      && x.2.ctxs.all (fun i => (l x.1 i.1).isSome) && x.2.enl.all (fun i => (e x.1 i.1).isSome)) then
    some {
      fn := f, hum := id, core := id, gctx := fun h i => (g h i).getD i, lctx := fun h i => (l h i).getD i
      enl := fun h i => (e h i).getD i }
  else none

/-- The launches of an image complete with a status, and nothing of them is placed (R375, R396). -/
def State.endImage (s : State) (im : Image) (status : Nat) : State :=
  { s with launches := im.launches.foldl (fun m (e : Nat × Launch) =>
      mset m e.1 { e.2 with phase := .ended, status := some status, wgs := [], fresh := [], rect := [] }) s.launches }

/-- A function's image as it returns: without the cards that are received anew. -/
def Image.kept (im : Image) : Image := { im with cards := im.cards.filter (fun c => !c.onItsWay) }

/-- The launches of a function's image end with a status, and nothing of it is left. -/
def State.dropImage (s : State) (f status : Nat) : State :=
  (s.endImage ((s.fnAt f).ck.image.getD {}) status).modCk f (fun k => { k with image := some {} })

/-- Steps 6 and 7 of a rollback (R372): the image is put back, and the messages recorded in the checkpoint are delivered again (R371).
Where the partition no longer has the sedges, or they are under a scrub, its launches complete with RESTORE_SHAPE, and where it has no
room left, with RESTORE_CAPACITY (R375, 16_tenants.md R387). -/
def State.resumeImage (s : State) (f : Nat) : State :=
  let im := (s.fnAt f).ck.image.getD {}
  if !(s.coresOpen f im id) then s.dropImage f 12
  else match s.returnPlaces f im with
  | some p =>
    let im := p.image im
    ((s.putBack im).modCk f (fun k => { k with image := some im.kept })).deliverAll f (s.fnAt f).ck.msgs
  | none => s.dropImage f 13

/-- Roll a function back to its latest committed checkpoint (R372). -/
def State.rollback (s : State) (f : Nat) : State := (s.unwind f).resumeImage f

/-- Pre-empt a function: rolled back without resuming.  The image area then holds its complete state, with the messages delivered,
and its work leaves every unit (R373). -/
def State.preempt (s : State) (f : Nat) : State :=
  let s := s.rollback f
  let im := s.capture f
  ((s.writeImage f im).dropWork f).modCk f (fun k => { k with
    out_ := true, state := .run, image := some im, logged := [], blocks := [], msgs := [] })

/-- The rollback of a pre-empted function has ended (R373). -/
def State.preemptDone (s : State) (f : Nat) : State := if (s.fnAt f).ck.state == .leave then s.preempt f else s

/-- A write of PREGO (R373): refused without checkpointing; otherwise the function's groups and operations stop, its checkpoint in
progress is abandoned (Table 15.5), and its rollback follows. -/
def State.prego (s : State) (vf : Nat) : State :=
  let k := (s.fnAt vf).ck
  if !k.en || vf = 0 then { s with pkg := { s.pkg with refused := true } }
  else if k.out_ then s
  else s.modCk vf (fun k => { k with state := .leave })

/-- A write of PREGO (R373). -/
def execPrego (vf : Nat) (s : State) : Out := .next (s.prego vf)

/-- A write of KILLGO ends launches with KILLED (R373): the one of an identifier, or every one of the function. -/
def State.killgo (s : State) (vf id : Nat) : State :=
  (s.launches.filter (fun (e : Nat × Launch) => e.2.fn == vf && (id == 0 || e.1 == id))).foldl
    (fun t (e : Nat × Launch) => if (t.launchAt e.1).phase == .ended then t else t.endLaunch e.1 stKilled) s

/-- A write of KILLGO (R373). -/
def execKillgo (vf id : Nat) (s : State) : Out := .next (s.killgo vf id)

/-! ### Loss of a path or an engine (R347, R374, R398) -/

/-- Whether a function is checkpointed: what it loses is rolled back. -/
def State.rollsBack (s : State) (f : Nat) : Bool := (s.fnAt f).ck.en && f != 0

/-- A launch is lost: its function rolls back where it is checkpointed, else the launch ends with a status (R398). -/
def State.lose (s : State) (l status : Nat) : State :=
  let f := (s.launchAt l).fn
  if s.rollsBack f then s.rollback f else s.endLaunch l status

/-- A launch takes a status, and places no further gang (notes/assumptions 21): what is left of a gang that has no threads yet goes
on to get them. -/
def Launch.hurt (x : Launch) (status : Nat) (gone : List GRef) : Launch :=
  let fresh := x.fresh.filter (fun (r : GRef) => !gone.contains r)
  { x with
    wgs := x.wgs.filter (fun (r : GRef) => !gone.contains r), fresh := fresh
    phase := if x.phase = .ended then .ended else if fresh.isEmpty then .running else x.phase
    status := some (x.status.getD status) }

/-- Some workgroups of a launch end abnormally; the others go on, and find their shared barriers broken (R278, R347, R374, R377). -/
def State.endSome (s : State) (l status : Nat) (who : GRef → Bool) : State :=
  let x := s.launchAt l
  let gone := x.wgs.filter who
  let root := s.rootLaunch l
  let s := gone.foldl (fun t r => t.endWgAbnormal r) s
  let s := s.setLaunch l (x.hurt status gone)
  if root = l then s else s.setLaunch root { s.launchAt root with status := some ((s.launchAt root).status.getD status) }

end Sys2Proof.Machine
end

