-- ==== Sys2Proof/Machine/Blocks.lean ====
section
/-! DEFINITION. The 128-byte blocks of the map windows that a step writes, and their entries in the undo log of a checkpointed
function (15_traps_preemption.md R368). -/

namespace Sys2Proof.Machine

/-! ### What differs between two states -/

/-- The numbers whose entries differ in two maps in rising order; `n` bounds the entries still to compare. -/
def changedGo {α : Type} [DecidableEq α] : Nat → NMap α → NMap α → List Nat
  | 0, _, _ => []
  | _ + 1, [], m => m.map Prod.fst
  | _ + 1, m, [] => m.map Prod.fst
  | n + 1, (i, x) :: m, (j, y) :: m' =>
    if i < j then i :: changedGo n m ((j, y) :: m')
    else if j < i then j :: changedGo n ((i, x) :: m) m'
    else if x = y then changedGo n m m'
    else i :: changedGo n m m'

/-- The numbers whose entries differ in two maps. -/
def changed {α : Type} [DecidableEq α] (m m' : NMap α) : List Nat := changedGo (m.length + m'.length + 1) m m'

/-- The spans of numbers from each of some bases. -/
def spans (n : Nat) (is : List Nat) : List Nat := is.flatMap (fun i => (List.range n).map (fun j => n * i + j))

/-- Whether two cores have their workgroups in the same places. -/
def samePlaces (k k' : Core) : Bool :=
  k.wgs.map (fun (e : Nat × Wg) => (e.1, e.2.rbase, e.2.lim, e.2.n)) == k'.wgs.map (fun (e : Nat × Wg) => (e.1, e.2.rbase, e.2.lim, e.2.n))

/-- The slots of the threads of some groups of a core. -/
def Core.slotsIn (k : Core) (gs : List Nat) : List Nat :=
  gs.flatMap (fun g => ((mget {} k.groups g).roster).map Prod.snd)

/-- The blocks of a core's window that can differ between two states of the core. -/
def blocksOf (k k' : Core) (code : Nat) : List Nat :=
  let gs := changed k.groups k'.groups
  let ws := changed k.wgs k'.wgs
  match code with
  | 0x00 => if samePlaces k k' then (changed k.rf k'.rf).map (· / 32) else List.range 2048
  | 0x01 => (changed k.scratch k'.scratch).map (· / 128)
      ++ (if k.engine.queue = k'.engine.queue then []
          else (List.range Config.scratchLines).filter (fun l => k.engine.stages l != k'.engine.stages l))
      ++ (if k.absent = k'.absent then [] else [0x2000, 0x2001, 0x2002])
  | 0x02 => (changed k.engine.acc k'.engine.acc).map (· / 32) ++ (if k.engine.flags = k'.engine.flags then [] else [0x2000])
  | 0x03 => (changed k.engine.live k'.engine.live).map (· / 128) ++ (changed k.engine.shadow k'.engine.shadow).map (0x100 + · / 128)
  | 0x04 => spans 32 (changed k.engine.side k'.engine.side)
  | 0x05 => (changed k.wbars k'.wbars).map (· / 8)
  | 0x06 => ws
  | 0x07 => (changed k.slots k'.slots ++ k.slotsIn gs ++ k'.slotsIn gs).map (· / 8)
  | 0x08 => if k.bins = k'.bins && k.slots = k'.slots then [] else List.range 8
  | 0x09 => gs.map (· / 2)
  | 0x0A => if k.slots = k'.slots && ws.isEmpty then spans 4 gs else List.range 256
  | 0x0B => spans 128 ws
  | 0x0C => if k.tlb = k'.tlb then [] else List.range 16
  | 0x0D => if k.engine = k'.engine then [] else [0]
  | _ => []

/-- The blocks of a base die's window with a function's entries that can differ between two states. -/
def State.baseBlocks (s t : State) (f h code : Nat) : List Nat :=
  let a := s.humImage f h
  let b := t.humImage f h
  match code with
  | 0x10 => (changed a.gbars b.gbars).map (· / 8) ++ (changed a.lbars b.lbars).map (0x100 + · / 8)
  | 0x13 =>
    spans 16 (changed a.queues b.queues
      ++ (if s.launches = t.launches then [] else (b.queues.filter (fun (q : Nat × HwQueue) => q.2.busy.isSome)).map Prod.fst))
  | 0x14 => (changed a.enl b.enl).map (· / 4)
  | _ => []

/-- The unit at an offset of a core's or a base die's window; none where it holds nothing that the spec names. -/
def State.windowUnit (s : State) (h c code o : Nat) : Option Nat :=
  if code < 0x10 then s.coreUnit true h c code o else s.baseUnit true h code o

/-- The blocks of a window, of some that can differ, that do, by map address / 128. -/
def State.differing (s t : State) (h c code : Nat) (bs : List Nat) : List Nat :=
  (bs.eraseDups.filter (fun b => decide (128 * b < 2 ^ 28) && (List.range 16).any (fun i =>
      s.windowUnit h c code (128 * b + 8 * i) != t.windowUnit h c code (128 * b + 8 * i)))).map
    (fun b => (t.mapBase h c + code * 2 ^ 28) / 128 + b)

/-- The blocks of a function's windows that a step from `s` to `t` wrote: what the passing of time changes is no write. -/
def State.writtenBlocks (s t : State) (f : Nat) : List Nat :=
  let s := { s with uc := t.uc, freeCtr := t.freeCtr }
  ((List.range 8).filter (fun h => t.inPartition h f)).flatMap (fun h =>
    ((List.range 64).filter (fun c => t.coreOf f h c && s.coreAt h c != t.coreAt h c)).flatMap (fun c =>
        (List.range 0x0E).flatMap (fun code => s.differing t h c code (blocksOf (s.coreAt h c) (t.coreAt h c) code)))
      ++ [0x10, 0x13, 0x14].flatMap (fun code => s.differing t h 63 code (s.baseBlocks t f h code)))

/-! ### Their entries in the undo log -/

/-- Record the old bytes of a block in a function's undo log, once in an interval: an entry of kind 1 (R368); `s` is the state
before the step. -/
def State.logBlock (s t : State) (f b : Nat) : State :=
  let x := t.fnAt f
  if x.ck.blocks.contains b then t
  else
    let u := t.logReady f (b / 2 ^ 32 % 8)
    (u.setFn f { u.fnAt f with ck := { x.ck with blocks := x.ck.blocks ++ [b] } }).putLog f x.ck.entries 1 (128 * b)
      ((List.range 128).map (fun i => s.mapByteAt true (128 * b + i)))

/-- Whether a function is checkpointed before and after a step that neither commits nor rolls it back. -/
def State.keepsInterval (s t : State) (f : Nat) : Bool :=
  let k := (s.fnAt f).ck
  let k' := (t.fnAt f).ck
  f != 0 && k.en && k'.en && k.seq == k'.seq && !k'.out_ && decide (k.entries ≤ k'.entries)

/-- Whether a move of the agenda is a write of the host: no such write is logged (R368). -/
def Move.hostWrite : Move → Bool
  | .event (.hostApertureWrite _ _ _ _ _) => true
  | .event (.hostMapWrite _ _) => true
  | .event (.hostDoorbell _ _ _ _) => true
  | .event (.registerWrite _ _ _) => true
  | _ => false

/-- Whether a step from `s` to `t` makes an access of the host, one that the agenda names or one that waited. -/
def State.hostMoved (s t : State) : Bool :=
  decide (t.pkg.held.length < s.pkg.held.length) || (match s.agenda with
    | m :: _ => m.hostWrite
    | [] => false)

/-- After a step from `s` to `t`, the blocks that it wrote are in the undo logs, unless the host wrote them (R368). -/
def State.logBlocks (s t : State) : State :=
  if s.hostMoved t then t
  else (t.fns.filter (fun (e : Nat × Fn) => s.keepsInterval t e.1)).foldl
    (fun u (e : Nat × Fn) => (s.writtenBlocks t e.1).foldl (fun u b => s.logBlock u e.1 b) u) t

end Sys2Proof.Machine
end

