-- ==== Sys2Proof/Machine/Image.lean ====
section
/-! DEFINITION. Device reads of a function's memory, and reading a launch record and a kernel image
(02_words_and_assembly.md R60 to R62; 07_work_creation.md R163). -/

namespace Sys2Proof.Machine

/-- Log a line request to an unassigned address (17_device_boundary.md R411). -/
def State.logUnassigned (s : State) (h line : Nat) : State :=
  if s.assigned (line * 128) then s else s.logErr 0 3 h (line * 128) 0

/-- The lines of `n` bytes at an address. -/
def spanLines (a n : Nat) : List Nat := if n = 0 then [] else (List.range ((a + n - 1) / 128 + 1 - a / 128)).map (fun i => a / 128 + i)

/-- What a device unit gets: a value, nothing yet while an entry it needs is being changed (R222), or none. -/
inductive Got (α : Type) where
  | ok (x : α)
  | hold
  | none

/-- Go on with what a device unit got. -/
def Got.bind {α β : Type} (r : State × Got α) (f : State → α → State × Got β) : State × Got β :=
  match r.2 with
  | .ok x => f r.1 x
  | .hold => (r.1, .hold)
  | .none => (r.1, .none)

/-- Go on where a condition holds. -/
def Got.check {β : Type} (s : State) (c : Bool) (f : Unit → State × Got β) : State × Got β := if c then f () else (s, .none)

/-- What a read of bytes within a page finds at the homes: the bytes, a path that the crossbar denies (R380), a poisoned or
unassigned line (R204, R411), a fenced link on the way (R398), or a home that cannot take it now (R212, R214). -/
inductive SpanRead where
  | bytes (bs : List Byte)
  | refused
  | poisoned
  | lost
  | hold

/-- Read `n` bytes at a host-physical address within a page under its translation, for function `f` entering hummock `h` at port
`i`; a denied path is logged (R380), and so is an unassigned line (R411). -/
def State.readSpan (s : State) (h f i : Nat) (t : Tlb) (a n : Nat) : State × SpanRead :=
  let ls := spanLines a n
  match ls.find? (fun l => !(s.pathOk f h i (s.homeOf t (l * 128)))) with
  | some l => (s.logErr 0 4 h (portPair i (s.portOfHome h (s.homeOf t (l * 128)))) f, .refused)
  | none =>
    if ls.any (fun l => s.overFenced { s.unitReq h f 0 (l * 128) with home := (s.homeOf t (l * 128)).1 }) then (s, .lost)
    else if ls.any (fun l => s.homeHolds (s.homeOf t (l * 128)) (l * 128)) then (s, .hold)
    else
    let s := ls.foldl (fun t l => t.logUnassigned h l) s
    if ls.any (fun l => s.linePoison l) then (s, .poisoned)
    else
      let s := ls.foldl (fun u l => u.l2At f t (l * 128) false) (s.drainFor a n)
      (s, .bytes (readBytes s.mem a n))

/-- The dispatcher's requester port (01_machine.md Table 1.2). -/
def dispatcherPort : Nat := 15

/-- Read `n` bytes of a function's memory page by page, at most `k` pages. -/
def State.devReadGo (h f : Nat) : Nat → State → Nat → Nat → List Byte → State × Got (List Byte)
  | 0, s, _, _, acc => (s, .ok acc)
  | k + 1, s, va, n, acc =>
    if n = 0 then (s, .ok acc)
    else
      let m := min n (65536 - va % 65536)
      match s.devWalk h f va { r := true } with
      | (s, .denied) => (s, .none)
      | (s, .lost) => (s, .none)
      | (s, .hold) => (s, .hold)
      | (s, .ok t) =>
        match s.readSpan h f dispatcherPort t (t.hpa va) m with
        | (s, .bytes bs) => State.devReadGo h f k s (va + m) (n - m) (acc ++ bs)
        | (s, .hold) => (s, .hold)
        | (s, _) => (s, .none)

/-- Read `n` bytes of a function's memory through its own translation for the dispatcher; none where a page does not translate, a
line is poisoned or its path is denied. -/
def State.devRead (s : State) (h f va n : Nat) : State × Got (List Byte) :=
  State.devReadGo h f (n / 65536 + 2) s va n []

/-- Whether each page of a range translates for a read (R62), at most `k` pages. -/
def State.pagesOk (h f : Nat) : Nat → State → Nat → State × Got Unit
  | 0, s, _ => (s, .ok ())
  | k + 1, s, va =>
    match s.devWalk h f va { r := true } with
    | (s, .denied) => (s, .none)
    | (s, .lost) => (s, .none)
    | (s, .hold) => (s, .hold)
    | (s, .ok _) => State.pagesOk h f k s (va + 65536)

/-- The number in `n` bytes of a list at an offset. -/
def fieldAt (bs : List Byte) (o n : Nat) : Nat := leNat ((bs.drop o).take n)

/-! ### The kernel image (R60 to R62) -/

/-- What the header of an image gives. -/
structure ImageHead where
  count : Nat := 0
  len   : Nat := 0
  table : Nat := 0
  data  : Nat := 0

/-- The entries of a table: the bytes of each. -/
def entriesOf (bs : List Byte) (n size : Nat) : List (List Byte) :=
  (List.range n).map (fun i => (bs.drop (i * size)).take size)

/-- Whether the first components of a list are distinct (R62: "two entries name the same record, barrier, channel or
card"). -/
def distinct : List Nat → Bool
  | [] => true
  | x :: xs => !xs.contains x && distinct xs

/-- A range entry (Table 2.20): record, mode, base, stride, extent; `data` is the address of the data section. -/
def rangeOf (data : Nat) (e : List Byte) : Nat × Nat × Nat × Nat × Nat :=
  (fieldAt e 0 1, fieldAt e 1 1, fieldAt e 8 8 + (if fieldAt e 2 1 % 2 = 1 then data else 0), fieldAt e 16 4, fieldAt e 20 4)

/-- A range entry within its limits (Table 2.17).  Flag bits 7:1 that are not zero complete with BAD_RECORD: DESIGN CHOICE, R62's list
does not name them (notes/assumptions 58). -/
def rangeOk (e : List Byte) : Bool :=
  decide (fieldAt e 0 1 < 32) && decide (1 ≤ fieldAt e 1 1) && decide (fieldAt e 1 1 ≤ 3) && decide (fieldAt e 2 1 < 2)
    && decide (fieldAt e 8 8 < 2 ^ 52) && decide (1 ≤ fieldAt e 16 4) && decide (fieldAt e 16 4 < 2 ^ 24)
    && decide (1 ≤ fieldAt e 20 4)

/-- A kernel's descriptor and tables as a record (Tables 2.19, 2.20). -/
def kernelOf (data : Nat) (d : List Byte) (rs bs chs cds : List (List Byte)) : Kernel :=
  { codeOff := fieldAt d 0 8, codeSize := fieldAt d 8 4, regs := fieldAt d 0x0C 2, wg := fieldAt d 0x0E 2
    gang := fieldAt d 0x10 1, holds := bitOf (fieldAt d 0x11 1) 0, nonced := bitOf (fieldAt d 0x11 1) 1
    prio := fieldAt d 0x12 1, rectW := fieldAt d 0x14 2, rectH := fieldAt d 0x16 2, binAge := fieldAt d 0x18 2
    resHbm := fieldAt d 0x1A 2, resFab := fieldAt d 0x1C 2, resMesh := fieldAt d 0x1E 2
    nonce := (d.drop 0x20).take 32
    ranges := rs.map (rangeOf data)
    bars := bs.map (fun e => (fieldAt e 0 1, fieldAt e 4 4))
    chans := chs.map (fun e => (fieldAt e 0 1, fieldAt e 1 1, fieldAt e 8 4, fieldAt e 12 4))
    cards := cds.map (fun e => (fieldAt e 0 1, fieldAt e 2 2))
    consts := (List.range 64).map (fun i => BitVec.ofNat 32 (fieldAt d (0x100 + 4 * i) 4)) }

/-- Every field of a kernel lies within its limits (R62, Table 2.17); `gangs` is the launch's.  A code offset or size that is no
multiple of 8, and a barrier with more members than .wg, complete with BAD_RECORD: DESIGN CHOICE, R62's list names neither
(notes/assumptions 58). -/
def Kernel.ok (k : Kernel) (h : ImageHead) (gangs : Nat) : Bool :=
  k.codeOff % 8 == 0 && k.codeSize % 8 == 0 && decide (k.codeOff + k.codeSize ≤ h.len)
    && decide (8 ≤ k.regs) && decide (k.regs ≤ 256) && k.regs % 8 == 0
    && decide (1 ≤ k.wg) && decide (k.wg ≤ 1024) && decide (k.wg * k.regs ≤ 65536)
    && decide (1 ≤ k.gang) && decide (k.gang ≤ 12)
    && decide (1 ≤ k.rectW) && decide (1 ≤ k.rectH) && decide (k.rectW * k.rectH ≤ 512)
    && decide (16 ≤ k.binAge) && decide (k.binAge ≤ 4096)
    && decide (k.resHbm ≤ 256) && decide (k.resFab ≤ 256) && decide (k.resMesh ≤ 256)
    && distinct (k.ranges.map (fun r => r.1))
    && k.bars.all (fun b => decide (b.1 < 24) && decide (1 ≤ b.2) && decide (b.2 ≤ k.wg)
        && (decide (b.1 < 20) || decide (b.2 * k.gang * gangs < 2 ^ 32)))
    && distinct (k.bars.map (fun b => b.1))
    && k.chans.all (fun c => decide (c.1 < 16) && decide (1 ≤ c.2.1) && decide (c.2.1 ≤ 64)
        && decide (c.2.2.1 < gangs * k.gang) && decide (c.2.2.2 < gangs * k.gang))
    && distinct (k.chans.map (fun c => c.1))
    && k.cards.all (fun c => decide (c.1 < 64) && decide (c.2 < h.count))
    && distinct (k.cards.map (fun c => c.1))

/-- Read a table of `n` entries that must lie within the image (R62). -/
def State.readTable (s : State) (q f img : Nat) (h : ImageHead) (n size off : Nat) : State × Got (List (List Byte)) :=
  Got.check s (decide (off + n * size ≤ h.len))
    (fun _ => Got.bind (s.devRead q f (img + off) (n * size)) (fun s bs => (s, .ok (entriesOf bs n size))))

/-- The counts of a descriptor's tables lie within their limits (Table 2.19). -/
def countsOk (d : List Byte) : Bool :=
  decide (fieldAt d 0x40 1 ≤ 32) && decide (fieldAt d 0x41 1 ≤ 24) && decide (fieldAt d 0x42 1 ≤ 16) && decide (fieldAt d 0x43 1 ≤ 64)

/-- Read kernel `i` of an image with its tables; none where it is not well formed, or where a card of it names the kernel itself
(R62, Table 2.17). -/
def State.readKernel (s : State) (q f img : Nat) (h : ImageHead) (gangs i : Nat) : State × Got Kernel :=
  Got.check s (decide (i < h.count))
    (fun _ => Got.bind (s.devRead q f (img + h.table + 512 * i) 512) (fun s d =>
      Got.check s (countsOk d)
        (fun _ => Got.bind (s.readTable q f img h (fieldAt d 0x40 1) 32 (fieldAt d 0x48 8)) (fun s rs =>
          Got.bind (s.readTable q f img h (fieldAt d 0x41 1) 8 (fieldAt d 0x50 8)) (fun s bs =>
            Got.bind (s.readTable q f img h (fieldAt d 0x42 1) 16 (fieldAt d 0x58 8)) (fun s chs =>
              Got.bind (s.readTable q f img h (fieldAt d 0x43 1) 8 (fieldAt d 0x60 8)) (fun s cds =>
                let k := kernelOf (img + h.data) d rs bs chs cds
                Got.check s (k.ok h gangs && rs.all rangeOk && k.cards.all (fun c => c.2 != i)) (fun _ => (s, .ok k)))))))))

/-- The kernels that a kernel's cards name: each with `.rect` 1, 1 and no launch barrier (R62). -/
def State.readCards (q f img : Nat) (h : ImageHead) : List Nat → State → NMap Kernel → State × Got (NMap Kernel)
  | [], s, acc => (s, .ok acc)
  | i :: is, s, acc =>
    Got.bind (s.readKernel q f img h 1 i) (fun s k =>
      if k.rectW = 1 && k.rectH = 1 && k.bars.all (fun b => decide (b.1 < 20)) then
        State.readCards q f img h is s (mset acc i k)
      else (s, .none))

/-- Read an image's header (Table 2.18) and check that its tables lie within its length and each page of it translates (R62).  A
data section beyond the length completes the record with BAD_RECORD too: DESIGN CHOICE, R62's list does not name it
(notes/assumptions 58). -/
def State.readHead (s : State) (q f img : Nat) : State × Got ImageHead :=
  Got.bind (s.devRead q f img 64) (fun s b =>
    let h : ImageHead := { count := fieldAt b 6 2, len := fieldAt b 8 8, table := fieldAt b 16 8, data := fieldAt b 24 8 }
    Got.check s (fieldAt b 0 4 == 0x4D494B53 && fieldAt b 4 2 == 1 && decide (h.table + 512 * h.count ≤ h.len)
        && decide (h.data + fieldAt b 32 8 ≤ h.len) && decide (img + h.len ≤ 2 ^ 52))
      (fun _ => Got.bind (State.pagesOk q f ((img % 65536 + h.len + 65535) / 65536) s (img / 65536 * 65536)) (fun s _ => (s, .ok h))))

/-- Read a launch's kernel and the kernels of its cards; none means BAD_RECORD (R62). -/
def State.readImage (s : State) (q f img gangs kidx : Nat) : State × Got (Kernel × NMap Kernel) :=
  Got.bind (s.readHead q f img) (fun s h =>
    Got.bind (s.readKernel q f img h gangs kidx) (fun s k =>
      Got.bind (State.readCards q f img h (k.cards.map (fun c => c.2)) s []) (fun s cs => (s, .ok (k, cs)))))

/-! ### Launch records (R163, Table 7.6) -/

/-- The launch of a record, before its kernel is read. -/
def launchOf (f h q : Nat) (r : List Byte) : Launch :=
  { fn := f, hum := h, queue := q, image := fieldAt r 0 8, gangs := fieldAt r 8 4, slotLim := fieldAt r 0x0C 2
    cardq := fieldAt r 0x0E 2, units := fieldAt r 0x10 2, kidx := fieldAt r 0x12 2
    origin := if fieldAt r 0x14 2 = 0xFFFF then none else some (fieldAt r 0x14 2, fieldAt r 0x16 2)
    compl := fieldAt r 0x18 8 }

/-- The record's fields are within their limits and its reserved bytes are zero (Table 7.6). -/
def recordOk (r : List Byte) : Bool :=
  fieldAt r 0 8 % 4096 == 0 && decide (fieldAt r 0 8 < 2 ^ 52)
    && decide (1 ≤ fieldAt r 8 4) && decide (fieldAt r 8 4 < 2 ^ 24)
    && (decide (fieldAt r 0x0E 2 < 128) || fieldAt r 0x0E 2 == 0xFFFF)
    && decide (fieldAt r 0x10 2 ≤ 96)
    && (fieldAt r 0x14 2 == 0xFFFF) == (fieldAt r 0x16 2 == 0xFFFF)
    && fieldAt r 0x18 8 % 16 == 0
    && ((r.drop 0x20).take 32).all (fun b => b == 0)

/-- The slots of each workgroup of a launch (R144, Table 7.6). -/
def Launch.slots (l : Launch) : Nat := if l.slotLim = 0 then l.kernel.wg else l.slotLim

/-- The slot limit fits the kernel (Table 7.6). -/
def Launch.slotsOk (l : Launch) : Bool :=
  decide (l.kernel.wg ≤ l.slots) && decide (l.slots ≤ 1024) && decide (l.slots * l.kernel.regs ≤ 65536)

/-- A launch that completes with a status before it runs. -/
def Launch.failed (l : Launch) (status : Nat) : Launch := { l with phase := .ended, status := some status }

/-- The launch of a record with its kernel read, or one that completes with BAD_RECORD. -/
def State.readLaunch (s : State) (f h q : Nat) (r : List Byte) : State × Got Launch :=
  let l := launchOf f h q r
  if recordOk r then
    match s.readImage h f l.image l.gangs l.kidx with
    | (s, .none) => (s, .ok (l.failed stBadRecord))
    | (s, .hold) => (s, .hold)
    | (s, .ok k) =>
      let l := { l with kernel := k.1, cardKernels := k.2 }
      (s, .ok (if l.slotsOk then l else l.failed stBadRecord))
  else (s, .ok (l.failed stBadRecord))

/-- Change a hardware queue. -/
def State.modQueue (s : State) (h q : Nat) (f : HwQueue → HwQueue) : State :=
  s.setHum h { s.humAt h with queues := mset (s.humAt h).queues q (f (mget {} (s.humAt h).queues q)) }

/-- The dispatcher may take work for a function: bring-up has ended, the domain's time is set, and the function is in service
and not stopped for a checkpoint (R370, R405, R427). -/
def State.mayDispatch (s : State) (f : Nat) : Bool :=
  s.pkg.up && s.pkg.domrdy && (s.fnAt f).ck.state == .run && !(s.fnAt f).ck.out_

/-- The record `n` of a queue becomes a launch, which then holds the queue. -/
def State.takeRecord (s : State) (h q n : Nat) (x : Launch) : State :=
  let id := s.pkg.nextId
  let s := s.setLaunch id x
  let s := { s with pkg := { s.pkg with nextId := id + 1 } }
  s.modQueue h q (fun y => { y with head := (n + 1) % 2 ^ (y.size + 6), busy := some id })

/-- The dispatcher takes the record at the HEAD of a queue (R163, R165): an unreadable entry is logged and skipped, and one whose
translation is being changed is read later (R222). -/
def execLaunchRecordTake (h q : Nat) (s : State) : Out :=
  let x := mget {} (s.humAt h).queues q
  if x.en && !x.cardq && x.busy.isNone && x.head != x.tail && s.mayDispatch x.fn then
    let n := x.head
    match s.devRead h x.fn (x.base / 4096 * 4096 + 64 * n) 64 with
    | (_, .hold) => .next s
    | (t, .none) =>
      let t := t.modQueue h q (fun y => { y with head := (n + 1) % 2 ^ (y.size + 6) })
      .next (t.logErr x.fn 11 h n 0)
    | (t, .ok r) =>
      match t.readLaunch x.fn h q r with
      | (t, .ok l) => .next (t.takeRecord h q n l)
      | _ => .next s
  else .next s

end Sys2Proof.Machine
end

