-- ==== Sys2Proof/Machine/Launch.lean ====
section
/-! DEFINITION. The dispatcher: the steps of a launch, job-card tasks, and the ends of workgroups and launches
(07_work_creation.md R160 to R168; 15_traps_preemption.md R376). -/

namespace Sys2Proof.Machine

/-! ### Step 1: the rectangle (R166) -/

/-- The valid hummocks of the logical mesh with their coordinates: the package's, then those of the other packages of its domain,
each with 8 added to its physical number (R404; notes/assumptions 9). -/
def State.meshHums (s : State) : List (Nat × Nat × Nat) :=
  ((List.range 8).filter s.lvalid).map (fun h => (h, s.lx h, s.ly h))
    ++ (if s.pkg.domen then (List.range 512).filterMap (fun p =>
          if p / 8 = s.pkg.pkgnum || !(Config.inDomain (p / 8)) then none
          else (Config.farHum p).map (fun c => (8 + p, c.1, c.2)))
        else [])

/-- Whether a hummock of the mesh lies in a function's partition. -/
def State.mayClaim (s : State) (f h : Nat) : Bool := if h < 8 then s.inPartition h f else Config.farAnswer (h - 8) 0 f 0

/-- The one valid hummock with logical coordinates, if it lies in a function's partition (R166). -/
def State.cell (s : State) (f x y : Nat) : Option Nat :=
  match s.meshHums.filter (fun e => e.2.1 == x && e.2.2 == y) with
  | [e] => if s.mayClaim f e.1 then some e.1 else none
  | _ => none

/-- The hummocks of a rectangle in row-major order, if it is admissible (R166). -/
def State.rectangle (s : State) (f w ht : Nat) (o : Nat × Nat) : Option (List Nat) :=
  ((List.range ht).flatMap (fun y => (List.range w).map (fun x => (o.1 + x, o.2 + y)))).foldl
    (fun r p => match r, s.cell f p.1 p.2 with
      | some hs, some h => some (hs ++ [h])
      | _, _ => none) (some [])

/-- The origins the dispatcher considers, in row-major order (R166). -/
def State.origins (s : State) : List (Nat × Nat) :=
  let at_ := s.meshHums.map (fun e => e.2)
  (sortBy id (at_.map (fun e => e.2 * 256 + e.1))).map (fun n => (n % 256, n / 256))

/-- The lowest free launch context of a hummock, DESIGN CHOICE, since the spec does not say which (notes/assumptions 57). -/
def State.freeCtx (s : State) (h : Nat) : Option Nat :=
  (List.range 16).find? (fun c => (mfind (s.humAt h).ctxs c).isNone)

/-- Whether a hummock of a rectangle has a free context for a launch. -/
def State.hasRoom (s : State) (l h : Nat) : Bool :=
  if h < 8 then (s.freeCtx h).isSome else Config.farAnswer (h - 8) 1 l s.chipTime

/-- Whether a card queue qualifies (Table 7.6). -/
def HwQueue.takesCards (q : HwQueue) (f : Nat) : Bool := q.en && q.cardsOf f

/-- Whether the card queue of a number qualifies on a hummock of a rectangle. -/
def State.cardQueueOk (s : State) (f q h : Nat) : Bool :=
  if h < 8 then (mget ({} : HwQueue) (s.humAt h).queues q).takesCards f else Config.farAnswer (h - 8) 2 f 0

/-- The admissible rectangles of a launch, in the order they are tried. -/
def State.candidates (s : State) (x : Launch) : List (List Nat) :=
  (match x.origin with
   | some o => [o]
   | none => s.origins).filterMap (fun o => s.rectangle x.fn x.kernel.rectW x.kernel.rectH o)

/-- Take a launch context on each hummock of a rectangle. -/
def State.takeCtxs (s : State) (l : Nat) (hs : List Nat) : State :=
  hs.foldl (fun t h => match t.freeCtx h with
    | some c => t.setHum h { t.humAt h with ctxs := mset (t.humAt h).ctxs c l }
    | none => t) s

/-- Step 1: claim the rectangle (R165, R166). -/
def execRectClaim (l : Nat) (s : State) : Out :=
  let x := s.launchAt l
  if x.phase == .claim && (mfind s.launches l).isSome && s.mayDispatch x.fn then
    match s.candidates x with
    | [] => .next (s.setLaunch l (x.failed 2))
    | cs =>
      match cs.find? (fun hs => hs.all (s.hasRoom l)) with
      | none => .next s
      | some hs =>
        let here := hs.filter (fun h => decide (h < 8))
        if x.cardq != 0xFFFF && !(hs.all (s.cardQueueOk x.fn x.cardq)) then .next (s.setLaunch l (x.failed 4))
        else .next ((s.takeCtxs l here).setLaunch l { x with phase := .routes, rect := here, cells := hs, root := hs.headD 0 })
  else .next s

/-! ### Steps 2 and 3: routes and residency -/

/-- Step 2: the routing tables are loaded and their checksums compared (Table 7.7): one reload, then ROUTE_CHECK.  The tables
fix the launch's routes (17_device_boundary.md R414; notes/assumptions 25). -/
def execRouteLoad (l : Nat) (ok : Bool) (s : State) : Out :=
  let x := s.launchAt l
  if x.phase == .routes && s.mayDispatch x.fn then
    if ok then .next (({ s with freeCtr := s.freeCtr + 1 } : State).setLaunch l { x with phase := .resident, routes := s.freeCtr })
    else if x.reloads = 0 then .next (s.setLaunch l { x with reloads := 1 })
    else .next (s.setLaunch l (x.failed 3))
  else .next s

/-- Where a residency pass stands: the state, whether every page so far is resident, whether an entry lies over a fenced link, and
the requests outstanding as (stage, tag, page). -/
structure Resid where
  s     : State
  ok    : Bool := true
  lost  : Bool := false
  waits : List (Nat × Nat × Nat) := []

/-- The pages of a function's tables from one table down, and the frames that its valid entries map, as (address, size). -/
def tableFrames (m : Memory) : (levels : List Nat) → (table : Nat) → List (Nat × Nat)
  | [], _ => []
  | l :: ls, table =>
    let at_ := dedup ((m.filter (fun e => decide (table ≤ e.1) && decide (e.1 < table + 65536))).map (fun e => e.1 / 16 * 16))
    (table, 65536) :: at_.flatMap (fun a =>
      let p : Pte := { addr := a, lo := readN m a 8, hi := readN m (a + 8) 8 }
      if !p.v then [] else if p.leaf then [(p.frame / leafSize l * leafSize l, leafSize l)] else tableFrames m ls p.frame)

/-- The host-physical ranges that the functions' tables, the device's own areas and the exchanges under way use. -/
def State.usedFrames (s : State) : List (Nat × Nat) :=
  s.fns.flatMap (fun (e : Nat × Fn) =>
    (if e.2.tren then tableFrames s.mem [3, 2, 1] (if e.1 = 0 then e.2.root1 else e.2.root2) else [])
      ++ (if e.2.ck.en then [(e.2.ck.logBase, e.2.ck.logBytes), (e.2.ck.trayBase, trayBytes),
            (e.2.ck.imgBase, (e.2.ck.image.getD {}).size)] else [])
      ++ (if e.2.dbmEn then [(e.2.dbmBase0, e.2.dbmCount / 8 + 1), (e.2.dbmBase1, e.2.dbmCount / 8 + 1)] else []))
    ++ s.swaps.flatMap (fun w => [(w.from_, w.size), (w.to_, w.size)])

/-- Whether a frame is free to take a page of a function. -/
def State.frameFree (s : State) (f va frame : Nat) : Bool :=
  match (s.uncached 0).leafOf 0 f va with
  | some (_, l) => s.usedFrames.all (fun r => !(overlaps (frame * 65536, leafSize l) r))
  | none => false

/-- Make one page of a declared range resident (R224): its walk sets A, and D for a writable range, or posts a request; a page of
the second tier is brought in by the swap engine first (08_memory_access.md R203), to a frame in no use, tried until one is found, that
is a free choice (notes/assumptions 25), and a clock at fault or an entry being changed holds the walk (R214, R222). -/
def Resid.page (r : Resid) (h f id : Nat) (write : Bool) (va : Nat) : Resid :=
  if r.waits.any (fun e => e.2.2 == va) || r.s.faulty (512 + h) then { r with ok := false }
  else
    let w := r.s.walkFull h f va { r := true, w := write }
    if r.s.walkLost h f id w.reads then { r with ok := false, lost := true }
    else match w.res with
    | .swap => { r with ok := false }
    | .ok t upd =>
      if t.tier = 0 then { r with s := ((r.s.noteWalk f h w).writeMarks f upd).keepWalk h f w.path }
      else
        let frame := Config.swapFrame r.s.uc va % 2 ^ 40
        { r with s := if r.s.frameFree f va frame then r.s.beginSwap f va frame 0 else r.s, ok := false }
    | .fail stage _ invalid need page =>
      let p := (r.s.noteWalk f h w).postRequest h f stage (reqFlags need false invalid) page id
      { r with s := p.1, ok := false, waits := r.waits ++ [(stage, p.2, va)] }

/-- The pages of a range from a first one. -/
def Resid.pages (h f id : Nat) (write : Bool) : Nat → Nat → Resid → Resid
  | 0, _, r => r
  | k + 1, va, r => Resid.pages h f id write k (va + 65536) (r.page h f id write va)

/-- Make declared ranges resident (R224). -/
def State.reside (s : State) (h f id : Nat) (ranges : List (Nat × Nat × Nat × Nat × Nat)) (waits : List (Nat × Nat × Nat)) : Resid :=
  ranges.foldl (fun r e =>
    let base := e.2.2.1
    let last := base + e.2.2.2.1 * e.2.2.2.2 - 1
    Resid.pages h f id (decide (2 ≤ e.2.1)) (last / 65536 + 1 - base / 65536) (base / 65536 * 65536) r)
    { s := s, waits := waits }

/-- Step 3: every declared page is made resident; what the walks mark stays marked while others wait (R221, R224).  A lost path ends
the launch (R398). -/
def execResidency (l : Nat) (s : State) : Out :=
  let x := s.launchAt l
  if x.phase == .resident && s.mayDispatch x.fn then
    let r := s.reside x.hum x.fn l x.kernel.ranges x.waits
    .next (if r.lost then r.s.endLaunch l stPathLost else r.s.setLaunch l (if r.ok then { x with phase := .place, waits := [] } else { x with waits := r.waits }))
  else .next s

/-! ### Step 4: placement (R167) -/

/-- The lowest free run of `n` numbers below a limit that starts at a multiple of a step. -/
def freeRun (limit step n : Nat) (busy : List (Nat × Nat)) : Option Nat :=
  if n = 0 then some 0
  else (sortBy id (0 :: busy.map (fun r => (r.1 + r.2 + step - 1) / step * step))).find? (fun a =>
    decide (a + n ≤ limit) && busy.all (fun r => !(overlaps (a, n) r)))

/-- The scratchpad lines that the workgroups of a core hold. -/
def Core.busyLines (k : Core) : List (Nat × Nat) :=
  k.wgs.flatMap (fun (e : Nat × Wg) => (e.2.unit0 * 32, e.2.units * 32)
    :: (e.2.chans.filter (fun (ch : Nat × Chan) => ch.2.rcv)).map (fun (ch : Nat × Chan) => (ch.2.line0, ch.2.slots)))

/-- Where a workgroup would stand on a core: its slot, thread slots, registers, scratchpad unit and channel lines. -/
structure Fit where
  slot  : Nat := 0
  sbase : Nat := 0
  rbase : Nat := 0
  unit0 : Nat := 0
  lines : NMap Nat := []

/-- Reserve lines for each channel that a workgroup receives, in turn (R284). -/
def fitLines : List (Nat × Nat) → List (Nat × Nat) → NMap Nat → Option (NMap Nat)
  | [], _, acc => some acc
  | (ch, slots) :: rest, busy, acc =>
    match freeRun Config.scratchLines 1 slots busy with
    | none => none
    | some a => fitLines rest ((a, slots) :: busy) (mset acc ch a)

/-- The workgroup barrier registers that placed workgroups of a core have still to be given at step 5. -/
def State.promisedBars (s : State) (h c : Nat) : Nat :=
  s.launches.foldl (fun n (e : Nat × Launch) =>
    if e.2.phase == .setup then
      n + (e.2.fresh.filter (fun r => r.h == h && r.c == c)).length * (e.2.kernel.bars.filter (fun b => decide (b.1 < 16))).length
    else n) 0

/-- Whether and where core `c` of hummock `h` can hold workgroup `num` of a launch (R144, R167, R321): the lowest workgroup slot and
the lowest free run of thread slots, registers and scratchpad, DESIGN CHOICE, since the spec does not say which
(notes/assumptions 57). -/
def State.fits (s : State) (x : Launch) (num h c : Nat) : Option Fit :=
  let k := s.coreAt h c
  let n := x.kernel.regs
  let bars := (k.wbars.filter (fun (e : Nat × Wbar) => e.2.valid)).length + s.promisedBars h c
    + (x.kernel.bars.filter (fun b => decide (b.1 < 16))).length
  let rcv := (x.kernel.chans.filter (fun ch => ch.2.2.2 == num)).map (fun ch => (ch.1, ch.2.1))
  if (k.status == .running || k.status == .quiesced) && decide (bars ≤ 48) && (!x.kernel.holds || k.engine.holder.isNone) then
    match (List.range 8).find? (fun i => (mfind k.wgs i).isNone),
      freeRun Config.threadSlots 1 x.slots (k.wgs.map (fun (e : Nat × Wg) => (e.2.sbase, e.2.lim))),
      freeRun Config.laneRegisters 8 (x.slots * n) (k.wgs.map (fun (e : Nat × Wg) => (e.2.rbase, e.2.lim * e.2.n))),
      freeRun Config.scratchLines 32 (x.units * 32) k.busyLines with
    | some slot, some sb, some rb, some ln =>
      (fitLines rcv ((ln, x.units * 32) :: k.busyLines) []).map (fun m =>
        { slot := slot, sbase := sb, rbase := rb, unit0 := ln / 32, lines := m })
    | _, _, _, _ => none
  else none

/-- Find a core for member `m`, moving earlier members where that helps: the assignment by core, and the cores tried. -/
def augment (fits : Nat → Nat → Bool) (cores : List Nat) : Nat → Nat → NMap Nat × List Nat → Option (NMap Nat) × List Nat
  | 0, _, a => (none, a.2)
  | n + 1, m, a => cores.foldl (fun (r : Option (NMap Nat) × List Nat) c =>
      if r.1.isSome || r.2.contains c || !(fits m c) then r
      else
        match mfind a.1 c with
        | none => (some (mset a.1 c m), c :: r.2)
        | some m' =>
          match augment fits cores n m' (a.1, c :: r.2) with
          | (some b, seen) => (some (mset b c m), seen)
          | (none, seen) => (none, seen)) (none, a.2)

/-- Distinct cores for the members of a gang, or none. -/
def assignGang (fits : Nat → Nat → Bool) (cores : List Nat) (g : Nat) : Option (NMap Nat) :=
  (List.range g).foldl (fun r m => match r with
    | none => none
    | some a => (augment fits cores 64 m (a, [])).1) (some [])

/-- The cores of a sedge. -/
def sedgeCores (i : Nat) : List Nat := (List.range 8).map (fun j => 8 * i + j)

/-- Whether a hummock is under advise: a sensor, or a forecast that reaches the lowest throttle point (R422, R423). -/
def HumRegs.advised (r : HumRegs) : Bool :=
  (List.range 192).any (fun i => (r.sensorAt i).isAdv)
    || (r.fcen && r.fcvalid && (List.range 192).any (fun i => decide ((r.sensorAt i).thr ≤ r.fctemp)))

/-- The cores for a gang on a hummock: of one sedge, or of two neighbouring ones (R167); the lowest that will do, one sedge before
two, DESIGN CHOICE (notes/assumptions 57). -/
def State.gangOn (s : State) (x : Launch) (h : Nat) : Option (NMap Nat) :=
  let d := s.humAt h
  let fit := fun (m c : Nat) => (s.fits x (x.placed * x.kernel.gang + m) h c).isSome
  if d.chiplet == .inService && !d.regs.advised then
    ((List.range 8).map (fun i => [i]) ++ (List.range 7).map (fun i => [i, i + 1])).findSome? (fun is =>
      if is.all (fun i => s.sedgeOpen h x.fn i) then assignGang fit (is.flatMap sedgeCores) x.kernel.gang else none)
  else none

/-- The lowest gang context that no resident workgroup of a hummock uses, DESIGN CHOICE, since the spec does not say which
(notes/assumptions 57). -/
def State.freeGctx (s : State) (h : Nat) : Nat :=
  let used := (List.range 64).flatMap (fun c => (s.coreAt h c).wgs.map (fun (e : Nat × Wg) => e.2.gctx))
  ((List.range 512).find? (fun g => !(used.contains g))).getD 0

/-- The channel states of a placed workgroup (R284): a channel whose other end has ended already says so. -/
def State.newChans (s : State) (l : Nat) (x : Launch) (num : Nat) (fit : Fit) : NMap Chan :=
  (x.kernel.chans.filter (fun ch => ch.2.2.1 == num || ch.2.2.2 == num)).foldl (fun m ch =>
    let peer := if ch.2.2.1 = num then ch.2.2.2 else ch.2.2.1
    let gone := decide (peer / x.kernel.gang < x.placed) && x.away.all (fun e => e.2 != peer / x.kernel.gang) && (match s.findWg l peer with
      | none => true
      | some r => (mget {} (s.coreAt r.h r.c).wgs r.g).ended)
    mset m ch.1 {
      slots := ch.2.1, snd := ch.2.2.1 == num, rcv := ch.2.2.2 == num, peer := peer
      line0 := mget 0 fit.lines ch.1, peerEnded := gone }) []

/-- Put one member of a gang on its core (R144, R321, R322): every line of its allocation is zero and present (R189). -/
def State.placeWg (s : State) (l : Nat) (x : Launch) (h c m gctx : Nat) (fit : Fit) : State :=
  let k := s.coreAt h c
  let num := x.placed * x.kernel.gang + m
  let w : Wg := {
    num := num, gang := x.placed, member := m, launch := l, fn := x.fn
    prio := min (mget {} (s.humAt x.hum).queues x.queue).prio x.kernel.prio
    rbase := fit.rbase, sbase := fit.sbase, lim := x.slots, n := x.kernel.regs
    binAge := x.kernel.binAge
    chans := s.newChans l x num fit
    gctx := gctx, lctx := (s.lctxOf h l).getD 16
    units := x.units, unit0 := fit.unit0, holds := x.kernel.holds }
  s.setCoreAt h c { k with
    status := .running
    wgs := mset k.wgs fit.slot w
    scratch := k.scratch.filter (fun e => !w.ownsLine (e.1 / 128))
    absent := k.absent.filter (fun n => !w.ownsLine n)
    poison := k.poison.filter (fun n => !w.ownsLine n)
    engine := if x.kernel.holds then { holder := some fit.slot, wdog := k.engine.wdog } else k.engine }

/-- The hummocks of a launch's rectangle in row-major order. -/
def Launch.order (x : Launch) : List Nat := if x.cells.isEmpty then x.rect else x.cells

/-- Place a whole gang on chosen cores (R167). -/
def State.placeGang (s : State) (l : Nat) (x : Launch) (k h : Nat) (cores : NMap Nat) : State :=
  let ms := (List.range x.kernel.gang).filterMap (fun m => (cores.find? (fun e => e.2 == m)).map (fun e => (m, e.1)))
  let g := s.freeGctx h
  let s := s.setHum h { s.humAt h with gbars := (s.humAt h).gbars.filter (fun (e : Nat × Gbar) => e.1 / 4 != g) }
  let refs := ms.map (fun e => ({ h := h, c := e.2, g := ((s.fits x (x.placed * x.kernel.gang + e.1) h e.2).getD {}).slot } : GRef))
  let t := ms.foldl (fun t e =>
    t.placeWg l x h e.2 e.1 g ((s.fits x (x.placed * x.kernel.gang + e.1) h e.2).getD {})) s
  let t := refs.foldl (fun t r => t.setCoreAt r.h r.c { t.coreAt r.h r.c with
    wgs := mset (t.coreAt r.h r.c).wgs r.g { mget {} (t.coreAt r.h r.c).wgs r.g with peers := refs } }) t
  t.setLaunch l { x with
    placed := x.placed + 1, nextHum := (k + 1) % x.order.length, fresh := refs, wgs := x.wgs ++ refs, phase := .setup }

/-! ### Step 5: set-up (R178, R181, R265 to R268) -/

/-- The segment set of a placed workgroup (Table 8.3). -/
def State.newSegs (s : State) (x : Launch) (w : Wg) : NMap Seg :=
  let p := decide (1 ≤ x.units)
  let fab := Config.fabricWindow x.fn
  let f := s.fnAt x.fn
  [ (0, { base := x.image + x.kernel.codeOff, limit := x.kernel.codeSize, r := true, x := true, valid := true }),
    (1, { base := 0, limit := 0, r := true, w := true, a := true, valid := true }),
    (2, { base := w.unit0 * 4096, limit := x.units * 4096, r := true, w := true, a := true, valid := p }),
    (3, { base := 0, limit := if w.holds then 0x40000 else 0, r := true, valid := w.holds }),
    (4, { base := 0, limit := x.kernel.gang * 2 ^ 19, r := true, w := true, a := true, valid := p }),
    (5, { base := 0, limit := 2 ^ 48, r := true, w := true, valid := false }),
    (6, { base := fab.1 % 2 ^ 52, limit := fab.2 % 2 ^ 52, r := true, w := true, a := true, valid := fab.2 != 0 }),
    (7, { base := f.hmvbase, limit := f.hmsize * 65536, r := true, w := true, valid := f.hmsize != 0 }) ]

/-- The constants of a workgroup: the kernel's, then a card's arguments from k56 (R160). -/
def Launch.newK (x : Launch) : NMap Word :=
  let ks := x.kernel.consts.zipIdx.foldl (fun m (p : Word × Nat) => mset m p.2 p.1) []
  x.args.zipIdx.foldl (fun m (p : Word × Nat) => mset m (56 + p.2) p.1) ks

/-- The buffer records of a workgroup (R181). -/
def Launch.newB (x : Launch) : NMap BufRec :=
  x.kernel.ranges.foldl (fun m e =>
    mset m e.1 { base := e.2.2.1, stride := e.2.2.2.1, extent := e.2.2.2.2, esize := 2, sel := 1
                 pr := e.2.1 % 2 == 1, pw := decide (2 ≤ e.2.1), pa := decide (2 ≤ e.2.1), valid := true }) []

/-- Allocate a workgroup's barrier registers: the lowest free one for each (R265). -/
def State.newWbars (s : State) (x : Launch) (r : GRef) : State :=
  x.kernel.bars.foldl (fun t b =>
    if b.1 < 16 then
      let k := t.coreAt r.h r.c
      match (List.range 48).find? (fun i => !((mget {} k.wbars i).valid)) with
      | some i => t.setCoreAt r.h r.c { k with wbars := mset k.wbars i { members := b.2, owner := r.g, valid := true, name := b.1 } }
      | none => t
    else t) s

/-- The gang barrier entries of a placed gang (R265, R266). -/
def State.newGbars (s : State) (x : Launch) (h gctx : Nat) : State :=
  x.kernel.bars.foldl (fun t b =>
    if 16 ≤ b.1 && b.1 < 20 then
      let e : Gbar := { members := b.2 * x.kernel.gang, valid := true, root := true }
      t.setHum h { t.humAt h with gbars := mset (t.humAt h).gbars (4 * gctx + (b.1 - 16)) e }
    else t) s

/-- The launch barrier entries of a launch: the totals at the root (R265, R266), made with its first gang. -/
def State.newLbars (s : State) (l : Nat) (x : Launch) : State :=
  x.rect.foldl (fun t h =>
    match t.lctxOf h l with
    | none => t
    | some c => x.kernel.bars.foldl (fun t b =>
      if 20 ≤ b.1 then
        let n := if h = x.root then b.2 * x.kernel.gang * x.gangs else 0
        let e : Gbar := { members := n, valid := true, root := h == x.root }
        t.setHum h { t.humAt h with lbars := mset (t.humAt h).lbars (4 * c + (b.1 - 20)) e }
      else t) t) s

/-- The members that a gang adds to the local counts of a hummock that is not the root (Table 12.2). -/
def State.addLbars (s : State) (l : Nat) (x : Launch) (h : Nat) : State :=
  if h = x.root then s
  else match s.lctxOf h l with
    | none => s
    | some c => x.kernel.bars.foldl (fun t b =>
      if 20 ≤ b.1 then
        let k := 4 * c + (b.1 - 20)
        let e := mget {} (t.humAt h).lbars k
        t.setHum h { t.humAt h with lbars := mset (t.humAt h).lbars k { e with members := e.members + b.2 * x.kernel.gang } }
      else t) s

/-- The membership bits of an initial thread (R266, R268). -/
def Launch.memb (x : Launch) (idx : Nat) : Nat :=
  (x.kernel.bars.filter (fun b => decide (idx < b.2))).foldl (fun n b => n + 2 ^ b.1) 0

/-- Set one workgroup's context (R178, R181). -/
def State.setupWg (s : State) (x : Launch) (r : GRef) : State :=
  let k := s.coreAt r.h r.c
  let w := mget {} k.wgs r.g
  let w := { w with
    segs := s.newSegs x w, k := x.newK, b := x.newB, binAge := x.kernel.binAge
    arr := (List.range x.kernel.wg).map (fun i => (i, { memb := x.memb i, mark := 2 ^ 24 - 1 })) }
  (s.setCoreAt r.h r.c { k with wgs := mset k.wgs r.g w }).newWbars x r

/-- The instruction caches of every core of a rectangle are invalidated (R33). -/
def State.dropCode (s : State) (hs : List Nat) : State :=
  { s with cores := s.cores.map (fun (e : Nat × Core) =>
      if hs.contains (e.1 / 64) then (e.1, { e.2 with icache := [] }) else e) }

/-! ### Steps 6 and 7 -/

/-- A thread of a workgroup's initial set is allocated and filed at the entry (R144, R165). -/
def Core.initThread (k : Core) (wgs idx now : Nat) : Core :=
  let w := mget {} k.wgs wgs
  let k := k.zeroSlot w (w.sbase + idx)
  ({ k with slots := mset k.slots (w.sbase + idx) { tidx := idx, wgs := wgs, state := 1, fresh := true } }).file
    (w.sbase + idx) 0 now

/-- File a workgroup's initial threads, whose first instruction follows an acquire (10_ordering.md Table 10.1). -/
def State.fileWg (s : State) (x : Launch) (r : GRef) : State :=
  s.setCoreAt r.h r.c ((List.range x.kernel.wg).foldl (fun k i => k.initThread r.g i (s.cycles r.h)) (s.coreAt r.h r.c))

/-- A hardware queue no longer has a launch at its head. -/
def State.freeQueue (s : State) (l : Nat) (x : Launch) : State :=
  s.modQueue x.hum x.queue (fun q => if q.busy = some l then { q with busy := none } else q)

/-- Step 7 for the gang just set up: its threads are filed; after the last gang the launch leaves its queue (R165). -/
def State.fileGang (s : State) (l : Nat) (x : Launch) : State :=
  let s := x.fresh.foldl (fun t r => t.fileWg x r) s
  if x.placed < x.gangs && x.status.isNone then s.setLaunch l { x with fresh := [], phase := .place }
  else (s.setLaunch l { x with fresh := [], phase := .running }).freeQueue l x

/-! ### Step 4 as a whole -/

/-- Where a gang would go on a hummock of the rectangle: its cores here, or another package's hummock. -/
def State.spotOn (s : State) (l : Nat) (x : Launch) (h : Nat) : Option (Option (NMap Nat)) :=
  if h < 8 then (s.gangOn x h).map some
  else if Config.farAnswer (h - 8) 3 (l * 2 ^ 24 + x.placed) s.chipTime then some none
  else none

/-- The first hummock, from the one after the previous gang's, that can hold the next gang (R167). -/
def State.gangSpot (s : State) (l : Nat) (x : Launch) : Option (Nat × Option (NMap Nat)) :=
  (List.range x.order.length).findSome? (fun i =>
    let k := (x.nextHum + i) % x.order.length
    (s.spotOn l x (x.order.getD k 0)).map (fun p => (k, p)))

/-- Step 4: the next gang is placed, here or on another package's hummock, where it runs out of sight (R167; notes/assumptions
9). -/
def execGangPlacement (l : Nat) (s : State) : Out :=
  let x := s.launchAt l
  if x.phase == .place && decide (x.placed < x.gangs) && s.mayDispatch x.fn then
    match s.gangSpot l x with
    | some (k, some cs) => .next (s.placeGang l x k (x.order.getD k 0) cs)
    | some (k, none) =>
      let y := { x with
        placed := x.placed + 1, nextHum := (k + 1) % x.order.length, fresh := [], away := x.away ++ [(x.order.getD k 0, x.placed)] }
      .next (if x.kernel.nonced then s.setLaunch l { y with phase := .token } else s.fileGang l y)
    | none => .next s
  else .next s

/-- Step 5: segments, constants, records, barriers and channels are set (R178); without a nonce the threads are filed at
once. -/
def execLaunchSetup (l : Nat) (s : State) : Out :=
  let x := s.launchAt l
  if x.phase == .setup && s.mayDispatch x.fn then
    let r0 := x.fresh.headD {}
    let s := s.dropCode x.rect
    let s := if x.placed = (x.away.filter (fun e => decide (e.2 < x.gangs))).length + 1 then s.newLbars l x else s
    let s := x.fresh.foldl (fun t r => t.setupWg x r) s
    let s := s.newGbars x r0.h (mget {} (s.coreAt r0.h r0.c).wgs r0.g).gctx
    let s := s.addLbars l x r0.h
    if x.kernel.nonced then .next (s.setLaunch l { x with phase := .token })
    else .next (s.fileGang l x)
  else .next s

/-- Whether a function's scrub token satisfies a launch (R390). -/
def Fn.tokenOk (f : Fn) (n : Nat) (x : Launch) : Bool :=
  f.token.length == 256 && fieldAt f.token 0x19 1 == n && (f.token.drop 0x38).take 32 == x.kernel.nonce
    && x.rect.all (fun h => bitOf (fieldAt f.token 6 1) h)

/-- Whether the token of every package that a launch's rectangle touches satisfies it: this one's, and those of its hummocks in other
packages (R390; notes/assumptions 9). -/
def State.tokensOk (s : State) (l : Nat) (x : Launch) : Bool :=
  (x.rect.isEmpty || (s.fnAt x.fn).tokenOk x.fn x)
    && x.cells.all (fun h => decide (h < 8) || Config.farAnswer (h - 8) 6 l s.chipTime)

/-- Step 6: the tokens match and the threads are filed (R390). -/
def execScrubTokenMatch (l : Nat) (s : State) : Out :=
  let x := s.launchAt l
  if x.phase == .token && s.mayDispatch x.fn && s.tokensOk l x then .next (s.fileGang l x)
  else .next s

/-! ### Job cards (R160) -/

/-- The task of a card: a task of the posting launch's own function runs under its ranges; a task of another function
declares its own. -/
def taskOf (c : Card) : Launch :=
  { fn := c.fn, hum := c.hum, queue := c.queue, image := c.image, kidx := c.kidx, kernel := c.kernel
    slotLim := if decide (c.kernel.wg ≤ c.lim) && decide (c.lim * c.kernel.regs ≤ 65536) then c.lim else 0
    units := c.units, rect := [c.hum], root := c.hum, task := true, poster := c.poster, args := c.args
    phase := if c.poster.isSome then .place else .resident }

/-- The card of a queue that begins placement next: the lowest sequence number (R160). -/
def State.nextCard (s : State) (h q : Nat) : Option Card :=
  let cs := s.cards.filter (fun c => c.hum == h && c.queue == q && c.seq.isSome)
  cs.find? (fun c => cs.all (fun d => decide (c.seq.getD 0 ≤ d.seq.getD 0)))

/-- The dispatcher begins the next card's task (R160). -/
def execCardPlacement (h q : Nat) (s : State) : Out :=
  let x := mget {} (s.humAt h).queues q
  if x.en && x.cardq && x.busy.isNone then
    match s.nextCard h q with
    | none => .next s
    | some c =>
      if s.mayDispatch c.fn then
        let id := s.pkg.nextId
        let s := { s with cards := s.cards.erase c, pkg := { s.pkg with nextId := id + 1 } }
        .next ((s.setLaunch id (taskOf c)).modQueue h q (fun y => { y with busy := some id }))
      else .next s
  else .next s

/-! ### Ends (R164, R376) -/

/-- Release the gang contexts of a hummock that no resident workgroup uses. -/
def State.dropGbars (s : State) (h : Nat) : State :=
  let used := (List.range 64).flatMap (fun c => (s.coreAt h c).wgs.map (fun (e : Nat × Wg) => e.2.gctx))
  s.setHum h { s.humAt h with gbars := (s.humAt h).gbars.filter (fun (e : Nat × Gbar) => used.contains (e.1 / 4)) }

/-- Whether a workgroup's copies and matrix operations have all completed, and the effects that waited for its threads' releases
have taken place (R83, R376). -/
def State.workDone (s : State) (h c w : Nat) : Bool :=
  let k := s.coreAt h c
  let x := mget {} k.wgs w
  (s.humAt h).enl.all (fun (e : Nat × CopyJob) => !(e.2.core == c && e.2.wgs == w))
    && k.coal.all (fun e => e.job.wgs != w)
    && k.pend.all (fun p => p.slots.all (fun t => decide (t < x.sbase) || decide (x.sbase + x.lim ≤ t)))
    && (!x.holds || k.engine.queue.isEmpty)

/-- A workgroup whose threads have all retired releases what it holds once its operations have completed (R376). -/
def execWorkgroupNormalEnd (h c w : Nat) (s : State) : Out :=
  match mfind (s.coreAt h c).wgs w with
  | none => .next s
  | some x =>
    if x.ended && s.workDone h c w then
      let l := s.launchAt x.launch
      let s := (s.clearWg h c w).dropGbars h
      .next (s.setLaunch x.launch { l with wgs := l.wgs.erase { h := h, c := c, g := w } })
    else .next s

/-- Whether a launch has a task or a card of its own function left (R160). -/
def State.hasTasks (s : State) (l : Nat) : Bool :=
  s.launches.any (fun (e : Nat × Launch) => e.2.poster == some l) || s.cards.any (fun c => c.poster == some l)

/-- Whether a request of a launch, or a window reduction of its function, is still on its way to its home (R164, R239, R262). -/
def State.hasReqs (s : State) (l : Nat) : Bool :=
  s.cores.any (fun (e : Nat × Core) => e.2.reqs.any (fun r => r.launch == l))
    || s.travel.any (fun (t : Travel) => t.fn == (s.launchAt l).fn)

/-- Whether a gang that a launch placed in another package, or the task of a card posted there, still runs there. -/
def State.runsAway (s : State) (l : Nat) (x : Launch) : Bool :=
  x.away.any (fun e => !(Config.farAnswer (e.1 - 8) 4 (l * 2 ^ 24 + e.2) s.chipTime))

/-- Release the contexts of a launch (R165). -/
def State.dropCtxs (s : State) (l : Nat) (x : Launch) : State :=
  x.rect.foldl (fun t h =>
    let cs := ((t.humAt h).ctxs.filter (fun e => e.2 == l)).map Prod.fst
    (t.setHum h { t.humAt h with
      ctxs := (t.humAt h).ctxs.filter (fun e => e.2 != l)
      lbars := (t.humAt h).lbars.filter (fun (e : Nat × Gbar) => !(cs.contains (e.1 / 4))) }).dropGbars h) s

/-- Write the part of a completion record that lies in one line (R164): to host memory of a checkpointed function it waits in the
tray (R369); an address that does not translate gets none, nor one that is unassigned or that the crossbar denies the dispatcher, which is logged (R380, R411); none
while an entry is being changed (R222) or the line's home cannot take it (R212, R214). -/
def State.writeRecord (s : State) (x : Launch) (va : Nat) (bs : List Byte) : Option State :=
  match s.devWalk x.hum x.fn va { w := true } with
  | (_, .hold) => none
  | (s, .denied) => some s
  | (s, .lost) => some s
  | (s, .ok t) =>
    let a := t.hpa va
    let home := s.homeOf t a
    if !(s.assigned a) then some (s.logErr 0 3 x.hum (a / 128 * 128) 0)
    else if !(s.pathOk x.fn x.hum dispatcherPort home) then
      some (s.logErr 0 4 x.hum (portPair dispatcherPort (s.portOfHome x.hum home)) x.fn)
    else if s.homeHolds home a then none
    else if isHost a && (s.fnAt x.fn).ck.en && x.fn != 0 then
      some (s.putTray x.fn (if a % 8 = 0 && bs.length % 8 = 0 then
          (List.range (bs.length / 8)).map (fun i => .store (a + 8 * i) 8 (BitVec.ofNat 64 (leNat ((bs.drop (8 * i)).take 8))))
        else (bs.zipIdx a).map (fun p => .store p.2 1 (p.1.setWidth 64))))
    else some (((s.drainFor a bs.length).l2At x.fn t a true).performBytes x.fn ownHome a bs)

/-- Write a completion record (R164): 16 bytes, in one line or, where a BAD_RECORD launch names an address that is no multiple of 16
(R163), perhaps in two. -/
def State.writeCompletion (s : State) (x : Launch) (status : Nat) : Option State :=
  let bs := bytesOf 8 status ++ bytesOf 8 s.chipTime
  let n := min 16 (128 - x.compl % 128)
  (s.writeRecord x x.compl (bs.take n)).bind (fun t => if n = 16 then some t else t.writeRecord x (x.compl + n) (bs.drop n))

/-- A launch or task has ended and everything it posted is done (R160, R164): its contexts are released and its record is
written; a task writes none. -/
def execLaunchCompletion (l : Nat) (s : State) : Out :=
  match mfind s.launches l with
  | none => .next s
  | some x =>
    let ended := (x.phase == .running || x.phase == .ended) && x.wgs.isEmpty && !(s.runsAway l x)
    if ended && !(s.hasTasks l) && !(s.hasReqs l) && (s.fnAt x.fn).ck.state == .run then
      let t := (s.dropCtxs l x).freeQueue l x
      let t := { t with launches := mdel t.launches l }
      .next (if x.task then t else (t.writeCompletion x (x.status.getD 0)).getD s)
    else .next s

end Sys2Proof.Machine
end

