-- ==== Sys2Proof/Machine/Restore.lean ====
section
/-! DEFINITION. Restoring a function's image onto its partition, and the reset, fence and drop of a compute chiplet
(16_tenants.md R396, R397; 15_traps_preemption.md R374). -/

namespace Sys2Proof.Machine

/-! ### Matching the image to the partition (R396 step 1, R397) -/

/-- The sedges of a hummock that an image used. -/
def Image.sedges (im : Image) (h : Nat) : List Nat :=
  (List.range 8).filter (fun i => im.cores.any (fun (e : Nat × Core) => e.1 / 64 == h && e.1 % 64 / 8 == i))

/-- The sedges of a hummock that a function owns. -/
def State.ownedSedges (s : State) (h f : Nat) : List Nat :=
  let p := (s.humAt h).regs.partAt f
  if p.en then (List.range 8).filter (fun i => p.sedge.testBit i) else []

/-- The hummock of a function's partition in service with logical coordinates. -/
def State.matchHum (s : State) (f x y : Nat) : Option Nat :=
  (List.range 8).find? (fun h => s.lvalid h && (s.humAt h).chiplet == .inService && s.inPartition h f && s.lx h == x && s.ly h == y)

/-- The hummock of each hummock of an image, if every one can be matched. -/
def State.humMap (s : State) (f : Nat) (im : Image) : Option (NMap Nat) :=
  im.hums.foldl (fun r (e : Nat × HumImage) => match r, s.matchHum f e.2.x e.2.y with
    | some m, some h => some (mset m e.1 h)
    | _, _ => none) (some [])

/-- The core that takes the place of a core of the image (R397): sedges in ascending order, the index within the sedge
kept. -/
def State.coreMap (s : State) (f : Nat) (im : Image) (hm : NMap Nat) (key : Nat) : Nat :=
  let h := key / 64
  let i := ((im.sedges h).filter (fun x => decide (x < key % 64 / 8))).length
  let h' := mget h hm h
  64 * h' + 8 * (s.ownedSedges h' f).getD i 0 + key % 8

/-- Whether the members of every gang keep one sedge or two neighbouring ones (R167, R396). -/
def Image.gangsOk (im : Image) (cm : Nat → Nat) : Bool :=
  im.cores.all (fun (a : Nat × Core) => im.cores.all (fun (b : Nat × Core) =>
    a.1 / 64 != b.1 / 64
      || !(a.2.wgs.any (fun (v : Nat × Wg) => b.2.wgs.any (fun (w : Nat × Wg) =>
            v.2.launch == w.2.launch && v.2.gang == w.2.gang)))
      || (decide (cm a.1 % 64 / 8 ≤ cm b.1 % 64 / 8 + 1) && decide (cm b.1 % 64 / 8 ≤ cm a.1 % 64 / 8 + 1))))

/-- The shape check (R396 step 1): the hummock map where it passes. -/
def State.shape (s : State) (f : Nat) (im : Image) : Option (NMap Nat) :=
  match s.humMap f im with
  | none => none
  | some hm =>
    if im.hums.all (fun (e : Nat × HumImage) =>
        decide ((im.sedges e.1).length ≤ (s.ownedSedges (mget e.1 hm e.1) f).length))
      && im.gangsOk (s.coreMap f im hm) then some hm else none

/-! ### The places of an image on a partition -/

/-- The i-th number below a limit that is free, for the i-th of a list of numbers. -/
def renumber (olds : List Nat) (limit : Nat) (used : Nat → Bool) (x : Nat) : Nat :=
  let free := (List.range limit).filter (fun i => !used i)
  match olds.findIdx? (· == x) with
  | some i => free.getD i 0
  | none => x

/-- The renaming of an image's places onto a partition: contexts and Enlarger entries take free numbers. -/
def State.places (s : State) (f : Nat) (im : Image) (hm : NMap Nat) : Places :=
  let hum := fun (h : Nat) => mget h hm h
  let cores := fun (h : Nat) => im.cores.filter (fun (e : Nat × Core) => e.1 / 64 == h)
  let gs := fun (h : Nat) => ((cores h).flatMap (fun e => e.2.wgs.map (fun (w : Nat × Wg) => w.2.gctx))).eraseDups
  let usedG := fun (h g : Nat) => (List.range 64).any (fun c => (s.coreAt (hum h) c).wgs.any (fun (w : Nat × Wg) => w.2.gctx == g))
  { fn := f, hum := hum, core := s.coreMap f im hm
    gctx := fun h => renumber (gs h) 512 (usedG h)
    lctx := fun h => renumber ((mget {} im.hums h).ctxs.map Prod.fst) 16 (fun c => (mfind (s.humAt (hum h)).ctxs c).isSome)
    enl := fun h => renumber ((mget {} im.hums h).enl.map Prod.fst) 2048 (fun i => (mfind (s.humAt (hum h)).enl i).isSome) }

/-- Write an image back onto a function's partition and resume its groups (R396 step 3): the cores run. -/
def State.writeBack (s : State) (f : Nat) (im : Image) (hm : NMap Nat) : State :=
  let im := (s.places f im hm).image im
  let s := s.putBack im
  let s := { s with cores := im.cores.foldl (fun (m : NMap Core) (e : Nat × Core) =>
    mset m e.1 { mget ({} : Core) m e.1 with status := .running }) s.cores }
  s.modCk f (fun k => { k with
    image := some im.kept, out_ := false, state := .run, logged := [], blocks := [], tray := [] })

/-! ### RSTGO (R396) -/

/-- The function whose image stands at an address, if one does: the bytes there are those of its contact sheets, wherever they
were copied to; a function that is not pre-empted restores its own image only (notes/assumptions 22). -/
def State.imageOwner (s : State) (f a : Nat) : Option Nat :=
  (s.fns.find? (fun (e : Nat × Fn) => (e.2.ck.out_ || e.1 == f) && (match e.2.ck.image with
    | some im => decide (0 < im.size) && areaHolds s.mem a im.size im.sheet
    | none => false))).map Prod.fst

/-- Whether an image is whole: its launches are of hummocks of a package, and its workgroups and tasks are of its launches. -/
def Image.whole (im : Image) : Bool :=
  im.launches.all (fun (e : Nat × Launch) => decide (e.2.hum < 8))
    && im.cores.all (fun (e : Nat × Core) => e.2.wgs.all (fun (w : Nat × Wg) => (mfind im.launches w.2.launch).isSome))

/-- The image that another package took, where the bytes at an address hold one, as a function's own; its launches keep their
identifiers, so none is held here (R396, R397; notes/assumptions 22). -/
def State.imageRead (s : State) (f a : Nat) : Option Image :=
  (Image.ofBytes s.mem a).bind (fun im =>
    if im.whole && im.launches.all (fun e => (mfind s.launches e.1).isNone) then
      some { im with launches := im.launches.map (fun (e : Nat × Launch) => (e.1, { e.2 with fn := f })) }
    else none)

/-- Whether a function's log, tray and image area can take an image's (R396 step 2): the log is no smaller, and each area lies in
memory that exists. -/
def State.areasFit (s : State) (f : Nat) (im : Image) : Bool :=
  let k := (s.fnAt f).ck
  let span := fun (a n : Nat) => s.assigned a && s.assigned (a + n - 1)
  decide (im.logSz ≤ k.logSz) && span k.logBase k.logBytes && span k.trayBase trayBytes && span k.imgBase im.size

/-- Whether a core of the package holds work of a function. -/
def State.hasWork (s : State) (f : Nat) : Bool := s.cores.any (fun (e : Nat × Core) => e.2.worksFor f)

/-- A restore fails: every launch of the image completes with a status, and nothing is placed (R396). -/
def State.restoreFail (s : State) (f g stat status : Nat) : State :=
  let s := s.endImage (((s.fnAt g).ck.image).getD {}) status
  let s := s.modCk g (fun k => { k with image := some {}, out_ := false })
  s.setFn f { s.fnAt f with rstStat := stat, rstWaits := [], rstFail := false }

/-- The restore of the image that function `g` holds begins (R396): the shape and the areas are checked at once; the declared ranges are
then made resident. -/
def State.restoreFrom (s : State) (f g : Nat) : State :=
  let im := (s.fnAt g).ck.image.getD {}
  match s.shape f im with
  | none => s.restoreFail f g 3 12
  | some _ =>
    if s.areasFit f im then s.setFn f { s.fnAt f with rstStat := 1, rstFrom := g, rstWaits := [], rstFail := false }
    else s.restoreFail f g 4 13

/-- A write of RSTGO (R396): of an image of this package, or of one that another package took. -/
def State.restoreGo (s : State) (f : Nat) : State :=
  let x := s.fnAt f
  if x.rstStat = 1 || s.hasWork f then s
  else
    match s.imageOwner f x.rstBase with
    | some g => s.restoreFrom f g
    | none =>
      match s.imageRead f x.rstBase with
      | none => s.setFn f { x with rstStat := 3 }
      | some im => (s.modCk f (fun k => { k with image := some im })).restoreFrom f f

/-- A write of RSTGO (R396). -/
def execRstgo (f : Nat) (s : State) : Out := .next (s.restoreGo f)

/-- The ranges of an image's launches. -/
def Image.ranges (im : Image) : List (Nat × Nat × Nat × Nat × Nat) :=
  im.launches.flatMap (fun (e : Nat × Launch) => if e.2.poster.isSome then [] else e.2.kernel.ranges)

/-- The capacity check ends, and the state is written back (R396 steps 2 and 3), once no scrub holds a sedge that it is to stand on
(R387). -/
def execRestoreDone (f : Nat) (s : State) : Out :=
  let x := s.fnAt f
  if x.rstStat ≠ 1 then .next s
  else if x.rstFail then .next (s.restoreFail f x.rstFrom 4 13)
  else
    let im := (s.fnAt x.rstFrom).ck.image.getD {}
    let r := s.reside 0 f 0 im.ranges x.rstWaits
    if r.ok then
      match r.s.shape f im with
      | none => .next (r.s.restoreFail f x.rstFrom 3 12)
      | some hm =>
        if !(r.s.coresOpen f im (r.s.coreMap f im hm)) then .next r.s
        else
        let s := r.s.setFn f { r.s.fnAt f with rstStat := 2, rstWaits := [] }
        let s := if x.rstFrom = f then s
          else (s.modCk x.rstFrom (fun k => { k with out_ := false, image := some {} }))
        .next (s.writeBack f im hm)
    else .next (r.s.setFn f { r.s.fnAt f with rstWaits := r.waits })

/-! ### Chiplet reset, fence and drop (R374) -/

/-- The launches with a workgroup on a hummock. -/
def State.launchesOn (s : State) (h : Nat) : List Nat :=
  (((List.range 64).flatMap (fun c => (s.coreAt h c).wgs.map (fun (e : Nat × Wg) => e.2.launch))).eraseDups).filter
    (fun l => (mfind s.launches l).isSome)

/-- The checkpointed functions with work on a hummock. -/
def State.ckFnsOn (s : State) (h : Nat) : List Nat :=
  (((s.launchesOn h).map (fun l => (s.launchAt l).fn)).filter (fun f => f != 0 && (s.fnAt f).ck.en)).eraseDups

/-- Launches of functions that are not checkpointed lose their workgroups on a chiplet; the others of each go on (R278, R374). -/
def State.loseChiplet (s : State) (h : Nat) : State :=
  ((s.launchesOn h).filter (fun l => !(s.rollsBack (s.launchAt l).fn))).foldl
    (fun t l => t.endSome l stChipletLost (fun r => r.h == h)) s

/-- Every core of a hummock with no work, in a status; the watchdog limits stay. -/
def State.clearCores (s : State) (h : Nat) (st : CoreStatus) : State :=
  (List.range 64).foldl (fun t c => t.setCoreAt h c { (t.coreAt h c).blank with status := st }) s

/-- An isolated core: it holds what it held, for diagnosis, but as no function's work, and what had left it goes on its way
(R374). -/
def Core.isolate (k old : Core) : Core :=
  { old with
    status := .fenced
    wgs := old.wgs.map (fun (e : Nat × Wg) => (e.1, { e.2 with fn := 64, launch := 0 }))
    reqs := k.reqs, outs := [], pend := [], coal := [] }

/-- Every core of a hummock isolated, holding what it held in an earlier state. -/
def State.isolateCores (s old : State) (h : Nat) : State :=
  (List.range 64).foldl (fun t c => t.setCoreAt h c ((t.coreAt h c).isolate (old.coreAt h c))) s

/-- The chiplet is cleared and serves again; checkpointed functions resume on the same cores (R374). -/
def State.chipletReset (s : State) (h : Nat) : State :=
  let fs := s.ckFnsOn h
  let s := s.loseChiplet h
  let s := fs.foldl (fun t f => t.unwind f) s
  let s := s.clearCores h .quiesced
  let s := s.setHum h { s.humAt h with chiplet := .inService }
  fs.foldl (fun t f =>
    let t := t.resumeImage f
    { t with cores := ((t.fnAt f).ck.image.getD {}).cores.foldl (fun (m : NMap Core) (e : Nat × Core) =>
      mset m e.1 { mget ({} : Core) m e.1 with status := .running }) t.cores }) s

/-- A checkpointed function that lost a chiplet resumes on other cores where its image fits its partition, and else waits out
of service for a restore (R374; notes/assumptions 21). -/
def State.resumeElsewhere (s : State) (f : Nat) : State :=
  let s := s.preempt f
  let im := (s.fnAt f).ck.image.getD {}
  match s.shape f im with
  | some hm => if s.coresOpen f im (s.coreMap f im hm) then s.writeBack f im hm else s
  | none => s

/-- The chiplet is isolated or removed: its work is lost or resumes elsewhere (R374); a dropped hummock leaves the logical
map.  Neither clears it. -/
def State.chipletOut (s : State) (h : Nat) (st : Chiplet) : State :=
  let old := s
  let fs := s.ckFnsOn h
  let s := s.loseChiplet h
  let s := s.setHum h { s.humAt h with chiplet := st }
  let s := if st = .dropped then { s with pkg := { s.pkg with lvalid := mset s.pkg.lvalid h false } } else s
  let s := fs.foldl (fun t f => t.resumeElsewhere f) s
  s.isolateCores old h

/-- A write of CHACT = 1 (R374). -/
def execChipletReset (h : Nat) (s : State) : Out := .next (if h < 8 then s.chipletReset h else s)
/-- A write of CHACT = 2 (R374). -/
def execChipletFence (h : Nat) (s : State) : Out := .next (if h < 8 then s.chipletOut h .fenced else s)
/-- A write of CHACT = 3 (R374). -/
def execChipletDrop (h : Nat) (s : State) : Out := .next (if h < 8 then s.chipletOut h .dropped else s)

/-- An action on a chiplet by its code: 1 reset, 2 fence, 3 drop (Table 15.3). -/
def State.chipletAct (s : State) (h act : Nat) : State :=
  if h < 8 then
    match act with
    | 1 => s.chipletReset h
    | 2 => s.chipletOut h .fenced
    | 3 => s.chipletOut h .dropped
    | _ => s
  else s

/-- The device acts on a fatal chiplet error and logs it (R374, Table 17.4). -/
def execChipletFatal (h act cause : Nat) (s : State) : Out :=
  .next ((s.logErr 0 14 h h cause).chipletAct h act)

/-! ### A halted workgroup (R363) -/

/-- A write of RSGO resumes a stopped workgroup: its halting group goes on at SPC, as `tret` would take it there (R363;
notes/assumptions 26). -/
def State.resumeWg (s : State) (h c w : Nat) : State :=
  let k := s.coreAt h c
  match mfind k.wgs w with
  | none => s
  | some x =>
    if x.stopped then
      let s := s.setCoreAt h c { k with wgs := mset k.wgs w { x with stopped := false, halting := 0 } }
      if x.halting = 0 || (mfind k.groups (x.halting - 1)).isNone then s
      else ((s.at_ { h := h, c := c, g := x.halting - 1 }).trapReturn false).at_ s.cur
    else s

/-- A write of RSGO naming a workgroup (R363). -/
def execRsgo (h c w : Nat) (s : State) : Out := .next (s.resumeWg h c w)

/-! ### Hung engine (R347) -/

/-- An engine as a reset leaves it, still its holder's (R347). -/
def Engine.hung (e : Engine) : Engine := { holder := e.holder, wdog := e.wdog, state := 3 }

/-- The watchdog limit is exceeded by what was measured of a step (R347): the engine is hung; it is then reset, and its holder is
rolled back or ends. -/
def execMatrixWatchdog (h c : Nat) (s : State) : Out :=
  let k := s.coreAt h c
  let e := k.engine
  match e.holder, e.queue with
  | some w, op :: _ =>
    if e.state ≠ 3 then
      .next (if !op.isFence && decide (e.wdog * 25 < e.measured s.chipTime * 47) then s.setCoreAt h c { k with engine := { e with state := 3 } }
        else s)
    else
      let l := (mget {} k.wgs w).launch
      let s := s.setCoreAt h c { k with engine := e.hung }
      let s := s.logErr 0 10 h (coreKey (s.phys h) c) 0
      let f := (s.launchAt l).fn
      .next (if s.rollsBack f then s.rollback f else s.endSome l stMatrixReset (fun r => r == { h := h, c := c, g := w }))
  | _, _ => .next s

end Sys2Proof.Machine
end

