-- ==== Sys2Proof/Machine/Tenancy.lean ====
section
/-! DEFINITION. Tenancy: partitions, the connection matrix, L2 ways, shares, the scrub engine and its token, the partition
query and the dirty bitmap's swap (16_tenants.md). -/

namespace Sys2Proof.Machine

/-- Change the tenancy and management registers of a hummock. -/
def State.modRegs (s : State) (h : Nat) (f : HumRegs → HumRegs) : State :=
  s.setHum h { s.humAt h with regs := f (s.humAt h).regs }

/-! ### Partitions (R378 to R381) -/

/-- The sedges a partition entry owns. -/
def Part.owned (p : Part) : Nat := if p.en then p.sedge else 0

/-- The bits of the first mask that the second lacks. -/
def andNot (a b : Nat) : Nat := a - (a &&& b)

/-- A partition entry from its register. -/
def Part.ofNat (v : Nat) : Part := { sedge := bitsOf v 0 8, msp := bitsOf v 8 8, en := bitOf v 16 }

/-- Whether a core of one of some sedges of a hummock holds a placed workgroup of a function, or the Enlarger holds an accepted
operation of it (R378, R385). -/
def State.sedgesBusy (s : State) (h f mask : Nat) : Bool :=
  (List.range 64).any (fun c => mask.testBit (c / 8) && (s.coreAt h c).worksFor f)
    || (s.humAt h).enl.any (fun (e : Nat × CopyJob) => mask.testBit (e.2.core / 8) && s.jobOfFn f h e)

/-- Whether a function has a launch context on a hummock. -/
def State.hasCtx (s : State) (h f : Nat) : Bool := (s.humAt h).ctxs.any (s.ctxOfFn f)

/-- Whether a write of a partition entry is refused (R378). -/
def State.partRefused (s : State) (h f : Nat) (new : Part) : Bool :=
  let old := (s.humAt h).regs.partAt f
  let removed := andNot old.owned new.owned
  andNot new.sedge old.sedge != 0 || (new.en && !old.en && new.sedge != 0)
    || (removed != 0 && (s.sedgesBusy h f removed || s.hasCtx h f))

/-- A partition entry as it is stored: without EN it names no sedge (R378: a write that clears EN "removes every sedge of
SEDGE"). -/
def Part.stored (p : Part) : Part := { p with sedge := p.owned }

/-- Write a partition entry (R378, R379). -/
def State.writePart (s : State) (h f v : Nat) : State :=
  if s.partRefused h f (Part.ofNat v) then s.modRegs h (fun r => { r with refused := true })
  else s.modRegs h (fun r => { r with part := mset r.part f (Part.ofNat v).stored })

/-- A write of PART(h, f) by the PF (R378). -/
def execPartWrite (h f v : Nat) (s : State) : Out := .next (if h < 8 && f < 64 then s.writePart h f v else s)

/-- A write of CONNMATi (R379, R381). -/
def execConnmatWrite (h i v : Nat) (s : State) : Out :=
  .next (if h < 8 && i < 16 then s.modRegs h (fun r => { r with connmat := mset r.connmat i (v % 65536) }) else s)

/-! ### L2 ways (R382) -/

/-- Whether a function holds a sedge of the package. -/
def State.holdsSedge (s : State) (f : Nat) : Bool := (List.range 8).any (fun h => ((s.humAt h).regs.partAt f).owned != 0)

/-- Set the ways that a function may fill in a slice. -/
def HumRegs.setWays (r : HumRegs) (slice f v : Nat) : HumRegs := { r with waymask := mset r.waymask (64 * slice + f) v }

/-- A write of WAYMASK for the slice and function selected (R382): held while the hummock is under scrub. -/
def State.writeWays (s : State) (h v : Nat) : State :=
  let r := (s.humAt h).regs
  let w := v % 65536
  if w = 0 && s.holdsSedge r.wayfn then s.modRegs h (fun r => { r with refused := true })
  else if (s.humAt h).scrub.busy then s.modRegs h (fun r => { r with wayHeld := r.wayHeld ++ [(r.waysl, r.wayfn, w)] })
  else s.modRegs h (fun r => r.setWays r.waysl r.wayfn w)

/-- A write of WAYMASK (R382). -/
def execWaymaskWrite (h v : Nat) (s : State) : Out := .next (if h < 8 then s.writeWays h v else s)

/-! ### Shares (07_work_creation.md R172) -/

/-- The sum of the shares of a resource over every queue of the package but one. -/
def State.sharesBut (s : State) (h q k : Nat) : Nat :=
  s.hums.foldl (fun n (e : Nat × Hum) => e.2.queues.foldl (fun n (x : Nat × HwQueue) =>
    if e.1 = h && x.1 = q then n else n + mget 0 x.2.share k) n) 0

/-- Write some SHARE fields of a queue: ignored, with REFUSED set, where a sum would exceed 224 (R172). -/
def State.writeShares (s : State) (h q : Nat) (ws : List (Nat × Nat)) : State :=
  if ws.all (fun w => decide (s.sharesBut h q w.1 + w.2 ≤ 224)) then
    s.modQueue h q (fun y => { y with share := ws.foldl (fun m w => mset m w.1 w.2) y.share })
  else s.modQueue h q (fun y => { y with refused := true })

/-- A write of one SHARE field (R172). -/
def execShareWrite (h q k v : Nat) (s : State) : Out :=
  .next (if h < 8 && q < 128 && k < 86 then s.writeShares h q [(k, v % 65536)] else s)

/-! ### The scrub engine (R384 to R387) -/

/-- A scrub descriptor (Table 16.3). -/
structure ScrubDesc where
  raw   : List Word
  hmask : Nat
  out_  : Nat
  in_   : Nat
  nways : Nat

/-- A descriptor's OUT in bits [6:0]: OUTVF, and OUTNONE in bit 6. -/
def ScrubDesc.outNone (d : ScrubDesc) : Bool := bitOf d.out_ 6
def ScrubDesc.inNone (d : ScrubDesc) : Bool := bitOf d.in_ 6
def ScrubDesc.outVf (d : ScrubDesc) : Nat := d.out_ % 64
def ScrubDesc.inVf (d : ScrubDesc) : Nat := d.in_ % 64

/-- The descriptor in four words. -/
def ScrubDesc.of (ws : List Word) : ScrubDesc :=
  let a := (ws.getD 0 0).toNat
  { raw := ws, hmask := a % 256, out_ := bitsOf a 8 7, in_ := bitsOf a 16 7, nways := (ws.getD 3 0).toNat % 65536 }

/-- The sedge mask of a hummock. -/
def ScrubDesc.sedges (d : ScrubDesc) (h : Nat) : Nat :=
  bitsOf (d.raw.getD (1 + h / 4) 0).toNat (8 * (h % 4)) 8

/-- The hummocks scrubbed. -/
def ScrubDesc.hums (d : ScrubDesc) : List Nat := (List.range 8).filter (fun h => d.hmask.testBit h)

/-- Whether the descriptor is malformed (R385 status 4). -/
def ScrubDesc.bad (d : ScrubDesc) : Bool :=
  let a := (d.raw.getD 0 0).toNat
  bitOf a 15 || bitsOf a 23 9 != 0 || bitsOf (d.raw.getD 3 0).toNat 16 16 != 0 || d.hmask == 0
    || (List.range 8).any (fun h => d.hmask.testBit h == (d.sedges h == 0))

/-- Whether a named sedge is not OUTVF's, or is owned with OUTNONE (R385 status 2). -/
def State.scrubOwner (s : State) (d : ScrubDesc) : Bool :=
  d.hums.any (fun h =>
    if d.outNone then (List.range 64).any (fun f => d.sedges h &&& ((s.humAt h).regs.partAt f).owned != 0)
    else andNot (d.sedges h) ((s.humAt h).regs.partAt d.outVf).owned != 0)

/-- Whether OUTVF still works on what is named (R385 status 3). -/
def State.scrubBusy (s : State) (d : ScrubDesc) : Bool :=
  !d.outNone && d.hums.any (fun h => s.sedgesBusy h d.outVf (d.sedges h) || s.hasCtx h d.outVf)

/-- The status of a scrub, the first cause in the order 4, 1, 2, 3 (R385). -/
def State.scrubStatus (s : State) (d : ScrubDesc) : Nat :=
  if d.bad then 4
  else if d.hums.any (fun h => (s.humAt h).scrub.busy) then 1
  else if s.scrubOwner d then 2
  else if s.scrubBusy d then 3
  else 0

/-- The nonce of a function as bytes (Table 16.2). -/
def Fn.nonceBytes (x : Fn) : List Byte := (List.range 4).flatMap (fun i => bytesOf 8 (mget 0 x.nonce i).toNat)

/-- A scrub starts on every hummock of HMASK (R386 step 1, R388): its sequence number and start time are recorded. -/
def State.scrubStart (s : State) (d : ScrubDesc) : State :=
  let seq := (s.pkg.scrubSeq + 1) % 2 ^ 64
  let nonce := if d.inNone then List.replicate 32 0 else (s.fnAt d.inVf).nonceBytes
  let who := s.cur
  let now := s.chipTime
  d.hums.foldl (fun t h => t.setHum h { t.humAt h with scrub := { (t.humAt h).scrub with
      busy := true, signing := false, done := 0, seq := seq, tstart := now, out_ := d.out_, in_ := d.in_, sedges := d.sedges h
      desc := d.raw, nonce := nonce, who := who } })
    { s with pkg := { s.pkg with scrubSeq := seq } }

/-- `scrub` (R384, R385). -/
def execScrub (m : MReg) (a b : Reg) (s : State) : Out :=
  let e := s.exe m
  if e = 0 then .next s.advance
  else
    let d := ScrubDesc.of ((List.range 4).map (fun i => s.lreg (lowest e) (a.toNat + i)))
    let st := s.scrubStatus d
    if st ≠ 0 then
      .next ((s.writeLanes (s.live m) b.toNat (fun _ => BitVec.ofNat 32 st)).writeLanes (s.live m) (b.toNat + 1) (fun _ => 0)).advance
    else
      let live := s.live m
      let s := s.scrubStart d
      .next (s.setWait (.scrub s.pkg.scrubSeq b live))

/-- The cleared-structure bitmap of a scrub (Table 16.4a). -/
def ScrubDesc.cleared (d : ScrubDesc) : Nat := if d.nways = 0 then 0x5FFF else 0x7FFF

/-- A core as a scrub leaves it: with no work, and its sequencer as at reset, the watchdog limit included (R386 row 12;
notes/assumptions 43). -/
def Core.scrubbed (k : Core) : Core := { status := k.status }

/-- Clear the structures of Table 16.4a on one hummock (R386 step 2). -/
def State.scrubClear (s : State) (d : ScrubDesc) (h : Nat) : State :=
  let x := s.humAt h
  let mine := fun (f : Nat) => (!d.outNone && f == d.outVf) || (!d.inNone && f == d.inVf)
  let x := { x with
    tlb := x.tlb.filter (fun t => !mine t.fn)
    wcache := x.wcache.filter (fun (e : Nat × WalkCache) => !mine e.2.fn)
    gbars := if d.outNone then x.gbars else x.gbars.filter (fun e => !(s.gbarOfFn d.outVf h e))
    lbars := if d.outNone then x.lbars else x.lbars.filter (fun e => !(s.lbarOfFn d.outVf h e))
    ctxs := if d.outNone then x.ctxs else x.ctxs.filter (fun e => !(s.ctxOfFn d.outVf e)) }
  ((List.range 64).filter (fun c => (d.sedges h).testBit (c / 8))).foldl
    (fun t c => t.setCoreAt h c (t.coreAt h c).scrubbed) (s.setHum h x)

/-- A scrub writes the modified lines of some ways of every slice of a hummock to HBM and frees the ways (Table 16.4a row 13). -/
def L2.scrubbed (x : L2) (h nways : Nat) : L2 :=
  { x with tags := x.tags.filter (fun e => !(e.slice / 64 == h && nways.testBit e.way)) }

/-- The tenancy registers once a scrub has moved the sedges and ways (R386 steps 3 and 4). -/
def HumRegs.scrubMove (r : HumRegs) (d : ScrubDesc) (h : Nat) : HumRegs :=
  let r := if d.outNone then r else
    let p := r.partAt d.outVf
    { r with part := mset r.part d.outVf { p with sedge := andNot p.sedge (d.sedges h) } }
  let r := if d.inNone then r else
    let p := r.partAt d.inVf
    { r with part := mset r.part d.inVf { p with sedge := p.owned ||| d.sedges h, en := true } }
  let r := if d.inNone then r else (List.range 64).foldl (fun r i => r.setWays i d.inVf d.nways) r
  if d.outNone then r
  else (List.range 64).foldl (fun r i => r.setWays i d.outVf (andNot (r.waymaskAt i d.outVf) d.nways)) r

/-- The writes of WAYMASK held during a scrub are made when it completes (R382). -/
def HumRegs.releaseWays (r : HumRegs) : HumRegs :=
  { r.wayHeld.foldl (fun r w => r.setWays w.1 w.2.1 w.2.2) r with wayHeld := [] }

/-- The body of a token, bytes 0x00 to 0x9F (Table 16.4). -/
def State.tokenBody (s : State) (d : ScrubDesc) (g : Scrub) : List Byte :=
  bytesOf 4 0x53424B54 ++ bytesOf 2 1 ++ bytesOf 1 d.hmask ++ bytesOf 1 0
    ++ bytesOf 16 Config.deviceIdentity.toNat
    ++ bytesOf 1 d.out_ ++ bytesOf 1 d.in_ ++ bytesOf 2 0 ++ bytesOf 4 d.cleared
    ++ bytesOf 8 g.seq ++ bytesOf 8 g.tstart ++ bytesOf 8 g.tend ++ g.nonce
    ++ beBytes 48 (if s.pkg.measured then s.pkg.fwMeasure else 0)
    ++ bytesOf 4 (d.raw.getD 1 0).toNat ++ bytesOf 4 (d.raw.getD 2 0).toNat ++ bytesOf 16 0

/-- A token: its body and the signature of the body (R388, R389). -/
def State.tokenOf (s : State) (d : ScrubDesc) (g : Scrub) : List Byte :=
  let body := s.tokenBody d g
  let sig := signBytes s.freeCtr body
  body ++ beBytes 48 sig.1 ++ beBytes 48 sig.2

/-- Sign the token, with a fresh secret, and store it (R386 step 6, R388, R389). -/
def State.scrubToken (s : State) (d : ScrubDesc) (g : Scrub) : State :=
  let tok := s.tokenOf d g
  let s := { s with freeCtr := s.freeCtr + 1 }
  let s := d.hums.foldl (fun t h => t.setHum h { t.humAt h with
    scrub := { (t.humAt h).scrub with busy := false, signing := false, token := tok }
    regs := (t.humAt h).regs.releaseWays }) s
  if d.inNone then s
  else s.setFn d.inVf { s.fnAt d.inVf with token := tok, tokseq := g.seq }

/-- The group that issued a scrub goes on with its results, if it still waits (R384). -/
def State.scrubResult (s0 : State) (r : GRef) (seq : Nat) : State :=
  let s := s0.at_ r
  match s.grp.wait with
  | .scrub n dst live =>
    if n = seq then
      ((s.writeLanes live dst.toNat (fun _ => 0)).writeLanes live (dst.toNat + 1) (fun _ => BitVec.ofNat 32 seq)).endMem
    else s0
  | _ => s0

/-- The scrub that a group issued, if one runs. -/
def State.scrubOf (s : State) (r : GRef) : Option Scrub :=
  (s.hums.find? (fun (e : Nat × Hum) => e.2.scrub.busy && e.2.scrub.who == r)).map (fun e => e.2.scrub)

/-- A scrub has cleared its structures and moved ownership and ways; its end time is recorded and it signs (R386 steps 2 to 5,
Table 16.6). -/
def State.scrubCleared (s : State) (d : ScrubDesc) : State :=
  let s := d.hums.foldl (fun t h => t.scrubClear d h) s
  let s := { s with l2 := d.hums.foldl (fun x h => x.scrubbed h d.nways) s.l2 }
  let s := d.hums.foldl (fun t h => t.modRegs h (fun r => r.scrubMove d h)) s
  let now := s.chipTime
  d.hums.foldl (fun t h => t.setHum h { t.humAt h with
    scrub := { (t.humAt h).scrub with signing := true, done := d.cleared, tend := now } }) s

/-- The scrub of a group goes on: it clears, and then, once it signs, its token is stored and the group's results are written
(R386, R387). -/
def execScrubComplete (h c g : Nat) (s : State) : Out :=
  match s.scrubOf { h := h, c := c, g := g } with
  | none => .next s
  | some x =>
    let d := ScrubDesc.of x.desc
    .next (if x.signing then (s.scrubToken d x).scrubResult x.who x.seq else s.scrubCleared d)

/-! ### The token and the partition query (R391, R393) -/

/-- `tok.rd` (R391). -/
def execTokRd (m : MReg) (a b : Reg) (off : BitVec 15) (s : State) : Out :=
  let e := s.exe m
  let sg := s.segOf 2
  let l := lowest e
  let o : Int := ((s.lreg l b.toNat).toNat : Int) + off.toInt
  let x := (o % (2 ^ 64 : Nat)).toNat
  .next (
    if e = 0 then s.advance
    else if !(sg.valid && sg.w) then s.trap tAccess l x
    else if o < 0 || (sg.size : Int) < o + 256 then s.trap tBounds l x
    else if o % 128 ≠ 0 then s.trap tAlign l x
    else if !(s.released (s.slotsOf e)) then s.setWait (.order (s.slotsOf e))
    else if s.tokenReady (sg.base + x) then s.tokenGo a (s.live m) (sg.base + x)
    else s.setWait (.token a (s.live m) (sg.base + x)))

/-- `part.q` (R393). -/
def execPartQ (m : MReg) (a b : Reg) (s : State) : Out :=
  let e := s.exe m
  let f := s.accFn
  let p := s.hum.regs.partAt f
  let slice := (s.lreg (lowest e) b.toNat).toNat % 64
  let v := packFields [(0, 6, f), (8, 8, p.sedge), (16, 8, p.msp), (24, 1, b2n p.en), (32, 16, s.hum.regs.waymaskAt slice f),
    (64, 64, (s.fnAt f).tokseq)]
  .next (if e = 0 then s.advance else (s.writeQuad (s.live m) a.toNat (fun _ => v)).advance)

/-! ### Swapping the dirty bitmap's buffers (R395) -/

/-- A write of DBMSWAP: the instant is the first multiple of 1 µs at least 2 µs ahead; ignored while a swap runs (R395). -/
def State.dbmSwap (s : State) (f : Nat) : State :=
  let x := s.fnAt f
  if x.dbmBusy then s
  else s.setFn f { x with dbmBusy := true, dbmFlip := false, dbmNext := (s.chipTime + 2000 + 999) / 1000 * 1000 }

/-- A write of DBMSWAP (R395). -/
def execDbmswap (f : Nat) (s : State) : Out := .next (s.dbmSwap f)

/-- The swap instant: DBMACT changes (R395). -/
def execDbmSwapInstant (f : Nat) (s : State) : Out :=
  let x := s.fnAt f
  .next (if x.dbmBusy && !x.dbmFlip && decide (x.dbmNext ≤ s.chipTime) then
           s.setFn f { x with dbmFlip := true, dbmAct := !x.dbmAct }
         else s)

/-- Every mark of the old buffer is in memory: DBMBUSY clears and DBMTSW holds the instant (R395). -/
def execDbmSwapDone (f : Nat) (s : State) : Out :=
  let x := s.fnAt f
  .next (if x.dbmBusy && x.dbmFlip then s.setFn f { x with dbmBusy := false, dbmFlip := false, dbmTsw := x.dbmNext } else s)

end Sys2Proof.Machine
end

