-- ==== Sys2Proof/Machine/Device.lean ====
section
/-! DEFINITION. The device boundary: joining a domain and chip-time faults, firmware, rails, thermal trips, HBM banks, links,
power and bring-up (17_device_boundary.md R404, R405, R413 to R427; 09_translation_leases.md R214; 16_tenants.md R398). -/

namespace Sys2Proof.Machine

/-- A number of `w` bits read as signed. -/
def signedOf (w x : Nat) : Int := sextNat (x % 2 ^ w) w

/-- A signed number in an 8-byte information word. -/
def word64 (x : Int) : Nat := (x % (2 ^ 64 : Nat)).toNat

/-! ### Joining a domain (R405) -/

/-- A write of DOMEN = 1: the package joins once (R404, R405). -/
def State.joinDomain (s : State) : State :=
  if s.pkg.domen then s else { s with pkg := { s.pkg with domen := true, domAt := s.chipTime } }

/-- A write of DOMEN (R404, R405). -/
def execDomen (s : State) : Out := .next s.joinDomain

/-- The first whole microsecond of the reference's own count after DOMEN was written (R405 step 3). -/
def Pkg.lockAt (p : Pkg) : Nat := (p.domAt / 1000 + 1) * 1000

/-- The package's chip time becomes a value now. -/
def State.setChip (s : State) (t : Nat) : State := { s with pkg := { s.pkg with chip := t, chipAt := s.uc } }

/-- The units lock, once every one is within its limits (R27): the reference's package takes EPOCH at its next whole microsecond, any other the reference's time `t`
(R405); bring-up has then ended (R427; notes/assumptions 3). -/
def execDomainEpochLock (t : Nat) (s : State) : Out :=
  let p := s.pkg
  let own := p.tref / 8 == p.pkgnum
  if p.domen && !p.domrdy && p.faulty.isEmpty && (!own || decide (p.lockAt ≤ s.chipTime)) then
    let s := s.setChip ((if own then p.epoch + (s.chipTime - p.lockAt) else t) % 2 ^ 64)
    .next { s with pkg := { s.pkg with domrdy := true, up := p.measured } }
  else .next s

/-- The map address of a chip-time unit: a core's in its core status window, a base die's in window 0x19 (core number 64 here);
the fields of Table 1.8. -/
def State.unitAddr (s : State) (h c : Nat) : Nat :=
  if c < 64 then s.phys h * 2 ^ 39 + c * 2 ^ 33 + 0x0E * 2 ^ 28 else s.phys h * 2 ^ 39 + 63 * 2 ^ 33 + 0x19 * 2 ^ 28

/-- A unit that has not locked within 10 ms logs CLOCK_SKEW and keeps trying (R405); its measured offset is a free value. -/
def execDomainLockTimeout (h c : Nat) (s : State) : Out :=
  if s.pkg.domen && !s.pkg.domrdy && decide (s.pkg.domAt + 10000000 ≤ s.chipTime) then
    let v := s.free
    .next (v.2.logErr 0 1 h (s.unitAddr h c) v.1.toNat)
  else .next s

/-! ### Chip-time faults (R214) -/

/-- The number of a chip-time unit: a core's, or a base die's for core number 64. -/
def unitKey (h c : Nat) : Nat := if c < 64 then coreKey h c else 512 + h

/-- The measured offset of a unit that exceeds its bound, if one does: 8 ns from its package's reference, or 64 ns from the domain
reference (R27, R214); the first is named where both do (notes/assumptions 30). -/
def skewOf (off dom : Int) : Option Int :=
  if 8 < off.natAbs then some off else if 64 < dom.natAbs then some dom else none

/-- A unit's offset exceeds its bound: the translation caches it times are emptied and CLOCK_SKEW is logged (R214, R219); `off` is
its signed 64-bit offsets in ns from the package's reference and from the domain reference. -/
def execClockSkew (h c : Nat) (off : Nat × Nat) (s : State) : Out :=
  match (if s.faulty (unitKey h c) then none else skewOf (signedOf 64 off.1) (signedOf 64 off.2)) with
  | none => .next s
  | some x =>
    let s := { s with pkg := { s.pkg with faulty := mset s.pkg.faulty (unitKey h c) x } }
    let s := if c < 64 then s.setCoreAt h c { s.coreAt h c with tlb := [] }
             else s.setHum h { s.humAt h with tlb := [], wcache := [] }
    .next (s.logErr 0 1 h (s.unitAddr h c) (word64 x))

/-- The unit's offset is within bound again (R214). -/
def execClockSkewRecover (h c : Nat) (s : State) : Out :=
  .next { s with pkg := { s.pkg with faulty := mdel s.pkg.faulty (unitKey h c) } }

/-! ### Firmware (R415, R416) -/

/-- A write of FWGO: the check starts, unless one runs (R416). -/
def State.fwStart (s : State) : State := if s.pkg.fwstat = 1 then s else { s with pkg := { s.pkg with fwstat := 1 } }

/-- A write of FWGO (R416). -/
def execFwgo (s : State) : Out := .next s.fwStart

/-- The length of a firmware image lies within its limits (R416). -/
def Pkg.fwLenOk (p : Pkg) : Bool := decide (4096 ≤ p.fwlen) && decide (p.fwlen ≤ 2 ^ 26)

/-- The body of the image at FWBASE verifies under the vendor's key: it begins with the magic, and the 96 bytes after it are r and s,
each big-endian (R415). -/
def State.fwSigned (s : State) : Bool :=
  let n := s.pkg.fwlen - 96
  let body := readBytes s.mem s.pkg.fwbase n
  let sig := readBytes s.mem (s.pkg.fwbase + n) 96
  readN s.mem s.pkg.fwbase 4 == 0x46574947
    && verifyBytes Config.vendorKey body (leNat (sig.take 48).reverse) (leNat (sig.drop 48).reverse)

/-- The root of trust reads the image at FWBASE: its accumulators drain (R260), and a line where no memory is assigned is logged (R411);
false where a line is unassigned or poisoned, whose data it cannot use. -/
def State.fwRead (s : State) : State × Bool :=
  let ls := spanLines s.pkg.fwbase s.pkg.fwlen
  let t := ls.foldl (fun t l => t.logUnassigned 0 l) (s.drainRange s.pkg.fwbase s.pkg.fwlen)
  (t, ls.all (fun l => !(s.linePoison l)))

/-- What a check of the image at FWBASE finds (R415, R416): FWSTAT and the image's security version; an image that cannot be read
whole (`whole` false) does not verify. -/
def State.fwCheck (s : State) (whole : Bool) : Nat × Nat :=
  let p := s.pkg
  let ver := if whole then readN s.mem (p.fwbase + 4) 4 else 0
  if !p.fwLenOk then (5, 0)
  else if !whole || !s.fwSigned then (3, ver)
  else if ver < p.fwVersion then (4, ver)
  else (2, ver)

/-- The check ends: a good image is staged with its measurement, and the result is logged (R416).  The event says whether the root of
trust read the image without an error of its own; an image that it could not read does not verify (notes/assumptions 8). -/
def execFirmwareCheckDone (readOk : Bool) (s : State) : Out :=
  if s.pkg.fwstat = 1 then
    let p := if s.pkg.fwLenOk then s.fwRead else (s, true)
    let r := p.1.fwCheck (readOk && p.2)
    let m := sha384 (readBytes p.1.mem p.1.pkg.fwbase (p.1.pkg.fwlen - 96))
    let s := { p.1 with pkg := { p.1.pkg with
      fwstat := r.1, fwNext := if r.1 = 2 then some (r.2, m) else p.1.pkg.fwNext } }
    .next (s.logErr 0 15 0 r.1 r.2)
  else .next s

/-! ### Power and bring-up (R427) -/

/-- The availability of a stack. -/
def State.stackAt (s : State) (h k : Nat) : Stack := mget {} (s.humAt h).banks k
/-- Set the availability of a stack. -/
def State.setStack (s : State) (h k : Nat) (x : Stack) : State :=
  s.setHum h { s.humAt h with banks := mset (s.humAt h).banks k x }

/-- Set the state of a link. -/
def State.setLink (s : State) (h l : Nat) (x : Link) : State :=
  s.setHum h { s.humAt h with links := mset (s.humAt h).links l x }

/-- A stack whose training fails reports no live bank (Table 17.6 step 2). -/
def State.failStack (s : State) (h k : Nat) : State :=
  s.setStack h k { dead := List.range 2048, lowered := Config.stackBytes / 65536 }

/-- A mesh link, CXL port or host port whose training fails is fenced (Table 17.6 step 3). -/
def State.failPort (s : State) (h l : Nat) : State :=
  if decide (4 ≤ l) && hasLink h l then s.setLink h l { s.linkAt h l with fenced := true } else s

/-- A compute chiplet that fails its release is held fenced (Table 17.6 step 4, R374). -/
def State.failChiplet (s : State) (h : Nat) : State :=
  (s.clearCores h .fenced).setHum h { s.humAt h with chiplet := .fenced }

/-- Bring-up after power or reset (Table 17.6): firmware verified, the base dies trained with FCEN set, links trained, and
chiplets released with their cores quiesced. The event says whether the firmware verifies and names the stacks (bit 2h + k),
the chiplets (bit h) and the ports that fail in steps 2 to 4. A failure of step 1 leaves the package in reset with
FWSTAT = 3. -/
def execPowerOn (bringUp : Bool × Nat × Nat × List (Nat × Nat)) (s : State) : Out :=
  let (fwOk, badHbm, chiplets, ports) := bringUp
  if s.pkg.power && s.pkg.measured then .next s
  else
    let s := { s with pkg := { s.pkg with power := true } }
    if fwOk then
      let s := { s with pkg := { s.pkg with measured := true, up := s.pkg.domrdy } }
      let s := (List.range 8).foldl (fun t h => t.modRegs h (fun r => { r with fcen := true })) s
      let s := (List.range 16).foldl (fun t i => if badHbm.testBit i then t.failStack (i / 2) (i % 2) else t) s
      let s := ports.foldl (fun t p => t.failPort p.1 p.2) s
      .next ((List.range 8).foldl (fun t h => if chiplets.testBit h then t.failChiplet h else t) s)
    else .next { s with pkg := { s.pkg with fwstat := 3 } }

/-- The package as a reset leaves it: memory outside the package stays, its own HBM is lost, and the firmware staged
before runs (R416, R427; notes/assumptions 23). -/
def State.restart (s : State) : State :=
  { State.reset with
    mem := s.mem.filter (fun e => isHost e.1 || s.remote e.1 || decide (2 ^ 55 ≤ e.1))
    agenda := s.agenda, prompt := s.prompt, freeCtr := s.freeCtr
    pkg := { power := s.pkg.power, trip := s.pkg.trip,
             fwRun := if s.pkg.fwNext.isSome then s.pkg.fwNext else s.pkg.fwRun } }

/-- Package reset (R26, R388, R416). -/
def execPackageReset (s : State) : Out := .next s.restart

/-- The package loses power: no state is kept (R427). -/
def execPowerLoss (s : State) : Out :=
  let t := s.restart
  .next { t with pkg := { t.pkg with power := false, trip := false } }

/-- A core with no work is power-gated: its L1 TLB empties (R219). -/
def execPowerGating (h c : Nat) (s : State) : Out :=
  let k := s.coreAt h c
  if k.wgs.isEmpty && (k.status == .running || k.status == .quiesced) then
    .next (s.setCoreAt h c { k with status := .gated, tlb := [], l1 := [], icache := [] })
  else .next s

/-- A gated core has power again; it takes chip time from its base die (R26). -/
def execCorePoweredAgain (h c : Nat) (s : State) : Out :=
  let k := s.coreAt h c
  if k.status == .gated then .next (s.setCoreAt h c { k with status := .running }) else .next s

/-- The host sets VF Enable and NumVFs (R233, R409). -/
def execVfEnable (en : Bool) (n : Nat) (s : State) : Out :=
  .next { s with pkg := { s.pkg with vfen := en, numvfs := min n 63 } }

/-- A line's data takes an uncorrectable error (R204): space 0 is memory, any other a core's scratchpad. -/
def execUncorrectableError (space h c line : Nat) (s : State) : Out :=
  .next (
    if space = 0 then (if s.poison.contains line then s else { s with poison := s.poison ++ [line] })
    else
      let k := s.coreAt h c
      if k.poison.contains line || Config.scratchLines ≤ line then s
      else s.setCoreAt h c { k with poison := k.poison ++ [line] })

/-! ### Rails (R418 to R420) -/

/-- The neighbours of a sense point in its grid (R418, R420). -/
def railNeighbours (p : Nat) : List Nat :=
  let w := if p < 64 then 8 else 4
  let b := if p < 64 then 0 else 64
  let r := (p - b) / w
  let c := (p - b) % w
  (if 0 < r then [p - w] else []) ++ (if r + 1 < w then [p + w] else [])
    ++ (if 0 < c then [p - 1] else []) ++ (if c + 1 < w then [p + 1] else [])

/-- The offset of a sample from its neighbours' mean (Table 17.5), rounded toward zero (notes/assumptions 24). -/
def HumRegs.railStep (r : HumRegs) (p v : Nat) : Int :=
  let ns := railNeighbours p
  let sum := ns.foldl (fun n q => n + (mget ({} : RailPt) r.rails q).vnow) 0
  ((v : Int) * ns.length - sum).tdiv ns.length

/-- The rail of a point: 0 the chiplet's, 1 the base die's. -/
def railOf (p : Nat) : Nat := if p < 64 then 0 else 1

/-- The currents of a rail over the last 1 ms, the newest included. -/
def HumRegs.currents (r : HumRegs) (rail : Nat) : List Nat := (r.current.filter (fun e => e.1 == rail)).map (fun e => e.2.2)

/-- The rail current has changed by less than CRKDI, in 0.1 % of it, over the last 1 ms (R420). -/
def HumRegs.steady (r : HumRegs) (rail cur : Nat) : Bool :=
  let cs := r.currents rail
  let hi := cs.foldl max cur
  let lo := cs.foldl min cur
  decide ((hi - lo) * 1000 < r.crkdi * cur)

/-- A point takes a sample (R419, R420). -/
def RailPt.sample (x : RailPt) (v : Nat) (step : Int) (sus : Bool) (now : Nat) : RailPt :=
  { x with
    vnow := v, vstep := step, suspect := sus
    since := if x.suspect then x.since else now
    vmin := if v < x.vmin then v else x.vmin
    tmin := if v < x.vmin then now % 2 ^ 48 else x.tmin }

/-- A sample of point `p` with its rail's current (R418 to R420). -/
def HumRegs.railSample (r : HumRegs) (p v cur now : Nat) : HumRegs :=
  let r : HumRegs := { r with
    current := (r.current.filter (fun (e : Nat × Nat × Nat) => decide (now < e.2.1 + 1000000))) ++ [(railOf p, now, cur)]
    curChip := if p < 64 then cur else r.curChip
    curBase := if p < 64 then r.curBase else cur }
  let x := mget ({} : RailPt) r.rails p
  let step := r.railStep p v
  let sus := decide (r.crkstep ≤ step.natAbs) && r.steady (railOf p) cur
  { r with
    rails := mset r.rails p (x.sample v step sus now)
    minv := if v < x.vmin && !r.minv.contains p then r.minv ++ [p] else r.minv }

/-- A sense point is sampled: `v` in 0.25 mV, `cur` in 0.1 A (R418, R419). -/
def execRailSample (h p v cur : Nat) (s : State) : Out :=
  .next (if h < 8 && p < 80 then s.modRegs h (fun r => r.railSample p (v % 65536) (cur % 65536) s.chipTime) else s)

/-- Clear the records of the points of a half of the map (R419); `k` is 0 for MINV0 and 1 for MINV1. -/
def HumRegs.minvClear (r : HumRegs) (k v : Nat) : HumRegs :=
  let hit := fun (p : Nat) => p / 64 == k && v.testBit (p % 64)
  { r with
    minv := r.minv.filter (fun p => !hit p)
    rails := r.rails.map (fun (e : Nat × RailPt) => if hit e.1 then (e.1, { e.2 with vmin := 0xFFFF, tmin := 0 }) else e) }

/-- A W1C write of MINV0 or MINV1 (R419). -/
def execMinvClear (h k v : Nat) (s : State) : Out := .next (if h < 8 then s.modRegs h (fun r => r.minvClear k v) else s)

/-- A point has been suspect for CRKTIME: its CRACK bit is set and RAIL_CRACK logged (R420). -/
def execRailCrack (h p : Nat) (s : State) : Out :=
  let r := (s.humAt h).regs
  let x := mget {} r.rails p
  if x.suspect && !r.crack.contains p && decide (x.since + r.crktime * 100000 ≤ s.chipTime) then
    .next ((s.modRegs h (fun r => { r with
      crack := r.crack ++ [p], rails := mset r.rails p { x with suspect := false } })).logErr 0 6 h p (word64 x.vstep))
  else .next s

/-! ### Thermal trips (R421 to R423) -/

/-- A trip state after a temperature: set at the trip point, cleared 2 °C below it (R422). -/
def tripState (old : Bool) (t point : Int) : Bool := decide (point ≤ t) || (old && decide (point - 32 < t))

/-- A sensor at a temperature now (R421, R422): a sensor with FAULT asserts THR. -/
def Sensor.at_ (x : Sensor) (t : Int) (now : Nat) : Sensor :=
  { x with temp := t, isAdv := tripState x.isAdv t x.adv, isThr := x.bad || tripState x.isThr t x.thr
           isShd := tripState x.isShd t x.shd, hot := if x.thr ≤ t then some (x.hot.getD now) else none }

/-- Change the clock rate of a hummock, keeping its cycle count (R422). -/
def State.setHalf (s : State) (h : Nat) (half : Bool) : State :=
  if (s.humAt h).half = half then s
  else s.setHum h { s.humAt h with cyc := s.cycles h, cycAt := s.uc, half := half }

/-- A sensor changes: the clock follows every THR of the hummock, ADV is logged once per rise, and SHD drives
THERMTRIP_N (R422). -/
def State.setSensor (s : State) (h i : Nat) (x : Sensor) : State :=
  let old := (s.humAt h).regs.sensorAt i
  let s := s.modRegs h (fun r => { r with sensors := mset r.sensors i x })
  let s := s.setHalf h ((s.humAt h).regs.sensors.any (fun (e : Nat × Sensor) => e.2.isThr))
  let s := if x.isShd && !old.isShd then { s with pkg := { s.pkg with trip := true } } else s
  if x.isAdv && !old.isAdv then s.logErr 0 7 h i (word64 x.temp) else s

/-- A sensor reads a temperature `t`, signed in 16 bits of 1/16 °C (R421, R422). -/
def execThermalTrip (h i t : Nat) (s : State) : Out :=
  .next (if h < 8 && i < 192 then s.setSensor h i (((s.humAt h).regs.sensorAt i).at_ (signedOf 16 t) s.chipTime) else s)

/-- A sensor fails: it asserts THR (R421). -/
def execSensorFault (h i : Nat) (s : State) : Out :=
  .next (if h < 8 && i < 192 then
           s.setSensor h i { (s.humAt h).regs.sensorAt i with bad := true, isThr := true }
         else s)

/-- A write of THVAL for the selected sensor: refused unless the points are in order and within their limit (R421). -/
def State.writeThval (s : State) (h v : Nat) : State :=
  let r := (s.humAt h).regs
  let a := signedOf 16 v
  let t := signedOf 16 (v / 2 ^ 16)
  let d := signedOf 16 (v / 2 ^ 32)
  if a ≤ t && t ≤ d && d ≤ (if 176 ≤ r.thsel then 105 * 16 else 125 * 16) && decide (r.thsel < 192) then
    let x := { r.sensorAt r.thsel with adv := a, thr := t, shd := d }
    s.setSensor h r.thsel (x.at_ x.temp s.chipTime)
  else s.modRegs h (fun r => { r with thref := true })

/-- A write of THVAL (R421). -/
def execThvalWrite (h v : Nat) (s : State) : Out := .next (if h < 8 then s.writeThval h v else s)

/-- Base-die firmware writes a forecast while FCEN = 1 (R423). -/
def execThermalForecast (h t : Nat) (s : State) : Out :=
  .next (if h < 8 && (s.humAt h).regs.fcen then
           s.modRegs h (fun r => { r with fctemp := signedOf 16 t, fcvalid := true, fctime := s.chipTime })
         else s)

/-! ### HBM banks (R424 to R426) -/

/-- The frames of a bank (R424). -/
def bankFrames : Nat := 768

/-- The sensors of a stack (R421). -/
def stackSensors (k : Nat) : List Nat := (List.range 8).map (fun i => 176 + 8 * k + i)

/-- Whether a bank may be retired for a cause (R425): 1, its errors, which the controller counts and the event reports; or 2, a
sensor of its stack at or above its throttle point for 1 s. -/
def State.mayRetire (s : State) (h k cause : Nat) : Bool :=
  cause == 1 || (cause == 2 && (stackSensors k).any (fun i => match ((s.humAt h).regs.sensorAt i).hot with
    | some t => decide (t + 1000000000 ≤ s.chipTime)
    | none => false))

/-- A controller starts to retire a bank, one at a time (R425 step 1); the entry names stack, bank and cause, and the new
LIVETOP. -/
def execBankRetiring (h k bank cause : Nat) (s : State) : Out :=
  let x := s.stackAt h k
  if decide (h < 8) && decide (k < 2) && decide (bank < 2048) && !x.retiring && !x.dead.contains bank && s.mayRetire h k cause then
    let s := s.setStack h k { x with
      bank := bank, retiring := true, acked := false, remap := false, cause := cause, moved := 0 }
    .next (s.logErr 0 8 h (packFields [(0, 1, k), (1, 11, bank), (12, 2, cause)]) (s.livetop h k - bankFrames * 65536))
  else .next s

/-- A write of BKACK naming a stack and bank (R425 step 2): ignored unless it names the retirement under way. -/
def State.bankAck (s : State) (h k bank : Nat) : State :=
  let x := s.stackAt h k
  if decide (h < 8) && decide (k < 2) && x.retiring && x.bank == bank then s.setStack h k { x with acked := true } else s

/-- A write of BKACK (R425 step 2). -/
def execBkack (h k bank : Nat) (s : State) : Out := .next (s.bankAck h k bank)

/-- The live frames of a stack once its retirement under way is done: those below the new LIVETOP (R425). -/
def Stack.frames (x : Stack) : Nat := Config.stackBytes / 65536 - x.lowered - bankFrames

/-- The remap step moves one live frame as one event; its host-physical address stays (R425 step 3, R426). -/
def execFrameMove (h k : Nat) (s : State) : Out :=
  let x := s.stackAt h k
  .next (if x.retiring && x.acked && decide (x.moved < x.frames) then s.setStack h k { x with remap := true, moved := (x.moved + 1) % 2 ^ 32 } else s)

/-- The bank is retired once every live frame has moved: LIVETOP falls by its frames (R425 step 4). -/
def execBankRetired (h k : Nat) (s : State) : Out :=
  let x := s.stackAt h k
  if x.retiring && x.acked && decide (x.frames ≤ x.moved) then
    let s := s.setStack h k { x with
      dead := x.dead ++ [x.bank], retiring := false, acked := false, remap := false, lowered := x.lowered + bankFrames }
    .next (s.logErr 0 9 h (packFields [(0, 1, k), (1, 11, x.bank)]) (s.livetop h k))
  else .next s

/-! ### Links (R398, R413, R414) -/

/-- Bytes with one bit inverted. -/
def flipBit (bs : List Byte) (i : Nat) : List Byte := bs.set (i / 8) (bs.getD (i / 8) 0 ^^^ BitVec.ofNat 8 (2 ^ (i % 8)))

/-- A flit's header and ECC code, bytes 0 to 15, with an error of one bit corrected; none where it cannot be (R398, R413). -/
def flitHead (flit : List Byte) : Option (List Byte) :=
  let hd := flit.take 16
  (hd :: (List.range 128).map (flipBit hd)).find? (fun x => leNat (x.drop 12) == Config.headerEcc (x.take 12))

/-- The header and the payload of a flit that can be acted on: its header is good and its CRC covers bytes 0 to 247 (R413). -/
def goodFlit (flit : List Byte) : Option (List Byte × List Byte) :=
  match flitHead flit with
  | none => none
  | some hd =>
    let rest := (flit.drop 16).take 232
    if flit.length = 256 && leNat (flit.drop 248) == crc64 (hd ++ rest) then some (hd.take 12, rest) else none

/-- The effect of a flit's payload on this package (R371, R413). -/
def State.takeFlit (s : State) (hd payload : List Byte) : State :=
  match Config.flitMsg hd payload with
  | some (f, seq, msg) => s.takeMsg f seq msg
  | none => s

/-- What a flit's header tells of the flits this end has sent: up to which number the other end has them all, or from which on it
wants the kept ones again, in their order (R413). -/
def Link.control (x : Link) (hd : List Byte) : Link :=
  match Config.flitCtl hd with
  | some (true, n) => { x with acked := n % 4096 }
  | some (false, n) =>
    let from_ := (x.out + 4096 - n % 4096) % 4096
    { x with again := ((List.range from_).map (fun i => (n + i) % 4096)).filter (fun i => (mfind x.buffer i).isSome) }
  | none => x

/-- A good flit in its order is taken: the other end is told that this one has every flit before the next (R413). -/
def Link.took (x : Link) : Link :=
  let n := (x.next + 1) % 4096
  { x with next := n, told := n, bad := 0, retry := false }

/-- A flit arrives, as its 16 bytes of header and ECC and the rest (R398, R413): acted on only when good and in order, and so only
once, and then acknowledged; a bad one is dropped before any effect and a retry from its number requested. -/
def execFlitReceive (h link : Nat) (head rest : List Byte) (s : State) : Out :=
  let x := s.linkAt h link
  let flit := head ++ rest
  .next (
    if x.fenced || !(hasLink h link) then s
    else match goodFlit flit with
    | some (hd, payload) =>
      if Config.flitSeq hd % 4096 = x.next then
        (s.setLink h link (x.took.control hd)).takeFlit hd payload
      else s
    | none => s.setLink h link { x with bad := x.bad + 1, retry := true, since := if x.bad = 0 then s.chipTime else x.since })

/-- The next flit that the other end wants again goes on the link as it was kept (R413). -/
def flitAgain (h link : Nat) (s : State) : Out :=
  let x := s.linkAt h link
  .next (match x.again with
    | [] => s
    | n :: rest => if x.fenced then s else s.setLink h link { x with again := rest, wire := mget [] x.buffer n })

/-- A window reduction on its way, as the links see the requests that it comes from. -/
def State.travelReqs (s : State) (t : Travel) : List Req :=
  t.froms.map (fun x =>
    let k := mget {} s.cores x.1
    let r : Req := {
      who := { h := x.1 / 64, c := x.1 % 64 }, line := t.addr / 128, home := t.home, fn := t.fn
      launch := (mget {} k.wgs (mget {} k.slots x.2.1).wgs).launch }
    r)

/-- The requests of the walks in flight on a hummock (09_translation_leases.md R220). -/
def State.walkReqs (s : State) (h : Nat) (w : Walk) : List Req :=
  (s.walkFull h w.fn w.va w.need).reads.map (fun a => s.unitReq h w.fn w.launch a)

/-- The requests that wait for a response: of threads, of window reductions, of walks, of the Enlarger's operations, and of the
operation at the head of each qm. -/
def State.waitingReqs (s : State) : List Req :=
  s.cores.flatMap (fun (e : Nat × Core) => e.2.reqs)
    ++ s.travel.flatMap s.travelReqs
    ++ s.hums.flatMap (fun (d : Nat × Hum) => d.2.walks.flatMap (s.walkReqs d.1))
    ++ s.hums.flatMap (fun (d : Nat × Hum) => d.2.enl.flatMap (fun (j : Nat × CopyJob) =>
        j.2.todo.flatMap (fun u => s.unitReqs d.1 j.2 (s.unitMem d.1 j.2 u))))
    ++ s.cores.flatMap (fun (e : Nat × Core) => match e.2.engine.holder, e.2.engine.queue with
        | some w, op :: _ =>
          s.unitReqs (e.1 / 64) (op.job (e.1 % 64) w 0) (s.stepMem (e.1 / 64) (e.1 % 64) w op op.need)
        | _, _ => [])

/-- The requests that wait for a response over a link end with PATH_LOST: each one's launch ends or its function rolls back, found
from the requester's own table (R398). -/
def State.losePath (s : State) (h link : Nat) : State :=
  let lost := ((s.waitingReqs.filter (s.crosses h link)).map (fun r => r.launch)).eraseDups
  let t : State := { s with
    cores := s.cores.map (fun (e : Nat × Core) => (e.1, { e.2 with reqs := e.2.reqs.filter (fun r => !(s.crosses h link r)) }))
    hums := s.hums.map (fun (d : Nat × Hum) =>
      (d.1, { d.2 with walks := d.2.walks.filter (fun w => !((s.walkReqs d.1 w).any (s.crosses h link))) }))
    travel := s.travel.filter (fun x => !((s.travelReqs x).any (s.crosses h link))) }
  lost.foldl (fun u l => u.lose l stPathLost) t

/-- Whether a link is to be fenced: 8 failed retries of one flit, or 1 ms without success (R398). -/
def State.linkFails (s : State) (x : Link) : Bool :=
  !x.fenced && (decide (9 ≤ x.bad) || (x.bad != 0 && decide (x.since + 1000000 ≤ s.chipTime)))

/-- A link is fenced (R398): the PF receives a machine check, and what waits over it, then or later, ends with PATH_LOST. -/
def execLinkFence (h link : Nat) (s : State) : Out :=
  let x := s.linkAt h link
  if !(hasLink h link) then .next s
  else if s.linkFails x then
    .next (((s.setLink h link { x with fenced := true }).logErr 0 5 h link 0).losePath h link)
  else if x.fenced then .next (s.losePath h link)
  else .next s

/-- A write of LINKGO retrains a port and clears its retry counters (R414). -/
def State.retrain (s : State) (h port : Nat) : State :=
  if hasLink h port then s.setLink h port { s.linkAt h port with fenced := false, bad := 0, retry := false } else s

/-- A write of LINKGO (R414). -/
def execLinkgo (h port : Nat) (s : State) : Out := .next (s.retrain h port)

end Sys2Proof.Machine
end

