-- ==== Sys2Proof/Machine/Float.lean ====
section
/-! DEFINITION. The meanings of the floating-point instructions (05_float.md). -/

namespace Sys2Proof.Machine

/-! ### Shapes -/

/-- Source a of a lane after its sign modifiers (R41). -/
def State.srcA (s : State) (t : Ty) (sg : Signs) (l : Nat) (a : Reg) : Word := modify t sg.aa sg.na (s.lreg l a.toNat)
/-- Source b of a lane after its sign modifier. -/
def State.srcB (s : State) (t : Ty) (sg : Signs) (l : Nat) (b : Reg) : Word := modify t false sg.nb (s.lreg l b.toNat)
/-- Source c of a lane after its sign modifier. -/
def State.srcC (s : State) (t : Ty) (sg : Signs) (l : Nat) (c : Reg) : Word := modify t false sg.nc (s.lreg l c.toNat)

/-- A one-source FP32 form. -/
def State.float1 (s : State) (m : MReg) (sg : Signs) (d a : Reg) (f : FVal → Nat) : State :=
  s.lanes32 m d (fun l => BitVec.ofNat 32 (f (f32 (s.srcA .f32 sg l a))))

/-- A two-source FP32 form. -/
def State.float2 (s : State) (m : MReg) (sg : Signs) (d a b : Reg) (f : FVal → FVal → Nat) : State :=
  s.lanes32 m d (fun l => BitVec.ofNat 32 (f (f32 (s.srcA .f32 sg l a)) (f32 (s.srcB .f32 sg l b))))

/-- A form of FP32 or of two packed elements, each rounded once under the mode (R116). -/
def elementwise (t : Ty) (mode : Rnd) (f : Nat → FVal) : Word := packedF t (fun i => roundV t mode 0 false (f i))

/-! ### Arithmetic (R116) -/

/-- `fadd` (R116). -/
def execFadd (m : MReg) (ty : Ty) (rm : Rnd) (sg : Signs) (d a b : Reg) (s : State) : Out :=
  .next (s.lanes32 m d (fun l => elementwise ty rm (fun i =>
    addV rm (elemF ty (s.srcA ty sg l a) i) (elemF ty (s.srcB ty sg l b) i))))

/-- `fsub` (R116). -/
def execFsub (m : MReg) (rm : Rnd) (sg : Signs) (d a b : Reg) (s : State) : Out :=
  .next (s.float2 m sg d a b (fun x y => roundV .f32 rm 0 false (addV rm x (negV y))))

/-- `fmul` (R116). -/
def execFmul (m : MReg) (rm : Rnd) (sg : Signs) (d a b : Reg) (s : State) : Out :=
  .next (s.float2 m sg d a b (fun x y => roundV .f32 rm 0 false (mulV x y)))

/-- `fma` (R116). -/
def execFma (m : MReg) (ty : Ty) (rm : Rnd) (sg : Signs) (d a b e : Reg) (s : State) : Out :=
  .next (s.lanes32 m d (fun l => elementwise ty rm (fun i =>
    addV rm (mulV (elemF ty (s.srcA ty sg l a) i) (elemF ty (s.srcB ty sg l b) i)) (elemF ty (s.srcC ty sg l e) i))))

/-! ### Minimum, maximum, compare, class (R117 to R119) -/

/-- `fmin` (R117). -/
def execFmin (m : MReg) (sg : Signs) (d a b : Reg) (s : State) : Out :=
  .next (s.float2 m sg d a b (fun x y => roundV .f32 .rne 0 false (minMaxV false false x y)))
/-- `fmax` (R117). -/
def execFmax (m : MReg) (sg : Signs) (d a b : Reg) (s : State) : Out :=
  .next (s.float2 m sg d a b (fun x y => roundV .f32 .rne 0 false (minMaxV true false x y)))
/-- `fminn` (R117). -/
def execFminn (m : MReg) (sg : Signs) (d a b : Reg) (s : State) : Out :=
  .next (s.float2 m sg d a b (fun x y => roundV .f32 .rne 0 false (minMaxV false true x y)))
/-- `fmaxn` (R117). -/
def execFmaxn (m : MReg) (sg : Signs) (d a b : Reg) (s : State) : Out :=
  .next (s.float2 m sg d a b (fun x y => roundV .f32 .rne 0 false (minMaxV true true x y)))

/-- `fcmp` (R118). -/
def execFcmp (m : MReg) (cond : FCond) (sg : Signs) (d : MReg) (a b : Reg) (s : State) : Out :=
  .next (s.lanesMask m d (fun l => fcondHolds cond (f32 (s.srcA .f32 sg l a)) (f32 (s.srcB .f32 sg l b))))

/-- `fclass` (R119). -/
def execFclass (m : MReg) (sg : Signs) (d a : Reg) (s : State) : Out :=
  .next (s.lanes32 m d (fun l => classF (s.srcA .f32 sg l a)))

/-! ### Correctly rounded functions (R120) -/

/-- `frcp` (R120). -/
def execFrcp (m : MReg) (rm : Rnd) (sg : Signs) (d a : Reg) (s : State) : Out :=
  .next (s.float1 m sg d a (divF .f32 rm (.fin false 1 0)))
/-- `frsq` (R120). -/
def execFrsq (m : MReg) (rm : Rnd) (sg : Signs) (d a : Reg) (s : State) : Out := .next (s.float1 m sg d a (rsqF rm))
/-- `fsqrt` (R120). -/
def execFsqrt (m : MReg) (rm : Rnd) (sg : Signs) (d a : Reg) (s : State) : Out := .next (s.float1 m sg d a (sqrtF rm))
/-- `fdiv` (R120). -/
def execFdiv (m : MReg) (rm : Rnd) (sg : Signs) (d a b : Reg) (s : State) : Out :=
  .next (s.float2 m sg d a b (divF .f32 rm))
/-- `fexp2` (R120). -/
def execFexp2 (m : MReg) (sg : Signs) (d a : Reg) (s : State) : Out := .next (s.float1 m sg d a exp2F)
/-- `flog2` (R120). -/
def execFlog2 (m : MReg) (sg : Signs) (d a : Reg) (s : State) : Out := .next (s.float1 m sg d a flog2F)

/-! ### Integral parts and scaling (R121) -/

/-- `ffract` (R121). -/
def execFfract (m : MReg) (sg : Signs) (d a : Reg) (s : State) : Out := .next (s.float1 m sg d a fractF)
/-- `fround` (R121). -/
def execFround (m : MReg) (rm : Rnd) (sg : Signs) (d a : Reg) (s : State) : Out :=
  .next (s.float1 m sg d a (roundIntF rm))
/-- `fldexp` (R121): register b is read as .s32. -/
def execFldexp (m : MReg) (rm : Rnd) (sg : Signs) (d a b : Reg) (s : State) : Out :=
  .next (s.lanes32 m d (fun l =>
    BitVec.ofNat 32 (ldexpF rm (f32 (s.srcA .f32 sg l a)) (s.lreg l b.toNat).toInt)))

/-! ### Conversion and packing (R122 to R125) -/

/-- The source of a conversion: an integer of its width, or a float after its sign modifiers. -/
def State.convA (s : State) (ft : Ty) (sg : Signs) (l : Nat) (a : Reg) : FVal :=
  if ft.isInt then convSource ft (s.lval ft l a.toNat)
  else if ft == .e8m0 then toF ft (s.lreg l a.toNat).toNat
  else toF ft ((s.srcA ft sg l a).toNat % 2 ^ fmtWidth ft)

/-- `fcvt` (R122). -/
def execFcvt (m : MReg) (dt ft : Ty) (rm : Rnd) (sat : Bool) (sg : Signs) (d a e : Reg) (s : State) : Out :=
  .next (s.lanes m dt d (fun l => convertV dt rm (s.lreg l e.toNat).toNat sat (s.convA ft sg l a)))

/-- `fpack` (R125): the old d shifts up and the two new elements enter below. -/
def execFpack (m : MReg) (dt ft : Ty) (rm : Rnd) (sat : Bool) (sg : Signs) (d a b e : Reg) (s : State) : Out :=
  .next (s.lanes32 m d (fun l =>
    let w := fmtWidth dt
    let rnd := s.lreg l e.toNat
    let ea := roundV dt rm rnd.toNat sat (toF ft ((s.srcA ft sg l a).toNat % 2 ^ fmtWidth ft))
    let eb := roundV dt rm (rnd.rotateLeft 16).toNat sat (toF ft ((s.srcB ft sg l b).toNat % 2 ^ fmtWidth ft))
    BitVec.ofNat 32 ((s.lreg l d.toNat).toNat * 2 ^ (2 * w)) ||| BitVec.ofNat 32 (eb * 2 ^ w + ea)))

/-! ### Dot products and block scales (R126, R127) -/

/-- A packed dot product added to c in FP32, rounded once (R126). -/
def State.fdot (s : State) (m : MReg) (t : Ty) (rm : Rnd) (sg : Signs) (d a b e : Reg) : State :=
  s.lanes32 m d (fun l => toF32 rm (sumV rm (f32 (s.srcC .f32 sg l e))
    ((List.range (32 / fmtWidth t)).map (fun i =>
      mulV (elemF t (s.srcA t sg l a) i) (elemF t (s.srcB t sg l b) i)))))

/-- `fdot2` (R126). -/
def execFdot2 (m : MReg) (ty : Ty) (rm : Rnd) (sg : Signs) (d a b e : Reg) (s : State) : Out :=
  .next (s.fdot m ty rm sg d a b e)
/-- `fdot4` (R126). -/
def execFdot4 (m : MReg) (ty : Ty) (rm : Rnd) (sg : Signs) (d a b e : Reg) (s : State) : Out :=
  .next (s.fdot m ty rm sg d a b e)
/-- `fdot8` (R126). -/
def execFdot8 (m : MReg) (rm : Rnd) (sg : Signs) (d a b e : Reg) (s : State) : Out :=
  .next (s.fdot m .e2m1x8 rm sg d a b e)

/-- `mxs` (R127). -/
def execMxs (m : MReg) (ty : Ty) (sg : Signs) (d a : Reg) (s : State) : Out :=
  .next (s.float1 m sg d a (mxScale ty))

/-! ### Immediate forms (R128) -/

/-- The rounding mode of an immediate form (Table 5.8). -/
def rnd4 (r : Rnd4) : Rnd :=
  match r with
  | .rne => .rne
  | .rz => .rz
  | .ru => .ru
  | .rd => .rd

/-- `fadd` with an immediate (R128). -/
def execFaddImm (m : MReg) (rm : Rnd4) (d a : Reg) (imm : Word) (s : State) : Out :=
  .next (s.lanes32 m d (fun l => toF32 (rnd4 rm) (addV (rnd4 rm) (f32 (s.lreg l a.toNat)) (f32 imm))))
/-- `fmul` with an immediate (R128). -/
def execFmulImm (m : MReg) (rm : Rnd4) (d a : Reg) (imm : Word) (s : State) : Out :=
  .next (s.lanes32 m d (fun l => toF32 (rnd4 rm) (mulV (f32 (s.lreg l a.toNat)) (f32 imm))))
/-- `fma` with an immediate: d := a × imm + d (R128). -/
def execFmaImm (m : MReg) (rm : Rnd4) (d a : Reg) (imm : Word) (s : State) : Out :=
  .next (s.lanes32 m d (fun l => toF32 (rnd4 rm)
    (addV (rnd4 rm) (mulV (f32 (s.lreg l a.toNat)) (f32 imm)) (f32 (s.lreg l d.toNat)))))
/-- `fmin` with an immediate (R128). -/
def execFminImm (m : MReg) (d a : Reg) (imm : Word) (s : State) : Out :=
  .next (s.lanes32 m d (fun l => toF32 .rne (minMaxV false false (f32 (s.lreg l a.toNat)) (f32 imm))))
/-- `fmax` with an immediate (R128). -/
def execFmaxImm (m : MReg) (d a : Reg) (imm : Word) (s : State) : Out :=
  .next (s.lanes32 m d (fun l => toF32 .rne (minMaxV true false (f32 (s.lreg l a.toNat)) (f32 imm))))

/-- Whether a comparison of an immediate form holds (Table 5.8). -/
def fimmHolds (c : ImmCond) (a b : FVal) : Bool :=
  match c with
  | .eq => fcondHolds .eq a b
  | .ne => fcondHolds .ne a b
  | .lt => fcondHolds .lt a b
  | .ge => fcondHolds .ge a b

/-- `fcmp` with an immediate (R128). -/
def execFcmpImm (m : MReg) (cond : ImmCond) (d : MReg) (a : Reg) (imm : Word) (s : State) : Out :=
  .next (s.lanesMask m d (fun l => fimmHolds cond (f32 (s.lreg l a.toNat)) (f32 imm)))

end Sys2Proof.Machine
end

