-- ==== Sys2Proof/Machine/RegWrite.lean ====
section
/-! DEFINITION. Writing the function register spaces
(17_device_boundary.md R400 to R412, R416, R417; 07_work_creation.md R162, R451). -/

namespace Sys2Proof.Machine

/-! ### Fields -/

/-- A register with the 64-bit half at an offset of a 16-byte entry replaced. -/
def putHalf (old o v : Nat) : Nat :=
  if o / 8 % 2 = 0 then old / 2 ^ 64 * 2 ^ 64 + v % 2 ^ 64 else old % 2 ^ 64 + v % 2 ^ 64 * 2 ^ 64

/-- The base and size of a ring from its register (Tables 9.5, 17.2). -/
def Ring.putBase (r : Ring) (v : Nat) : Ring := { r with base := bitsOf v 12 40 * 4096, size := bitsOf v 52 4 }

/-- Log a register write that has no effect: its offset, in the function's error queue (R401, R451). -/
def State.rejectWrite (s : State) (f off : Nat) : State := s.logErr f 11 0 off 0

/-! ### The blocks of every function -/

/-- The error queue block (Table 17.2). -/
def State.errWrite (s : State) (f o v : Nat) : State :=
  let x := s.fnAt f
  match o with
  | 0x000 => s.setFn f { x with err := x.err.putBase v }
  | 0x010 =>
    if x.err.count 5 ≤ v % 2 ^ 32 then s.rejectWrite f 0x1010
    else s.setFn f { x with err := { x.err with head := v % 2 ^ 32 } }
  | 0x028 => s.setFn f { x with erren := bitOf v 0 }
  | _ => s

/-- The translation block (Table 9.5); the stage-2 queue's registers are the hypervisor's. -/
def State.transWrite (s : State) (hyp : Bool) (f o v : Nat) : State :=
  let x := s.fnAt f
  if o < 0x38 then
    match o with
    | 0x000 => s.setFn f { x with tren := bitOf v 0, root1 := bitsOf v 16 40 * 65536 }
    | 0x008 => if hyp && f != 0 then s.setFn f { x with root2 := bitsOf v 16 40 * 65536 } else s
    | 0x010 => s.setFn f { x with prq := x.prq.putBase v }
    | 0x020 => s.writePrqHead f 1 (v % 2 ^ 32)
    | 0x028 => s.reply f 1 v
    | 0x030 => s.setFn f { x with prq := { x.prq with ovf := x.prq.ovf && !bitOf v 0 } }
    | _ => s
  else if hyp then
    match o with
    | 0x040 => s.setFn f { x with s2prq := x.s2prq.putBase v }
    | 0x050 => s.writePrqHead f 2 (v % 2 ^ 32)
    | 0x058 => s.reply f 2 v
    | 0x060 => s.setFn f { x with s2prq := { x.s2prq with ovf := x.s2prq.ovf && !bitOf v 0 } }
    | _ => s
  else s

/-- The function's tenancy block (Table 16.2). -/
def State.tenantWrite (s : State) (hyp : Bool) (f o v : Nat) : State :=
  let x := s.fnAt f
  if o < 0x20 then s.setFn f { x with nonce := mset x.nonce (o / 8) (BitVec.ofNat 64 v) }
  else if hyp then
    match o with
    | 0x040 => s.setFn f { x with dbmBase0 := bitsOf v 12 44 * 4096 }
    | 0x048 => s.setFn f { x with dbmBase1 := bitsOf v 12 44 * 4096 }
    | 0x050 => s.setFn f { x with dbmFirst := bitsOf v 16 40 }
    | 0x058 => s.setFn f { x with dbmCount := v % 2 ^ 32 }
    | 0x060 =>
      let s := s.setFn f { x with dbmEn := bitOf v 0 }
      if bitOf v 2 then s.dbmSwap f else s
    | 0x080 => s.setFn f { x with rstBase := bitsOf v 16 40 * 65536 }
    | 0x088 => if bitOf v 0 then s.restoreGo f else s
    | _ => s
  else s

/-- A write of LQVA starts a lease query, unless one runs (R408). -/
def State.startQuery (s : State) (f va : Nat) : State :=
  let x := s.fnAt f
  if x.lqbusy then s else s.setFn f { x with lqva := va % 2 ^ 52, lqbusy := true }

/-- The lease query and host aperture block (R408 to R410). -/
def State.portWrite (s : State) (hyp : Bool) (f o v : Nat) : State :=
  let x := s.fnAt f
  match o with
  | 0x00 => s.startQuery f v
  | 0x18 => s.setFn f { x with hwbase := bitsOf v 16 36 * 65536 }
  | 0x20 => if hyp then s.setFn f { x with hport := bitOf v 0 } else s
  | 0x28 => if hyp then s.setFn f { x with hmbase := bitsOf v 16 38 * 65536 } else s
  | 0x30 => if hyp then s.setFn f { x with hmsize := bitsOf v 0 36 } else s
  | 0x38 => if hyp && f == 0 then { s with pkg := { s.pkg with mapsel := bitsOf v 0 20 } } else s
  | 0x40 => if hyp then s.setFn f { x with hmvbase := bitsOf v 16 36 * 65536 } else s
  | _ => s

/-- Set a handler segment from its 128 bits (Table 15.6). -/
def Fn.putHseg (x : Fn) (i v : Nat) : Fn := { x with hseg := mset x.hseg i (Seg.ofNat i v) }

/-- Set TVEN and TVBASE from their register (Table 15.6). -/
def Fn.putTvec (x : Fn) (v : Nat) : Fn := { x with tven := bitOf v 0, tvbase := bitsOf v 6 26 * 64 }

/-- The handler block (Table 15.6). -/
def State.handlerWrite (s : State) (hyp : Bool) (f o v : Nat) : State :=
  let x := s.fnAt f
  if o < 0x80 then (if hyp then s.setFn f (x.putHseg (o / 16) (putHalf (x.hsegAt (o / 16)).toNat o v)) else s)
  else if o = 0x80 then s.setFn f (x.putTvec v)
  else s

/-! ### The blocks of the PF -/

/-- The hummock tenancy block (Table 16.1). -/
def State.humTenantWrite (s : State) (h o v : Nat) : State :=
  if o < 0x80 then s.modRegs h (fun r => { r with connmat := mset r.connmat (o / 8) (v % 65536) })
  else if o < 0x280 then s.writePart h ((o - 0x80) / 8) v
  else match o with
  | 0x300 => s.modRegs h (fun r => { r with waysl := bitsOf v 0 6, wayfn := bitsOf v 8 6 })
  | 0x308 => s.writeWays h v
  | 0x310 => if bitOf v 0 then s.modRegs h (fun r => { r with refused := false }) else s
  | _ => s

/-- The points of a half of the map whose bits are set. -/
def pointsIn (k v : Nat) (p : Nat) : Bool := p / 64 == k && v.testBit (p % 64)

/-- The hummock management block (Table 17.3). -/
def State.mgmtWrite (s : State) (h o v : Nat) : State :=
  match o with
  | 0x000 => s.modRegs h (fun r => { r with crkstep := bitsOf v 0 8, crkdi := bitsOf v 8 8, crktime := bitsOf v 16 16 })
  | 0x008 => s.modRegs h (fun r => r.minvClear 0 v)
  | 0x010 => s.modRegs h (fun r => r.minvClear 1 (v % 65536))
  | 0x018 => s.modRegs h (fun r => { r with crack := r.crack.filter (fun p => !pointsIn 0 v p) })
  | 0x020 => s.modRegs h (fun r => { r with crack := r.crack.filter (fun p => !pointsIn 1 v p) })
  | 0x028 => s.modRegs h (fun r => { r with thsel := bitsOf v 0 8 })
  | 0x030 => s.writeThval h v
  | 0x038 => if bitOf v 0 then s.modRegs h (fun r => { r with thref := false }) else s
  | 0x040 => s.modRegs h (fun r => { r with fcen := bitOf v 0, fcvalid := r.fcvalid && bitOf v 0 })
  | 0x048 =>
    let s := s.modRegs h (fun r => { r with bkstk := bitsOf v 0 1, bkbank := bitsOf v 1 11 })
    if bitOf v 63 then s.bankAck h (bitsOf v 0 1) (bitsOf v 1 11) else s
  | 0x050 =>
    let s := s.modRegs h (fun r => { r with lport := bitsOf v 0 5 })
    if bitOf v 63 then s.retrain h (bitsOf v 0 5) else s
  | _ => s

/-- The firmware block (R416). -/
def State.fwWrite (s : State) (o v : Nat) : State :=
  match o with
  | 0x00 => { s with pkg := { s.pkg with fwbase := bitsOf v 12 44 * 4096 } }
  | 0x08 => { s with pkg := { s.pkg with fwlen := v % 2 ^ 32 } }
  | 0x10 => if bitOf v 0 then s.fwStart else s
  | _ => s

/-- A write of the domain block is refused (R404). -/
def State.domRefuse (s : State) : State := { s with pkg := { s.pkg with domRef := true } }

/-- Write the logical coordinates of a hummock (R404). -/
def State.writeLogical (s : State) (h v : Nat) : State :=
  let out := (s.humAt h).chiplet == .dropped && !bitOf v 16
  if !(s.humAt h).ctxs.isEmpty && !out then s.domRefuse
  else { s with pkg := { s.pkg with
    lx := mset s.pkg.lx h (bitsOf v 0 8), ly := mset s.pkg.ly h (bitsOf v 8 8), lvalid := mset s.pkg.lvalid h (bitOf v 16) } }

/-- The domain block (Table 17.7, R404). -/
def State.domainWrite (s : State) (o v : Nat) : State :=
  if 0x40 ≤ o && o < 0x80 then s.writeLogical ((o - 0x40) / 8) v
  else match o with
  | 0x00 => if s.pkg.domen then s.domRefuse else { s with pkg := { s.pkg with pkgnum := bitsOf v 0 6 } }
  | 0x08 => { s with pkg := { s.pkg with epoch := v % 2 ^ 64 } }
  | 0x10 => if s.pkg.domen then s.domRefuse else { s with pkg := { s.pkg with tref := bitsOf v 0 9 } }
  | 0x18 =>
    let s := if bitOf v 2 then { s with pkg := { s.pkg with domRef := false } } else s
    if bitOf v 0 then s.joinDomain else s
  | _ => s

/-! ### Hardware queues (Table 7.5, R451) -/

/-- The registers of a hardware queue. -/
def State.queueWrite (s : State) (hyp : Bool) (h q o v : Nat) : State :=
  if 0x40 ≤ o && o < 0xF0 then
    if hyp then
      s.writeShares h q (((List.range 4).map (fun i => ((o - 0x40) / 2 + i, bitsOf v (16 * i) 16))).filter (fun w => decide (w.1 < 86)))
    else s
  else match o with
  | 0x000 =>
    if hyp then s.modQueue h q (fun y => { y with
      prio := bitsOf v 0 8, en := bitOf v 8, cardq := bitOf v 9, fn := bitsOf v 10 6, xfn := bitsOf v 16 6, xen := bitOf v 22 })
    else s
  | 0x008 => s.modQueue h q (fun y => { y with base := bitsOf v 12 40 * 4096, size := bitsOf v 52 4 })
  | 0x010 =>
    if 2 ^ ((mget {} (s.humAt h).queues q).size + 6) ≤ v % 2 ^ 32 then s.rejectWrite (mget {} (s.humAt h).queues q).fn
      (0x200000 + 0x800 * (128 * h + q) + 0x10)
    else s.modQueue h q (fun y => { y with tail := v % 2 ^ 32 })
  | 0x100 => if bitOf v 0 then s.modQueue h q (fun y => { y with refused := false }) else s
  | _ => s

/-! ### A write of a register space (R400 to R402) -/

/-- Write a register of a function's space at supervisor or hypervisor level; an unassigned offset is logged (R401). -/
def State.regWrite (s : State) (hyp : Bool) (f off v : Nat) : State :=
  let o := off / 8 * 8
  let v := v % 2 ^ 64
  let b := s.regBlock f o
  match b.1 with
  | .ident => s
  | .err => s.errWrite f b.2 v
  | .trans => s.transWrite hyp f b.2 v
  | .tenant => s.tenantWrite hyp f b.2 v
  | .port => s.portWrite hyp f b.2 v
  | .handler => s.handlerWrite hyp f b.2 v
  | .humTenant h => s.humTenantWrite h b.2 v
  | .mgmt h => s.mgmtWrite h b.2 v
  | .firmware => s.fwWrite b.2 v
  | .domain => s.domainWrite b.2 v
  | .queue h q => s.queueWrite hyp h q b.2 v
  | .none => s.rejectWrite f o

/-- A read of a register at hypervisor level (R402). -/
def execMgdataRead (f off : Nat) (s : State) : Out :=
  .next (if f < 64 && off < 2 ^ 22 then s.respond (.data (s.regRead true f off)) else s)

/-- A write of a register at hypervisor level (R402). -/
def execMgdataWrite (f off v : Nat) (s : State) : Out :=
  .next (if f < 64 && off < 2 ^ 22 then s.regWrite true f off v else s)

/-! ### Lease queries (R408) -/

/-- A write of LQVA (R408). -/
def execLqva (f va : Nat) (s : State) : Out := .next (s.startQuery f va)

/-- The lease query's walk ends (R408): the walk of `lease.q` in the function's full translation, which a base die whose clock is
at fault does not start (R214, R232); one over a fenced link gets no answer, and the result is 0 (R398; notes/assumptions 25). -/
def execLeaseQueryDone (f : Nat) (s : State) : Out :=
  let x := s.fnAt f
  if x.lqbusy && !(s.faulty 512) then
    let w := s.queryWalk 0 f x.lqva
    .next (if s.walkLost 0 f 0 w.2.reads then s.setFn f { x with lqres := 0, lqbusy := false }
      else w.1.setFn f { w.1.fnAt f with lqres := w.1.horizonOf w.2, lqbusy := false })
  else .next s

/-! ### The watchdog limit (15_traps_preemption.md Table 15.3) -/

/-- Set the watchdog limit of a core, clamped. -/
def State.setWdog (s : State) (h c v : Nat) : State :=
  let k := s.coreAt h c
  s.setCoreAt h c { k with engine := { k.engine with wdog := max (2 ^ 12) (min (2 ^ 31) v) } }

/-- Set the watchdog limit of one core or of every core of the package. -/
def State.setWdlim (s : State) (h c : Nat) (all : Bool) (v : Nat) : State :=
  if all then (List.range 512).foldl (fun t i => t.setWdog (i / 64) (i % 64) v) s
  else if h < 8 && c < 64 then s.setWdog h c v
  else s

/-- A write of WDLIM (R357). -/
def execWdlim (h c : Nat) (all : Bool) (v : Nat) (s : State) : Out := .next (s.setWdlim h c all v)

end Sys2Proof.Machine
end

