-- ==== Sys2Proof/Machine/HostOps.lean ====
section
/-! DEFINITION. The host's accesses: registers, the map and the apertures into functions' memory, and their order
(10_ordering.md R247, R248; 17_device_boundary.md R401, R402, R410). -/

namespace Sys2Proof.Machine

/-! ### What the host sees of a function -/

/-- Whether the host sees a function: only the PF where its firmware did not verify (R427). -/
def State.hostSees (s : State) (f : Nat) : Bool := f == 0 || (decide (f < 64) && !(s.pkg.fwstat == 3 && !s.pkg.measured))

/-! ### The map (R23 to R25, R248, R410) -/

/-- The map address of a host offset of BAR4 (R410). -/
def State.bar4 (s : State) (off : Nat) : Nat := s.pkg.mapsel * 2 ^ 28 + off / 8 * 8

/-- The hummock of a host port: port 0 on hummock 1, port 1 on hummock 6 (R409). -/
def hostHum (port : Nat) : Nat := if port = 1 then 6 else 1

/-- Whether a host access of a map address gets no answer: its port or a link on the way is fenced (R398). -/
def State.hostMapLost (s : State) (a : Nat) : Bool :=
  (s.linkAt (hostHum 0) 16).fenced || s.overFenced { who := { h := hostHum 0 }, home := mapHum a }

/-- A host read of the map (R23, R410): a refusal by the crossbar is logged (R380), and before bring-up ends it is
unsupported (R427). -/
def State.hostMapRead (s : State) (off : Nat) : State :=
  let a := s.bar4 off
  if !(s.pkg.up && decide (off < 2 ^ 28) && s.inMap a 8) then s.respond .unsupported
  else if !(s.mapPath 0 (hostHum 0) 10 a) then (s.logErr 0 4 (hostHum 0) (portPair 10 14) 0).respond .unsupported
  else if s.hostMapLost a then s.respond .abort
  else ({ s with freeCtr := s.freeCtr + 1 }).respond (.data (s.mapReadN true a 8))

/-- A host write of a core's window is never undone (R368, R372): a rollback restores only the blocks that the log holds, so the write
stands in what it returns to as well, unless the function has written the block since its checkpoint. -/
def State.keepHostWrite (s : State) (a w v : Nat) : State :=
  match s.localHum (mapHum a) with
  | none => s
  | some h =>
    let key := coreKey h (mapCore a)
    { s with fns := s.fns.map (fun (e : Nat × Fn) =>
        match e.2.ck.image with
        | none => e
        | some im =>
          match mfind im.cores key with
          | none => e
          | some k =>
            if e.2.ck.blocks.contains (a / 128) then e
            else (e.1, { e.2 with ck := { e.2.ck with
              image := some { im with cores := mset im.cores key (k.putWindow (s.cycles h) (mapCode a) (mapOff a) w v) } } })) }

/-- A host write of the map (R23 to R25, R248, R410); one that cannot reach its hummock over a fenced link is lost (R398). -/
def State.hostMapWrite (s : State) (off v : Nat) : State :=
  let a := s.bar4 off
  let h := s.localHum (mapHum a)
  if !s.pkg.up then s
  else if !(decide (off < 2 ^ 28) && s.inMap a 8) then s.logErr 0 3 (hostHum 0) a 0
  else if !(s.mapPath 0 (hostHum 0) 10 a) then s.logErr 0 4 (hostHum 0) (portPair 10 14) 0
  else if s.hostMapLost a then s
  else if mapQuiesced (mapCode a) && (match h with
      | some h => (s.coreAt h (mapCore a)).status != CoreStatus.quiesced
      | none => false) then s.logErr 0 3 (h.getD 0) a 0
  else if mapCode a < 0x0C then (s.keepHostWrite a 8 v).mapWrite a 8 v
  else s

/-! ### The apertures (R247, R380, R410) -/

/-- A line request of the host through a port, as the links see it. -/
def State.hostReq (s : State) (port f : Nat) (t : Tlb) (line : Nat) : Req :=
  { who := { h := hostHum port }, fn := f, line := line, home := (s.homeOf t (line * 128)).1 }

/-- Whether a host access of bytes of a page gets no response: its port or a link on the way is fenced (R398). -/
def State.hostLost (s : State) (port f : Nat) (t : Tlb) (a n : Nat) : Bool :=
  (s.linkAt (hostHum port) 16).fenced || (spanLines a n).any (fun l => s.overFenced (s.hostReq port f t l))

/-- How a host read ends: its bytes, no translation or path, a poisoned line or a lost path, or a page whose entry is being
changed or whose home cannot answer now, for which it waits (R212, R214, R222, R380, R398, R410). -/
inductive HostRead where
  | bytes (bs : List Byte)
  | unsupported
  | abort
  | hold

/-- Read `n` bytes of a function's memory for a host port, page by page, at most `k` pages. -/
def State.hostRead (port f : Nat) : Nat → State → Nat → Nat → List Byte → State × HostRead
  | 0, s, _, _, acc => (s, .bytes acc)
  | k + 1, s, va, n, acc =>
    if n = 0 then (s, .bytes acc)
    else
      let m := min n (65536 - va % 65536)
      match s.devWalk (hostHum port) f va { r := true } with
      | (s, .hold) => (s, .hold)
      | (s, .denied) => (s, .unsupported)
      | (s, .lost) => (s, .abort)
      | (s, .ok t) =>
        match s.readSpan (hostHum port) f 10 t (t.hpa va) m with
        | (s, .refused) => (s, .unsupported)
        | (s, .poisoned) => (s, .abort)
        | (s, .lost) => (s, .abort)
        | (s, .hold) => (s, .hold)
        | (s, .bytes bs) =>
          if s.hostLost port f t (t.hpa va) m then (s, .abort)
          else State.hostRead port f k s (va + m) (n - m) (acc ++ bs)

/-- Store bytes at a host-physical address line by line, as the host owns them (R235, R247), at most `k` lines. -/
def State.hostStore (f : Nat) : Nat → State → Nat → List Byte → State
  | 0, s, _, _ => s
  | k + 1, s, a, bs =>
    if bs.isEmpty then s
    else
      let m := min bs.length (128 - a % 128)
      let s := if s.assigned (a / 128 * 128) then (s.drainFor a m).performBytes f ownHost a (bs.take m)
               else s.logErr 0 3 0 (a / 128 * 128) 0
      State.hostStore f k s (a + m) (bs.drop m)

/-- The first line of a host write that the crossbar denies: the write is then dropped and logged (R380). -/
def State.hostDenied (s : State) (port f : Nat) (t : Tlb) (a n : Nat) : Option Nat :=
  (spanLines a n).find? (fun l => !(s.pathOk f (hostHum port) 10 (s.homeOf t (l * 128))))

/-- Write bytes of a function's memory for a host port, page by page, at most `k` pages; none while an entry on its way is being
changed (R222) or a line's home cannot take it (R212, R214). -/
def State.hostWrite (port f : Nat) : Nat → State → Nat → Nat → List Byte → Option State
  | 0, s, _, _, _ => some s
  | k + 1, s, off, va, bs =>
    if bs.isEmpty then some s
    else
      let m := min bs.length (65536 - va % 65536)
      let on := fun (s : State) => State.hostWrite port f k s (off + m) (va + m) (bs.drop m)
      match s.devWalk (hostHum port) f va { w := true } with
      | (_, .hold) => none
      | (s, .denied) => on (s.logErr f 11 (hostHum port) off 0)
      | (s, .lost) => on s
      | (s, .ok t) =>
        match s.hostDenied port f t (t.hpa va) m with
        | some l =>
          on (s.logErr 0 4 (hostHum port) (portPair 10 (s.portOfHome (hostHum port) (s.homeOf t (l * 128)))) f)
        | none =>
          if s.hostLost port f t (t.hpa va) m then on s
          else if (spanLines (t.hpa va) m).any (fun l => s.homeHolds (s.homeOf t (l * 128)) (l * 128)) then none
          else on (State.hostStore f (m / 128 + 2) ((spanLines (t.hpa va) m).foldl (fun u l => u.l2At f t (l * 128) true) s)
            (t.hpa va) (bs.take m))

/-! ### The order of a requester's accesses (R247) -/

/-- What a host access does now, if it does not wait: for an entry on its way that is being changed (R222), or for a line's home
(R212, R214).  Before bring-up ends a read of memory or of the map is unsupported (R427); a VF's register acts at supervisor level
and reads its hypervisor fields as zero (R6, R401, R402); a function that the host does not see reads as zero. -/
def State.hostAct (s : State) : HostAcc → Option State
  | .write port f off n v =>
    if s.pkg.up && s.hostSees f && decide (off + n ≤ 2 ^ 36) then
      State.hostWrite port f (n / 65536 + 2) s off ((s.fnAt f).hwbase + off) (bytesOf n v)
    else some s
  | .read port f off n =>
    if s.pkg.up && s.hostSees f && decide (off + n ≤ 2 ^ 36) then
      match State.hostRead port f (n / 65536 + 2) s ((s.fnAt f).hwbase + off) n [] with
      | (t, .bytes bs) => some (t.respond (.data (leNat bs)))
      | (t, .unsupported) => some (t.respond .unsupported)
      | (t, .abort) => some (t.respond .abort)
      | (_, .hold) => none
    else some (s.respond .unsupported)
  | .regWrite f off v => some (if s.hostSees f && decide (off < 2 ^ 22) then s.regWrite (f == 0) f off v else s)
  | .regRead f off => some (s.respond (.data (if s.hostSees f && decide (off < 2 ^ 22) then s.regRead (f == 0) f off else 0)))
  | .mapWrite off v => some (s.hostMapWrite off v)
  | .mapRead off => some (s.hostMapRead off)

/-- The function whose driver makes an access: the map is the PF's. -/
def HostAcc.fn : HostAcc → Nat
  | .write _ f _ _ _ => f
  | .read _ f _ _ => f
  | .regWrite f _ _ => f
  | .regRead f _ => f
  | .mapWrite _ _ => 0
  | .mapRead _ => 0

/-- Keep a host access that waits. -/
def State.hostKeep (s : State) (a : HostAcc) : State := { s with pkg := { s.pkg with held := s.pkg.held ++ [a] } }

/-- A host access, which follows every earlier one of its requester: one that waits holds back those after it (R247).  A function's
driver is one requester and its accesses keep their order at either port: DESIGN CHOICE (notes/assumptions 4). -/
def State.hostDo (s : State) (a : HostAcc) : State :=
  if s.pkg.held.any (fun x => x.fn == a.fn) then s.hostKeep a else (s.hostAct a).getD (s.hostKeep a)

/-- The first access of a requester that waits is made once it can be. -/
def hostRetry (f : Nat) (s : State) : Out :=
  match s.pkg.held.find? (fun x => x.fn == f) with
  | none => .next s
  | some a => .next ((({ s with pkg := { s.pkg with held := s.pkg.held.erase a } } : State).hostAct a).getD s)

/-- A host read of `n` bytes through a function's BAR2 (R410). -/
def execHostApertureRead (port f off n : Nat) (s : State) : Out := .next (s.hostDo (.read port f off n))

/-- A host write of `n` bytes through a function's BAR2 (R410): what does not translate is dropped and logged, and what cannot reach
its home over a fenced link is lost (R398). -/
def execHostApertureWrite (port f off n v : Nat) (s : State) : Out := .next (s.hostDo (.write port f off n v))

/-- A host read of the map through BAR4 (R410). -/
def execHostMapRead (off : Nat) (s : State) : Out := .next (s.hostDo (.mapRead off))

/-- A host write of the map through BAR4 (R248, R410). -/
def execHostMapWrite (off v : Nat) (s : State) : Out := .next (s.hostDo (.mapWrite off v))

/-- A host write of a register through a function's BAR0 (R402). -/
def execRegisterWrite (f off v : Nat) (s : State) : Out := .next (s.hostDo (.regWrite f off v))

/-- A write of a queue's TAIL, the doorbell (R163, R247, R451). -/
def execHostDoorbell (f h q tail : Nat) (s : State) : Out :=
  .next (if decide (h < 8) && decide (q < 128) then s.hostDo (.regWrite f (0x200000 + 0x800 * (128 * h + q) + 0x10) tail) else s)

end Sys2Proof.Machine
end

