-- ==== Sys2Proof/Machine/Masks.lean ====
section
/-! DEFINITION. The meanings of the mask, quad and group exchange instructions (06_masks_exchange.md) and of
the paired word (02_words_and_assembly.md R43, R44). -/

namespace Sys2Proof.Machine

/-! ### Mask logic (R135, Table 6.1) -/

/-- A mask computed from masks: only the bits of executing lanes change (R135). -/
def State.maskOp (s : State) (m d : MReg) (v : Word) : State := (s.setMBits d.toNat (s.live m) v).advance

/-- `mand` (R135). -/
def execMand (m d a b : MReg) (s : State) : Out :=
  .next (s.maskOp m d (s.grp.mreg a.toNat &&& s.grp.mreg b.toNat))
/-- `mor` (R135). -/
def execMor (m d a b : MReg) (s : State) : Out :=
  .next (s.maskOp m d (s.grp.mreg a.toNat ||| s.grp.mreg b.toNat))
/-- `mxor` (R135). -/
def execMxor (m d a b : MReg) (s : State) : Out :=
  .next (s.maskOp m d (s.grp.mreg a.toNat ^^^ s.grp.mreg b.toNat))
/-- `mandn` (R135). -/
def execMandn (m d a b : MReg) (s : State) : Out :=
  .next (s.maskOp m d (s.grp.mreg a.toNat &&& ~~~(s.grp.mreg b.toNat)))
/-- `mnot` (R135). -/
def execMnot (m d a : MReg) (s : State) : Out := .next (s.maskOp m d (~~~(s.grp.mreg a.toNat)))
/-- `mmov` (R135). -/
def execMmov (m d a : MReg) (s : State) : Out := .next (s.maskOp m d (s.grp.mreg a.toNat))
/-- `mseti` (R135). -/
def execMseti (m d : MReg) (imm : Word) (s : State) : Out := .next (s.maskOp m d imm)

/-! ### Votes and counts (R136, R137) -/

/-- `mvote.ballot` (R136). -/
def execMvoteBallot (m d : MReg) (a : Reg) (s : State) : Out :=
  .next (s.lanesMask m d (fun l => s.lreg l a.toNat != 0))
/-- `mvote.eq` (R136): compared with the lowest executing member lane. -/
def execMvoteEq (m d : MReg) (a : Reg) (s : State) : Out :=
  .next (s.lanesMask m d (fun l => s.lreg l a.toNat == s.lreg (lowest (s.exe m)) a.toNat))

/-- The member bits of a mask (R137). -/
def State.memberBits (s : State) (a : MReg) : Word := s.grp.mreg a.toNat &&& s.grp.member

/-- `mpop` (R137). -/
def execMpop (m : MReg) (d : Reg) (a : MReg) (s : State) : Out :=
  .next (s.lanes32 m d (fun _ => BitVec.ofNat 32 (lanesOf (s.memberBits a)).length))
/-- `mfirst` (R137). -/
def execMfirst (m : MReg) (d : Reg) (a : MReg) (s : State) : Out :=
  .next (s.lanes32 m d (fun _ => BitVec.ofNat 32 ((lanesOf (s.memberBits a)).headD 32)))
/-- `mlast` (R137). -/
def execMlast (m : MReg) (d : Reg) (a : MReg) (s : State) : Out :=
  .next (s.lanes32 m d (fun _ => BitVec.ofNat 32 ((lanesOf (s.memberBits a)).getLastD 32)))

/-! ### Exchange (R138, R139) -/

/-- Each executing lane reads register a of a lane (R133). -/
def State.exchange (s : State) (m : MReg) (d a : Reg) (src : Nat → Nat) : State :=
  s.lanes32 m d (fun l => s.lreg (src l) a.toNat)

/-- `qswx` (R138). -/
def execQswx (m : MReg) (d a : Reg) (s : State) : Out := .next (s.exchange m d a (fun l => l ^^^ 1))
/-- `qswy` (R138). -/
def execQswy (m : MReg) (d a : Reg) (s : State) : Out := .next (s.exchange m d a (fun l => l ^^^ 2))
/-- `qswd` (R138). -/
def execQswd (m : MReg) (d a : Reg) (s : State) : Out := .next (s.exchange m d a (fun l => l ^^^ 3))
/-- `qbc` (R138). -/
def execQbc (m : MReg) (d a : Reg) (p : BitVec 2) (s : State) : Out :=
  .next (s.exchange m d a (fun l => 4 * (l / 4) + p.toNat))
/-- `gshf` (R139). -/
def execGshf (m : MReg) (d a b : Reg) (s : State) : Out :=
  .next (s.exchange m d a (fun l => (s.lreg l b.toNat).toNat % 32))
/-- `gshu` (R139). -/
def execGshu (m : MReg) (d a : Reg) (k : BitVec 5) (s : State) : Out :=
  .next (s.exchange m d a (fun l => if l < k.toNat then l else l - k.toNat))
/-- `gshd` (R139). -/
def execGshd (m : MReg) (d a : Reg) (k : BitVec 5) (s : State) : Out :=
  .next (s.exchange m d a (fun l => if 31 < l + k.toNat then l else l + k.toNat))
/-- `gshx` (R139). -/
def execGshx (m : MReg) (d a : Reg) (k : BitVec 5) (s : State) : Out :=
  .next (s.exchange m d a (fun l => l ^^^ k.toNat))
/-- `gbc` (R139). -/
def execGbc (m : MReg) (d a : Reg) (k : BitVec 5) (s : State) : Out :=
  .next (s.exchange m d a (fun _ => k.toNat))

/-! ### Reductions and scans (R140, R141) -/

/-- The pairwise combine of an operation on a type (R140). -/
def combine (op : GOp) (t : Ty) (rm : Rnd) (x y : Word) : Word :=
  if t == .f32 then
    match op with
    | .min => toF32 .rne (minMaxV false false (f32 x) (f32 y))
    | .max => toF32 .rne (minMaxV true false (f32 x) (f32 y))
    | _ => toF32 rm (addV rm (f32 x) (f32 y))
  else
    match op with
    | .add => x + y
    | .min => wordMin (t == .n32) x y
    | .max => wordMax (t == .n32) x y
    | .and => x &&& y
    | .or => x ||| y
    | .xor => x ^^^ y

/-- The identity of an operation on a type (R140). -/
def identity (op : GOp) (t : Ty) : Word :=
  match op with
  | .add | .or | .xor => 0
  | .and => 0xFFFFFFFF
  | .min => if t == .f32 then 0x7F800000 else if t == .n32 then 0xFFFFFFFF else 0x7FFFFFFF
  | .max => if t == .f32 then 0xFF800000 else if t == .n32 then 0 else 0x80000000

/-- Combine with absent values (R140). -/
def combineO (f : Word → Word → Word) (x y : Option Word) : Option Word :=
  match x, y with
  | some a, some b => some (f a b)
  | some a, none => some a
  | none, y => y

/-- One level of the reduction tree: neighbours combine (R141). -/
def pairUp (f : Word → Word → Word) : List (Option Word) → List (Option Word)
  | x :: y :: r => combineO f x y :: pairUp f r
  | r => r

/-- The five levels of `gred`'s tree (R141). -/
def treeReduce (f : Word → Word → Word) (x : List (Option Word)) : Option Word :=
  (pairUp f (pairUp f (pairUp f (pairUp f (pairUp f x))))).headD none

/-- One stage of the Kogge–Stone sequence (R141). -/
def scanStage (f : Word → Word → Word) (k : Nat) (x : List (Option Word)) : List (Option Word) :=
  (List.range x.length).map (fun l =>
    if k ≤ l then combineO f (x.getD (l - k) none) (x.getD l none) else x.getD l none)

/-- The contributors' values by lane (R141). -/
def State.contrib (s : State) (m : MReg) (a : Reg) : List (Option Word) :=
  (List.range 32).map (fun l => if (s.exe m).getLsbD l then some (s.lreg l a.toNat) else none)

/-- The lone contributor's value, with a NaN made canonical (R112, R140): "NaN results are canonical". -/
def settle (op : GOp) (t : Ty) (x : Option Word) : Word :=
  match x with
  | none => identity op t
  | some v => if t == .f32 && f32 v == .nan then 0x7FC00000 else v

/-- `gred` (R141). -/
def execGred (m : MReg) (op : GOp) (ty : Ty) (rm : Rnd) (d a : Reg) (s : State) : Out :=
  let r := treeReduce (combine op ty rm) (s.contrib m a)
  .next (s.lanes32 m d (fun _ => settle op ty r))

/-- `gscan` (R141). -/
def execGscan (m : MReg) (op : GOp) (excl : Bool) (ty : Ty) (rm : Rnd) (d a : Reg) (s : State) : Out :=
  let f := combine op ty rm
  let x := scanStage f 16 (scanStage f 8 (scanStage f 4 (scanStage f 2 (scanStage f 1 (s.contrib m a)))))
  .next (s.lanes32 m d (fun l =>
    settle op ty (if excl then (if l = 0 then none else x.getD (l - 1) none) else x.getD l none)))

/-! ### The paired word (R43, R44) -/

/-- The result of one half from its first and second sources (R44, Table 2.12). -/
def halfOp (p : PHalf) (x y : Word) : Word :=
  let yf := modify .f32 false p.nb y
  match p.op with
  | .addN32 => x + y
  | .subN32 => x - y
  | .mulN32 => x * y
  | .minS32 => wordMin false x y
  | .maxS32 => wordMax false x y
  | .minN32 => wordMin true x y
  | .maxN32 => wordMax true x y
  | .and => x &&& y
  | .or => x ||| y
  | .xor => x ^^^ y
  | .andn => x &&& ~~~y
  | .shl => shiftL x y
  | .shr => shiftR x y
  | .sar => shiftA x y
  | .rot => x.rotateLeft (y.toNat % 32)
  | .mov => y
  | .addsS32 => packedSat .s32 (· + ·) x y
  | .subsS32 => packedSat .s32 (· - ·) x y
  | .addsS8x4 => packedSat .s8x4 (· + ·) x y
  | .addsN8x4 => packedSat .n8x4 (· + ·) x y
  | .subsS8x4 => packedSat .s8x4 (· - ·) x y
  | .subsN8x4 => packedSat .n8x4 (· - ·) x y
  | .fadd => toF32 p.rm (addV p.rm (f32 x) (f32 yf))
  | .fsub => toF32 p.rm (addV p.rm (f32 x) (negV (f32 yf)))
  | .fmul => toF32 p.rm (mulV (f32 x) (f32 yf))
  | .fmin => toF32 .rne (minMaxV false false (f32 x) (f32 yf))
  | .fmax => toF32 .rne (minMaxV true false (f32 x) (f32 yf))
  | .fminn => toF32 .rne (minMaxV false true (f32 x) (f32 yf))
  | .fmaxn => toF32 .rne (minMaxV true true (f32 x) (f32 yf))
  | .faddF16x2 => elementwise .f16x2 p.rm (fun i =>
      addV p.rm (elemF .f16x2 x i) (elemF .f16x2 (modify .f16x2 false p.nb y) i))
  | .faddBf16x2 => elementwise .bf16x2 p.rm (fun i =>
      addV p.rm (elemF .bf16x2 x i) (elemF .bf16x2 (modify .bf16x2 false p.nb y) i))

/-- One half's writes, its sources read in state `s` and its results written in state `t` (R44): H0 names even
registers and H1 odd ones. -/
def halfWrite (s t : State) (odd : Bool) (p : PHalf) : State :=
  let d := 2 * p.d.toNat + b2n odd
  let b := 2 * p.b.toNat + b2n odd
  t.writeLanes (s.live (p.m.setWidth 4)) d (fun l => halfOp p (s.lreg l d) (s.lreg l b))

/-- A paired word: both halves read before either writes (R44). -/
def execPPair (h0 h1 : PHalf) (s : State) : Out :=
  .next (halfWrite s (halfWrite s s false h0) true h1).advance

end Sys2Proof.Machine
end

