-- ==== Sys2Proof/Machine/System.lean ====
section
/-! DEFINITION. The system instructions and registers, trap entry as an event, translation queries, cache operations and
contact sheets (15_traps_preemption.md R351 to R367; 09_translation_leases.md R233). -/

namespace Sys2Proof.Machine

/-! ### Trap entry and return (R354, R355, R359) -/

/-- The trapped group enters its handler once its earlier accesses are performed (R354, R355). -/
def execTrapEntry (h c g : Nat) (s0 : State) : Out :=
  let s := s0.at_ { h := h, c := c, g := g }
  match s.grp.wait with
  | .trap t => if s.drained (s.slotsOf s.grp.member) then .next (s.enterTrap t) else .next s0
  | _ => .next s0

/-- `tret` (R359): a release point, so it waits for the accesses of every member thread. -/
def execTret (skip : Bool) (s : State) : Out :=
  .next (if s.drained (s.slotsOf s.grp.member) then s.trapReturn skip else s.setWait (.drain (s.slotsOf s.grp.member) none))

/-- `tvec` (R360): the vector control of the issuing level in its own function. -/
def execTvec (m : MReg) (a : Reg) (s : State) : Out :=
  let e := s.exe m
  .next (if e = 0 then s.advance
         else (s.setFn s.accFn ((s.fnAt s.accFn).putTvec (s.lreg (lowest e) a.toNat).toNat)).advance)

/-! ### Segments (R361) -/

/-- `seg.ld` (R361): into the workgroup's set, where seg.map is stored invalid, or with H = 1 into the handler set of the
function that VFSEL names. -/
def execSegLd (m : MReg) (h : Bool) (sgm : BitVec 3) (a : Reg) (s : State) : Out :=
  let e := s.exe m
  let i := sgm.toNat
  let x := Seg.ofNat i (s.lquad (lowest e) a.toNat)
  .next (
    if e = 0 then s.advance
    else if h then
      let y := s.fnAt s.pkg.vfsel
      (s.setFn s.pkg.vfsel { y with hseg := mset y.hseg i x }).advance
    else (s.setWg { s.wg with segs := mset s.wg.segs i { x with valid := x.valid && i != 5 } }).advance)

/-- `seg.rd` (R361): the group's own copy; at user level seg.map reads as zero. -/
def execSegRd (m : MReg) (a : Reg) (sgm : BitVec 3) (s : State) : Out :=
  let e := s.exe m
  let v := if s.grp.lvl == .user && sgm = 5 then 0 else (s.segOf sgm.toNat).toNat
  .next (if e = 0 then s.advance else (s.writeQuad (s.live m) a.toNat (fun _ => v)).advance)

/-! ### System registers (R357 Table 15.3, R402) -/

/-- The privilege of a level: 0 user, 1 supervisor, 2 hypervisor. -/
def levelNum (l : Level) : Nat :=
  match l with
  | .user => 0
  | .supervisor => 1
  | .hypervisor => 2

/-- The saved set that registers 0x000 to 0x040 reach, each by its number (Table 15.3). -/
def Saved.read (v : Saved) (n : Nat) : Nat :=
  if n = 0 then v.pc.toNat
  else if n = 1 then packFields [(0, 8, v.code), (8, 2, levelNum v.level), (10, 5, v.lane), (32, 32, v.detail)]
  else if n = 2 then v.addr % 2 ^ 64
  else if 0x10 ≤ n && n < 0x30 then (mget 0 v.s (n - 0x10)).toNat
  else if 0x30 ≤ n && n < 0x40 then (mget 0 v.m (n - 0x30)).toNat
  else if n = 0x40 then v.flags
  else 0

/-- Write a register of the saved set; 0x001 and 0x002 are read only. -/
def Saved.write (v : Saved) (n x : Nat) : Saved :=
  let w := BitVec.ofNat 32 x
  if n = 0 then { v with pc := w }
  else if 0x10 ≤ n && n < 0x30 then { v with s := mset v.s (n - 0x10) w }
  else if 0x30 ≤ n && n < 0x40 then { v with m := mset v.m (n - 0x30) w }
  else if n = 0x40 then { v with flags := x % 16 }
  else v

/-- The function whose registers the per-function numbers reach: VFSEL's at hypervisor level, else the group's own (R357). -/
def State.sysFn (s : State) : Nat := if s.grp.lvl == .hypervisor then s.pkg.vfsel else s.wg.fn

/-- The checkpoint registers of a function at a level (Table 15.3): the user's view is that of `ckpt.q`, a supervisor also reads
what the log and tray hold, and the other fields are the hypervisor's (R6). -/
def Ckpt.read (k : Ckpt) (lvl n : Nat) : Nat :=
  let hyp := lvl == 2
  match n with
  | 0x060 => b2n k.en + (if hyp then k.int * 2 ^ 8 else 0)
  | 0x061 => if hyp then k.logBase + k.logSz * 2 ^ 56 else 0
  | 0x062 => if hyp then k.trayBase else 0
  | 0x063 => if hyp then k.imgBase else 0
  | 0x064 => k.seq
  | 0x065 => k.time
  | 0x066 => if lvl = 0 then 0 else packFields [(0, 32, 144 * k.entries), (32, 23, 16 * k.tray.length)]
  | _ => 0

/-- The package's system registers that the hypervisor alone reaches (Table 15.3, R402). -/
def State.pkgRead (s : State) (n : Nat) : Nat :=
  let p := s.pkg
  match n with
  | 0x050 => p.vfsel
  | 0x0A0 => p.chhum
  | 0x0A1 => p.prevf
  | 0x0A2 => packFields [(0, 6, p.killvf), (8, 32, p.killid)]
  | 0x0A3 =>
    packFields [(0, 32, match s.localHum p.wdhum with
        | some h => (s.coreAt h p.wdcore).engine.wdog
        | none => 0), (32, 9, p.wdhum), (41, 6, p.wdcore), (47, 1, b2n p.wdall)]
  | 0x0B0 => p.mgsel
  | 0x0B1 => s.regRead true (bitsOf p.mgsel 24 6) (bitsOf p.mgsel 3 19 * 8)
  | _ => 0

/-- A system register as the acting group reads it (R6, R53, R357): user level reads the unprivileged views alone. -/
def State.sysRead (s : State) (n : Nat) : Nat :=
  let l := levelNum s.grp.lvl
  if n ≤ 0x40 then (if l = 0 then 0 else (s.grp.saved.head?.map (fun v => v.read n)).getD 0)
  else if n = 0x048 then
    (let x := s.fnAt s.sysFn
     if l = 0 || (l = 1 && s.sysFn = 0) then 0 else b2n x.tven + x.tvbase)
  else if n = 0x070 then (if l = 0 then 0 else packFields [(0, 6, s.pkg.rscore), (8, 3, s.pkg.rswg)])
  else if 0x060 ≤ n && n ≤ 0x066 then (s.fnAt s.sysFn).ck.read l n
  else if n = 0x0A8 then (if l = 0 then 0 else b2n s.pkg.refused)
  else if l = 2 then s.pkgRead n
  else 0

/-- `sys.rd` (R357). -/
def execSysRd (m : MReg) (a : Reg) (n : BitVec 12) (s : State) : Out :=
  .next (if s.exe m = 0 then s.advance else (s.writePair (s.live m) a.toNat (fun _ => s.sysRead n.toNat)).advance)

/-- The interval that a written CKINT is stored as (Table 15.3). -/
def ckInterval (v : Nat) : Nat := if v < 10 then 10 else if 200 < v then 200 else (v + 5) / 10 * 10

/-- Write a checkpoint register of a function (Table 15.3): the PF's own CKEN has no effect. -/
def State.ckWrite (s : State) (f n v : Nat) : State :=
  match n with
  | 0x060 =>
    let s := s.modCk f (fun k => { k with int := ckInterval (bitsOf v 8 8) })
    if f = 0 then s.modCk f (fun k => { k with en := bitOf v 0 }) else s.setCken f (bitOf v 0)
  | 0x061 => s.modCk f (fun k => { k with logBase := bitsOf v 16 40 * 65536, logSz := bitsOf v 56 4 })
  | 0x062 => s.modCk f (fun k => { k with trayBase := bitsOf v 22 34 * 2 ^ 22 })
  | 0x063 => s.modCk f (fun k => { k with imgBase := bitsOf v 16 40 * 65536 })
  | _ => s

/-- Write the watchdog register (Table 15.3). -/
def State.wdWrite (s : State) (v : Nat) : State :=
  let s := { s with pkg := { s.pkg with wdhum := bitsOf v 32 9, wdcore := bitsOf v 41 6, wdall := bitOf v 47 } }
  match s.localHum (bitsOf v 32 9) with
  | some h => s.setWdlim h (bitsOf v 41 6) (bitOf v 47) (v % 2 ^ 32)
  | none => if bitOf v 47 then s.setWdlim 0 0 true (v % 2 ^ 32) else s

/-- Write a package register of the hypervisor's (Table 15.3, R402). -/
def State.pkgWrite (s : State) (n v : Nat) : State :=
  match n with
  | 0x050 => { s with pkg := { s.pkg with vfsel := v % 64 } }
  | 0x0A0 =>
    let s := { s with pkg := { s.pkg with chhum := bitsOf v 0 9 } }
    match s.localHum (bitsOf v 0 9) with
    | some h => s.chipletAct h (bitsOf v 9 2)
    | none => s
  | 0x0A1 =>
    let s := { s with pkg := { s.pkg with prevf := v % 64 } }
    if bitOf v 8 then s.prego (v % 64) else s
  | 0x0A2 =>
    let s := { s with pkg := { s.pkg with killvf := v % 64, killid := bitsOf v 8 32 } }
    if bitOf v 40 then s.killgo (v % 64) (bitsOf v 8 32) else s
  | 0x0A3 => s.wdWrite v
  | 0x0B0 => { s with pkg := { s.pkg with mgsel := packFields [(3, 19, bitsOf v 3 19), (24, 6, bitsOf v 24 6)] } }
  | 0x0B1 => s.regWrite true (bitsOf s.pkg.mgsel 24 6) (bitsOf s.pkg.mgsel 3 19 * 8) v
  | _ => s

/-- A write of RSCORE, RSWG and RSGO (R363): a supervisor resumes its own function's workgroups. -/
def State.rsWrite (s : State) (v : Nat) : State :=
  let own := s.grp.lvl == .hypervisor
    || (mget {} (s.coreAt s.cur.h (bitsOf v 0 6)).wgs (bitsOf v 8 3)).fn == s.wg.fn
  let s := { s with pkg := { s.pkg with rscore := bitsOf v 0 6, rswg := bitsOf v 8 3 } }
  if bitOf v 11 && own then s.resumeWg s.cur.h (bitsOf v 0 6) (bitsOf v 8 3) else s

/-- Write a system register at the acting group's level (R6, R357). -/
def State.sysWrite (s : State) (n v : Nat) : State :=
  let hyp := s.grp.lvl == .hypervisor
  if n ≤ 0x40 then
    match s.grp.saved with
    | [] => s
    | sv :: rest => s.setGrp { s.grp with saved := sv.write n v :: rest }
  else if n = 0x048 then
    (if hyp || s.sysFn != 0 then s.setFn s.sysFn ((s.fnAt s.sysFn).putTvec v) else s)
  else if n = 0x070 then s.rsWrite v
  else if n = 0x0A8 then (if bitOf v 0 then { s with pkg := { s.pkg with refused := false } } else s)
  else if hyp then (if 0x060 ≤ n && n ≤ 0x066 then s.ckWrite s.sysFn n v else s.pkgWrite n v)
  else s

/-- `sys.wr` (R357): the PC has advanced when the write takes effect. -/
def execSysWr (m : MReg) (n : BitVec 12) (a : Reg) (s : State) : Out :=
  let e := s.exe m
  .next (if e = 0 then s.advance else s.advance.sysWrite n.toNat (s.lpair (lowest e) a.toNat).toNat)

/-- `vfsel` (R364). -/
def execVfsel (m : MReg) (a : Reg) (s : State) : Out :=
  let e := s.exe m
  let v := (s.lreg (lowest e) a.toNat).toNat
  .next (
    if e = 0 then s.advance
    else if 63 < v || (v != 0 && !(List.range 8).any (fun h => s.inPartition h v)) then s.trap tAccess (lowest e)
    else ({ s with pkg := { s.pkg with vfsel := v } }).advance)

/-! ### Checkpoints and halting (R363, R364) -/

/-- `ckpt` (R364, R369). -/
def execCkpt (s : State) : Out := .next (if s.wg.fn = 0 then s else s.requestEarly s.wg.fn).advance

/-- `ckpt.q` (R364). -/
def execCkptQ (m : MReg) (a : Reg) (s : State) : Out :=
  let k := (s.fnAt s.wg.fn).ck
  let v := packFields [(0, 1, b2n k.en), (1, 1, b2n (k.state != .run)), (32, 32, k.seq), (64, 64, k.time)]
  .next (if s.exe m = 0 then s.advance else (s.writeQuad (s.live m) a.toNat (fun _ => v)).advance)

/-- `halt` (R363): the launch ends with the trap's status, or with KILLED outside a saved trap. -/
def execHalt (s : State) : Out :=
  .next (s.endLaunch s.wg.launch (match s.grp.saved with
    | [] => stKilled
    | sv :: _ => 32 + sv.code))

/-- `halt.dbg` (R363): the group's workgroup stops. -/
def execHaltDbg (s : State) : Out :=
  .next (s.advance.setWg { s.wg with stopped := true, halting := s.cur.g + 1 })

/-! ### Translation queries (R233) -/

/-- The words that report a translation of an address. -/
def Tlb.words (t : Tlb) (va hits : Nat) (valid : Bool) : Nat :=
  let f := t.hpa va / 65536
  packFields [(0, 2, hits), (2, 1, b2n t.r), (3, 1, b2n t.w), (4, 1, b2n t.x), (5, 1, b2n t.d), (6, 1, b2n t.sc),
    (8, 4, t.cls), (12, 1, b2n valid), (24, 8, f / 2 ^ 32), (32, 32, f), (64, 64, t.expiry)]

/-- `tlb.probe` of one address (R233). -/
def State.probe (s : State) (va : Nat) : Nat :=
  let now := s.chipTime
  let l1 := s.core.tlb.find? (fun t => t.serves s.accFn va now)
  let hum := s.hum.tlb.find? (fun t => t.serves s.accFn va now)
  match l1, hum with
  | some t, some _ => t.words va 3 false
  | some t, none => t.words va 1 false
  | none, some t => t.words va 2 false
  | none, none => 0

/-- The address in a register pair of a lane (R233). -/
def State.pairVa (s : State) (b : Reg) (l : Nat) : Nat := (s.lpair l b.toNat).toNat % 2 ^ 52

/-- `tlb.probe` (R233). -/
def execTlbProbe (m : MReg) (a b : Reg) (s : State) : Out :=
  .next (if s.exe m = 0 then s.advance
         else (s.writeQuad (s.live m) a.toNat (fun l => s.probe (s.pairVa b l))).advance)

/-! ### Lease instructions (R232) -/

/-- Whether the walk of a query in a function's translation meets an entry over a fenced link, for which no answer comes (R398). -/
def State.queryLost (s : State) (f va : Nat) : Bool :=
  s.walkLost s.cur.h f s.wg.launch ((s.uncached s.cur.h).walkFull s.cur.h f va {}).reads

/-- Walk the pages of the passing lanes in lane order, one walk for the lanes of a page, with a step on the state; the value
of each lane (R232). -/
def State.leaseLanes (s : State) (op : MemOp) (f : State → Nat → State × Nat) : State × List LaneAcc :=
  let ps := (op.items.filter (fun i => i.pass)).foldl (fun (ps : List Nat) i =>
    if ps.contains (i.addr / 65536) then ps else ps ++ [i.addr / 65536]) []
  let w := ps.foldl (fun (p : State × NMap Nat) n =>
    let q := f p.1 (n * 65536)
    (q.1, mset p.2 n q.2)) (s, [])
  (w.1, op.items.map (fun i => { i with val := if i.pass then BitVec.ofNat 64 (mget 0 w.2 (i.addr / 65536)) else 0 }))

/-- `lease.q` or `lease.renew` on its checked lanes; a clock at fault starts no walk (R214), and a walk over a fenced link gets no
answer (R398). -/
def State.leaseGo (s : State) (op : MemOp) (f : State → Nat → State × Nat) : State :=
  if s.faulty (coreKey s.cur.h s.cur.c) || s.faulty (512 + s.cur.h) then s.setWait (.walk true)
  else if op.items.any (fun i => i.pass && s.queryLost s.accFn i.addr) then s.lose s.wg.launch stPathLost
  else
    let p := s.leaseLanes op f
    (p.1.writePair op.live op.dst.toNat (fun l => (gotVal p.2 l).toNat)).endMem

/-- The form of the lease instructions: width 1, no permission needed (R232). -/
def leaseForm (a : Reg) : Form := { kind := .load, ty := .n8, dst := a, sels := [0, 1, 6, 7], free := true }

/-- `lease.q` (R232): a fresh walk of each page that installs nothing and sets no A or D. -/
def execLeaseQ (m : MReg) (a b : Reg) (buf : BufR) (off : BitVec 15) (s : State) : Out :=
  .next (s.chkGo (s.recCheck (leaseForm a) m b buf off.toInt) (fun op =>
    s.leaseGo op (fun t va =>
      let w := t.queryWalk t.cur.h t.accFn va
      (w.1, w.1.horizonOf w.2))))

/-- Whether a page holds bytes of a declared range, where an access of the space must lie in one (R168, R232). -/
def State.pageDeclared (s : State) (op : MemOp) (va : Nat) : Bool :=
  !(s.ranged op.sel) || (s.rangesOf s.wg.launch).any (fun r =>
    decide (r.2.2.1 < va + 65536) && decide (va < r.2.2.1 + r.2.2.2.1 * r.2.2.2.2))

/-- `lease.renew` (R232): a fresh walk as for a load, installed in the core's and the hummock's caches. -/
def execLeaseRenew (m : MReg) (a b : Reg) (buf : BufR) (off : BitVec 15) (s : State) : Out :=
  .next (s.chkGo (s.recCheck (leaseForm a) m b buf off.toInt) (fun op =>
    s.leaseGo op (fun t va =>
      if !(t.pageDeclared op va) then (t, 0)
      else
        let w := (t.uncached t.cur.h).walkFull t.cur.h t.accFn va { r := true }
        let t := t.noteWalk t.accFn t.cur.h w
        match w.res with
        | .ok e upd => (((t.writeMarks t.accFn upd).keepWalk t.cur.h t.accFn w.path).installTlb t.cur e, e.expiry)
        | _ => (t, 0))))

/-! ### Walk queries (R233) -/

/-- The words of a failed walk (R233). -/
def failWords (path : List Pte) (stage level : Nat) : Nat :=
  packFields [(8, 4, if path.isEmpty then 0 else pathCls path), (13, 3, level), (16, 1, b2n (stage == 2))]

/-- A walk of one stage, as a full walk's effects see it. -/
def WalkPath.walked (p : WalkPath) : Walked := { res := .swap, bad := p.bad, path := p.path, reads := p.reads }

/-- `walk.q` of one address: the words, or none while an entry is being exchanged, and the walk (R222, R233).  It reads every entry
at its home, installs nothing and sets neither A nor D.  With .s2 of the PF, which has no stage 2, it reports a failed stage-2 walk at
level 3: DESIGN CHOICE, R233 names no answer (notes/assumptions 58). -/
def State.walkQuery (s : State) (f : Nat) (s2 : Bool) (va : Nat) : Option Nat × Walked :=
  let h := s.cur.h
  let u := s.uncached h
  if !(s.fnAt f).tren then (some (failWords [] 1 3), { res := .swap })
  else if s2 then
    if f = 0 then (some (failWords [] 2 3), { res := .swap })
    else
      let p := u.walk2 h f va
      (match p.res with
       | .leaf e l =>
         some (({ r := e.r, w := e.w, x := e.x, d := e.d, sc := e.sc, cls := pathCls p.path, frame := e.frame,
                  va := va / leafSize l * leafSize l, size := leafSize l, expiry := pathExpiry p.path } : Tlb).words va 0 true)
       | .swap => none
       | .invalid l => some (failWords p.path 2 l)
       | .stage2 l _ _ => some (failWords p.path 2 l), p.walked)
  else
    let w := u.walkFull h f va {}
    (match w.res with
     | .ok t _ => some (t.words va 0 true)
     | .swap => none
     | .fail stage level _ _ _ => some (failWords w.path stage level), w)

/-- `walk.q` and `walk.q.s2` (R233): f = 0 is the issuer's own function; a VF that is not enabled reads as zero.  While an entry of a
lane's walk is being exchanged the walk holds (R222), and one over a fenced link gets no answer (R398). -/
def execWalkQ (m : MReg) (a b : Reg) (f : BitVec 6) (s2 : Bool) (s : State) : Out :=
  let fn := if f = 0 then s.accFn else f.toNat
  let live := s.live m
  let q := fun (l : Nat) => s.walkQuery fn s2 (s.pairVa b l)
  .next (
    if s.exe m = 0 then s.advance
    else if f ≠ 0 && !(s.pkg.vfen && decide (f.toNat ≤ s.pkg.numvfs)) then (s.writeQuad live a.toNat (fun _ => 0)).advance
    else if s.faulty (512 + s.cur.h) then s.setWait (.walk true)
    else if (lanesOf live).any (fun l => s.walkLost s.cur.h fn s.wg.launch (q l).2.reads) then s.lose s.wg.launch stPathLost
    else if (lanesOf live).any (fun l => (q l).1.isNone) then s.setWait (.walk true)
    else
      let t := (lanesOf live).foldl (fun t l => t.noteWalk fn s.cur.h (q l).2) s
      (t.writeQuad live a.toNat (fun l => ((q l).1).getD 0)).advance)

/-! ### Stores of whole spans: `l2op` and `snap` (R365 to R367) -/

/-- The outcome of ranks 1 to 5 for a span: a trap with the segment offset, or the record's segment and the address in its
space. -/
inductive SpanChk where
  | trap (code addr : Nat)
  | go (sel x addr : Nat)

/-- Ranks 1 to 4 of R184 for `n` units of `w` bytes from the record address of an index, ZF ignored (R365, R366; notes/assumptions 27). -/
def State.spanCheck (s : State) (sels : List Nat) (buf : BufR) (i w n : Nat) : SpanChk :=
  let r := s.recordOf buf
  let sg := s.segOf r.sel
  let o : Int := ((i * r.stride : Nat) : Int)
  let x := r.segOff o
  if !(r.usable && sels.contains r.sel && sg.valid && r.pw && sg.w) then .trap tAccess x
  else if !(r.inb o (w * n)) then .trap tBounds x
  else if (sg.base + x) % w ≠ 0 then .trap tAlign x
  else if sg.size < x + w * n then .trap tBounds x
  else .go r.sel x (s.spaceAddr r.sel sg.base x 8)

/-- The store of a list of bytes at an address, in units of 8 bytes, by lane `l`. -/
def spanOp (l sel x addr : Nat) (bs : List Byte) : MemOp :=
  { kind := .store, space := selSpace sel, sel := sel, ty := .b64, live := 0, exe := maskOf [l]
    items := (List.range (bs.length / 8)).map (fun k =>
      { lane := l, off := x + 8 * k, addr := addr + 8 * k, val := BitVec.ofNat 64 (unitAt bs (8 * k)) }) }

/-- Whether the undo log and tray of a function have room for a span (R369). -/
def State.ckRoom (s : State) (f n : Nat) : Bool :=
  let k := (s.fnAt f).ck
  !(k.en && f != 0) || (decide (144 * (k.entries + n / 128 + 2) ≤ k.logBytes)
    && decide (16 * (k.tray.length + n / 8 + n / 128 + 2) ≤ trayBytes))

/-- Rank 6 on a span and then its stores (R184, R365, R366): performed at once, or on their way while the group waits as `w` says of
their number. -/
def State.spanGo (s : State) (op : MemOp) (w : Nat → Wait) : State :=
  if !(s.ckRoom s.accFn (8 * op.items.length)) then (s.requestEarly s.accFn).setWait (.drain [] (some s.accFn))
  else
    match s.rank6 op with
    | .lease => s.endLaunch s.wg.launch stLease
    | .trap code lane addr detail => s.trap code lane addr detail
    | .miss lines => s.askWalks (lines.map (s.walkFor op))
    | .ok ts =>
      let s := ts.foldl (fun t p => t.keepTlb p.2) s
      let m := s.markReqs ((s.reqsOf op ts).map (s.numbered (s.reqCtr + 1)))
      if s.atOnce m.2 then (m.1.performAll m.2).1.endMem else (m.1.sendReqs m.2 []).setWait (w (s.reqCtr + 1))

/-- A group that waits for the lines of its span goes on once every one is performed (R365, R366). -/
def State.spanDone (s0 s : State) (id : Nat) : Out := .next (if s.core.reqs.all (fun r => r.id != id) then s.endMem else s0)

/-- .clean writes the modified ones of some lines to HBM and keeps them; .inv also frees them from the slices (R365). -/
def L2.write (x : L2) (inv : Bool) (ls : List Nat) : L2 :=
  { x with tags := if inv then x.tags.filter (fun d => !(ls.contains d.line))
                   else x.tags.map (fun d => if ls.contains d.line then { d with dirty := false } else d) }

/-- `l2op` (R365): .clean and .inv change no data; .zero stores zeros. -/
def execL2op (m : MReg) (op : L2Op) (b : Reg) (buf : BufR) (lines : BitVec 12) (s : State) : Out :=
  let e := s.exe m
  let l := lowest e
  let n := lines.toNat + 1
  let s := if s.grp.held.isNone then s.setGrp { s.grp with held := some (mget {} s.wg.b buf.toNat) } else s
  .next (
    if e = 0 then s.endMem
    else match s.spanCheck [1, 6] buf (s.lreg l b.toNat).toNat 128 n with
    | .trap code x => s.trap code l x
    | .go sel x addr =>
      let o := spanOp l sel x addr (List.replicate (128 * n) 0)
      if op = .zero then s.spanGo o (fun id => .l2op id false)
      else
        match s.rank6 o with
        | .lease => s.endLaunch s.wg.launch stLease
        | .trap code lane addr detail => s.trap code lane addr detail
        | .miss lines => s.askWalks (lines.map (s.walkFor o))
        | .ok ts =>
          let t := (ts.foldl (fun t p => t.keepTlb p.2) s).endMem
          { t with l2 := t.l2.write (op == .inv) (ts.map (fun p => p.2.hpa (p.1 * 128) / 128)) })

/-- Every line of an `l2op` is done (R365). -/
def execL2opDone (h c g : Nat) (s0 : State) : Out :=
  let s := s0.at_ { h := h, c := c, g := g }
  match s.grp.wait with
  | .l2op id _ => State.spanDone s0 s id
  | _ => .next s0

/-- The length of a contact sheet. -/
def sheetSize (mask : Nat) : Nat :=
  64 + ((List.range 28).filter (fun c => mask.testBit c)).foldl (fun n c =>
    n + windowSize c + (if c = 0x0A then 192 * 1032 else 0)) 0

/-- The trap of `snap`'s own operands, if any (R366). -/
def State.snapTrap (s : State) (a mask rest : Nat) : Option Nat :=
  let h := mapHum a
  if mask = 0 || bitOf mask 15 || bitsOf mask 28 4 != 0 || rest != 0 || (bitsOf mask 16 12 != 0 && mapCore a != 63)
      || !(s.humExists h) then some tBounds
  else if s.grp.lvl == .supervisor && !(s.physInPartition h s.wg.fn) then some tAccess
  else none

/-- `snap` (R366): the selected structures at this instant, written through the record in units of 8 bytes
(notes/assumptions 27). -/
def execSnap (m : MReg) (b : Reg) (buf : BufR) (a : Reg) (s : State) : Out :=
  let e := s.exe m
  let l := lowest e
  let q := s.lquad l a.toNat
  let at_ := bitsOf q 33 15 * 2 ^ 33
  let mask := bitsOf q 64 32
  let s := if s.grp.held.isNone then s.setGrp { s.grp with held := some (mget {} s.wg.b buf.toNat) } else s
  .next (
    if e = 0 then s.endMem
    else match s.snapTrap at_ mask (bitsOf q 96 32) with
    | some code => s.trap code l
    | none =>
      match s.spanCheck [1, 2, 6, 7] buf (s.lreg l b.toNat).toNat 8 (sheetSize mask / 8) with
      | .trap code x => s.trap code l x
      | .go sel x addr =>
        let o := spanOp l sel x addr (s.sheet (s.grp.lvl == .hypervisor) at_ mask)
        let s := { s with freeCtr := s.freeCtr + 1 }
        if sel = 2 then s.accGo o else s.spanGo o (fun id => .snap id false))

/-- Every byte of a sheet is performed, a release of those bytes (R366). -/
def execSnapCaptureDone (h c g : Nat) (s0 : State) : Out :=
  let s := s0.at_ { h := h, c := c, g := g }
  match s.grp.wait with
  | .snap id _ => State.spanDone s0 s id
  | _ => .next s0

end Sys2Proof.Machine
end

