-- ==== Sys2Proof/Machine/Window.lean ====
section
/-! DEFINITION. The window loads and stores through seg.peer and seg.map (08_memory_access.md R193). -/

namespace Sys2Proof.Machine

/-- The lines of a scratchpad window that one store writes whole lose their poison (R204). -/
def State.mapHeal (s : State) (op : MemOp) : State :=
  op.lines.foldl (fun t ln =>
    if mapCode (ln * 128) = 1 && decide (mapOff (ln * 128) < 0x60000)
        && (List.range 128).all (fun b => op.parts.any (fun i =>
          decide (i.addr ≤ ln * 128 + b) && decide (ln * 128 + b < i.addr + memWidth op.ty))) then
      match t.localHum (mapHum (ln * 128)) with
      | some h =>
        t.modKey (coreKey h (mapCore (ln * 128))) (fun k => { k with poison := k.poison.filter (· != mapOff (ln * 128) / 128) })
      | none => t
    else t) s

/-- Whether an access to a map address gets no answer: a link on the way to its hummock is fenced (R398). -/
def State.mapLost (s : State) (h l a : Nat) : Bool := s.overFenced { who := { h := h }, home := mapHum a, launch := l }

/-- A checked access through seg.map: it never parks (R190) and acts on the bytes as they stand.  A lane that the crossbar denies
traps, a helper lane reads 0, and a lost path ends the launch or rolls its function back (R184, R193, R380, R398). -/
def State.mapGo (s : State) (op : MemOp) : State :=
  let path := fun (i : LaneAcc) => s.mapPath s.wg.fn s.cur.h (s.cur.c / 8) i.addr
  match op.items.find? (fun i => i.pass && !i.helper && !(path i)) with
  | some i => s.trap tAccess i.lane i.off
  | none =>
    if op.items.any (fun i => i.pass && path i && s.mapLost s.cur.h s.wg.launch i.addr) then s.lose s.wg.launch stPathLost
    else
    if op.kind == MemKind.load then
      let hyp := s.grp.lvl == .hypervisor
      let got := op.items.map (fun i =>
        { i with val := if i.pass && path i then BitVec.ofNat 64 (s.mapReadN hyp i.addr (memWidth op.ty)) else 0 })
      ({ s with freeCtr := s.freeCtr + 1 }).complete op got
    else
      ((op.parts.foldl (fun t i => t.mapWrite i.addr (memWidth op.ty) i.val.toNat) s).mapHeal op).complete op []

/-- A window access goes to a peer's scratchpad or to the map, after what its ordering role waits for (R239). -/
def State.winGo (s : State) (op : MemOp) : State :=
  if op.space != Space.map then s.accGo op
  else match s.bankWait op with
  | some w => s.setWait w
  | none => s.mapGo op

/-- `ldw` and `stw` (R193). -/
def State.winForm (s : State) (f : Form) (m : MReg) (b : Reg) (buf : BufR) (off : Int) : State :=
  let s := if s.grp.held.isNone then s.setGrp { s.grp with held := some (mget {} s.wg.b buf.toNat) } else s
  s.chkGo (s.recCheck f m b buf off) (fun op => s.winGo op)

/-- `ldw` (R193). -/
def execLdw (ty : Ty) (o : RecOp) (s : State) : Out :=
  .next (s.winForm { kind := .load, ty := ty, dst := o.a, rep := o.rep, sels := [4, 5] } o.m o.b o.buf o.off.toInt)

/-- `stw` (R193). -/
def execStw (ty : Ty) (o : RecOp) (s : State) : Out :=
  .next (s.winForm { kind := .store, ty := ty, dst := o.a, rep := o.rep, sels := [4, 5] } o.m o.b o.buf o.off.toInt)

end Sys2Proof.Machine
end

