-- ==== Sys2Proof/Machine/Dispatch.lean ====
section
/-! DEFINITION. One arm per instruction of the opcode table: the meaning of each. -/

namespace Sys2Proof.Machine

/-- What an instruction or event does to the state. -/
def exec (i : Instr) (s : State) : Host.Outcome State Fault Refusal :=
  match i with
  -- Scalar and control (chapter 3)
  | .smov c d src => Sys2Proof.Machine.execSmov c d src s
  | .smovi c d imm => Sys2Proof.Machine.execSmovi c d imm s
  | .sadd c d a b => Sys2Proof.Machine.execSadd c d a b s
  | .ssub c d a b => Sys2Proof.Machine.execSsub c d a b s
  | .smul c d a b => Sys2Proof.Machine.execSmul c d a b s
  | .smulh c u d a b => Sys2Proof.Machine.execSmulh c u d a b s
  | .sand c d a b => Sys2Proof.Machine.execSand c d a b s
  | .sor c d a b => Sys2Proof.Machine.execSor c d a b s
  | .sxor c d a b => Sys2Proof.Machine.execSxor c d a b s
  | .sshl c d a b => Sys2Proof.Machine.execSshl c d a b s
  | .sshr c d a b => Sys2Proof.Machine.execSshr c d a b s
  | .ssar c d a b => Sys2Proof.Machine.execSsar c d a b s
  | .smin c u d a b => Sys2Proof.Machine.execSmin c u d a b s
  | .smax c u d a b => Sys2Proof.Machine.execSmax c u d a b s
  | .scmp c a b => Sys2Proof.Machine.execScmp c a b s
  | .scmpi c a imm => Sys2Proof.Machine.execScmpi c a imm s
  | .ssel c sel d a b => Sys2Proof.Machine.execSsel c sel d a b s
  | .sread c d v lane => Sys2Proof.Machine.execSread c d v lane s
  | .kst c k b => Sys2Proof.Machine.execKst c k b s
  | .br c off => Sys2Proof.Machine.execBr c off s
  | .bra c t => Sys2Proof.Machine.execBra c t s
  | .brmz c m off => Sys2Proof.Machine.execBrmz c m off s
  | .brmnz c m off => Sys2Proof.Machine.execBrmnz c m off s
  | .brmf c m off => Sys2Proof.Machine.execBrmf c m off s
  | .sloop c ctr off => Sys2Proof.Machine.execSloop c ctr off s
  | .call c l off => Sys2Proof.Machine.execCall c l off s
  | .ret c l => Sys2Proof.Machine.execRet c l s
  | .trap c code => Sys2Proof.Machine.execTrap c code s
  | .nop c => Sys2Proof.Machine.execNop c s
  | .hint n body => Sys2Proof.Machine.execHint n body s
  | .yield c => Sys2Proof.Machine.execYield c s
  | .sleep c b => Sys2Proof.Machine.execSleep c b s
  -- Work creation (chapter 7)
  | .spawn c d sm f n e => Sys2Proof.Machine.execSpawn c d sm f n e s
  | .reform c t => Sys2Proof.Machine.execReform c t s
  | .reformTwo c m off => Sys2Proof.Machine.execReformTwo c m off s
  | .retire c => Sys2Proof.Machine.execRetire c s
  | .binAge c b => Sys2Proof.Machine.execBinAge c b s
  | .jpost c d a card n dir => Sys2Proof.Machine.execJpost c d a card n dir s
  -- Integer (chapter 4)
  | .mov m ty d a => Sys2Proof.Machine.execMov m ty d a s
  | .movScalar m d src => Sys2Proof.Machine.execMovScalar m d src s
  | .movi m d imm => Sys2Proof.Machine.execMovi m d imm s
  | .tidx m d => Sys2Proof.Machine.execTidx m d s
  | .add m ty d a b => Sys2Proof.Machine.execAdd m ty d a b s
  | .addc m d a b cm => Sys2Proof.Machine.execAddc m d a b cm s
  | .sub m ty d a b => Sys2Proof.Machine.execSub m ty d a b s
  | .subc m d a b cm => Sys2Proof.Machine.execSubc m d a b cm s
  | .mul m ty d a b => Sys2Proof.Machine.execMul m ty d a b s
  | .mulhi m ty d a b => Sys2Proof.Machine.execMulhi m ty d a b s
  | .mad m ty d a b e => Sys2Proof.Machine.execMad m ty d a b e s
  | .madw m ty d a b e => Sys2Proof.Machine.execMadw m ty d a b e s
  | .neg m ty d a => Sys2Proof.Machine.execNeg m ty d a s
  | .abs m ty d a => Sys2Proof.Machine.execAbs m ty d a s
  | .min m ty d a b => Sys2Proof.Machine.execMin m ty d a b s
  | .max m ty d a b => Sys2Proof.Machine.execMax m ty d a b s
  | .and m ty d a b => Sys2Proof.Machine.execAnd m ty d a b s
  | .or m ty d a b => Sys2Proof.Machine.execOr m ty d a b s
  | .xor m ty d a b => Sys2Proof.Machine.execXor m ty d a b s
  | .not m ty d a => Sys2Proof.Machine.execNot m ty d a s
  | .andn m ty d a b => Sys2Proof.Machine.execAndn m ty d a b s
  | .shl m ty d a b => Sys2Proof.Machine.execShl m ty d a b s
  | .shr m ty d a b => Sys2Proof.Machine.execShr m ty d a b s
  | .sar m ty d a b => Sys2Proof.Machine.execSar m ty d a b s
  | .rot m ty d a b => Sys2Proof.Machine.execRot m ty d a b s
  | .bfx m ty d a b => Sys2Proof.Machine.execBfx m ty d a b s
  | .bfi m d a b e => Sys2Proof.Machine.execBfi m d a b e s
  | .popc m ty d a => Sys2Proof.Machine.execPopc m ty d a s
  | .clz m ty d a => Sys2Proof.Machine.execClz m ty d a s
  | .brev m ty d a => Sys2Proof.Machine.execBrev m ty d a s
  | .sel m ty d a b cm => Sys2Proof.Machine.execSel m ty d a b cm s
  | .cmp m cond ty d a b => Sys2Proof.Machine.execCmp m cond ty d a b s
  | .cvti m dt ft sat d a => Sys2Proof.Machine.execCvti m dt ft sat d a s
  | .adds m ty d a b => Sys2Proof.Machine.execAdds m ty d a b s
  | .subs m ty d a b => Sys2Proof.Machine.execSubs m ty d a b s
  | .dot4 m ty d a b e => Sys2Proof.Machine.execDot4 m ty d a b e s
  | .dot8 m ty d a b e => Sys2Proof.Machine.execDot8 m ty d a b e s
  | .addImm m d a imm => Sys2Proof.Machine.execAddImm m d a imm s
  | .addsImm m u d a imm => Sys2Proof.Machine.execAddsImm m u d a imm s
  | .mulImm m d a imm => Sys2Proof.Machine.execMulImm m d a imm s
  | .andImm m d a imm => Sys2Proof.Machine.execAndImm m d a imm s
  | .orImm m d a imm => Sys2Proof.Machine.execOrImm m d a imm s
  | .xorImm m d a imm => Sys2Proof.Machine.execXorImm m d a imm s
  | .andnImm m d a imm => Sys2Proof.Machine.execAndnImm m d a imm s
  | .shlImm m d a n => Sys2Proof.Machine.execShlImm m d a n s
  | .shrImm m d a n => Sys2Proof.Machine.execShrImm m d a n s
  | .sarImm m d a n => Sys2Proof.Machine.execSarImm m d a n s
  | .rotImm m d a n => Sys2Proof.Machine.execRotImm m d a n s
  | .minImm m u d a imm => Sys2Proof.Machine.execMinImm m u d a imm s
  | .maxImm m u d a imm => Sys2Proof.Machine.execMaxImm m u d a imm s
  | .cmpS32Imm m cond d a imm => Sys2Proof.Machine.execCmpS32Imm m cond d a imm s
  | .cmpN32Imm m cond d a imm => Sys2Proof.Machine.execCmpN32Imm m cond d a imm s
  | .bfxImm m sg d a pos wd => Sys2Proof.Machine.execBfxImm m sg d a pos wd s
  -- Floating point (chapter 5)
  | .fadd m ty rm sg d a b => Sys2Proof.Machine.execFadd m ty rm sg d a b s
  | .fsub m rm sg d a b => Sys2Proof.Machine.execFsub m rm sg d a b s
  | .fmul m rm sg d a b => Sys2Proof.Machine.execFmul m rm sg d a b s
  | .fma m ty rm sg d a b e => Sys2Proof.Machine.execFma m ty rm sg d a b e s
  | .fmin m sg d a b => Sys2Proof.Machine.execFmin m sg d a b s
  | .fmax m sg d a b => Sys2Proof.Machine.execFmax m sg d a b s
  | .fminn m sg d a b => Sys2Proof.Machine.execFminn m sg d a b s
  | .fmaxn m sg d a b => Sys2Proof.Machine.execFmaxn m sg d a b s
  | .fcmp m cond sg d a b => Sys2Proof.Machine.execFcmp m cond sg d a b s
  | .fclass m sg d a => Sys2Proof.Machine.execFclass m sg d a s
  | .frcp m rm sg d a => Sys2Proof.Machine.execFrcp m rm sg d a s
  | .frsq m rm sg d a => Sys2Proof.Machine.execFrsq m rm sg d a s
  | .fsqrt m rm sg d a => Sys2Proof.Machine.execFsqrt m rm sg d a s
  | .fdiv m rm sg d a b => Sys2Proof.Machine.execFdiv m rm sg d a b s
  | .fexp2 m sg d a => Sys2Proof.Machine.execFexp2 m sg d a s
  | .flog2 m sg d a => Sys2Proof.Machine.execFlog2 m sg d a s
  | .ffract m sg d a => Sys2Proof.Machine.execFfract m sg d a s
  | .fround m rm sg d a => Sys2Proof.Machine.execFround m rm sg d a s
  | .fldexp m rm sg d a b => Sys2Proof.Machine.execFldexp m rm sg d a b s
  | .fcvt m dt ft rm sat sg d a e => Sys2Proof.Machine.execFcvt m dt ft rm sat sg d a e s
  | .fpack m dt ft rm sat sg d a b e => Sys2Proof.Machine.execFpack m dt ft rm sat sg d a b e s
  | .fdot2 m ty rm sg d a b e => Sys2Proof.Machine.execFdot2 m ty rm sg d a b e s
  | .fdot4 m ty rm sg d a b e => Sys2Proof.Machine.execFdot4 m ty rm sg d a b e s
  | .fdot8 m rm sg d a b e => Sys2Proof.Machine.execFdot8 m rm sg d a b e s
  | .mxs m ty sg d a => Sys2Proof.Machine.execMxs m ty sg d a s
  | .faddImm m rm d a imm => Sys2Proof.Machine.execFaddImm m rm d a imm s
  | .fmulImm m rm d a imm => Sys2Proof.Machine.execFmulImm m rm d a imm s
  | .fmaImm m rm d a imm => Sys2Proof.Machine.execFmaImm m rm d a imm s
  | .fminImm m d a imm => Sys2Proof.Machine.execFminImm m d a imm s
  | .fmaxImm m d a imm => Sys2Proof.Machine.execFmaxImm m d a imm s
  | .fcmpImm m cond d a imm => Sys2Proof.Machine.execFcmpImm m cond d a imm s
  -- Masks and exchange (chapter 6)
  | .mand m d a b => Sys2Proof.Machine.execMand m d a b s
  | .mor m d a b => Sys2Proof.Machine.execMor m d a b s
  | .mxor m d a b => Sys2Proof.Machine.execMxor m d a b s
  | .mandn m d a b => Sys2Proof.Machine.execMandn m d a b s
  | .mnot m d a => Sys2Proof.Machine.execMnot m d a s
  | .mmov m d a => Sys2Proof.Machine.execMmov m d a s
  | .mseti m d imm => Sys2Proof.Machine.execMseti m d imm s
  | .mvoteBallot m d a => Sys2Proof.Machine.execMvoteBallot m d a s
  | .mvoteEq m d a => Sys2Proof.Machine.execMvoteEq m d a s
  | .mpop m d a => Sys2Proof.Machine.execMpop m d a s
  | .mfirst m d a => Sys2Proof.Machine.execMfirst m d a s
  | .mlast m d a => Sys2Proof.Machine.execMlast m d a s
  | .qswx m d a => Sys2Proof.Machine.execQswx m d a s
  | .qswy m d a => Sys2Proof.Machine.execQswy m d a s
  | .qswd m d a => Sys2Proof.Machine.execQswd m d a s
  | .qbc m d a p => Sys2Proof.Machine.execQbc m d a p s
  | .gshf m d a b => Sys2Proof.Machine.execGshf m d a b s
  | .gshu m d a k => Sys2Proof.Machine.execGshu m d a k s
  | .gshd m d a k => Sys2Proof.Machine.execGshd m d a k s
  | .gshx m d a k => Sys2Proof.Machine.execGshx m d a k s
  | .gbc m d a k => Sys2Proof.Machine.execGbc m d a k s
  | .gred m op ty rm d a => Sys2Proof.Machine.execGred m op ty rm d a s
  | .gscan m op excl ty rm d a => Sys2Proof.Machine.execGscan m op excl ty rm d a s
  | .pPair h0 h1 => Sys2Proof.Machine.execPPair h0 h1 s
  -- Memory access (chapter 8) and leases (chapter 9)
  | .ld ty o => Sys2Proof.Machine.execLd ty o s
  | .st ty o => Sys2Proof.Machine.execSt ty o s
  | .ldAcq ty o => Sys2Proof.Machine.execLdAcq ty o s
  | .stRel ty o => Sys2Proof.Machine.execStRel ty o s
  | .lds ty o => Sys2Proof.Machine.execLds ty o s
  | .sts ty o => Sys2Proof.Machine.execSts ty o s
  | .ldw ty o => Sys2Proof.Machine.execLdw ty o s
  | .stw ty o => Sys2Proof.Machine.execStw ty o s
  | .ldacc ty o => Sys2Proof.Machine.execLdacc ty o s
  | .prf ty m b buf off => Sys2Proof.Machine.execPrf ty m b buf off s
  | .present m d b off => Sys2Proof.Machine.execPresent m d b off s
  | .fence m mode => Sys2Proof.Machine.execFence m mode s
  | .brec m buf a => Sys2Proof.Machine.execBrec m buf a s
  | .brrd m a buf => Sys2Proof.Machine.execBrrd m a buf s
  | .leaseQ m a b buf off => Sys2Proof.Machine.execLeaseQ m a b buf off s
  | .leaseRenew m a b buf off => Sys2Proof.Machine.execLeaseRenew m a b buf off s
  -- Atomics (chapter 11)
  | .atom op ty o => Sys2Proof.Machine.execAtom op ty o s
  | .red op ty o => Sys2Proof.Machine.execRed op ty o s
  | .atoms op ty o => Sys2Proof.Machine.execAtoms op ty o s
  | .reds op ty o => Sys2Proof.Machine.execReds op ty o s
  -- Synchronisation (chapter 12)
  | .barArr m bar => Sys2Proof.Machine.execBarArr m bar s
  | .barWait m bar p => Sys2Proof.Machine.execBarWait m bar p s
  | .barArw m bar => Sys2Proof.Machine.execBarArw m bar s
  | .barExp m bar b => Sys2Proof.Machine.execBarExp m bar b s
  | .barTest m d bar p => Sys2Proof.Machine.execBarTest m d bar p s
  | .barPh m a bar => Sys2Proof.Machine.execBarPh m a bar s
  | .cvdecl m cv size => Sys2Proof.Machine.execCvdecl m cv size s
  | .cvq m a cv => Sys2Proof.Machine.execCvq m a cv s
  | .send m ch a => Sys2Proof.Machine.execSend m ch a s
  | .recv m a ch => Sys2Proof.Machine.execRecv m a ch s
  | .chq m a ch => Sys2Proof.Machine.execChq m a ch s
  -- Asynchronous copy (chapter 13)
  | .cpa4 o => Sys2Proof.Machine.execCpa4 o s
  | .cpa8 o => Sys2Proof.Machine.execCpa8 o s
  | .cpa16 o => Sys2Proof.Machine.execCpa16 o s
  | .cpaFlush m => Sys2Proof.Machine.execCpaFlush m s
  | .tcopy o out tr mt ct had fold mxs => Sys2Proof.Machine.execTcopy o out tr mt ct had fold mxs s
  | .tgather o b ty fill => Sys2Proof.Machine.execTgather o b ty fill s
  | .tscatter o b ty => Sys2Proof.Machine.execTscatter o b ty s
  | .tpack o f ty fill => Sys2Proof.Machine.execTpack o f ty fill s
  | .tunpack o f ty => Sys2Proof.Machine.execTunpack o f ty s
  | .mdcopy m b buf bar q slot scale n => Sys2Proof.Machine.execMdcopy m b buf bar q slot scale n s
  | .cfill m a b bar q lines => Sys2Proof.Machine.execCfill m a b bar q lines s
  | .qfence m qs => Sys2Proof.Machine.execQfence m qs s
  | .qwait m a q => Sys2Proof.Machine.execQwait m a q s
  -- Matrix (chapter 14)
  | .mldSt m ta tb a cv => Sys2Proof.Machine.execMldSt m ta tb a cv s
  | .mswap m cv => Sys2Proof.Machine.execMswap m cv s
  | .mstream m ta tb sp mx t sm q a cv => Sys2Proof.Machine.execMstream m ta tb sp mx t sm q a cv s
  | .mtile m ta tb mx set t n a cv => Sys2Proof.Machine.execMtile m ta tb mx set t n a cv s
  | .maccZ m t cv => Sys2Proof.Machine.execMaccZ m t cv s
  | .maccSt m ty t a cv => Sys2Proof.Machine.execMaccSt m ty t a cv s
  | .maccLd m ty t a cv => Sys2Proof.Machine.execMaccLd m ty t a cv s
  | .mstat m a t => Sys2Proof.Machine.execMstat m a t s
  | .mcfg m tiles flags f => Sys2Proof.Machine.execMcfg m tiles flags f s
  -- System (chapter 15), translation queries (chapter 9) and tenancy (chapter 16)
  | .tret skip => Sys2Proof.Machine.execTret skip s
  | .tvec m a => Sys2Proof.Machine.execTvec m a s
  | .segLd m h sgm a => Sys2Proof.Machine.execSegLd m h sgm a s
  | .segRd m a sgm => Sys2Proof.Machine.execSegRd m a sgm s
  | .sysRd m a n => Sys2Proof.Machine.execSysRd m a n s
  | .sysWr m n a => Sys2Proof.Machine.execSysWr m n a s
  | .ckpt => Sys2Proof.Machine.execCkpt s
  | .ckptQ m a => Sys2Proof.Machine.execCkptQ m a s
  | .halt => Sys2Proof.Machine.execHalt s
  | .haltDbg => Sys2Proof.Machine.execHaltDbg s
  | .snap m b buf a => Sys2Proof.Machine.execSnap m b buf a s
  | .l2op m op b buf lines => Sys2Proof.Machine.execL2op m op b buf lines s
  | .vfsel m a => Sys2Proof.Machine.execVfsel m a s
  | .tlbProbe m a b => Sys2Proof.Machine.execTlbProbe m a b s
  | .walkQ m a b f s2 => Sys2Proof.Machine.execWalkQ m a b f s2 s
  | .scrub m a b => Sys2Proof.Machine.execScrub m a b s
  | .tokRd m a b off => Sys2Proof.Machine.execTokRd m a b off s
  | .partQ m a b => Sys2Proof.Machine.execPartQ m a b s
  -- Events of the device's units (95_what_each_step_holds.md)
  | .trapEntry h c g => Sys2Proof.Machine.execTrapEntry h c g s
  | .binAgeThreshold h c b => Sys2Proof.Machine.execBinAgeThreshold h c b s
  | .binDraw h c => Sys2Proof.Machine.execBinDraw h c s
  | .yieldEnd h c g => Sys2Proof.Machine.execYieldEnd h c g s
  | .sleepWake h c g => Sys2Proof.Machine.execSleepWake h c g s
  | .schedStall h c => Sys2Proof.Machine.execSchedStall h c s
  | .parkWake h c g => Sys2Proof.Machine.execParkWake h c g s
  | .loadComplete h c g => Sys2Proof.Machine.execLoadComplete h c g s
  | .atomicReturn h c g => Sys2Proof.Machine.execAtomicReturn h c g s
  | .fenceRelease h c g => Sys2Proof.Machine.execFenceRelease h c g s
  | .homeRequestArrival h c k => Sys2Proof.Machine.execHomeRequestArrival h c k s
  | .l1CopyExpiry h c line => Sys2Proof.Machine.execL1CopyExpiry h c line s
  | .tlbLeaseExpiry h c => Sys2Proof.Machine.execTlbLeaseExpiry h c s
  | .walkStart h k => Sys2Proof.Machine.execWalkStart h k s
  | .walkPendingRetry h c g => Sys2Proof.Machine.execWalkPendingRetry h c g s
  | .walkComplete h k => Sys2Proof.Machine.execWalkComplete h k s
  | .swapRetry h k => Sys2Proof.Machine.execSwapRetry h k s
  | .enlargerLeaseRenewal h k => Sys2Proof.Machine.execEnlargerLeaseRenewal h k s
  | .swapEngineExchange f va frame tier => Sys2Proof.Machine.execSwapEngineExchange f va frame tier s
  | .swapHorizonEnd k => Sys2Proof.Machine.execSwapHorizonEnd k s
  | .windowReductionAccept k => Sys2Proof.Machine.execWindowReductionAccept k s
  | .windowContributionLimit h a => Sys2Proof.Machine.execWindowContributionLimit h a s
  | .switchMerge k j => Sys2Proof.Machine.execSwitchMerge k j s
  | .barrierArrivalCount h c g => Sys2Proof.Machine.execBarrierArrivalCount h c g s
  | .barrierPhaseComplete h c w bar => Sys2Proof.Machine.execBarrierPhaseComplete h c w bar s
  | .barrierWaitRelease h c g => Sys2Proof.Machine.execBarrierWaitRelease h c g s
  | .lbForward l h n => Sys2Proof.Machine.execLbForward l h n s
  | .lbCompletionBroadcast l h n => Sys2Proof.Machine.execLbCompletionBroadcast l h n s
  | .sidebandPathLoss l h => Sys2Proof.Machine.execSidebandPathLoss l h s
  | .signatureRecord h c g => Sys2Proof.Machine.execSignatureRecord h c g s
  | .qmPlacement h c g => Sys2Proof.Machine.execQmPlacement h c g s
  | .sendSlotFill h c g => Sys2Proof.Machine.execSendSlotFill h c g s
  | .recvSlotTake h c g => Sys2Proof.Machine.execRecvSlotTake h c g s
  | .channelSlotFreed h c w ch => Sys2Proof.Machine.execChannelSlotFreed h c w ch s
  | .copyAccept h c g => Sys2Proof.Machine.execCopyAccept h c g s
  | .copyLineWrite h k line => Sys2Proof.Machine.execCopyLineWrite h k line s
  | .cpaCoalesceTimeout h c => Sys2Proof.Machine.execCpaCoalesceTimeout h c s
  | .qfenceEntryComplete h k => Sys2Proof.Machine.execQfenceEntryComplete h k s
  | .qwaitComplete h c g => Sys2Proof.Machine.execQwaitComplete h c g s
  | .matrixStep h c => Sys2Proof.Machine.execMatrixStep h c s
  | .matrixWatchdog h c => Sys2Proof.Machine.execMatrixWatchdog h c s
  | .launchRecordTake h q => Sys2Proof.Machine.execLaunchRecordTake h q s
  | .rectClaim l => Sys2Proof.Machine.execRectClaim l s
  | .routeLoad l ok => Sys2Proof.Machine.execRouteLoad l ok s
  | .residency l => Sys2Proof.Machine.execResidency l s
  | .gangPlacement l => Sys2Proof.Machine.execGangPlacement l s
  | .launchSetup l => Sys2Proof.Machine.execLaunchSetup l s
  | .scrubTokenMatch l => Sys2Proof.Machine.execScrubTokenMatch l s
  | .cardReceive k => Sys2Proof.Machine.execCardReceive k s
  | .cardPlacement h q => Sys2Proof.Machine.execCardPlacement h q s
  | .workgroupNormalEnd h c w => Sys2Proof.Machine.execWorkgroupNormalEnd h c w s
  | .launchCompletion l => Sys2Proof.Machine.execLaunchCompletion l s
  | .hostDoorbell f h q tail => Sys2Proof.Machine.execHostDoorbell f h q tail s
  | .prqReply f stage tag => Sys2Proof.Machine.execPrqReply f stage tag s
  | .prqReplyRefuse f stage tag => Sys2Proof.Machine.execPrqReplyRefuse f stage tag s
  | .lqva f va => Sys2Proof.Machine.execLqva f va s
  | .leaseQueryDone f => Sys2Proof.Machine.execLeaseQueryDone f s
  | .hostApertureRead port f off n => Sys2Proof.Machine.execHostApertureRead port f off n s
  | .hostApertureWrite port f off n v => Sys2Proof.Machine.execHostApertureWrite port f off n v s
  | .hostMapRead off => Sys2Proof.Machine.execHostMapRead off s
  | .hostMapWrite off v => Sys2Proof.Machine.execHostMapWrite off v s
  | .mgdataRead f off => Sys2Proof.Machine.execMgdataRead f off s
  | .mgdataWrite f off v => Sys2Proof.Machine.execMgdataWrite f off v s
  | .registerWrite f off v => Sys2Proof.Machine.execRegisterWrite f off v s
  | .prego vf => Sys2Proof.Machine.execPrego vf s
  | .killgo vf id => Sys2Proof.Machine.execKillgo vf id s
  | .chipletReset h => Sys2Proof.Machine.execChipletReset h s
  | .chipletFence h => Sys2Proof.Machine.execChipletFence h s
  | .chipletDrop h => Sys2Proof.Machine.execChipletDrop h s
  | .chipletFatal h act cause => Sys2Proof.Machine.execChipletFatal h act cause s
  | .rsgo h c w => Sys2Proof.Machine.execRsgo h c w s
  | .wdlim h c all v => Sys2Proof.Machine.execWdlim h c all v s
  | .checkpointInstant f => Sys2Proof.Machine.execCheckpointInstant f s
  | .checkpointDrainDone f => Sys2Proof.Machine.execCheckpointDrainDone f s
  | .checkpointCommit f => Sys2Proof.Machine.execCheckpointCommit f s
  | .crossPackageMessage f seq sender msg => Sys2Proof.Machine.execCrossPackageMessage f seq sender msg s
  | .partWrite h f v => Sys2Proof.Machine.execPartWrite h f v s
  | .connmatWrite h port v => Sys2Proof.Machine.execConnmatWrite h port v s
  | .waymaskWrite h v => Sys2Proof.Machine.execWaymaskWrite h v s
  | .shareWrite h q k v => Sys2Proof.Machine.execShareWrite h q k v s
  | .scrubComplete h c g => Sys2Proof.Machine.execScrubComplete h c g s
  | .dbmswap f => Sys2Proof.Machine.execDbmswap f s
  | .dbmSwapInstant f => Sys2Proof.Machine.execDbmSwapInstant f s
  | .dbmSwapDone f => Sys2Proof.Machine.execDbmSwapDone f s
  | .rstgo f => Sys2Proof.Machine.execRstgo f s
  | .restoreDone f => Sys2Proof.Machine.execRestoreDone f s
  | .flitReceive h link head rest => Sys2Proof.Machine.execFlitReceive h link head rest s
  | .linkFence h link => Sys2Proof.Machine.execLinkFence h link s
  | .linkgo h port => Sys2Proof.Machine.execLinkgo h port s
  | .clockSkew h c off => Sys2Proof.Machine.execClockSkew h c off s
  | .clockSkewRecover h c => Sys2Proof.Machine.execClockSkewRecover h c s
  | .domen => Sys2Proof.Machine.execDomen s
  | .domainEpochLock t => Sys2Proof.Machine.execDomainEpochLock t s
  | .domainLockTimeout h c => Sys2Proof.Machine.execDomainLockTimeout h c s
  | .fwgo => Sys2Proof.Machine.execFwgo s
  | .firmwareCheckDone sigOk => Sys2Proof.Machine.execFirmwareCheckDone sigOk s
  | .railSample h p v cur => Sys2Proof.Machine.execRailSample h p v cur s
  | .minvClear h k v => Sys2Proof.Machine.execMinvClear h k v s
  | .railCrack h p => Sys2Proof.Machine.execRailCrack h p s
  | .thermalTrip h k t => Sys2Proof.Machine.execThermalTrip h k t s
  | .thvalWrite h v => Sys2Proof.Machine.execThvalWrite h v s
  | .thermalForecast h t => Sys2Proof.Machine.execThermalForecast h t s
  | .bankRetiring h k bank cause => Sys2Proof.Machine.execBankRetiring h k bank cause s
  | .bkack h k bank => Sys2Proof.Machine.execBkack h k bank s
  | .frameMove h k => Sys2Proof.Machine.execFrameMove h k s
  | .bankRetired h k => Sys2Proof.Machine.execBankRetired h k s
  | .powerOn fwOk => Sys2Proof.Machine.execPowerOn fwOk s
  | .packageReset => Sys2Proof.Machine.execPackageReset s
  | .powerLoss => Sys2Proof.Machine.execPowerLoss s
  | .prqhead f stage v => Sys2Proof.Machine.execPrqhead f stage v s
  | .l2opDone h c g => Sys2Proof.Machine.execL2opDone h c g s
  | .snapCaptureDone h c g => Sys2Proof.Machine.execSnapCaptureDone h c g s
  | .uncorrectableError space h c line => Sys2Proof.Machine.execUncorrectableError space h c line s
  | .powerGating h c => Sys2Proof.Machine.execPowerGating h c s
  | .corePoweredAgain h c => Sys2Proof.Machine.execCorePoweredAgain h c s
  | .sensorFault h k => Sys2Proof.Machine.execSensorFault h k s
  | .vfEnable en n => Sys2Proof.Machine.execVfEnable en n s

end Sys2Proof.Machine
end

