-- ==== Sys2Proof/Machine/Schedule.lean ====
section
/-! DEFINITION. What the machine does next when the agenda names nothing: the first internal event that changes the
state, else the next group to issue, else the passing of time (07_work_creation.md R170; notes/assumptions 4). -/

namespace Sys2Proof.Machine

/-- The barrier units test their phases at the end of a cycle, when every event of the cycle has been applied: the core's units at
the end of a core cycle, the base die's at the end of an uncore cycle (R269, R270). -/
def State.settleBars (s : State) (n : Nat) : State :=
  { s with
    cores := s.cores.map (fun (e : Nat × Core) =>
      if ({ s with uc := s.uc + n } : State).cycles (e.1 / 64) = s.cycles (e.1 / 64) then e
      else (e.1, { e.2 with wbars := e.2.wbars.map (fun (b : Nat × Wbar) => (b.1, b.2.settle)) }))
    hums := s.hums.map (fun (d : Nat × Hum) =>
      (d.1, { d.2 with
        gbars := d.2.gbars.map (fun (b : Nat × Gbar) => (b.1, b.2.settle))
        lbars := d.2.lbars.map (fun (b : Nat × Gbar) => (b.1, b.2.settle)) })) }

/-- Time passes: the phases that are complete advance, priorities are inherited, and what the matrix watchdogs measure runs to the
present instant first (R171, R270, R347). -/
def State.idle (s : State) (n : Nat) : State := { (s.settleBars n).inheritNew.measureAll with uc := s.uc + n }

/-- The uncore cycles of a core cycle of a hummock (R2, R422). -/
def State.coreCycle (s : State) (h : Nat) : Nat := if (s.humAt h).half then 4 else 2

/-- The beginning of a hummock's next core cycle. -/
def State.nextCycle (s : State) (h : Nat) : State :=
  s.idle (s.coreCycle h - (s.uc - (s.humAt h).cycAt) % s.coreCycle h)

/-- The instant at which a group can issue: a pipe that has issued in this core cycle issues in the next (R170). -/
def State.issueTime (s : State) (r : GRef) : State :=
  let k := s.coreAt r.h r.c
  if s.pipeUsed r.h k (mget {} k.groups r.g).pipe then s.nextCycle r.h else s

/-- The acting group issues the word at its PC: its checks, its decode traps, its effect (R32, R34). -/
def State.issue (s0 : State) (r : GRef) : Out :=
  if !(s0.canIssue r) then .next s0
  else
    let s := ({ s0.issueTime r with cur := r } : State).noteIssue
    match s.fetch with
    | .trap code addr => .next ((s.trap code 0 addr).afterIssue r)
    | .walk va => .next ((s.askWalk (s.fetchWalk va)).afterIssue r)
    | .hold => .next s0
    | .word w hpa t =>
      let s := s.afterFetch w hpa t
      match decode s.grp.lvl s.wg.n w with
      | .error e => .next ((s.trap (decodeCode e)).afterIssue r)
      | .ok i =>
        match exec i s with
        | .next u => .next (u.afterIssue r)
        | o => o

/-- A move that the machine makes of itself. -/
abbrev Act := State → Out

/-- The events that a group's wait may allow. -/
def groupEvents (h c g : Nat) (x : Group) : List Act :=
  match x.wait with
  | .ready => []
  | .drain _ _ => []
  | .order _ => []
  | .mem _ => []
  | .yield _ _ => [execYieldEnd h c g]
  | .sleep _ => [execSleepWake h c g]
  | .walk full => if full then [execWalkPendingRetry h c g] else []
  | .park _ _ => [execParkWake h c g]
  | .ldacc _ _ => [execParkWake h c g]
  | .fence _ _ => [execFenceRelease h c g]
  | .barArr _ _ _ _ _ _ => [execBarrierArrivalCount h c g]
  | .barWait _ _ _ => [execBarrierWaitRelease h c g]
  | .send _ _ _ => [execSendSlotFill h c g]
  | .recv _ _ _ => [execRecvSlotTake h c g]
  | .copies _ => [execCopyAccept h c g]
  | .sign _ _ _ => [execSignatureRecord h c g]
  | .place _ _ _ => [execQmPlacement h c g]
  | .qwait _ _ _ _ => [execQwaitComplete h c g]
  | .l2op _ _ => [execL2opDone h c g]
  | .snap _ _ => [execSnapCaptureDone h c g]
  | .scrub _ _ _ => [execScrubComplete h c g]
  | .token _ _ _ => [execParkWake h c g]
  | .trap _ => [execTrapEntry h c g]

/-- The events of a core's threads, engine and caches. -/
def workEvents (h c : Nat) (k : Core) : List Act :=
  k.outs.flatMap (fun o => [execLoadComplete h c (o.grp.getD 64), execAtomicReturn h c (o.grp.getD 64)])
    ++ (List.range k.pend.length).map (fun p => execRelease h c p)
    ++ k.groups.flatMap (fun e => groupEvents h c e.1 e.2)
    ++ k.wgs.flatMap (fun e => (e.2.chans.map (fun ch => execChannelSlotFreed h c e.1 ch.1))
        ++ (List.range 16).map (fun b => execBarrierPhaseComplete h c e.1 b))
    ++ (if k.coal.isEmpty then [] else [execCpaCoalesceTimeout h c])
    ++ (if k.engine.queue.isEmpty then []
        else [execMatrixWatchdog h c, execMatrixStep h c, execQfenceEntryComplete h (2048 + c)])
    ++ k.l1.map (fun e => execL1CopyExpiry h c e.1)
    ++ (if k.tlb.isEmpty then [] else [execTlbLeaseExpiry h c])
    ++ k.wgs.map (fun e => execWorkgroupNormalEnd h c e.1)
    ++ k.bins.map (fun e => execBinAgeThreshold h c e.1)
    ++ (if k.bins.isEmpty then [] else [execBinDraw h c, execSchedStall h c])

/-- The events of a core: of one that is fenced only its requests that have left it go on (15_traps_preemption.md R374). -/
def coreEvents (h c : Nat) (k : Core) : List Act :=
  (List.range k.reqs.length).map (fun i => execHomeRequestArrival h c i)
    ++ (if k.status == .fenced then [] else workEvents h c k)

/-- The effective priority of an Enlarger operation: its workgroup's, raised by the groups that wait at its barrier (R171,
R318). -/
def State.jobPri (s : State) (h : Nat) (j : CopyJob) : Nat := max (mget {} (s.coreAt h j.core).wgs j.wgs).prio (raisedMax j.raised)

/-- A hummock's Enlarger operations as its queue selector serves them: the highest priority first (R171). -/
def State.jobOrder (s : State) (h : Nat) (d : Hum) : List (Nat × CopyJob) :=
  (sortBy (fun i => 2 ^ 16 - s.jobPri h (mget {} d.enl i)) (d.enl.map Prod.fst)).map (fun i => (i, mget {} d.enl i))

/-- The events of a hummock. -/
def State.humEvents (s : State) (h : Nat) (d : Hum) : List Act :=
  (List.range d.walks.length).flatMap (fun k => [execWalkComplete h k, execSwapRetry h k])
    ++ (match d.nextWalk with
        | some k => [execWalkStart h k]
        | none => [])
    ++ d.gbars.map (fun e => execBarrierPhaseComplete h 64 (e.1 / 4) (16 + e.1 % 4))
    ++ d.lbars.map (fun e => execBarrierPhaseComplete h 64 (e.1 / 4) (20 + e.1 % 4))
    ++ (s.jobOrder h d).flatMap (fun e => [execEnlargerLeaseRenewal h e.1, execQfenceEntryComplete h e.1]
        ++ (match e.2.todo with
            | [] => []
            | l :: _ => [execCopyLineWrite h e.1 l]))
    ++ d.wins.map (fun e => execWindowContributionLimit h e.1)
    ++ (if d.tlb.isEmpty && d.wcache.isEmpty then [] else [execTlbLeaseExpiry h 64])
    ++ d.queues.flatMap (fun e => [execLaunchRecordTake h e.1, execCardPlacement h e.1])
    ++ (if d.scrub.busy then [execScrubComplete d.scrub.who.h d.scrub.who.c d.scrub.who.g] else [])
    ++ (d.regs.rails.filter (fun (e : Nat × RailPt) => e.2.suspect)).map (fun e => execRailCrack h e.1)
    ++ (d.links.filter (fun (e : Nat × Link) => e.2.bad != 0 || e.2.fenced)).map (fun e => execLinkFence h e.1)
    ++ (d.links.filter (fun (e : Nat × Link) => !e.2.again.isEmpty)).map (fun e => flitAgain h e.1)
    ++ (d.banks.filter (fun (e : Nat × Stack) => e.2.acked)).flatMap (fun (e : Nat × Stack) =>
        [execFrameMove h e.1, execBankRetired h e.1])

/-- The events of a launch. -/
def launchEvents (l : Nat) (x : Launch) : List Act :=
  match x.phase with
  | .claim => [execRectClaim l]
  | .routes => [execRouteLoad l true]
  | .resident => [execResidency l]
  | .place => [execGangPlacement l]
  | .setup => [execLaunchSetup l]
  | .token => [execScrubTokenMatch l]
  | _ => [execLaunchCompletion l]
    ++ x.rect.flatMap (fun h => (List.range 4).flatMap (fun n => [execLbForward l h n, execLbCompletionBroadcast l h n]))

/-- A function's held error entries are written once their page grants it (R222, R406). -/
def errRetry (f : Nat) (s : State) : Out :=
  .next (if s.faulty 512 then s else s.flushErrs 0 f (s.fnAt f).err.held)

/-- A function's held page requests are written once their ring's page grants it (R222, R225). -/
def ringRetry (f stage : Nat) (s : State) : Out := .next (s.retryRing f stage)

/-- A function whose pre-emption was asked for leaves (15_traps_preemption.md R373). -/
def leaveDone (f : Nat) (s : State) : Out := .next (s.preemptDone f)

/-- The events of a function. -/
def fnEvents (f : Nat) (x : Fn) : List Act :=
  (if x.err.held.isEmpty then [] else [errRetry f])
    ++ (if x.prq.held.isEmpty then [] else [ringRetry f 1])
    ++ (if x.s2prq.held.isEmpty then [] else [ringRetry f 2])
    ++ (if x.lqbusy then [execLeaseQueryDone f] else [])
    ++ (if x.dbmBusy then [execDbmSwapInstant f, execDbmSwapDone f] else [])
    ++ (if x.rstStat = 1 then [execRestoreDone f] else [])
    ++ (if x.ck.state == .leave then [leaveDone f] else [])
    ++ (if x.ck.en then [execCheckpointInstant f, execCheckpointDrainDone f, execCheckpointCommit f] else [])

/-- The internal events, in a fixed order. -/
def State.events (s : State) : List Act :=
  (s.pkg.held.map HostAcc.fn).eraseDups.map hostRetry
    ++ (List.range s.cards.length).map (fun k => execCardReceive k)
    ++ (List.range s.travel.length).map (fun k => execWindowReductionAccept k)
    ++ (List.range s.swaps.length).map (fun k => execSwapHorizonEnd k)
    ++ s.cores.flatMap (fun e => coreEvents (e.1 / 64) (e.1 % 64) e.2)
    ++ s.hums.flatMap (fun e => s.humEvents e.1 e.2)
    ++ s.launches.flatMap (fun e => launchEvents e.1 e.2)
    ++ s.fns.flatMap (fun e => fnEvents e.1 e.2)
    ++ (if s.pkg.domen && !s.pkg.domrdy && s.pkg.tref / 8 == s.pkg.pkgnum then [execDomainEpochLock 0] else [])

/-- Whether an event changes the state. -/
def State.moves (s : State) (a : Act) : Bool :=
  match a s with
  | .next t => t != s
  | _ => false

/-- The internal events that can happen now. -/
def State.ready (s : State) : List Act := s.events.filter (fun a => s.moves a)

/-- The groups of a pipe that may issue. -/
def State.issuable (s : State) (key : Nat) (k : Core) (p : Nat) : List (Nat × Group) :=
  k.groups.filter (fun (e : Nat × Group) => e.2.pipe == p && s.canIssue { h := key / 64, c := key % 64, g := e.1 })

/-- The group that issued longest ago. -/
def oldestIssue (gs : List (Nat × Group)) : Option Nat :=
  (gs.find? (fun e => gs.all (fun x => decide (e.2.last ≤ x.2.last)))).map Prod.fst

/-- The group a pipe issues (R170): in the floor slot the one below the highest band that issued longest ago, else one of highest
effective priority, in rotation over workgroup slots and then over the group numbers of the chosen workgroup. -/
def Core.pick (k : Core) (cycles p : Nat) (gs : List (Nat × Group)) : Option Nat :=
  let pri := fun (e : Nat × Group) => k.groupPri e.2
  let best := gs.foldl (fun m e => max m (pri e)) 0
  let low := gs.filter (fun e => decide (pri e / 64 < best / 64))
  if cycles % 64 = 63 && !low.isEmpty then oldestIssue low
  else
    let top := gs.filter (fun e => pri e == best)
    let w := nextAround (mget (7, 0) k.turns p).1 (top.map (fun e => e.2.wgs))
    let mine := (top.filter (fun e => e.2.wgs == w)).map Prod.fst
    if mine.isEmpty then none else some (nextAround (mget 63 k.turng (8 * p + w)) mine)

/-- The group that one pipe of a core issues in the present core cycle, unless the pipe has issued in it (R170). -/
def State.pipePick (s : State) (key : Nat) (k : Core) (p : Nat) : Option GRef :=
  if s.pipeUsed (key / 64) k p then none
  else (k.pick (s.cycles (key / 64)) p (s.issuable key k p)).map (fun g => { h := key / 64, c := key % 64, g := g })

/-- The group of a core that issues next: every pipe issues one in each core cycle (R170), and those of one cycle issue in
ascending active group number, in which they take slots (R154). -/
def State.corePick (s : State) (key : Nat) (k : Core) : Option GRef :=
  let rs := (List.range 4).filterMap (fun p => s.pipePick key k p)
  rs.find? (fun r => rs.all (fun x => decide (r.g ≤ x.g)))

/-- The next group to issue. -/
def State.nextGroup (s : State) : Option GRef := s.cores.findSome? (fun (e : Nat × Core) => s.corePick e.1 e.2)

/-- An event of the device or of the outside; an instruction's word is no event. -/
def State.eventMove (s : State) (i : Instr) : Out := if (encode i).isNone then exec i s else .next s

/-- A move that the agenda names. -/
def State.perform (s : State) : Move → Out
  | .issue h c g => s.issue { h := h, c := c, g := g }
  | .event i => s.eventMove i
  | .inner k => match s.ready[k]? with
    | some a => a s
    | none => .next s
  | .readReg f off => .next (s.hostDo (.regRead f off))
  | .tick n => .next (s.idle n)

/-- What happens when the agenda is empty: the first internal event that can happen, else an issue of this core cycle, else time
passes. -/
def State.auto (s : State) : Out :=
  match s.events.find? (fun a => s.moves a) with
  | some a => a s
  | none =>
    match s.nextGroup with
    | some r => s.issue r
    | none => .next (s.idle 1)

/-- Whether the package has power for the move: only power-on needs none (R427). -/
def State.powered (s : State) : Bool :=
  s.pkg.power || (match s.agenda with
    | .event (.powerOn _) :: _ => true
    | _ => false)

/-- The state in which a core is about to issue a word placed where it fetches: group 0 of core 0 of hummock 0, a full
group at hypervisor level with 256 registers, whose code segment and translation are valid
(notes/assumptions 17). -/
def State.readyToFetch (s : State) : State :=
  let t : Tlb := { x := true, r := true, w := true, d := true, cls := 15, expiry := s.chipTime + leaseNs 15 }
  let sg : Seg := { limit := 65536, x := true, valid := true }
  let g : Group := {
    roster := (List.range 32).map (fun l => (l, l)), member := 0xFFFFFFFF, m := [(0, 0xFFFFFFFF)]
    segs := [(0, sg)], lvl := .hypervisor, lanes := 32 }
  let w : Wg := { n := 256, lim := 256, segs := [(0, sg)] }
  let slots := (List.range 32).map (fun l => (l, ({ tidx := l, state := 1 } : Slot)))
  let k : Core := { status := .running, slots := slots, groups := [(0, g)], wgs := [(0, w)], tlb := [t] }
  (s.setCoreAt 0 0 k).setLaunch 0 { phase := .running, rect := [0], wgs := [{}] }

end Sys2Proof.Machine
end

