-- ==== Sys2Proof/Machine/Step.lean ====
section
/-! DEFINITION. One step of the machine, and the placing of a word where the next step fetches. -/

namespace Sys2Proof.Machine

/-- The next state of a step from `s` with the blocks of map windows that it wrote in the undo logs (R368). -/
def State.logged (s : State) : Out → Out
  | .next t => .next (s.logBlocks t)
  | o => o

/-- One step: the agenda's first move, or what the machine does of itself (notes/assumptions 4). -/
def step (s : State) : Host.Outcome State Fault Refusal :=
  if s.powered then
    s.logged (match s.agenda with
      | m :: ms => ({ s with agenda := ms }).perform m
      | [] => s.auto)
  else .fault .powerLost

/-- The state with an instruction's word where the next step fetches and issues it (notes/assumptions 17). -/
def State.withFetchWord (s : State) (nbits w : Nat) : State :=
  let t := s.readyToFetch
  { t with mem := writeBytes t.mem 0 (tableBytes nbits w), agenda := [.issue 0 0 0] }

end Sys2Proof.Machine
end

