-- ==== Sys2Proof/Safety.lean ====
section
/-! DEFINITION. What counts as a sound state and a safe run, and what an instruction did, in the terms the claims
use. -/

namespace Sys2Proof.Safety

open Sys2Proof.Machine

/-! ### Invariants and runs -/

/-- The memory invariant: the machine's memory is in its one canonical form. -/
def MemOk (s : State) : Prop := Memory.wf s.mem = true

/-- The machine goes on: its step answers a next state. -/
def Goes (s : State) : Prop := ∃ t, step s = .next t

/-- An instruction runs: it answers a next state, and that state is as said. -/
def Runs (i : Instr) (s : State) (P : State → Prop) : Prop := ∃ t, exec i s = .next t ∧ P t

/-- An instruction whose operands are legal at the acting group's level and register count runs as said. -/
def Does (i : Instr) (s : State) (P : State → Prop) : Prop :=
  wellFormed s.wg.n s.grp.lvl i = true → Runs i s P

/-! ### What changed -/

/-- The acting group is now `g`, and nothing else of the machine changed. -/
def OnlyGroup (s t : State) (g : Group) : Prop := t = s.setGrp g

/-- From `u`, the state after its operands were read, the group wrote `v` to scalar register `d` and went to the next
word; its other scalar registers, masks, flags and the rest of the machine are as before (R65). -/
def ScalarWrote (u t : State) (d : Nat) (v : Word) : Prop :=
  t.grp.sreg d = v ∧ (∀ i, i ≠ d → t.grp.sreg i = u.grp.sreg i)
    ∧ ∃ r, OnlyGroup u t { u.grp with s := r, pc := u.grp.pc + 8, far := 0 }

/-- As `ScalarWrote`, for a mask register: m0 keeps member lanes only (R70). -/
def MaskWrote (u t : State) (d : Nat) (v : Word) : Prop :=
  t.grp.mreg d = (if d = 0 then v &&& u.grp.member else v) ∧ (∀ i, i ≠ d → t.grp.mreg i = u.grp.mreg i)
    ∧ ∃ r, OnlyGroup u t { u.grp with m := r, pc := u.grp.pc + 8, far := 0 }

/-- The acting workgroup is now `w` and the acting group `g`, and nothing else of the machine changed. -/
def OnlyWg (s t : State) (w : Wg) (g : Group) : Prop :=
  t = s.setCore { s.core with wgs := mset s.core.wgs s.grp.wgs w, groups := mset s.core.groups s.cur.g g }

/-- The executing lanes' bits of mask register `d` are those of `v`, the others' as before (R89, R135). -/
def MaskBitsWrote (s : State) (m d : MReg) (v : Nat → Bool) (t : State) : Prop :=
  (∀ l, l < 32 → (t.grp.mreg d.toNat).getLsbD l
      = ((if (s.live m).getLsbD l then v l else (s.grp.mreg d.toNat).getLsbD l)
          && (d != 0 || s.grp.member.getLsbD l)))
    ∧ (∀ i, i ≠ d.toNat → t.grp.mreg i = s.grp.mreg i)
    ∧ ∃ r, OnlyGroup s t { s.grp with m := r, pc := s.grp.pc + 8, far := 0 }

/-- The threads of the members stand in slots of their own, at or above the workgroup's first (R144, R148). -/
def RosterApart (s : State) : Prop :=
  s.wg.n ≤ 256 ∧ (∀ l, l < 32 → s.grp.member.getLsbD l = true → s.wg.sbase ≤ mget 0 s.grp.roster l)
    ∧ ∀ l l', l < 32 → l' < 32 → s.grp.member.getLsbD l = true → s.grp.member.getLsbD l' = true → l ≠ l' →
      mget 0 s.grp.roster l ≠ mget 0 s.grp.roster l'

/-- The registers of one member are apart from those of another: each lane's thread has a slot of its own (R144). -/
def RowsApart (s : State) : Prop :=
  s.wg.n ≤ 256 ∧ ∀ l l' j k, l < 32 → l' < 32 → s.grp.member.getLsbD l = true → s.grp.member.getLsbD l' = true →
    l ≠ l' → j < s.wg.n → k < s.wg.n → s.physReg l j ≠ s.physReg l' k

/-- The first physical register of a slot of the acting workgroup (R144). -/
def rowOf (s : State) (x : Nat) : Nat := s.wg.rbase + (x - s.wg.sbase) * s.wg.n

/-- Lane `l` has created a thread in slot `x` with index `i` (R144, R153, R154): it stands filed at the entry `a`, or, while the
lane's earlier accesses are not done, allocated with its filing pending; its first `n` registers are the lane's from `f`, and the
others zero. -/
def NewThread (s t : State) (l x i : Nat) (a : Word) (far : Int) (f n : Nat) : Prop :=
  let y : Slot := mget {} t.core.slots x
  let parent := mget 0 s.grp.roster l
  y.wgs = s.grp.wgs ∧ y.tidx = i
    ∧ (s.drained [parent] = true → y.pc = a ∧ y.far = far ∧ (y.state = 2 ∨ y.state = 3))
    ∧ (s.drained [parent] = false → y.state = 1
        ∧ { upto := s.reqCtr, slots := [parent], what := .file x a far : Pend } ∈ t.core.pend)
    ∧ (∀ j, j < n → mget 0 t.core.rf (rowOf s x + j) = s.lreg l (f + j))
    ∧ ∀ j, n ≤ j → j < s.wg.n → mget 0 t.core.rf (rowOf s x + j) = 0

/-- The group is dissolved: its members are filed at the code addresses given, in a bin or waiting for one; a load of it on its way
is its threads', its line operations in the coalescer are to be handed on; every other thread keeps its PC, and nothing else of the
machine changed (R77, R146, R155). -/
def Dissolved (s t : State) (target : Nat → Word) : Prop :=
  ∃ sl bs, t = s.setCore { s.core with
      slots := sl, bins := bs, groups := mdel s.core.groups s.cur.g
      outs := s.core.outs.map (fun (x : Outst) => if x.grp = some s.cur.g then { x with grp := none } else x)
      coal := s.core.coal.map (fun (x : Coalesced) => if x.group = s.cur.g then { x with due := true } else x) }
    ∧ (∀ l ∈ lanesOf s.grp.member, (mget {} sl (mget 0 s.grp.roster l)).pc = target l
        ∧ ((mget {} sl (mget 0 s.grp.roster l)).state = 2 ∨ (mget {} sl (mget 0 s.grp.roster l)).state = 3))
    ∧ ∀ x, (∀ l ∈ lanesOf s.grp.member, x ≠ mget 0 s.grp.roster l) →
        (mget {} sl x).pc = (mget {} s.core.slots x).pc

/-- A lane that has registers: a member lane or a helper lane (R131, R132). -/
def HasRegs (s : State) (l : Nat) : Prop :=
  l < 32 ∧ (s.grp.member.getLsbD l = true ∨ s.grp.helpers.getLsbD l = true)

/-- The lanes' registers are now `v`, the group goes on at `pc`, and nothing else changed: neither a register of a
thread outside the group nor any other part of the machine; `far` is 0 but at a target beyond the PC register. -/
def LaneRegs (s t : State) (pc : Word) (v : Nat → Nat → Word) (far : Int := 0) : Prop :=
  (∀ l k, HasRegs s l → k < s.wg.n → t.lreg l k = v l k)
    ∧ (∀ p, (∀ l k, l < 32 → s.grp.member.getLsbD l = true → k < s.wg.n → s.physReg l k ≠ p) →
        mget 0 t.core.rf p = mget 0 s.core.rf p)
    ∧ ∃ rf hr, t = s.setCore { s.core with
        rf := rf, groups := mset s.core.groups s.cur.g { s.grp with hregs := hr, pc := pc, far := far } }

/-- Register `d` of each executing lane holds `f`, every other register is as before, and the group advances (R85, R89). -/
def Wrote32 (s : State) (m : MReg) (d : Reg) (f : Nat → Word) (t : State) : Prop :=
  LaneRegs s t (s.grp.pc + 8) (fun l k => if (s.live m).getLsbD l = true ∧ k = d.toNat then f l else s.lreg l k)

/-- Registers `d` and `d + 1` of each executing lane hold the low and high half of `f` (R35, R86). -/
def Wrote64 (s : State) (m : MReg) (d : Reg) (f : Nat → DWord) (t : State) : Prop :=
  LaneRegs s t (s.grp.pc + 8) (fun l k =>
    if (s.live m).getLsbD l = true ∧ k = d.toNat then lo32 (f l)
    else if (s.live m).getLsbD l = true ∧ k = d.toNat + 1 then hi32 (f l) else s.lreg l k)

/-- A result of a type: a pair for the 64-bit types, else one register (R35, R86). -/
def WroteTy (s : State) (m : MReg) (ty : Ty) (d : Reg) (f : Nat → DWord) (t : State) : Prop :=
  if ty.is64 then Wrote64 s m d f t else Wrote32 s m d (fun l => lo32 (f l)) t

/-- Four registers from `d` of each executing lane hold the 32-bit parts of `f`, the lowest first. -/
def WroteQuad (s : State) (m : MReg) (d : Reg) (f : Nat → Nat) (t : State) : Prop :=
  LaneRegs s t (s.grp.pc + 8) (fun l k =>
    if (s.live m).getLsbD l = true ∧ d.toNat ≤ k ∧ k < d.toNat + 4
    then BitVec.ofNat 32 (f l / 2 ^ (32 * (k - d.toNat))) else s.lreg l k)

/-- The level that the acting group's trap goes to, and the function whose handler block it uses (R353). -/
def TrapGoesTo (s : State) (lvl : Level) (f : Nat) : Prop :=
  (s.grp.lvl = .user ∧ s.wg.fn = 0 ∧ lvl = .hypervisor ∧ f = 0)
    ∨ (s.grp.lvl = .user ∧ s.wg.fn ≠ 0 ∧ lvl = .supervisor ∧ f = s.wg.fn)
    ∨ (s.grp.lvl = .supervisor ∧ lvl = .hypervisor ∧ f = 0)

/-- The acting group entered the handler of function `f` at level `lvl` (R355): its saved set holds the PC given, its
scalar and mask registers, its flags, its level and what the trap reports; its registers are the handler's; its core's
L1 dropped the words it does not own, and nothing else changed. -/
def TrapEntered (s : State) (lvl : Level) (f : Nat) (x : TrapInfo) (t : State) : Prop :=
  ∃ g l1, t = s.setCore { s.core with l1 := l1, groups := mset s.core.groups s.cur.g g }
    ∧ g.saved = { pc := x.pc, s := s.grp.s, m := s.grp.m, flags := s.grp.flags, code := x.code, level := s.grp.lvl,
                  lane := x.lane, detail := x.detail, addr := x.addr } :: s.grp.saved
    ∧ g.lvl = lvl ∧ g.hfn = f ∧ g.pc = BitVec.ofNat 32 ((s.fnAt f).tvbase + 64 * trapClass x.code)
    ∧ g.sreg 0 = BitVec.ofNat 32 x.code ∧ g.sreg 1 = BitVec.ofNat 32 x.detail ∧ g.sreg 2 = BitVec.ofNat 32 x.lane
    ∧ g.sreg 3 = BitVec.ofNat 32 x.addr ∧ g.sreg 4 = BitVec.ofNat 32 (x.addr / 2 ^ 32) ∧ g.sreg 5 = x.pc
    ∧ (∀ i, 6 ≤ i → g.sreg i = 0) ∧ g.m0 = s.grp.member ∧ (∀ i, 0 < i → g.mreg i = 0)
    ∧ g.z = false ∧ g.n = false ∧ g.c = false ∧ g.v = false
    ∧ (∀ i, i < 8 → mget {} g.segs i = (s.fnAt f).hsegAt i)
    ∧ g.member = s.grp.member ∧ g.roster = s.grp.roster ∧ g.wgs = s.grp.wgs ∧ g.hregs = s.grp.hregs ∧ g.wait = .ready

/-- The group resumed what its last trap saved, at `pc` (R359): its scalar and mask registers, m0 within the member mask, its flags
and its level are the saved ones, its segments are the level's; its core's L1 dropped the words it does not own, and nothing else
changed. -/
def Resumed (s : State) (sv : Saved) (rest : List Saved) (pc : Word) (t : State) : Prop :=
  t.grp.pc = pc ∧ t.grp.s = sv.s ∧ t.grp.saved = rest ∧ t.grp.lvl = sv.level
    ∧ (∀ i, 0 < i → t.grp.mreg i = mget 0 sv.m i) ∧ t.grp.m0 = mget 0 sv.m 0 &&& s.grp.member
    ∧ t.grp.flags = sv.flags % 16
    ∧ t.grp.segs = (match sv.level with
        | .user => s.wg.segs
        | .supervisor => (s.fnAt s.wg.fn).hsegs
        | .hypervisor => (s.fnAt 0).hsegs)
    ∧ ∃ g l1, t = s.setCore { s.core with l1 := l1, groups := mset s.core.groups s.cur.g g }
      ∧ g.member = s.grp.member ∧ g.roster = s.grp.roster ∧ g.hregs = s.grp.hregs

/-! ### Memory accesses -/

/-- The state in which a record form acts: its record is the one read when it was first issued (R182). -/
def opened (s : State) (buf : BufR) : State :=
  if s.grp.held.isNone then s.setGrp { s.grp with held := some (mget {} s.wg.b buf.toNat) } else s

/-- An access with no executing lane only advances; what the instruction held is dropped (R184). -/
def Skipped (s t : State) : Prop :=
  OnlyGroup s t { s.grp with pc := s.grp.pc + 8, far := 0, tlb := [], denied := [], held := none, wait := .ready }

/-- The access completed with the values `got` returned (R185, R254): each executing or helper lane's data register holds
its extended value, a report mask holds which lanes of E were out of bounds, the group advances, and nothing else
changed but, for an acquire, the core's L1. -/
def Completed (s : State) (op : MemOp) (got : List LaneAcc) (t : State) : Prop :=
  (∀ l k, HasRegs s l → k < s.wg.n → t.lreg l k =
      if op.kind.returns = true ∧ op.live.getLsbD l = true ∧ k = op.dst.toNat then lo32 (extendLoad op.ty (gotVal got l))
      else if op.kind.returns = true ∧ op.live.getLsbD l = true ∧ op.ty.is64 = true ∧ k = op.dst.toNat + 1
        then hi32 (extendLoad op.ty (gotVal got l))
      else s.lreg l k)
    ∧ (∀ i, (∀ m, op.rep = some m → i ≠ m.toNat) → t.grp.mreg i = s.grp.mreg i)
    ∧ (∀ m, op.rep = some m → ∀ l, l < 32 → (t.grp.mreg m.toNat).getLsbD l
        = ((if op.exe.getLsbD l then !(op.inb.getLsbD l) else (s.grp.mreg m.toNat).getLsbD l)
            && (m != 0 || s.grp.member.getLsbD l)))
    ∧ ∃ rf hr ms l1, (op.acq = false → l1 = s.core.l1) ∧ t = s.setCore { s.core with
        rf := rf, l1 := l1, groups := mset s.core.groups s.cur.g { s.grp with
          hregs := hr, m := ms, pc := s.grp.pc + 8, far := 0, tlb := [], denied := [], held := none, wait := .ready } }

/-- The state in which the requests of a translated access issue: it has kept its translations (R211, R217). -/
def kept (s : State) (ts : List (Nat × Tlb)) : State := ts.foldl (fun t p => t.keepTlb p.2) s

/-- The requests of a translated access as they issue, numbered and marked, with the state that has paid for them; a release's lane
that writes nothing keeps its role (R173, R187, R196, R239). -/
def issuing (s : State) (op : MemOp) (ts : List (Nat × Tlb)) : State × List Req :=
  ((kept s ts).relDropped op).markReqs (((kept s ts).reqsOf op ts).map ((kept s ts).numbered ((kept s ts).reqCtr + 1)))

/-- A checked access of a translated space on its translations (R64, R185, R187, R196, R212): performed at its homes in line order and
completed, or its requests set out, and its group goes on, but for `ld.acq`, whose group waits for the data. -/
def MemGoes (s : State) (i : Instr) (u : State) (op : MemOp) (ts : List (Nat × Tlb)) : Prop :=
  let m := issuing u op ts
  ((kept u ts).atOnce m.2 = true ∨ ts = [] →
      let p := m.1.performAll m.2
      exec i s = .next (p.1.complete op (p.2.filter (fun i => !(i.helper && (kept u ts).linePoison (i.addr / 128))))))
    ∧ ((kept u ts).atOnce m.2 = false → ts ≠ [] →
      let t := m.1.sendReqs m.2 [(kept u ts).outOf op ((kept u ts).reqCtr + 1)]
      exec i s = .next (if op.acq then t.setWait (.mem ((kept u ts).reqCtr + 1)) else t.endMem))

/-- A span of lines on its translations (R365, R366): its stores are performed in line order, or set out while the group waits for
them as `w` says of their number. -/
def SpanGoes (i : Instr) (s u : State) (op : MemOp) (ts : List (Nat × Tlb)) (w : Nat → Wait) : Prop :=
  let m := issuing u op ts
  ((kept u ts).atOnce m.2 = true → exec i s = .next (m.1.performAll m.2).1.endMem)
    ∧ ((kept u ts).atOnce m.2 = false → exec i s = .next ((m.1.sendReqs m.2 []).setWait (w ((kept u ts).reqCtr + 1))))

/-- A checked scratchpad access (R190, R237, R239, R257, R258): performed and completed where its lines are present and no earlier
access of its core to its words is parked, and parked otherwise; a poisoned line of a load or an atomic traps; one that writes waits for its threads' earlier accesses after a fence
for stores, but for a reduction, which then only takes its effect later, and one that returns a value for their releases. -/
def ScratchGoes (s : State) (i : Instr) (u : State) (op : MemOp) : Prop :=
  (∀ w, u.bankWait op = some w → exec i s = .next (u.setWait w))
  ∧ (u.bankWait op = none → op.kind.returns = true → ∀ x, u.scrPoison op = some x →
      exec i s = .next (u.trap tPoison x.lane x.off))
  ∧ (u.bankWait op = none → (op.kind.returns = true → u.scrPoison op = none) →
    (u.allPresent op = true → u.scrBehind op (u.reqCtr + 1) = false →
      (u.fencesMet (u.slotsOf op.exe) = true → exec i s = .next (u.scrPerform op))
      ∧ (u.fencesMet (u.slotsOf op.exe) = false → (∃ o, op.kind = .red o) → exec i s = .next (u.scrDefer op))
      ∧ (u.fencesMet (u.slotsOf op.exe) = false → op.kind = .load → exec i s = .next (u.scrPerform op)))
    ∧ (u.allPresent op = false ∨ u.scrBehind op (u.reqCtr + 1) = true → exec i s =
        .next (({ u with reqCtr := u.reqCtr + 1 } : State).setWait (.park op (u.reqCtr + 1)))))

/-- What a record-form access of the plain spaces does from a state that passes its checks: it is skipped with no executing lane,
takes the trap a check names, and otherwise, once the releases and the room that its form waits for are there, is performed in its
space and completed, or set out (R184, R185, R190, R196, R239, R254, R369). -/
def RecordFormRuns (s : State) (i : Instr) (f : Form) (m : MReg) (b : Reg) (buf : BufR) (off : Int) : Prop :=
  let u := opened s buf
  let slots := u.slotsOf (u.exe m)
  (s.exe m = 0 → Runs i s (Skipped u))
  ∧ (∀ code l x, u.recCheck f m b buf off = .trap code l x → exec i s = .next (u.trap code l x))
  ∧ ∀ op, u.recCheck f m b buf off = .go op →
      (f.acq = true → u.released slots = true) → (f.rel = true → op.space = .scr → u.drained slots = true) →
      (f.kind.writes = true → u.ckFull u.accFn = false) →
      ((op.space = .scr ∨ op.space = .peer) → ScratchGoes s i u op)
      ∧ (op.space = .mem → ∀ ts, u.rank6 (u.trimHelpers op) = .ok ts → u.rank7 (u.trimHelpers op) ts = none →
        MemGoes s i u (u.trimHelpers op) ts)

/-- What a direct scratchpad access does (R188, R190, R256). -/
def ScratchFormRuns (s : State) (i : Instr) (f : Form) (m : MReg) (b : Reg) (off : Int) : Prop :=
  (s.exe m = 0 → Runs i s (Skipped s))
  ∧ (∀ code l x, s.scrCheck f m b off = .trap code l x → exec i s = .next (s.trap code l x))
  ∧ ∀ op, s.scrCheck f m b off = .go op → ScratchGoes s i s op

/-- No function checkpoints or tracks dirty frames, and no window accumulator holds a contribution: a store writes its own
bytes alone. -/
def Quiet (s : State) : Prop :=
  (∀ e ∈ s.fns, e.2.ck.en = false ∧ e.2.ck.tray = [] ∧ e.2.dbmEn = false) ∧ ∀ e ∈ s.hums, e.2.wins = []

/-- The effects of a walk are those of its entries alone: it met no malformed one, and the crossbar gave it every entry. -/
def CleanWalk (s : State) (f : Nat) (w : Walked) : Prop :=
  w.bad = [] ∧ ∀ a ∈ w.reads, s.assigned a = true ∧ s.pathOk f s.cur.h 9 (s.homeOf {} a) = true

/-- Each live lane received its value in a register pair; the lanes' other registers, the scalar and mask registers and the flags
are as before, and the group went to the next word. -/
def PairsGot (s : State) (live : Word) (a : Reg) (val : Nat → Nat) (t : State) : Prop :=
  (∀ l k, HasRegs s l → k < s.wg.n → t.lreg l k =
      if live.getLsbD l = true ∧ k = a.toNat then lo32 (BitVec.ofNat 64 (val l))
      else if live.getLsbD l = true ∧ k = a.toNat + 1 then hi32 (BitVec.ofNat 64 (val l)) else s.lreg l k)
    ∧ t.grp.pc = s.grp.pc + 8 ∧ t.grp.s = s.grp.s ∧ t.grp.m = s.grp.m ∧ t.grp.flags = s.grp.flags ∧ t.grp.wait = .ready

/-! ### Copies, matrix operations and events -/

/-- A copy instruction that passed its checks: its operations are accepted as one event where there is room and its threads'
earlier stores are performed, else its group waits (R291, R292). -/
def CopyIssued (s : State) (i : Instr) (js : List CopyJob) : Prop :=
  (s.mayAccept js = true → exec i s = .next (s.acceptAll js))
    ∧ (s.mayAccept js = false → exec i s = .next (s.setWait (.copies js)))

/-- A tile instruction: it takes the trap that its first failing check names, and else is issued (R302). -/
def TileIssued (s : State) (i : Instr) (m : MReg) (j : CopyJob) (out descOk : Bool) : Prop :=
  (s.exe m = 0 → Runs i s (fun t => OnlyGroup s t { s.grp with pc := s.grp.pc + 8, far := 0 }))
    ∧ (s.exe m ≠ 0 →
        (∀ code addr, s.tileCheck j out descOk = some (code, addr) → exec i s = .next (s.trap code (lowest (s.exe m)) addr))
        ∧ (s.tileCheck j out descOk = none → CopyIssued s i [j]))

/-- A signing instruction whose own checks hold (R331, R332): it signs for the lanes of E once their threads' earlier accesses
are performed, and waits before. -/
def Signs (s : State) (i : Instr) (m : MReg) (cv : BitVec 3) (op : MatOp) : Prop :=
  let e := s.exe m
  let o := { op with segs := s.grp.segs, fn := s.accFn, user := s.grp.lvl == .user }
  let x : Cv := mget {} s.wg.cvs cv.toNat
  let n := (lanesOf e).length
  (e = 0 → Runs i s (fun t => OnlyGroup s t { s.grp with pc := s.grp.pc + 8, far := 0 }))
    ∧ (e ≠ 0 → s.wg.qm.fail = true → exec i s = .next (s.trap s.wg.qm.trap (lowest e)))
    ∧ (e ≠ 0 → s.wg.qm.fail = false → s.wg.holds = false → exec i s = .next (s.trap tAccess (lowest e)))
    ∧ (e ≠ 0 → s.wg.qm.fail = false → s.wg.holds = true →
        (x.size = 0 ∨ x.size < x.signed + n → exec i s = .next (s.trap tCvState (lowest e)))
        ∧ (x.size ≠ 0 → x.signed + n ≤ x.size →
            (x.signed ≠ 0 → x.opnds ≠ op.set → exec i s = .next (s.trap tCvMismatch (lowest e)))
            ∧ (x.signed = 0 ∨ x.opnds = op.set →
                (s.drained (s.slotsOf e) = true → exec i s = .next (s.record o cv.toNat e))
                ∧ (s.drained (s.slotsOf e) = false → exec i s = .next (s.setWait (.sign o cv.toNat e))))))

/-- An event of a waiting group: where its condition holds the state is `u`, and else nothing changes. -/
def WaitEnds (i : Instr) (s : State) (cond : Bool) (u : State) : Prop :=
  (cond = true → exec i s = .next u) ∧ (cond = false → exec i s = .next s)

end Sys2Proof.Safety
end

