-- ==== Sys2Proof/Certificates/Slice0/Obligations.lean ====
section
/-! DEFINITION. The statements about the machine. -/

open Sys2Proof Sys2Proof.Machine Sys2Proof.Safety

/-- R65, R66 with Table 3.1: an arithmetic S word whose condition holds reads its two operands, the first first,
writes the result to its destination and advances; nothing else changes. -/
def Obligations.ScalarArithmeticWritesTheTableResult : Prop :=
  ∀ (s : State) (c : SCond) (d a : SCode) (b : Op2), s.grp.holds c = true → d.toNat < 32 →
    let x := s.scalar a
    let y := (s.latchRead a).op2 b
    let W := fun (v : Word) (t : State) => ScalarWrote ((s.latchRead a).latchOp2 b) t d.toNat v
    Runs (.sadd c d a b) s (W (x + y))
    ∧ Runs (.ssub c d a b) s (W (x - y))
    ∧ Runs (.smul c d a b) s (W (BitVec.ofNat 32 (x.toNat * y.toNat)))
    ∧ Runs (.smulh c false d a b) s (W (BitVec.ofInt 32 (x.toInt * y.toInt / 2 ^ 32)))
    ∧ Runs (.smulh c true d a b) s (W (BitVec.ofNat 32 (x.toNat * y.toNat / 2 ^ 32)))
    ∧ Runs (.sand c d a b) s (W (x &&& y))
    ∧ Runs (.sor c d a b) s (W (x ||| y))
    ∧ Runs (.sxor c d a b) s (W (x ^^^ y))
    ∧ Runs (.sshl c d a b) s (W (if 32 ≤ y.toNat then 0 else BitVec.ofNat 32 (x.toNat * 2 ^ y.toNat)))
    ∧ Runs (.sshr c d a b) s (W (if 32 ≤ y.toNat then 0 else BitVec.ofNat 32 (x.toNat / 2 ^ y.toNat)))
    ∧ Runs (.ssar c d a b) s (W (if 32 ≤ y.toNat then (if x.msb then 0xFFFFFFFF else 0)
        else BitVec.ofInt 32 (x.toInt / 2 ^ y.toNat)))
    ∧ Runs (.smin c false d a b) s (W (if x.toInt ≤ y.toInt then x else y))
    ∧ Runs (.smin c true d a b) s (W (if x.toNat ≤ y.toNat then x else y))
    ∧ Runs (.smax c false d a b) s (W (if x.toInt ≤ y.toInt then y else x))
    ∧ Runs (.smax c true d a b) s (W (if x.toNat ≤ y.toNat then y else x))
    ∧ ∀ sel, Runs (.ssel c sel d a b) s (W (if s.grp.selects sel then x else y))

/-- R67, R70 to R72: `smov` and `smovi` write a scalar register or a mask register, `sread` a lane's register to a
scalar register, `kst` a constant of the workgroup, but where a group of a lower number has written it in the same core cycle; each
goes to the next word. -/
def Obligations.ScalarMovesWriteTheirDestination : Prop :=
  ∀ (s : State) (c : SCond) (d src : SCode) (imm : Word), s.grp.holds c = true →
    (d.toNat < 32 →
      Runs (.smov c d src) s (fun t => ScalarWrote (s.latchRead src) t d.toNat (s.scalar src))
      ∧ Runs (.smovi c d imm) s (fun t => ScalarWrote s t d.toNat imm)
      ∧ ∀ (v : Reg) (l : LaneSel), Runs (.sread c d v l) s
          (fun t => ScalarWrote (s.latchSel l) t d.toNat (s.lreg (s.laneSel l) v.toNat)))
    ∧ (96 ≤ d.toNat → d.toNat < 112 →
      Runs (.smov c d src) s (fun t => MaskWrote (s.latchRead src) t (d.toNat - 96) (s.scalar src))
      ∧ Runs (.smovi c d imm) s (fun t => MaskWrote s t (d.toNat - 96) imm))
    ∧ (32 ≤ d.toNat → d.toNat < 96 → ∀ b : Op2,
        let first := ∃ g, mfind s.wg.kw (d.toNat - 32) = some (s.cycles s.cur.h, g) ∧ g < s.cur.g
        let on := { (s.latchOp2 b).grp with pc := s.grp.pc + 8, far := 0 }
        (¬ first → Runs (.kst c d b) s (fun t => OnlyWg s t { s.wg with
            k := mset s.wg.k (d.toNat - 32) (s.op2 b)
            kw := mset s.wg.kw (d.toNat - 32) (s.cycles s.cur.h, s.cur.g) } on))
        ∧ (first → Runs (.kst c d b) s (fun t => OnlyGroup s t on)))

/-- R68: `scmp` and `scmpi` set Z, N, C and V from the difference of their operands, and write nothing else. -/
def Obligations.ScalarCompareSetsTheFlags : Prop :=
  ∀ (s : State) (c : SCond) (a b : SCode) (imm : Word), s.grp.holds c = true →
    let F := fun (u : State) (x y : Word) (t : State) => OnlyGroup u t { u.grp with
      z := decide (x = y), n := (x - y).getLsbD 31, c := decide (y.toNat ≤ x.toNat),
      v := x.getLsbD 31 != y.getLsbD 31 && (x - y).getLsbD 31 != x.getLsbD 31, pc := u.grp.pc + 8, far := 0 }
    Runs (.scmp c a b) s (F ((s.latchRead a).latchRead b) (s.scalar a) ((s.latchRead a).scalar b))
    ∧ Runs (.scmpi c a imm) s (F (s.latchRead a) (s.scalar a) imm)

/-- R46, R52, R79: a conditional S word whose condition does not hold only advances the PC by 8, and so do `nop` and every hint
under any condition. -/
def Obligations.FalseConditionsNopsAndHintsOnlyAdvance : Prop :=
  ∀ (s : State) (c : SCond),
    let N := s.setGrp { s.grp with pc := s.grp.pc + 8, far := 0 }
    exec (.nop c) s = .next N ∧ (∀ (n : BitVec 4) (body : BitVec 54), exec (.hint n body) s = .next N)
    ∧ (s.grp.holds c = false →
    ∀ (d a : SCode) (b : Op2) (u : Bool) (imm off : Word) (sel : SSel) (l : LaneSel) (v : Reg) (m m2 : MReg)
      (code : BitVec 16) (n : BitVec 4) (e : SpawnEntry) (t : Option Reg) (card : BitVec 6) (dir : BitVec 3),
      (∀ i ∈ [Instr.smov c d a, .smovi c d imm, .sadd c d a b, .ssub c d a b, .smul c d a b, .smulh c u d a b,
        .sand c d a b, .sor c d a b, .sxor c d a b, .sshl c d a b, .sshr c d a b, .ssar c d a b, .smin c u d a b,
        .smax c u d a b, .scmp c d a, .scmpi c a imm, .ssel c sel d a b, .sread c d v l, .kst c d b, .br c off,
        .bra c b, .brmz c m off, .brmnz c m off, .brmf c m off, .sloop c d off, .call c v off, .ret c v,
        .trap c code, .yield c, .sleep c b, .spawn c m m2 v n e, .reform c t, .reformTwo c m off, .retire c,
        .binAge c b, .jpost c d a card n dir], exec i s = .next N))

/-- R48, R73 to R75 with Table 3.2: where each branch, loop and call whose condition holds goes, and what it writes; a `bra` to an
address that is no multiple of 8 raises MISALIGNED_PC; `far` says how many times 2^32 a PC-relative target lies beyond the PC
register. -/
def Obligations.BranchesGoToTheirTargets : Prop :=
  ∀ (s : State) (c : SCond) (off : Word) (m : MReg), s.grp.holds c = true →
    let far : Int := ((s.grp.pc.toNat : Int) + 8 * off.toInt) / 2 ^ 32
    let goTo := fun (b : Bool) (t : State) =>
      OnlyGroup s t { s.grp with pc := if b then s.grp.pc + off * 8 else s.grp.pc + 8, far := if b then far else 0 }
    Runs (.br c off) s (goTo true)
    ∧ Runs (.brmz c m off) s (goTo (decide (s.grp.mreg m.toNat &&& s.grp.m0 = 0)))
    ∧ Runs (.brmnz c m off) s (goTo (decide (s.grp.mreg m.toNat &&& s.grp.m0 ≠ 0)))
    ∧ Runs (.brmf c m off) s (goTo (decide (s.grp.mreg m.toNat &&& s.grp.m0 = s.grp.m0)))
    ∧ (∀ b : Op2, (s.op2 b).toNat % 8 = 0 → Runs (.bra c b) s (fun t =>
        OnlyGroup (s.latchOp2 b) t { (s.latchOp2 b).grp with pc := s.op2 b, far := 0 }))
    ∧ (∀ b : Op2, (s.op2 b).toNat % 8 ≠ 0 → exec (.bra c b) s = .next (s.trap tMisalignedPc))
    ∧ (∀ k : SCode, k.toNat < 32 → Runs (.sloop c k off) s (fun t =>
        t.grp.sreg k.toNat = s.grp.sreg k.toNat - 1 ∧ (∀ i, i ≠ k.toNat → t.grp.sreg i = s.grp.sreg i)
        ∧ ∃ r, OnlyGroup s t { s.grp with
            s := r, pc := if s.grp.sreg k.toNat = 1 then s.grp.pc + 8 else s.grp.pc + off * 8
            far := if s.grp.sreg k.toNat = 1 then 0 else far }))
    ∧ (∀ l : Reg, RowsApart s → l.toNat < s.wg.n → Runs (.call c l off) s (fun t =>
        LaneRegs s t (s.grp.pc + off * 8) (fun i k =>
          if s.grp.member.getLsbD i = true ∧ k = l.toNat then s.grp.pc + 8 else s.lreg i k) far))

/-- R76, R77: `ret` with one aligned link in every member lane goes there; with different links it dissolves the
group; a misaligned link of a member lane raises MISALIGNED_PC instead. -/
def Obligations.ReturnFollowsTheLinks : Prop :=
  ∀ (s : State) (c : SCond) (l : Reg), s.grp.holds c = true →
    (∀ v : Word, v.toNat % 8 = 0 → (∀ i ∈ lanesOf s.grp.member, s.lreg i l.toNat = v) → s.grp.member ≠ 0 →
      Runs (.ret c l) s (fun t => OnlyGroup s t { s.grp with pc := v, far := 0 }))
    ∧ ((∀ i ∈ lanesOf s.grp.member, (s.lreg i l.toNat).toNat % 8 = 0) →
        (∃ i ∈ lanesOf s.grp.member, ∃ j ∈ lanesOf s.grp.member, s.lreg i l.toNat ≠ s.lreg j l.toNat) →
        RosterApart s → Runs (.ret c l) s (fun t => Dissolved s t (fun i => s.lreg i l.toNat)))
    ∧ (∀ i ∈ lanesOf s.grp.member, (s.lreg i l.toNat).toNat % 8 ≠ 0 →
        (∀ j ∈ lanesOf s.grp.member, j < i → (s.lreg j l.toNat).toNat % 8 = 0) →
        exec (.ret c l) s = .next (s.trap tMisalignedPc i))

/-- R28: a read of time.lo gives the low half of chip time and latches the high half of the same instant for the group, which a
later read of time.hi gives; a group that has not read time.lo since it was formed reads the high half of the moment. -/
def Obligations.TimeLowLatchesTimeHigh : Prop :=
  ∀ (s : State) (c : SCond) (d : SCode), s.grp.holds c = true → d.toNat < 32 →
    Runs (.smov c d 121) s (fun t => t.grp.sreg d.toNat = BitVec.ofNat 32 s.chipTime
      ∧ (∀ u : State, u.grp.latch = t.grp.latch → u.scalar 122 = BitVec.ofNat 32 (s.chipTime / 2 ^ 32)))
    ∧ Runs (.smov c d 122) s (fun t => t.grp.sreg d.toNat = s.scalar 122 ∧ t.grp.latch = s.grp.latch)
    ∧ (s.grp.latch = none → s.scalar 122 = BitVec.ofNat 32 (s.chipTime / 2 ^ 32))
    ∧ ∀ w b p age uc ts, (newGroup w b p age uc ts).latch = none

/-! ### Lane instructions -/

/-- Members in slots of their own have registers of their own (R144). -/
def Obligations.ApartSlotsGiveApartRegisters : Prop := ∀ s : State, RosterApart s → RowsApart s

/-- R90 to R99, R101, R102 and Table 4.1: the integer instructions that write a lane register: in every executing lane the
destination holds the stated result of the sources as they were, and nothing else changes. -/
def Obligations.IntegerResults : Prop :=
  ∀ (s : State) (m : MReg) (d a b e : Reg) (cm : MReg) (ty : Ty), RowsApart s →
    let x := fun (l : Nat) => s.lval ty l a.toNat
    let y := fun (l : Nat) => s.lval ty l b.toNat
    let X := fun (l : Nat) => s.lreg l a.toNat
    let Y := fun (l : Nat) => s.lreg l b.toNat
    let Z := fun (l : Nat) => s.lreg l e.toNat
    let w := tyWidth ty
    Does (.mov m ty d a) s (WroteTy s m ty d x)
    ∧ (∀ imm, Does (.movi m d imm) s (Wrote32 s m d (fun _ => imm)))
    ∧ (∀ src, Does (.movScalar m d src) s (Wrote32 (s.latchRead src) m d (fun _ => s.scalar src)))
    ∧ Does (.tidx m d) s (Wrote32 s m d (fun l =>
        if s.grp.member.getLsbD l then BitVec.ofNat 32 (s.tidxOf l) else BitVec.allOnes 32))
    ∧ Does (.add m ty d a b) s (WroteTy s m ty d (fun l => x l + y l))
    ∧ Does (.sub m ty d a b) s (WroteTy s m ty d (fun l => x l - y l))
    ∧ Does (.mul m ty d a b) s (Wrote32 s m d (fun l => X l * Y l))
    ∧ Does (.mulhi m .s32 d a b) s (Wrote32 s m d (fun l => BitVec.ofInt 32 ((X l).toInt * (Y l).toInt / 2 ^ 32)))
    ∧ Does (.mulhi m .n32 d a b) s (Wrote32 s m d (fun l => BitVec.ofNat 32 ((X l).toNat * (Y l).toNat / 2 ^ 32)))
    ∧ Does (.mad m ty d a b e) s (Wrote32 s m d (fun l => X l * Y l + Z l))
    ∧ Does (.madw m .s32 d a b e) s (Wrote64 s m d (fun l =>
        BitVec.ofInt 64 ((X l).toInt * (Y l).toInt) + s.lpair l e.toNat))
    ∧ Does (.madw m .n32 d a b e) s (Wrote64 s m d (fun l =>
        BitVec.ofNat 64 ((X l).toNat * (Y l).toNat) + s.lpair l e.toNat))
    ∧ Does (.neg m ty d a) s (WroteTy s m ty d (fun l => - x l))
    ∧ Does (.abs m ty d a) s (WroteTy s m ty d (fun l => if tyInt ty (x l) < 0 then - x l else x l))
    ∧ Does (.min m ty d a b) s (WroteTy s m ty d (fun l => if tyInt ty (x l) ≤ tyInt ty (y l) then x l else y l))
    ∧ Does (.max m ty d a b) s (WroteTy s m ty d (fun l => if tyInt ty (x l) ≤ tyInt ty (y l) then y l else x l))
    ∧ Does (.and m ty d a b) s (WroteTy s m ty d (fun l => x l &&& y l))
    ∧ Does (.or m ty d a b) s (WroteTy s m ty d (fun l => x l ||| y l))
    ∧ Does (.xor m ty d a b) s (WroteTy s m ty d (fun l => x l ^^^ y l))
    ∧ Does (.andn m ty d a b) s (WroteTy s m ty d (fun l => x l &&& ~~~ y l))
    ∧ Does (.not m ty d a) s (WroteTy s m ty d (fun l => ~~~ x l))
    ∧ Does (.shl m ty d a b) s (WroteTy s m ty d (fun l =>
        if w ≤ (Y l).toNat then 0 else BitVec.ofNat 64 ((x l).toNat * 2 ^ (Y l).toNat)))
    ∧ Does (.shr m ty d a b) s (WroteTy s m ty d (fun l =>
        if w ≤ (Y l).toNat then 0 else BitVec.ofNat 64 ((x l).toNat / 2 ^ (Y l).toNat)))
    ∧ Does (.sar m .b32 d a b) s (Wrote32 s m d (fun l =>
        if 32 ≤ (Y l).toNat then (if (X l).getLsbD 31 then BitVec.allOnes 32 else 0)
        else BitVec.ofInt 32 ((X l).toInt / 2 ^ (Y l).toNat)))
    ∧ Does (.sar m .b64 d a b) s (Wrote64 s m d (fun l => (s.lpair l a.toNat).sshiftRight (Y l).toNat))
    ∧ Does (.rot m .b32 d a b) s (Wrote32 s m d (fun l => (X l).rotateLeft ((Y l).toNat % 32)))
    ∧ Does (.rot m .b64 d a b) s (Wrote64 s m d (fun l => (s.lpair l a.toNat).rotateLeft ((Y l).toNat % 64)))
    ∧ Does (.popc m ty d a) s (Wrote32 s m d (fun l => BitVec.ofNat 32 (popNat (x l).toNat w)))
    ∧ Does (.brev m ty d a) s (WroteTy s m ty d (fun l => BitVec.ofNat 64 (bitReverse w (x l).toNat)))
    ∧ Does (.sel m ty d a b cm) s (WroteTy s m ty d (fun l => if (s.grp.mreg cm.toNat).getLsbD l then x l else y l))

/-- R98, R99, R102 to R104: bit fields, leading zeros, conversion, saturating and dot-product forms. -/
def Obligations.FieldConversionAndPackedResults : Prop :=
  ∀ (s : State) (m : MReg) (d a b e : Reg) (ty ft : Ty) (sat : Bool), RowsApart s →
    let X := fun (l : Nat) => s.lreg l a.toNat
    let Y := fun (l : Nat) => s.lreg l b.toNat
    let pos := fun (l : Nat) => (Y l).toNat % 32
    let wd := fun (l : Nat) => min ((Y l).toNat / 2 ^ 8 % 2 ^ 6) (32 - (Y l).toNat % 32)
    Does (.bfx m .n32 d a b) s (Wrote32 s m d (fun l => BitVec.ofNat 32 ((X l).toNat / 2 ^ pos l % 2 ^ wd l)))
    ∧ Does (.bfx m .s32 d a b) s (Wrote32 s m d (fun l =>
        if wd l = 0 then 0 else BitVec.ofInt 32 (sextNat ((X l).toNat / 2 ^ pos l % 2 ^ wd l) (wd l))))
    ∧ Does (.bfi m d a b e) s (Wrote32 s m d (fun l =>
        let fld := BitVec.ofNat 32 ((2 ^ wd l - 1) * 2 ^ pos l)
        (s.lreg l e.toNat &&& ~~~fld) ||| ((X l <<< pos l) &&& fld)))
    ∧ Does (.clz m ty d a) s (Wrote32 s m d (fun l => BitVec.ofNat 32
        (((List.range (tyWidth ty)).takeWhile (fun i =>
          !((s.lval ty l a.toNat).getLsbD (tyWidth ty - 1 - i)))).length)))
    ∧ Does (.cvti m ty ft sat d a) s (WroteTy s m ty d (fun l =>
        let v := tyInt ft (s.lval ft l a.toNat)
        BitVec.ofInt 64 (if sat then max (intMin (tySigned ty) (tyWidth ty)) (min (intMax (tySigned ty) (tyWidth ty)) v)
          else tyInt ty (BitVec.ofInt 64 v))))
    ∧ Does (.adds m .s32 d a b) s (Wrote32 s m d (fun l =>
        BitVec.ofInt 32 (max (-2 ^ 31) (min (2 ^ 31 - 1) ((X l).toInt + (Y l).toInt)))))
    ∧ Does (.adds m .n32 d a b) s (Wrote32 s m d (fun l => BitVec.ofNat 32 (min (2 ^ 32 - 1) ((X l).toNat + (Y l).toNat))))
    ∧ Does (.subs m .s32 d a b) s (Wrote32 s m d (fun l =>
        BitVec.ofInt 32 (max (-2 ^ 31) (min (2 ^ 31 - 1) ((X l).toInt - (Y l).toInt)))))
    ∧ Does (.subs m .n32 d a b) s (Wrote32 s m d (fun l => BitVec.ofNat 32 ((X l).toNat - (Y l).toNat)))
    ∧ Does (.adds m ty d a b) s (Wrote32 s m d (fun l => packedSat ty (· + ·) (X l) (Y l)))
    ∧ Does (.subs m ty d a b) s (Wrote32 s m d (fun l => packedSat ty (· - ·) (X l) (Y l)))
    ∧ Does (.dot4 m ty d a b e) s (Wrote32 s m d (fun l =>
        BitVec.ofInt 32 (max (intMin (tySigned ty) 32) (min (intMax (tySigned ty) 32)
          (asInt (tySigned ty) 32 (s.lreg l e.toNat).toNat + packedDot ty (X l) (Y l))))))
    ∧ Does (.dot8 m ty d a b e) s (Wrote32 s m d (fun l =>
        BitVec.ofInt 32 (max (intMin (tySigned ty) 32) (min (intMax (tySigned ty) 32)
          (asInt (tySigned ty) 32 (s.lreg l e.toNat).toNat + packedDot ty (X l) (Y l))))))

/-- R105 with Table 4.2: the immediate forms of the integer instructions. -/
def Obligations.IntegerImmediateResults : Prop :=
  ∀ (s : State) (m : MReg) (d a : Reg) (imm : Word) (n p : BitVec 5) (wd : BitVec 6), RowsApart s →
    let X := fun (l : Nat) => s.lreg l a.toNat
    Does (.addImm m d a imm) s (Wrote32 s m d (fun l => X l + imm))
    ∧ Does (.addsImm m false d a imm) s (Wrote32 s m d (fun l =>
        BitVec.ofInt 32 (max (-2 ^ 31) (min (2 ^ 31 - 1) ((X l).toInt + imm.toInt)))))
    ∧ Does (.addsImm m true d a imm) s (Wrote32 s m d (fun l => BitVec.ofNat 32 (min (2 ^ 32 - 1) ((X l).toNat + imm.toNat))))
    ∧ Does (.mulImm m d a imm) s (Wrote32 s m d (fun l => X l * imm))
    ∧ Does (.andImm m d a imm) s (Wrote32 s m d (fun l => X l &&& imm))
    ∧ Does (.orImm m d a imm) s (Wrote32 s m d (fun l => X l ||| imm))
    ∧ Does (.xorImm m d a imm) s (Wrote32 s m d (fun l => X l ^^^ imm))
    ∧ Does (.andnImm m d a imm) s (Wrote32 s m d (fun l => X l &&& ~~~imm))
    ∧ Does (.shlImm m d a n) s (Wrote32 s m d (fun l => BitVec.ofNat 32 ((X l).toNat * 2 ^ n.toNat)))
    ∧ Does (.shrImm m d a n) s (Wrote32 s m d (fun l => BitVec.ofNat 32 ((X l).toNat / 2 ^ n.toNat)))
    ∧ Does (.sarImm m d a n) s (Wrote32 s m d (fun l => BitVec.ofInt 32 ((X l).toInt / 2 ^ n.toNat)))
    ∧ Does (.rotImm m d a n) s (Wrote32 s m d (fun l => (X l).rotateLeft n.toNat))
    ∧ Does (.minImm m false d a imm) s (Wrote32 s m d (fun l => if (X l).toInt ≤ imm.toInt then X l else imm))
    ∧ Does (.minImm m true d a imm) s (Wrote32 s m d (fun l => if (X l).toNat ≤ imm.toNat then X l else imm))
    ∧ Does (.maxImm m false d a imm) s (Wrote32 s m d (fun l => if (X l).toInt ≤ imm.toInt then imm else X l))
    ∧ Does (.maxImm m true d a imm) s (Wrote32 s m d (fun l => if (X l).toNat ≤ imm.toNat then imm else X l))
    ∧ Does (.bfxImm m false d a p wd) s (Wrote32 s m d (fun l =>
        BitVec.ofNat 32 ((X l).toNat / 2 ^ p.toNat % 2 ^ wd.toNat)))
    ∧ Does (.bfxImm m true d a p wd) s (Wrote32 s m d (fun l =>
        BitVec.ofInt 32 (sextNat ((X l).toNat / 2 ^ p.toNat % 2 ^ wd.toNat) wd.toNat)))

/-- R95: `addc` and `subc` write the sum or difference with the carry bit of each executing lane, and that lane's new
carry, together. -/
def Obligations.CarryFormsWriteSumAndCarry : Prop :=
  ∀ (s : State) (m : MReg) (d a b : Reg) (cm : MReg), RowsApart s →
    let X := fun (l : Nat) => (s.lreg l a.toNat).toNat
    let Y := fun (l : Nat) => (s.lreg l b.toNat).toNat
    let C := fun (l : Nat) => b2n ((s.grp.mreg cm.toNat).getLsbD l)
    let Both := fun (f : Nat → Word) (g : Nat → Bool) (t : State) =>
      (∀ l k, HasRegs s l → k < s.wg.n → t.lreg l k =
          if (s.live m).getLsbD l = true ∧ k = d.toNat then f l else s.lreg l k)
      ∧ (∀ p, (∀ l k, l < 32 → s.grp.member.getLsbD l = true → k < s.wg.n → s.physReg l k ≠ p) →
          mget 0 t.core.rf p = mget 0 s.core.rf p)
      ∧ (∀ l, l < 32 → (t.grp.mreg cm.toNat).getLsbD l
          = ((if (s.live m).getLsbD l then g l else (s.grp.mreg cm.toNat).getLsbD l)
              && (cm != 0 || s.grp.member.getLsbD l)))
      ∧ (∀ i, i ≠ cm.toNat → t.grp.mreg i = s.grp.mreg i)
      ∧ ∃ rf hr ms, t = s.setCore { s.core with
          rf := rf, groups := mset s.core.groups s.cur.g { s.grp with hregs := hr, m := ms, pc := s.grp.pc + 8, far := 0 } }
    Does (.addc m d a b cm) s (Both (fun l => BitVec.ofNat 32 (X l + Y l + C l)) (fun l => decide (2 ^ 32 ≤ X l + Y l + C l)))
    ∧ Does (.subc m d a b cm) s (Both (fun l => BitVec.ofInt 32 ((X l : Int) - Y l - C l)) (fun l => decide (X l < Y l + C l)))

/-- R100, R105, R118, R128: the comparisons write, for each executing lane, whether the comparison holds, to the bits of
a mask register, and leave the bits of every other lane. -/
def Obligations.ComparesWriteMaskBits : Prop :=
  ∀ (s : State) (m d : MReg) (a b : Reg) (ty : Ty) (imm : Word) (sg : Signs) (fc : FCond),
    let x := fun (l : Nat) => tyInt ty (s.lval ty l a.toNat)
    let y := fun (l : Nat) => tyInt ty (s.lval ty l b.toNat)
    let X := fun (l : Nat) => s.lreg l a.toNat
    let M := fun (f : Nat → Bool) => MaskBitsWrote s m d f
    Does (.cmp m .eq ty d a b) s (M (fun l => decide (x l = y l)))
    ∧ Does (.cmp m .ne ty d a b) s (M (fun l => decide (x l ≠ y l)))
    ∧ Does (.cmp m .lt ty d a b) s (M (fun l => decide (x l < y l)))
    ∧ Does (.cmp m .le ty d a b) s (M (fun l => decide (x l ≤ y l)))
    ∧ Does (.cmp m .gt ty d a b) s (M (fun l => decide (y l < x l)))
    ∧ Does (.cmp m .ge ty d a b) s (M (fun l => decide (y l ≤ x l)))
    ∧ Does (.cmpS32Imm m .eq d a imm) s (M (fun l => decide (X l = imm)))
    ∧ Does (.cmpS32Imm m .ne d a imm) s (M (fun l => decide (X l ≠ imm)))
    ∧ Does (.cmpS32Imm m .lt d a imm) s (M (fun l => decide ((X l).toInt < imm.toInt)))
    ∧ Does (.cmpS32Imm m .ge d a imm) s (M (fun l => decide (imm.toInt ≤ (X l).toInt)))
    ∧ Does (.cmpN32Imm m .eq d a imm) s (M (fun l => decide (X l = imm)))
    ∧ Does (.cmpN32Imm m .ne d a imm) s (M (fun l => decide (X l ≠ imm)))
    ∧ Does (.cmpN32Imm m .lt d a imm) s (M (fun l => decide ((X l).toNat < imm.toNat)))
    ∧ Does (.cmpN32Imm m .ge d a imm) s (M (fun l => decide (imm.toNat ≤ (X l).toNat)))
    ∧ Does (.fcmp m fc sg d a b) s (M (fun l => fcondHolds fc (f32 (s.srcA .f32 sg l a)) (f32 (s.srcB .f32 sg l b))))
    ∧ Does (.fcmpImm m .eq d a imm) s (M (fun l => fcondHolds .eq (f32 (X l)) (f32 imm)))
    ∧ Does (.fcmpImm m .ne d a imm) s (M (fun l => fcondHolds .ne (f32 (X l)) (f32 imm)))
    ∧ Does (.fcmpImm m .lt d a imm) s (M (fun l => fcondHolds .lt (f32 (X l)) (f32 imm)))
    ∧ Does (.fcmpImm m .ge d a imm) s (M (fun l => fcondHolds .ge (f32 (X l)) (f32 imm)))

/-- R118 with Table 5.4, R109, R113: the eight floating-point conditions: a NaN is unordered, of two numbers exactly one of
less, equal and greater holds, and zeros are equal; a value that FP32 represents is its own rounding, in every mode. -/
def Obligations.FloatConditionsAndRepresentableRounding : Prop :=
  (∀ x y : FVal,
    ((x = .nan ∨ y = .nan) → ∀ c, fcondHolds c x y = decide (c = .ne ∨ c = .un))
    ∧ (x ≠ .nan → y ≠ .nan →
        (fcondHolds .lt x y || fcondHolds .eq x y || fcondHolds .gt x y) = true
        ∧ (fcondHolds .lt x y && fcondHolds .gt x y) = false
        ∧ (fcondHolds .lt x y && fcondHolds .eq x y) = false
        ∧ fcondHolds .le x y = (fcondHolds .lt x y || fcondHolds .eq x y)
        ∧ fcondHolds .ge x y = (fcondHolds .gt x y || fcondHolds .eq x y)
        ∧ fcondHolds .ne x y = !fcondHolds .eq x y ∧ fcondHolds .ord x y = true ∧ fcondHolds .un x y = false)
    ∧ ∀ p q e f, fcondHolds .eq (.fin p 0 e) (.fin q 0 f) = true)
  ∧ ∀ (x : Word) (rm : Rnd), f32 x ≠ .nan → toF32 rm (f32 x) = x

/-- R116, R117, R119 to R121, R126 to R128: the floating-point instructions that write a lane register: in every executing lane
the destination holds the operation's exact value rounded once, and nothing else changes. fexp2 and flog2 rest on the precision
of notes/assumptions 10 (DEDUCED). -/
def Obligations.FloatResults : Prop :=
  ∀ (s : State) (m : MReg) (d a b e : Reg) (ty : Ty) (rm : Rnd) (r4 : Rnd4) (sg : Signs) (imm : Word), RowsApart s →
    let A := fun (l : Nat) => f32 (s.srcA .f32 sg l a)
    let B := fun (l : Nat) => f32 (s.srcB .f32 sg l b)
    let C := fun (l : Nat) => f32 (s.srcC .f32 sg l e)
    let a' := fun (l i : Nat) => elemF ty (s.srcA ty sg l a) i
    let b' := fun (l i : Nat) => elemF ty (s.srcB ty sg l b) i
    let c' := fun (l i : Nat) => elemF ty (s.srcC ty sg l e) i
    let X := fun (l : Nat) => f32 (s.lreg l a.toNat)
    let W := fun (f : Nat → Word) => Wrote32 s m d f
    let one : FVal := .fin false 1 0
    Does (.fadd m ty rm sg d a b) s (W (fun l => packedF ty (fun i => roundV ty rm 0 false (addV rm (a' l i) (b' l i)))))
    ∧ Does (.fma m ty rm sg d a b e) s (W (fun l =>
        packedF ty (fun i => roundV ty rm 0 false (addV rm (mulV (a' l i) (b' l i)) (c' l i)))))
    ∧ Does (.fsub m rm sg d a b) s (W (fun l => toF32 rm (addV rm (A l) (negV (B l)))))
    ∧ Does (.fmul m rm sg d a b) s (W (fun l => toF32 rm (mulV (A l) (B l))))
    ∧ Does (.fmin m sg d a b) s (W (fun l => toF32 .rne (minMaxV false false (A l) (B l))))
    ∧ Does (.fmax m sg d a b) s (W (fun l => toF32 .rne (minMaxV true false (A l) (B l))))
    ∧ Does (.fminn m sg d a b) s (W (fun l => toF32 .rne (minMaxV false true (A l) (B l))))
    ∧ Does (.fmaxn m sg d a b) s (W (fun l => toF32 .rne (minMaxV true true (A l) (B l))))
    ∧ Does (.fclass m sg d a) s (W (fun l => classF (s.srcA .f32 sg l a)))
    ∧ Does (.frcp m rm sg d a) s (W (fun l => BitVec.ofNat 32 (divF .f32 rm one (A l))))
    ∧ Does (.fdiv m rm sg d a b) s (W (fun l => BitVec.ofNat 32 (divF .f32 rm (A l) (B l))))
    ∧ Does (.frsq m rm sg d a) s (W (fun l => BitVec.ofNat 32 (rsqF rm (A l))))
    ∧ Does (.fsqrt m rm sg d a) s (W (fun l => BitVec.ofNat 32 (sqrtF rm (A l))))
    ∧ Does (.fexp2 m sg d a) s (W (fun l => BitVec.ofNat 32 (exp2F (A l))))
    ∧ Does (.flog2 m sg d a) s (W (fun l => BitVec.ofNat 32 (flog2F (A l))))
    ∧ Does (.ffract m sg d a) s (W (fun l => BitVec.ofNat 32 (fractF (A l))))
    ∧ Does (.fround m rm sg d a) s (W (fun l => BitVec.ofNat 32 (roundIntF rm (A l))))
    ∧ Does (.fldexp m rm sg d a b) s (W (fun l => BitVec.ofNat 32 (ldexpF rm (A l) (s.lreg l b.toNat).toInt)))
    ∧ Does (.fdot2 m ty rm sg d a b e) s (W (fun l =>
        toF32 rm (addV rm (addV rm (C l) (mulV (a' l 0) (b' l 0))) (mulV (a' l 1) (b' l 1)))))
    ∧ Does (.fdot4 m ty rm sg d a b e) s (W (fun l =>
        toF32 rm (sumV rm (C l) ((List.range 4).map (fun i => mulV (a' l i) (b' l i))))))
    ∧ Does (.fdot8 m rm sg d a b e) s (W (fun l => toF32 rm (sumV rm (C l) ((List.range 8).map (fun i =>
        mulV (elemF .e2m1x8 (s.srcA .e2m1x8 sg l a) i) (elemF .e2m1x8 (s.srcB .e2m1x8 sg l b) i))))))
    ∧ Does (.mxs m ty sg d a) s (W (fun l => BitVec.ofNat 32 (mxScale ty (A l))))
    ∧ Does (.faddImm m r4 d a imm) s (W (fun l => toF32 (rnd4 r4) (addV (rnd4 r4) (X l) (f32 imm))))
    ∧ Does (.fmulImm m r4 d a imm) s (W (fun l => toF32 (rnd4 r4) (mulV (X l) (f32 imm))))
    ∧ Does (.fmaImm m r4 d a imm) s (W (fun l =>
        toF32 (rnd4 r4) (addV (rnd4 r4) (mulV (X l) (f32 imm)) (f32 (s.lreg l d.toNat)))))
    ∧ Does (.fminImm m d a imm) s (W (fun l => toF32 .rne (minMaxV false false (X l) (f32 imm))))
    ∧ Does (.fmaxImm m d a imm) s (W (fun l => toF32 .rne (minMaxV true false (X l) (f32 imm))))

/-- R122 to R125: `fcvt` writes the converted value, `fpack` shifts the old destination up by two elements and puts the two new
elements below. A source of the destination's own format is accepted by notes/assumptions 11 (DEDUCED). -/
def Obligations.FloatConversionAndPacking : Prop :=
  ∀ (s : State) (m : MReg) (d a b e : Reg) (dt ft : Ty) (rm : Rnd) (sat : Bool) (sg : Signs), RowsApart s →
    let R := fun (l : Nat) => s.lreg l e.toNat
    let w := fmtWidth dt
    let elem := fun (rnd : Word) (x : Word) =>
      roundV dt rm rnd.toNat sat (toF ft (x.toNat % 2 ^ fmtWidth ft)) % 2 ^ w
    Does (.fcvt m dt ft rm sat sg d a e) s (WroteTy s m dt d (fun l =>
        convertV dt rm (R l).toNat sat (s.convA ft sg l a)))
    ∧ (dt.packed = true → Does (.fpack m dt ft rm sat sg d a b e) s (Wrote32 s m d (fun l => BitVec.ofNat 32
        (elem (R l) (s.srcA ft sg l a) + 2 ^ w * elem ((R l).rotateLeft 16) (s.srcB ft sg l b)
          + 2 ^ (2 * w) * (s.lreg l d.toNat).toNat))))

/-! ### Masks and exchange -/

/-- R70, R135, R136: the mask instructions write the bits of the executing lanes only; m0 keeps member lanes only. -/
def Obligations.MaskInstructionsWriteExecutingBits : Prop :=
  ∀ (s : State) (m d a b : MReg) (r : Reg) (imm : Word),
    let x := fun (l : Nat) => (s.grp.mreg a.toNat).getLsbD l
    let y := fun (l : Nat) => (s.grp.mreg b.toNat).getLsbD l
    let M := fun (f : Nat → Bool) => MaskBitsWrote s m d f
    Runs (.mand m d a b) s (M (fun l => x l && y l))
    ∧ Runs (.mor m d a b) s (M (fun l => x l || y l))
    ∧ Runs (.mxor m d a b) s (M (fun l => x l != y l))
    ∧ Runs (.mandn m d a b) s (M (fun l => x l && !(y l)))
    ∧ Runs (.mnot m d a) s (M (fun l => !(x l)))
    ∧ Runs (.mmov m d a) s (M x)
    ∧ Runs (.mseti m d imm) s (M (fun l => imm.getLsbD l))
    ∧ Runs (.mvoteBallot m d r) s (M (fun l => decide (s.lreg l r.toNat ≠ 0)))
    ∧ Runs (.mvoteEq m d r) s (M (fun l => decide (s.lreg l r.toNat = s.lreg (lowest (s.exe m)) r.toNat)))

/-- R133, R137 to R139: counts and exchanges: each executing lane receives the stated lane's register as it was. -/
def Obligations.ExchangesDeliverTheNamedLane : Prop :=
  ∀ (s : State) (m am : MReg) (d a b : Reg) (p : BitVec 2) (k : BitVec 5), RowsApart s →
    let F := fun (src : Nat → Nat) => Wrote32 s m d (fun l => s.lreg (src l) a.toNat)
    let ls := lanesOf (s.grp.mreg am.toNat &&& s.grp.member)
    Does (.mpop m d am) s (Wrote32 s m d (fun _ => BitVec.ofNat 32 ls.length))
    ∧ Does (.mfirst m d am) s (Wrote32 s m d (fun _ => BitVec.ofNat 32 (ls.headD 32)))
    ∧ Does (.mlast m d am) s (Wrote32 s m d (fun _ => BitVec.ofNat 32 (ls.getLastD 32)))
    ∧ Does (.qswx m d a) s (F (fun l => l ^^^ 1))
    ∧ Does (.qswy m d a) s (F (fun l => l ^^^ 2))
    ∧ Does (.qswd m d a) s (F (fun l => l ^^^ 3))
    ∧ Does (.qbc m d a p) s (F (fun l => 4 * (l / 4) + p.toNat))
    ∧ Does (.gshf m d a b) s (F (fun l => (s.lreg l b.toNat).toNat % 32))
    ∧ Does (.gshu m d a k) s (F (fun l => if k.toNat ≤ l then l - k.toNat else l))
    ∧ Does (.gshd m d a k) s (F (fun l => if l + k.toNat ≤ 31 then l + k.toNat else l))
    ∧ Does (.gshx m d a k) s (F (fun l => l ^^^ k.toNat))
    ∧ Does (.gbc m d a k) s (F (fun _ => k.toNat))

/-- R140, R141: `gred` and `gscan`: the result of the fixed tree over the lanes of E, and of the fixed sequence up to (`excl`:
below) the lane, in every executing lane, for every type; for the integer types it is the combination of the contributors in
lane order. That a lone contributor's NaN is made canonical is notes/assumptions 13 (DEDUCED). -/
def Obligations.ReductionsAndScansFollowTheFixedTrees : Prop :=
  ∀ (s : State) (m : MReg) (op : GOp) (ty : Ty) (rm : Rnd) (d a : Reg), RowsApart s →
    (∀ T : Nat → Nat → Option Word,
      (∀ l, T 0 l = if (s.exe m).getLsbD l then some (s.lreg l a.toNat) else none) →
      (∀ t i, T (t + 1) i = combineO (combine op ty rm) (T t (2 * i)) (T t (2 * i + 1))) →
      Does (.gred m op ty rm d a) s (Wrote32 s m d (fun _ => settle op ty (T 5 0))))
    ∧ (∀ K : Nat → Nat → Option Word,
      (∀ l, K 0 l = if (s.exe m).getLsbD l then some (s.lreg l a.toNat) else none) →
      (∀ t l, K (t + 1) l = if 2 ^ t ≤ l then combineO (combine op ty rm) (K t (l - 2 ^ t)) (K t l) else K t l) →
      Does (.gscan m op false ty rm d a) s (Wrote32 s m d (fun l => settle op ty (K 5 l)))
      ∧ Does (.gscan m op true ty rm d a) s (Wrote32 s m d (fun l =>
          settle op ty (if l = 0 then none else K 5 (l - 1)))))
    ∧ (ty ≠ .f32 →
      let of := fun (keep : Nat → Bool) => ((lanesOf (s.exe m)).filter keep).foldl
        (fun x l => combine op ty .rne x (s.lreg l a.toNat)) (identity op ty)
      Does (.gred m op ty .rne d a) s (Wrote32 s m d (fun _ => of (fun _ => true)))
      ∧ Does (.gscan m op false ty .rne d a) s (Wrote32 s m d (fun l => of (fun i => decide (i ≤ l))))
      ∧ Does (.gscan m op true ty .rne d a) s (Wrote32 s m d (fun l => of (fun i => decide (i < l)))))

/-- R43, R44: a paired word reads the sources of both halves before either writes: H0 writes an even register and H1 an odd
one, each in the lanes its mask executes. -/
def Obligations.PairedWordWritesBothHalves : Prop :=
  ∀ (s : State) (h0 h1 : PHalf), RowsApart s →
    let v := fun (odd : Nat) (p : PHalf) (l : Nat) =>
      halfOp p (s.lreg l (2 * p.d.toNat + odd)) (s.lreg l (2 * p.b.toNat + odd))
    Does (.pPair h0 h1) s (fun t => LaneRegs s t (s.grp.pc + 8) (fun l k =>
      if (s.live (h0.m.setWidth 4)).getLsbD l = true ∧ k = 2 * h0.d.toNat then v 0 h0 l
      else if (s.live (h1.m.setWidth 4)).getLsbD l = true ∧ k = 2 * h1.d.toNat + 1 then v 1 h1 l
      else s.lreg l k))

/-! ### Work creation, yield and sleep, software traps -/

/-- R155, R156: `reform` and `reform.two` dissolve the group and file each member at its code address; a misaligned
address of a live lane raises MISALIGNED_PC and dissolves nothing. -/
def Obligations.ReformFilesTheMembers : Prop :=
  ∀ (s : State) (c : SCond) (r : Reg) (m : MReg) (off : Word), s.grp.holds c = true → RosterApart s →
    s.grp.pc.toNat % 8 = 0 →
    Runs (.reform c none) s (fun t => Dissolved s t (fun _ => s.grp.pc + 8))
    ∧ ((∀ l ∈ lanesOf s.grp.member, s.grp.m0.getLsbD l = true → (s.lreg l r.toNat).toNat % 8 = 0) →
        Runs (.reform c (some r)) s (fun t => Dissolved s t (fun l =>
          if s.grp.m0.getLsbD l then s.lreg l r.toNat else s.grp.pc + 8)))
    ∧ (∀ l ∈ lanesOf s.grp.member, s.grp.m0.getLsbD l = true → (s.lreg l r.toNat).toNat % 8 ≠ 0 →
        (∀ i ∈ lanesOf s.grp.member, i < l → s.grp.m0.getLsbD i = true → (s.lreg i r.toNat).toNat % 8 = 0) →
        exec (.reform c (some r)) s = .next (s.trap tMisalignedPc l))
    ∧ Runs (.reformTwo c m off) s (fun t => Dissolved s t (fun l =>
        if (s.grp.mreg m.toNat &&& s.grp.m0).getLsbD l then s.grp.pc + off * 8 else s.grp.pc + 8))

/-- R157, R83: `retire` ends the threads of the live member lanes: the group is gone at once, and each thread whose earlier accesses
are performed has its slot freed, while the end of any other waits for its own accesses alone; every other member is filed at the
next word; memory and registers are untouched, unless the crossbar denies a thread's leaving of a barrier, which is logged. -/
def Obligations.RetireFreesTheThreads : Prop :=
  ∀ (s : State) (c : SCond), s.grp.holds c = true → RosterApart s →
    let ending := s.grp.m0 &&& s.grp.member
    Runs (.retire c) s (fun t =>
      mfind t.core.groups s.cur.g = none
      ∧ (∀ l ∈ lanesOf ending,
          let x := mget 0 s.grp.roster l
          (s.drained [x] = true → mfind t.core.slots x = none)
          ∧ (s.drained [x] = false →
              { upto := s.reqCtr, slots := [x], what := .free s.grp.wgs x (s.tidxOf l) : Pend } ∈ t.core.pend))
      ∧ (∀ l ∈ lanesOf (s.grp.member &&& ~~~ending),
          let y : Slot := mget {} t.core.slots (mget 0 s.grp.roster l)
          y.pc = s.grp.pc + 8 ∧ (y.state = 2 ∨ y.state = 3))
      ∧ t.core.rf = s.core.rf ∧ t.core.scratch = s.core.scratch ∧ t.launches = s.launches
      ∧ (s.barReach s.cur.h s.cur.c s.grp.wgs 16 = true → t.mem = s.mem ∧ t.pkg = s.pkg ∧ t.fns = s.fns))

/-- R153, R154, R83: `spawn` gives each lane of its set a thread while slots are free, lowest lane, slot and index first. The new
thread stands filed at the entry, with the copied registers and zeros above them, and the lane's bit set in mD; while the lane's
earlier accesses are not done the filing alone waits; for a lane that finds no slot free the bit is clear. A misaligned entry traps. -/
def Obligations.SpawnCreatesThreads : Prop :=
  ∀ (s : State) (c : SCond) (d m : MReg) (f : Reg) (n : BitVec 4) (e : SpawnEntry), s.grp.holds c = true →
    let set := s.grp.mreg m.toNat &&& s.grp.m0
    let a := s.spawnEntry e
    let sp := Instr.spawn c d m f n e
    let kept := fun (v : Word) => if d = 0 then v &&& s.grp.member else v
    (a.toNat % 8 ≠ 0 → exec sp s = .next (s.trap tMisalignedPc))
    ∧ (a.toNat % 8 = 0 →
        Runs sp s (fun t => t.grp.mreg d.toNat &&& ~~~set = 0 ∧ t.grp.pc = s.grp.pc + 8
          ∧ (∀ i, i ≠ d.toNat → t.grp.mreg i = s.grp.mreg i)
          ∧ t.mem = s.mem ∧ t.grp.s = s.grp.s ∧ t.grp.member = s.grp.member)
        ∧ (s.core.freeSlot s.wg = none →
            Runs sp s (fun t => t.grp.mreg d.toNat = 0 ∧ t.core.rf = s.core.rf ∧ t.core.slots = s.core.slots))
        ∧ (∀ l x, lanesOf set = [l] → s.core.freeSlot s.wg = some x → n.toNat ≤ s.wg.n →
            Runs sp s (fun t => t.grp.mreg d.toNat = kept (BitVec.ofNat 32 (2 ^ l))
              ∧ NewThread s t l x (s.core.freeIdx s.grp.wgs s.wg) a (s.spawnFar e) f.toNat n.toNat
              ∧ ∀ p, p < rowOf s x ∨ rowOf s x + s.wg.n ≤ p → mget 0 t.core.rf p = mget 0 s.core.rf p))
        ∧ (RosterApart s → s.grp.m0 &&& ~~~s.grp.member = 0 → f.toNat + n.toNat ≤ s.wg.n →
            (s.core.slots.map Prod.fst).Pairwise (· < ·) →
            (∀ l ∈ lanesOf s.grp.member, (mget {} s.core.slots (mget 0 s.grp.roster l)).state ≠ 0) →
            let ls := lanesOf set
            let xs := ((List.range s.wg.lim).map (fun i => s.wg.sbase + i)).filter
              (fun i => (mget {} s.core.slots i).state == 0)
            let is := (List.range s.wg.lim).filter (fun i => s.core.slots.all (fun (x : Nat × Slot) =>
              x.2.state == 0 || x.2.wgs != s.grp.wgs || x.2.tidx != i))
            Runs sp s (fun t => t.grp.mreg d.toNat = kept (maskOf (ls.take xs.length))
              ∧ (∀ k, k < ls.length → k < xs.length →
                  NewThread s t (ls.getD k 0) (xs.getD k 0) (is.getD k 0) a (s.spawnFar e) f.toNat n.toNat)
              ∧ ∀ p, (∀ x ∈ xs.take ls.length, p < rowOf s x ∨ rowOf s x + s.wg.n ≤ p) →
                  mget 0 t.core.rf p = mget 0 s.core.rf p)))

/-- R158, R159, R83: `bin.age` sets the workgroup's bin age, kept between 16 and 4,096, unless a group of a lower number has set it in
this core cycle: that the scalar is clamped as an unsigned number is the model's choice (notes/assumptions 58, DESIGN CHOICE).
`jpost` writes its status and goes on, and when that is 0 it posts the card it names, which waits alone for the members' earlier
accesses and which the crossbar can deny; a checkpointed function's card for another function waits for room in the tray (R369). -/
def Obligations.BinAgeAndJobPosts : Prop :=
  ∀ (s : State) (c : SCond) (b : Op2) (d a : SCode) (card : BitVec 6) (n : BitVec 4) (dir : BitVec 3),
    s.grp.holds c = true →
    let p := s.jpostCard card.toNat n.toNat a.toNat dir.toNat
    let f := s.wg.fn
    let root := s.launchAt (s.rootLaunch s.wg.launch)
    let post := s.postCard s.cur.h s.cur.c f p.2
    let all := s.slotsOf s.grp.member
    let first := ∃ g, mfind s.wg.kw 64 = some (s.cycles s.cur.h, g) ∧ g < s.cur.g
    let on := { (s.latchOp2 b).grp with pc := s.grp.pc + 8, far := 0 }
    (¬ first → Runs (.binAge c b) s (fun t => OnlyWg s t { s.wg with
        binAge := min 4096 (max 16 (s.op2 b).toNat), kw := mset s.wg.kw 64 (s.cycles s.cur.h, s.cur.g) } on))
    ∧ (first → Runs (.binAge c b) s (fun t => OnlyGroup s t on))
    ∧ ((∀ e ∈ root.kernel.cards, e.1 ≠ card.toNat) ∨ root.cardq = 0xFFFF → p.1 = 3)
    ∧ (p.1 ≠ 0 → d.toNat < 32 → Runs (.jpost c d a card n dir) s (fun t => ScalarWrote s t d.toNat (BitVec.ofNat 32 p.1)))
    ∧ (p.1 = 0 → p.2.args = (List.range n.toNat).map (fun i => s.grp.sreg (a.toNat + i)) ∧ p.2.queue = root.cardq)
    ∧ (p.2.fn = f → p.2.hum < 8 → s.cardDenied f s.cur.h s.cur.c p.2 = none → post = { s with cards := s.cards ++ [p.2] })
    ∧ (∀ x, s.cardDenied f s.cur.h s.cur.c p.2 = some x → post = s.logErr 0 4 s.cur.h x f)
    ∧ (p.1 = 0 → d.toNat < 32 → (p.2.fn = f ∨ s.ckFull f = false) →
        (s.drained all = true →
          Runs (.jpost c d a card n dir) s (fun t => ScalarWrote post t d.toNat 0))
        ∧ (s.drained all = false → Runs (.jpost c d a card n dir) s (fun t => ScalarWrote (s.setCore { s.core with
            pend := s.core.pend ++ [{ upto := s.reqCtr, slots := all, what := .card f p.2 }] }) t d.toNat 0)))
    ∧ (p.1 = 0 → p.2.fn ≠ f → s.ckFull f = true →
        exec (.jpost c d a card n dir) s = .next (s.setWait (.drain [] (some f))))

/-- R80, R81: `yield` lets the ready groups of its pipe that do not have a lower priority go first, for at most 16 core cycles;
`sleep` waits for its chip time; with none to wait for, each only advances. -/
def Obligations.YieldAndSleepWait : Prop :=
  ∀ (s : State) (c : SCond) (b : Op2), s.grp.holds c = true →
    (s.yieldTo = [] → Runs (.yield c) s (fun t => OnlyGroup s t { s.grp with pc := s.grp.pc + 8, far := 0 }))
    ∧ (s.yieldTo ≠ [] → Runs (.yield c) s (fun t => OnlyGroup s t
        { s.grp with pc := s.grp.pc + 8, far := 0, wait := .yield (s.cycles s.cur.h + 16) s.yieldTo }))
    ∧ ((s.op2 b).toNat = 0 → Runs (.sleep c b) s (fun t => OnlyGroup (s.latchOp2 b) t
        { (s.latchOp2 b).grp with pc := s.grp.pc + 8, far := 0 }))
    ∧ ((s.op2 b).toNat ≠ 0 → Runs (.sleep c b) s (fun t => OnlyGroup (s.latchOp2 b) t
        { (s.latchOp2 b).grp with pc := s.grp.pc + 8, far := 0, wait := .sleep (s.chipTime + (s.op2 b).toNat) }))

/-- R78, R353 to R355: the software trap is taken after the word: the handler receives the code, and the saved PC is the next
word's. It waits for the group's earlier accesses; without an enabled handler it ends the launch with 32 plus its code, and at
hypervisor level with status 10. -/
def Obligations.SoftwareTrapEntersTheHandler : Prop :=
  ∀ (s : State) (c : SCond) (code : BitVec 16) (lvl : Level) (f : Nat), s.grp.holds c = true →
    let x : TrapInfo := { code := 6, detail := code.toNat, pc := s.grp.pc + 8 }
    (s.drained (s.slotsOf s.grp.member) = true → TrapGoesTo s lvl f → (s.fnAt f).tven = true →
        Runs (.trap c code) s (TrapEntered s lvl f x))
    ∧ (s.drained (s.slotsOf s.grp.member) = false → Runs (.trap c code) s (fun t =>
        OnlyGroup s t { s.grp with pc := s.grp.pc + 8, far := 0, wait := .trap x }))
    ∧ (s.drained (s.slotsOf s.grp.member) = true → TrapGoesTo s lvl f → (s.fnAt f).tven = false →
        exec (.trap c code) s = .next (s.advance.endLaunch s.wg.launch 38))
    ∧ (s.drained (s.slotsOf s.grp.member) = true → s.grp.lvl = .hypervisor →
        exec (.trap c code) s = .next (s.advance.endLaunch s.wg.launch 10))

/-- R351 to R355, R359: every trap of the word at the PC, raised when the group's earlier accesses are performed and the handler
is enabled, saves the PC of that word, the registers, the flags and the level, and enters the handler; `tret` restores what the
last trap saved: the PC, or the next word's with `.skip`, the scalar and mask registers (m0 within the member mask), the flags
and the level, and gives the level's segments, and a restored PC that is no multiple of 8 raises MISALIGNED_PC in the context so
resumed; before it waits for the group's earlier accesses. -/
def Obligations.TrapsSaveAndTrapReturnRestores : Prop :=
  (∀ (s : State) (code lane addr detail : Nat) (lvl : Level) (f : Nat),
      s.drained (s.slotsOf s.grp.member) = true → TrapGoesTo s lvl f → (s.fnAt f).tven = true →
      TrapEntered s lvl f { code := code, lane := lane, addr := addr, detail := detail, pc := s.grp.pc }
        (s.trap code lane addr detail))
  ∧ (∀ (s : State) (skip : Bool) (sv : Saved) (rest : List Saved), s.grp.saved = sv :: rest →
      let pc := if skip then sv.pc + 8 else sv.pc
      s.drained (s.slotsOf s.grp.member) = true →
      (pc.toNat % 8 = 0 → Runs (.tret skip) s (Resumed s sv rest pc))
      ∧ (pc.toNat % 8 ≠ 0 → ∃ u, Resumed s sv rest pc u
          ∧ exec (.tret skip) s = .next (u.trap tMisalignedPc 0 pc.toNat 2)
          ∧ ∀ lvl f, TrapGoesTo u lvl f → (u.fnAt f).tven = true →
              TrapEntered u lvl f { code := tMisalignedPc, addr := pc.toNat, detail := 2, pc := pc }
                (u.trap tMisalignedPc 0 pc.toNat 2)))
  ∧ (∀ (s : State) (skip : Bool), s.drained (s.slotsOf s.grp.member) = false →
      exec (.tret skip) s = .next (s.setWait (.drain (s.slotsOf s.grp.member) none)))

/-! ### Memory accesses -/

/-- R184, R185, R188, R190, R196, R237, R239, R253, R254, R256: the record forms and the direct scratchpad forms of loads, stores,
atomics and reductions. Whether requests are performed as they issue is the model's field `prompt` and what is on its way
(notes/assumptions 5, 55), which the statement leaves free; that ld.acq waits is notes/assumptions 12 (DEDUCED). -/
def Obligations.RecordAndScratchpadFormsRun : Prop :=
  ∀ (s : State) (ty : Ty) (a : AOp) (o : RecOp) (x : AtomRec) (p : ScrOp) (q : AtomScr),
    RecordFormRuns s (.ld ty o) { kind := .load, ty := ty, dst := o.a, rep := o.rep, sels := [0, 1, 2, 6, 7] }
      o.m o.b o.buf o.off.toInt
    ∧ RecordFormRuns s (.st ty o) { kind := .store, ty := ty, dst := o.a, rep := o.rep, sels := [1, 2, 6, 7] }
      o.m o.b o.buf o.off.toInt
    ∧ RecordFormRuns s (.ldAcq ty o)
      { kind := .load, ty := ty, dst := o.a, rep := o.rep, sels := [1, 2, 6, 7], acq := true } o.m o.b o.buf o.off.toInt
    ∧ RecordFormRuns s (.stRel ty o)
      { kind := .store, ty := ty, dst := o.a, rep := o.rep, sels := [1, 2, 6, 7], rel := true } o.m o.b o.buf o.off.toInt
    ∧ RecordFormRuns s (.atom a ty x) { kind := .atom a, ty := ty, dst := x.a, rep := x.rep, sels := [1, 2, 4, 6] }
      x.m x.b x.buf x.off.toInt
    ∧ RecordFormRuns s (.red a ty x) { kind := .red a, ty := ty, dst := x.a, rep := x.rep, sels := [1, 2, 4, 6] }
      x.m x.b x.buf x.off.toInt
    ∧ ScratchFormRuns s (.lds ty p) { kind := .load, ty := ty, dst := p.a } p.m p.b p.off.toInt
    ∧ ScratchFormRuns s (.sts ty p) { kind := .store, ty := ty, dst := p.a } p.m p.b p.off.toInt
    ∧ ScratchFormRuns s (.atoms a ty q) { kind := .atom a, ty := ty, dst := q.a } q.m q.b q.off.toInt
    ∧ ScratchFormRuns s (.reds a ty q) { kind := .red a, ty := ty, dst := q.a } q.m q.b q.off.toInt

/-- R185, R254: completing an access writes exactly its data register and report mask. -/
def Obligations.CompletionWritesDataAndReport : Prop :=
  ∀ (s : State) (op : MemOp) (got : List LaneAcc), RowsApart s → tyRegOk s.wg.n op.ty op.dst = true →
    Completed s op got (s.complete op got)

/-- R188, R192: `lds` gives each executing lane the scratchpad bytes at its address, zero- or sign-extended. -/
def Obligations.ScratchpadLoadReturnsItsBytes : Prop :=
  ∀ (s : State) (ty : Ty) (o : ScrOp) (op : MemOp), RowsApart s →
    s.scrCheck { kind := .load, ty := ty, dst := o.a } o.m o.b o.off.toInt = .go op →
    s.released (s.slotsOf (s.exe o.m)) = true → s.scrPoison op = none → s.allPresent op = true →
    s.scrBehind op (s.reqCtr + 1) = false → Does (.lds ty o) s (fun t =>
      (∀ l, l < 32 → (s.exe o.m).getLsbD l = true → HasRegs s l →
        t.lval ty l o.a.toNat = extendLoad ty (BitVec.ofNat 64
          (readN s.core.scratch ((s.segOf 2).base + ((s.lreg l o.b.toNat).toNat + o.off.toInt).toNat) (memWidth ty))))
      ∧ t.core.scratch = s.core.scratch ∧ t.mem = s.mem ∧ t.grp.pc = s.grp.pc + 8 ∧ t.grp.s = s.grp.s ∧ t.grp.m = s.grp.m
      ∧ t.grp.flags = s.grp.flags)

/-- R188, R190, R192: `sts` writes each executing lane's bytes at its address of the workgroup's scratchpad, the highest lane
last, and no other byte of it, no memory and no register. -/
def Obligations.ScratchpadStoreWritesItsBytes : Prop :=
  ∀ (s : State) (ty : Ty) (o : ScrOp) (op : MemOp),
    s.scrCheck { kind := .store, ty := ty, dst := o.a } o.m o.b o.off.toInt = .go op → s.allPresent op = true →
    s.scrBehind op (s.reqCtr + 1) = false → s.fencesMet (s.slotsOf (s.exe o.m)) = true →
    let at_ := fun (l : Nat) => (s.segOf 2).base + ((s.lreg l o.b.toNat).toNat + o.off.toInt).toNat
    let w := memWidth ty
    Runs (.sts ty o) s (fun t =>
      (∀ a, (∀ l ∈ lanesOf (s.exe o.m), a < at_ l ∨ at_ l + w ≤ a) →
        memRead t.core.scratch a = memRead s.core.scratch a)
      ∧ (∀ l ∈ lanesOf (s.exe o.m), (∀ i ∈ lanesOf (s.exe o.m), l < i → at_ i + w ≤ at_ l ∨ at_ l + w ≤ at_ i) →
          readN t.core.scratch (at_ l) w = (s.lval ty l o.a.toNat).toNat % 256 ^ w)
      ∧ t.mem = s.mem ∧ t.core.rf = s.core.rf ∧ t.grp.hregs = s.grp.hregs ∧ t.grp.pc = s.grp.pc + 8 ∧ t.grp.s = s.grp.s
      ∧ t.grp.m = s.grp.m ∧ t.grp.flags = s.grp.flags)

/-- R235, R251, R252, R254: what a lane's operation and a line's request do at their home, with no checkpoint, dirty tracking or
accumulator about: a store writes its bytes; an atomic returns the bytes as they were and writes the new value; a reduction
writes the new value; every other byte of memory is as before, and a load changes none. -/
def Obligations.LaneOperationsAtTheHome : Prop :=
  ∀ (s : State) (r : Req) (i : LaneAcc) (op : AOp), Quiet s → r.tray = false →
    let w := memWidth r.ty
    let old := BitVec.ofNat 64 (readN s.mem i.addr w)
    (r.kind = .store → (s.lanePerform r i).1.mem = writeN s.mem i.addr w i.val.toNat)
    ∧ (r.kind = .atom op → (s.lanePerform r i).2 = old
        ∧ (s.lanePerform r i).1.mem = writeN s.mem i.addr w (atomNew op r.ty old i.val i.val2).toNat)
    ∧ (r.kind = .red op → r.rwin = false →
        (s.lanePerform r i).1.mem = writeN s.mem i.addr w (atomNew op r.ty old i.val 0).toNat)
    ∧ (r.kind = .load → (s.lanePerform r i).1.mem = s.mem
        ∧ (r.acq = true → (s.lanePerform r i).2 = BitVec.ofNat 64 (readN s.mem i.addr w)))
    ∧ (s.assigned (r.line * 128) = true → s.linePoison r.line = false →
        let t := (s.performReq r).1
        (r.kind = .load → t.mem = s.mem)
        ∧ (r.kind = .store → t.mem = r.items.foldl (fun m x => writeN m x.addr w x.val.toNat) s.mem)
        ∧ (∀ a, (∀ x ∈ r.items, a < x.addr ∨ x.addr + w ≤ a) → r.rwin = false → memRead t.mem a = memRead s.mem a))

/-- R3, R179: a number stored in `n` bytes reads back modulo 256^n, little-endian, and every other byte is as before; the record
that `brec` forms from the 128 bits that `brrd` reads is the record itself, when its fields fit. -/
def Obligations.StoredNumbersAndRecordsReadBack : Prop :=
  (∀ (m : Memory) (a n v : Nat), Memory.wf m = true →
    readN (writeN m a n v) a n = v % 256 ^ n ∧ Memory.wf (writeN m a n v) = true
    ∧ (∀ b, b < a ∨ a + n ≤ b → memRead (writeN m a n v) b = memRead m b)
    ∧ (∀ k, k < n → memRead (writeN m a n v) (a + k) = BitVec.ofNat 8 (v / 256 ^ k)))
  ∧ ∀ r : BufRec, r.base < 2 ^ 52 → r.stride < 2 ^ 24 → r.extent < 2 ^ 32 → r.esize < 8 → r.swz < 8 → r.sel < 8 →
    BufRec.ofNat r.toNat = r ∧ r.toNat < 2 ^ 122

/-- R251, R252 with Table 11.2: the new value of each atomic operation for each of its types, from the old value, the operand and
cas's new value. -/
def Obligations.AtomicOperationsComputeTheTable : Prop :=
  ∀ (old x y : Word) (a b c : DWord),
    let N := fun (op : AOp) (t : Ty) => lo32 (atomNew op t (old.setWidth 64) (x.setWidth 64) (y.setWidth 64))
    let D := fun (op : AOp) (t : Ty) => atomNew op t a b c
    let halves := fun (f : FVal → FVal → FVal) => packedF .bf16x2 (fun i =>
      roundV .bf16x2 .rne 0 false (f (elemF .bf16x2 old i) (elemF .bf16x2 x i)))
    ((∀ t ∈ [Ty.s32, .n32], N .add t = old + x ∧ N .sub t = old - x) ∧ N .and .b32 = old &&& x ∧ N .or .b32 = old ||| x
      ∧ N .xor .b32 = old ^^^ x ∧ N .exch .b32 = x ∧ N .cas .b32 = (if old = x then y else old)
      ∧ N .min .s32 = (if old.toInt ≤ x.toInt then old else x) ∧ N .max .s32 = (if old.toInt ≤ x.toInt then x else old)
      ∧ N .min .n32 = (if old.toNat ≤ x.toNat then old else x) ∧ N .max .n32 = (if old.toNat ≤ x.toNat then x else old)
      ∧ N .incWrap .n32 = (if x.toNat ≤ old.toNat then 0 else old + 1)
      ∧ N .decWrap .n32 = (if old = 0 ∨ x.toNat < old.toNat then x else old - 1))
    ∧ ((∀ t ∈ [Ty.s64, .n64], D .add t = a + b ∧ D .sub t = a - b) ∧ D .and .b64 = a &&& b ∧ D .or .b64 = a ||| b ∧ D .xor .b64 = a ^^^ b
      ∧ D .exch .b64 = b ∧ D .cas .b64 = (if a = b then c else a)
      ∧ D .min .s64 = (if a.toInt ≤ b.toInt then a else b) ∧ D .max .s64 = (if a.toInt ≤ b.toInt then b else a)
      ∧ D .min .n64 = (if a.toNat ≤ b.toNat then a else b) ∧ D .max .n64 = (if a.toNat ≤ b.toNat then b else a))
    ∧ (N .fadd .f32 = toF32 .rne (addV .rne (f32 old) (f32 x))
      ∧ N .fmin .f32 = toF32 .rne (minMaxV false false (f32 old) (f32 x))
      ∧ N .fmax .f32 = toF32 .rne (minMaxV true false (f32 old) (f32 x))
      ∧ N .fadd .bf16x2 = halves (addV .rne) ∧ N .fmin .bf16x2 = halves (minMaxV false false)
      ∧ N .fmax .bf16x2 = halves (minMaxV true false))

/-- R193, R380, R398: `ldw` and `stw` through seg.peer are performed at the member's scratchpad as a scratchpad access is; through
seg.map they read and write the map's bytes as they stand, wait where their ordering role does, trap where the crossbar denies them,
and lose their launch where the path is lost. Bytes without a layout are free values (notes/assumptions 7). -/
def Obligations.WindowAccessesRun : Prop :=
  ∀ (s : State) (ty : Ty) (o : RecOp),
    let u := opened s o.buf
    let ldF : Form := { kind := .load, ty := ty, dst := o.a, rep := o.rep, sels := [4, 5] }
    let stF : Form := { kind := .store, ty := ty, dst := o.a, rep := o.rep, sels := [4, 5] }
    let answers := fun (op : MemOp) => u.bankWait op = none ∧ ∀ i ∈ op.items, i.pass = true →
      u.mapPath u.wg.fn u.cur.h (u.cur.c / 8) i.addr = true ∧ u.mapLost u.cur.h u.wg.launch i.addr = false
    let stops := fun (i : Instr) (op : MemOp) =>
      (∀ w, u.bankWait op = some w → exec i s = .next (u.setWait w))
      ∧ (u.bankWait op = none → ∀ x, op.items.find? (fun x => x.pass && !x.helper
          && !(u.mapPath u.wg.fn u.cur.h (u.cur.c / 8) x.addr)) = some x → exec i s = .next (u.trap tAccess x.lane x.off))
      ∧ (u.bankWait op = none → (∀ x ∈ op.items, x.pass = true → u.mapPath u.wg.fn u.cur.h (u.cur.c / 8) x.addr = true) →
          (∃ x ∈ op.items, x.pass = true ∧ u.mapLost u.cur.h u.wg.launch x.addr = true) →
          exec i s = .next (u.lose u.wg.launch stPathLost))
    (s.exe o.m = 0 → Runs (.ldw ty o) s (Skipped u) ∧ Runs (.stw ty o) s (Skipped u))
    ∧ (∀ op, u.recCheck ldF o.m o.b o.buf o.off.toInt = .go op →
        (op.space = .peer → ScratchGoes s (.ldw ty o) u op)
        ∧ (op.space = .map → stops (.ldw ty o) op)
        ∧ (op.space = .map → answers op →
          Runs (.ldw ty o) s (fun t => t = State.complete { u with freeCtr := u.freeCtr + 1 } op (op.items.map (fun i =>
            { i with val := if i.pass then
                BitVec.ofNat 64 (u.mapReadN (u.grp.lvl == .hypervisor) i.addr (memWidth ty)) else 0 })))))
    ∧ (∀ op, u.recCheck stF o.m o.b o.buf o.off.toInt = .go op →
        (op.space = .peer → ScratchGoes s (.stw ty o) u op)
        ∧ (op.space = .map → stops (.stw ty o) op)
        ∧ (op.space = .map → answers op →
          Runs (.stw ty o) s (fun t => t = ((op.parts.foldl (fun t i =>
            t.mapWrite i.addr (memWidth ty) i.val.toNat) u).mapHeal op).complete op [])))

/-- R194: `ldacc` reads the accumulators once every operation that the workgroup placed in qm has completed, and its threads' earlier
releases have taken effect (R239; notes/assumptions 12, DEDUCED), and parks before; each passing lane receives the word at its
address. -/
def Obligations.AccumulatorLoadReadsAfterTheQueue : Prop :=
  ∀ (s : State) (ty : Ty) (o : ScrOp) (op : MemOp),
    s.accCheck { kind := .load, ty := ty, dst := o.a } o.m o.b o.off.toInt = .go op →
    let ready := s.wg.qm.accn ≤ s.wg.qm.donen ∧ s.released (s.slotsOf op.exe) = true
    (ready → Runs (.ldacc ty o) s (fun t => t = s.acquire.complete op (op.items.map (fun i =>
        { i with val := if i.pass then (mget 0 s.core.engine.acc (i.addr / 4)).setWidth 64 else 0 }))))
    ∧ (¬ ready → Runs (.ldacc ty o) s (fun t => t = s.setWait (.ldacc op s.wg.qm.accn)))

/-- R195, R191, R197, R182: `prf` changes no register and no scratchpad byte, and, where its pages' translations are cached, no byte of
memory; `present` reports each executing lane whether its
line is present; `fence` goes on once its accesses are done and waits before; `brec` and `brrd` write and read a record. Whether
prf fills the L1 is a free value (notes/assumptions 6). -/
def Obligations.HintsFencesAndRecordsRun : Prop :=
  ∀ (s : State) (ty : Ty) (m d : MReg) (a b : Reg) (buf : BufR) (off : BitVec 15) (mode : FenceMode),
    (Runs (.prf ty m b buf off) s (fun t => t.core.rf = s.core.rf ∧ t.core.scratch = s.core.scratch
      ∧ t.grp.pc = s.grp.pc + 8 ∧ t.grp.s = s.grp.s ∧ t.grp.m = s.grp.m ∧ t.grp.hregs = s.grp.hregs ∧ t.grp.flags = s.grp.flags
      ∧ (Quiet s → (∀ va ∈ s.prfAddrs ty m b buf off.toInt, s.lookup s.accFn va { r := true } ≠ none) →
          t.mem = s.mem ∧ t.fns = s.fns)))
    ∧ (s.exe m ≠ 0 → (s.segOf 2).valid = true → s.released (s.slotsOf (s.exe m)) = true →
        let x := fun (l : Nat) => (s.lreg l b.toNat).toNat + off.toInt
        (∀ l ∈ lanesOf (s.exe m), 0 ≤ x l ∧ x l < (s.segOf 2).size) →
        Runs (.present m d b off) s (fun t =>
          (∀ l, l < 32 → (s.exe m).getLsbD l = true → d ≠ 0 → (t.grp.mreg d.toNat).getLsbD l
              = !(s.core.absent.contains (((s.segOf 2).base + (x l).toNat) / 128)))
          ∧ t.grp.pc = s.grp.pc + 8 ∧ t.mem = s.mem ∧ t.core.rf = s.core.rf ∧ t.core.absent = s.core.absent))
    ∧ (s.exe m = 0 ∨ s.fenceDone mode (s.slotsOf (s.exe m)) = true → Runs (.fence m mode) s (fun t =>
        t.grp.pc = s.grp.pc + 8 ∧ t.mem = s.mem ∧ t.core.rf = s.core.rf ∧ t.grp.s = s.grp.s ∧ t.grp.m = s.grp.m))
    ∧ (s.exe m ≠ 0 → s.fenceDone mode (s.slotsOf (s.exe m)) = false →
        Runs (.fence m mode) s (fun t => OnlyGroup s t { s.grp with wait := .fence mode (s.exe m) }))
    ∧ (s.exe m ≠ 0 →
        let first := ∃ g, mfind s.wg.kw (65 + buf.toNat) = some (s.cycles s.cur.h, g) ∧ g < s.cur.g
        (¬ first → Runs (.brec m buf a) s (fun t => OnlyWg s t { s.wg with
            b := mset s.wg.b buf.toNat (BufRec.ofNat (s.lquad (lowest (s.exe m)) a.toNat))
            kw := mset s.wg.kw (65 + buf.toNat) (s.cycles s.cur.h, s.cur.g) }
          { s.grp with pc := s.grp.pc + 8, far := 0 }))
        ∧ (first → Runs (.brec m buf a) s (fun t => OnlyGroup s t { s.grp with pc := s.grp.pc + 8, far := 0 })))
    ∧ (RowsApart s → Does (.brrd m a buf) s (WroteQuad s m a (fun _ => (mget {} s.wg.b buf.toNat).toNat)))

/-- R232, R184, R214: `lease.q` and `lease.renew` complete from every state in which their checks pass and no clock is at fault: each
passing lane receives its page's value, one for the lanes of a page, and each other lane 0. A check that fails traps, no executing
lane skips, a clock at fault makes the group wait, and a walk over a fenced link loses the launch (R398). Where the walks meet clean entries and no accumulator is about, the value of
`lease.q` is each page's reuse horizon and the walks leave memory, caches and functions alone; and `lease.renew` of a page gives the
expiry of its fresh translation, installs that in both caches and writes the walk's marks, or gives 0 and installs nothing. -/
def Obligations.LeaseInstructionsRun : Prop :=
  ∀ (s : State) (m : MReg) (a b : Reg) (buf : BufR) (off : BitVec 15),
    let lq := Instr.leaseQ m a b buf off
    let lr := Instr.leaseRenew m a b buf off
    let chk := s.recCheck (leaseForm a) m b buf off.toInt
    let fault := s.faulty (coreKey s.cur.h s.cur.c) || s.faulty (512 + s.cur.h)
    (s.exe m = 0 → Runs lq s (Skipped s) ∧ Runs lr s (Skipped s))
    ∧ (∀ code l x, chk = .trap code l x → exec lq s = .next (s.trap code l x) ∧ exec lr s = .next (s.trap code l x))
    ∧ ∀ op, chk = .go op →
      let page := fun (i : LaneAcc) => i.addr / 65536
      let walk := fun (n : Nat) (need : Need) => (s.uncached s.cur.h).walkFull s.cur.h s.accFn (n * 65536) need
      let lost := fun (x : LaneAcc) => s.queryLost s.accFn x.addr
      (fault = true → exec lq s = .next (s.setWait (.walk true)) ∧ exec lr s = .next (s.setWait (.walk true)))
      ∧ (fault = false → (∃ x ∈ op.items, x.pass = true ∧ lost x = true) →
          exec lq s = .next (s.lose s.wg.launch stPathLost) ∧ exec lr s = .next (s.lose s.wg.launch stPathLost))
      ∧ (fault = false → (∀ x ∈ op.items, x.pass = true → lost x = false) → RowsApart s →
        (∀ i ∈ [lq, lr], Does i s (fun t => ∃ val, PairsGot s (s.live m) a val t
          ∧ (∀ x ∈ op.items, x.pass = false → val x.lane = 0)
          ∧ ∀ x ∈ op.items, ∀ y ∈ op.items, x.pass = true → y.pass = true → page x = page y → val x.lane = val y.lane))
        ∧ (Quiet s → (∀ x ∈ op.items, x.pass = true → CleanWalk s s.accFn (walk (page x) {})) →
          Does lq s (fun t => PairsGot s (s.live m) a (fun l => match op.items.find? (fun x => x.lane == l && x.pass) with
              | some x => s.horizonOf (walk (page x) {})
              | none => 0) t
            ∧ t.mem = s.mem ∧ t.hums = s.hums ∧ t.fns = s.fns ∧ t.core.tlb = s.core.tlb))
        ∧ ∀ n, (∃ x ∈ op.items, x.pass = true) → (∀ x ∈ op.items, x.pass = true → page x = n) → Quiet s →
          CleanWalk s s.accFn (walk n { r := true }) →
          let got := fun (v l : Nat) => if op.items.any (fun x => x.lane == l && x.pass) then v else 0
          (s.pageDeclared op (n * 65536) = true → ∀ e upd, (walk n { r := true }).res = .ok e upd →
            Does lr s (fun t => PairsGot s (s.live m) a (got e.expiry) t ∧ (e.cls ≠ 0 → e ∈ t.core.tlb ∧ e ∈ t.hum.tlb)
              ∧ t.mem = upd.foldl (fun x u => writeN x u.1 8 u.2) s.mem))
          ∧ (s.pageDeclared op (n * 65536) = false ∨ (∀ e upd, (walk n { r := true }).res ≠ .ok e upd) →
            Does lr s (fun t => PairsGot s (s.live m) a (got 0) t ∧ t.mem = s.mem ∧ t.core.tlb = s.core.tlb ∧ t.hum.tlb = s.hum.tlb)))

/-! ### Barriers, convergence registers and channels -/

/-- R271 to R277: the barrier instructions. With no executing lane each only advances; an undeclared barrier raises BAR_USE and
a broken one BAR_BROKEN; arrivals are counted and marked once the lanes' earlier accesses are performed, and one that the crossbar
denies is dropped (R380); a wait goes on where every lane's condition holds and waits on the conditions otherwise; `bar.exp` adds to
PENDING, `bar.test` and `bar.ph` report. That the acquiring forms, `bar.test` and `bar.ph` among them, first wait for the lanes'
earlier releases rests on R239 as notes/assumptions 12 reads it (DEDUCED). -/
def Obligations.BarrierInstructionsRun : Prop :=
  ∀ (s : State) (m d : MReg) (bar : BarR) (a : Reg) (p : Option Reg),
    let e := s.exe m
    let ls := lanesOf e
    let n := bar.toNat
    let b := s.bar n
    let counts := fun (l : Nat) => s.mustCount n l
    let past := fun (l : Nat) => b.dormant = true ∨ (match p with
      | some r => 1 ≤ (b.phcnt - s.lreg l r.toNat).toNat ∧ (b.phcnt - s.lreg l r.toNat).toNat ≤ 2 ^ 31
      | none => (s.arrOf l).isMember n = true ∧ (s.arrOf l).arrivedAt n b.phcnt = false)
    let cond := fun (l : Nat) => match p with
      | some r => some (l, BarCond.phase (s.lreg l r.toNat))
      | none => if b.dormant = true ∨ ((s.arrOf l).isMember n = true ∧ (s.arrOf l).arrivedAt n b.phcnt = false) then none
          else some (l, BarCond.changed b.phcnt)
    let all := [Instr.barArr m bar, .barArw m bar, .barWait m bar p, .barExp m bar a, .barTest m d bar p, .barPh m a bar]
    (e = 0 → ∀ i ∈ all, Runs i s (fun t => OnlyGroup s t { s.grp with pc := s.grp.pc + 8, far := 0 }))
    ∧ (e ≠ 0 → b.valid = false → ∀ i ∈ all, exec i s = .next (s.trap tBarUse))
    ∧ (e ≠ 0 → b.valid = true → b.broken = true →
        ∀ i ∈ [Instr.barArr m bar, .barArw m bar, .barWait m bar p, .barExp m bar a], exec i s = .next (s.trap tBarBroken))
    ∧ (e ≠ 0 → b.valid = true → b.broken = false →
        -- an acquire follows the lanes' earlier releases, an arrival their earlier accesses
        (s.released (s.slotsOf e) = false → ∀ i ∈ [Instr.barArw m bar, .barWait m bar p],
          exec i s = .next (s.setWait (.order (s.slotsOf e))))
        ∧ (s.drained (s.slotsOf e) = false →
          exec (.barArr m bar) s = .next (s.setWait (.barArr n e 0 false none []))
          ∧ (s.released (s.slotsOf e) = true → exec (.barArw m bar) s = .next (s.setWait (.barArr n e 0 true none []))))
        ∧ (s.drained (s.slotsOf e) = true → (∀ l ∈ ls, s.mustHold n l = false) →
            let t := s.arrive n ls
            exec (.barArr m bar) s = .next t.endMem.inherit
            ∧ (s.released (s.slotsOf e) = true → b.dormant = true → exec (.barArw m bar) s = .next t.waitEnd)
            ∧ (s.released (s.slotsOf e) = true → b.dormant = false → exec (.barArw m bar) s = .next
                (t.setWait (.barWait n (maskOf (ls.filter counts)) (ls.map (fun l => (l, .phase b.phcnt))))).inherit)
            ∧ (t.bar n).arrived = b.arrived + (ls.filter counts).length ∧ (t.bar n).phcnt = b.phcnt
            ∧ (∀ l ∈ ls, counts l = true → (t.arrOf l).arrivedAt n b.phcnt = true)
            ∧ (s.barReach s.cur.h s.cur.c s.grp.wgs n = true → t.mem = s.mem)
            ∧ (s.barReach s.cur.h s.cur.c s.grp.wgs n = false → (∃ l ∈ ls, s.toCount n l = true) →
                t = s.barDenied s.cur.h s.cur.c s.grp.wgs))
        -- waits
        ∧ (s.released (s.slotsOf e) = true → (∀ l ∈ ls, past l) → exec (.barWait m bar p) s = .next s.waitEnd)
        ∧ (s.released (s.slotsOf e) = true → (∃ l ∈ ls, ¬ past l) →
            exec (.barWait m bar p) s = .next (s.setWait (.barWait n 0 (ls.filterMap cond))).inherit)
        -- expected contributions
        ∧ (let sum : Int := ls.foldl (fun x l => x + (s.lreg l a.toNat).toNat) 0
           (b.pending + sum ≤ 2 ^ 47 - 1 → Does (.barExp m bar a) s (fun t =>
              (t.bar n).pending = b.pending + sum ∧ (t.bar n).arrived = b.arrived ∧ (t.bar n).phcnt = b.phcnt
              ∧ t.mem = s.mem ∧ t.core.rf = s.core.rf ∧ t.grp = { s.grp with pc := s.grp.pc + 8, far := 0 }))
           ∧ (2 ^ 47 - 1 < b.pending + sum → exec (.barExp m bar a) s = .next (s.trap tBarUse))))
    -- reports, of a broken barrier too
    ∧ (e ≠ 0 → b.valid = true → s.released (s.slotsOf e) = false → ∀ i ∈ [Instr.barTest m d bar p, .barPh m a bar],
        exec i s = .next (s.setWait (.order (s.slotsOf e))))
    ∧ (e ≠ 0 → b.valid = true → s.released (s.slotsOf e) = true →
        Runs (.barTest m d bar p) s (fun t =>
          (∀ l, l < 32 → ((t.grp.mreg d.toNat).getLsbD l = true ↔
            (if e.getLsbD l = true then b.broken = false ∧ past l else (s.grp.mreg d.toNat).getLsbD l = true)
              ∧ (d ≠ 0 ∨ s.grp.member.getLsbD l = true)))
          ∧ (∀ i, i ≠ d.toNat → t.grp.mreg i = s.grp.mreg i)
          ∧ t.mem = s.mem ∧ t.core.rf = s.core.rf ∧ t.grp.s = s.grp.s ∧ t.grp.pc = s.grp.pc + 8)
        ∧ (RowsApart s → Does (.barPh m a bar) s (fun t =>
            let st := fun (l : Nat) =>
              b2n b.broken + 2 * b2n (s.grp.member.getLsbD l && (s.arrOf l).isMember n)
                + 4 * b2n (s.grp.member.getLsbD l && (s.arrOf l).arrivedAt n b.phcnt) + 8 * b2n b.dormant
            (∀ l k, HasRegs s l → k < s.wg.n → t.lreg l k =
              if (s.live m).getLsbD l = true ∧ k = a.toNat then b.phcnt
              else if (s.live m).getLsbD l = true ∧ k = a.toNat + 1 then BitVec.ofNat 32 (st l) else s.lreg l k)
            ∧ t.mem = s.mem ∧ t.grp.s = s.grp.s ∧ t.grp.m = s.grp.m ∧ t.grp.pc = s.grp.pc + 8)))

/-- R281 to R288: `cvdecl` sets the size of an unsigned convergence register, unless a group of a lower number has declared it
in this core cycle; `cvq` and `chq` read states; `send` fills the next
slot of its receiver and `recv` takes the slot at HEAD, each waiting while there is none; the end of the other workgroup raises
CH_BROKEN, a wrong end CH_USE. A send to a workgroup not yet placed waits by notes/assumptions 38, and a `recv` waits for its threads'
earlier releases by R239 as notes/assumptions 12 reads it (both DEDUCED). -/
def Obligations.ConvergenceAndChannelInstructionsRun : Prop :=
  ∀ (s : State) (m : MReg) (cv : BitVec 3) (size : CvSize) (a : Reg) (ch : BitVec 4),
    let e := s.exe m
    let c : Cv := mget {} s.wg.cvs cv.toNat
    let n := match size with
      | .imm k => k.toNat
      | .reg b => (s.lreg (lowest e) b.toNat).toNat
    let q := s.chan ch.toNat
    let adv := { s.grp with pc := s.grp.pc + 8, far := 0 }
    (e = 0 → Runs (.cvdecl m cv size) s (fun t => OnlyGroup s t adv))
    ∧ (e ≠ 0 → (n < 1 ∨ 1024 < n ∨ c.signed ≠ 0) → exec (.cvdecl m cv size) s = .next (s.trap tCvState))
    ∧ (e ≠ 0 → 1 ≤ n → n ≤ 1024 → c.signed = 0 →
        let first := ∃ g, mfind s.wg.kw (97 + cv.toNat) = some (s.cycles s.cur.h, g) ∧ g < s.cur.g
        (¬ first → Runs (.cvdecl m cv size) s (fun t => OnlyWg s t { s.wg with
            cvs := mset s.wg.cvs cv.toNat { c with size := n }
            kw := mset s.wg.kw (97 + cv.toNat) (s.cycles s.cur.h, s.cur.g) } adv))
        ∧ (first → Runs (.cvdecl m cv size) s (fun t => OnlyGroup s t adv)))
    ∧ (RowsApart s → Does (.cvq m a cv) s (Wrote64 s m a (fun _ =>
        BitVec.ofNat 64 (c.size + c.signed * 2 ^ 16 + c.gen % 2 ^ 32 * 2 ^ 32))))
    ∧ (RowsApart s → Does (.chq m a ch) s (Wrote32 s m a (fun _ => BitVec.ofNat 32
        (q.slots % 128 + q.full % 128 * 2 ^ 7 + b2n q.peerEnded * 2 ^ 14 + b2n q.snd * 2 ^ 15 + b2n q.rcv * 2 ^ 16))))
    ∧ (q.snd = false → exec (.send m ch a) s = .next (s.trap tChUse))
    ∧ (q.rcv = false → exec (.recv m a ch) s = .next (s.trap tChUse))
    ∧ (q.snd = true → e = 0 → Runs (.send m ch a) s (fun t => OnlyGroup s t adv))
    ∧ (q.rcv = true → e = 0 → Runs (.recv m a ch) s (fun t => OnlyGroup s t adv))
    ∧ (q.snd = true → e ≠ 0 →
        let words := (List.range 32).map (fun l => if e.getLsbD l then s.lreg l a.toNat else 0)
        (q.peerEnded = true → exec (.send m ch a) s = .next (s.trap tChBroken))
        ∧ (q.peerEnded = false → s.canSend ch.toNat (s.slotsOf e) = false →
            exec (.send m ch a) s = .next (s.setWait (.send ch.toNat (s.slotsOf e) words)))
        ∧ (q.peerEnded = false → s.drained (s.slotsOf e) = true → q.full < q.slots →
            ∀ r, s.findWg s.wg.launch q.peer = some r →
              let rq : Chan := mget {} (mget ({} : Wg) (s.coreAt r.h r.c).wgs r.g).chans ch.toNat
              let line := rq.line0 + (rq.head + rq.full) % rq.slots
              Runs (.send m ch a) s (fun t =>
                (∀ l, l < 32 → readN (t.coreAt r.h r.c).scratch (line * 128 + 4 * l) 4
                  = (if e.getLsbD l then s.lreg l a.toNat else 0).toNat)
                ∧ t.mem = s.mem ∧ t.fns = s.fns ∧ t.grp.pc = s.grp.pc + 8 ∧ t.grp.s = s.grp.s ∧ t.grp.m = s.grp.m)))
    ∧ (q.rcv = true → e ≠ 0 →
        let rel := s.released (s.slotsOf e)
        (rel = false → exec (.recv m a ch) s = .next (s.setWait (.order (s.slotsOf e))))
        ∧ (rel = true → q.full = 0 → q.peerEnded = true → exec (.recv m a ch) s = .next (s.trap tChBroken))
        ∧ (rel = true → q.full = 0 → q.peerEnded = false →
            exec (.recv m a ch) s = .next (s.setWait (.recv ch.toNat a m)).inherit)
        ∧ (rel = true → q.full ≠ 0 → RowsApart s → Does (.recv m a ch) s (fun t =>
            (∀ l k, HasRegs s l → k < s.wg.n → t.lreg l k =
              if (s.live m).getLsbD l = true ∧ k = a.toNat
              then BitVec.ofNat 32 (readN s.core.scratch ((q.line0 + q.head) * 128 + 4 * l) 4) else s.lreg l k)
            ∧ t.chan ch.toNat = { q with full := q.full - 1, head := (q.head + 1) % q.slots, freed := if q.snd then q.freed else q.freed + 1 }
            ∧ t.mem = s.mem ∧ t.core.scratch = s.core.scratch ∧ t.grp.s = s.grp.s ∧ t.grp.m = s.grp.m
            ∧ t.grp.pc = s.grp.pc + 8)))

/-! ### Copies and matrix operations -/

/-- R291, R292, R302 to R315: the copy instructions: with their checks passed their operations are accepted as one event, and
else the trap of the first failing check is taken; `cfill` makes its lines absent until they are written, `cpa.flush` hands on
the open line operations, `qwait` reports and clears its queue's flags once everything placed has completed, no group of a lower
number can read them first, and its threads' earlier releases have taken effect (R239; notes/assumptions 12). The bounds of the
scratchpad sides are notes/assumptions 18 (both DEDUCED). -/
def Obligations.CopyInstructionsRun : Prop :=
  ∀ (s : State) (o : TileOp) (co : CpaOp) (m : MReg) (a b : Reg) (ty mt ct : Ty) (out tr fold mxs scale : Bool) (had : Had)
    (fill : Fill) (f : BitVec 6) (buf : BufR) (bar : BarR) (q slot : BitVec 2) (n : BitVec 8) (lines : BitVec 12)
    (qs : BitVec 5),
    let adv := { s.grp with pc := s.grp.pc + 8, far := 0 }
    let d := s.descRegs o.m o.a
    let rec_ : BufRec := mget {} s.wg.b o.buf.toNat
    let job := fun (opc : Nat) => s.newJob opc o.m o.q o.bar
    -- tile copies
    (let j := { job 0x64 with
       kind := .tile out tr mt ct (hadCode had) fold mxs, desc := descTcopy d.1 d.2.1 d.2.2.1 d.2.2.2
       mrec := rec_, mrec1 := if mxs then mget {} s.wg.b (o.buf.toNat + 1) else {} }
     TileIssued s (.tcopy o out tr mt ct had fold mxs) o.m j out (descTcopyOk (mxs || mt != ct) d.2.1 d.2.2.1 d.2.2.2))
    ∧ TileIssued s (.tgather o b ty fill) o.m { job 0x65 with
        kind := .gather (s.indices o.m b) ty (fillValue ty fill (mget 0 s.wg.k 63))
        desc := descRows d.1 d.2.1 d.2.2.1 d.2.2.2, mrec := rec_ } false (descRowsOk d.1 d.2.1 d.2.2.1 d.2.2.2)
    ∧ TileIssued s (.tscatter o b ty) o.m { job 0x66 with
        kind := .scatter (s.indices o.m b) ty
        desc := descRows d.1 d.2.1 d.2.2.1 d.2.2.2, mrec := rec_ } true (descRowsOk d.1 d.2.1 d.2.2.1 d.2.2.2)
    ∧ TileIssued s (.tpack o f ty fill) o.m { job 0x67 with
        kind := .pack (f.toNat + 1) ty (fillValue ty fill (mget 0 s.wg.k 63))
        desc := descPack d.1 d.2.1 d.2.2.1 d.2.2.2, mrec := rec_ } true (descPackOk (tyWidth ty) d.2.1 d.2.2.1 d.2.2.2)
    ∧ TileIssued s (.tunpack o f ty) o.m { job 0x68 with
        kind := .unpack (f.toNat + 1) ty
        desc := descPack d.1 d.2.1 d.2.2.1 d.2.2.2, mrec := rec_ } false (descPackOk (tyWidth ty) d.2.1 d.2.2.1 d.2.2.2)
    -- lane copies
    ∧ (∀ w i, (w, i) ∈ [(4, Instr.cpa4 co), (8, .cpa8 co), (16, .cpa16 co)] →
        let e := s.exe co.m
        let r : BufRec := mget {} s.wg.b co.buf.toNat
        let off := fun (l : Nat) => (((s.lreg l co.b.toNat).toNat * r.stride : Nat) : Int) + co.off.toInt
        let x := fun (l : Nat) => r.segOff (off l)
        let dst := fun (l : Nat) => (s.lreg l co.a.toNat).toNat
        (e = 0 → Runs i s (fun t => OnlyGroup s t adv))
        ∧ (e ≠ 0 → s.copyRec r false = false ∨ s.copyScr true = false →
            exec i s = .next (s.trap tAccess (lowest e) (x (lowest e))))
        ∧ (e ≠ 0 → s.copyRec r false = true → s.copyScr true = true → s.barMissing co.bar.toNat = true →
            exec i s = .next (s.trap tBarUse (lowest e)))
        ∧ (e ≠ 0 → s.copyRec r false = true → s.copyScr true = true → s.barMissing co.bar.toNat = false →
            (∀ l ∈ lanesOf e,
              (r.inb (off l) w = true → s.copyFits r.sel (x l) = true ∧ s.copyFits r.sel (x l + w - 1) = true
                ∧ ((s.segOf r.sel).base + x l) % w = 0)
              ∧ (r.inb (off l) w = false → r.zf = true) ∧ dst l + w ≤ (s.segOf 2).size ∧ dst l % w = 0) →
            CopyIssued s i (mergeLanes ((lanesOf e).map (fun l => { s.newJob 0xFF co.m co.q co.bar with
              kind := .lanes [{ lane := l, pass := r.inb (off l) w, off := (s.segOf 2).base + dst l,
                                addr := (if r.sel = 4 then 0 else (s.segOf r.sel).base) + x l, val := BitVec.ofNat 64 w }],
              mrec := { sel := r.sel }, segs := [] })))))
    ∧ ((s.exe m = 0 ∨ ∀ x ∈ s.core.coal, x.group ≠ s.cur.g) → Runs (.cpaFlush m) s (fun t => OnlyGroup s t adv))
    ∧ (s.exe m ≠ 0 → (∃ x ∈ s.core.coal, x.group = s.cur.g) →
        Runs (.cpaFlush m) s (fun t => t = (s.handOn s.cur.h s.cur.c).advance ∧ t.core.coal = []))
    -- model data, fills and fences
    ∧ (s.exe m ≠ 0 → s.wg.holds = true → (s.segOf 2).valid = true →
        let r : BufRec := mget {} s.wg.b buf.toNat
        let bytes := (n.toNat + 1) * 16
        let start := (s.lreg (lowest (s.exe m)) b.toNat).toNat
        s.copyRec r false = true → s.barMissing bar.toNat = false → start * r.stride + bytes ≤ r.stride * r.extent →
        s.copyFits r.sel ((r.base + start * r.stride) % 2 ^ 64) = true →
        s.copyFits r.sel ((r.base + (start * r.stride + bytes - 1)) % 2 ^ 64) = true →
        CopyIssued s (.mdcopy m b buf bar q slot scale n)
          [{ s.newJob 0x69 m q bar with kind := .side slot.toNat scale start bytes, mrec := r }])
    ∧ (s.exe m ≠ 0 → s.copyScr true = true → s.barMissing bar.toNat = false →
        let first := (s.lreg (lowest (s.exe m)) b.toNat).toNat
        (first + lines.toNat) * 128 ≤ (s.segOf 2).size →
        let j := { s.newJob 0x6A m q bar with kind := .fill first lines.toNat (s.lreg (lowest (s.exe m)) a.toNat) }
        CopyIssued s (.cfill m a b bar q lines) [j]
        ∧ ∀ k, k < lines.toNat → (s.segOf 2).base / 128 + first + k ∈ (s.acceptAll [j]).core.absent)
    ∧ (s.exe m ≠ 0 → CopyIssued s (.qfence m qs) [{ s.newJob 0x6B m 0 63 with kind := .fence qs.toNat }])
    ∧ (s.exe m = 0 → ∀ i ∈ [Instr.mdcopy m b buf bar q slot scale n, .cfill m a b bar q lines, .qfence m qs, .qwait m a q],
        Runs i s (fun t => OnlyGroup s t adv))
    ∧ (s.exe m ≠ 0 →
        let x := s.copyQ s.cur.h s.cur.c s.grp.wgs q.toNat
        let n := x.placed
        let done := s.queueDone s.cur.h s.cur.c s.grp.wgs q.toNat n && s.released (s.slotsOf (s.exe m)) && !(s.qwaitAhead q.toNat)
        (done = false →
          exec (.qwait m a q) s = .next (s.setWait (.qwait a m q.toNat n)))
        ∧ (done = true → RowsApart s → Does (.qwait m a q) s (fun t =>
            (∀ l k, HasRegs s l → k < s.wg.n → t.lreg l k =
              if (s.live m).getLsbD l = true ∧ k = a.toNat then BitVec.ofNat 32 (x.flags n)
              else if (s.live m).getLsbD l = true ∧ k = a.toNat + 1 then x.firstBad n else s.lreg l k)
            ∧ t.copyQ s.cur.h s.cur.c s.grp.wgs q.toNat = { x with
                was := {}, notes := x.notes.filter (fun e => decide (n ≤ e.1)) }
            ∧ t.mem = s.mem ∧ t.grp.s = s.grp.s ∧ t.grp.m = s.grp.m ∧ t.grp.pc = s.grp.pc + 8)))

/-- R282, R331, R332, R336 to R345: with its checks passed a matrix instruction signs the operation that its fields and
descriptor registers give; `mstat` reads the status of qm and a tile's flags, `mcfg` clears flags and, with F, the failure. The
grain of a step is notes/assumptions 37, the bound of `mtile`'s rows 18 and the lines of a C record in the scratchpad 54 (DEDUCED). -/
def Obligations.MatrixInstructionsRun : Prop :=
  ∀ (s : State) (m : MReg) (ta tb ty : Ty) (sp mx set f : Bool) (t sl q nt : BitVec 2) (a : Reg) (cv : BitVec 3)
    (tiles : BitVec 4) (fl : BitVec 3),
    let v := fun (i : Nat) => (s.lreg (lowest (s.exe m)) (a.toNat + i)).toNat
    let words := fun (w : DWord) (k : Nat) => s.operandSet m w a k
    let fits := fun (pline wl last : Nat) => (tileLine 0 pline wl last (wl - 1) + 1) * 128 ≤ s.scrSize
    let wB := pairKp ta tb * tyWidth tb / 1024
    let wA := pairKl ta tb sp * tyWidth ta / 1024
    -- `mld.st`
    ((matPair ta tb).isSome = true → v 0 < 2 ^ 12 → v 0 % 16 = 0 → fits (v 0) wB 127 →
        Signs s (.mldSt m ta tb a cv) m cv {
         opc := 0x80, kind := .ldSt ta tb (v 0), steps := 8,
         set := words (matWord 0x80 0 a cv (0#10 ++ tb.code ++ ta.code)) 1 })
    ∧ Signs s (.mswap m cv) m cv {
         opc := 0x81, kind := .swap, set := s.operandSet m (matWord 0x81 0 0 cv 0) 0 0 }
    ∧ Signs s (.maccZ m t cv) m cv {
         opc := 0x84, kind := .accZ t.toNat, steps := 8,
         set := s.operandSet m (matWord 0x84 0 0 cv (0#6 ++ t ++ 0#12)) 0 0 }
    -- `mstream`
    ∧ (let pline := bitsOf (v 0) 0 12
       let sline := bitsOf (v 0) 16 12
       let arow := bitsOf (v 1) 0 12
       let r := bitsOf (v 1) 16 8
       let crow := v 2
       comboOk ta tb mx sp = true →
       pline % 16 = 0 → v 0 = pline + sline * 2 ^ 16 → (mx = true ∨ sline = 0) → arow % 16 = 0 → v 1 = arow + r * 2 ^ 16 →
       16 ≤ r → r ≤ 128 → r % 16 = 0 → arow + r ≤ 4096 → crow % 16 = 0 → crow + r ≤ 128 → v 3 = 0 →
       (sp = true → sl.toNat + pairKp ta tb / 128 ≤ 4) →
       (sp = true → mx = true → q.toNat < sl.toNat ∨ sl.toNat + pairKp ta tb / 128 ≤ q.toNat) →
       fits pline wA (arow + r - 1) → (mx = true → sline * 128 + (arow + r) * (pairKl ta tb sp / 32) ≤ s.scrSize) →
       Signs s (.mstream m ta tb sp mx t sl q a cv) m cv {
         opc := 0x82, steps := r / 16,
         kind := .stream ta tb sp mx t.toNat sl.toNat q.toNat pline sline arow r crow,
         set := words (matWord 0x82 0 a cv (0#2 ++ q ++ sl ++ t ++ bit1 mx ++ bit1 sp ++ tb.code ++ ta.code)) 4 })
    -- `mtile`
    ∧ (let ra := bitsOf (v 0) 0 5
       let rb := bitsOf (v 0) 8 5
       let rc := bitsOf (v 0) 16 5
       let mm := bitsOf (v 1) 0 13
       let np := bitsOf (v 1) 16 9
       let stg := v 2
       let k := np * pairKp ta tb
       let R := fun (i : Nat) => (mget {} s.wg.b i : BufRec)
       -- every byte of the rows lies within the record's segment
       let within := fun (r : BufRec) (rows n : Nat) => ∀ i q, i < rows → q < n → r.atOff (i * r.stride + q) < (s.segOf r.sel).size
       let n1 := nt.toNat + 1
       let blocks := (mm + 128 * n1 - 1) / (128 * n1)
       let last := (mm - (blocks - 1) * (128 * n1)) / 16
       s.mtileRec (R ra) true false (copySize ta) = true → s.mtileRec (R rb) true false (copySize tb) = true →
       s.mtileRec (R rc) (!set) true 2 = true →
       (mx = true → ra ≤ 30 ∧ rb ≤ 30 ∧ s.mtileRec (R (ra + 1)) true false 0 = true ∧ s.mtileRec (R (rb + 1)) true false 0 = true
         ∧ k / 32 ≤ (R (ra + 1)).stride ∧ k / 32 ≤ (R (rb + 1)).stride ∧ mm ≤ (R (ra + 1)).extent ∧ 128 ≤ (R (rb + 1)).extent
         ∧ within (R (ra + 1)) mm (k / 32) ∧ within (R (rb + 1)) 128 (k / 32)) →
       comboOk ta tb mx false = true →
       v 0 = ra + rb * 2 ^ 8 + rc * 2 ^ 16 → v 1 = mm + np * 2 ^ 16 → 16 ≤ mm → mm ≤ 4096 → mm % 16 = 0 → 1 ≤ np → np ≤ 256 →
       stg < 2 ^ 12 → stg % 16 = 0 → v 3 = 0 →
       k * tyWidth ta / 8 ≤ (R ra).stride → k * tyWidth tb / 8 ≤ (R rb).stride → 512 ≤ (R rc).stride →
       mm ≤ (R ra).extent → mm ≤ (R rc).extent → 128 ≤ (R rb).extent → (stg + 640) * 128 ≤ s.scrSize →
       within (R ra) mm (k * tyWidth ta / 8) → within (R rb) 128 (k * tyWidth tb / 8) → within (R rc) mm 512 →
       Signs s (.mtile m ta tb mx set t nt a cv) m cv {
         opc := 0x83,
         steps := (blocks - 1) * (8 * n1 + np * (9 + 8 * n1) + 8 * n1) + (8 * n1 + np * (9 + last) + last) + 1,
         kind := .tile ta tb mx set t.toNat n1 mm np stg,
         recs := [(0, R ra), (1, R rb), (2, R rc), (3, R (ra + 1)), (4, R (rb + 1))],
         lines := (List.range 640).map (fun i => (s.segOf 2).base / 128 + stg + i)
           ++ (if (R rc).sel = 2 then cLines ((s.segOf 2).base + (R rc).base) (R rc).stride mm else []),
         set := words (matWord 0x83 0 a cv (0#3 ++ bit1 set ++ nt ++ t ++ bit1 mx ++ 0#1 ++ tb.code ++ ta.code)) 4 })
    -- accumulator moves
    ∧ (let pline := bitsOf (v 0) 0 12
       let row := bitsOf (v 0) 16 7
       let rows := bitsOf (v 0) 24 8
       let wl := if tyWidth ty = 32 then 4 else 2
       v 0 = pline + row * 2 ^ 16 + rows * 2 ^ 24 → pline % 16 = 0 → row % 16 = 0 → 16 ≤ rows → rows ≤ 128 → rows % 16 = 0 →
       row + rows ≤ 128 → fits pline wl (rows - 1) →
       Signs s (.maccSt m ty t a cv) m cv {
         opc := 0x85, steps := rows / 16, kind := .accSt ty t.toNat pline row rows,
         lines := (List.range rows).flatMap (fun r => (List.range wl).map (fun b => tileLine (s.segOf 2).base pline wl r b)),
         set := words (matWord 0x85 0 a cv (0#6 ++ t ++ 0#7 ++ ty.code)) 1 }
       ∧ Signs s (.maccLd m ty t a cv) m cv {
         opc := 0x86, steps := rows / 16, kind := .accLd ty t.toNat pline row rows,
         set := words (matWord 0x86 0 a cv (0#6 ++ t ++ 0#7 ++ ty.code)) 1 })
    -- a signature: an incomplete set is recorded, and the one that completes it places the operation
    ∧ (∀ (op : MatOp) (lanes : Word),
        let x : Cv := mget {} s.wg.cvs cv.toNat
        let n := (lanesOf lanes).length
        let y : Cv := if x.signed = 0 then { x with opnds := op.set, digest := digestOf op.set } else x
        s.wg.qm.fail = false → x.size ≠ 0 → (x.signed = 0 ∨ x.opnds = op.set) →
        (x.signed + n < x.size → OnlyWg s (s.record op cv.toNat lanes)
          { s.wg with cvs := mset s.wg.cvs cv.toNat { y with signed := x.signed + n } }
          { s.grp with pc := s.grp.pc + 8, far := 0, tlb := [], denied := [], held := none, wait := .ready })
        ∧ (x.signed + n = x.size → 64 ≤ s.wg.qm.outst → OnlyWg s (s.record op cv.toNat lanes)
          { s.wg with cvs := mset s.wg.cvs cv.toNat { y with signed := x.signed + n } }
          { s.grp with wait := .place op cv.toNat lanes })
        ∧ (x.signed + n = x.size → s.wg.qm.outst < 64 →
            let u := s.record op cv.toNat lanes
            u.core.engine.queue = s.core.engine.queue ++ [{ op with pos := s.wg.qm.placed }]
            ∧ u.wg.cvs = mset s.wg.cvs cv.toNat { y with signed := 0, gen := (x.gen + 1) % 2 ^ 32 }
            ∧ u.wg.qm = { s.wg.qm with
                outst := s.wg.qm.outst + 1, accn := s.wg.qm.accn + 1, placed := s.wg.qm.placed + 1 }
            ∧ (∀ l ∈ op.lines, l ∈ u.core.absent) ∧ u.core.engine.acc = s.core.engine.acc
            ∧ u.mem = s.mem ∧ u.core.rf = s.core.rf ∧ u.grp.pc = s.grp.pc + 8))
    -- status and configuration
    ∧ (s.exe m = 0 → ∀ i ∈ [Instr.mstat m a t, .mcfg m tiles fl f],
        Runs i s (fun u => OnlyGroup s u { s.grp with pc := s.grp.pc + 8, far := 0 }))
    ∧ (s.exe m ≠ 0 → s.wg.holds = false → ∀ i ∈ [Instr.mstat m a t, .mcfg m tiles fl f],
        exec i s = .next (s.trap tAccess (lowest (s.exe m))))
    ∧ (s.exe m ≠ 0 → s.wg.holds = true →
        let qm := s.wg.qm
        let st := mget 0 s.core.engine.flags t.toNat % 8 + 8 * b2n qm.fail + 16 * (qm.cause % 16) + 256 * (qm.outst % 128)
          + 32768 * b2n (s.core.engine.state == 3)
        (RowsApart s → Does (.mstat m a t) s (LaneRegs s · (s.grp.pc + 8) (fun l k =>
          if (s.live m).getLsbD l = true ∧ k = a.toNat then BitVec.ofNat 32 st
          else if (s.live m).getLsbD l = true ∧ k = a.toNat + 1 then BitVec.ofNat 32 qm.donen else s.lreg l k)))
        ∧ Runs (.mcfg m tiles fl f) s (fun u =>
            (∀ i, i < 4 → mget 0 u.core.engine.flags i =
              if tiles.getLsbD i then mget 0 s.core.engine.flags i &&& (7 - fl.toNat) else mget 0 s.core.engine.flags i)
            ∧ u.wg.qm = (if f then { qm with fail := false, cause := 0, fopc := 0, fstep := 0 } else qm)
            ∧ u.core.engine.acc = s.core.engine.acc ∧ u.core.engine.queue = s.core.engine.queue
            ∧ u.mem = s.mem ∧ u.core.rf = s.core.rf ∧ u.grp = { s.grp with pc := s.grp.pc + 8, far := 0 }))

/-! ### System instructions -/

/-- R357, R359 to R364: segment, vector-control and system registers, checkpoint requests and halting: each reads or writes what
the spec says at the group's level and only advances besides; `halt` ends the launch, `halt.dbg` stops the workgroup. The views
below hypervisor level are notes/assumptions 15, the functions reached 14, RSGO and halt.dbg 26 (DEDUCED), checkpoint items 22. -/
def Obligations.SystemRegisterInstructionsRun : Prop :=
  ∀ (s : State) (m : MReg) (a : Reg) (h : Bool) (sgm : BitVec 3) (n : BitVec 12),
    let e := s.exe m
    let v := (s.lreg (lowest e) a.toNat).toNat
    let adv := { s.grp with pc := s.grp.pc + 8, far := 0 }
    (e = 0 → ∀ i ∈ [Instr.tvec m a, .segLd m h sgm a, .segRd m a sgm, .sysRd m a n, .sysWr m n a, .ckptQ m a],
      Runs i s (fun t => OnlyGroup s t adv))
    ∧ (e ≠ 0 → Runs (.tvec m a) s (fun t => OnlyGroup (s.setFn s.accFn { s.fnAt s.accFn with
        tven := v.testBit 0, tvbase := v / 2 ^ 6 % 2 ^ 26 * 64 }) t adv))
    ∧ (e ≠ 0 →
        let x := Seg.ofNat sgm.toNat (s.lquad (lowest e) a.toNat)
        Runs (.segLd m true sgm a) s (fun t => OnlyGroup (s.setFn s.pkg.vfsel { s.fnAt s.pkg.vfsel with
          hseg := mset (s.fnAt s.pkg.vfsel).hseg sgm.toNat x }) t adv)
        ∧ Runs (.segLd m false sgm a) s (fun t => OnlyWg s t { s.wg with
          segs := mset s.wg.segs sgm.toNat { x with valid := x.valid && sgm.toNat != 5 } } adv))
    ∧ (RowsApart s → Does (.segRd m a sgm) s (WroteQuad s m a (fun _ =>
        if s.grp.lvl = .user ∧ sgm = 5 then 0 else (s.segOf sgm.toNat).toNat)))
    ∧ (RowsApart s → Does (.sysRd m a n) s (Wrote64 s m a (fun _ => BitVec.ofNat 64 (s.sysRead n.toNat))))
    ∧ (e ≠ 0 → exec (.sysWr m n a) s = .next (s.advance.sysWrite n.toNat (s.lpair (lowest e) a.toNat).toNat))
    -- what the registers hold
    ∧ (s.grp.lvl = .user → ∀ k, (k < 0x060 ∨ 0x066 < k) → s.sysRead k = 0)
    ∧ (∀ sv rest, s.grp.lvl ≠ .user → s.grp.saved = sv :: rest →
        s.sysRead 0x000 = sv.pc.toNat ∧ s.sysRead 0x002 = sv.addr % 2 ^ 64 ∧ s.sysRead 0x040 = sv.flags
        ∧ (∀ i, i < 32 → s.sysRead (0x010 + i) = (mget 0 sv.s i).toNat)
        ∧ (∀ i, i < 16 → s.sysRead (0x030 + i) = (mget 0 sv.m i).toNat))
    ∧ (s.grp.lvl = .hypervisor → s.sysRead 0x050 = s.pkg.vfsel ∧ s.sysRead 0x064 = (s.fnAt s.pkg.vfsel).ck.seq
        ∧ s.sysRead 0x065 = (s.fnAt s.pkg.vfsel).ck.time)
    ∧ (s.grp.lvl = .supervisor → s.sysRead 0x050 = 0 ∧ s.sysRead 0x064 = (s.fnAt s.wg.fn).ck.seq)
    -- what a write changes
    ∧ (∀ x sv rest, s.grp.saved = sv :: rest →
        let W := fun (k : Nat) (u : Saved) => s.sysWrite k x = s.setGrp { s.grp with saved := u :: rest }
        W 0x000 { sv with pc := BitVec.ofNat 32 x } ∧ W 0x001 sv ∧ W 0x002 sv ∧ W 0x040 { sv with flags := x % 16 }
        ∧ (∀ i, i < 32 → W (0x010 + i) { sv with s := mset sv.s i (BitVec.ofNat 32 x) })
        ∧ (∀ i, i < 16 → W (0x030 + i) { sv with m := mset sv.m i (BitVec.ofNat 32 x) }))
    ∧ (s.grp.lvl = .hypervisor → ∀ x, s.sysWrite 0x050 x = { s with pkg := { s.pkg with vfsel := x % 64 } })
    ∧ (s.grp.lvl ≠ .hypervisor → ∀ k x, 0x040 < k → k ≠ 0x048 → k ≠ 0x070 → k ≠ 0x0A8 → s.sysWrite k x = s)
    -- REFUSED is no hypervisor field (Table 15.3): a handler of either level reads it, and a 1 written to it clears it
    ∧ (s.grp.lvl ≠ .user → s.sysRead 0x0A8 = b2n s.pkg.refused)
    ∧ (∀ x, s.sysWrite 0x0A8 x = if x.testBit 0 then { s with pkg := { s.pkg with refused := false } } else s)
    -- checkpoints and halting
    ∧ (s.wg.fn = 0 ∨ (s.fnAt s.wg.fn).ck.en = false → Runs .ckpt s (fun t => OnlyGroup s t adv))
    ∧ (s.wg.fn ≠ 0 → (s.fnAt s.wg.fn).ck.en = true → (s.fnAt s.wg.fn).ck.early = none → Runs .ckpt s (fun t => ∃ i,
        i % 10000 = s.pkg.epoch % 10000 ∧ (s.pkg.epoch ≤ s.chipTime + 2000 → s.chipTime + 2000 ≤ i ∧ i < s.chipTime + 12000)
        ∧ OnlyGroup (s.setFn s.wg.fn { s.fnAt s.wg.fn with ck := { (s.fnAt s.wg.fn).ck with early := some i } }) t adv))
    ∧ (RowsApart s → Does (.ckptQ m a) s (WroteQuad s m a (fun _ =>
        let k := (s.fnAt s.wg.fn).ck
        packFields [(0, 1, b2n k.en), (1, 1, b2n (k.state != .run)), (32, 32, k.seq), (64, 64, k.time)])))
    ∧ Runs .halt s (fun t => t = s.endLaunch s.wg.launch (match s.grp.saved with
        | [] => 8
        | sv :: _ => 32 + sv.code))
    ∧ Runs .haltDbg s (fun t => OnlyWg s t { s.wg with stopped := true, halting := s.cur.g + 1 } adv)
    -- the end of a launch: its root is ended with its first status and holds no workgroup
    ∧ (∀ l st x, mfind s.launches (s.rootLaunch l) = some x →
        let y := (s.endLaunch l st).launchAt (s.rootLaunch l)
        y.phase = .ended ∧ y.status = some (x.status.getD st) ∧ y.wgs = [])

/-- R233, R364 to R366, R384, R385, R391, R393: translation queries, `vfsel`, `l2op`, `snap`, `scrub`, `tok.rd` and `part.q`:
what each reads, writes and waits for once its checks pass, and the traps of its own checks. The functions reached are
notes/assumptions 14, the spans' alignment and selects 27, and that `tok.rd` waits for its threads' earlier releases 12, by R239
(DEDUCED). -/
def Obligations.QueryAndSpanInstructionsRun : Prop :=
  ∀ (s : State) (m : MReg) (a b : Reg) (buf : BufR) (op : L2Op) (lines : BitVec 12) (f : BitVec 6) (s2 : Bool)
    (off : BitVec 15),
    let e := s.exe m
    let l := lowest e
    let adv := { s.grp with pc := s.grp.pc + 8, far := 0 }
    (e = 0 → ∀ i ∈ [Instr.vfsel m a, .tlbProbe m a b, .walkQ m a b f s2, .scrub m a b, .tokRd m a b off, .partQ m a b],
      Runs i s (fun t => OnlyGroup s t adv))
    ∧ (e = 0 → Runs (.l2op m op b buf lines) s (Skipped (opened s buf)) ∧ Runs (.snap m b buf a) s (Skipped (opened s buf)))
    -- `vfsel`
    ∧ (e ≠ 0 →
        let v := (s.lreg l a.toNat).toNat
        (63 < v ∨ (v ≠ 0 ∧ ∀ h, h < 8 → s.inPartition h v = false) → exec (.vfsel m a) s = .next (s.trap tAccess l))
        ∧ (v ≤ 63 → (v = 0 ∨ ∃ h, h < 8 ∧ s.inPartition h v = true) → Runs (.vfsel m a) s (fun t =>
            OnlyGroup { s with pkg := { s.pkg with vfsel := v } } t adv)))
    -- translation and partition queries
    ∧ (RowsApart s → Does (.tlbProbe m a b) s (WroteQuad s m a (fun l => s.probe (s.pairVa b l))))
    ∧ (∀ va, (∀ t ∈ s.core.tlb ++ s.hum.tlb, t.serves s.accFn va s.chipTime = false) → s.probe va = 0)
    ∧ (e ≠ 0 → RowsApart s →
        let fn := if f = 0 then s.accFn else f.toNat
        let q := fun (l : Nat) => s.walkQuery fn s2 (s.pairVa b l)
        (f ≠ 0 → s.pkg.vfen = false ∨ s.pkg.numvfs < f.toNat →
          Does (.walkQ m a b f s2) s (WroteQuad s m a (fun _ => 0)))
        ∧ (f = 0 ∨ (s.pkg.vfen = true ∧ f.toNat ≤ s.pkg.numvfs) →
            let ls := lanesOf (s.live m)
            let fault := s.faulty (512 + s.cur.h)
            let lost := ∃ l ∈ ls, s.walkLost s.cur.h fn s.wg.launch (q l).2.reads = true
            (fault = true ∨ (¬ lost ∧ ∃ l ∈ ls, (q l).1 = none) → exec (.walkQ m a b f s2) s = .next (s.setWait (.walk true)))
            ∧ (fault = false → lost → exec (.walkQ m a b f s2) s = .next (s.lose s.wg.launch stPathLost))
            ∧ (fault = false → ¬ lost → (∀ l ∈ ls, (q l).1 ≠ none) →
                Does (.walkQ m a b f s2) s (fun t =>
                  (∀ l k, HasRegs s l → k < s.wg.n → t.lreg l k =
                    if (s.live m).getLsbD l = true ∧ a.toNat ≤ k ∧ k < a.toNat + 4
                    then BitVec.ofNat 32 ((q l).1.getD 0 / 2 ^ (32 * (k - a.toNat))) else s.lreg l k)
                  ∧ t.core.tlb = s.core.tlb ∧ t.hum.tlb = s.hum.tlb ∧ t.grp.s = s.grp.s ∧ t.grp.m = s.grp.m
                  ∧ t.grp.pc = s.grp.pc + 8)
                ∧ (Quiet s → (∀ l ∈ lanesOf (s.live m), CleanWalk s fn (q l).2) →
                  Does (.walkQ m a b f s2) s (WroteQuad s m a (fun l => (q l).1.getD 0))))))
    ∧ (RowsApart s → Does (.partQ m a b) s (WroteQuad s m a (fun _ =>
        let p := s.hum.regs.partAt s.accFn
        let slice := (s.lreg l b.toNat).toNat % 64
        packFields [(0, 6, s.accFn), (8, 8, p.sedge), (16, 8, p.msp), (24, 1, b2n p.en),
          (32, 16, s.hum.regs.waymaskAt slice s.accFn), (64, 64, (s.fnAt s.accFn).tokseq)])))
    -- `l2op` and `snap`
    ∧ (e ≠ 0 →
        let u := opened s buf
        let n := lines.toNat + 1
        let z := fun (sel x addr : Nat) => spanOp l sel x addr (List.replicate (128 * n) 0)
        (∀ code x, u.spanCheck [1, 6] buf (s.lreg l b.toNat).toNat 128 n = .trap code x →
          exec (.l2op m op b buf lines) s = .next (u.trap code l x))
        ∧ (∀ sel x addr ts, u.spanCheck [1, 6] buf (s.lreg l b.toNat).toNat 128 n = .go sel x addr →
            u.rank6 (z sel x addr) = .ok ts →
            (op ≠ .zero →
              let t := (kept u ts).endMem
              exec (.l2op m op b buf lines) s = .next { t with
                l2 := t.l2.write (op == .inv) (ts.map (fun p => p.2.hpa (p.1 * 128) / 128)) })
            ∧ (op = .zero → u.ckRoom u.accFn (8 * (16 * n)) = true →
                SpanGoes (.l2op m op b buf lines) s u (z sel x addr) ts (fun id => .l2op id false))))
    ∧ (e ≠ 0 →
        let u := opened s buf
        let q := s.lquad l a.toNat
        let at_ := q / 2 ^ 33 % 2 ^ 15 * 2 ^ 33
        let mask := q / 2 ^ 64 % 2 ^ 32
        (∀ code, u.snapTrap at_ mask (q / 2 ^ 96 % 2 ^ 32) = some code → exec (.snap m b buf a) s = .next (u.trap code l))
        ∧ (u.snapTrap at_ mask (q / 2 ^ 96 % 2 ^ 32) = none →
            (∀ code x, u.spanCheck [1, 2, 6, 7] buf (s.lreg l b.toNat).toNat 8 (sheetSize mask / 8) = .trap code x →
              exec (.snap m b buf a) s = .next (u.trap code l x))
            ∧ (∀ sel x addr, u.spanCheck [1, 2, 6, 7] buf (s.lreg l b.toNat).toNat 8 (sheetSize mask / 8) = .go sel x addr →
                let o := spanOp l sel x addr (u.sheet (u.grp.lvl == .hypervisor) at_ mask)
                let c := { u with freeCtr := u.freeCtr + 1 }
                (sel = 2 → ScratchGoes s (.snap m b buf a) c o)
                ∧ (∀ ts, sel ≠ 2 → c.ckRoom c.accFn (8 * o.items.length) = true → c.rank6 o = .ok ts →
                    SpanGoes (.snap m b buf a) s c o ts (fun id => .snap id false)))))
    -- `scrub`
    ∧ (e ≠ 0 →
        let d := ScrubDesc.of ((List.range 4).map (fun i => s.lreg l (a.toNat + i)))
        let st := s.scrubStatus d
        (st ≠ 0 → RowsApart s → Does (.scrub m a b) s (LaneRegs s · (s.grp.pc + 8) (fun l k =>
          if (s.live m).getLsbD l = true ∧ k = b.toNat then BitVec.ofNat 32 st
          else if (s.live m).getLsbD l = true ∧ k = b.toNat + 1 then 0 else s.lreg l k)))
        ∧ (st = 0 → Runs (.scrub m a b) s (fun t =>
            let seq := (s.pkg.scrubSeq + 1) % 2 ^ 64
            t.pkg = { s.pkg with scrubSeq := seq } ∧ t.grp = { s.grp with wait := .scrub seq b (s.live m) }
            ∧ (∀ h, h < 8 → d.hmask.testBit h = true → (t.humAt h).scrub = { (s.humAt h).scrub with
                busy := true, signing := false, done := 0, seq := seq, tstart := s.chipTime, out_ := d.out_, in_ := d.in_, sedges := d.sedges h
                desc := d.raw, who := s.cur
                nonce := if d.inNone then List.replicate 32 0 else (s.fnAt d.inVf).nonceBytes })
            ∧ (∀ h, h < 8 → d.hmask.testBit h = false → t.humAt h = s.humAt h)
            ∧ t.mem = s.mem ∧ t.core.rf = s.core.rf ∧ t.fns = s.fns)))
    -- `tok.rd`
    ∧ (e ≠ 0 →
        let o : Int := (s.lreg l b.toNat).toNat + off.toInt
        let sg := s.segOf 2
        (sg.valid = false ∨ sg.w = false → exec (.tokRd m a b off) s = .next (s.trap tAccess l (o % 2 ^ 64).toNat))
        ∧ (sg.valid = true → sg.w = true → o < 0 ∨ (sg.size : Int) < o + 256 →
          exec (.tokRd m a b off) s = .next (s.trap tBounds l (o % 2 ^ 64).toNat))
        ∧ (sg.valid = true → sg.w = true → 0 ≤ o → o + 256 ≤ sg.size → o % 128 ≠ 0 →
          exec (.tokRd m a b off) s = .next (s.trap tAlign l o.toNat))
        ∧ (sg.valid = true → sg.w = true → 0 ≤ o → o + 256 ≤ sg.size → sg.size ≤ 2 ^ 52 → o % 128 = 0 →
            s.released (s.slotsOf e) = false → exec (.tokRd m a b off) s = .next (s.setWait (.order (s.slotsOf e))))
        ∧ (sg.valid = true → sg.w = true → 0 ≤ o → o + 256 ≤ sg.size → sg.size ≤ 2 ^ 52 → o % 128 = 0 →
            s.released (s.slotsOf e) = true →
            (s.tokenReady (sg.base + o.toNat) = false →
              exec (.tokRd m a b off) s = .next (s.setWait (.token a (s.live m) (sg.base + o.toNat))))
            ∧ (s.tokenReady (sg.base + o.toNat) = true → RowsApart s → Does (.tokRd m a b off) s (fun t =>
                (∀ i, i < 256 → memRead t.core.scratch (sg.base + o.toNat + i) = (s.fnAt s.accFn).token.getD i 0)
                ∧ (∀ x, x < sg.base + o.toNat ∨ sg.base + o.toNat + 256 ≤ x →
                    memRead t.core.scratch x = memRead s.core.scratch x)
                ∧ (∀ l k, HasRegs s l → k < s.wg.n → t.lreg l k = if (s.live m).getLsbD l = true ∧ k = a.toNat
                    then (if (s.fnAt s.accFn).tokseq = 0 then 1 else 0) else s.lreg l k)
                ∧ t.mem = s.mem ∧ t.grp.s = s.grp.s ∧ t.grp.m = s.grp.m ∧ t.grp.pc = s.grp.pc + 8))))

/-! ### Events of waiting groups -/

/-- R80, R81, R185, R190, R197, R237, R239, R254, R257, R273, R274, R286, R287, R292, R315, R332, R354, R365, R366: each event of a
waiting group, and the return of a load or atomic, takes place when its condition holds, with the effect its rule gives, and changes
nothing before. That the agenda names the moment is the model's choice (notes/assumptions 4, 5, 28, 55). -/
def Obligations.WaitsEndWhenTheirConditionsHold : Prop :=
  ∀ (s0 : State) (h c g : Nat),
    let r : GRef := { h := h, c := c, g := g }
    let s := s0.at_ r
    let w := s.grp.wait
    let all := [Instr.yieldEnd h c g, .sleepWake h c g, .parkWake h c g, .fenceRelease h c g,
      .barrierArrivalCount h c g, .barrierWaitRelease h c g, .sendSlotFill h c g, .recvSlotTake h c g,
      .copyAccept h c g, .signatureRecord h c g, .qmPlacement h c g, .qwaitComplete h c g, .l2opDone h c g,
      .snapCaptureDone h c g, .trapEntry h c g, .walkPendingRetry h c g]
    -- a group that waits for nothing has no event
    (w = .ready → ∀ i ∈ all, exec i s0 = .next s0)
    -- yield and sleep
    ∧ (∀ t os, w = .yield t os → WaitEnds (.yieldEnd h c g) s0
        (decide (t ≤ s.cycles h) || os.all (fun o => (mfind s.core.groups o).isNone)) (s.setGrp { s.grp with wait := .ready }))
    ∧ (∀ t, w = .sleep t → WaitEnds (.sleepWake h c g) s0 (decide (t ≤ s.chipTime))
        (s.setGrp { s.grp with wait := .ready }))
    -- accesses: a parked one when its lines are present and its turn has come; a load or atomic when its last line has returned
    ∧ (∀ op n, w = .park op n →
        let load := op.kind == .load
        WaitEnds (.parkWake h c g) s0
          (s.allPresent op && !(s.scrBehind op n) && (!op.kind.returns || s.released (s.slotsOf op.exe)))
          (match if load then s.scrPoison op else none with
           | some i => s.trap tPoison i.lane i.off
           | none => if load then (s.scrAct op).acquire else s.scrAct op))
    ∧ (∀ op n, w = .ldacc op n → WaitEnds (.parkWake h c g) s0
        (decide (n ≤ s.wg.qm.donen) && s.released (s.slotsOf op.exe)) (s.ldaccPerform op))
    ∧ (∀ d live x, w = .token d live x → WaitEnds (.parkWake h c g) s0
        (s.tokenReady x && s.released (s.slotsOf live)) (s.tokenGo d live x))
    ∧ (∀ (load : Bool) (i : Instr), (load, i) ∈ [(true, Instr.loadComplete h c g), (false, .atomicReturn h c g)] →
        let q := (s0.coreAt h c).returned g load
        (q = none → exec i s0 = .next s0)
        ∧ (∀ o, q = some o → Runs i s0 (fun t =>
            let v := fun (l : Nat) => extendLoad o.op.ty (gotVal o.got l)
            t.mem = s0.mem
            ∧ (g < 64 → RowsApart s → tyRegOk s.wg.n o.op.ty o.op.dst = true → ∀ l k, HasRegs s l → k < s.wg.n →
                (t.at_ r).lreg l k =
                  if o.op.live.getLsbD l = true ∧ k = o.op.dst.toNat then lo32 (v l)
                  else if o.op.live.getLsbD l = true ∧ o.op.ty.is64 = true ∧ k = o.op.dst.toNat + 1 then hi32 (v l)
                  else s.lreg l k)
            ∧ (64 ≤ g → ∀ p, (∀ e ∈ o.regs, e.2 ≠ p ∧ e.2 + 1 ≠ p) →
                mget 0 (t.coreAt h c).rf p = mget 0 (s0.coreAt h c).rf p)
            ∧ (64 ≤ g → ∀ l p, o.regs = [(l, p)] → mget 0 (t.coreAt h c).rf p = lo32 (v l)
                ∧ (o.op.ty.is64 = true → mget 0 (t.coreAt h c).rf (p + 1) = hi32 (v l))))))
    -- a fence: no earlier load, store or both of its threads in flight, nor a reduction on its way to another package
    ∧ (∀ mode e, w = .fence mode e →
        let sl := s.slotsOf e
        let mine := fun (q : Req) => sl.any (fun t => q.slots.contains t)
        WaitEnds (.fenceRelease h c g) s0
          (match mode with
           | .r => s.core.reqs.all (fun q => !(mine q && q.kind.returns))
               && s.core.outs.all (fun o => sl.all (fun t => (mfind o.slots t).isNone)) && s.released sl
           | .w => s.core.reqs.all (fun q => !(mine q && q.kind.writes))
               && s.travel.all (fun t => t.froms.all (fun x => x.1 != coreKey h c || !sl.contains x.2.1))
           | _ => s.drained sl && s.released sl)
          (match mode with
           | .r => s.acquire.endMem
           | .w => (s.markFenced sl).endMem
           | _ => (s.markFenced sl).acquire.endMem))
    -- barriers: arrivals take effect in a phase that the lane has not arrived at; a wait ends when every condition holds
    ∧ (∀ bar ls n arw p cs, w = .barArr bar ls n arw p cs → WaitEnds (.barrierArrivalCount h c g) s0
        (p != some (s.bar bar).phcnt && s.drained (s.slotsOf ls)) (s.arriveGo bar ls n arw cs))
    ∧ (∀ bar n cs, w = .barWait bar n cs → WaitEnds (.barrierWaitRelease h c g) s0
        (cs.all (fun x => (s.bar bar).dormant || (match x.2 with
          | .phase p => decide (1 ≤ ((s.bar bar).phcnt - p).toNat) && decide (((s.bar bar).phcnt - p).toNat ≤ 2 ^ 31)
          | .changed p => (s.bar bar).phcnt != p))) s.waitEnd)
    -- channels
    ∧ (∀ ch sl ws, w = .send ch sl ws → WaitEnds (.sendSlotFill h c g) s0 (s.canSend ch sl)
        (if (s.chan ch).peerEnded then s.trap tChBroken else (s.fillSlot ch ws).endMem))
    ∧ (∀ ch d m, w = .recv ch d m → WaitEnds (.recvSlotTake h c g) s0
        ((s.chan ch).full != 0 || (s.chan ch).peerEnded)
        (if (s.chan ch).full = 0 then s.trap tChBroken else s.takeSlot ch d m).inherit)
    -- copies, signatures and qm
    ∧ (∀ js, w = .copies js → WaitEnds (.copyAccept h c g) s0 (s.mayAccept js) (s.acceptAll js))
    ∧ (∀ op cv ls, w = .sign op cv ls → WaitEnds (.signatureRecord h c g) s0 (s.drained (s.slotsOf ls)) (s.record op cv ls))
    ∧ (∀ op cv ls, w = .place op cv ls → WaitEnds (.qmPlacement h c g) s0 (decide (s.wg.qm.outst < 64)) (s.placeOp op cv ls))
    ∧ (∀ a m q n, w = .qwait a m q n → WaitEnds (.qwaitComplete h c g) s0
        ((if q = 4 then s.core.engine.queue.all (fun op => decide (n ≤ op.pos))
          else (s.queueJobs h c s.grp.wgs q).all (fun j => decide (n ≤ j.seq))) && s.released (s.slotsOf (s.exe m))
          && !(s.qwaitAhead q))
        (s.qwaitEnd m a q n))
    -- system operations
    ∧ (∀ x y, w = .l2op x y → WaitEnds (.l2opDone h c g) s0 (s.core.reqs.all (fun q => q.id != x)) s.endMem)
    ∧ (∀ x y, w = .snap x y → WaitEnds (.snapCaptureDone h c g) s0 (s.core.reqs.all (fun q => q.id != x)) s.endMem)
    ∧ (∀ x, w = .trap x → WaitEnds (.trapEntry h c g) s0 (s.drained (s.slotsOf s.grp.member)) (s.enterTrap x))
    ∧ (w = .walk true → (mfind s.core.groups g).isSome = true → WaitEnds (.walkPendingRetry h c g) s0
        (decide ((s.humAt h).pending.length < 256) && !(s.faulty (512 + h)) && !(s.faulty (coreKey h c)))
        (s0.setCoreAt h c { s.core with groups := mset s.core.groups g { s.grp with wait := .ready } }))

/-! ### Events of a core -/

/-- R147, R148, R151, R160, R211, R213, R219, R236, R269, R278, R279, R286, R304: the events of a core and its barriers. Each
acts when its condition holds and changes nothing before. That the agenda names the moment is the model's choice
(notes/assumptions 4, 28), as is that a drawn group takes the lowest free number of 0 to 63 (57, DESIGN CHOICE: R148 names none); a
root of a launch barrier in another package acts out of sight (9), and a core powered again runs by 45 (DEDUCED). -/
def Obligations.CoreEventsAct : Prop :=
  ∀ (s : State) (h c w b l n line q : Nat),
    let k := s.coreAt h c
    let v : Wg := mget {} k.wgs w
    -- a phase completes when it is valid, not dormant, no contribution is pending and every member has arrived
    (c < 64 → b < 16 →
      let x := s.barView h c w b
      WaitEnds (.barrierPhaseComplete h c w b) s
        (x.valid && !x.dormant && decide (x.members ≤ x.arrived) && x.pending == 0)
        (s.modWbar h c w b (fun y => { y with arrived := 0, phcnt := y.phcnt + 1, dormant := y.members == 0 })))
    ∧ (∀ j, j < 4 →
      let gk := 4 * (if c < 64 then v.gctx else w) + j
      let lk := 4 * (if c < 64 then v.lctx else w) + j
      let d := s.humAt h
      let gb : Gbar := mget {} d.gbars gk
      let lb : Gbar := mget {} d.lbars lk
      WaitEnds (.barrierPhaseComplete h c w (16 + j)) s
        (gb.valid && gb.root && !gb.dormant && decide (gb.members ≤ gb.arrived))
        (s.setHum h { d with
          gbars := mset d.gbars gk { gb with arrived := 0, phcnt := gb.phcnt + 1, dormant := gb.members == 0 } })
      ∧ WaitEnds (.barrierPhaseComplete h c w (20 + j)) s
        (lb.valid && lb.root && !lb.dormant && decide (lb.members ≤ lb.arrived))
        (s.setHum h { d with
          lbars := mset d.lbars lk { lb with arrived := 0, phcnt := lb.phcnt + 1, dormant := lb.members == 0 } }))
    -- a hummock forwards its arrivals and retirements to the root of a launch barrier, in another package out of sight, which
    -- broadcasts completion
    ∧ (∀ i x y, s.lctxOf h l = some x → s.lctxOf (s.launchAt l).root l = some y → i < 4 →
        let z := (s.launchAt l).root
        let d := s.humAt h
        let e : Gbar := mget {} d.lbars (4 * x + i)
        let a : Gbar := mget {} (s.humAt z).lbars (4 * y + i)
        (z < 8 → h = z ∨ e.valid = false ∨ a.valid = false → exec (.lbForward l h i) s = .next s)
        ∧ (z < 8 → h ≠ z → e.valid = true → a.valid = true → Runs (.lbForward l h i) s (fun t =>
            mget {} (t.humAt z).lbars (4 * y + i)
              = { a with arrived := a.arrived + e.arrived - (if a.phcnt = e.phcnt then e.back else 0), members := a.members - e.retired }
            ∧ mget {} (t.humAt h).lbars (4 * x + i) = { e with arrived := 0, retired := 0, back := 0 }
            ∧ t.cores = s.cores ∧ t.mem = s.mem ∧ t.fns = s.fns))
        ∧ exec (.lbCompletionBroadcast l h i) s = .next (s.setHum h { d with
            lbars := mset d.lbars (4 * x + i) { e with
              phcnt := a.phcnt, dormant := a.dormant, back := if a.phcnt = e.phcnt then e.back else 0 } }))
    ∧ (∀ i x, 8 ≤ (s.launchAt l).root → h < 8 → i < 4 → s.lctxOf h l = some x →
        let d := s.humAt h
        let e : Gbar := mget {} d.lbars (4 * x + i)
        exec (.lbForward l h i) s = .next (if e.valid then s.setHum h { d with
          lbars := mset d.lbars (4 * x + i) { e with arrived := 0, retired := 0, back := 0 } } else s))
    ∧ (let x := s.launchAt l
      (h ∉ x.rect ∧ h ∉ x.cells ∨ h = x.root → exec (.sidebandPathLoss l h) s = .next s)
      ∧ (h ∈ x.rect ∨ h ∈ x.cells → h ≠ x.root → Runs (.sidebandPathLoss l h) s (fun t =>
          ∃ hs, t = ({ s with hums := hs } : State).breakGroups (fun v bar => v.launch == l && decide (20 ≤ bar))
            ∧ hs = s.hums.map (fun (e : Nat × Hum) => (e.1, { e.2 with lbars := e.2.lbars.map (fun (p : Nat × Gbar) =>
                if mget 0 e.2.ctxs (p.1 / 4) = l then (p.1, if p.2.valid then { p.2 with broken := true } else p.2)
                else p) })))))
    -- a slot freed by a receive becomes free for the sender
    ∧ (let x : Chan := mget {} v.chans q
       (x.rcv = false ∨ x.freed = 0 → exec (.channelSlotFreed h c w q) s = .next s)
       ∧ (x.rcv = true → x.freed ≠ 0 → Runs (.channelSlotFreed h c w q) s (fun t => t.mem = s.mem ∧ t.hums = s.hums
           ∧ let u := s.modChan { h := h, c := c, g := w } q (fun y => { y with freed := y.freed - 1 })
             t = match u.findWg v.launch x.peer with
               | none => u
               | some p => u.modChan p q (fun y => { y with full := y.full - 1 }))))
    -- bins: ready with 32 threads or past the age, drawn into a group of up to 32 threads
    ∧ (let x : Bin := mget {} k.bins b
       WaitEnds (.binAgeThreshold h c b) s (x.ready.isSome != k.binReady (s.cycles h) x)
         (s.setCoreAt h c { k with bins := mset k.bins b { x with
           ready := if k.binReady (s.cycles h) x then some (s.cycles h) else none } }))
    ∧ (∀ p i x y, k.status = .running → k.drawPipe = some p → k.drawBin (s.cycles h) = some (i, x) →
        (List.range 64).find? (fun a => (mfind k.groups a).isNone) = some y →
        let ts := k.drawn (s.cycles h) x
        let sl := ts.foldl (fun m a => mset m a { (mget {} m a : Slot) with state := 1, bin := 0, fresh := false }) k.slots
        let rest := x.threads.filter (fun a => !ts.contains a)
        let g := newGroup (mget {} k.wgs x.wg) x p (k.binAgeOf (s.cycles h) x) s.uc ts
        Runs (.binDraw h c) s (fun t => ts.length ≤ 32 ∧ mfind (t.coreAt h c).groups y = some g
          ∧ let u := s.setCoreAt h c ({ k with
              slots := sl, groups := mset k.groups y g
              bins := if rest.isEmpty then mdel k.bins i else mset k.bins i { x with threads := rest, ready := none, entry := none } }
              : Core).serveBins
            t = if ts.any (fun a => (mget {} k.slots a).fresh) then u.acquireAt h c else u))
    ∧ (k.status ≠ .running ∨ k.drawPipe = none ∨ k.drawBin (s.cycles h) = none
        ∨ (∀ a, a < 64 → (mfind k.groups a).isSome = true) → exec (.binDraw h c) s = .next s)
    ∧ WaitEnds (.schedStall h c) s
        (decide (k.groups.length = 64) && k.groups.all (fun e => e.2.parked)
          && k.bins.any (fun e => match e.2.ready with
            | some t => decide (t + 2 ^ 20 ≤ s.cycles h)
            | none => false))
        ((k.wgs.map (fun e => e.2.launch)).foldl (fun t l => t.endLaunch l stStall) s)
    -- a posted card takes the next sequence number of its queue
    ∧ (s.cards[n]? = none → exec (.cardReceive n) s = .next s)
    ∧ (∀ x, s.cards[n]? = some x →
        let d := s.humAt x.hum
        let y : HwQueue := mget {} d.queues x.queue
        let ok := y.cardq && (x.poster.isSome || y.xen) && y.fn == x.fn
        (x.seq.isSome = true ∨ (s.fnAt x.fn).ck.out_ = true ∨ ok = false → exec (.cardReceive n) s = .next s)
        ∧ (x.seq = none → (s.fnAt x.fn).ck.out_ = false → ok = true → Runs (.cardReceive n) s (fun t =>
            t.cards = s.cards.set n { x with seq := some (y.seq + 1) }
            ∧ t.hums = mset s.hums x.hum { d with queues := mset d.queues x.queue { y with seq := y.seq + 1 } }
            ∧ t.cores = s.cores ∧ t.mem = s.mem)))
    -- the coalescer hands on 32 cycles after a line's first request, or when its group has dissolved
    ∧ WaitEnds (.cpaCoalesceTimeout h c) s (k.coal.any (fun x => x.due || decide (x.since + 32 ≤ s.cycles h))) (s.handOn h c)
    -- copies and cached translations age out
    ∧ (mfind k.l1 line = none → exec (.l1CopyExpiry h c line) s = .next s)
    ∧ (∀ x, mfind k.l1 line = some x → WaitEnds (.l1CopyExpiry h c line) s (decide (x.time + 4096 ≤ s.chipTime))
        (s.setCoreAt h c { k with l1 := mdel k.l1 line }))
    ∧ (c < 64 → WaitEnds (.tlbLeaseExpiry h c) s (k.tlb.any (fun e => decide (e.expiry ≤ s.chipTime)))
        (s.setCoreAt h c { k with tlb := k.tlb.filter (fun e => decide (s.chipTime < e.expiry)) }))
    ∧ (let d := s.humAt h
       WaitEnds (.tlbLeaseExpiry h 64) s (d.tlb.any (fun e => decide (e.expiry ≤ s.chipTime))
           || d.wcache.any (fun e => decide (e.2.expiry ≤ s.chipTime)))
         (s.setHum h { d with
           tlb := d.tlb.filter (fun e => decide (s.chipTime < e.expiry))
           wcache := d.wcache.filter (fun e => decide (s.chipTime < e.2.expiry)) }))
    -- power gating
    ∧ WaitEnds (.powerGating h c) s (k.wgs.isEmpty && (k.status == .running || k.status == .quiesced))
        (s.setCoreAt h c { k with status := .gated, tlb := [], l1 := [], icache := [] })
    ∧ WaitEnds (.corePoweredAgain h c) s (k.status == .gated) (s.setCoreAt h c { k with status := .running })

/-! ### Events of walks, homes and the copy and matrix units -/

/-- R204, R212, R213, R220 to R222, R225 to R230, R260, R262: the walk scheduler starts a pending walk, a walk ends with a
translation, a retry after SWAP, a page request or a denial; a reply restarts or refuses; the swap engine exchanges a page; a
request is accepted at its home below its expiry, in its arbiter's turn, and else walked again, and an accepted one performed;
window reductions merge, arrive and drain. The model's choices are notes/assumptions 9, 16, 25, 28, 29, 31, 32, 33,
48, 55, 56 and 58. -/
def Obligations.WalkAndHomeEventsAct : Prop :=
  ∀ (s : State) (h c k j f stage tag v va frame tier a : Nat),
    let d := s.humAt h
    let fn := s.fnAt f
    -- the scheduler
    WaitEnds (.walkStart h k) s (d.nextWalk == some k && decide (d.walks.length < 64) && !(s.faulty (512 + h)))
      (s.setHum h (d.start (d.batch k)))
    -- the end of a walk
    ∧ (d.walks[k]? = none → exec (.walkComplete h k) s = .next s ∧ exec (.swapRetry h k) s = .next s)
    ∧ (∀ w, d.walks[k]? = some w →
        let u := s.setHum h { d with walks := d.walks.eraseIdx k }
        let r := u.walkFull h w.fn w.va w.need
        let x := u.noteWalk w.fn h r
        let done := x.humAt h
        let held := x.setHum h { done with walks := done.walks ++ [{ w with swapAt := some (x.chipTime + 256) }] }
        let i : Instr := if w.swapAt = none then .walkComplete h k else .swapRetry h k
        (s.faulty (512 + h) = true ∨ s.walkStuck h w = true →
          exec (.walkComplete h k) s = .next s ∧ exec (.swapRetry h k) s = .next s)
        ∧ (∀ t, w.swapAt = some t → exec (.walkComplete h k) s = .next s
          ∧ (s.chipTime < t → exec (.swapRetry h k) s = .next s))
        ∧ (w.swapAt = none → exec (.swapRetry h k) s = .next s)
        ∧ (s.faulty (512 + h) = false → s.walkStuck h w = false → (∀ t, w.swapAt = some t → t ≤ s.chipTime) →
            (∀ t upd, r.res = .ok t upd →
              exec i s = .next (((x.writeMarks w.fn upd).keepWalk h w.fn r.path).walkOk h { w with swapAt := none } t))
            ∧ (r.res = .swap → exec i s = .next held)
            ∧ (∀ st l inv need page, r.res = .fail st l inv need page →
                (w.glb = false → ∀ n, w.enl = some n → exec i s = .next (x.endLaunch (x.unitLaunch h n) stLease))
                ∧ (w.glb = false → w.enl = none → w.replay = false → exec i s = .next ((x.modGroup w.who (fun g =>
                    { g with denied := g.denied ++ [(w.va / 65536, w.purpose)] })).wake w.who))
                ∧ (w.glb = true → 512 ≤ done.replies.length → exec i s = .next held)
                ∧ (w.glb = true → done.replies.length < 512 →
                    let p := x.postRequest h w.fn st (b2n need.w + 2 * b2n need.x + 4 + 8 * b2n inv) page (x.rootLaunch w.launch)
                    let y := p.1.humAt h
                    exec i s = .next (p.1.setHum h { y with replies := y.replies ++ [{ w with
                      swapAt := none, tag := some (st, ((x.fnAt w.fn).nextTag + 1) % 2 ^ 32) }] })))))
    -- replies: a tag not outstanding is logged; a reply restarts the walk, a refusal ends its launch
    ∧ ((stage, tag % 2 ^ 32) ∉ fn.tags ∨ 2 ^ 33 ≤ tag → exec (.prqReply f stage tag) s = .next (s.logErr f 12 0 tag 0))
    ∧ ((stage, (tag + 2 ^ 32) % 2 ^ 32) ∉ fn.tags ∨ 2 ^ 32 ≤ tag →
        exec (.prqReplyRefuse f stage tag) s = .next (s.logErr f 12 0 (tag + 2 ^ 32) 0))
    ∧ (tag < 2 ^ 32 → (stage, tag) ∈ fn.tags →
        let u := s.setFn f { fn with tags := fn.tags.erase (stage, tag) }
        ∀ w, u.findReply f stage tag = some (h, w) →
          exec (.prqReply f stage tag) s = .next (u.setHum h
            ({ d with replies := d.replies.erase w ++ [{ w with tag := none }] } : Hum).refill)
          ∧ exec (.prqReplyRefuse f stage tag) s
              = .next ((u.setHum h { d with replies := d.replies.erase w }).endLaunch w.launch stLease))
    -- the driver frees entries of a request ring
    ∧ (let r := fn.ring stage
       (r.count 5 ≤ v → exec (.prqhead f stage v) s = .next (s.logErr f 11 0 (if stage = 2 then 0x3050 else 0x3020) 0))
       ∧ (v < r.count 5 → r.held = [] → exec (.prqhead f stage v) s = .next (s.setFn f (fn.setRing stage { r with head := v }))))
    -- the Enlarger renews what has less than a quarter of its lease left, and drops what it may no longer use
    ∧ (mfind d.enl k = none → exec (.enlargerLeaseRenewal h k) s = .next s)
    ∧ (∀ x, mfind d.enl k = some x →
        (s.faulty (512 + h) = true ∨ (∀ t ∈ x.tlb, t.expiry ≤ s.chipTime ∨ t.expiry - t.read ≤ 4 * (t.expiry - s.chipTime)) →
          exec (.enlargerLeaseRenewal h k) s = .next s)
        ∧ (∀ t, x.tlb = [t] → s.faulty (512 + h) = false → s.chipTime < t.expiry →
            4 * (t.expiry - s.chipTime) < t.expiry - t.read →
            let w := x.kind.writesMem
            let r := s.walkFull h t.fn t.va { r := !w, w := w }
            let u := s.noteWalk t.fn h r
            let lost := s.walkLost h t.fn (s.unitLaunch h k) r.reads
            (lost = true → exec (.enlargerLeaseRenewal h k) s = .next s)
            ∧ (∀ n upd, lost = false → r.res = .ok n upd →
              let z := (u.writeMarks t.fn upd).keepWalk h t.fn r.path
              exec (.enlargerLeaseRenewal h k) s = .next (z.setHum h { z.humAt h with
                enl := mset (z.humAt h).enl k { x with tlb := [n] } }))
            ∧ (lost = false → (∀ n upd, r.res ≠ .ok n upd) → exec (.enlargerLeaseRenewal h k) s = .next (u.setHum h { u.humAt h with
                enl := mset (u.humAt h).enl k { x with tlb := [], stale := t.va / 65536 :: x.stale } }))))
    -- the swap engine
    ∧ ((s.uncached 0).leafOf 0 f va = none → exec (.swapEngineExchange f va frame tier) s = .next s)
    ∧ (∀ p l, (s.uncached 0).leafOf 0 f va = some (p, l) →
        let held := s.homeHolds (s.homeOf {} p.addr) p.addr
        (p.swap = true ∨ s.swapOk p l frame tier = false ∨ held = true → exec (.swapEngineExchange f va frame tier) s = .next s)
        ∧ (p.swap = false → s.swapOk p l frame tier = true → held = false → Runs (.swapEngineExchange f va frame tier) s (fun t =>
            (Quiet s → readN t.mem p.addr 8 = ((p.lo - p.cls * 2 ^ 5) ||| 2 ^ 30) % 2 ^ 64)
            ∧ t.swaps = s.swaps ++ [{
                fn := f, entry := p.addr, cls := p.cls, from_ := p.frame / leafSize l * leafSize l, to_ := frame * 65536
                tier := tier % 2, size := leafSize l, until_ := s.chipTime + leaseNs p.cls + 128 }])))
    ∧ (s.swaps[k]? = none → exec (.swapHorizonEnd k) s = .next s)
    ∧ (∀ w, s.swaps[k]? = some w →
        let free := !(s.acceptedIn w.from_ w.size) && s.swappable w.from_ w.size && s.swappable w.to_ w.size
          && !(s.homeHolds (s.homeOf {} w.entry) w.entry)
        (s.chipTime < w.until_ ∨ free = false → exec (.swapHorizonEnd k) s = .next s)
        ∧ (w.until_ ≤ s.chipTime → free = true → Runs (.swapHorizonEnd k) s (fun t => t.swaps = s.swaps.eraseIdx k
            ∧ (Quiet s → w.tier < 2 → w.cls < 16 → bitOf (readN t.mem w.entry 8) 30 = false
              ∧ bitsOf (readN t.mem w.entry 8) 28 2 = w.tier ∧ bitsOf (readN t.mem w.entry 8) 5 4 = w.cls))))
    -- requests at their homes
    ∧ ((s.coreAt h c).reqs[k]? = none → exec (.homeRequestArrival h c k) s = .next s)
    ∧ (∀ r, (s.coreAt h c).reqs[k]? = some r →
        let rs := (s.coreAt h c).reqs
        let go := s.acceptable rs k r
        let kc := s.coreAt r.who.h r.who.c
        (r.acc ≠ 0 → WaitEnds (.homeRequestArrival h c k) s (s.performable rs k r) (s.performAt k r))
        ∧ (r.acc = 0 → go = false → exec (.homeRequestArrival h c k) s = .next s)
        ∧ (r.acc = 0 → go = true → s.chipTime < r.expiry →
            let p := s.arbitrate r
            (p.1.through p.2 = true → exec (.homeRequestArrival h c k) s = .next (p.1.acceptReq k p.2))
            ∧ (p.1.through p.2 = false → exec (.homeRequestArrival h c k) s
                = .next (p.1.setCoreAt h c { p.1.coreAt h c with reqs := rs.set k p.2 })))
        ∧ (r.acc = 0 → go = true → r.expiry ≤ s.chipTime → 256 ≤ (s.humAt r.who.h).pending.length →
            exec (.homeRequestArrival h c k) s = .next s)
        ∧ (r.acc = 0 → go = true → r.expiry ≤ s.chipTime → (s.humAt r.who.h).pending.length < 256 →
            Runs (.homeRequestArrival h c k) s (fun t => t.mem = s.mem
              ∧ (t.coreAt r.who.h r.who.c).reqs = kc.reqs.set k { r with walking := true, hops := 0 }
              ∧ ∃ w : Walk, (t.humAt r.who.h).pending = (s.humAt r.who.h).pending ++ [w] ∧ w.who = r.who ∧ w.va = r.va
                  ∧ w.fn = r.fn ∧ w.write = r.kind.writes ∧ w.glb = (r.glb && !r.helperOnly) ∧ w.helper = r.helperOnly ∧ w.replay = true)))
    -- an arbiter holds nothing back while no request of a reservation is about (R173)
    ∧ (∀ r, r.mark = false → s.noMarks = true → (s.arbitrate r).1 = s ∧ s.through (s.arbitrate r).2 = true
        ∧ (s.arbitrate r).2 = { r with hops := (s.arbsOf r).length })
    -- window reductions
    ∧ (s.travel[k]? = none → exec (.windowReductionAccept k) s = .next s)
    ∧ (∀ t, s.travel[k]? = some t → exec (.windowReductionAccept k) s
        = .next (if s.linePoison (t.addr / 128)
            then ({ s with travel := s.travel.eraseIdx k } : State).logErr t.acc.fn 13 ((s.localHum t.home).getD 0) t.addr 0
            else ({ s with travel := s.travel.eraseIdx k } : State).winAccept t.home t.addr t.acc))
    ∧ (mfind d.wins a = none → exec (.windowContributionLimit h a) s = .next s)
    ∧ (∀ w, mfind d.wins a = some w →
        WaitEnds (.windowContributionLimit h a) s (decide (2 ^ 40 ≤ w.count)) (s.drainWin h a))
    ∧ (∀ x y, s.travel[k]? = some x → s.travel[j]? = some y →
        WaitEnds (.switchMerge k j) s (decide (k < j) && x.addr == y.addr && x.fn == y.fn && x.acc.op == y.acc.op && x.acc.ty == y.acc.ty)
          { s with
            travel := (s.travel.eraseIdx j).set k { x with froms := x.froms ++ y.froms, acc := winMerge x.acc y.acc } })

/-- R293, R314, R316, R335, R346, R347: the Enlarger writes a destination line of an operation once nothing before it is in the
way, its sources are present and its pages are translated; a fence entry completes after what it names; the matrix sequencer
steps the operation at the head of qm, and its watchdog resets an engine of whose step it measured more than the limit: the
holder's function rolls back where it is checkpointed, and else its workgroup ends. The model's choices are
notes/assumptions 28, 36, 37 and 47. -/
def Obligations.CopyAndMatrixEventsAct : Prop :=
  ∀ (s : State) (h c k line : Nat),
    let d := s.humAt h
    let core := s.coreAt h c
    let e := core.engine
    (mfind d.enl k = none → exec (.copyLineWrite h k line) s = .next s
      ∧ (k < 2048 → exec (.qfenceEntryComplete h k) s = .next s))
    ∧ (∀ j, mfind d.enl k = some j →
        let bs := s.unitMem h j line
        let launch := (mget ({} : Wg) (s.coreAt h j.core).wgs j.wgs).launch
        let present := (s.unitReads h j line).all (fun p => match p with
          | .scr key l => s.spotPresent (.scr key (l * 128))
          | _ => true)
        let held := !(j.todo.contains line) || j.isFence || (s.fnAt j.fn).ck.state != .run || s.unitBlocked h j line || !present
        (held = true → exec (.copyLineWrite h k line) s = .next s)
        ∧ (held = false → s.unitUndeclared h j bs = true → exec (.copyLineWrite h k line) s = .next (s.endLaunch launch stLease))
        ∧ (held = false → s.unitUndeclared h j bs = false →
            (∀ b, s.unitMissing j bs = some b → exec (.copyLineWrite h k line) s = .next (s.askCopyWalk h k j b))
            ∧ (s.unitMissing j bs = none → s.unitPath h j bs = false →
                exec (.copyLineWrite h k line) s = .next (s.endLaunch launch stLease))
            -- its lines pass their arbiters (R173), those of an earlier try from where they stood
            ∧ (s.unitMissing j bs = none → s.unitPath h j bs = true →
                let p := s.sendLines ((j.sent.filter (fun x => x.1 == line)).map Prod.snd) (s.unitReqs h j bs)
                let rest := j.sent.filter (fun x => x.1 != line)
                WaitEnds (.copyLineWrite h k line) s
                  (!(s.unitHeld h j bs) && !(bs.any (fun b => b.write) && s.ckFull j.fn))
                  (if p.2.all p.1.through then (p.1.l2Lines p.2).writeUnit h k { j with sent := rest } line bs
                   else p.1.setJob h k { j with sent := rest ++ p.2.map (fun r => (line, r)) })))
        ∧ (k < 2048 → WaitEnds (.qfenceEntryComplete h k) s
            (j.isFence && j.waits.all (fun x => s.queueDone h j.core j.wgs x.1 x.2))
            (s.setHum h { d with enl := mdel d.enl k })))
    -- a fence entry at the head of qm
    ∧ (∀ op rest w qs, e.queue = op :: rest → e.holder = some w → op.kind = .fence qs →
        WaitEnds (.qfenceEntryComplete h (2048 + c)) s (op.waits.all (fun x => s.queueDone h c w x.1 x.2))
          (s.setCoreAt h c { core with engine := ({ e with queue := rest } : Engine).beginHead w s.chipTime })
        ∧ exec (.matrixStep h c) s = .next s ∧ (e.state ≠ 3 → exec (.matrixWatchdog h c) s = .next s))
    -- an operation at the head of qm
    ∧ (e.holder = none ∨ e.queue = [] → exec (.matrixStep h c) s = .next s ∧ exec (.matrixWatchdog h c) s = .next s)
    ∧ (∀ op rest w, e.queue = op :: rest → e.holder = some w → op.isFence = false →
        let v : Wg := mget {} core.wgs w
        WaitEnds (.matrixStep h c) s
          (core.status == .running && (s.fnAt v.fn).ck.state == .run && e.state != 3) (s.matStep h c w op)
        ∧ (e.state ≠ 3 → WaitEnds (.matrixWatchdog h c) s
            (decide (e.wdog * 25 < (e.used + (if e.state = 1 then s.chipTime - e.since else 0)) * 47))
            (s.setCoreAt h c { core with engine := { e with state := 3 } })))
    -- an engine in state 3 is reset, and its workgroup is lost (R347)
    ∧ (∀ op rest w, e.queue = op :: rest → e.holder = some w → e.state = 3 →
        let v : Wg := mget {} core.wgs w
        let u := (s.setCoreAt h c { core with engine := { holder := e.holder, wdog := e.wdog, state := 3 } }).logErr
          0 10 h (coreKey (s.phys h) c) 0
        exec (.matrixWatchdog h c) s = .next
          (if u.rollsBack (u.launchAt v.launch).fn then u.rollback (u.launchAt v.launch).fn
           else u.endSome v.launch stMatrixReset (fun r => r == { h := h, c := c, g := w })))

/-! ### Launches -/

/-- R160, R163 to R168, R178, R181, R224, R376, R390: the steps of a launch: the record is taken, the rectangle claimed, the
routes loaded, the declared pages made resident, each gang placed, set up and filed (with a nonce, once the token matches); the
tasks of job cards; and the ends of workgroups and launches. Each acts when its condition holds, and changes nothing before. The
model's choices are notes/assumptions 3, 9, 19, 25, 28, 39, 48, 57 and 58. -/
def Obligations.LaunchEventsAct : Prop :=
  ∀ (s : State) (h c w q l : Nat) (ok : Bool),
    let x := s.launchAt l
    let may := s.mayDispatch x.fn
    let y : HwQueue := mget {} (s.humAt h).queues q
    let n := y.head
    let go := y.en && !y.cardq && y.busy.isNone && n != y.tail && s.mayDispatch y.fn
    let r := s.devRead h y.fn (y.base / 4096 * 4096 + 64 * n) 64
    let free := (s.candidates x).find? (fun hs => hs.all (s.hasRoom l))
    let res := s.reside x.hum x.fn l x.kernel.ranges x.waits
    let spot := (List.range x.order.length).findSome? (fun i =>
      let k := (x.nextHum + i) % x.order.length
      (s.spotOn l x (x.order.getD k 0)).map (fun p => (k, p)))
    -- work is taken for a function in service that is not stopped for a checkpoint
    (∀ f, s.mayDispatch f = true ↔
      s.pkg.up = true ∧ s.pkg.domrdy = true ∧ (s.fnAt f).ck.state = .run ∧ (s.fnAt f).ck.out_ = false)
    -- the record at HEAD
    ∧ (go = false → exec (.launchRecordTake h q) s = .next s)
    ∧ (go = true → r.2 = .hold → exec (.launchRecordTake h q) s = .next s)
    ∧ (go = true → r.2 = .none → exec (.launchRecordTake h q) s
        = .next ((r.1.modQueue h q (fun a => { a with head := (n + 1) % 2 ^ (a.size + 6) })).logErr y.fn 11 h n 0))
    ∧ (∀ b, go = true → r.2 = .ok b →
        let p := r.1.readLaunch y.fn h q b
        let id := p.1.pkg.nextId
        let z : HwQueue := mget {} (p.1.humAt h).queues q
        (p.2 = .hold → exec (.launchRecordTake h q) s = .next s)
        ∧ (∀ k, p.2 = .ok k → Runs (.launchRecordTake h q) s (fun t => t.launchAt id = k ∧ t.pkg.nextId = id + 1
            ∧ mget {} (t.humAt h).queues q = { z with head := (n + 1) % 2 ^ (z.size + 6), busy := some id }))
        ∧ (recordOk b = false → ∃ k, p.2 = .ok k ∧ k.phase = .ended ∧ k.status = some 1))
    -- step 1: the first admissible rectangle with a context free on every hummock
    ∧ (x.phase ≠ .claim ∨ mfind s.launches l = none ∨ may = false → exec (.rectClaim l) s = .next s)
    ∧ (x.phase = .claim → (mfind s.launches l).isSome = true → may = true →
        (s.candidates x = [] → exec (.rectClaim l) s = .next (s.setLaunch l { x with phase := .ended, status := some 2 }))
        ∧ (s.candidates x ≠ [] → free = none → exec (.rectClaim l) s = .next s)
        ∧ (∀ hs, free = some hs →
            let deny := x.cardq != 0xFFFF && !(hs.all (s.cardQueueOk x.fn x.cardq))
            let here := hs.filter (fun a => decide (a < 8))
            (deny = true → exec (.rectClaim l) s = .next (s.setLaunch l { x with phase := .ended, status := some 4 }))
            ∧ (deny = false → exec (.rectClaim l) s
                = .next ((s.takeCtxs l here).setLaunch l { x with
                    phase := .routes, rect := here, cells := hs, root := hs.headD 0 }))))
    -- step 2: one reload, then ROUTE_CHECK
    ∧ (x.phase ≠ .routes ∨ may = false → exec (.routeLoad l ok) s = .next s)
    ∧ (x.phase = .routes → may = true →
        exec (.routeLoad l true) s
            = .next (({ s with freeCtr := s.freeCtr + 1 } : State).setLaunch l { x with phase := .resident, routes := s.freeCtr })
        ∧ (x.reloads = 0 → exec (.routeLoad l false) s = .next (s.setLaunch l { x with reloads := 1 }))
        ∧ (x.reloads ≠ 0 → exec (.routeLoad l false) s = .next (s.setLaunch l { x with phase := .ended, status := some 3 })))
    -- step 3: every declared page resident
    ∧ (x.phase ≠ .resident ∨ may = false → exec (.residency l) s = .next s)
    ∧ (x.phase = .resident → may = true →
        (res.lost = true → exec (.residency l) s = .next (res.s.endLaunch l stPathLost))
        ∧ (res.lost = false → res.ok = true →
            exec (.residency l) s = .next (res.s.setLaunch l { x with phase := .place, waits := [] }))
        ∧ (res.lost = false → res.ok = false →
            exec (.residency l) s = .next (res.s.setLaunch l { x with waits := res.waits })))
    -- step 4: the next gang on the first hummock that can hold it, from the one after the previous gang's
    ∧ (x.phase ≠ .place ∨ x.gangs ≤ x.placed ∨ may = false ∨ spot = none → exec (.gangPlacement l) s = .next s)
    ∧ (∀ k cs, x.phase = .place → x.placed < x.gangs → may = true → spot = some (k, some cs) →
        Runs (.gangPlacement l) s (fun t => t = s.placeGang l x k (x.order.getD k 0) cs
          ∧ (t.launchAt l).placed = x.placed + 1 ∧ (t.launchAt l).phase = .setup
          ∧ (t.launchAt l).nextHum = (k + 1) % x.order.length ∧ t.mem = s.mem ∧ t.fns = s.fns))
    ∧ (∀ k, x.phase = .place → x.placed < x.gangs → may = true → spot = some (k, none) →
        let z := { x with
          placed := x.placed + 1, nextHum := (k + 1) % x.order.length, fresh := []
          away := x.away ++ [(x.order.getD k 0, x.placed)] }
        exec (.gangPlacement l) s = .next (if x.kernel.nonced then s.setLaunch l { z with phase := .token } else s.fileGang l z))
    -- step 5: what a workgroup's context then holds
    ∧ (∀ a : GRef,
        let v : Wg := mget {} (s.coreAt a.h a.c).wgs a.g
        let segs := s.newSegs x v
        mfind ((s.setupWg x a).coreAt a.h a.c).wgs a.g = some { v with
          segs := segs, k := x.newK, b := x.newB, binAge := x.kernel.binAge
          arr := (List.range x.kernel.wg).map (fun i => (i, { memb := x.memb i, mark := 2 ^ 24 - 1 })) }
        ∧ mget {} segs 0 = { base := x.image + x.kernel.codeOff, limit := x.kernel.codeSize, r := true, x := true, valid := true }
        ∧ mget {} segs 1 = { r := true, w := true, a := true, valid := true }
        ∧ (1 ≤ x.units → mget {} segs 2
            = { base := v.unit0 * 4096, limit := x.units * 4096, r := true, w := true, a := true, valid := true })
        ∧ (mget {} segs 3).valid = v.holds ∧ (mget {} segs 5).valid = false)
    ∧ (let go := x.phase == .setup && may
       let s1 := s.dropCode x.rect
       let s2 := if x.placed = (x.away.filter (fun e => decide (e.2 < x.gangs))).length + 1 then s1.newLbars l x else s1
       let s3 := x.fresh.foldl (fun t a => t.setupWg x a) s2
       let a := x.fresh.headD {}
       let s4 := (s3.newGbars x a.h (mget {} (s3.coreAt a.h a.c).wgs a.g).gctx).addLbars l x a.h
       WaitEnds (.launchSetup l) s go
         (if x.kernel.nonced then s4.setLaunch l { x with phase := .token } else s4.fileGang l x))
    -- step 6: the tokens of this package and of the others in the rectangle match; step 7: the threads are filed
    ∧ WaitEnds (.scrubTokenMatch l) s (x.phase == .token && may && s.tokensOk l x) (s.fileGang l x)
    ∧ (x.fresh = [] → x.placed < x.gangs → x.status = none → s.fileGang l x = s.setLaunch l { x with phase := .place })
    -- job cards
    ∧ (let idle := y.en && y.cardq && y.busy.isNone
       (idle = false ∨ s.nextCard h q = none → exec (.cardPlacement h q) s = .next s)
       ∧ (∀ d, idle = true → s.nextCard h q = some d →
           (s.mayDispatch d.fn = false → exec (.cardPlacement h q) s = .next s)
           ∧ (s.mayDispatch d.fn = true → Runs (.cardPlacement h q) s (fun t =>
               t.cards = s.cards.erase d ∧ t.launchAt s.pkg.nextId = taskOf d ∧ t.pkg.nextId = s.pkg.nextId + 1
               ∧ mget {} (t.humAt h).queues q = { y with busy := some s.pkg.nextId } ∧ t.cores = s.cores ∧ t.mem = s.mem))))
    -- ends
    ∧ (mfind (s.coreAt h c).wgs w = none → exec (.workgroupNormalEnd h c w) s = .next s)
    ∧ (∀ v, mfind (s.coreAt h c).wgs w = some v →
        (v.ended = false ∨ s.workDone h c w = false → exec (.workgroupNormalEnd h c w) s = .next s)
        ∧ (v.ended = true → s.workDone h c w = true → Runs (.workgroupNormalEnd h c w) s (fun t =>
            mfind (t.coreAt h c).wgs w = none ∧ (∀ e ∈ (t.coreAt h c).groups, e.2.wgs ≠ w)
            ∧ (t.launchAt v.launch).wgs = (s.launchAt v.launch).wgs.erase { h := h, c := c, g := w }
            ∧ t.mem = s.mem ∧ t.fns = s.fns)))
    ∧ (mfind s.launches l = none → exec (.launchCompletion l) s = .next s)
    ∧ (mfind s.launches l = some x →
        let done := (x.phase == .running || x.phase == .ended) && x.wgs.isEmpty && !(s.runsAway l x) && !(s.hasTasks l) && !(s.hasReqs l)
          && (s.fnAt x.fn).ck.state == .run
        let t : State := { (s.dropCtxs l x).freeQueue l x with launches := mdel ((s.dropCtxs l x).freeQueue l x).launches l }
        WaitEnds (.launchCompletion l) s done (if x.task then t else (t.writeCompletion x (x.status.getD 0)).getD s))

/-! ### Checkpoints, chiplets and workgroups -/

/-- R368 to R374, R396, R363: a function's checkpoint goes from RUN at its instant to DRAIN and COMMIT and back, its tray then
leaves and its log is empty; messages from other packages are delivered or held; PREGO takes it out, KILLGO ends its launches,
RSTGO restores an image; a chiplet is reset, fenced or dropped; RSGO resumes a stopped workgroup. The model's choices are
notes/assumptions 21, 22, 26, 28 and 46. -/
def Obligations.CheckpointAndChipletEventsAct : Prop :=
  ∀ (s : State) (f seq sender vf id h act cause c w : Nat) (msg : Msg),
    let x := s.fnAt f
    let k := x.ck
    let now := fun (t : State) => (t.fnAt f).ck
    -- messages
    (sender = s.pkg.pkgnum → exec (.crossPackageMessage f seq sender msg) s = .next s)
    ∧ (sender ≠ s.pkg.pkgnum → k.en = false ∨ (seq ≤ k.seq ∧ k.state = .run ∧ k.out_ = false) →
      exec (.crossPackageMessage f seq sender msg) s = .next (s.deliverMsg f msg))
    ∧ (sender ≠ s.pkg.pkgnum → k.en = true → (k.seq < seq ∨ k.out_ = true ∨ k.state = .leave) → exec (.crossPackageMessage f seq sender msg) s
        = .next (s.setFn f { x with ck := { k with heldMsgs := k.heldMsgs ++ [(seq, msg)] } }))
    ∧ (sender ≠ s.pkg.pkgnum → k.en = true → seq ≤ k.seq → k.out_ = false → k.state ≠ .run → k.state ≠ .leave →
      exec (.crossPackageMessage f seq sender msg) s
        = .next (s.setFn f { x with ck := { k with msgs := k.msgs ++ [(k.seq, msg)] } }))
    ∧ (∀ a n v, s.deliverMsg f (.store a n v)
        = s.enterLine f a (fun u => ((u.drainFor a n).l2At f {} a true).performStore f ownHome a n v))
    ∧ (∀ op ty a v, s.linePoison (a / 128) = true →
        s.deliverMsg f (.red op ty none a v) = s.enterLine f a (fun u => (u.l2At f {} a true).logErr f 13 0 a 0))
    ∧ (∀ l j ch ws, s.findWg l j = none → s.deliverMsg f (.slot l j ch ws) = s)
    ∧ (∀ l a i args, s.deliverMsg f (.card l a i args)
        = s.enter f a 15 (fun u => { u with cards := u.cards ++ [u.cardFor l a i args] }))
    ∧ (∀ a j (g : State → State), s.enter f a j g = if s.reach f a 12 a j then g s else s.logErr 0 4 a (portPair 12 j) f)
    -- the instant: the next multiple of the interval after the last one, or an early one that was requested
    ∧ (let reg := s.pkg.epoch + ((k.instant - s.pkg.epoch) / (k.int * 1000) + 1) * (k.int * 1000)
       let due := match k.early with
         | some e => min e reg
         | none => reg
       WaitEnds (.checkpointInstant f) s
         (f != 0 && k.en && !k.out_ && k.state == .run && decide (due ≤ s.chipTime))
         (s.setFn f { x with ck := { k with state := .drain, instant := due } }))
    ∧ WaitEnds (.checkpointDrainDone f) s (k.state == .drain && s.ckDrained f)
        (s.setFn f { x with ck := { k with state := .commit } })
    -- the commit
    ∧ (k.state ≠ .commit → exec (.checkpointCommit f) s = .next s)
    ∧ (let im := s.capture f
       let fits := s.assigned k.imgBase = true ∧ s.assigned (k.imgBase + im.size - 1) = true ∧ ∀ e ∈ s.hums, e.2.wins = []
       (k.state = .commit → fits → k.tray = [] → k.msgs = [] → k.heldMsgs = [] → Runs (.checkpointCommit f) s (fun t =>
          now t = { k with
            logged := [], blocks := [], image := some im, seq := k.seq + 1, time := k.instant, instant := s.chipTime
            state := .run, early := k.early.filter (fun e => decide (s.chipTime < e)), cardsIn := [] }
          ∧ t.mem = putArea s.mem k.imgBase im.size im.sheet
          ∧ t.cores = s.cores ∧ t.hums = s.hums ∧ t.launches = s.launches))
       ∧ (k.state = .commit → fits → (∀ i ∈ k.tray, ∃ d, i = .card d) → k.msgs = [] → k.heldMsgs = [] →
          Runs (.checkpointCommit f) s (fun t => (now t).tray = []
            ∧ t.cards = s.cards ++ k.tray.filterMap (fun i => match i with
              | .card d => some d
              | _ => none)
            ∧ t.mem = putArea s.mem k.imgBase im.size im.sheet))
       -- the image area then holds the image's bytes, and every byte outside it is as before; an area not assigned is logged
       ∧ (fits → ∀ b, (b < k.imgBase ∨ k.imgBase + im.size ≤ b) → memRead (s.writeImage f im).mem b = memRead s.mem b)
       ∧ (s.assigned k.imgBase = false → s.writeImage f im = s.logErr 0 3 0 k.imgBase 0))
    -- pre-emption and kill
    ∧ ((s.fnAt vf).ck.en = false ∨ vf = 0 →
        exec (.prego vf) s = .next { s with pkg := { s.pkg with refused := true } })
    ∧ ((s.fnAt vf).ck.en = true → vf ≠ 0 → (s.fnAt vf).ck.out_ = true → exec (.prego vf) s = .next s)
    ∧ ((s.fnAt vf).ck.en = true → vf ≠ 0 → (s.fnAt vf).ck.out_ = false →
        exec (.prego vf) s = .next (s.modCk vf (fun y => { y with state := .leave })))
    ∧ ((s.fnAt vf).ck.state = .leave → s.preemptDone vf = s.preempt vf ∧ ((s.preemptDone vf).fnAt vf).ck.out_ = true)
    ∧ ((s.fnAt vf).ck.state ≠ .leave → s.preemptDone vf = s)
    ∧ exec (.killgo vf id) s = .next ((s.launches.filter (fun e => e.2.fn == vf && (id == 0 || e.1 == id))).foldl
        (fun t e => if (t.launchAt e.1).phase == .ended then t else t.endLaunch e.1 stKilled) s)
    -- restore
    ∧ (x.rstStat = 1 ∨ s.hasWork f = true → exec (.rstgo f) s = .next s)
    ∧ (x.rstStat ≠ 1 → s.hasWork f = false →
        -- bytes that are no image of this package hold one that another package took, which becomes the function's own, or none
        (s.imageOwner f x.rstBase = none → exec (.rstgo f) s = .next (match s.imageRead f x.rstBase with
          | none => s.setFn f { x with rstStat := 3 }
          | some im => (s.modCk f (fun k => { k with image := some im })).restoreFrom f f))
        ∧ (∀ g, s.imageOwner f x.rstBase = some g →
            let im := (s.fnAt g).ck.image.getD {}
            (s.shape f im = none → Runs (.rstgo f) s (fun t => t = s.restoreFail f g 3 12 ∧ (t.fnAt f).rstStat = 3))
            ∧ ((s.shape f im).isSome = true → s.areasFit f im = false →
                Runs (.rstgo f) s (fun t => t = s.restoreFail f g 4 13 ∧ (t.fnAt f).rstStat = 4))
            ∧ ((s.shape f im).isSome = true → s.areasFit f im = true → exec (.rstgo f) s
                = .next (s.setFn f { x with rstStat := 1, rstFrom := g, rstWaits := [], rstFail := false }))))
    ∧ (x.rstStat ≠ 1 → exec (.restoreDone f) s = .next s)
    ∧ (x.rstStat = 1 → x.rstFail = true →
        Runs (.restoreDone f) s (fun t => t = s.restoreFail f x.rstFrom 4 13 ∧ (t.fnAt f).rstStat = 4))
    ∧ (x.rstStat = 1 → x.rstFail = false →
        let im := (s.fnAt x.rstFrom).ck.image.getD {}
        let r := s.reside 0 f 0 im.ranges x.rstWaits
        (r.ok = false → exec (.restoreDone f) s = .next (r.s.setFn f { r.s.fnAt f with rstWaits := r.waits }))
        ∧ (r.ok = true → r.s.shape f im = none → exec (.restoreDone f) s = .next (r.s.restoreFail f x.rstFrom 3 12))
        ∧ (∀ hm, r.ok = true → r.s.shape f im = some hm →
            let u := r.s.setFn f { r.s.fnAt f with rstStat := 2, rstWaits := [] }
            let open_ := r.s.coresOpen f im (r.s.coreMap f im hm)
            (open_ = false → exec (.restoreDone f) s = .next r.s)
            ∧ (open_ = true → exec (.restoreDone f) s = .next ((if x.rstFrom = f then u
              else u.modCk x.rstFrom (fun k => { k with out_ := false, image := some {} })).writeBack f im hm))))
    -- chiplets
    ∧ (8 ≤ h → ∀ i ∈ [Instr.chipletReset h, .chipletFence h, .chipletDrop h], exec i s = .next s)
    ∧ (h < 8 → exec (.chipletReset h) s = .next (s.chipletReset h)
        ∧ Runs (.chipletFence h) s (fun t => t = s.chipletOut h .fenced ∧ ∀ i, i < 64 → (t.coreAt h i).status = .fenced
            ∧ (t.coreAt h i).rf = (s.coreAt h i).rf ∧ (t.coreAt h i).scratch = (s.coreAt h i).scratch
            ∧ (t.coreAt h i).groups = (s.coreAt h i).groups)
        ∧ Runs (.chipletDrop h) s (fun t => t = s.chipletOut h .dropped ∧ ∀ i, i < 64 → (t.coreAt h i).status = .fenced
            ∧ (t.coreAt h i).rf = (s.coreAt h i).rf ∧ (t.coreAt h i).scratch = (s.coreAt h i).scratch
            ∧ (t.coreAt h i).groups = (s.coreAt h i).groups))
    ∧ exec (.chipletFatal h act cause) s = .next ((s.logErr 0 14 h h cause).chipletAct h act)
    ∧ (h < 8 → s.chipletAct h 1 = s.chipletReset h ∧ s.chipletAct h 2 = s.chipletOut h .fenced
        ∧ s.chipletAct h 3 = s.chipletOut h .dropped)
    -- a stopped workgroup goes on
    ∧ (let y := s.coreAt h c
       (mfind y.wgs w = none → exec (.rsgo h c w) s = .next s)
       ∧ (∀ g, mfind y.wgs w = some g →
           let u := s.setCoreAt h c { y with wgs := mset y.wgs w { g with stopped := false, halting := 0 } }
           (g.stopped = false → exec (.rsgo h c w) s = .next s)
           ∧ (g.stopped = true → (g.halting = 0 ∨ mfind y.groups (g.halting - 1) = none) → exec (.rsgo h c w) s = .next u)
           ∧ (g.stopped = true → g.halting ≠ 0 → (mfind y.groups (g.halting - 1)).isSome = true → exec (.rsgo h c w) s
               = .next (((u.at_ { h := h, c := c, g := g.halting - 1 }).trapReturn false).at_ s.cur))))

/-! ### Tenancy and the device boundary -/

/-- R172, R378, R379, R382, R386, R391, R395: writes of the tenancy registers take effect or are refused as their rules say; a
scrub's end clears the group's hummocks and gives the waiting group its results; the dirty bitmap's buffers swap. The signing key
and its secrets are free values (notes/assumptions 8); the model's other choices are 28, 40 and 43. -/
def Obligations.TenancyEventsAct : Prop :=
  ∀ (s : State) (h c g f i v q k : Nat),
    let d := s.humAt h
    let r := d.regs
    let fn := s.fnAt f
    let now := s.chipTime
    let refuse := s.setHum h { d with regs := { r with refused := true } }
    -- registers of a hummock that does not exist
    (8 ≤ h → ∀ j ∈ [Instr.partWrite h f v, .connmatWrite h i v, .waymaskWrite h v, .shareWrite h q k v], exec j s = .next s)
    -- partitions: a sedge is added by a scrub alone, and removed while nothing works on it
    ∧ (h < 8 → f < 64 →
        let new : Part := { sedge := bitsOf v 0 8, msp := bitsOf v 8 8, en := bitOf v 16 }
        let old := r.partAt f
        let removed := andNot (if old.en then old.sedge else 0) (if new.en then new.sedge else 0)
        let deny := andNot new.sedge old.sedge != 0 || (new.en && !old.en && new.sedge != 0)
          || (removed != 0 && (s.sedgesBusy h f removed || s.hasCtx h f))
        exec (.partWrite h f v) s = .next (if deny then refuse
          else s.setHum h { d with regs := { r with part := mset r.part f { new with sedge := if new.en then new.sedge else 0 } } }))
    ∧ (h < 8 → i < 16 → exec (.connmatWrite h i v) s
        = .next (s.setHum h { d with regs := { r with connmat := mset r.connmat i (v % 65536) } }))
    -- ways: refused without a way for a function that holds a sedge, held under a scrub
    ∧ (h < 8 → exec (.waymaskWrite h v) s = .next (
        if v % 65536 = 0 && s.holdsSedge r.wayfn then refuse
        else if d.scrub.busy then
          s.setHum h { d with regs := { r with wayHeld := r.wayHeld ++ [(r.waysl, r.wayfn, v % 65536)] } }
        else s.setHum h { d with regs := { r with waymask := mset r.waymask (64 * r.waysl + r.wayfn) (v % 65536) } }))
    -- shares: the sum over the package stays within 224
    ∧ (h < 8 → q < 128 → k < 86 →
        let y : HwQueue := mget {} d.queues q
        exec (.shareWrite h q k v) s = .next (s.setHum h { d with
          queues := mset d.queues q (if s.sharesBut h q k + v % 65536 ≤ 224
            then { y with share := mset y.share k (v % 65536) } else { y with refused := true }) }))
    -- a scrub clears its structures and moves ownership, signs, and then its token is numbered and stored
    ∧ (s.scrubOf { h := h, c := c, g := g } = none → exec (.scrubComplete h c g) s = .next s)
    ∧ (∀ x, s.scrubOf { h := h, c := c, g := g } = some x →
        let e := ScrubDesc.of x.desc
        (x.signing = false → Runs (.scrubComplete h c g) s (fun t => t = s.scrubCleared e ∧ t.mem = s.mem
          ∧ (∀ a, a ∈ e.hums → (t.humAt a).scrub.signing = true ∧ (t.humAt a).scrub.done = e.cleared
            ∧ (t.humAt a).scrub.tend = s.chipTime
            ∧ (e.inNone = false → ((t.humAt a).regs.partAt e.inVf).en = true))))
        ∧ (x.signing = true → Runs (.scrubComplete h c g) s (fun t =>
          t = (s.scrubToken e x).scrubResult x.who x.seq ∧ t.mem = s.mem
          ∧ (e.inNone = false → (t.fnAt e.inVf).tokseq = x.seq
            ∧ (x.nonce.length = 32 → (t.fnAt e.inVf).token.length = 256))
          ∧ (∀ a, a ∈ e.hums → (t.humAt a).scrub.busy = false))))
    -- the dirty bitmap
    ∧ (fn.dbmBusy = true → exec (.dbmswap f) s = .next s)
    ∧ (fn.dbmBusy = false → ∃ at_, exec (.dbmswap f) s
        = .next (s.setFn f { fn with dbmBusy := true, dbmFlip := false, dbmNext := at_ })
        ∧ at_ % 1000 = 0 ∧ now + 2000 ≤ at_ ∧ at_ < now + 3000)
    ∧ WaitEnds (.dbmSwapInstant f) s (fn.dbmBusy && !fn.dbmFlip && decide (fn.dbmNext ≤ now))
        (s.setFn f { fn with dbmFlip := true, dbmAct := !fn.dbmAct })
    ∧ WaitEnds (.dbmSwapDone f) s (fn.dbmBusy && fn.dbmFlip)
        (s.setFn f { fn with dbmBusy := false, dbmFlip := false, dbmTsw := fn.dbmNext })

/-- R204, R214, R398, R404, R405, R409, R413 to R427: the events of the device: joining a domain and chip-time faults, firmware,
power and reset, rails, thermal trips, HBM banks and links, each with the entry it logs. The model's choices are
notes/assumptions 3, 8, 23, 24, 25, 28, 29, 30, 42, 44, 45 and 49. -/
def Obligations.DeviceEventsAct : Prop :=
  ∀ (s : State) (h c i p v cur t k bank cause link off dom line space n badHbm chiplets : Nat) (ports : List (Nat × Nat))
    (en fwOk readOk : Bool) (head rest : List Byte),
    let d := s.humAt h
    let r := d.regs
    let core := s.coreAt h c
    let now := s.chipTime
    let unit := if c < 64 then 64 * h + c else 512 + h
    -- joining a domain: once; the units lock, or log CLOCK_SKEW after 10 ms
    exec .domen s = .next (if s.pkg.domen then s else { s with pkg := { s.pkg with domen := true, domAt := now } })
    ∧ (let own := s.pkg.tref / 8 == s.pkg.pkgnum
       let at_ := (s.pkg.domAt / 1000 + 1) * 1000
       let go := s.pkg.domen && !s.pkg.domrdy && s.pkg.faulty.isEmpty && (!own || decide (at_ ≤ now))
       (go = false → exec (.domainEpochLock t) s = .next s)
       ∧ (go = true → Runs (.domainEpochLock t) s (fun u => u.pkg.domrdy = true ∧ u.pkg.up = s.pkg.measured
           ∧ u.chipTime = (if own then s.pkg.epoch + (now - at_) else t) % 2 ^ 64
           ∧ u = { s with pkg := u.pkg })))
    ∧ (let late := s.pkg.domen && !s.pkg.domrdy && decide (s.pkg.domAt + 10000000 ≤ now)
       (late = false → exec (.domainLockTimeout h c) s = .next s)
       ∧ (late = true → exec (.domainLockTimeout h c) s = .next (({ s with freeCtr := s.freeCtr + 1 } : State).logErr
           0 1 h (s.unitAddr h c) (Config.freeValue s.freeCtr).toNat)))
    -- a unit's chip time: its translations are dropped and the offset is logged
    ∧ (let a := signedOf 64 off
       let b := signedOf 64 dom
       ((s.faulty unit = true ∨ (a.natAbs ≤ 8 ∧ b.natAbs ≤ 64)) → exec (.clockSkew h c (off, dom)) s = .next s)
       ∧ (∀ x, s.faulty unit = false → (8 < a.natAbs ∧ x = a ∨ a.natAbs ≤ 8 ∧ 64 < b.natAbs ∧ x = b) →
           let u : State := { s with pkg := { s.pkg with faulty := mset s.pkg.faulty unit x } }
           exec (.clockSkew h c (off, dom)) s = .next ((if c < 64 then u.setCoreAt h c { core with tlb := [] }
             else u.setHum h { d with tlb := [], wcache := [] }).logErr 0 1 h (s.unitAddr h c) (word64 x))))
    ∧ Runs (.clockSkewRecover h c) s (fun u => u.faulty unit = false ∧ u = { s with pkg := { s.pkg with faulty := u.pkg.faulty } })
    -- firmware
    ∧ exec .fwgo s = .next (if s.pkg.fwstat = 1 then s else { s with pkg := { s.pkg with fwstat := 1 } })
    ∧ (s.pkg.fwstat ≠ 1 → exec (.firmwareCheckDone readOk) s = .next s)
    ∧ (s.pkg.fwstat = 1 →
        let p := if 4096 ≤ s.pkg.fwlen ∧ s.pkg.fwlen ≤ 2 ^ 26 then s.fwRead else (s, true)
        let u := p.1
        let base := u.pkg.fwbase
        let len := u.pkg.fwlen
        let ver := readN u.mem (base + 4) 4
        let body := readBytes u.mem base (len - 96)
        let sig := readBytes u.mem (base + (len - 96)) 96
        let signed := readN u.mem base 4 = 0x46574947
          ∧ verifyBytes Config.vendorKey body (leNat (sig.take 48).reverse) (leNat (sig.drop 48).reverse) = true
        let res : Nat × Nat :=
          if len < 4096 ∨ 2 ^ 26 < len then (5, 0)
          else if readOk = false ∨ p.2 = false then (3, 0)
          else if ¬ signed then (3, ver)
          else if ver < u.pkg.fwVersion then (4, ver) else (2, ver)
        exec (.firmwareCheckDone readOk) s = .next (({ u with pkg := { u.pkg with
          fwstat := res.1, fwNext := if res.1 = 2 then some (ver, sha384 body) else u.pkg.fwNext } } : State).logErr 0 15 0 res.1 res.2))
    -- power and reset
    ∧ (s.pkg.power = true → s.pkg.measured = true → exec (.powerOn (fwOk, badHbm, chiplets, ports)) s = .next s)
    ∧ (s.pkg.measured = false →
        exec (.powerOn (false, badHbm, chiplets, ports)) s = .next { s with pkg := { s.pkg with power := true, fwstat := 3 } }
        ∧ Runs (.powerOn (true, badHbm, chiplets, ports)) s (fun u =>
            u.pkg = { s.pkg with power := true, measured := true, up := s.pkg.domrdy }
            ∧ (∀ a, a < 8 → (u.humAt a).regs.fcen = true) ∧ (chiplets = 0 → u.cores = s.cores) ∧ u.mem = s.mem
            -- a failing stack reports no live bank; a failing port is fenced; a failing chiplet is held fenced
            ∧ (∀ a b, a < 8 → b < 2 → badHbm.testBit (2 * a + b) = true → ∀ o, (u.stackAt a b).liveBanks (64 * (o % 32)) = 0)
            ∧ (∀ p ∈ ports, 4 ≤ p.2 → hasLink p.1 p.2 = true → (u.linkAt p.1 p.2).fenced = true)
            ∧ (∀ a, a < 8 → chiplets.testBit a = true → (u.humAt a).chiplet = .fenced
                ∧ ∀ b, b < 64 → (u.coreAt a b).status = .fenced)))
    ∧ Runs .packageReset s (fun u => u.cores = [] ∧ u.hums = [] ∧ u.fns = [] ∧ u.launches = [] ∧ u.cards = []
        ∧ u.pkg.measured = false ∧ u.pkg.up = false ∧ u.pkg.power = s.pkg.power ∧ u.pkg.trip = s.pkg.trip ∧ u.chipTime = 0)
    ∧ Runs .powerLoss s (fun u => u.cores = [] ∧ u.hums = [] ∧ u.fns = [] ∧ u.pkg.power = false ∧ u.pkg.trip = false
        ∧ u.chipTime = 0)
    ∧ exec (.vfEnable en n) s = .next { s with pkg := { s.pkg with vfen := en, numvfs := min n 63 } }
    -- a data error marks its line
    ∧ exec (.uncorrectableError 0 h c line) s
        = .next (if s.poison.contains line then s else { s with poison := s.poison ++ [line] })
    ∧ (space ≠ 0 → exec (.uncorrectableError space h c line) s
        = .next (if core.poison.contains line || 3072 ≤ line then s else s.setCoreAt h c { core with poison := core.poison ++ [line] }))
    -- rails
    ∧ (h < 8 → p < 80 → Runs (.railSample h p v cur) s (fun u =>
        let x : RailPt := mget {} r.rails p
        let y : RailPt := mget {} (u.humAt h).regs.rails p
        y.vnow = v % 65536 ∧ y.vmin = min x.vmin (v % 65536) ∧ (v % 65536 < x.vmin → y.tmin = now % 2 ^ 48 ∧ p ∈ (u.humAt h).regs.minv)
        -- VSTEP is the offset from the neighbours' mean; SUSPECT needs it large while the rail's current is steady over 1 ms
        ∧ (let near := (railNeighbours p).map (fun q => (mget ({} : RailPt) r.rails q).vnow)
           let now1 := cur % 65536
           let last := ((r.current.filter (fun e => decide (now < e.2.1 + 1000000))).filter
             (fun e => e.1 == (if p < 64 then 0 else 1))).map (fun e => e.2.2)
           y.vstep = (((v % 65536 : Nat) : Int) * near.length - near.sum).tdiv near.length
           ∧ (y.suspect = true ↔ r.crkstep ≤ y.vstep.natAbs
              ∧ (last.foldl max now1 - last.foldl min now1) * 1000 < r.crkdi * now1))
        ∧ (x.suspect = false → y.since = now) ∧ (x.suspect = true → y.since = x.since)
        ∧ u.mem = s.mem ∧ u.cores = s.cores ∧ u.fns = s.fns))
    ∧ (h < 8 → k < 2 → Runs (.minvClear h k v) s (fun u => ∀ a, a / 64 = k → v.testBit (a % 64) = true →
        a ∉ (u.humAt h).regs.minv ∧ ∀ x, mfind (u.humAt h).regs.rails a = some x → x.vmin = 0xFFFF ∧ x.tmin = 0))
    ∧ (let x : RailPt := mget {} r.rails p
       let fire := x.suspect && !r.crack.contains p && decide (x.since + r.crktime * 100000 ≤ now)
       WaitEnds (.railCrack h p) s fire ((s.setHum h { d with regs := { r with
           crack := r.crack ++ [p], rails := mset r.rails p { x with suspect := false } } }).logErr 0 6 h p (word64 x.vstep)))
    -- thermal: trip states with 2 degrees of hysteresis; SHD trips the package, THR halves the clock, ADV is logged
    ∧ (h < 8 → i < 192 →
        let x := r.sensorAt i
        let z := signedOf 16 t
        let y : Sensor := { x with
          temp := z, isAdv := decide (x.adv ≤ z) || (x.isAdv && decide (x.adv - 32 < z))
          isThr := x.bad || decide (x.thr ≤ z) || (x.isThr && decide (x.thr - 32 < z))
          isShd := decide (x.shd ≤ z) || (x.isShd && decide (x.shd - 32 < z))
          hot := if x.thr ≤ z then some (x.hot.getD now) else none }
        exec (.thermalTrip h i t) s = .next (s.setSensor h i y)
        ∧ exec (.sensorFault h i) s = .next (s.setSensor h i { x with bad := true, isThr := true })
        ∧ (let u := s.setSensor h i y
           (u.pkg.trip = (s.pkg.trip || (y.isShd && !x.isShd))) ∧ (y.isThr = true → (u.humAt h).half = true)
           ∧ (u.humAt h).regs.sensorAt i = y))
    ∧ (h < 8 →
        let x := r.sensorAt r.thsel
        let a := signedOf 16 v
        let b := signedOf 16 (v / 2 ^ 16)
        let e := signedOf 16 (v / 2 ^ 32)
        let fits := decide (a ≤ b) && decide (b ≤ e) && decide (e ≤ (if 176 ≤ r.thsel then 1680 else 2000)) && decide (r.thsel < 192)
        exec (.thvalWrite h v) s = .next (if fits then
            let y := { x with adv := a, thr := b, shd := e }
            s.setSensor h r.thsel (y.at_ y.temp now)
          else s.setHum h { d with regs := { r with thref := true } }))
    ∧ (h < 8 → exec (.thermalForecast h t) s = .next (if r.fcen then
        s.setHum h { d with regs := { r with fctemp := signedOf 16 t, fcvalid := true, fctime := now } } else s))
    -- HBM banks: one retirement at a time, acknowledged, its frames moved, then LIVETOP falls by 48 MiB
    ∧ (s.mayRetire h k 1 = true ∧ (s.mayRetire h k 2 = true ↔ ∃ i q, 176 + 8 * k ≤ i ∧ i < 184 + 8 * k
        ∧ (r.sensorAt i).hot = some q ∧ q + 1000000000 ≤ now))
    ∧ (let x : Stack := mget {} d.banks k
       let frames := 1572864 - x.lowered - 768
       let y : Stack := { x with bank := bank, retiring := true, acked := false, remap := false, cause := cause, moved := 0 }
       let go := decide (h < 8) && decide (k < 2) && decide (bank < 2048) && !x.retiring && !x.dead.contains bank
         && s.mayRetire h k cause
       (go = false → exec (.bankRetiring h k bank cause) s = .next s)
       ∧ (go = true → Runs (.bankRetiring h k bank cause) s (fun u => mget {} (u.humAt h).banks k = y))
       ∧ WaitEnds (.bkack h k bank) s (decide (h < 8) && decide (k < 2) && x.retiring && x.bank == bank)
           (s.setHum h { d with banks := mset d.banks k { x with acked := true } })
       ∧ WaitEnds (.frameMove h k) s (x.retiring && x.acked && decide (x.moved < frames))
           (s.setHum h { d with banks := mset d.banks k { x with remap := true, moved := (x.moved + 1) % 2 ^ 32 } })
       ∧ (x.retiring = false ∨ x.acked = false ∨ x.moved < frames → exec (.bankRetired h k) s = .next s)
       ∧ (x.retiring = true → x.acked = true → frames ≤ x.moved → Runs (.bankRetired h k) s (fun u =>
           mget {} (u.humAt h).banks k = { x with
             dead := x.dead ++ [x.bank], retiring := false, acked := false, remap := false, lowered := x.lowered + 768 }
           ∧ (x.lowered + 768 ≤ 1572864 → u.livetop h k + 768 * 65536 = s.livetop h k))))
    -- links: a flit in order is acted on once and acknowledged; a bad one is retried, and the link fenced after 8 retries or 1 ms
    ∧ (let x : Link := mget {} d.links link
       let flit := head ++ rest
       let put := fun (y : Link) => s.setHum h { d with links := mset d.links link y }
       let retry : Link := { x with bad := x.bad + 1, retry := true, since := if x.bad = 0 then now else x.since }
       ((x.fenced = true ∨ hasLink h link = false) → exec (.flitReceive h link head rest) s = .next s)
       ∧ (x.fenced = false → hasLink h link = true →
           (goodFlit flit = none → exec (.flitReceive h link head rest) s = .next (put retry))
           ∧ (∀ hd body, goodFlit flit = some (hd, body) → flit.length = 256
               ∧ leNat (flit.drop 248) = crc64 ((flitHead flit).getD [] ++ body)
               ∧ WaitEnds (.flitReceive h link head rest) s (Config.flitSeq hd % 4096 == x.next)
                   (let n := (x.next + 1) % 4096
                    (put (({ x with next := n, told := n, bad := 0, retry := false } : Link).control hd)).takeFlit hd body)))
       -- what a header acknowledges, and what it asks for again, which then goes out in order
       ∧ (∀ hd n, (Config.flitCtl hd = none → x.control hd = x)
           ∧ (Config.flitCtl hd = some (true, n) → x.control hd = { x with acked := n % 4096 })
           ∧ (Config.flitCtl hd = some (false, n) → (x.control hd).acked = x.acked
               ∧ ∀ m, m ∈ (x.control hd).again ↔ ((mfind x.buffer m).isSome = true
                  ∧ ∃ i, i < (x.out + 4096 - n % 4096) % 4096 ∧ m = (n + i) % 4096)))
       ∧ (x.again = [] ∨ x.fenced = true → flitAgain h link s = .next s)
       ∧ (∀ n rest, x.again = n :: rest → x.fenced = false →
           flitAgain h link s = .next (put { x with again := rest, wire := mget [] x.buffer n }))
       ∧ (hasLink h link = false → exec (.linkFence h link) s = .next s ∧ exec (.linkgo h link) s = .next s)
       ∧ (hasLink h link = true →
           (x.fenced = false → WaitEnds (.linkFence h link) s
             (decide (9 ≤ x.bad) || (x.bad != 0 && decide (x.since + 1000000 ≤ now)))
             (((put { x with fenced := true }).logErr 0 5 h link 0).losePath h link))
           ∧ (x.fenced = true → exec (.linkFence h link) s = .next (s.losePath h link))
           ∧ exec (.linkgo h link) s = .next (put { x with fenced := false, bad := 0, retry := false })))

/-- R23, R235, R247, R357, R400 to R402, R408, R410, R427, R451: the host's accesses: registers in the blocks of Table 17.1 (an
unassigned offset is logged), the doorbell, lease queries, the watchdog limit, the apertures, which are unsupported until
bring-up has ended, and the map; a requester's accesses keep their order. The model's choices are notes/assumptions 3, 4, 7, 25, 28,
41, 44 and 47. -/
def Obligations.HostAccessesAct : Prop :=
  ∀ (s : State) (f h q tail va off v c port n : Nat),
    let fn := s.fnAt f
    let sees := s.hostSees f
    let first := fun (g : Nat) => ∀ x ∈ s.pkg.held, x.fn ≠ g
    (s.hostSees f = true ↔ f = 0 ∨ (f < 64 ∧ ¬ (s.pkg.fwstat = 3 ∧ s.pkg.measured = false)))
    -- an access follows every earlier one of its requester that waits, which is made again once it can be
    ∧ (∀ i a, (i, a) ∈ [(Instr.registerWrite f off v, HostAcc.regWrite f off v), (.hostApertureRead port f off n, .read port f off n),
          (.hostApertureWrite port f off n v, .write port f off n v), (.hostMapRead off, .mapRead off), (.hostMapWrite off v, .mapWrite off v)] →
        (∃ x ∈ s.pkg.held, x.fn = a.fn) → exec i s = .next (s.hostKeep a))
    ∧ (∀ a, (s.hostKeep a).pkg.held = s.pkg.held ++ [a])
    ∧ (first f → hostRetry f s = .next s)
    ∧ (∀ a, s.pkg.held.find? (fun x => x.fn == f) = some a →
        let u : State := { s with pkg := { s.pkg with held := s.pkg.held.erase a } }
        hostRetry f s = .next ((u.hostAct a).getD s))
    -- registers
    ∧ (first f → WaitEnds (.registerWrite f off v) s (sees && decide (off < 2 ^ 22)) (s.regWrite (f == 0) f off v))
    ∧ WaitEnds (.mgdataWrite f off v) s (decide (f < 64) && decide (off < 2 ^ 22)) (s.regWrite true f off v)
    ∧ WaitEnds (.mgdataRead f off) s (decide (f < 64) && decide (off < 2 ^ 22))
        { s with pkg := { s.pkg with resp := .data (s.regRead true f off) } }
    ∧ (∀ ms, s.pkg.power = true → first f → s.agenda = .readReg f off :: ms →
        let u := { s with agenda := ms }
        let x := if sees = true ∧ off < 2 ^ 22 then u.regRead (f == 0) f off else 0
        step s = .next (s.logBlocks { u with pkg := { u.pkg with resp := .data x } }))
    ∧ (∀ hyp, 0xE000 ≤ off → off < 0x200000 → s.regRead hyp f off = 0
        ∧ s.regWrite hyp f off v = s.logErr f 11 0 (off / 8 * 8) 0)
    ∧ (∀ hyp, v < 2 ^ 64 → (s.regWrite hyp f 0x3000 v).fnAt f = { fn with tren := bitOf v 0, root1 := bitsOf v 16 40 * 65536 }
        ∧ ((s.regWrite hyp f 0x5180 v).fnAt f) = { fn with tven := bitOf v 0, tvbase := bitsOf v 6 26 * 64 }
        ∧ ((s.regWrite hyp f 0x1028 v).fnAt f) = { fn with erren := bitOf v 0 })
    -- the doorbell
    ∧ (let y : HwQueue := mget {} (s.humAt h).queues q
       (8 ≤ h ∨ 128 ≤ q ∨ (first f ∧ sees = false) → exec (.hostDoorbell f h q tail) s = .next s)
       ∧ (first f → sees = true → h < 8 → q < 128 → (f = 0 ∨ y.fn = f) →
           (tail % 2 ^ 32 < 2 ^ (y.size + 6) → exec (.hostDoorbell f h q tail) s = .next (s.setHum h { s.humAt h with
             queues := mset (s.humAt h).queues q { y with tail := tail % 2 ^ 32 } }))
           ∧ (2 ^ (y.size + 6) ≤ tail % 2 ^ 32 → exec (.hostDoorbell f h q tail) s
               = .next (s.logErr y.fn 11 0 (0x200000 + 0x800 * (128 * h + q) + 0x10) 0))))
    -- lease queries
    ∧ WaitEnds (.lqva f va) s (!fn.lqbusy) (s.setFn f { fn with lqva := va % 2 ^ 52, lqbusy := true })
    ∧ ((fn.lqbusy = false ∨ s.faulty 512 = true) → exec (.leaseQueryDone f) s = .next s)
    ∧ (fn.lqbusy = true → s.faulty 512 = false →
        let w := s.queryWalk 0 f fn.lqva
        let lost := s.walkLost 0 f 0 w.2.reads
        (lost = true → exec (.leaseQueryDone f) s = .next (s.setFn f { fn with lqres := 0, lqbusy := false }))
        ∧ (lost = false → exec (.leaseQueryDone f) s
            = .next (w.1.setFn f { w.1.fnAt f with lqres := w.1.horizonOf w.2, lqbusy := false })))
    -- the watchdog limit, between 2^12 and 2^31
    ∧ (h < 8 → c < 64 → Runs (.wdlim h c false v) s (fun t => t = s.setCoreAt h c { s.coreAt h c with
        engine := { (s.coreAt h c).engine with wdog := max (2 ^ 12) (min (2 ^ 31) v) } }))
    ∧ Runs (.wdlim h c true v) s (fun t => ∀ a b, a < 8 → b < 64 → (t.coreAt a b).engine.wdog = max (2 ^ 12) (min (2 ^ 31) v))
    -- the apertures
    ∧ (first f → (s.pkg.up = false ∨ sees = false ∨ 2 ^ 36 < off + n) →
        exec (.hostApertureRead port f off n) s = .next { s with pkg := { s.pkg with resp := .unsupported } }
        ∧ exec (.hostApertureWrite port f off n v) s = .next s)
    ∧ (first f → s.pkg.up = true → sees = true → off + n ≤ 2 ^ 36 →
        let r := State.hostRead port f (n / 65536 + 2) s (fn.hwbase + off) n []
        (∀ bs, r.2 = .bytes bs → exec (.hostApertureRead port f off n) s
          = .next { r.1 with pkg := { r.1.pkg with resp := .data (leNat bs) } })
        ∧ (r.2 = .unsupported → exec (.hostApertureRead port f off n) s
          = .next { r.1 with pkg := { r.1.pkg with resp := .unsupported } })
        ∧ (r.2 = .abort → exec (.hostApertureRead port f off n) s = .next { r.1 with pkg := { r.1.pkg with resp := .abort } })
        ∧ (r.2 = .hold → exec (.hostApertureRead port f off n) s = .next (s.hostKeep (.read port f off n)))
        ∧ (let w := State.hostWrite port f (n / 65536 + 2) s off (fn.hwbase + off) (bytesOf n v)
           (w = none → exec (.hostApertureWrite port f off n v) s = .next (s.hostKeep (.write port f off n v)))
           ∧ (∀ t, w = some t → exec (.hostApertureWrite port f off n v) s = .next t)))
    -- the map
    ∧ (first 0 →
       let a := s.bar4 off
       let there := decide (off < 2 ^ 28) && s.inMap a 8
       let path := s.mapPath 0 1 10 a
       let lost := s.hostMapLost a
       let answer := fun (t : State) (x : HostResp) => { t with pkg := { t.pkg with resp := x } }
       let denied := s.logErr 0 4 1 (portPair 10 14) 0
       ((s.pkg.up && there) = false → exec (.hostMapRead off) s = .next (answer s .unsupported))
       ∧ (s.pkg.up = true → there = true →
           (path = false → exec (.hostMapRead off) s = .next (answer denied .unsupported))
           ∧ (path = true → lost = true → exec (.hostMapRead off) s = .next (answer s .abort))
           ∧ (path = true → lost = false → exec (.hostMapRead off) s
               = .next (answer { s with freeCtr := s.freeCtr + 1 } (.data (s.mapReadN true a 8)))))
       ∧ (s.pkg.up = false → exec (.hostMapWrite off v) s = .next s)
       ∧ (s.pkg.up = true → there = false → exec (.hostMapWrite off v) s = .next (s.logErr 0 3 1 a 0))
       ∧ (s.pkg.up = true → there = true → path = false → exec (.hostMapWrite off v) s = .next denied)
       ∧ (s.pkg.up = true → there = true → path = true → lost = true → exec (.hostMapWrite off v) s = .next s)
       ∧ (s.pkg.up = true → there = true → path = true → lost = false →
           (∀ b, s.localHum (mapHum a) = some b → mapQuiesced (mapCode a) = true →
             (s.coreAt b (mapCore a)).status ≠ .quiesced → exec (.hostMapWrite off v) s = .next (s.logErr 0 3 b a 0))
           ∧ ((mapQuiesced (mapCode a) = false ∨ ∀ b, s.localHum (mapHum a) = some b →
               (s.coreAt b (mapCore a)).status = .quiesced) →
             (mapCode a < 0x0C → exec (.hostMapWrite off v) s = .next ((s.keepHostWrite a 8 v).mapWrite a 8 v)
               ∧ ((∀ e ∈ s.fns, e.2.ck.image = none) → s.keepHostWrite a 8 v = s))
             ∧ (0x0C ≤ mapCode a → exec (.hostMapWrite off v) s = .next s))))

/-! ### Decoding, reset and the step -/

/-- R32 to R53, R34: words written out field by field from the encoding tables decode to the instructions they stand for. -/
def Obligations.WordsOfTheSpecDecode : Prop :=
  let D := fun (w : DWord) (i : Instr) => decode .user 64 w = .ok i
  D (0b10#2 ++ 0x02#8 ++ 5#7 ++ 3#7 ++ 1#4 ++ 0#3 ++ 1#1 ++ 7#32) (.sadd .eq 5 3 (.imm 7))
  ∧ D (0b10#2 ++ 0x47#8 ++ 9#7 ++ 0#7 ++ 0#4 ++ 0#3 ++ 0#1 ++ 0#32) (.ret .always 9)
  ∧ D (0b00#2 ++ 0x01#8 ++ 3#4 ++ 4#8 ++ 5#8 ++ 6#8 ++ 0#8 ++ 0x04#5 ++ 0#3 ++ 0#5 ++ 0#5) (.add 3 .s32 4 5 6)
  ∧ D (0b00#2 ++ 0x43#8 ++ 0#4 ++ 1#8 ++ 2#8 ++ 3#8 ++ 4#8 ++ 0x0C#5 ++ 1#3 ++ 0b10000#5 ++ 0#5)
      (.fma 0 .f32 .rz ⟨true, false, false, false⟩ 1 2 3 4)
  ∧ D (0b00#2 ++ 0xE0#8 ++ 0#4 ++ 7#8 ++ 0#8 ++ 0#2 ++ 0x12345678#32) (.movi 0 7 0x12345678)
  ∧ D (0b00#2 ++ 0x80#8 ++ 0#4 ++ 1#8 ++ 2#8 ++ 3#8 ++ 0#8 ++ 0#5 ++ 0#3 ++ 0#5 ++ 0#5) (.mand 0 1 2 3)
  ∧ D (0b01#2 ++ (0x00#7 ++ 0#3 ++ 1#7 ++ 2#7 ++ 0#3 ++ 0#1 ++ 0#3) ++ (0x40#7 ++ 1#3 ++ 3#7 ++ 4#7 ++ 0#3 ++ 1#1 ++ 2#3))
      (.pPair ⟨.addN32, 0, 1, 2, .rne, false⟩ ⟨.fadd, 1, 3, 4, .ru, true⟩)
  ∧ D (0b11#2 ++ 0x00#8 ++ 2#4 ++ 8#8 ++ 9#8 ++ 6#5 ++ 0x13#6 ++ 0#3 ++ (0x00#5 ++ 0x7FFC#15))
      (.ld .b32 ⟨2, 8, 9, 6, some 3, 0x7FFC⟩)
  ∧ D (0b11#2 ++ 0x40#8 ++ 0#4 ++ 0#8 ++ 0#8 ++ 0#5 ++ 23#6 ++ 0#3 ++ 0#20) (.barArr 0 23)
  ∧ D (0b11#2 ++ 0x6B#8 ++ 0#4 ++ 0#8 ++ 0#8 ++ 0#5 ++ 0#6 ++ 0#3 ++ (0#15 ++ 0b00101#5)) (.qfence 0 5)
  ∧ D (0b11#2 ++ 0x84#8 ++ 0#4 ++ 0#8 ++ 0#8 ++ 0#5 ++ 2#6 ++ 4#3 ++ (0#6 ++ 3#2 ++ 0#12)) (.maccZ 0 3 2)
  ∧ D (0b11#2 ++ 0xC4#8 ++ 0#4 ++ 6#8 ++ 0#8 ++ 0#5 ++ 0#6 ++ 0#3 ++ (0#8 ++ 0x010#12)) (.sysRd 0 6 0x010)

/-- R45, R50, R52, R53, Table 2.2: a reserved opcode raises ILLEGAL_OPCODE at every level and register count, whatever its other
fields hold, before any check of the level; a reserved opcode of the second half of a P word ILLEGAL_PAIR. -/
def Obligations.ReservedOpcodesRaiseTheirTraps : Prop :=
  ∀ (lvl : Level) (n : Nat) (w : DWord),
    let op := (w.extractLsb' 54 8).toNat
    let in_ := fun (x : Nat) (rs : List (Nat × Nat)) => ∃ r ∈ rs, r.1 ≤ x ∧ x ≤ r.2
    let p := fun x => in_ x [(0x16, 0x3F), (0x49, 0x7F)]
    (w.extractLsb' 62 2 = 0 → in_ op [(0x23, 0x3F), (0x59, 0x7F), (0x95, 0xDF), (0xF7, 0xFF)] →
      decode lvl n w = .error .illegalOpcode)
    ∧ (w.extractLsb' 62 2 = 2 → in_ op [(0x13, 0x3F), (0x4C, 0x5F), (0x66, 0xEF)] →
      decode lvl n w = .error .illegalOpcode)
    ∧ (w.extractLsb' 62 2 = 3 → in_ op [(0x14, 0x3F), (0x4B, 0x5F), (0x6D, 0x7F), (0x89, 0xBF), (0xD1, 0xFF)] →
      decode lvl n w = .error .illegalOpcode)
    ∧ (w.extractLsb' 62 2 = 1 → p (w.extractLsb' 55 7).toNat → decode lvl n w = .error .illegalOpcode)
    ∧ (w.extractLsb' 62 2 = 1 → ¬ p (w.extractLsb' 55 7).toNat → p (w.extractLsb' 24 7).toNat →
      decode lvl n w = .error .illegalPair)

/-- R34, R53: decoding the word of a well-formed instruction gives the instruction back, at every level and register count at
which it is well formed, except that a word whose opcode the level may not use raises PRIVILEGE. -/
def Obligations.EncodeDecodeRoundTrip : Prop :=
  ∀ (i : Instr) (lvl : Level) (n : Nat) (w : DWord), wellFormed n lvl i = true → encode i = some w →
    decode lvl n w =
      if w.extractLsb' 62 2 = 3 ∧ lvl.rank < (xLevel (w.extractLsb' 54 8).toNat).rank then .error .privilege else .ok i

/-- The reset values of Tables 15.6, 16.1, 17.3, 17.5 and 17.7 (R362, R379, R404, R417, R418), R26 and R391: what the PF's registers
and the handler segments hold at reset; the memory invariant holds. Values the spec does not state are not named (notes/assumptions 2). -/
def Obligations.ResetHoldsTheStatedValues : Prop :=
  let s := State.reset
  let reg := s.regRead true 0
  MemOk s ∧ s.chipTime = 0 ∧ s.pkg.scrubSeq = 0
  ∧ (∀ h, h < 8 →
      (∀ i, i < 16 → reg (0x6000 + 0x400 * h + 8 * i) = 0xFFFF)
      ∧ (∀ f, f < 64 → reg (0x6080 + 0x400 * h + 8 * f) = if f = 0 then 0x1FFFF else 0)
      ∧ reg (0x6300 + 0x400 * h) = 0 ∧ reg (0x6308 + 0x400 * h) = 0xFFFF ∧ reg (0x6310 + 0x400 * h) = 0
      ∧ reg (0x8000 + 0x800 * h) = 60 + 20 * 2 ^ 8 + 100 * 2 ^ 16
      ∧ (∀ o ∈ [0x08, 0x10, 0x18, 0x20, 0x28, 0x38, 0x40, 0x48, 0x50], reg (0x8000 + 0x800 * h + o) = 0)
      ∧ reg (0xD040 + 8 * h) = h % 4 + h / 4 * 2 ^ 8 + 2 ^ 16)
  ∧ reg 0xD000 = 0 ∧ reg 0xD008 = 0 ∧ reg 0xD010 = 0 ∧ reg 0xD018 = 0
  ∧ ({} : RailPt).toNat = 0xFFFF * 2 ^ 64
  ∧ ∀ f, (∀ i, i < 8 → i ≠ 5 → (s.fnAt f).hsegAt i = {})
      ∧ ((s.fnAt f).hsegAt 5).base = 0 ∧ ((s.fnAt f).hsegAt 5).size = 2 ^ 48 ∧ ((s.fnAt f).hsegAt 5).r = true
      ∧ ((s.fnAt f).hsegAt 5).w = true ∧ ((s.fnAt f).hsegAt 5).x = false ∧ ((s.fnAt f).hsegAt 5).valid = true

/-- Memory stays in its one canonical form: every step of every state keeps it (R3). -/
def Obligations.EveryStepKeepsMemoryCanonical : Prop := ∀ s t : State, MemOk s → step s = .next t → MemOk t

/-- R32, R34: a group that may issue fetches the word at its PC: a fetch check that fails raises its trap, a page not yet
translated is asked for, a word that does not decode takes its decode trap, and a word that decodes to an instruction runs it; an
event of the agenda acts as `exec` says. A step then enters the map blocks that it wrote in the undo logs of checkpointed functions
(R368), and changes nothing more where no function is checkpointed. The order of moves and the instant of an issue are the model's
choices (notes/assumptions 4, 16 and 22). -/
def Obligations.AStepRunsTheDecodedInstruction : Prop :=
  (∀ (s : State) (h c g : Nat) (ms : List Move), s.pkg.power = true → s.agenda = .issue h c g :: ms →
    let r : GRef := { h := h, c := c, g := g }
    let u := { s with agenda := ms }
    let on := fun (y : State) => step s = .next (s.logBlocks y)
    (u.canIssue r = false → on u)
    ∧ (u.canIssue r = true →
      let v := ({ u.issueTime r with cur := r }).noteIssue
      (∀ code addr, v.fetch = .trap code addr → on ((v.trap code 0 addr).afterIssue r))
      ∧ (v.fetch = .hold → on u)
      ∧ (∀ va, v.fetch = .walk va → on ((v.askWalk (v.fetchWalk va)).afterIssue r))
      ∧ ∀ (w : DWord) (hpa : Nat) (t : Tlb), v.fetch = .word w hpa t →
        let x := v.afterFetch w hpa t
        (∀ i, decode x.grp.lvl x.wg.n w = .ok i → ∀ y, exec i x = .next y → on (y.afterIssue r))
        ∧ (∀ e, decode x.grp.lvl x.wg.n w = .error e → on ((x.trap (decodeCode e)).afterIssue r))))
  ∧ (∀ (s : State) (i : Instr) (ms : List Move), s.pkg.power = true → s.agenda = .event i :: ms → encode i = none →
      ∀ y, exec i { s with agenda := ms } = .next y → step s = .next (s.logBlocks y))
  ∧ ∀ s y : State, (∀ e ∈ y.fns, e.2.ck.en = false) → s.logBlocks y = y

/-- The machine goes on from every state with power: every instruction and event answers a next state, traps and waits included
(R8, R351); without power only power-on does (R427). The fault without power is notes/assumptions 49. -/
def Obligations.EveryStepWithPowerGoesOn : Prop :=
  ∀ s : State, (s.pkg.power = true → Goes s)
    ∧ (s.pkg.power = false → (∀ b ms, s.agenda ≠ .event (.powerOn b) :: ms) → step s = .fault .powerLost)
end

