-- ==== Sys2Proof/Laws/Containers.lean ====
section
/-! SUPPORT. Laws of the numbered maps and of byte memory: a read after a write, what a write leaves alone, and
that every memory operation keeps the canonical form. -/

namespace Sys2Proof.Machine

variable {α : Type}

/-! ### Numbered maps -/

theorem mfind_mset (m : NMap α) (k j : Nat) (v : α) :
    mfind (mset m k v) j = if j = k then some v else mfind m j := by
  induction m with
  | nil => simp only [mset, mfind, eq_comm]
  | cons e m ih =>
    obtain ⟨i, w⟩ := e
    simp only [mset]
    by_cases h1 : k < i
    · rw [if_pos h1]
      by_cases h2 : j = k
      · simp [mfind, h2]
      · simp [mfind, h2, Ne.symm h2]
    · rw [if_neg h1]
      by_cases h2 : i = k
      · subst h2
        by_cases h3 : j = i <;> simp [mfind, h3, eq_comm]
      · rw [if_neg h2]
        by_cases h3 : i = j
        · subst h3; simp [mfind, h2]
        · simp only [mfind, if_neg h3, ih]

@[simp] theorem mfind_mset_self (m : NMap α) (k : Nat) (v : α) : mfind (mset m k v) k = some v := by
  simp [mfind_mset]

theorem mfind_mset_ne (m : NMap α) {k j : Nat} (v : α) (h : j ≠ k) : mfind (mset m k v) j = mfind m j := by
  simp [mfind_mset, h]

theorem mget_mset (d : α) (m : NMap α) (k j : Nat) (v : α) :
    mget d (mset m k v) j = if j = k then v else mget d m j := by
  simp only [mget, mfind_mset]
  split <;> rfl

@[simp] theorem mget_mset_self (d : α) (m : NMap α) (k : Nat) (v : α) : mget d (mset m k v) k = v := by
  simp [mget_mset]

theorem mget_mset_ne (d : α) (m : NMap α) {k j : Nat} (v : α) (h : j ≠ k) :
    mget d (mset m k v) j = mget d m j := by simp [mget_mset, h]

@[simp] theorem mset_mset (m : NMap α) (k : Nat) (v w : α) : mset (mset m k v) k w = mset m k w := by
  induction m with
  | nil => simp [mset]
  | cons e m ih =>
    obtain ⟨i, x⟩ := e
    simp only [mset]
    by_cases h1 : k < i
    · simp [h1, mset]
    · by_cases h2 : i = k
      · subst h2; simp [mset]
      · simp [h1, h2, mset, ih]

@[simp] theorem mget_nil (d : α) (k : Nat) : mget d [] k = d := rfl
@[simp] theorem mfind_nil (k : Nat) : mfind ([] : NMap α) k = none := rfl

theorem mfind_mdel (m : NMap α) (k j : Nat) : mfind (mdel m k) j = if j = k then none else mfind m j := by
  induction m with
  | nil => simp [mdel, mfind]
  | cons e m ih =>
    obtain ⟨i, w⟩ := e
    by_cases h1 : i = k
    · subst h1
      simp only [mdel, List.filter_cons, bne_self_eq_false, Bool.false_eq_true, if_false] at ih ⊢
      rw [ih]
      by_cases h2 : j = i
      · simp [h2]
      · simp [mfind, h2, Ne.symm h2]
    · simp only [mdel, List.filter_cons, bne_iff_ne, ne_eq, h1, not_false_eq_true, if_true, mfind] at ih ⊢
      rw [ih]
      by_cases h2 : i = j
      · subst h2; simp [h1]
      · simp [h2]

theorem mget_mdel (d : α) (m : NMap α) (k j : Nat) : mget d (mdel m k) j = if j = k then d else mget d m j := by
  simp only [mget, mfind_mdel]
  split <;> rfl

/-! ### Bytes of memory -/

theorem memRead_memWrite (m : Memory) (a b : Nat) (v : Byte) :
    memRead (memWrite m a v) b = if b = a then v else memRead m b := by
  unfold memRead memWrite
  by_cases h : v = Memory.unlisted
  · rw [if_pos h, mget_mdel, h]
  · rw [if_neg h, mget_mset]

/-- Every listed address lies above a bound. -/
def above (a : Nat) (m : Memory) : Prop := ∀ e ∈ m, a < e.1

theorem wf_cons (e : Host.Cell) (m : Memory) :
    Memory.wf (e :: m) = true ↔ e.2 ≠ Memory.unlisted ∧ above e.1 m ∧ Memory.wf m = true := by
  induction m generalizing e with
  | nil => obtain ⟨a, b⟩ := e; simp [Memory.wf, above]
  | cons x m ih =>
    obtain ⟨a, b⟩ := e
    obtain ⟨a', b'⟩ := x
    have h := ih (a', b')
    simp only [Memory.wf, Bool.and_eq_true, decide_eq_true_eq, bne_iff_ne, ne_eq, above, List.mem_cons,
      forall_eq_or_imp]
    simp only [above] at h
    constructor
    · rintro ⟨⟨h1, h2⟩, h3⟩
      exact ⟨h2, ⟨h1, fun e he => Nat.lt_trans h1 ((h.mp h3).2.1 e he)⟩, h3⟩
    · rintro ⟨h2, ⟨h1, _⟩, h3⟩
      exact ⟨⟨h1, h2⟩, h3⟩

theorem above_filter {a : Nat} {m : Memory} (p : Host.Cell → Bool) (h : above a m) : above a (m.filter p) :=
  fun e he => h e (List.mem_filter.mp he).1

/-- Removing bytes keeps the canonical form. -/
theorem wf_filter (p : Host.Cell → Bool) {m : Memory} (h : Memory.wf m = true) : Memory.wf (m.filter p) = true := by
  induction m with
  | nil => rfl
  | cons e m ih =>
    obtain ⟨h1, h2, h3⟩ := (wf_cons e m).mp h
    rw [List.filter_cons]
    split
    · exact (wf_cons _ _).mpr ⟨h1, above_filter p h2, ih h3⟩
    · exact ih h3

theorem above_mset {a k : Nat} {m : Memory} {v : Byte} (hk : a < k) (h : above a m) : above a (mset m k v) := by
  induction m with
  | nil => intro e he; simp [mset] at he; simpa [he] using hk
  | cons x m ih =>
    obtain ⟨i, w⟩ := x
    have hi := h (i, w) (by simp)
    have hm : above a m := fun e he => h e (by simp [he])
    simp only [mset]
    split
    · intro e he
      rcases List.mem_cons.mp he with rfl | he
      · exact hk
      · exact h e he
    · split
      · intro e he
        rcases List.mem_cons.mp he with rfl | he
        · exact hk
        · exact hm e he
      · intro e he
        rcases List.mem_cons.mp he with rfl | he
        · exact hi
        · exact ih hm e he

theorem wf_mset {m : Memory} (k : Nat) {v : Byte} (hv : v ≠ Memory.unlisted) (h : Memory.wf m = true) :
    Memory.wf (mset m k v) = true := by
  induction m with
  | nil => exact (wf_cons (k, v) []).mpr ⟨hv, by simp [above], rfl⟩
  | cons x m ih =>
    obtain ⟨i, w⟩ := x
    obtain ⟨h1, h2, h3⟩ := (wf_cons (i, w) m).mp h
    simp only [mset]
    split
    · refine (wf_cons _ _).mpr ⟨hv, ?_, h⟩
      intro e he
      rcases List.mem_cons.mp he with rfl | he
      · assumption
      · exact Nat.lt_trans ‹_› (h2 e he)
    · split
      · exact (wf_cons _ _).mpr ⟨hv, by subst k; exact h2, h3⟩
      · exact (wf_cons _ _).mpr ⟨h1, above_mset (by simp only; omega) h2, ih h3⟩

/-- Writing a byte keeps the canonical form. -/
theorem wf_memWrite {m : Memory} (a : Nat) (b : Byte) (h : Memory.wf m = true) : Memory.wf (memWrite m a b) = true := by
  unfold memWrite
  split
  · exact wf_filter _ h
  · exact wf_mset a ‹_› h

/-- Writing a number keeps the canonical form. -/
theorem wf_writeN {m : Memory} (n : Nat) (a v : Nat) (h : Memory.wf m = true) : Memory.wf (writeN m a n v) = true := by
  induction n generalizing m a v with
  | zero => exact h
  | succ n ih => exact ih _ _ (wf_memWrite a _ h)

/-- Writing bytes keeps the canonical form. -/
theorem wf_writeBytes {m : Memory} (bs : List Byte) (a : Nat) (h : Memory.wf m = true) :
    Memory.wf (writeBytes m a bs) = true := by
  induction bs generalizing m a with
  | nil => exact h
  | cons b bs ih => exact ih _ (wf_memWrite a _ h)

theorem wf_zeroRange {m : Memory} (a n : Nat) (h : Memory.wf m = true) : Memory.wf (zeroRange m a n) = true :=
  wf_filter _ h

/-- What a number's store leaves in memory: its bytes at their places, every other byte as before. -/
theorem memRead_writeN (m : Memory) (a n v b : Nat) :
    memRead (writeN m a n v) b =
      if a ≤ b ∧ b < a + n then BitVec.ofNat 8 (v / 256 ^ (b - a)) else memRead m b := by
  induction n generalizing m a v with
  | zero => simp only [writeN]; rw [if_neg (by omega)]
  | succ n ih =>
    simp only [writeN, ih, memRead_memWrite]
    by_cases h : b = a
    · subst h
      rw [if_neg (by omega), if_pos rfl, if_pos (by omega)]
      simp
    · by_cases h1 : a ≤ b ∧ b < a + (n + 1)
      · rw [if_pos (by omega), if_pos h1, Nat.div_div_eq_div_mul, ← Nat.pow_succ',
          show (b - (a + 1)).succ = b - a by omega]
      · rw [if_neg (by omega), if_neg h, if_neg h1]

/-- What a store of bytes leaves in memory. -/
theorem memRead_writeBytes (m : Memory) (a b : Nat) (bs : List Byte) :
    memRead (writeBytes m a bs) b =
      if a ≤ b ∧ b < a + bs.length then bs.getD (b - a) 0 else memRead m b := by
  induction bs generalizing m a with
  | nil => simp only [writeBytes, List.length_nil]; rw [if_neg (by omega)]
  | cons x bs ih =>
    simp only [writeBytes, ih, memRead_memWrite, List.length_cons]
    by_cases h : b = a
    · subst h
      rw [if_neg (by omega), if_pos rfl, if_pos (by omega)]
      simp
    · by_cases h1 : a ≤ b ∧ b < a + (bs.length + 1)
      · obtain ⟨k, rfl⟩ : ∃ k, b = a + (k + 1) := ⟨b - a - 1, by omega⟩
        rw [if_pos (by omega), if_pos h1, show a + (k + 1) - (a + 1) = k by omega,
          show a + (k + 1) - a = k + 1 by omega, List.getD_cons_succ]
      · rw [if_neg (by omega), if_neg h, if_neg h1]

/-- A number read back from where it was stored. -/
theorem readN_writeN (m : Memory) (a n v : Nat) : readN (writeN m a n v) a n = v % 256 ^ n := by
  suffices h : ∀ k j u, (∀ i < k, memRead (writeN m a n v) (j + i) = BitVec.ofNat 8 (u / 256 ^ i)) →
      readN (writeN m a n v) j k = u % 256 ^ k by
    apply h
    intro i hi
    rw [memRead_writeN, if_pos (by omega), Nat.add_sub_cancel_left]
  intro k
  induction k with
  | zero => intro j u _; simp [readN, Nat.mod_one]
  | succ k ih =>
    intro j u hb
    rw [readN, ih (j + 1) (u / 256)]
    · have h0 := hb 0 (by omega)
      simp only [Nat.add_zero, Nat.pow_zero, Nat.div_one] at h0
      rw [h0, BitVec.toNat_ofNat, show 256 ^ (k + 1) = 256 * 256 ^ k from Nat.pow_succ', Nat.mod_mul]
    · intro i hi
      rw [Nat.div_div_eq_div_mul, ← Nat.pow_succ', ← hb (i + 1) (by omega)]
      congr 1; omega

end Sys2Proof.Machine
end

