-- ==== Sys2Proof/Laws/Fields.lean ====
section
/-! SUPPORT. What the reader of a word finds in each frame: the fields of `fWord`, `iWord`, `sWord` and
`xWord` come back, and so does every coded field. -/

namespace Sys2Proof.Laws

set_option Elab.async false

/-! ### Coded fields -/

theorem ty_ofCode (t : Ty) : Ty.ofCode t.code = some t := by cases t <;> rfl
theorem rnd_ofCode (t : Rnd) : Rnd.ofCode t.code = some t := by cases t <;> rfl
theorem rnd4_ofCode (t : Rnd4) : Rnd4.ofCode t.code = some t := by cases t <;> rfl
theorem scond_ofCode (t : SCond) : SCond.ofCode t.code = some t := by cases t <;> rfl
theorem ssel_ofCode (t : SSel) : SSel.ofCode t.code = some t := by cases t <;> rfl
theorem icond_ofCode (t : ICond) : ICond.ofCode t.code = some t := by cases t <;> rfl
theorem immCond_ofCode (t : ImmCond) : ImmCond.ofCode t.code = some t := by cases t <;> rfl
theorem fcond_ofCode (t : FCond) : FCond.ofCode t.code = some t := by cases t <;> rfl
theorem gop_ofCode (t : GOp) : GOp.ofCode t.code = some t := by cases t <;> rfl
theorem fenceMode_ofCode (t : FenceMode) : FenceMode.ofCode t.code = some t := by cases t <;> rfl
theorem aop_ofCode (t : AOp) : AOp.ofCode t.code = some t := by cases t <;> rfl
theorem had_ofCode (t : Had) : Had.ofCode t.code = some t := by cases t <;> rfl
theorem fill_ofCode (t : Fill) : Fill.ofCode t.code = some t := by cases t <;> rfl
theorem l2op_ofCode (t : L2Op) : L2Op.ofCode t.code = some t := by cases t <;> rfl
theorem pop_ofCode (t : POp) : POp.ofCode t.code = some t := by cases t <;> rfl

theorem signs_ofField (s : Signs) (b : Bool) : Signs.ofField (s.field b) = s := by
  obtain ⟨x, y, z, u⟩ := s
  cases x <;> cases y <;> cases z <;> cases u <;> cases b <;> rfl
theorem signs_sat (s : Signs) (b : Bool) : (s.field b).getLsbD 0 = b := by
  obtain ⟨x, y, z, u⟩ := s
  cases x <;> cases y <;> cases z <;> cases u <;> cases b <;> rfl

/-! ### The number of an appended field -/

theorem toNat_app {a b : Nat} (x : BitVec a) (y : BitVec b) : (x ++ y).toNat = x.toNat * 2 ^ b + y.toNat := by
  rw [BitVec.toNat_append, Nat.shiftLeft_eq, Nat.mul_comm, ← Nat.two_pow_add_eq_or_of_lt y.isLt]

theorem toNat_bit1 (b : Bool) : (bit1 b).toNat = b.toNat := by cases b <;> rfl

/-- The number of an X word. -/
theorem xWord_toNat (op : BitVec 8) (m : MReg) (a b : BitVec 8) (buf : BufR) (bar : BarR) (q : BitVec 3)
    (mod : BitVec 20) : (xWord op m a b buf bar q mod).toNat =
      3 * 2 ^ 62 + op.toNat * 2 ^ 54 + m.toNat * 2 ^ 50 + a.toNat * 2 ^ 42 + b.toNat * 2 ^ 34 +
        buf.toNat * 2 ^ 29 + bar.toNat * 2 ^ 23 + q.toNat * 2 ^ 20 + mod.toNat := by
  show @BitVec.toNat (2 + 8 + 4 + 8 + 8 + 5 + 6 + 3 + 20) _ = _
  unfold xWord; simp only [toNat_app]; simp only [BitVec.toNat_ofNat]; omega

/-- The number of an S word. -/
theorem sWord_toNat (op : BitVec 8) (d s : SCode) (c : SCond) (md : BitVec 3) (i : Bool) (imm : Word) :
    (sWord op d s c md i imm).toNat =
      2 * 2 ^ 62 + op.toNat * 2 ^ 54 + d.toNat * 2 ^ 47 + s.toNat * 2 ^ 40 + c.code.toNat * 2 ^ 36 +
        md.toNat * 2 ^ 33 + (bit1 i).toNat * 2 ^ 32 + imm.toNat := by
  show @BitVec.toNat (2 + 8 + 7 + 7 + 4 + 3 + 1 + 32) _ = _
  unfold sWord; simp only [toNat_app]; simp only [BitVec.toNat_ofNat]; omega

/-- The number of an F word of the immediate form. -/
theorem iWord_toNat (op : BitVec 8) (m : MReg) (d a : BitVec 8) (v : BitVec 2) (imm : Word) :
    (iWord op m d a v imm).toNat =
      op.toNat * 2 ^ 54 + m.toNat * 2 ^ 50 + d.toNat * 2 ^ 42 + a.toNat * 2 ^ 34 + v.toNat * 2 ^ 32 +
        imm.toNat := by
  show @BitVec.toNat (2 + 8 + 4 + 8 + 8 + 2 + 32) _ = _
  unfold iWord; simp only [toNat_app]; simp only [BitVec.toNat_ofNat]; omega

/-- The number of an F word of the register form. -/
theorem fWord_toNat (op : BitVec 8) (m : MReg) (d a b c : BitVec 8) (ty : Ty) (rm : Rnd)
    (mods sub : BitVec 5) : (fWord op m d a b c ty rm mods sub).toNat =
      op.toNat * 2 ^ 54 + m.toNat * 2 ^ 50 + d.toNat * 2 ^ 42 + a.toNat * 2 ^ 34 + b.toNat * 2 ^ 26 +
        c.toNat * 2 ^ 18 + ty.code.toNat * 2 ^ 13 + rm.code.toNat * 2 ^ 10 + mods.toNat * 2 ^ 5 + sub.toNat := by
  show @BitVec.toNat (2 + 8 + 4 + 8 + 8 + 8 + 8 + 5 + 3 + 5 + 5) _ = _
  unfold fWord; simp only [toNat_app]; simp only [BitVec.toNat_ofNat]; omega

/-- A field of a word from the word's number. -/
theorem field_eq {n k s : Nat} {w : BitVec n} {f : BitVec k} (h : w.toNat / 2 ^ s % 2 ^ k = f.toNat) :
    w.extractLsb' s k = f := by
  apply BitVec.eq_of_toNat_eq
  rw [BitVec.extractLsb'_toNat, Nat.shiftRight_eq_div_pow, h]

/-- A bit of a word from the word's number. -/
theorem getLsbD_of_toNat {n s : Nat} {w : BitVec n} {b : Bool} (h : w.toNat / 2 ^ s % 2 = b.toNat) :
    w.getLsbD s = b := by
  rw [BitVec.getLsbD, Nat.testBit_eq_decide_div_mod_eq, h]
  cases b <;> rfl

theorem getLsbD_bit1 {n s : Nat} {w : BitVec n} {b : Bool} (h : w.toNat / 2 ^ s % 2 = (bit1 b).toNat) :
    w.getLsbD s = b := getLsbD_of_toNat (by rw [h, toNat_bit1])

/-! ### The fields of the composite operands, named by their first bit -/

theorem memMod_15 (t : Ty) (off : BitVec 15) : (memMod t off : BitVec 20).extractLsb' 15 5 = t.code := by
  apply field_eq; unfold memMod; rw [toNat_app]; try simp only [BitVec.toNat_ofNat]
  omega
theorem memMod_0 (t : Ty) (off : BitVec 15) : (memMod t off : BitVec 20).extractLsb' 0 15 = off := by
  apply field_eq; unfold memMod; rw [toNat_app]; try simp only [BitVec.toNat_ofNat]
  omega
theorem atomMod_15 (t : Ty) (op : AOp) (off : BitVec 11) : (atomMod t op off : BitVec 20).extractLsb' 15 5 = t.code := by
  apply field_eq; unfold atomMod; rw [toNat_app, toNat_app]; try simp only [BitVec.toNat_ofNat]
  omega
theorem atomMod_11 (t : Ty) (op : AOp) (off : BitVec 11) : (atomMod t op off : BitVec 20).extractLsb' 11 4 = op.code := by
  apply field_eq; unfold atomMod; rw [toNat_app, toNat_app]; try simp only [BitVec.toNat_ofNat]
  omega
theorem atomMod_0 (t : Ty) (op : AOp) (off : BitVec 11) : (atomMod t op off : BitVec 20).extractLsb' 0 11 = off := by
  apply field_eq; unfold atomMod; rw [toNat_app, toNat_app]; try simp only [BitVec.toNat_ofNat]
  omega
theorem fenceMod_16 (x : BitVec 4) : (x ++ 0#16 : BitVec 20).extractLsb' 16 4 = x := by
  apply field_eq; rw [toNat_app]; try simp only [BitVec.toNat_ofNat]
  omega
theorem offMod_0 (x : BitVec 15) : (0#5 ++ x : BitVec 20).extractLsb' 0 15 = x := by
  apply field_eq; rw [toNat_app]; try simp only [BitVec.toNat_ofNat]
  omega
theorem convField_0 (x : BitVec 3) : (0#3 ++ x : BitVec 6).extractLsb' 0 3 = x := by
  apply field_eq; rw [toNat_app]; try simp only [BitVec.toNat_ofNat]
  omega
theorem chanField_0 (x : BitVec 4) : (0#2 ++ x : BitVec 6).extractLsb' 0 4 = x := by
  apply field_eq; rw [toNat_app]; try simp only [BitVec.toNat_ofNat]
  omega
theorem queueField_0 (x : BitVec 2) : (0#1 ++ x : BitVec 3).extractLsb' 0 2 = x := by
  apply field_eq; rw [toNat_app]; try simp only [BitVec.toNat_ofNat]
  omega
theorem countMod_0 (x : BitVec 11) : (0#9 ++ x : BitVec 20).extractLsb' 0 11 = x := by
  apply field_eq; rw [toNat_app]; try simp only [BitVec.toNat_ofNat]
  omega
theorem countMod_12 (x : BitVec 11) : (0#9 ++ x : BitVec 20).getLsbD 12 = false := by
  apply getLsbD_of_toNat; rw [toNat_app]; simp only [BitVec.toNat_ofNat, Bool.toNat_false]; omega
theorem tcopyMod_0 (s f tr out : Bool) (h : Had) (c t : Ty) : (0#4 ++ bit1 s ++ bit1 f ++ h.code ++ c.code ++ t.code ++ bit1 tr ++ bit1 out : BitVec 20).getLsbD 0 = out := by
  apply getLsbD_bit1; rw [toNat_app, toNat_app, toNat_app, toNat_app, toNat_app, toNat_app, toNat_app]; try simp only [BitVec.toNat_ofNat]
  omega
theorem tcopyMod_1 (s f tr out : Bool) (h : Had) (c t : Ty) : (0#4 ++ bit1 s ++ bit1 f ++ h.code ++ c.code ++ t.code ++ bit1 tr ++ bit1 out : BitVec 20).getLsbD 1 = tr := by
  apply getLsbD_bit1; rw [toNat_app, toNat_app, toNat_app, toNat_app, toNat_app, toNat_app, toNat_app]; try simp only [BitVec.toNat_ofNat]
  omega
theorem tcopyMod_2 (s f tr out : Bool) (h : Had) (c t : Ty) : (0#4 ++ bit1 s ++ bit1 f ++ h.code ++ c.code ++ t.code ++ bit1 tr ++ bit1 out : BitVec 20).extractLsb' 2 5 = t.code := by
  apply field_eq; rw [toNat_app, toNat_app, toNat_app, toNat_app, toNat_app, toNat_app, toNat_app]; try simp only [BitVec.toNat_ofNat]
  omega
theorem tcopyMod_7 (s f tr out : Bool) (h : Had) (c t : Ty) : (0#4 ++ bit1 s ++ bit1 f ++ h.code ++ c.code ++ t.code ++ bit1 tr ++ bit1 out : BitVec 20).extractLsb' 7 5 = c.code := by
  apply field_eq; rw [toNat_app, toNat_app, toNat_app, toNat_app, toNat_app, toNat_app, toNat_app]; try simp only [BitVec.toNat_ofNat]
  omega
theorem tcopyMod_12 (s f tr out : Bool) (h : Had) (c t : Ty) : (0#4 ++ bit1 s ++ bit1 f ++ h.code ++ c.code ++ t.code ++ bit1 tr ++ bit1 out : BitVec 20).extractLsb' 12 2 = h.code := by
  apply field_eq; rw [toNat_app, toNat_app, toNat_app, toNat_app, toNat_app, toNat_app, toNat_app]; try simp only [BitVec.toNat_ofNat]
  omega
theorem tcopyMod_14 (s f tr out : Bool) (h : Had) (c t : Ty) : (0#4 ++ bit1 s ++ bit1 f ++ h.code ++ c.code ++ t.code ++ bit1 tr ++ bit1 out : BitVec 20).getLsbD 14 = f := by
  apply getLsbD_bit1; rw [toNat_app, toNat_app, toNat_app, toNat_app, toNat_app, toNat_app, toNat_app]; try simp only [BitVec.toNat_ofNat]
  omega
theorem tcopyMod_15 (s f tr out : Bool) (h : Had) (c t : Ty) : (0#4 ++ bit1 s ++ bit1 f ++ h.code ++ c.code ++ t.code ++ bit1 tr ++ bit1 out : BitVec 20).getLsbD 15 = s := by
  apply getLsbD_bit1; rw [toNat_app, toNat_app, toNat_app, toNat_app, toNat_app, toNat_app, toNat_app]; try simp only [BitVec.toNat_ofNat]
  omega
theorem gatherMod_0 (x : BitVec 2) (y : BitVec 5) : (0#13 ++ x ++ y : BitVec 20).extractLsb' 0 5 = y := by
  apply field_eq; rw [toNat_app, toNat_app]; try simp only [BitVec.toNat_ofNat]
  omega
theorem gatherMod_5 (x : BitVec 2) (y : BitVec 5) : (0#13 ++ x ++ y : BitVec 20).extractLsb' 5 2 = x := by
  apply field_eq; rw [toNat_app, toNat_app]; try simp only [BitVec.toNat_ofNat]
  omega
theorem scatterMod_0 (x : BitVec 5) : (0#15 ++ x : BitVec 20).extractLsb' 0 5 = x := by
  apply field_eq; rw [toNat_app]; try simp only [BitVec.toNat_ofNat]
  omega
theorem packMod_6 (x : BitVec 2) (y : BitVec 5) (z : BitVec 6) : (0#7 ++ x ++ y ++ z : BitVec 20).extractLsb' 6 5 = y := by
  apply field_eq; rw [toNat_app, toNat_app, toNat_app]; try simp only [BitVec.toNat_ofNat]
  omega
theorem packMod_11 (x : BitVec 2) (y : BitVec 5) (z : BitVec 6) : (0#7 ++ x ++ y ++ z : BitVec 20).extractLsb' 11 2 = x := by
  apply field_eq; rw [toNat_app, toNat_app, toNat_app]; try simp only [BitVec.toNat_ofNat]
  omega
theorem packMod_0 (x : BitVec 2) (y : BitVec 5) (z : BitVec 6) : (0#7 ++ x ++ y ++ z : BitVec 20).extractLsb' 0 6 = z := by
  apply field_eq; rw [toNat_app, toNat_app, toNat_app]; try simp only [BitVec.toNat_ofNat]
  omega
theorem unpackMod_6 (y : BitVec 5) (z : BitVec 6) : (0#9 ++ y ++ z : BitVec 20).extractLsb' 6 5 = y := by
  apply field_eq; rw [toNat_app, toNat_app]; try simp only [BitVec.toNat_ofNat]
  omega
theorem unpackMod_0 (y : BitVec 5) (z : BitVec 6) : (0#9 ++ y ++ z : BitVec 20).extractLsb' 0 6 = z := by
  apply field_eq; rw [toNat_app, toNat_app]; try simp only [BitVec.toNat_ofNat]
  omega
theorem mdMod_0 (n : BitVec 8) (s : Bool) (x : BitVec 2) : (0#9 ++ n ++ bit1 s ++ x : BitVec 20).extractLsb' 0 2 = x := by
  apply field_eq; rw [toNat_app, toNat_app, toNat_app]; try simp only [BitVec.toNat_ofNat]
  omega
theorem mdMod_2 (n : BitVec 8) (s : Bool) (x : BitVec 2) : (0#9 ++ n ++ bit1 s ++ x : BitVec 20).getLsbD 2 = s := by
  apply getLsbD_bit1; rw [toNat_app, toNat_app, toNat_app]; try simp only [BitVec.toNat_ofNat]
  omega
theorem mdMod_3 (n : BitVec 8) (s : Bool) (x : BitVec 2) : (0#9 ++ n ++ bit1 s ++ x : BitVec 20).extractLsb' 3 8 = n := by
  apply field_eq; rw [toNat_app, toNat_app, toNat_app]; try simp only [BitVec.toNat_ofNat]
  omega
theorem linesMod_0 (x : BitVec 12) : (0#8 ++ x : BitVec 20).extractLsb' 0 12 = x := by
  apply field_eq; rw [toNat_app]; try simp only [BitVec.toNat_ofNat]
  omega
theorem twoTyMod_0 (x y : BitVec 5) : (0#10 ++ x ++ y : BitVec 20).extractLsb' 0 5 = y := by
  apply field_eq; rw [toNat_app, toNat_app]; try simp only [BitVec.toNat_ofNat]
  omega
theorem twoTyMod_5 (x y : BitVec 5) : (0#10 ++ x ++ y : BitVec 20).extractLsb' 5 5 = x := by
  apply field_eq; rw [toNat_app, toNat_app]; try simp only [BitVec.toNat_ofNat]
  omega
theorem streamMod_0 (q s t : BitVec 2) (mx sp : Bool) (x y : BitVec 5) : (0#2 ++ q ++ s ++ t ++ bit1 mx ++ bit1 sp ++ x ++ y : BitVec 20).extractLsb' 0 5 = y := by
  apply field_eq; rw [toNat_app, toNat_app, toNat_app, toNat_app, toNat_app, toNat_app, toNat_app]; try simp only [BitVec.toNat_ofNat]
  omega
theorem streamMod_5 (q s t : BitVec 2) (mx sp : Bool) (x y : BitVec 5) : (0#2 ++ q ++ s ++ t ++ bit1 mx ++ bit1 sp ++ x ++ y : BitVec 20).extractLsb' 5 5 = x := by
  apply field_eq; rw [toNat_app, toNat_app, toNat_app, toNat_app, toNat_app, toNat_app, toNat_app]; try simp only [BitVec.toNat_ofNat]
  omega
theorem streamMod_10 (q s t : BitVec 2) (mx sp : Bool) (x y : BitVec 5) : (0#2 ++ q ++ s ++ t ++ bit1 mx ++ bit1 sp ++ x ++ y : BitVec 20).getLsbD 10 = sp := by
  apply getLsbD_bit1; rw [toNat_app, toNat_app, toNat_app, toNat_app, toNat_app, toNat_app, toNat_app]; try simp only [BitVec.toNat_ofNat]
  omega
theorem streamMod_11 (q s t : BitVec 2) (mx sp : Bool) (x y : BitVec 5) : (0#2 ++ q ++ s ++ t ++ bit1 mx ++ bit1 sp ++ x ++ y : BitVec 20).getLsbD 11 = mx := by
  apply getLsbD_bit1; rw [toNat_app, toNat_app, toNat_app, toNat_app, toNat_app, toNat_app, toNat_app]; try simp only [BitVec.toNat_ofNat]
  omega
theorem streamMod_12 (q s t : BitVec 2) (mx sp : Bool) (x y : BitVec 5) : (0#2 ++ q ++ s ++ t ++ bit1 mx ++ bit1 sp ++ x ++ y : BitVec 20).extractLsb' 12 2 = t := by
  apply field_eq; rw [toNat_app, toNat_app, toNat_app, toNat_app, toNat_app, toNat_app, toNat_app]; try simp only [BitVec.toNat_ofNat]
  omega
theorem streamMod_14 (q s t : BitVec 2) (mx sp : Bool) (x y : BitVec 5) : (0#2 ++ q ++ s ++ t ++ bit1 mx ++ bit1 sp ++ x ++ y : BitVec 20).extractLsb' 14 2 = s := by
  apply field_eq; rw [toNat_app, toNat_app, toNat_app, toNat_app, toNat_app, toNat_app, toNat_app]; try simp only [BitVec.toNat_ofNat]
  omega
theorem streamMod_16 (q s t : BitVec 2) (mx sp : Bool) (x y : BitVec 5) : (0#2 ++ q ++ s ++ t ++ bit1 mx ++ bit1 sp ++ x ++ y : BitVec 20).extractLsb' 16 2 = q := by
  apply field_eq; rw [toNat_app, toNat_app, toNat_app, toNat_app, toNat_app, toNat_app, toNat_app]; try simp only [BitVec.toNat_ofNat]
  omega
theorem tileMod_0 (st : Bool) (k t : BitVec 2) (mx : Bool) (x y : BitVec 5) : (0#3 ++ bit1 st ++ k ++ t ++ bit1 mx ++ 0#1 ++ x ++ y : BitVec 20).extractLsb' 0 5 = y := by
  apply field_eq; rw [toNat_app, toNat_app, toNat_app, toNat_app, toNat_app, toNat_app, toNat_app]; try simp only [BitVec.toNat_ofNat]
  omega
theorem tileMod_5 (st : Bool) (k t : BitVec 2) (mx : Bool) (x y : BitVec 5) : (0#3 ++ bit1 st ++ k ++ t ++ bit1 mx ++ 0#1 ++ x ++ y : BitVec 20).extractLsb' 5 5 = x := by
  apply field_eq; rw [toNat_app, toNat_app, toNat_app, toNat_app, toNat_app, toNat_app, toNat_app]; try simp only [BitVec.toNat_ofNat]
  omega
theorem tileMod_11 (st : Bool) (k t : BitVec 2) (mx : Bool) (x y : BitVec 5) : (0#3 ++ bit1 st ++ k ++ t ++ bit1 mx ++ 0#1 ++ x ++ y : BitVec 20).getLsbD 11 = mx := by
  apply getLsbD_bit1; rw [toNat_app, toNat_app, toNat_app, toNat_app, toNat_app, toNat_app, toNat_app]; try simp only [BitVec.toNat_ofNat]
  omega
theorem tileMod_16 (st : Bool) (k t : BitVec 2) (mx : Bool) (x y : BitVec 5) : (0#3 ++ bit1 st ++ k ++ t ++ bit1 mx ++ 0#1 ++ x ++ y : BitVec 20).getLsbD 16 = st := by
  apply getLsbD_bit1; rw [toNat_app, toNat_app, toNat_app, toNat_app, toNat_app, toNat_app, toNat_app]; try simp only [BitVec.toNat_ofNat]
  omega
theorem tileMod_12 (st : Bool) (k t : BitVec 2) (mx : Bool) (x y : BitVec 5) : (0#3 ++ bit1 st ++ k ++ t ++ bit1 mx ++ 0#1 ++ x ++ y : BitVec 20).extractLsb' 12 2 = t := by
  apply field_eq; rw [toNat_app, toNat_app, toNat_app, toNat_app, toNat_app, toNat_app, toNat_app]; try simp only [BitVec.toNat_ofNat]
  omega
theorem tileMod_14 (st : Bool) (k t : BitVec 2) (mx : Bool) (x y : BitVec 5) : (0#3 ++ bit1 st ++ k ++ t ++ bit1 mx ++ 0#1 ++ x ++ y : BitVec 20).extractLsb' 14 2 = k := by
  apply field_eq; rw [toNat_app, toNat_app, toNat_app, toNat_app, toNat_app, toNat_app, toNat_app]; try simp only [BitVec.toNat_ofNat]
  omega
theorem accMod_12 (t : BitVec 2) : (0#6 ++ t ++ 0#12 : BitVec 20).extractLsb' 12 2 = t := by
  apply field_eq; rw [toNat_app, toNat_app]; try simp only [BitVec.toNat_ofNat]
  omega
theorem accTyMod_12 (t : BitVec 2) (x : BitVec 5) : (0#6 ++ t ++ 0#7 ++ x : BitVec 20).extractLsb' 12 2 = t := by
  apply field_eq; rw [toNat_app, toNat_app, toNat_app]; try simp only [BitVec.toNat_ofNat]
  omega
theorem accTyMod_0 (t : BitVec 2) (x : BitVec 5) : (0#6 ++ t ++ 0#7 ++ x : BitVec 20).extractLsb' 0 5 = x := by
  apply field_eq; rw [toNat_app, toNat_app, toNat_app]; try simp only [BitVec.toNat_ofNat]
  omega
theorem cfgMod_0 (f : Bool) (x : BitVec 3) (y : BitVec 4) : (0#12 ++ bit1 f ++ x ++ y : BitVec 20).extractLsb' 0 4 = y := by
  apply field_eq; rw [toNat_app, toNat_app, toNat_app]; try simp only [BitVec.toNat_ofNat]
  omega
theorem cfgMod_4 (f : Bool) (x : BitVec 3) (y : BitVec 4) : (0#12 ++ bit1 f ++ x ++ y : BitVec 20).extractLsb' 4 3 = x := by
  apply field_eq; rw [toNat_app, toNat_app, toNat_app]; try simp only [BitVec.toNat_ofNat]
  omega
theorem cfgMod_7 (f : Bool) (x : BitVec 3) (y : BitVec 4) : (0#12 ++ bit1 f ++ x ++ y : BitVec 20).getLsbD 7 = f := by
  apply getLsbD_bit1; rw [toNat_app, toNat_app, toNat_app]; try simp only [BitVec.toNat_ofNat]
  omega
theorem skipMod_0 (s : Bool) : (0#19 ++ bit1 s : BitVec 20).getLsbD 0 = s := by
  apply getLsbD_bit1; rw [toNat_app]; try simp only [BitVec.toNat_ofNat]
  omega
theorem segMod_0 (h : Bool) (x : BitVec 3) : (0#16 ++ bit1 h ++ x : BitVec 20).extractLsb' 0 3 = x := by
  apply field_eq; rw [toNat_app, toNat_app]; try simp only [BitVec.toNat_ofNat]
  omega
theorem segMod_3 (h : Bool) (x : BitVec 3) : (0#16 ++ bit1 h ++ x : BitVec 20).getLsbD 3 = h := by
  apply getLsbD_bit1; rw [toNat_app, toNat_app]; try simp only [BitVec.toNat_ofNat]
  omega
theorem segNoMod_0 (x : BitVec 3) : (0#17 ++ x : BitVec 20).extractLsb' 0 3 = x := by
  apply field_eq; rw [toNat_app]; try simp only [BitVec.toNat_ofNat]
  omega
theorem l2Mod_12 (x : BitVec 2) (y : BitVec 12) : (0#6 ++ x ++ y : BitVec 20).extractLsb' 12 2 = x := by
  apply field_eq; rw [toNat_app, toNat_app]; try simp only [BitVec.toNat_ofNat]
  omega
theorem l2Mod_0 (x : BitVec 2) (y : BitVec 12) : (0#6 ++ x ++ y : BitVec 20).extractLsb' 0 12 = y := by
  apply field_eq; rw [toNat_app, toNat_app]; try simp only [BitVec.toNat_ofNat]
  omega
theorem stageMod_16 (s : Bool) : (0#3 ++ bit1 s ++ 0#16 : BitVec 20).getLsbD 16 = s := by
  apply getLsbD_bit1; rw [toNat_app, toNat_app]; try simp only [BitVec.toNat_ofNat]
  omega
theorem uMod_0 (u : Bool) : (uMod u : BitVec 3).getLsbD 0 = u := by
  apply getLsbD_bit1; unfold uMod; rw [toNat_app]; try simp only [BitVec.toNat_ofNat]
  omega
theorem sreadImm_0 (x : BitVec 5) (y : BitVec 8) : (0#19 ++ x ++ y : BitVec 32).extractLsb' 0 8 = y := by
  apply field_eq; rw [toNat_app, toNat_app]; try simp only [BitVec.toNat_ofNat]
  omega
theorem sreadImm_8 (x : BitVec 5) (y : BitVec 8) : (0#19 ++ x ++ y : BitVec 32).extractLsb' 8 5 = x := by
  apply field_eq; rw [toNat_app, toNat_app]; try simp only [BitVec.toNat_ofNat]
  omega
theorem sreadImm_13 (x : BitVec 5) (y : BitVec 8) : (0#19 ++ x ++ y : BitVec 32).getLsbD 13 = false := by
  apply getLsbD_of_toNat; rw [toNat_app, toNat_app]; simp only [BitVec.toNat_ofNat, Bool.toNat_false]; omega
theorem sreadCode_0 (y : BitVec 8) : (0#18 ++ 1#1 ++ 0#5 ++ y : BitVec 32).extractLsb' 0 8 = y := by
  apply field_eq; rw [toNat_app, toNat_app, toNat_app]; try simp only [BitVec.toNat_ofNat]
  omega
theorem sreadCode_13 (y : BitVec 8) : (0#18 ++ 1#1 ++ 0#5 ++ y : BitVec 32).getLsbD 13 = true := by
  apply getLsbD_of_toNat; rw [toNat_app, toNat_app, toNat_app]; simp only [BitVec.toNat_ofNat, Bool.toNat_true]; omega
theorem maskCode_0 (x : MReg) : (maskCode x : BitVec 7).extractLsb' 0 4 = x := by
  apply field_eq; unfold maskCode; rw [toNat_app]; try simp only [BitVec.toNat_ofNat]
  omega
theorem codeImm_0 (x : BitVec 7) : (0#25 ++ x : BitVec 32).extractLsb' 0 7 = x := by
  apply field_eq; rw [toNat_app]; try simp only [BitVec.toNat_ofNat]
  omega
theorem trapImm_0 (x : BitVec 16) : (0#16 ++ x : BitVec 32).extractLsb' 0 16 = x := by
  apply field_eq; rw [toNat_app]; try simp only [BitVec.toNat_ofNat]
  omega
theorem spawnImm_28 (s : BitVec 4) (f : BitVec 8) (x : BitVec 20) : (s ++ f ++ x : BitVec 32).extractLsb' 28 4 = s := by
  apply field_eq; rw [toNat_app, toNat_app]; try simp only [BitVec.toNat_ofNat]
  omega
theorem spawnImm_20 (s : BitVec 4) (f : BitVec 8) (x : BitVec 20) : (s ++ f ++ x : BitVec 32).extractLsb' 20 8 = f := by
  apply field_eq; rw [toNat_app, toNat_app]; try simp only [BitVec.toNat_ofNat]
  omega
theorem spawnImm_0 (s : BitVec 4) (f : BitVec 8) (x : BitVec 20) : (s ++ f ++ x : BitVec 32).extractLsb' 0 20 = x := by
  apply field_eq; rw [toNat_app, toNat_app]; try simp only [BitVec.toNat_ofNat]
  omega
theorem spawnCode_3 (d : BitVec 4) (k : BitVec 3) : (d ++ k : BitVec 7).extractLsb' 3 4 = d := by
  apply field_eq; rw [toNat_app]; try simp only [BitVec.toNat_ofNat]
  omega
theorem spawnCode_0 (d : BitVec 4) (k : BitVec 3) : (d ++ k : BitVec 7).extractLsb' 0 3 = k := by
  apply field_eq; rw [toNat_app]; try simp only [BitVec.toNat_ofNat]
  omega
theorem hiMod_0 (x : BitVec 1) : (0#2 ++ x : BitVec 3).extractLsb' 0 1 = x := by
  apply field_eq; rw [toNat_app]; try simp only [BitVec.toNat_ofNat]
  omega
theorem reformMod_0 (x : BitVec 1) : (0b10#2 ++ x : BitVec 3).extractLsb' 0 1 = x := by
  apply field_eq; rw [toNat_app]; try simp only [BitVec.toNat_ofNat]
  omega
theorem reformMod_2 (x : BitVec 1) : (0b10#2 ++ x : BitVec 3).getLsbD 2 = true := by
  apply getLsbD_of_toNat; rw [toNat_app]; simp only [BitVec.toNat_ofNat, Bool.toNat_true]; omega
theorem jpostImm_0 (k : BitVec 4) (c : BitVec 6) : (0#20 ++ k ++ 0#2 ++ c : BitVec 32).extractLsb' 0 6 = c := by
  apply field_eq; rw [toNat_app, toNat_app, toNat_app]; try simp only [BitVec.toNat_ofNat]
  omega
theorem jpostImm_8 (k : BitVec 4) (c : BitVec 6) : (0#20 ++ k ++ 0#2 ++ c : BitVec 32).extractLsb' 8 4 = k := by
  apply field_eq; rw [toNat_app, toNat_app, toNat_app]; try simp only [BitVec.toNat_ofNat]
  omega
theorem mField_0 (x : MReg) : (mField x : BitVec 8).extractLsb' 0 4 = x := by
  apply field_eq; unfold mField; rw [toNat_app]; try simp only [BitVec.toNat_ofNat]
  omega
theorem srcField_0 (x : SCode) : (0#1 ++ x : BitVec 8).extractLsb' 0 7 = x := by
  apply field_eq; rw [toNat_app]; try simp only [BitVec.toNat_ofNat]
  omega
theorem satMods_0 (s : Bool) : (0#4 ++ bit1 s : BitVec 5).getLsbD 0 = s := by
  apply getLsbD_bit1; rw [toNat_app]; try simp only [BitVec.toNat_ofNat]
  omega
theorem posSub_0 (x : BitVec 2) : (0#3 ++ x : BitVec 5).extractLsb' 0 2 = x := by
  apply field_eq; rw [toNat_app]; try simp only [BitVec.toNat_ofNat]
  omega
theorem redSub_0 (x : BitVec 3) : (0#2 ++ x : BitVec 5).extractLsb' 0 3 = x := by
  apply field_eq; rw [toNat_app]; try simp only [BitVec.toNat_ofNat]
  omega
theorem scanSub_0 (e : Bool) (x : BitVec 3) : (bit1 e ++ 0#1 ++ x : BitVec 5).extractLsb' 0 3 = x := by
  apply field_eq; rw [toNat_app, toNat_app]; try simp only [BitVec.toNat_ofNat]
  omega
theorem scanSub_4 (e : Bool) (x : BitVec 3) : (bit1 e ++ 0#1 ++ x : BitVec 5).getLsbD 4 = e := by
  apply getLsbD_bit1; rw [toNat_app, toNat_app]; try simp only [BitVec.toNat_ofNat]
  omega
theorem signVar_1 (u : Bool) : (bit1 u ++ 0#1 : BitVec 2).getLsbD 1 = u := by
  apply getLsbD_bit1; rw [toNat_app]; try simp only [BitVec.toNat_ofNat]
  omega
theorem satVar_1 (u : Bool) : (bit1 u ++ 1#1 : BitVec 2).getLsbD 1 = u := by
  apply getLsbD_bit1; rw [toNat_app]; try simp only [BitVec.toNat_ofNat]
  omega
theorem shiftImm_0 (x : BitVec 5) : (0#27 ++ x : BitVec 32).extractLsb' 0 5 = x := by
  apply field_eq; rw [toNat_app]; try simp only [BitVec.toNat_ofNat]
  omega
theorem bfxImm_0 (y : BitVec 6) (x : BitVec 5) : (0#18 ++ y ++ 0#3 ++ x : BitVec 32).extractLsb' 0 5 = x := by
  apply field_eq; rw [toNat_app, toNat_app, toNat_app]; try simp only [BitVec.toNat_ofNat]
  omega
theorem bfxImm_8 (y : BitVec 6) (x : BitVec 5) : (0#18 ++ y ++ 0#3 ++ x : BitVec 32).extractLsb' 8 6 = y := by
  apply field_eq; rw [toNat_app, toNat_app, toNat_app]; try simp only [BitVec.toNat_ofNat]
  omega

/-! ### Operands with a form of their own -/

theorem repOf_repField (r : Option MReg) : repOf (repField r) = r := by
  cases r with
  | none => rfl
  | some m =>
    have h : (0b01#2 ++ m : BitVec 6).toNat = 16 + m.toNat := by
      rw [toNat_app]; rfl
    have h4 : (0b01#2 ++ m : BitVec 6).extractLsb' 0 4 = m := field_eq (by omega)
    unfold repOf repField
    simp only
    have h0 : (0 : BitVec 6).toNat = 0 := rfl
    rw [if_neg (fun e => by have := congrArg BitVec.toNat e; omega), h4]

theorem readOp2_field (b : Op2) : readOp2 b.isImm b.field = b := by
  cases b with
  | imm v => rfl
  | code c => exact congrArg Op2.code (codeImm_0 c)

theorem link_join (l : Reg) :
    ((l.extractLsb' 7 1 : BitVec 1) ++ (l.extractLsb' 0 7 : BitVec 7) : BitVec 8) = l := by
  apply BitVec.eq_of_toNat_eq
  rw [toNat_app, BitVec.extractLsb'_toNat, BitVec.extractLsb'_toNat, Nat.shiftRight_eq_div_pow]; omega

theorem count_join (k : BitVec 4) :
    ((k.extractLsb' 3 1 : BitVec 1) ++ (k.extractLsb' 0 3 : BitVec 3) : BitVec 4) = k := by
  apply BitVec.eq_of_toNat_eq
  rw [toNat_app, BitVec.extractLsb'_toNat, BitVec.extractLsb'_toNat, Nat.shiftRight_eq_div_pow]; omega

theorem phaseMod_0 (p : Option Reg) : (phaseMod p).getLsbD 0 = p.isSome := by
  unfold phaseMod; exact skipMod_0 _

theorem pHalf_toNat (p : PHalf) : (pHalf p).toNat =
    p.op.code.toNat * 2 ^ 24 + p.m.toNat * 2 ^ 21 + p.d.toNat * 2 ^ 14 + p.b.toNat * 2 ^ 7 + (bit1 p.nb).toNat * 2 ^ 3 + p.rm.code.toNat := by
  show @BitVec.toNat (7 + 3 + 7 + 7 + 3 + 1 + 3) _ = _
  unfold pHalf; simp only [toNat_app]; simp only [BitVec.toNat_ofNat]; omega

theorem parseHalf_pHalf (p : PHalf) : parseHalf (pHalf p) = some p := by
  have e := pHalf_toNat p
  unfold parseHalf
  generalize pHalf p = w at e
  rw [field_eq (s := 24) (f := p.op.code) (by omega), field_eq (s := 0) (f := p.rm.code) (by omega),
    field_eq (s := 21) (f := p.m) (by omega), field_eq (s := 14) (f := p.d) (by omega),
    field_eq (s := 7) (f := p.b) (by omega), getLsbD_bit1 (s := 3) (b := p.nb) (by omega), pop_ofCode, rnd_ofCode]
  rfl

/-- What the decoder makes of a word: the instruction it parses to, its opcode being assigned. -/
def Reads (i : Instr) (w : DWord) : Prop := parse w = some i ∧ opcodeCheck .hypervisor w = none

variable {i : Instr} {op : BitVec 8} {m : MReg}

theorem reads_xWord {a b : BitVec 8} {buf : BufR} {bar : BarR} {q : BitVec 3} {mod : BitVec 20}
    (h : xArm op m a b buf bar q mod = some i) (ho : xAssigned op.toNat = true) :
    Reads i (xWord op m a b buf bar q mod) := by
  have e := xWord_toNat op m a b buf bar q mod
  generalize xWord op m a b buf bar q mod = w at e
  have hop : w.extractLsb' 54 8 = op := field_eq (by omega)
  have h2 : w.extractLsb' 62 2 = 3#2 := field_eq (by simp only [BitVec.toNat_ofNat]; omega)
  constructor
  · unfold parse parseX
    rw [h2, hop, field_eq (f := m) (by omega), field_eq (s := 42) (f := a) (by omega),
      field_eq (s := 34) (f := b) (by omega), field_eq (s := 29) (f := buf) (by omega),
      field_eq (s := 23) (f := bar) (by omega), field_eq (s := 20) (f := q) (by omega),
      field_eq (s := 0) (f := mod) (by omega)]
    exact h
  · unfold opcodeCheck
    rw [h2, hop]
    show (if (!xAssigned op.toNat) = true then _ else if Level.rank .hypervisor < _ then _ else _) = _
    rw [ho]
    have : (xLevel op.toNat).rank ≤ Level.rank .hypervisor := by cases xLevel op.toNat <;> decide
    simp only [Bool.not_true, Bool.false_eq_true, if_false, if_neg (Nat.not_lt.mpr this)]

theorem reads_sWord {d s : SCode} {c : SCond} {md : BitVec 3} {b : Bool} {imm : Word}
    (h : sArm op d s c md b imm = some i) (hh : op.toNat < 240) (ho : sAssigned op.toNat = true) :
    Reads i (sWord op d s c md b imm) := by
  have e := sWord_toNat op d s c md b imm
  generalize sWord op d s c md b imm = w at e
  have hop : w.extractLsb' 54 8 = op := field_eq (by omega)
  have h2 : w.extractLsb' 62 2 = 2#2 := field_eq (by simp only [BitVec.toNat_ofNat]; omega)
  have hb := toNat_bit1 b
  have hbl : b.toNat < 2 := b.toNat_lt
  constructor
  · unfold parse parseS
    have hf : ¬ w.extractLsb' 58 4 = 0xF#4 := by
      intro hc
      have := congrArg BitVec.toNat hc
      rw [BitVec.extractLsb'_toNat, Nat.shiftRight_eq_div_pow] at this
      simp only [BitVec.toNat_ofNat] at this
      omega
    rw [h2, hop, field_eq (s := 47) (f := d) (by omega), field_eq (s := 40) (f := s) (by omega),
      field_eq (s := 36) (f := c.code) (by omega), field_eq (s := 33) (f := md) (by omega),
      getLsbD_of_toNat (s := 32) (b := b) (by omega), field_eq (s := 0) (f := imm) (by omega)]
    show (if w.extractLsb' 58 4 = 0xF#4 then _ else _) = _
    rw [if_neg hf, scond_ofCode]
    exact h
  · unfold opcodeCheck
    rw [h2, hop]
    show (if sAssigned op.toNat = true then _ else _) = _
    rw [if_pos ho]

theorem reads_iWord {d a : BitVec 8} {v : BitVec 2} {imm : Word}
    (h : iArm op m d a v imm = some i) (hh : 0xE0 ≤ op.toNat) (ho : fAssigned op.toNat = true) :
    Reads i (iWord op m d a v imm) := by
  have e := iWord_toNat op m d a v imm
  generalize iWord op m d a v imm = w at e
  have hop : w.extractLsb' 54 8 = op := field_eq (by omega)
  have h2 : w.extractLsb' 62 2 = 0#2 := field_eq (by simp only [BitVec.toNat_ofNat]; omega)
  constructor
  · unfold parse parseF
    rw [h2, hop, field_eq (f := m) (by omega), field_eq (s := 42) (f := d) (by omega),
      field_eq (s := 34) (f := a) (by omega), field_eq (s := 32) (f := v) (by omega),
      field_eq (s := 0) (k := 32) (f := imm) (by omega)]
    show (if 0xE0 ≤ op.toNat then _ else _) = _
    rw [if_pos hh]
    exact h
  · unfold opcodeCheck
    rw [h2, hop]
    show (if fAssigned op.toNat = true then _ else _) = _
    rw [if_pos ho]

theorem reads_fWord {d a b c : BitVec 8} {ty : Ty} {rm : Rnd} {mods sub : BitVec 5}
    (h : fArm op m d a b c ty.code rm.code mods sub = some i) (hh : op.toNat < 0xE0)
    (ho : fAssigned op.toNat = true) : Reads i (fWord op m d a b c ty rm mods sub) := by
  have e := fWord_toNat op m d a b c ty rm mods sub
  generalize fWord op m d a b c ty rm mods sub = w at e
  have hop : w.extractLsb' 54 8 = op := field_eq (by omega)
  have h2 : w.extractLsb' 62 2 = 0#2 := field_eq (by simp only [BitVec.toNat_ofNat]; omega)
  constructor
  · unfold parse parseF
    rw [h2, hop, field_eq (f := m) (by omega), field_eq (s := 42) (f := d) (by omega),
      field_eq (s := 34) (k := 8) (f := a) (by omega), field_eq (s := 26) (f := b) (by omega),
      field_eq (s := 18) (f := c) (by omega), field_eq (s := 13) (f := ty.code) (by omega),
      field_eq (s := 10) (f := rm.code) (by omega), field_eq (s := 5) (f := mods) (by omega),
      field_eq (s := 0) (k := 5) (f := sub) (by omega)]
    show (if 0xE0 ≤ op.toNat then _ else _) = _
    rw [if_neg (by omega)]
    exact h
  · unfold opcodeCheck
    rw [h2, hop]
    show (if fAssigned op.toNat = true then _ else _) = _
    rw [if_pos ho]

end Sys2Proof.Laws
end

