-- ==== Sys2Proof/Laws/State.lean ====
section
/-! SUPPORT. What each update of the state leaves alone, field by field, and what a place holds after it is
set. -/

namespace Sys2Proof.Machine

set_option Elab.async false

/-! ### `setCoreAt` -/

@[simp] theorem State.setCoreAt_hums (s : State) (h c : Nat) (k : Core) : (s.setCoreAt h c k).hums = s.hums := rfl
@[simp] theorem State.setCoreAt_fns (s : State) (h c : Nat) (k : Core) : (s.setCoreAt h c k).fns = s.fns := rfl
@[simp] theorem State.setCoreAt_launches (s : State) (h c : Nat) (k : Core) : (s.setCoreAt h c k).launches = s.launches := rfl
@[simp] theorem State.setCoreAt_cards (s : State) (h c : Nat) (k : Core) : (s.setCoreAt h c k).cards = s.cards := rfl
@[simp] theorem State.setCoreAt_travel (s : State) (h c : Nat) (k : Core) : (s.setCoreAt h c k).travel = s.travel := rfl
@[simp] theorem State.setCoreAt_swaps (s : State) (h c : Nat) (k : Core) : (s.setCoreAt h c k).swaps = s.swaps := rfl
@[simp] theorem State.setCoreAt_mem (s : State) (h c : Nat) (k : Core) : (s.setCoreAt h c k).mem = s.mem := rfl
@[simp] theorem State.setCoreAt_poison (s : State) (h c : Nat) (k : Core) : (s.setCoreAt h c k).poison = s.poison := rfl
@[simp] theorem State.setCoreAt_owners (s : State) (h c : Nat) (k : Core) : (s.setCoreAt h c k).owners = s.owners := rfl
@[simp] theorem State.setCoreAt_l2 (s : State) (h c : Nat) (k : Core) : (s.setCoreAt h c k).l2 = s.l2 := rfl
@[simp] theorem State.setCoreAt_pkg (s : State) (h c : Nat) (k : Core) : (s.setCoreAt h c k).pkg = s.pkg := rfl
@[simp] theorem State.setCoreAt_uc (s : State) (h c : Nat) (k : Core) : (s.setCoreAt h c k).uc = s.uc := rfl
@[simp] theorem State.setCoreAt_reqCtr (s : State) (h c : Nat) (k : Core) : (s.setCoreAt h c k).reqCtr = s.reqCtr := rfl
@[simp] theorem State.setCoreAt_agenda (s : State) (h c : Nat) (k : Core) : (s.setCoreAt h c k).agenda = s.agenda := rfl
@[simp] theorem State.setCoreAt_cur (s : State) (h c : Nat) (k : Core) : (s.setCoreAt h c k).cur = s.cur := rfl
@[simp] theorem State.setCoreAt_prompt (s : State) (h c : Nat) (k : Core) : (s.setCoreAt h c k).prompt = s.prompt := rfl
@[simp] theorem State.setCoreAt_freeCtr (s : State) (h c : Nat) (k : Core) : (s.setCoreAt h c k).freeCtr = s.freeCtr := rfl

/-! ### `setHum` -/

@[simp] theorem State.setHum_cores (s : State) (h : Nat) (x : Hum) : (s.setHum h x).cores = s.cores := rfl
@[simp] theorem State.setHum_fns (s : State) (h : Nat) (x : Hum) : (s.setHum h x).fns = s.fns := rfl
@[simp] theorem State.setHum_launches (s : State) (h : Nat) (x : Hum) : (s.setHum h x).launches = s.launches := rfl
@[simp] theorem State.setHum_cards (s : State) (h : Nat) (x : Hum) : (s.setHum h x).cards = s.cards := rfl
@[simp] theorem State.setHum_travel (s : State) (h : Nat) (x : Hum) : (s.setHum h x).travel = s.travel := rfl
@[simp] theorem State.setHum_swaps (s : State) (h : Nat) (x : Hum) : (s.setHum h x).swaps = s.swaps := rfl
@[simp] theorem State.setHum_mem (s : State) (h : Nat) (x : Hum) : (s.setHum h x).mem = s.mem := rfl
@[simp] theorem State.setHum_poison (s : State) (h : Nat) (x : Hum) : (s.setHum h x).poison = s.poison := rfl
@[simp] theorem State.setHum_owners (s : State) (h : Nat) (x : Hum) : (s.setHum h x).owners = s.owners := rfl
@[simp] theorem State.setHum_l2 (s : State) (h : Nat) (x : Hum) : (s.setHum h x).l2 = s.l2 := rfl
@[simp] theorem State.setHum_pkg (s : State) (h : Nat) (x : Hum) : (s.setHum h x).pkg = s.pkg := rfl
@[simp] theorem State.setHum_uc (s : State) (h : Nat) (x : Hum) : (s.setHum h x).uc = s.uc := rfl
@[simp] theorem State.setHum_reqCtr (s : State) (h : Nat) (x : Hum) : (s.setHum h x).reqCtr = s.reqCtr := rfl
@[simp] theorem State.setHum_agenda (s : State) (h : Nat) (x : Hum) : (s.setHum h x).agenda = s.agenda := rfl
@[simp] theorem State.setHum_cur (s : State) (h : Nat) (x : Hum) : (s.setHum h x).cur = s.cur := rfl
@[simp] theorem State.setHum_prompt (s : State) (h : Nat) (x : Hum) : (s.setHum h x).prompt = s.prompt := rfl
@[simp] theorem State.setHum_freeCtr (s : State) (h : Nat) (x : Hum) : (s.setHum h x).freeCtr = s.freeCtr := rfl

/-! ### `setFn` -/

@[simp] theorem State.setFn_cores (s : State) (f : Nat) (x : Fn) : (s.setFn f x).cores = s.cores := rfl
@[simp] theorem State.setFn_hums (s : State) (f : Nat) (x : Fn) : (s.setFn f x).hums = s.hums := rfl
@[simp] theorem State.setFn_launches (s : State) (f : Nat) (x : Fn) : (s.setFn f x).launches = s.launches := rfl
@[simp] theorem State.setFn_cards (s : State) (f : Nat) (x : Fn) : (s.setFn f x).cards = s.cards := rfl
@[simp] theorem State.setFn_travel (s : State) (f : Nat) (x : Fn) : (s.setFn f x).travel = s.travel := rfl
@[simp] theorem State.setFn_swaps (s : State) (f : Nat) (x : Fn) : (s.setFn f x).swaps = s.swaps := rfl
@[simp] theorem State.setFn_mem (s : State) (f : Nat) (x : Fn) : (s.setFn f x).mem = s.mem := rfl
@[simp] theorem State.setFn_poison (s : State) (f : Nat) (x : Fn) : (s.setFn f x).poison = s.poison := rfl
@[simp] theorem State.setFn_owners (s : State) (f : Nat) (x : Fn) : (s.setFn f x).owners = s.owners := rfl
@[simp] theorem State.setFn_l2 (s : State) (f : Nat) (x : Fn) : (s.setFn f x).l2 = s.l2 := rfl
@[simp] theorem State.setFn_pkg (s : State) (f : Nat) (x : Fn) : (s.setFn f x).pkg = s.pkg := rfl
@[simp] theorem State.setFn_uc (s : State) (f : Nat) (x : Fn) : (s.setFn f x).uc = s.uc := rfl
@[simp] theorem State.setFn_reqCtr (s : State) (f : Nat) (x : Fn) : (s.setFn f x).reqCtr = s.reqCtr := rfl
@[simp] theorem State.setFn_agenda (s : State) (f : Nat) (x : Fn) : (s.setFn f x).agenda = s.agenda := rfl
@[simp] theorem State.setFn_cur (s : State) (f : Nat) (x : Fn) : (s.setFn f x).cur = s.cur := rfl
@[simp] theorem State.setFn_prompt (s : State) (f : Nat) (x : Fn) : (s.setFn f x).prompt = s.prompt := rfl
@[simp] theorem State.setFn_freeCtr (s : State) (f : Nat) (x : Fn) : (s.setFn f x).freeCtr = s.freeCtr := rfl

/-! ### `setLaunch` -/

@[simp] theorem State.setLaunch_cores (s : State) (l : Nat) (x : Launch) : (s.setLaunch l x).cores = s.cores := rfl
@[simp] theorem State.setLaunch_hums (s : State) (l : Nat) (x : Launch) : (s.setLaunch l x).hums = s.hums := rfl
@[simp] theorem State.setLaunch_fns (s : State) (l : Nat) (x : Launch) : (s.setLaunch l x).fns = s.fns := rfl
@[simp] theorem State.setLaunch_cards (s : State) (l : Nat) (x : Launch) : (s.setLaunch l x).cards = s.cards := rfl
@[simp] theorem State.setLaunch_travel (s : State) (l : Nat) (x : Launch) : (s.setLaunch l x).travel = s.travel := rfl
@[simp] theorem State.setLaunch_swaps (s : State) (l : Nat) (x : Launch) : (s.setLaunch l x).swaps = s.swaps := rfl
@[simp] theorem State.setLaunch_mem (s : State) (l : Nat) (x : Launch) : (s.setLaunch l x).mem = s.mem := rfl
@[simp] theorem State.setLaunch_poison (s : State) (l : Nat) (x : Launch) : (s.setLaunch l x).poison = s.poison := rfl
@[simp] theorem State.setLaunch_owners (s : State) (l : Nat) (x : Launch) : (s.setLaunch l x).owners = s.owners := rfl
@[simp] theorem State.setLaunch_l2 (s : State) (l : Nat) (x : Launch) : (s.setLaunch l x).l2 = s.l2 := rfl
@[simp] theorem State.setLaunch_pkg (s : State) (l : Nat) (x : Launch) : (s.setLaunch l x).pkg = s.pkg := rfl
@[simp] theorem State.setLaunch_uc (s : State) (l : Nat) (x : Launch) : (s.setLaunch l x).uc = s.uc := rfl
@[simp] theorem State.setLaunch_reqCtr (s : State) (l : Nat) (x : Launch) : (s.setLaunch l x).reqCtr = s.reqCtr := rfl
@[simp] theorem State.setLaunch_agenda (s : State) (l : Nat) (x : Launch) : (s.setLaunch l x).agenda = s.agenda := rfl
@[simp] theorem State.setLaunch_cur (s : State) (l : Nat) (x : Launch) : (s.setLaunch l x).cur = s.cur := rfl
@[simp] theorem State.setLaunch_prompt (s : State) (l : Nat) (x : Launch) : (s.setLaunch l x).prompt = s.prompt := rfl
@[simp] theorem State.setLaunch_freeCtr (s : State) (l : Nat) (x : Launch) : (s.setLaunch l x).freeCtr = s.freeCtr := rfl

/-! ### `setCore` -/

@[simp] theorem State.setCore_hums (s : State) (k : Core) : (s.setCore k).hums = s.hums := rfl
@[simp] theorem State.setCore_fns (s : State) (k : Core) : (s.setCore k).fns = s.fns := rfl
@[simp] theorem State.setCore_launches (s : State) (k : Core) : (s.setCore k).launches = s.launches := rfl
@[simp] theorem State.setCore_cards (s : State) (k : Core) : (s.setCore k).cards = s.cards := rfl
@[simp] theorem State.setCore_travel (s : State) (k : Core) : (s.setCore k).travel = s.travel := rfl
@[simp] theorem State.setCore_swaps (s : State) (k : Core) : (s.setCore k).swaps = s.swaps := rfl
@[simp] theorem State.setCore_mem (s : State) (k : Core) : (s.setCore k).mem = s.mem := rfl
@[simp] theorem State.setCore_poison (s : State) (k : Core) : (s.setCore k).poison = s.poison := rfl
@[simp] theorem State.setCore_owners (s : State) (k : Core) : (s.setCore k).owners = s.owners := rfl
@[simp] theorem State.setCore_l2 (s : State) (k : Core) : (s.setCore k).l2 = s.l2 := rfl
@[simp] theorem State.setCore_pkg (s : State) (k : Core) : (s.setCore k).pkg = s.pkg := rfl
@[simp] theorem State.setCore_uc (s : State) (k : Core) : (s.setCore k).uc = s.uc := rfl
@[simp] theorem State.setCore_reqCtr (s : State) (k : Core) : (s.setCore k).reqCtr = s.reqCtr := rfl
@[simp] theorem State.setCore_agenda (s : State) (k : Core) : (s.setCore k).agenda = s.agenda := rfl
@[simp] theorem State.setCore_cur (s : State) (k : Core) : (s.setCore k).cur = s.cur := rfl
@[simp] theorem State.setCore_prompt (s : State) (k : Core) : (s.setCore k).prompt = s.prompt := rfl
@[simp] theorem State.setCore_freeCtr (s : State) (k : Core) : (s.setCore k).freeCtr = s.freeCtr := rfl

/-! ### `setGrp` -/

@[simp] theorem State.setGrp_hums (s : State) (g : Group) : (s.setGrp g).hums = s.hums := rfl
@[simp] theorem State.setGrp_fns (s : State) (g : Group) : (s.setGrp g).fns = s.fns := rfl
@[simp] theorem State.setGrp_launches (s : State) (g : Group) : (s.setGrp g).launches = s.launches := rfl
@[simp] theorem State.setGrp_cards (s : State) (g : Group) : (s.setGrp g).cards = s.cards := rfl
@[simp] theorem State.setGrp_travel (s : State) (g : Group) : (s.setGrp g).travel = s.travel := rfl
@[simp] theorem State.setGrp_swaps (s : State) (g : Group) : (s.setGrp g).swaps = s.swaps := rfl
@[simp] theorem State.setGrp_mem (s : State) (g : Group) : (s.setGrp g).mem = s.mem := rfl
@[simp] theorem State.setGrp_poison (s : State) (g : Group) : (s.setGrp g).poison = s.poison := rfl
@[simp] theorem State.setGrp_owners (s : State) (g : Group) : (s.setGrp g).owners = s.owners := rfl
@[simp] theorem State.setGrp_l2 (s : State) (g : Group) : (s.setGrp g).l2 = s.l2 := rfl
@[simp] theorem State.setGrp_pkg (s : State) (g : Group) : (s.setGrp g).pkg = s.pkg := rfl
@[simp] theorem State.setGrp_uc (s : State) (g : Group) : (s.setGrp g).uc = s.uc := rfl
@[simp] theorem State.setGrp_reqCtr (s : State) (g : Group) : (s.setGrp g).reqCtr = s.reqCtr := rfl
@[simp] theorem State.setGrp_agenda (s : State) (g : Group) : (s.setGrp g).agenda = s.agenda := rfl
@[simp] theorem State.setGrp_cur (s : State) (g : Group) : (s.setGrp g).cur = s.cur := rfl
@[simp] theorem State.setGrp_prompt (s : State) (g : Group) : (s.setGrp g).prompt = s.prompt := rfl
@[simp] theorem State.setGrp_freeCtr (s : State) (g : Group) : (s.setGrp g).freeCtr = s.freeCtr := rfl

/-! ### `setWg` -/

@[simp] theorem State.setWg_hums (s : State) (w : Wg) : (s.setWg w).hums = s.hums := rfl
@[simp] theorem State.setWg_fns (s : State) (w : Wg) : (s.setWg w).fns = s.fns := rfl
@[simp] theorem State.setWg_launches (s : State) (w : Wg) : (s.setWg w).launches = s.launches := rfl
@[simp] theorem State.setWg_cards (s : State) (w : Wg) : (s.setWg w).cards = s.cards := rfl
@[simp] theorem State.setWg_travel (s : State) (w : Wg) : (s.setWg w).travel = s.travel := rfl
@[simp] theorem State.setWg_swaps (s : State) (w : Wg) : (s.setWg w).swaps = s.swaps := rfl
@[simp] theorem State.setWg_mem (s : State) (w : Wg) : (s.setWg w).mem = s.mem := rfl
@[simp] theorem State.setWg_poison (s : State) (w : Wg) : (s.setWg w).poison = s.poison := rfl
@[simp] theorem State.setWg_owners (s : State) (w : Wg) : (s.setWg w).owners = s.owners := rfl
@[simp] theorem State.setWg_l2 (s : State) (w : Wg) : (s.setWg w).l2 = s.l2 := rfl
@[simp] theorem State.setWg_pkg (s : State) (w : Wg) : (s.setWg w).pkg = s.pkg := rfl
@[simp] theorem State.setWg_uc (s : State) (w : Wg) : (s.setWg w).uc = s.uc := rfl
@[simp] theorem State.setWg_reqCtr (s : State) (w : Wg) : (s.setWg w).reqCtr = s.reqCtr := rfl
@[simp] theorem State.setWg_agenda (s : State) (w : Wg) : (s.setWg w).agenda = s.agenda := rfl
@[simp] theorem State.setWg_cur (s : State) (w : Wg) : (s.setWg w).cur = s.cur := rfl
@[simp] theorem State.setWg_prompt (s : State) (w : Wg) : (s.setWg w).prompt = s.prompt := rfl
@[simp] theorem State.setWg_freeCtr (s : State) (w : Wg) : (s.setWg w).freeCtr = s.freeCtr := rfl

/-! ### `at_` -/

@[simp] theorem State.atRef_cores (s : State) (r : GRef) : (s.at_ r).cores = s.cores := rfl
@[simp] theorem State.atRef_hums (s : State) (r : GRef) : (s.at_ r).hums = s.hums := rfl
@[simp] theorem State.atRef_fns (s : State) (r : GRef) : (s.at_ r).fns = s.fns := rfl
@[simp] theorem State.atRef_launches (s : State) (r : GRef) : (s.at_ r).launches = s.launches := rfl
@[simp] theorem State.atRef_cards (s : State) (r : GRef) : (s.at_ r).cards = s.cards := rfl
@[simp] theorem State.atRef_travel (s : State) (r : GRef) : (s.at_ r).travel = s.travel := rfl
@[simp] theorem State.atRef_swaps (s : State) (r : GRef) : (s.at_ r).swaps = s.swaps := rfl
@[simp] theorem State.atRef_mem (s : State) (r : GRef) : (s.at_ r).mem = s.mem := rfl
@[simp] theorem State.atRef_poison (s : State) (r : GRef) : (s.at_ r).poison = s.poison := rfl
@[simp] theorem State.atRef_owners (s : State) (r : GRef) : (s.at_ r).owners = s.owners := rfl
@[simp] theorem State.atRef_l2 (s : State) (r : GRef) : (s.at_ r).l2 = s.l2 := rfl
@[simp] theorem State.atRef_pkg (s : State) (r : GRef) : (s.at_ r).pkg = s.pkg := rfl
@[simp] theorem State.atRef_uc (s : State) (r : GRef) : (s.at_ r).uc = s.uc := rfl
@[simp] theorem State.atRef_reqCtr (s : State) (r : GRef) : (s.at_ r).reqCtr = s.reqCtr := rfl
@[simp] theorem State.atRef_agenda (s : State) (r : GRef) : (s.at_ r).agenda = s.agenda := rfl
@[simp] theorem State.atRef_prompt (s : State) (r : GRef) : (s.at_ r).prompt = s.prompt := rfl
@[simp] theorem State.atRef_freeCtr (s : State) (r : GRef) : (s.at_ r).freeCtr = s.freeCtr := rfl

/-! ### `setS` -/

@[simp] theorem State.setS_hums (s : State) (i : Nat) (v : Word) : (s.setS i v).hums = s.hums := rfl
@[simp] theorem State.setS_fns (s : State) (i : Nat) (v : Word) : (s.setS i v).fns = s.fns := rfl
@[simp] theorem State.setS_launches (s : State) (i : Nat) (v : Word) : (s.setS i v).launches = s.launches := rfl
@[simp] theorem State.setS_cards (s : State) (i : Nat) (v : Word) : (s.setS i v).cards = s.cards := rfl
@[simp] theorem State.setS_travel (s : State) (i : Nat) (v : Word) : (s.setS i v).travel = s.travel := rfl
@[simp] theorem State.setS_swaps (s : State) (i : Nat) (v : Word) : (s.setS i v).swaps = s.swaps := rfl
@[simp] theorem State.setS_mem (s : State) (i : Nat) (v : Word) : (s.setS i v).mem = s.mem := rfl
@[simp] theorem State.setS_poison (s : State) (i : Nat) (v : Word) : (s.setS i v).poison = s.poison := rfl
@[simp] theorem State.setS_owners (s : State) (i : Nat) (v : Word) : (s.setS i v).owners = s.owners := rfl
@[simp] theorem State.setS_l2 (s : State) (i : Nat) (v : Word) : (s.setS i v).l2 = s.l2 := rfl
@[simp] theorem State.setS_pkg (s : State) (i : Nat) (v : Word) : (s.setS i v).pkg = s.pkg := rfl
@[simp] theorem State.setS_uc (s : State) (i : Nat) (v : Word) : (s.setS i v).uc = s.uc := rfl
@[simp] theorem State.setS_reqCtr (s : State) (i : Nat) (v : Word) : (s.setS i v).reqCtr = s.reqCtr := rfl
@[simp] theorem State.setS_agenda (s : State) (i : Nat) (v : Word) : (s.setS i v).agenda = s.agenda := rfl
@[simp] theorem State.setS_cur (s : State) (i : Nat) (v : Word) : (s.setS i v).cur = s.cur := rfl
@[simp] theorem State.setS_prompt (s : State) (i : Nat) (v : Word) : (s.setS i v).prompt = s.prompt := rfl
@[simp] theorem State.setS_freeCtr (s : State) (i : Nat) (v : Word) : (s.setS i v).freeCtr = s.freeCtr := rfl

/-! ### `setM` -/

@[simp] theorem State.setM_hums (s : State) (i : Nat) (v : Word) : (s.setM i v).hums = s.hums := rfl
@[simp] theorem State.setM_fns (s : State) (i : Nat) (v : Word) : (s.setM i v).fns = s.fns := rfl
@[simp] theorem State.setM_launches (s : State) (i : Nat) (v : Word) : (s.setM i v).launches = s.launches := rfl
@[simp] theorem State.setM_cards (s : State) (i : Nat) (v : Word) : (s.setM i v).cards = s.cards := rfl
@[simp] theorem State.setM_travel (s : State) (i : Nat) (v : Word) : (s.setM i v).travel = s.travel := rfl
@[simp] theorem State.setM_swaps (s : State) (i : Nat) (v : Word) : (s.setM i v).swaps = s.swaps := rfl
@[simp] theorem State.setM_mem (s : State) (i : Nat) (v : Word) : (s.setM i v).mem = s.mem := rfl
@[simp] theorem State.setM_poison (s : State) (i : Nat) (v : Word) : (s.setM i v).poison = s.poison := rfl
@[simp] theorem State.setM_owners (s : State) (i : Nat) (v : Word) : (s.setM i v).owners = s.owners := rfl
@[simp] theorem State.setM_l2 (s : State) (i : Nat) (v : Word) : (s.setM i v).l2 = s.l2 := rfl
@[simp] theorem State.setM_pkg (s : State) (i : Nat) (v : Word) : (s.setM i v).pkg = s.pkg := rfl
@[simp] theorem State.setM_uc (s : State) (i : Nat) (v : Word) : (s.setM i v).uc = s.uc := rfl
@[simp] theorem State.setM_reqCtr (s : State) (i : Nat) (v : Word) : (s.setM i v).reqCtr = s.reqCtr := rfl
@[simp] theorem State.setM_agenda (s : State) (i : Nat) (v : Word) : (s.setM i v).agenda = s.agenda := rfl
@[simp] theorem State.setM_cur (s : State) (i : Nat) (v : Word) : (s.setM i v).cur = s.cur := rfl
@[simp] theorem State.setM_prompt (s : State) (i : Nat) (v : Word) : (s.setM i v).prompt = s.prompt := rfl
@[simp] theorem State.setM_freeCtr (s : State) (i : Nat) (v : Word) : (s.setM i v).freeCtr = s.freeCtr := rfl

/-! ### `setMBits` -/

@[simp] theorem State.setMBits_hums (s : State) (i : Nat) (e v : Word) : (s.setMBits i e v).hums = s.hums := rfl
@[simp] theorem State.setMBits_fns (s : State) (i : Nat) (e v : Word) : (s.setMBits i e v).fns = s.fns := rfl
@[simp] theorem State.setMBits_launches (s : State) (i : Nat) (e v : Word) : (s.setMBits i e v).launches = s.launches := rfl
@[simp] theorem State.setMBits_cards (s : State) (i : Nat) (e v : Word) : (s.setMBits i e v).cards = s.cards := rfl
@[simp] theorem State.setMBits_travel (s : State) (i : Nat) (e v : Word) : (s.setMBits i e v).travel = s.travel := rfl
@[simp] theorem State.setMBits_swaps (s : State) (i : Nat) (e v : Word) : (s.setMBits i e v).swaps = s.swaps := rfl
@[simp] theorem State.setMBits_mem (s : State) (i : Nat) (e v : Word) : (s.setMBits i e v).mem = s.mem := rfl
@[simp] theorem State.setMBits_poison (s : State) (i : Nat) (e v : Word) : (s.setMBits i e v).poison = s.poison := rfl
@[simp] theorem State.setMBits_owners (s : State) (i : Nat) (e v : Word) : (s.setMBits i e v).owners = s.owners := rfl
@[simp] theorem State.setMBits_l2 (s : State) (i : Nat) (e v : Word) : (s.setMBits i e v).l2 = s.l2 := rfl
@[simp] theorem State.setMBits_pkg (s : State) (i : Nat) (e v : Word) : (s.setMBits i e v).pkg = s.pkg := rfl
@[simp] theorem State.setMBits_uc (s : State) (i : Nat) (e v : Word) : (s.setMBits i e v).uc = s.uc := rfl
@[simp] theorem State.setMBits_reqCtr (s : State) (i : Nat) (e v : Word) : (s.setMBits i e v).reqCtr = s.reqCtr := rfl
@[simp] theorem State.setMBits_agenda (s : State) (i : Nat) (e v : Word) : (s.setMBits i e v).agenda = s.agenda := rfl
@[simp] theorem State.setMBits_cur (s : State) (i : Nat) (e v : Word) : (s.setMBits i e v).cur = s.cur := rfl
@[simp] theorem State.setMBits_prompt (s : State) (i : Nat) (e v : Word) : (s.setMBits i e v).prompt = s.prompt := rfl
@[simp] theorem State.setMBits_freeCtr (s : State) (i : Nat) (e v : Word) : (s.setMBits i e v).freeCtr = s.freeCtr := rfl

/-! ### `setPc` -/

@[simp] theorem State.setPc_hums (s : State) (v : Word) : (s.setPc v).hums = s.hums := rfl
@[simp] theorem State.setPc_fns (s : State) (v : Word) : (s.setPc v).fns = s.fns := rfl
@[simp] theorem State.setPc_launches (s : State) (v : Word) : (s.setPc v).launches = s.launches := rfl
@[simp] theorem State.setPc_cards (s : State) (v : Word) : (s.setPc v).cards = s.cards := rfl
@[simp] theorem State.setPc_travel (s : State) (v : Word) : (s.setPc v).travel = s.travel := rfl
@[simp] theorem State.setPc_swaps (s : State) (v : Word) : (s.setPc v).swaps = s.swaps := rfl
@[simp] theorem State.setPc_mem (s : State) (v : Word) : (s.setPc v).mem = s.mem := rfl
@[simp] theorem State.setPc_poison (s : State) (v : Word) : (s.setPc v).poison = s.poison := rfl
@[simp] theorem State.setPc_owners (s : State) (v : Word) : (s.setPc v).owners = s.owners := rfl
@[simp] theorem State.setPc_l2 (s : State) (v : Word) : (s.setPc v).l2 = s.l2 := rfl
@[simp] theorem State.setPc_pkg (s : State) (v : Word) : (s.setPc v).pkg = s.pkg := rfl
@[simp] theorem State.setPc_uc (s : State) (v : Word) : (s.setPc v).uc = s.uc := rfl
@[simp] theorem State.setPc_reqCtr (s : State) (v : Word) : (s.setPc v).reqCtr = s.reqCtr := rfl
@[simp] theorem State.setPc_agenda (s : State) (v : Word) : (s.setPc v).agenda = s.agenda := rfl
@[simp] theorem State.setPc_cur (s : State) (v : Word) : (s.setPc v).cur = s.cur := rfl
@[simp] theorem State.setPc_prompt (s : State) (v : Word) : (s.setPc v).prompt = s.prompt := rfl
@[simp] theorem State.setPc_freeCtr (s : State) (v : Word) : (s.setPc v).freeCtr = s.freeCtr := rfl

/-! ### `advance` -/

@[simp] theorem State.advance_hums (s : State) : (s.advance).hums = s.hums := rfl
@[simp] theorem State.advance_fns (s : State) : (s.advance).fns = s.fns := rfl
@[simp] theorem State.advance_launches (s : State) : (s.advance).launches = s.launches := rfl
@[simp] theorem State.advance_cards (s : State) : (s.advance).cards = s.cards := rfl
@[simp] theorem State.advance_travel (s : State) : (s.advance).travel = s.travel := rfl
@[simp] theorem State.advance_swaps (s : State) : (s.advance).swaps = s.swaps := rfl
@[simp] theorem State.advance_mem (s : State) : (s.advance).mem = s.mem := rfl
@[simp] theorem State.advance_poison (s : State) : (s.advance).poison = s.poison := rfl
@[simp] theorem State.advance_owners (s : State) : (s.advance).owners = s.owners := rfl
@[simp] theorem State.advance_l2 (s : State) : (s.advance).l2 = s.l2 := rfl
@[simp] theorem State.advance_pkg (s : State) : (s.advance).pkg = s.pkg := rfl
@[simp] theorem State.advance_uc (s : State) : (s.advance).uc = s.uc := rfl
@[simp] theorem State.advance_reqCtr (s : State) : (s.advance).reqCtr = s.reqCtr := rfl
@[simp] theorem State.advance_agenda (s : State) : (s.advance).agenda = s.agenda := rfl
@[simp] theorem State.advance_cur (s : State) : (s.advance).cur = s.cur := rfl
@[simp] theorem State.advance_prompt (s : State) : (s.advance).prompt = s.prompt := rfl
@[simp] theorem State.advance_freeCtr (s : State) : (s.advance).freeCtr = s.freeCtr := rfl

/-! ### `setWait` -/

@[simp] theorem State.setWait_hums (s : State) (w : Wait) : (s.setWait w).hums = s.hums := rfl
@[simp] theorem State.setWait_fns (s : State) (w : Wait) : (s.setWait w).fns = s.fns := rfl
@[simp] theorem State.setWait_launches (s : State) (w : Wait) : (s.setWait w).launches = s.launches := rfl
@[simp] theorem State.setWait_cards (s : State) (w : Wait) : (s.setWait w).cards = s.cards := rfl
@[simp] theorem State.setWait_travel (s : State) (w : Wait) : (s.setWait w).travel = s.travel := rfl
@[simp] theorem State.setWait_swaps (s : State) (w : Wait) : (s.setWait w).swaps = s.swaps := rfl
@[simp] theorem State.setWait_mem (s : State) (w : Wait) : (s.setWait w).mem = s.mem := rfl
@[simp] theorem State.setWait_poison (s : State) (w : Wait) : (s.setWait w).poison = s.poison := rfl
@[simp] theorem State.setWait_owners (s : State) (w : Wait) : (s.setWait w).owners = s.owners := rfl
@[simp] theorem State.setWait_l2 (s : State) (w : Wait) : (s.setWait w).l2 = s.l2 := rfl
@[simp] theorem State.setWait_pkg (s : State) (w : Wait) : (s.setWait w).pkg = s.pkg := rfl
@[simp] theorem State.setWait_uc (s : State) (w : Wait) : (s.setWait w).uc = s.uc := rfl
@[simp] theorem State.setWait_reqCtr (s : State) (w : Wait) : (s.setWait w).reqCtr = s.reqCtr := rfl
@[simp] theorem State.setWait_agenda (s : State) (w : Wait) : (s.setWait w).agenda = s.agenda := rfl
@[simp] theorem State.setWait_cur (s : State) (w : Wait) : (s.setWait w).cur = s.cur := rfl
@[simp] theorem State.setWait_prompt (s : State) (w : Wait) : (s.setWait w).prompt = s.prompt := rfl
@[simp] theorem State.setWait_freeCtr (s : State) (w : Wait) : (s.setWait w).freeCtr = s.freeCtr := rfl

/-! ### `setDest` -/

@[simp] theorem State.setDest_hums (s : State) (d : SCode) (v : Word) : (s.setDest d v).hums = s.hums := by unfold State.setDest; split <;> rfl
@[simp] theorem State.setDest_fns (s : State) (d : SCode) (v : Word) : (s.setDest d v).fns = s.fns := by unfold State.setDest; split <;> rfl
@[simp] theorem State.setDest_launches (s : State) (d : SCode) (v : Word) : (s.setDest d v).launches = s.launches := by unfold State.setDest; split <;> rfl
@[simp] theorem State.setDest_cards (s : State) (d : SCode) (v : Word) : (s.setDest d v).cards = s.cards := by unfold State.setDest; split <;> rfl
@[simp] theorem State.setDest_travel (s : State) (d : SCode) (v : Word) : (s.setDest d v).travel = s.travel := by unfold State.setDest; split <;> rfl
@[simp] theorem State.setDest_swaps (s : State) (d : SCode) (v : Word) : (s.setDest d v).swaps = s.swaps := by unfold State.setDest; split <;> rfl
@[simp] theorem State.setDest_mem (s : State) (d : SCode) (v : Word) : (s.setDest d v).mem = s.mem := by unfold State.setDest; split <;> rfl
@[simp] theorem State.setDest_poison (s : State) (d : SCode) (v : Word) : (s.setDest d v).poison = s.poison := by unfold State.setDest; split <;> rfl
@[simp] theorem State.setDest_owners (s : State) (d : SCode) (v : Word) : (s.setDest d v).owners = s.owners := by unfold State.setDest; split <;> rfl
@[simp] theorem State.setDest_l2 (s : State) (d : SCode) (v : Word) : (s.setDest d v).l2 = s.l2 := by unfold State.setDest; split <;> rfl
@[simp] theorem State.setDest_pkg (s : State) (d : SCode) (v : Word) : (s.setDest d v).pkg = s.pkg := by unfold State.setDest; split <;> rfl
@[simp] theorem State.setDest_uc (s : State) (d : SCode) (v : Word) : (s.setDest d v).uc = s.uc := by unfold State.setDest; split <;> rfl
@[simp] theorem State.setDest_reqCtr (s : State) (d : SCode) (v : Word) : (s.setDest d v).reqCtr = s.reqCtr := by unfold State.setDest; split <;> rfl
@[simp] theorem State.setDest_agenda (s : State) (d : SCode) (v : Word) : (s.setDest d v).agenda = s.agenda := by unfold State.setDest; split <;> rfl
@[simp] theorem State.setDest_cur (s : State) (d : SCode) (v : Word) : (s.setDest d v).cur = s.cur := by unfold State.setDest; split <;> rfl
@[simp] theorem State.setDest_prompt (s : State) (d : SCode) (v : Word) : (s.setDest d v).prompt = s.prompt := by unfold State.setDest; split <;> rfl
@[simp] theorem State.setDest_freeCtr (s : State) (d : SCode) (v : Word) : (s.setDest d v).freeCtr = s.freeCtr := by unfold State.setDest; split <;> rfl

/-! ### `latchRead` -/

@[simp] theorem State.latchRead_hums (s : State) (x : SCode) : (s.latchRead x).hums = s.hums := by unfold State.latchRead; split <;> rfl
@[simp] theorem State.latchRead_fns (s : State) (x : SCode) : (s.latchRead x).fns = s.fns := by unfold State.latchRead; split <;> rfl
@[simp] theorem State.latchRead_launches (s : State) (x : SCode) : (s.latchRead x).launches = s.launches := by unfold State.latchRead; split <;> rfl
@[simp] theorem State.latchRead_cards (s : State) (x : SCode) : (s.latchRead x).cards = s.cards := by unfold State.latchRead; split <;> rfl
@[simp] theorem State.latchRead_travel (s : State) (x : SCode) : (s.latchRead x).travel = s.travel := by unfold State.latchRead; split <;> rfl
@[simp] theorem State.latchRead_swaps (s : State) (x : SCode) : (s.latchRead x).swaps = s.swaps := by unfold State.latchRead; split <;> rfl
@[simp] theorem State.latchRead_mem (s : State) (x : SCode) : (s.latchRead x).mem = s.mem := by unfold State.latchRead; split <;> rfl
@[simp] theorem State.latchRead_poison (s : State) (x : SCode) : (s.latchRead x).poison = s.poison := by unfold State.latchRead; split <;> rfl
@[simp] theorem State.latchRead_owners (s : State) (x : SCode) : (s.latchRead x).owners = s.owners := by unfold State.latchRead; split <;> rfl
@[simp] theorem State.latchRead_l2 (s : State) (x : SCode) : (s.latchRead x).l2 = s.l2 := by unfold State.latchRead; split <;> rfl
@[simp] theorem State.latchRead_pkg (s : State) (x : SCode) : (s.latchRead x).pkg = s.pkg := by unfold State.latchRead; split <;> rfl
@[simp] theorem State.latchRead_uc (s : State) (x : SCode) : (s.latchRead x).uc = s.uc := by unfold State.latchRead; split <;> rfl
@[simp] theorem State.latchRead_reqCtr (s : State) (x : SCode) : (s.latchRead x).reqCtr = s.reqCtr := by unfold State.latchRead; split <;> rfl
@[simp] theorem State.latchRead_agenda (s : State) (x : SCode) : (s.latchRead x).agenda = s.agenda := by unfold State.latchRead; split <;> rfl
@[simp] theorem State.latchRead_cur (s : State) (x : SCode) : (s.latchRead x).cur = s.cur := by unfold State.latchRead; split <;> rfl
@[simp] theorem State.latchRead_prompt (s : State) (x : SCode) : (s.latchRead x).prompt = s.prompt := by unfold State.latchRead; split <;> rfl
@[simp] theorem State.latchRead_freeCtr (s : State) (x : SCode) : (s.latchRead x).freeCtr = s.freeCtr := by unfold State.latchRead; split <;> rfl

/-! ### `latchOp2` -/

@[simp] theorem State.latchOp2_hums (s : State) (x : Op2) : (s.latchOp2 x).hums = s.hums := by unfold State.latchOp2; split <;> simp
@[simp] theorem State.latchOp2_fns (s : State) (x : Op2) : (s.latchOp2 x).fns = s.fns := by unfold State.latchOp2; split <;> simp
@[simp] theorem State.latchOp2_launches (s : State) (x : Op2) : (s.latchOp2 x).launches = s.launches := by unfold State.latchOp2; split <;> simp
@[simp] theorem State.latchOp2_cards (s : State) (x : Op2) : (s.latchOp2 x).cards = s.cards := by unfold State.latchOp2; split <;> simp
@[simp] theorem State.latchOp2_travel (s : State) (x : Op2) : (s.latchOp2 x).travel = s.travel := by unfold State.latchOp2; split <;> simp
@[simp] theorem State.latchOp2_swaps (s : State) (x : Op2) : (s.latchOp2 x).swaps = s.swaps := by unfold State.latchOp2; split <;> simp
@[simp] theorem State.latchOp2_mem (s : State) (x : Op2) : (s.latchOp2 x).mem = s.mem := by unfold State.latchOp2; split <;> simp
@[simp] theorem State.latchOp2_poison (s : State) (x : Op2) : (s.latchOp2 x).poison = s.poison := by unfold State.latchOp2; split <;> simp
@[simp] theorem State.latchOp2_owners (s : State) (x : Op2) : (s.latchOp2 x).owners = s.owners := by unfold State.latchOp2; split <;> simp
@[simp] theorem State.latchOp2_l2 (s : State) (x : Op2) : (s.latchOp2 x).l2 = s.l2 := by unfold State.latchOp2; split <;> simp
@[simp] theorem State.latchOp2_pkg (s : State) (x : Op2) : (s.latchOp2 x).pkg = s.pkg := by unfold State.latchOp2; split <;> simp
@[simp] theorem State.latchOp2_uc (s : State) (x : Op2) : (s.latchOp2 x).uc = s.uc := by unfold State.latchOp2; split <;> simp
@[simp] theorem State.latchOp2_reqCtr (s : State) (x : Op2) : (s.latchOp2 x).reqCtr = s.reqCtr := by unfold State.latchOp2; split <;> simp
@[simp] theorem State.latchOp2_agenda (s : State) (x : Op2) : (s.latchOp2 x).agenda = s.agenda := by unfold State.latchOp2; split <;> simp
@[simp] theorem State.latchOp2_cur (s : State) (x : Op2) : (s.latchOp2 x).cur = s.cur := by unfold State.latchOp2; split <;> simp
@[simp] theorem State.latchOp2_prompt (s : State) (x : Op2) : (s.latchOp2 x).prompt = s.prompt := by unfold State.latchOp2; split <;> simp
@[simp] theorem State.latchOp2_freeCtr (s : State) (x : Op2) : (s.latchOp2 x).freeCtr = s.freeCtr := by unfold State.latchOp2; split <;> simp

/-! ### `setLreg` -/

@[simp] theorem State.setLreg_hums (s : State) (l j : Nat) (v : Word) : (s.setLreg l j v).hums = s.hums := by unfold State.setLreg; split <;> (try split) <;> rfl
@[simp] theorem State.setLreg_fns (s : State) (l j : Nat) (v : Word) : (s.setLreg l j v).fns = s.fns := by unfold State.setLreg; split <;> (try split) <;> rfl
@[simp] theorem State.setLreg_launches (s : State) (l j : Nat) (v : Word) : (s.setLreg l j v).launches = s.launches := by unfold State.setLreg; split <;> (try split) <;> rfl
@[simp] theorem State.setLreg_cards (s : State) (l j : Nat) (v : Word) : (s.setLreg l j v).cards = s.cards := by unfold State.setLreg; split <;> (try split) <;> rfl
@[simp] theorem State.setLreg_travel (s : State) (l j : Nat) (v : Word) : (s.setLreg l j v).travel = s.travel := by unfold State.setLreg; split <;> (try split) <;> rfl
@[simp] theorem State.setLreg_swaps (s : State) (l j : Nat) (v : Word) : (s.setLreg l j v).swaps = s.swaps := by unfold State.setLreg; split <;> (try split) <;> rfl
@[simp] theorem State.setLreg_mem (s : State) (l j : Nat) (v : Word) : (s.setLreg l j v).mem = s.mem := by unfold State.setLreg; split <;> (try split) <;> rfl
@[simp] theorem State.setLreg_poison (s : State) (l j : Nat) (v : Word) : (s.setLreg l j v).poison = s.poison := by unfold State.setLreg; split <;> (try split) <;> rfl
@[simp] theorem State.setLreg_owners (s : State) (l j : Nat) (v : Word) : (s.setLreg l j v).owners = s.owners := by unfold State.setLreg; split <;> (try split) <;> rfl
@[simp] theorem State.setLreg_l2 (s : State) (l j : Nat) (v : Word) : (s.setLreg l j v).l2 = s.l2 := by unfold State.setLreg; split <;> (try split) <;> rfl
@[simp] theorem State.setLreg_pkg (s : State) (l j : Nat) (v : Word) : (s.setLreg l j v).pkg = s.pkg := by unfold State.setLreg; split <;> (try split) <;> rfl
@[simp] theorem State.setLreg_uc (s : State) (l j : Nat) (v : Word) : (s.setLreg l j v).uc = s.uc := by unfold State.setLreg; split <;> (try split) <;> rfl
@[simp] theorem State.setLreg_reqCtr (s : State) (l j : Nat) (v : Word) : (s.setLreg l j v).reqCtr = s.reqCtr := by unfold State.setLreg; split <;> (try split) <;> rfl
@[simp] theorem State.setLreg_agenda (s : State) (l j : Nat) (v : Word) : (s.setLreg l j v).agenda = s.agenda := by unfold State.setLreg; split <;> (try split) <;> rfl
@[simp] theorem State.setLreg_cur (s : State) (l j : Nat) (v : Word) : (s.setLreg l j v).cur = s.cur := by unfold State.setLreg; split <;> (try split) <;> rfl
@[simp] theorem State.setLreg_prompt (s : State) (l j : Nat) (v : Word) : (s.setLreg l j v).prompt = s.prompt := by unfold State.setLreg; split <;> (try split) <;> rfl
@[simp] theorem State.setLreg_freeCtr (s : State) (l j : Nat) (v : Word) : (s.setLreg l j v).freeCtr = s.freeCtr := by unfold State.setLreg; split <;> (try split) <;> rfl

/-! ### Places after they are set -/

theorem State.coreAt_setCoreAt (s : State) (h c h' c' : Nat) (k : Core) :
    (s.setCoreAt h c k).coreAt h' c' = if coreKey h' c' = coreKey h c then k else s.coreAt h' c' :=
  mget_mset _ _ _ _ _
@[simp] theorem State.coreAt_setCoreAt_self (s : State) (h c : Nat) (k : Core) : (s.setCoreAt h c k).coreAt h c = k :=
  mget_mset_self _ _ _ _
theorem State.humAt_setHum (s : State) (h h' : Nat) (x : Hum) :
    (s.setHum h x).humAt h' = if h' = h then x else s.humAt h' := mget_mset _ _ _ _ _
@[simp] theorem State.humAt_setHum_self (s : State) (h : Nat) (x : Hum) : (s.setHum h x).humAt h = x :=
  mget_mset_self _ _ _ _
theorem State.fnAt_setFn (s : State) (f f' : Nat) (x : Fn) :
    (s.setFn f x).fnAt f' = if f' = f then x else s.fnAt f' := mget_mset _ _ _ _ _
@[simp] theorem State.fnAt_setFn_self (s : State) (f : Nat) (x : Fn) : (s.setFn f x).fnAt f = x :=
  mget_mset_self _ _ _ _
theorem State.launchAt_setLaunch (s : State) (l l' : Nat) (x : Launch) :
    (s.setLaunch l x).launchAt l' = if l' = l then x else s.launchAt l' := mget_mset _ _ _ _ _
@[simp] theorem State.launchAt_setLaunch_self (s : State) (l : Nat) (x : Launch) :
    (s.setLaunch l x).launchAt l = x := mget_mset_self _ _ _ _

@[simp] theorem State.humAt_setCoreAt (s : State) (h c i : Nat) (k : Core) :
    (s.setCoreAt h c k).humAt i = s.humAt i := rfl
@[simp] theorem State.fnAt_setCoreAt (s : State) (h c i : Nat) (k : Core) :
    (s.setCoreAt h c k).fnAt i = s.fnAt i := rfl
@[simp] theorem State.launchAt_setCoreAt (s : State) (h c i : Nat) (k : Core) :
    (s.setCoreAt h c k).launchAt i = s.launchAt i := rfl
@[simp] theorem State.coreAt_setHum (s : State) (h i c : Nat) (x : Hum) :
    (s.setHum h x).coreAt i c = s.coreAt i c := rfl
@[simp] theorem State.fnAt_setHum (s : State) (h i : Nat) (x : Hum) : (s.setHum h x).fnAt i = s.fnAt i := rfl
@[simp] theorem State.launchAt_setHum (s : State) (h i : Nat) (x : Hum) :
    (s.setHum h x).launchAt i = s.launchAt i := rfl
@[simp] theorem State.coreAt_setFn (s : State) (f h c : Nat) (x : Fn) :
    (s.setFn f x).coreAt h c = s.coreAt h c := rfl
@[simp] theorem State.humAt_setFn (s : State) (f h : Nat) (x : Fn) : (s.setFn f x).humAt h = s.humAt h := rfl
@[simp] theorem State.launchAt_setFn (s : State) (f l : Nat) (x : Fn) :
    (s.setFn f x).launchAt l = s.launchAt l := rfl
@[simp] theorem State.coreAt_setLaunch (s : State) (l h c : Nat) (x : Launch) :
    (s.setLaunch l x).coreAt h c = s.coreAt h c := rfl
@[simp] theorem State.humAt_setLaunch (s : State) (l h : Nat) (x : Launch) :
    (s.setLaunch l x).humAt h = s.humAt h := rfl
@[simp] theorem State.fnAt_setLaunch (s : State) (l f : Nat) (x : Launch) :
    (s.setLaunch l x).fnAt f = s.fnAt f := rfl

@[simp] theorem State.core_setCore (s : State) (k : Core) : (s.setCore k).core = k := mget_mset_self _ _ _ _
@[simp] theorem State.setCore_setCore (s : State) (k k' : Core) : (s.setCore k).setCore k' = s.setCore k' := by
  simp [State.setCore, State.setCoreAt]
theorem State.core_setGrp (s : State) (g : Group) :
    (s.setGrp g).core = { s.core with groups := mset s.core.groups s.cur.g g } := State.core_setCore _ _
@[simp] theorem State.grp_setGrp (s : State) (g : Group) : (s.setGrp g).grp = g := by
  simp only [State.grp, State.core_setGrp, State.setGrp_cur, mget_mset_self]
@[simp] theorem State.setGrp_setGrp (s : State) (g g' : Group) : (s.setGrp g).setGrp g' = s.setGrp g' := by
  simp only [State.setGrp, State.core_setCore, State.setCore_cur, State.setCore_setCore, mset_mset]
/-- A core set with its groups unchanged keeps the acting group. -/
theorem State.grp_setCore (s : State) (k : Core) (h : k.groups = s.core.groups) : (s.setCore k).grp = s.grp := by
  simp only [State.grp, State.core_setCore, State.setCore_cur, h]
/-- A core set with the acting group's and its workgroup's entries unchanged keeps the acting workgroup. -/
theorem State.wg_setCore (s : State) (k : Core) (h : k.groups = s.core.groups) (hw : k.wgs = s.core.wgs) :
    (s.setCore k).wg = s.wg := by
  simp only [State.wg, State.grp_setCore s k h, State.core_setCore, hw]
@[simp] theorem State.grp_setCore_rf (s : State) (rf : NMap Word) :
    (s.setCore { s.core with rf := rf }).grp = s.grp := State.grp_setCore _ _ rfl
@[simp] theorem State.core_setGrp_wgs (s : State) (g : Group) : (s.setGrp g).core.wgs = s.core.wgs := by
  simp [State.core_setGrp]
@[simp] theorem State.core_setGrp_slots (s : State) (g : Group) : (s.setGrp g).core.slots = s.core.slots := by
  simp [State.core_setGrp]
@[simp] theorem State.core_setGrp_rf (s : State) (g : Group) : (s.setGrp g).core.rf = s.core.rf := by
  simp [State.core_setGrp]
@[simp] theorem State.wg_setGrp (s : State) (g : Group) : (s.setGrp g).wg = mget {} s.core.wgs g.wgs := by
  simp [State.wg]

/-- A scalar register after it is written: the written one holds the value, every other is as before. -/
theorem Group.sreg_mset (g : Group) (i j : Nat) (v : Word) :
    ({ g with s := mset g.s i v } : Group).sreg j = if j = i then v else g.sreg j := mget_mset _ _ _ _ _
theorem Group.mreg_mset (g : Group) (i j : Nat) (v : Word) :
    ({ g with m := mset g.m i v } : Group).mreg j = if j = i then v else g.mreg j := mget_mset _ _ _ _ _

/-- Advancing after a group was set. -/
theorem State.advance_setGrp (s : State) (g : Group) :
    (s.setGrp g).advance = s.setGrp { g with pc := g.pc + 8, far := 0 } := by
  simp [State.advance, State.setPc]

/-- A word whose condition fails only advances. -/
theorem State.when_false (s t : State) (c : SCond) (h : s.grp.holds c = false) : s.when c t = s.advance := by
  simp [State.when, h]
theorem State.when_true (s t : State) (c : SCond) (h : s.grp.holds c = true) : s.when c t = t := by
  simp [State.when, h]

end Sys2Proof.Machine
end

