-- ==== Sys2Proof/Laws/Lanes.lean ====
section
/-! SUPPORT. What writing the registers of lanes does: each lane's written register holds its value, and nothing
else changes. -/

namespace Sys2Proof.Machine

open Sys2Proof.Safety

/-- A state that differs from `s` in the register file and the helper registers of the acting group only. -/
structure SameBut (s t : State) : Prop where
  cur  : t.cur = s.cur
  grp  : t.grp = { s.grp with hregs := t.grp.hregs }
  core : ∀ k, t.setCore k = s.setCore k
  rest : ∀ g, { t.core with groups := mset t.core.groups s.cur.g g }
    = { s.core with rf := t.core.rf, groups := mset s.core.groups s.cur.g g }

namespace SameBut

variable {s t : State}

theorem refl (s : State) : SameBut s s := ⟨rfl, rfl, fun _ => rfl, fun _ => rfl⟩

theorem wgs (h : SameBut s t) : t.core.wgs = s.core.wgs := by
  have e := h.rest {}
  injection e
theorem slots (h : SameBut s t) : t.core.slots = s.core.slots := by
  have e := h.rest {}
  injection e
theorem grp_wgs (h : SameBut s t) : t.grp.wgs = s.grp.wgs := by rw [h.grp]
theorem member (h : SameBut s t) : t.grp.member = s.grp.member := by rw [h.grp]
theorem helpers (h : SameBut s t) : t.grp.helpers = s.grp.helpers := by rw [h.grp]
theorem roster (h : SameBut s t) : t.grp.roster = s.grp.roster := by rw [h.grp]
theorem pc (h : SameBut s t) : t.grp.pc = s.grp.pc := by rw [h.grp]
theorem m (h : SameBut s t) : t.grp.m = s.grp.m := by rw [h.grp]
theorem wg (h : SameBut s t) : t.wg = s.wg := by simp only [State.wg, h.wgs, h.grp_wgs]
theorem physReg (h : SameBut s t) (l j : Nat) : t.physReg l j = s.physReg l j := by
  simp only [State.physReg, h.wg, h.roster]

/-- The group set after the lanes were written. -/
theorem setGrp (h : SameBut s t) (g : Group) :
    t.setGrp g = s.setCore { s.core with rf := t.core.rf, groups := mset s.core.groups s.cur.g g } := by
  rw [State.setGrp, h.cur, h.rest, h.core]

theorem advance (h : SameBut s t) : t.advance = s.setCore { s.core with
    rf := t.core.rf, groups := mset s.core.groups s.cur.g { s.grp with hregs := t.grp.hregs, pc := s.grp.pc + 8, far := 0 } } := by
  rw [State.advance, State.setPc, h.setGrp, h.pc]
  congr 3
  rw [h.grp]

theorem setLreg (h : SameBut s t) (l j : Nat) (v : Word) : SameBut s (t.setLreg l j v) := by
  unfold State.setLreg
  split
  · refine ⟨h.cur, ?_, fun k => by rw [State.setCore_setCore, h.core], fun g => ?_⟩
    · rw [State.grp_setCore_rf]; exact h.grp
    · rw [State.core_setCore]
      have := h.rest g
      exact congrArg (fun k : Core => { k with rf := mset t.core.rf (t.physReg l j) v }) this
  · split
    · refine ⟨h.cur, ?_, fun k => ?_, fun g => ?_⟩
      · rw [State.grp_setGrp]
        conv => lhs; rw [h.grp]
      · rw [State.setGrp, State.setCore_setCore, h.core]
      · rw [State.core_setGrp, ← h.cur, mset_mset, h.cur]
        exact h.rest g
    · exact h

/-- A lane's register is read from the register file and the helper registers only. -/
theorem lreg (h : SameBut s t) (l j : Nat) : t.lreg l j =
    if s.grp.member.getLsbD l then mget 0 t.core.rf (s.physReg l j)
    else if s.grp.helpers.getLsbD l then mget 0 t.grp.hregs (256 * l + j) else 0 := by
  simp only [State.lreg, h.member, h.helpers, h.physReg]

end SameBut

/-- One lane's register write, read back at any lane and register of the group. -/
theorem lreg_setLreg {s t : State} (hr : RowsApart s) (h : SameBut s t) (l j : Nat) (v : Word) (l' k : Nat)
    (hl : HasRegs s l) (hl' : HasRegs s l') (hj : j < s.wg.n) (hk : k < s.wg.n) :
    (t.setLreg l j v).lreg l' k = if l' = l ∧ k = j then v else t.lreg l' k := by
  have h2 := h.setLreg l j v
  rw [h2.lreg, h.lreg]
  unfold State.setLreg
  rw [h.member, h.helpers, h.physReg]
  obtain ⟨hn, hap⟩ := hr
  by_cases hm : s.grp.member.getLsbD l
  · rw [if_pos hm, State.core_setCore]
    by_cases hm' : s.grp.member.getLsbD l'
    · rw [if_pos hm', if_pos hm', mget_mset]
      by_cases he : l' = l
      · subst he
        by_cases hkj : k = j
        · simp [hkj]
        · rw [if_neg (fun c => hkj (by simp only [State.physReg] at c; omega)), if_neg (fun c : l' = l' ∧ k = j => hkj c.2)]
      · rw [if_neg (hap l' l k j hl'.1 hl.1 hm' hm he hk hj), if_neg (fun c : l' = l ∧ k = j => he c.1)]
    · rw [if_neg hm', if_neg hm', if_neg (fun c : l' = l ∧ k = j => hm' (c.1 ▸ hm)),
        State.grp_setCore_rf]
  · have hh : s.grp.helpers.getLsbD l = true := hl.2.resolve_left hm
    rw [if_neg hm, if_pos hh, State.grp_setGrp]
    by_cases hm' : s.grp.member.getLsbD l'
    · rw [if_pos hm', if_pos hm', if_neg (fun c : l' = l ∧ k = j => hm (c.1 ▸ hm')), State.core_setGrp_rf]
    · have hh' : s.grp.helpers.getLsbD l' = true := hl'.2.resolve_left hm'
      rw [if_neg hm', if_neg hm', if_pos hh', if_pos hh', mget_mset]
      by_cases he : l' = l ∧ k = j
      · rw [if_pos he, if_pos (by omega)]
      · rw [if_neg he, if_neg (by omega)]

/-- A register write leaves the register of every thread outside the group alone. -/
theorem rf_setLreg {s t : State} (h : SameBut s t) (l j p : Nat) (v : Word)
    (hp : s.grp.member.getLsbD l = true → s.physReg l j ≠ p) :
    mget 0 (t.setLreg l j v).core.rf p = mget 0 t.core.rf p := by
  unfold State.setLreg
  split
  · rename_i hm
    rw [h.member] at hm
    rw [State.core_setCore, h.physReg, mget_mset_ne _ _ _ (Ne.symm (hp hm))]
  · split
    · rw [State.core_setGrp_rf]
    · rfl

/-- A lane without registers takes no write. -/
theorem setLreg_none {s t : State} (h : SameBut s t) {l : Nat} (hl : l < 32) (hn : ¬HasRegs s l) (j : Nat) (v : Word) :
    t.setLreg l j v = t := by
  unfold State.setLreg
  rw [h.member, h.helpers, if_neg (fun c => hn ⟨hl, .inl c⟩), if_neg (fun c => hn ⟨hl, .inr c⟩)]

/-- Writing register `j` of lanes in turn: each holds its value, every other register of the group and every register
outside it is as before. -/
theorem foldl_setLreg {s : State} (hr : RowsApart s) (j : Nat) (hj : j < s.wg.n) (f : Nat → Word) (ls : List Nat) :
    ∀ t, SameBut s t → (∀ l ∈ ls, l < 32) → ls.Nodup →
      SameBut s (ls.foldl (fun t l => t.setLreg l j (f l)) t)
      ∧ (∀ l k, HasRegs s l → k < s.wg.n → (ls.foldl (fun t l => t.setLreg l j (f l)) t).lreg l k
          = if l ∈ ls ∧ k = j then f l else t.lreg l k)
      ∧ (∀ p, (∀ l k, l < 32 → s.grp.member.getLsbD l = true → k < s.wg.n → s.physReg l k ≠ p) →
          mget 0 (ls.foldl (fun t l => t.setLreg l j (f l)) t).core.rf p = mget 0 t.core.rf p) := by
  induction ls with
  | nil => intro t h _ _; exact ⟨h, by simp, fun _ _ => rfl⟩
  | cons l0 ls ih =>
    intro t h hlt hnd
    obtain ⟨h0, hnd'⟩ := List.nodup_cons.mp hnd
    have hl0 := hlt l0 (by simp)
    obtain ⟨a, b, c⟩ := ih (t.setLreg l0 j (f l0)) (h.setLreg l0 j (f l0)) (fun l hl => hlt l (by simp [hl])) hnd'
    refine ⟨a, fun l k hl hk => ?_, fun p hp => ?_⟩
    · rw [List.foldl_cons, b l k hl hk]
      by_cases hin : l ∈ ls ∧ k = j
      · rw [if_pos hin, if_pos ⟨by simp [hin.1], hin.2⟩]
      · rw [if_neg hin]
        by_cases hh : HasRegs s l0
        · rw [lreg_setLreg hr h l0 j (f l0) l k hh hl hj hk]
          by_cases he : l = l0 ∧ k = j
          · obtain ⟨rfl, rfl⟩ := he; simp
          · rw [if_neg he, if_neg]
            rintro ⟨hm, rfl⟩
            rcases List.mem_cons.mp hm with rfl | hm
            · exact he ⟨rfl, rfl⟩
            · exact hin ⟨hm, rfl⟩
        · rw [setLreg_none h hl0 hh, if_neg]
          rintro ⟨hm, rfl⟩
          rcases List.mem_cons.mp hm with rfl | hm
          · exact hh hl
          · exact hin ⟨hm, rfl⟩
    · rw [List.foldl_cons, c p hp, rf_setLreg h l0 j p _ (fun hm => hp l0 j hl0 hm hj)]

theorem mem_lanesOf {e : Word} {l : Nat} : l ∈ lanesOf e ↔ l < 32 ∧ e.getLsbD l = true := by
  simp [lanesOf, List.mem_filter]
theorem lanesOf_nodup (e : Word) : (lanesOf e).Nodup := List.nodup_range.filter _
theorem lanesOf_lt {e : Word} : ∀ l ∈ lanesOf e, l < 32 := fun _ h => (mem_lanesOf.mp h).1

/-- `writeLanes` in one lemma. -/
theorem writeLanes_law {s : State} (hr : RowsApart s) {t : State} (h : SameBut s t) (live : Word) (j : Nat)
    (hj : j < s.wg.n) (f : Nat → Word) :
    SameBut s (t.writeLanes live j f)
      ∧ (∀ l k, HasRegs s l → k < s.wg.n → (t.writeLanes live j f).lreg l k
          = if live.getLsbD l = true ∧ k = j then f l else t.lreg l k)
      ∧ (∀ p, (∀ l k, l < 32 → s.grp.member.getLsbD l = true → k < s.wg.n → s.physReg l k ≠ p) →
          mget 0 (t.writeLanes live j f).core.rf p = mget 0 t.core.rf p) := by
  obtain ⟨a, b, c⟩ := foldl_setLreg hr j hj f (lanesOf live) t h lanesOf_lt (lanesOf_nodup live)
  refine ⟨a, fun l k hl hk => ?_, c⟩
  rw [State.writeLanes, b l k hl hk]
  simp only [mem_lanesOf, hl.1, true_and]

theorem lreg_setPc (s : State) (pc : Word) (l k : Nat) : (s.setPc pc).lreg l k = s.lreg l k := by
  have hw : (s.setPc pc).wg = s.wg := State.wg_setGrp _ _
  simp only [State.lreg, State.physReg, hw]
  simp only [State.setPc, State.grp_setGrp, State.core_setGrp_rf]

theorem SameBut.setPc {s t : State} (h : SameBut s t) (pc : Word) : t.setPc pc = s.setCore { s.core with
    rf := t.core.rf, groups := mset s.core.groups s.cur.g { s.grp with hregs := t.grp.hregs, pc := pc, far := 0 } } := by
  rw [State.setPc, h.setGrp]
  congr 3
  rw [h.grp]

/-- After the lanes were written the group goes on: the shape every claim about lane registers has. -/
theorem SameBut.laneRegs {s t : State} (h : SameBut s t) (pc : Word) (v : Nat → Nat → Word)
    (hv : ∀ l k, HasRegs s l → k < s.wg.n → t.lreg l k = v l k)
    (hp : ∀ p, (∀ l k, l < 32 → s.grp.member.getLsbD l = true → k < s.wg.n → s.physReg l k ≠ p) →
      mget 0 t.core.rf p = mget 0 s.core.rf p) : LaneRegs s (t.setPc pc) pc v := by
  refine ⟨fun l k hl hk => ?_, fun p h' => ?_, _, _, h.setPc pc⟩
  · rw [lreg_setPc, hv l k hl hk]
  · rw [State.setPc, State.core_setGrp_rf, hp p h']

/-- A 32-bit lane instruction: what it wrote, and that nothing else changed. -/
theorem lanes32_wrote {s : State} (hr : RowsApart s) (m : MReg) (d : Reg) (hd : d.toNat < s.wg.n) (f : Nat → Word) :
    Wrote32 s m d f (s.lanes32 m d f) := by
  obtain ⟨a, b, c⟩ := writeLanes_law hr (SameBut.refl s) (s.live m) d.toNat hd f
  have e := a.laneRegs (s.grp.pc + 8) _ b c
  rw [← a.pc] at e
  rw [Wrote32, ← a.pc]
  exact e

/-- Writing a pair is writing its two registers in turn. -/
theorem foldl_setPair {s : State} (hr : RowsApart s) (j : Nat) (hj : j + 1 < s.wg.n) (f : Nat → DWord) (ls : List Nat) :
    ∀ t, SameBut s t → (∀ l ∈ ls, l < 32) → ls.Nodup →
      SameBut s (ls.foldl (fun t l => (t.setLreg l j (lo32 (f l))).setLreg l (j + 1) (hi32 (f l))) t)
      ∧ (∀ l k, HasRegs s l → k < s.wg.n →
          (ls.foldl (fun t l => (t.setLreg l j (lo32 (f l))).setLreg l (j + 1) (hi32 (f l))) t).lreg l k
          = if l ∈ ls ∧ k = j then lo32 (f l) else if l ∈ ls ∧ k = j + 1 then hi32 (f l) else t.lreg l k)
      ∧ (∀ p, (∀ l k, l < 32 → s.grp.member.getLsbD l = true → k < s.wg.n → s.physReg l k ≠ p) →
          mget 0 (ls.foldl (fun t l => (t.setLreg l j (lo32 (f l))).setLreg l (j + 1) (hi32 (f l))) t).core.rf p
            = mget 0 t.core.rf p) := by
  induction ls with
  | nil => intro t h _ _; exact ⟨h, by simp, fun _ _ => rfl⟩
  | cons l0 ls ih =>
    intro t h hlt hnd
    obtain ⟨h0, hnd'⟩ := List.nodup_cons.mp hnd
    have hl0 := hlt l0 (by simp)
    have h1 := h.setLreg l0 j (lo32 (f l0))
    obtain ⟨a, b, c⟩ := ih _ (h1.setLreg l0 (j + 1) (hi32 (f l0))) (fun l hl => hlt l (by simp [hl])) hnd'
    refine ⟨a, fun l k hl hk => ?_, fun p hp => ?_⟩
    · rw [List.foldl_cons, b l k hl hk]
      by_cases hle : l = l0
      · subst hle
        rw [lreg_setLreg hr h1 l (j + 1) _ l k hl hl hj hk, lreg_setLreg hr h l j _ l k hl hl (by omega) hk]
        by_cases k1 : k = j
        · subst k1; simp
        · by_cases k2 : k = j + 1
          · subst k2; simp
          · simp [k1, k2]
      · have hmem : (l ∈ l0 :: ls) ↔ l ∈ ls := by simp [hle]
        have hrest : ((t.setLreg l0 j (lo32 (f l0))).setLreg l0 (j + 1) (hi32 (f l0))).lreg l k = t.lreg l k := by
          by_cases hh : HasRegs s l0
          · rw [lreg_setLreg hr h1 l0 (j + 1) _ l k hh hl hj hk, if_neg (fun c => hle c.1),
              lreg_setLreg hr h l0 j _ l k hh hl (by omega) hk, if_neg (fun c => hle c.1)]
          · rw [setLreg_none h1 hl0 hh, setLreg_none h hl0 hh]
        simp only [hmem, hrest]
    · rw [List.foldl_cons, c p hp, rf_setLreg h1 l0 (j + 1) p _ (fun hm => hp l0 (j + 1) hl0 hm hj),
        rf_setLreg h l0 j p _ (fun hm => hp l0 j hl0 hm (by omega))]

/-- `writeTy` in one lemma, for a pair. -/
theorem writeTy64_law {s : State} (hr : RowsApart s) (ty : Ty) (hty : ty.is64 = true) (live : Word) (j : Nat)
    (hj : j + 1 < s.wg.n) (f : Nat → DWord) :
    SameBut s (s.writeTy ty live j f)
      ∧ (∀ l k, HasRegs s l → k < s.wg.n → (s.writeTy ty live j f).lreg l k
          = if live.getLsbD l = true ∧ k = j then lo32 (f l)
            else if live.getLsbD l = true ∧ k = j + 1 then hi32 (f l) else s.lreg l k)
      ∧ (∀ p, (∀ l k, l < 32 → s.grp.member.getLsbD l = true → k < s.wg.n → s.physReg l k ≠ p) →
          mget 0 (s.writeTy ty live j f).core.rf p = mget 0 s.core.rf p) := by
  have e : s.writeTy ty live j f
      = (lanesOf live).foldl (fun t l => (t.setLreg l j (lo32 (f l))).setLreg l (j + 1) (hi32 (f l))) s := by
    simp only [State.writeTy, State.setLval, hty, if_true]
  obtain ⟨a, b, c⟩ := foldl_setPair hr j hj f (lanesOf live) s (SameBut.refl s) lanesOf_lt (lanesOf_nodup live)
  rw [e]
  refine ⟨a, fun l k hl hk => ?_, c⟩
  rw [b l k hl hk]
  simp only [mem_lanesOf, hl.1, true_and]

/-- `writeTy` of a 32-bit type writes one register. -/
theorem writeTy32 (s : State) (ty : Ty) (hty : ty.is64 = false) (live : Word) (j : Nat) (f : Nat → DWord) :
    s.writeTy ty live j f = s.writeLanes live j (fun l => lo32 (f l)) := by
  simp [State.writeTy, State.setLval, hty, State.writeLanes]

/-- A typed lane instruction: what it wrote, and that nothing else changed. -/
theorem lanes_wrote {s : State} (hr : RowsApart s) (m : MReg) (ty : Ty) (d : Reg) (hd : tyRegOk s.wg.n ty d = true)
    (f : Nat → DWord) : WroteTy s m ty d f (s.lanes m ty d f) := by
  unfold WroteTy tyRegOk at *
  by_cases hty : ty.is64 = true
  · rw [if_pos hty] at hd ⊢
    simp only [pairOk, Bool.and_eq_true, decide_eq_true_eq] at hd
    obtain ⟨a, b, c⟩ := writeTy64_law hr ty hty (s.live m) d.toNat hd.2 f
    have e := a.laneRegs (s.grp.pc + 8) _ b c
    rw [← a.pc] at e
    rw [Wrote64, ← a.pc]
    exact e
  · rw [if_neg hty] at hd ⊢
    simp only [regOk, decide_eq_true_eq] at hd
    have e := lanes32_wrote hr m d hd (fun l => lo32 (f l))
    rw [State.lanes, writeTy32 s ty (by simpa using hty)]
    exact e

end Sys2Proof.Machine
end

