-- ==== Sys2Proof/Laws/Memory.lean ====
section
/-! SUPPORT. The shared operations that write memory keep its canonical form. -/

namespace Sys2Proof.Machine

open Sys2Proof.Safety

/-- A fold whose every step keeps an invariant keeps it. -/
theorem foldl_keeps {α β : Type} (P : β → Prop) (f : β → α → β) (hf : ∀ b a, P b → P (f b a)) (l : List α) (b : β) (h : P b) :
    P (l.foldl f b) := by
  induction l generalizing b with
  | nil => exact h
  | cons a l ih => exact ih _ (hf _ _ h)

/-- A change that leaves memory alone keeps the invariant. -/
theorem memOk_of_mem {s t : State} (e : t.mem = s.mem) (h : MemOk s) : MemOk t := by rw [MemOk, e]; exact h

theorem State.requestEarly_mem (s : State) (f : Nat) : (s.requestEarly f).mem = s.mem := by
  simp only [State.requestEarly]; split <;> rfl

theorem State.dropPair_mem (s : State) (owner word : Nat) : (s.dropPair owner word).mem = s.mem := by
  simp only [State.dropPair]
  split
  · rfl
  · split <;> rfl

theorem State.setOwner_mem (s : State) (word o : Nat) : (s.setOwner word o).mem = s.mem := by
  simp only [State.setOwner]
  split
  · rfl
  · simp only [State.dropPair_mem]

/-- A holding tray's new entries keep the canonical form. -/
theorem memOk_putTray {s : State} (f : Nat) (is : List TrayItem) (h : MemOk s) : MemOk (s.putTray f is) := by
  have ht : MemOk (s.trayBytesTo f is.length) := by
    unfold State.trayBytesTo
    dsimp only
    split
    · exact wf_writeBytes _ _ h
    · exact h
  unfold State.putTray
  dsimp only
  split
  · exact memOk_of_mem (State.requestEarly_mem _ _) ht
  · exact ht

/-- Moving a range of bytes keeps the canonical form. -/
theorem wf_copyRange {m : Memory} (src dst n : Nat) (h : Memory.wf m = true) : Memory.wf (copyRange m src dst n) = true :=
  foldl_keeps (fun m => Memory.wf m = true) _ (fun _ _ => wf_memWrite _ _) _ _ (wf_zeroRange _ _ h)

/-- An entry of an undo log keeps the canonical form. -/
theorem memOk_putLog {s : State} (f n kind a : Nat) (old : List Byte) (h : MemOk s) : MemOk (s.putLog f n kind a old) := by
  have hw : MemOk (if s.assigned ((s.fnAt f).ck.logBase + 144 * n) then
      { s with mem := writeBytes s.mem ((s.fnAt f).ck.logBase + 144 * n) (bytesOf 8 (a * 256 + kind) ++ bytesOf 8 s.chipTime ++ old) }
      else s) := by
    split
    · exact wf_writeBytes _ _ h
    · exact h
  unfold State.putLog
  dsimp only
  split
  · exact memOk_of_mem (State.requestEarly_mem _ _) hw
  · exact hw

theorem memOk_logLine {s : State} (f line : Nat) (h : MemOk s) : MemOk (s.logLine f line) := by
  simp only [State.logLine]
  split
  · exact memOk_putLog _ _ _ _ _ (memOk_of_mem rfl h)
  · exact h

theorem memOk_markDirty {s : State} (a : Nat) (h : MemOk s) : MemOk (s.markDirty a) := by
  refine foldl_keeps MemOk _ (fun t e ht => ?_) _ _ h
  split
  · split
    · exact wf_memWrite _ _ ht
    · exact ht
  · exact ht

/-- A store of a number at its home keeps the canonical form. -/
theorem memOk_homeStore {s : State} (f o a n v : Nat) (h : MemOk s) : MemOk (s.homeStore f o a n v) := by
  simp only [State.homeStore]
  refine foldl_keeps MemOk _ (fun t i ht => memOk_of_mem (State.setOwner_mem _ _ _) ht) _ _ ?_
  refine wf_writeN _ _ _ (memOk_markDirty a ?_)
  split
  · exact h
  · exact memOk_logLine _ _ h

/-- A store of bytes at its home keeps the canonical form. -/
theorem memOk_homeBytes {s : State} (f o a : Nat) (bs : List Byte) (h : MemOk s) : MemOk (s.homeBytes f o a bs) := by
  have hl : MemOk (if o = ownHost then s else s.logLine f (a / 128)) := by
    split
    · exact h
    · exact memOk_logLine _ _ h
  have last : ∀ x : State, MemOk x →
      MemOk (if (bs.length = 128 && a % 128 = 0) = true then { x with poison := x.poison.filter (· != a / 128) } else x) :=
    fun x hx => by split <;> exact hx
  exact last _ (foldl_keeps MemOk _ (fun t i ht => memOk_of_mem (State.setOwner_mem _ _ _) ht) _ _
    (wf_writeBytes _ _ (memOk_markDirty a hl)))

/-- Draining a window accumulator keeps the canonical form. -/
theorem memOk_drainWin {s : State} (x a : Nat) (h : MemOk s) : MemOk (s.drainWin x a) := by
  have hs : MemOk (s.setHum x { s.humAt x with wins := mdel (s.humAt x).wins a }) := h
  unfold State.drainWin
  split
  · exact h
  · exact memOk_homeStore _ _ _ _ _ hs

theorem memOk_drainFor {s : State} (a n : Nat) (h : MemOk s) : MemOk (s.drainFor a n) :=
  foldl_keeps MemOk _ (fun _ _ ht => foldl_keeps MemOk _ (fun _ _ hu => memOk_drainWin _ _ hu) _ _ ht) _ _ h

theorem memOk_drainReads {s : State} (as : List Nat) (h : MemOk s) : MemOk (s.drainReads as) :=
  foldl_keeps MemOk _ (fun _ a ht => memOk_drainFor a 16 ht) _ _ h

/-- An access that passes an L2 slice moves its tags alone. -/
theorem State.l2Touch_mem (s : State) (f : Nat) (home : Nat × Nat) (p line : Nat) (w : Bool) :
    (s.l2Touch f home p line w).mem = s.mem := by
  unfold State.l2Touch
  split
  · split <;> rfl
  · rfl

theorem State.l2At_mem (s : State) (f : Nat) (t : Tlb) (pa : Nat) (w : Bool) : (s.l2At f t pa w).mem = s.mem :=
  State.l2Touch_mem _ _ _ _ _ _

/-- The marks of a walk keep the canonical form. -/
theorem memOk_writeMarks {s : State} (f : Nat) (upd : List (Nat × Nat)) (h : MemOk s) : MemOk (s.writeMarks f upd) :=
  foldl_keeps MemOk _ (fun _ u ht =>
    memOk_homeStore _ _ _ _ _ (memOk_of_mem (State.l2At_mem _ _ _ _ _) (memOk_drainFor u.1 8 ht))) _ _ h

/-! ### The error queue (17_device_boundary.md R406, R407) -/

theorem memOk_putErr {s : State} (f pa : Nat) (e : List Byte) (h : MemOk s) : MemOk (s.putErr f pa e) :=
  memOk_of_mem (t := s.putErr f pa e) rfl (memOk_homeBytes f ownEnlarger pa e (memOk_drainFor pa 32 h))

theorem memOk_tryErr {s : State} (f h va : Nat) (e : List Byte) (w : Walked) (hs : MemOk s) : MemOk (s.tryErr f h va e w).1 := by
  unfold State.tryErr
  dsimp only
  split
  · exact hs
  · split
    · split
      · exact memOk_of_mem rfl (memOk_writeMarks _ _ hs)
      · split
        · exact hs
        · exact memOk_putErr _ _ _ (memOk_of_mem (State.l2At_mem _ _ _ _ _) (memOk_writeMarks _ _ hs))
    · exact hs
    · exact memOk_of_mem rfl hs

/-- Logging an entry keeps the canonical form, whatever becomes of it. -/
theorem memOk_logErrN (n : Nat) {s : State} (f kind h i0 i1 : Nat) (hs : MemOk s) :
    MemOk (State.logErrN n s f kind h i0 i1) := by
  induction n generalizing s f kind i0 i1 with
  | zero =>
    unfold State.logErrN
    dsimp only
    split
    · exact memOk_of_mem rfl hs
    · split
      · exact hs
      · split
        · exact memOk_of_mem rfl hs
        · exact memOk_tryErr _ _ _ _ _ (memOk_drainReads _ hs)
  | succ n ih =>
    unfold State.logErrN
    dsimp only
    split
    · exact memOk_of_mem rfl hs
    · split
      · exact hs
      · split
        · exact memOk_of_mem rfl hs
        · refine foldl_keeps MemOk _ (fun _ _ ht => ih _ _ _ _ ht) _ _ ?_
          split
          · exact ih _ _ _ _ (memOk_tryErr _ _ _ _ _ (memOk_drainReads _ hs))
          · exact memOk_tryErr _ _ _ _ _ (memOk_drainReads _ hs)

theorem memOk_logErr {s : State} (f kind h i0 i1 : Nat) (hs : MemOk s) : MemOk (s.logErr f kind h i0 i1) :=
  memOk_logErrN 1 f kind h i0 i1 hs

/-! ### Stores and what they write beside their bytes -/

theorem memOk_besides {s : State} (h a n : Nat) (hs : MemOk s) : MemOk (s.besides h a n) := by
  unfold State.besides
  split
  · exact memOk_drainFor _ _ hs
  · exact memOk_logErr _ _ _ _ _ hs

theorem memOk_storeReady {s : State} (f o a : Nat) (hs : MemOk s) : MemOk (s.storeReady f o a) := by
  have hd : MemOk (s.dirtyReady a) := foldl_keeps MemOk _ (fun _ _ ht => memOk_besides _ _ _ ht) _ _ hs
  unfold State.storeReady
  dsimp only
  split
  · exact memOk_besides _ _ _ hd
  · exact hd

/-- A store of a number, with what it writes beside, keeps the canonical form. -/
theorem memOk_performStore {s : State} (f o a n v : Nat) (h : MemOk s) : MemOk (s.performStore f o a n v) :=
  memOk_homeStore _ _ _ _ _ (memOk_storeReady _ _ _ h)

/-- A store of bytes, with what it writes beside, keeps the canonical form. -/
theorem memOk_performBytes {s : State} (f o a : Nat) (bs : List Byte) (h : MemOk s) : MemOk (s.performBytes f o a bs) :=
  memOk_homeBytes _ _ _ _ (memOk_storeReady _ _ _ h)

/-! ### Window accumulators and loads -/

/-- Making room for an accumulator keeps the canonical form. -/
theorem memOk_winRoom {s : State} (x : Nat) (h : MemOk s) : MemOk (s.winRoom x) := by
  unfold State.winRoom
  dsimp only
  split
  · exact h
  · split
    · exact h
    · exact memOk_drainWin _ _ (memOk_of_mem rfl h)

/-- A contribution to a window accumulator keeps the canonical form. -/
theorem memOk_winAccept {s : State} (home a : Nat) (c : WinAcc) (h : MemOk s) : MemOk (s.winAccept home a c) := by
  have hb : MemOk (s.winBind (s.winHum home) a c) := memOk_of_mem rfl (memOk_winRoom _ (memOk_drainFor a (memWidth c.ty) h))
  unfold State.winAccept
  dsimp only
  split
  · split
    · exact memOk_of_mem rfl h
    · exact hb
  · exact hb

theorem State.l1Room_mem (s : State) (h c l : Nat) : (s.l1Room h c l).mem = s.mem := by
  unfold State.l1Room
  dsimp only
  repeat' split
  all_goals rfl

theorem State.l1Fill_mem (s : State) (h c a : Nat) : (s.l1Fill h c a).mem = s.mem := by
  simp only [State.l1Fill, State.setCoreAt_mem, State.l1Room_mem]

/-- A lane's load keeps the canonical form: it drains the accumulators of its words and fills the L1. -/
theorem memOk_loadLane {s : State} (r : Req) (i : LaneAcc) (h : MemOk s) : MemOk (s.loadLane r i).1 := by
  have hd := memOk_drainFor (i.addr / 4 * 4) (max 4 (memWidth r.ty)) h
  unfold State.loadLane
  dsimp only
  split
  · exact h
  · dsimp only
    split
    · exact memOk_of_mem (State.l1Fill_mem _ _ _ _) hd
    · exact memOk_of_mem (State.dropPair_mem _ _ _) hd

/-- A lane's operation at its home keeps the canonical form. -/
theorem memOk_lanePerform {s : State} (r : Req) (i : LaneAcc) (h : MemOk s) : MemOk (s.lanePerform r i).1 := by
  unfold State.lanePerform
  dsimp only
  split
  · exact memOk_loadLane r i h
  · split
    · exact memOk_putTray _ _ h
    · exact memOk_performStore _ _ _ _ _ (memOk_drainFor _ _ h)
  · exact memOk_performStore _ _ _ _ _ (memOk_drainFor _ _ h)
  · split
    · split
      · exact memOk_winAccept _ _ _ (memOk_of_mem (State.dropPair_mem _ _ _) h)
      · exact memOk_of_mem (State.dropPair_mem _ _ _) h
    · exact memOk_performStore _ _ _ _ _ (memOk_drainFor _ _ h)

/-! ### Areas (15_traps_preemption.md R368) -/

/-- The addresses of a list of cells rise strictly within a range, and none holds the unlisted value. -/
def CellsIn (lo hi : Nat) (m : Memory) : Prop :=
  m.Pairwise (fun x y => x.1 < y.1) ∧ ∀ e ∈ m, lo ≤ e.1 ∧ e.1 < hi ∧ e.2 ≠ Memory.unlisted

theorem wf_iff {m : Memory} :
    Memory.wf m = true ↔ m.Pairwise (fun x y => x.1 < y.1) ∧ ∀ e ∈ m, e.2 ≠ Memory.unlisted := by
  induction m with
  | nil => simp [Memory.wf]
  | cons e m ih =>
    rw [wf_cons, ih, List.pairwise_cons, List.forall_mem_cons]
    exact ⟨fun ⟨a, b, c, d⟩ => ⟨⟨b, c⟩, a, d⟩, fun ⟨⟨b, c⟩, a, d⟩ => ⟨a, b, c, d⟩⟩

theorem CellsIn.append {lo mid hi : Nat} {m m' : Memory} (h : CellsIn lo mid m) (h' : CellsIn mid hi m') (le : mid ≤ hi)
    (le' : lo ≤ mid) : CellsIn lo hi (m ++ m') := by
  refine ⟨List.pairwise_append.mpr ⟨h.1, h'.1, fun x hx y hy => ?_⟩, fun e he => ?_⟩
  · have := h.2 x hx; have := h'.2 y hy; omega
  · rcases List.mem_append.mp he with he | he
    · have := h.2 e he; exact ⟨this.1, by omega, this.2.2⟩
    · have := h'.2 e he; exact ⟨by omega, this.2⟩

/-- The cells of a list of bytes. -/
theorem cellsIn_cellsFrom (bs : List Byte) (a : Nat) : CellsIn a (a + bs.length) (cellsFrom a bs) := by
  induction bs generalizing a with
  | nil => exact ⟨List.Pairwise.nil, by simp [cellsFrom]⟩
  | cons b bs ih =>
    have h := ih (a + 1)
    by_cases hb : b = Memory.unlisted
    · have e : cellsFrom a (b :: bs) = cellsFrom (a + 1) bs := by simp [cellsFrom, hb]
      rw [e]
      refine ⟨h.1, fun x hx => ?_⟩
      have := h.2 x hx
      simp only [List.length_cons]
      exact ⟨by omega, by omega, this.2.2⟩
    · have e : cellsFrom a (b :: bs) = (a, b) :: cellsFrom (a + 1) bs := by simp [cellsFrom, hb]
      rw [e]
      refine ⟨List.pairwise_cons.mpr ⟨fun x hx => ?_, h.1⟩, fun x hx => ?_⟩
      · have := h.2 x hx; show a < x.1; omega
      · simp only [List.length_cons]
        rcases List.mem_cons.mp hx with rfl | hx
        · exact ⟨Nat.le_refl a, by show a < a + (bs.length + 1); omega, hb⟩
        · have := h.2 x hx; exact ⟨by omega, by omega, this.2.2⟩

/-- The cells of the sheets of an image. -/
theorem cellsIn_areaOf (bss : List (List Byte)) : CellsIn 0 (areaOf bss).1 (areaOf bss).2 := by
  refine foldl_keeps (fun p : Nat × Memory => CellsIn 0 p.1 p.2) _ (fun p bs h => ?_) bss (0, []) ⟨List.Pairwise.nil, by simp⟩
  exact h.append (cellsIn_cellsFrom bs p.1) (by omega) (by omega)

/-- Putting an area into memory keeps the canonical form. -/
theorem wf_putArea {m cells : Memory} (a n : Nat) (h : Memory.wf m = true) (hc : CellsIn 0 n cells) :
    Memory.wf (putArea m a n cells) = true := by
  obtain ⟨hp, hn⟩ := wf_iff.mp h
  refine wf_iff.mpr ⟨?_, fun e he => ?_⟩
  · refine List.pairwise_append.mpr ⟨List.pairwise_append.mpr ⟨hp.filter _, ?_, fun x hx y hy => ?_⟩, hp.filter _,
      fun x hx y hy => ?_⟩
    · exact List.pairwise_map.mpr (hc.1.imp (fun hxy => by show a + _ < a + _; omega))
    · obtain ⟨z, -, rfl⟩ := List.mem_map.mp hy
      have := (List.mem_filter.mp hx).2
      simp only [decide_eq_true_eq] at this
      show x.1 < a + z.1
      omega
    · have hy' := (List.mem_filter.mp hy).2
      simp only [decide_eq_true_eq] at hy'
      rcases List.mem_append.mp hx with hx | hx
      · have := (List.mem_filter.mp hx).2
        simp only [decide_eq_true_eq] at this
        omega
      · obtain ⟨z, hz, rfl⟩ := List.mem_map.mp hx
        have := hc.2 z hz
        show a + z.1 < y.1
        omega
  · rcases List.mem_append.mp he with he | he
    · rcases List.mem_append.mp he with he | he
      · exact hn _ (List.mem_filter.mp he).1
      · obtain ⟨z, hz, rfl⟩ := List.mem_map.mp he
        exact (hc.2 z hz).2.2
    · exact hn _ (List.mem_filter.mp he).1

/-- Writing the image of an instant keeps the canonical form. -/
theorem memOk_writeImage {s : State} (f f' : Nat) (t : State) (h : MemOk s) : MemOk (s.writeImage f (t.capture f')) := by
  unfold State.writeImage
  dsimp only
  split
  · exact wf_putArea _ _ (memOk_drainFor _ _ h) (cellsIn_areaOf _)
  · exact memOk_logErr _ _ _ _ _ h

end Sys2Proof.Machine
end

