-- ==== Sys2Proof/Laws/PerInstr.lean ====
section
/-! SUPPORT. Per instruction: the decoder reads an instruction's word as that instruction, and its opcode
is assigned. An event has no word. -/

namespace Sys2Proof.Laws.RoundTrip

set_option Elab.async false

/-- Every word that encodes the instruction reads as it. -/
def Statement (i : Instr) : Prop := ∀ w, encode i = some w → Reads i w

theorem of_word {i : Instr} {w : DWord} (e : encode i = some w) (h : Reads i w) : Statement i := by
  intro w' e'
  rw [e] at e'
  cases e'
  exact h

theorem smov (c : SCond) (d src : SCode) : Statement (.smov c d src) :=
  of_word rfl (reads_sWord rfl (by decide) (by decide))
theorem smovi (c : SCond) (d : SCode) (imm : Word) : Statement (.smovi c d imm) :=
  of_word rfl (reads_sWord rfl (by decide) (by decide))
theorem sadd (c : SCond) (d a : SCode) (b : Op2) : Statement (.sadd c d a b) :=
  of_word rfl (reads_sWord (by show some _ = _; simp only [readOp2_field]) (by decide) (by decide))
theorem ssub (c : SCond) (d a : SCode) (b : Op2) : Statement (.ssub c d a b) :=
  of_word rfl (reads_sWord (by show some _ = _; simp only [readOp2_field]) (by decide) (by decide))
theorem smul (c : SCond) (d a : SCode) (b : Op2) : Statement (.smul c d a b) :=
  of_word rfl (reads_sWord (by show some _ = _; simp only [readOp2_field]) (by decide) (by decide))
theorem smulh (c : SCond) (u : Bool) (d a : SCode) (b : Op2) : Statement (.smulh c u d a b) :=
  of_word rfl (reads_sWord (by show some _ = _; simp only [uMod_0, readOp2_field]) (by decide) (by decide))
theorem sand (c : SCond) (d a : SCode) (b : Op2) : Statement (.sand c d a b) :=
  of_word rfl (reads_sWord (by show some _ = _; simp only [readOp2_field]) (by decide) (by decide))
theorem sor (c : SCond) (d a : SCode) (b : Op2) : Statement (.sor c d a b) :=
  of_word rfl (reads_sWord (by show some _ = _; simp only [readOp2_field]) (by decide) (by decide))
theorem sxor (c : SCond) (d a : SCode) (b : Op2) : Statement (.sxor c d a b) :=
  of_word rfl (reads_sWord (by show some _ = _; simp only [readOp2_field]) (by decide) (by decide))
theorem sshl (c : SCond) (d a : SCode) (b : Op2) : Statement (.sshl c d a b) :=
  of_word rfl (reads_sWord (by show some _ = _; simp only [readOp2_field]) (by decide) (by decide))
theorem sshr (c : SCond) (d a : SCode) (b : Op2) : Statement (.sshr c d a b) :=
  of_word rfl (reads_sWord (by show some _ = _; simp only [readOp2_field]) (by decide) (by decide))
theorem ssar (c : SCond) (d a : SCode) (b : Op2) : Statement (.ssar c d a b) :=
  of_word rfl (reads_sWord (by show some _ = _; simp only [readOp2_field]) (by decide) (by decide))
theorem smin (c : SCond) (u : Bool) (d a : SCode) (b : Op2) : Statement (.smin c u d a b) :=
  of_word rfl (reads_sWord (by show some _ = _; simp only [uMod_0, readOp2_field]) (by decide) (by decide))
theorem smax (c : SCond) (u : Bool) (d a : SCode) (b : Op2) : Statement (.smax c u d a b) :=
  of_word rfl (reads_sWord (by show some _ = _; simp only [uMod_0, readOp2_field]) (by decide) (by decide))
theorem scmp (c : SCond) (a b : SCode) : Statement (.scmp c a b) :=
  of_word rfl (reads_sWord (by show some (Instr.scmp _ _ ((0#25 ++ b : BitVec 32).extractLsb' 0 7)) = _; rw [codeImm_0]) (by decide) (by decide))
theorem scmpi (c : SCond) (a : SCode) (imm : Word) : Statement (.scmpi c a imm) :=
  of_word rfl (reads_sWord rfl (by decide) (by decide))
theorem ssel (c : SCond) (sel : SSel) (d a : SCode) (b : Op2) : Statement (.ssel c sel d a b) :=
  of_word rfl (reads_sWord (by
    show Option.map _ (SSel.ofCode _) = _; simp only [readOp2_field, ssel_ofCode, Option.map_some])
    (by decide) (by decide))
theorem sread (c : SCond) (d : SCode) (v : Reg) (l : LaneSel) : Statement (.sread c d v l) := by
  cases l with
  | imm l =>
    exact of_word rfl (reads_sWord (by
      show some (Instr.sread _ _ _ (if _ then _ else _)) = _
      rw [sreadImm_0, sreadImm_8, sreadImm_13]
      rfl) (by decide) (by decide))
  | code l =>
    exact of_word rfl (reads_sWord (by
      show some (Instr.sread _ _ _ (if _ then _ else _)) = _
      rw [sreadCode_0, sreadCode_13]
      rfl) (by decide) (by decide))
theorem kst (c : SCond) (k : SCode) (b : Op2) : Statement (.kst c k b) :=
  of_word rfl (reads_sWord (by show some _ = _; simp only [readOp2_field]) (by decide) (by decide))
theorem br (c : SCond) (off : Word) : Statement (.br c off) :=
  of_word rfl (reads_sWord rfl (by decide) (by decide))
theorem bra (c : SCond) (t : Op2) : Statement (.bra c t) :=
  of_word rfl (reads_sWord (by show some _ = _; simp only [readOp2_field]) (by decide) (by decide))
theorem brmz (c : SCond) (m : MReg) (off : Word) : Statement (.brmz c m off) :=
  of_word rfl (reads_sWord (by show some _ = _; simp only [maskCode_0]) (by decide) (by decide))
theorem brmnz (c : SCond) (m : MReg) (off : Word) : Statement (.brmnz c m off) :=
  of_word rfl (reads_sWord (by show some _ = _; simp only [maskCode_0]) (by decide) (by decide))
theorem brmf (c : SCond) (m : MReg) (off : Word) : Statement (.brmf c m off) :=
  of_word rfl (reads_sWord (by show some _ = _; simp only [maskCode_0]) (by decide) (by decide))
theorem sloop (c : SCond) (ctr : SCode) (off : Word) : Statement (.sloop c ctr off) :=
  of_word rfl (reads_sWord rfl (by decide) (by decide))
theorem call (c : SCond) (l : Reg) (off : Word) : Statement (.call c l off) :=
  of_word rfl (reads_sWord (by show some _ = _; simp only [hiMod_0, link_join]) (by decide) (by decide))
theorem ret (c : SCond) (l : Reg) : Statement (.ret c l) :=
  of_word rfl (reads_sWord (by show some _ = _; rw [hiMod_0, link_join]) (by decide) (by decide))
theorem trap (c : SCond) (code : BitVec 16) : Statement (.trap c code) :=
  of_word rfl (reads_sWord (by show some _ = _; simp only [trapImm_0]) (by decide) (by decide))
theorem nop (c : SCond) : Statement (.nop c) :=
  of_word rfl (reads_sWord rfl (by decide) (by decide))
theorem hint (n : BitVec 4) (body : BitVec 54) : Statement (.hint n body) := by
  have e : (0b10#2 ++ 0xF#4 ++ n ++ body : DWord).toNat = 2 * 2 ^ 62 + 15 * 2 ^ 58 + n.toNat * 2 ^ 54 + body.toNat := by
    show @BitVec.toNat (2 + 4 + 4 + 54) _ = _
    simp only [toNat_app]; simp only [BitVec.toNat_ofNat]; omega
  refine of_word rfl ?_
  generalize (0b10#2 ++ 0xF#4 ++ n ++ body : DWord) = w at e
  have h2 : w.extractLsb' 62 2 = 2#2 := field_eq (by simp only [BitVec.toNat_ofNat]; omega)
  have hf : w.extractLsb' 58 4 = 0xF#4 := field_eq (by simp only [BitVec.toNat_ofNat]; omega)
  constructor
  · unfold parse parseS
    rw [h2]
    show (if w.extractLsb' 58 4 = 0xF#4 then some (Instr.hint (w.extractLsb' 54 4) (w.extractLsb' 0 54)) else _) = _
    rw [if_pos hf, field_eq (s := 54) (f := n) (by omega), field_eq (s := 0) (f := body) (by omega)]
  · unfold opcodeCheck
    rw [h2]
    show (if sAssigned (w.extractLsb' 54 8).toNat = true then _ else _) = _
    have ho : 240 ≤ (w.extractLsb' 54 8).toNat ∧ (w.extractLsb' 54 8).toNat ≤ 255 := by
      rw [BitVec.extractLsb'_toNat, Nat.shiftRight_eq_div_pow]; omega
    rw [if_pos]
    generalize (w.extractLsb' 54 8).toNat = x at ho
    simp [sAssigned, inRanges, ho]
theorem yield (c : SCond) : Statement (.yield c) :=
  of_word rfl (reads_sWord rfl (by decide) (by decide))
theorem sleep (c : SCond) (b : Op2) : Statement (.sleep c b) :=
  of_word rfl (reads_sWord (by show some _ = _; simp only [readOp2_field]) (by decide) (by decide))
theorem spawn (c : SCond) (d s : BitVec 4) (f : Reg) (k : BitVec 4) (e : SpawnEntry) : Statement (.spawn c d s f k e) := by
  cases e with
  | label off =>
    exact of_word rfl (reads_sWord (by
      show some _ = _
      rw [spawnCode_3, spawnCode_0, spawnImm_28, spawnImm_20, spawnImm_0, hiMod_0, count_join]
      rfl) (by decide) (by decide))
  | code e =>
    exact of_word rfl (reads_sWord (by
      show some _ = _
      rw [spawnCode_3, spawnCode_0, spawnImm_28, spawnImm_20, hiMod_0, count_join]
      rfl) (by decide) (by decide))
theorem reform (c : SCond) (t : Option Reg) : Statement (.reform c t) := by
  cases t with
  | none => exact of_word rfl (reads_sWord rfl (by decide) (by decide))
  | some t =>
    exact of_word rfl (reads_sWord (by
      show some (Instr.reform _ (if _ then some _ else none)) = _
      rw [reformMod_0, reformMod_2, link_join]
      rfl) (by decide) (by decide))
theorem reformTwo (c : SCond) (m : MReg) (off : Word) : Statement (.reformTwo c m off) :=
  of_word rfl (reads_sWord (by show some _ = _; simp only [maskCode_0]) (by decide) (by decide))
theorem retire (c : SCond) : Statement (.retire c) :=
  of_word rfl (reads_sWord rfl (by decide) (by decide))
theorem binAge (c : SCond) (b : Op2) : Statement (.binAge c b) :=
  of_word rfl (reads_sWord (by show some _ = _; simp only [readOp2_field]) (by decide) (by decide))
theorem jpost (c : SCond) (d a : SCode) (card : BitVec 6) (n : BitVec 4) (dir : BitVec 3) : Statement (.jpost c d a card n dir) :=
  of_word rfl (reads_sWord (by show some _ = _; simp only [jpostImm_0, jpostImm_8]) (by decide) (by decide))
theorem mov (m : MReg) (t : Ty) (d a : Reg) : Statement (.mov m t d a) :=
  of_word rfl (reads_fWord (by show Option.map _ (Ty.ofCode _) = _; rw [ty_ofCode]; rfl) (by decide) (by decide))
theorem movScalar (m : MReg) (d : Reg) (src : SCode) : Statement (.movScalar m d src) :=
  of_word rfl (reads_fWord (by show some _ = _; rw [srcField_0]) (by decide) (by decide))
theorem movi (m : MReg) (d : Reg) (imm : Word) : Statement (.movi m d imm) :=
  of_word rfl (reads_iWord rfl (by decide) (by decide))
theorem tidx (m : MReg) (d : Reg) : Statement (.tidx m d) :=
  of_word rfl (reads_fWord rfl (by decide) (by decide))
theorem add (m : MReg) (ty : Ty) (d a b : Reg) : Statement (.add m ty d a b) :=
  of_word rfl (reads_fWord (by
    show Option.map _ (Ty.ofCode _) = _; simp only [ty_ofCode, Option.map_some])
    (by decide) (by decide))
theorem addc (m : MReg) (d a b : Reg) (cm : MReg) : Statement (.addc m d a b cm) :=
  of_word rfl (reads_fWord (by show some _ = _; simp only [mField_0]) (by decide) (by decide))
theorem sub (m : MReg) (ty : Ty) (d a b : Reg) : Statement (.sub m ty d a b) :=
  of_word rfl (reads_fWord (by
    show Option.map _ (Ty.ofCode _) = _; simp only [ty_ofCode, Option.map_some])
    (by decide) (by decide))
theorem subc (m : MReg) (d a b : Reg) (cm : MReg) : Statement (.subc m d a b cm) :=
  of_word rfl (reads_fWord (by show some _ = _; simp only [mField_0]) (by decide) (by decide))
theorem mul (m : MReg) (ty : Ty) (d a b : Reg) : Statement (.mul m ty d a b) :=
  of_word rfl (reads_fWord (by
    show Option.map _ (Ty.ofCode _) = _; simp only [ty_ofCode, Option.map_some])
    (by decide) (by decide))
theorem mulhi (m : MReg) (ty : Ty) (d a b : Reg) : Statement (.mulhi m ty d a b) :=
  of_word rfl (reads_fWord (by
    show Option.map _ (Ty.ofCode _) = _; simp only [ty_ofCode, Option.map_some])
    (by decide) (by decide))
theorem mad (m : MReg) (ty : Ty) (d a b e : Reg) : Statement (.mad m ty d a b e) :=
  of_word rfl (reads_fWord (by
    show Option.map _ (Ty.ofCode _) = _; simp only [ty_ofCode, Option.map_some])
    (by decide) (by decide))
theorem madw (m : MReg) (ty : Ty) (d a b e : Reg) : Statement (.madw m ty d a b e) :=
  of_word rfl (reads_fWord (by
    show Option.map _ (Ty.ofCode _) = _; simp only [ty_ofCode, Option.map_some])
    (by decide) (by decide))
theorem neg (m : MReg) (ty : Ty) (d a : Reg) : Statement (.neg m ty d a) :=
  of_word rfl (reads_fWord (by
    show Option.map _ (Ty.ofCode _) = _; simp only [ty_ofCode, Option.map_some])
    (by decide) (by decide))
theorem abs (m : MReg) (ty : Ty) (d a : Reg) : Statement (.abs m ty d a) :=
  of_word rfl (reads_fWord (by
    show Option.map _ (Ty.ofCode _) = _; simp only [ty_ofCode, Option.map_some])
    (by decide) (by decide))
theorem min (m : MReg) (ty : Ty) (d a b : Reg) : Statement (.min m ty d a b) :=
  of_word rfl (reads_fWord (by
    show Option.map _ (Ty.ofCode _) = _; simp only [ty_ofCode, Option.map_some])
    (by decide) (by decide))
theorem max (m : MReg) (ty : Ty) (d a b : Reg) : Statement (.max m ty d a b) :=
  of_word rfl (reads_fWord (by
    show Option.map _ (Ty.ofCode _) = _; simp only [ty_ofCode, Option.map_some])
    (by decide) (by decide))
theorem and (m : MReg) (ty : Ty) (d a b : Reg) : Statement (.and m ty d a b) :=
  of_word rfl (reads_fWord (by
    show Option.map _ (Ty.ofCode _) = _; simp only [ty_ofCode, Option.map_some])
    (by decide) (by decide))
theorem or (m : MReg) (ty : Ty) (d a b : Reg) : Statement (.or m ty d a b) :=
  of_word rfl (reads_fWord (by
    show Option.map _ (Ty.ofCode _) = _; simp only [ty_ofCode, Option.map_some])
    (by decide) (by decide))
theorem xor (m : MReg) (ty : Ty) (d a b : Reg) : Statement (.xor m ty d a b) :=
  of_word rfl (reads_fWord (by
    show Option.map _ (Ty.ofCode _) = _; simp only [ty_ofCode, Option.map_some])
    (by decide) (by decide))
theorem not (m : MReg) (ty : Ty) (d a : Reg) : Statement (.not m ty d a) :=
  of_word rfl (reads_fWord (by
    show Option.map _ (Ty.ofCode _) = _; simp only [ty_ofCode, Option.map_some])
    (by decide) (by decide))
theorem andn (m : MReg) (ty : Ty) (d a b : Reg) : Statement (.andn m ty d a b) :=
  of_word rfl (reads_fWord (by
    show Option.map _ (Ty.ofCode _) = _; simp only [ty_ofCode, Option.map_some])
    (by decide) (by decide))
theorem shl (m : MReg) (ty : Ty) (d a b : Reg) : Statement (.shl m ty d a b) :=
  of_word rfl (reads_fWord (by
    show Option.map _ (Ty.ofCode _) = _; simp only [ty_ofCode, Option.map_some])
    (by decide) (by decide))
theorem shr (m : MReg) (ty : Ty) (d a b : Reg) : Statement (.shr m ty d a b) :=
  of_word rfl (reads_fWord (by
    show Option.map _ (Ty.ofCode _) = _; simp only [ty_ofCode, Option.map_some])
    (by decide) (by decide))
theorem sar (m : MReg) (ty : Ty) (d a b : Reg) : Statement (.sar m ty d a b) :=
  of_word rfl (reads_fWord (by
    show Option.map _ (Ty.ofCode _) = _; simp only [ty_ofCode, Option.map_some])
    (by decide) (by decide))
theorem rot (m : MReg) (ty : Ty) (d a b : Reg) : Statement (.rot m ty d a b) :=
  of_word rfl (reads_fWord (by
    show Option.map _ (Ty.ofCode _) = _; simp only [ty_ofCode, Option.map_some])
    (by decide) (by decide))
theorem bfx (m : MReg) (ty : Ty) (d a b : Reg) : Statement (.bfx m ty d a b) :=
  of_word rfl (reads_fWord (by
    show Option.map _ (Ty.ofCode _) = _; simp only [ty_ofCode, Option.map_some])
    (by decide) (by decide))
theorem bfi (m : MReg) (d a b e : Reg) : Statement (.bfi m d a b e) :=
  of_word rfl (reads_fWord rfl (by decide) (by decide))
theorem popc (m : MReg) (ty : Ty) (d a : Reg) : Statement (.popc m ty d a) :=
  of_word rfl (reads_fWord (by
    show Option.map _ (Ty.ofCode _) = _; simp only [ty_ofCode, Option.map_some])
    (by decide) (by decide))
theorem clz (m : MReg) (ty : Ty) (d a : Reg) : Statement (.clz m ty d a) :=
  of_word rfl (reads_fWord (by
    show Option.map _ (Ty.ofCode _) = _; simp only [ty_ofCode, Option.map_some])
    (by decide) (by decide))
theorem brev (m : MReg) (ty : Ty) (d a : Reg) : Statement (.brev m ty d a) :=
  of_word rfl (reads_fWord (by
    show Option.map _ (Ty.ofCode _) = _; simp only [ty_ofCode, Option.map_some])
    (by decide) (by decide))
theorem sel (m : MReg) (ty : Ty) (d a b : Reg) (cm : MReg) : Statement (.sel m ty d a b cm) :=
  of_word rfl (reads_fWord (by
    show Option.map _ (Ty.ofCode _) = _; simp only [mField_0, ty_ofCode, Option.map_some])
    (by decide) (by decide))
theorem cmp (m : MReg) (cond : ICond) (ty : Ty) (d : MReg) (a b : Reg) : Statement (.cmp m cond ty d a b) :=
  of_word rfl (reads_fWord (by
    show Option.bind (Ty.ofCode _) _ = _; simp only [mField_0, ty_ofCode, icond_ofCode, Option.bind_some, Option.map_some])
    (by decide) (by decide))
theorem cvti (m : MReg) (dt ft : Ty) (sat : Bool) (d a : Reg) : Statement (.cvti m dt ft sat d a) :=
  of_word rfl (reads_fWord (by
    show Option.bind (Ty.ofCode _) _ = _; simp only [satMods_0, ty_ofCode, Option.bind_some, Option.map_some])
    (by decide) (by decide))
theorem adds (m : MReg) (ty : Ty) (d a b : Reg) : Statement (.adds m ty d a b) :=
  of_word rfl (reads_fWord (by
    show Option.map _ (Ty.ofCode _) = _; simp only [ty_ofCode, Option.map_some])
    (by decide) (by decide))
theorem subs (m : MReg) (ty : Ty) (d a b : Reg) : Statement (.subs m ty d a b) :=
  of_word rfl (reads_fWord (by
    show Option.map _ (Ty.ofCode _) = _; simp only [ty_ofCode, Option.map_some])
    (by decide) (by decide))
theorem dot4 (m : MReg) (ty : Ty) (d a b e : Reg) : Statement (.dot4 m ty d a b e) :=
  of_word rfl (reads_fWord (by
    show Option.map _ (Ty.ofCode _) = _; simp only [ty_ofCode, Option.map_some])
    (by decide) (by decide))
theorem dot8 (m : MReg) (ty : Ty) (d a b e : Reg) : Statement (.dot8 m ty d a b e) :=
  of_word rfl (reads_fWord (by
    show Option.map _ (Ty.ofCode _) = _; simp only [ty_ofCode, Option.map_some])
    (by decide) (by decide))
theorem addImm (m : MReg) (d a : Reg) (imm : Word) : Statement (.addImm m d a imm) :=
  of_word rfl (reads_iWord rfl (by decide) (by decide))
theorem addsImm (m : MReg) (u : Bool) (d a : Reg) (imm : Word) : Statement (.addsImm m u d a imm) := by
  cases u <;> exact of_word rfl (reads_iWord rfl (by decide) (by decide))
theorem mulImm (m : MReg) (d a : Reg) (imm : Word) : Statement (.mulImm m d a imm) :=
  of_word rfl (reads_iWord rfl (by decide) (by decide))
theorem andImm (m : MReg) (d a : Reg) (imm : Word) : Statement (.andImm m d a imm) :=
  of_word rfl (reads_iWord rfl (by decide) (by decide))
theorem orImm (m : MReg) (d a : Reg) (imm : Word) : Statement (.orImm m d a imm) :=
  of_word rfl (reads_iWord rfl (by decide) (by decide))
theorem xorImm (m : MReg) (d a : Reg) (imm : Word) : Statement (.xorImm m d a imm) :=
  of_word rfl (reads_iWord rfl (by decide) (by decide))
theorem andnImm (m : MReg) (d a : Reg) (imm : Word) : Statement (.andnImm m d a imm) :=
  of_word rfl (reads_iWord rfl (by decide) (by decide))
theorem shlImm (m : MReg) (d a : Reg) (n : BitVec 5) : Statement (.shlImm m d a n) :=
  of_word rfl (reads_iWord (by show some _ = _; simp only [shiftImm_0]) (by decide) (by decide))
theorem shrImm (m : MReg) (d a : Reg) (n : BitVec 5) : Statement (.shrImm m d a n) :=
  of_word rfl (reads_iWord (by show some _ = _; simp only [shiftImm_0]) (by decide) (by decide))
theorem sarImm (m : MReg) (d a : Reg) (n : BitVec 5) : Statement (.sarImm m d a n) :=
  of_word rfl (reads_iWord (by show some _ = _; simp only [shiftImm_0]) (by decide) (by decide))
theorem rotImm (m : MReg) (d a : Reg) (n : BitVec 5) : Statement (.rotImm m d a n) :=
  of_word rfl (reads_iWord (by show some _ = _; simp only [shiftImm_0]) (by decide) (by decide))
theorem minImm (m : MReg) (u : Bool) (d a : Reg) (imm : Word) : Statement (.minImm m u d a imm) :=
  of_word rfl (reads_iWord (by show some _ = _; simp only [signVar_1]) (by decide) (by decide))
theorem maxImm (m : MReg) (u : Bool) (d a : Reg) (imm : Word) : Statement (.maxImm m u d a imm) :=
  of_word rfl (reads_iWord (by show some _ = _; simp only [signVar_1]) (by decide) (by decide))
theorem cmpS32Imm (m : MReg) (cond : ImmCond) (d : MReg) (a : Reg) (imm : Word) : Statement (.cmpS32Imm m cond d a imm) :=
  of_word rfl (reads_iWord (by
    show Option.map _ (ImmCond.ofCode _) = _; simp only [mField_0, immCond_ofCode, Option.map_some])
    (by decide) (by decide))
theorem cmpN32Imm (m : MReg) (cond : ImmCond) (d : MReg) (a : Reg) (imm : Word) : Statement (.cmpN32Imm m cond d a imm) :=
  of_word rfl (reads_iWord (by
    show Option.map _ (ImmCond.ofCode _) = _; simp only [mField_0, immCond_ofCode, Option.map_some])
    (by decide) (by decide))
theorem bfxImm (m : MReg) (sg : Bool) (d a : Reg) (pos : BitVec 5) (wd : BitVec 6) : Statement (.bfxImm m sg d a pos wd) :=
  of_word rfl (reads_iWord (by
    show some _ = _; simp only [signVar_1, bfxImm_0, bfxImm_8])
    (by decide) (by decide))
theorem fadd (m : MReg) (ty : Ty) (rm : Rnd) (sg : Signs) (d a b : Reg) : Statement (.fadd m ty rm sg d a b) :=
  of_word rfl (reads_fWord (by
    show Option.bind (Ty.ofCode _) _ = _; simp only [signs_ofField, ty_ofCode, rnd_ofCode, Option.bind_some, Option.map_some])
    (by decide) (by decide))
theorem fsub (m : MReg) (rm : Rnd) (sg : Signs) (d a b : Reg) : Statement (.fsub m rm sg d a b) :=
  of_word rfl (reads_fWord (by
    show Option.map _ (Rnd.ofCode _) = _; simp only [signs_ofField, rnd_ofCode, Option.map_some])
    (by decide) (by decide))
theorem fmul (m : MReg) (rm : Rnd) (sg : Signs) (d a b : Reg) : Statement (.fmul m rm sg d a b) :=
  of_word rfl (reads_fWord (by
    show Option.map _ (Rnd.ofCode _) = _; simp only [signs_ofField, rnd_ofCode, Option.map_some])
    (by decide) (by decide))
theorem fma (m : MReg) (ty : Ty) (rm : Rnd) (sg : Signs) (d a b e : Reg) : Statement (.fma m ty rm sg d a b e) :=
  of_word rfl (reads_fWord (by
    show Option.bind (Ty.ofCode _) _ = _; simp only [signs_ofField, ty_ofCode, rnd_ofCode, Option.bind_some, Option.map_some])
    (by decide) (by decide))
theorem fmin (m : MReg) (sg : Signs) (d a b : Reg) : Statement (.fmin m sg d a b) :=
  of_word rfl (reads_fWord (by show some _ = _; simp only [signs_ofField]) (by decide) (by decide))
theorem fmax (m : MReg) (sg : Signs) (d a b : Reg) : Statement (.fmax m sg d a b) :=
  of_word rfl (reads_fWord (by show some _ = _; simp only [signs_ofField]) (by decide) (by decide))
theorem fminn (m : MReg) (sg : Signs) (d a b : Reg) : Statement (.fminn m sg d a b) :=
  of_word rfl (reads_fWord (by show some _ = _; simp only [signs_ofField]) (by decide) (by decide))
theorem fmaxn (m : MReg) (sg : Signs) (d a b : Reg) : Statement (.fmaxn m sg d a b) :=
  of_word rfl (reads_fWord (by show some _ = _; simp only [signs_ofField]) (by decide) (by decide))
theorem fcmp (m : MReg) (cond : FCond) (sg : Signs) (d : MReg) (a b : Reg) : Statement (.fcmp m cond sg d a b) :=
  of_word rfl (reads_fWord (by
    show Option.map _ (FCond.ofCode _) = _; simp only [mField_0, signs_ofField, fcond_ofCode, Option.map_some])
    (by decide) (by decide))
theorem fclass (m : MReg) (sg : Signs) (d a : Reg) : Statement (.fclass m sg d a) :=
  of_word rfl (reads_fWord (by show some _ = _; simp only [signs_ofField]) (by decide) (by decide))
theorem frcp (m : MReg) (rm : Rnd) (sg : Signs) (d a : Reg) : Statement (.frcp m rm sg d a) :=
  of_word rfl (reads_fWord (by
    show Option.map _ (Rnd.ofCode _) = _; simp only [signs_ofField, rnd_ofCode, Option.map_some])
    (by decide) (by decide))
theorem frsq (m : MReg) (rm : Rnd) (sg : Signs) (d a : Reg) : Statement (.frsq m rm sg d a) :=
  of_word rfl (reads_fWord (by
    show Option.map _ (Rnd.ofCode _) = _; simp only [signs_ofField, rnd_ofCode, Option.map_some])
    (by decide) (by decide))
theorem fsqrt (m : MReg) (rm : Rnd) (sg : Signs) (d a : Reg) : Statement (.fsqrt m rm sg d a) :=
  of_word rfl (reads_fWord (by
    show Option.map _ (Rnd.ofCode _) = _; simp only [signs_ofField, rnd_ofCode, Option.map_some])
    (by decide) (by decide))
theorem fdiv (m : MReg) (rm : Rnd) (sg : Signs) (d a b : Reg) : Statement (.fdiv m rm sg d a b) :=
  of_word rfl (reads_fWord (by
    show Option.map _ (Rnd.ofCode _) = _; simp only [signs_ofField, rnd_ofCode, Option.map_some])
    (by decide) (by decide))
theorem fexp2 (m : MReg) (sg : Signs) (d a : Reg) : Statement (.fexp2 m sg d a) :=
  of_word rfl (reads_fWord (by show some _ = _; simp only [signs_ofField]) (by decide) (by decide))
theorem flog2 (m : MReg) (sg : Signs) (d a : Reg) : Statement (.flog2 m sg d a) :=
  of_word rfl (reads_fWord (by show some _ = _; simp only [signs_ofField]) (by decide) (by decide))
theorem ffract (m : MReg) (sg : Signs) (d a : Reg) : Statement (.ffract m sg d a) :=
  of_word rfl (reads_fWord (by show some _ = _; simp only [signs_ofField]) (by decide) (by decide))
theorem fround (m : MReg) (rm : Rnd) (sg : Signs) (d a : Reg) : Statement (.fround m rm sg d a) :=
  of_word rfl (reads_fWord (by
    show Option.map _ (Rnd.ofCode _) = _; simp only [signs_ofField, rnd_ofCode, Option.map_some])
    (by decide) (by decide))
theorem fldexp (m : MReg) (rm : Rnd) (sg : Signs) (d a b : Reg) : Statement (.fldexp m rm sg d a b) :=
  of_word rfl (reads_fWord (by
    show Option.map _ (Rnd.ofCode _) = _; simp only [signs_ofField, rnd_ofCode, Option.map_some])
    (by decide) (by decide))
theorem fcvt (m : MReg) (dt ft : Ty) (rm : Rnd) (sat : Bool) (sg : Signs) (d a e : Reg) : Statement (.fcvt m dt ft rm sat sg d a e) :=
  of_word rfl (reads_fWord (by
    show Option.bind (Ty.ofCode _) _ = _; simp only [signs_ofField, signs_sat, ty_ofCode, rnd_ofCode, Option.bind_some, Option.map_some])
    (by decide) (by decide))
theorem fpack (m : MReg) (dt ft : Ty) (rm : Rnd) (sat : Bool) (sg : Signs) (d a b e : Reg) : Statement (.fpack m dt ft rm sat sg d a b e) :=
  of_word rfl (reads_fWord (by
    show Option.bind (Ty.ofCode _) _ = _; simp only [signs_ofField, signs_sat, ty_ofCode, rnd_ofCode, Option.bind_some, Option.map_some])
    (by decide) (by decide))
theorem fdot2 (m : MReg) (ty : Ty) (rm : Rnd) (sg : Signs) (d a b e : Reg) : Statement (.fdot2 m ty rm sg d a b e) :=
  of_word rfl (reads_fWord (by
    show Option.bind (Ty.ofCode _) _ = _; simp only [signs_ofField, ty_ofCode, rnd_ofCode, Option.bind_some, Option.map_some])
    (by decide) (by decide))
theorem fdot4 (m : MReg) (ty : Ty) (rm : Rnd) (sg : Signs) (d a b e : Reg) : Statement (.fdot4 m ty rm sg d a b e) :=
  of_word rfl (reads_fWord (by
    show Option.bind (Ty.ofCode _) _ = _; simp only [signs_ofField, ty_ofCode, rnd_ofCode, Option.bind_some, Option.map_some])
    (by decide) (by decide))
theorem fdot8 (m : MReg) (rm : Rnd) (sg : Signs) (d a b e : Reg) : Statement (.fdot8 m rm sg d a b e) :=
  of_word rfl (reads_fWord (by
    show Option.map _ (Rnd.ofCode _) = _; simp only [signs_ofField, rnd_ofCode, Option.map_some])
    (by decide) (by decide))
theorem mxs (m : MReg) (ty : Ty) (sg : Signs) (d a : Reg) : Statement (.mxs m ty sg d a) :=
  of_word rfl (reads_fWord (by
    show Option.map _ (Ty.ofCode _) = _; simp only [signs_ofField, ty_ofCode, Option.map_some])
    (by decide) (by decide))
theorem faddImm (m : MReg) (rm : Rnd4) (d a : Reg) (imm : Word) : Statement (.faddImm m rm d a imm) :=
  of_word rfl (reads_iWord (by
    show Option.map _ (Rnd4.ofCode _) = _; simp only [rnd4_ofCode, Option.map_some])
    (by decide) (by decide))
theorem fmulImm (m : MReg) (rm : Rnd4) (d a : Reg) (imm : Word) : Statement (.fmulImm m rm d a imm) :=
  of_word rfl (reads_iWord (by
    show Option.map _ (Rnd4.ofCode _) = _; simp only [rnd4_ofCode, Option.map_some])
    (by decide) (by decide))
theorem fmaImm (m : MReg) (rm : Rnd4) (d a : Reg) (imm : Word) : Statement (.fmaImm m rm d a imm) :=
  of_word rfl (reads_iWord (by
    show Option.map _ (Rnd4.ofCode _) = _; simp only [rnd4_ofCode, Option.map_some])
    (by decide) (by decide))
theorem fminImm (m : MReg) (d a : Reg) (imm : Word) : Statement (.fminImm m d a imm) :=
  of_word rfl (reads_iWord rfl (by decide) (by decide))
theorem fmaxImm (m : MReg) (d a : Reg) (imm : Word) : Statement (.fmaxImm m d a imm) :=
  of_word rfl (reads_iWord rfl (by decide) (by decide))
theorem fcmpImm (m : MReg) (cond : ImmCond) (d : MReg) (a : Reg) (imm : Word) : Statement (.fcmpImm m cond d a imm) :=
  of_word rfl (reads_iWord (by
    show Option.map _ (ImmCond.ofCode _) = _; simp only [mField_0, immCond_ofCode, Option.map_some])
    (by decide) (by decide))
theorem mand (m d a b : MReg) : Statement (.mand m d a b) :=
  of_word rfl (reads_fWord (by show some _ = _; simp only [mField_0]) (by decide) (by decide))
theorem mor (m d a b : MReg) : Statement (.mor m d a b) :=
  of_word rfl (reads_fWord (by show some _ = _; simp only [mField_0]) (by decide) (by decide))
theorem mxor (m d a b : MReg) : Statement (.mxor m d a b) :=
  of_word rfl (reads_fWord (by show some _ = _; simp only [mField_0]) (by decide) (by decide))
theorem mandn (m d a b : MReg) : Statement (.mandn m d a b) :=
  of_word rfl (reads_fWord (by show some _ = _; simp only [mField_0]) (by decide) (by decide))
theorem mnot (m d a : MReg) : Statement (.mnot m d a) :=
  of_word rfl (reads_fWord (by show some _ = _; simp only [mField_0]) (by decide) (by decide))
theorem mmov (m d a : MReg) : Statement (.mmov m d a) :=
  of_word rfl (reads_fWord (by show some _ = _; simp only [mField_0]) (by decide) (by decide))
theorem mseti (m d : MReg) (imm : Word) : Statement (.mseti m d imm) :=
  of_word rfl (reads_iWord (by show some _ = _; simp only [mField_0]) (by decide) (by decide))
theorem mvoteBallot (m d : MReg) (a : Reg) : Statement (.mvoteBallot m d a) :=
  of_word rfl (reads_fWord (by show some _ = _; rw [mField_0]) (by decide) (by decide))
theorem mvoteEq (m d : MReg) (a : Reg) : Statement (.mvoteEq m d a) :=
  of_word rfl (reads_fWord (by show some _ = _; rw [mField_0]) (by decide) (by decide))
theorem mpop (m : MReg) (d : Reg) (a : MReg) : Statement (.mpop m d a) :=
  of_word rfl (reads_fWord (by show some _ = _; simp only [mField_0]) (by decide) (by decide))
theorem mfirst (m : MReg) (d : Reg) (a : MReg) : Statement (.mfirst m d a) :=
  of_word rfl (reads_fWord (by show some _ = _; simp only [mField_0]) (by decide) (by decide))
theorem mlast (m : MReg) (d : Reg) (a : MReg) : Statement (.mlast m d a) :=
  of_word rfl (reads_fWord (by show some _ = _; simp only [mField_0]) (by decide) (by decide))
theorem qswx (m : MReg) (d a : Reg) : Statement (.qswx m d a) :=
  of_word rfl (reads_fWord rfl (by decide) (by decide))
theorem qswy (m : MReg) (d a : Reg) : Statement (.qswy m d a) :=
  of_word rfl (reads_fWord rfl (by decide) (by decide))
theorem qswd (m : MReg) (d a : Reg) : Statement (.qswd m d a) :=
  of_word rfl (reads_fWord rfl (by decide) (by decide))
theorem qbc (m : MReg) (d a : Reg) (p : BitVec 2) : Statement (.qbc m d a p) :=
  of_word rfl (reads_fWord (by show some _ = _; simp only [posSub_0]) (by decide) (by decide))
theorem gshf (m : MReg) (d a b : Reg) : Statement (.gshf m d a b) :=
  of_word rfl (reads_fWord rfl (by decide) (by decide))
theorem gshu (m : MReg) (d a : Reg) (k : BitVec 5) : Statement (.gshu m d a k) :=
  of_word rfl (reads_fWord rfl (by decide) (by decide))
theorem gshd (m : MReg) (d a : Reg) (k : BitVec 5) : Statement (.gshd m d a k) :=
  of_word rfl (reads_fWord rfl (by decide) (by decide))
theorem gshx (m : MReg) (d a : Reg) (k : BitVec 5) : Statement (.gshx m d a k) :=
  of_word rfl (reads_fWord rfl (by decide) (by decide))
theorem gbc (m : MReg) (d a : Reg) (k : BitVec 5) : Statement (.gbc m d a k) :=
  of_word rfl (reads_fWord rfl (by decide) (by decide))
theorem gred (m : MReg) (op : GOp) (ty : Ty) (rm : Rnd) (d a : Reg) : Statement (.gred m op ty rm d a) :=
  of_word rfl (reads_fWord (by
    show Option.bind (Ty.ofCode _) _ = _; simp only [redSub_0, ty_ofCode, rnd_ofCode, gop_ofCode, Option.bind_some, Option.map_some])
    (by decide) (by decide))
theorem gscan (m : MReg) (op : GOp) (excl : Bool) (ty : Ty) (rm : Rnd) (d a : Reg) : Statement (.gscan m op excl ty rm d a) :=
  of_word rfl (reads_fWord (by
    show Option.bind (Ty.ofCode _) _ = _; simp only [scanSub_0, scanSub_4, ty_ofCode, rnd_ofCode, gop_ofCode, Option.bind_some, Option.map_some])
    (by decide) (by decide))
theorem pPair (h0 h1 : PHalf) : Statement (.pPair h0 h1) := by
  have e : (0b01#2 ++ pHalf h0 ++ pHalf h1 : DWord).toNat = 1 * 2 ^ 62 + (pHalf h0).toNat * 2 ^ 31 + (pHalf h1).toNat := by
    show @BitVec.toNat (2 + 31 + 31) _ = _
    simp only [toNat_app]; simp only [BitVec.toNat_ofNat]; omega
  have e0 := pHalf_toNat h0
  have e1 := pHalf_toNat h1
  refine of_word rfl ?_
  generalize (0b01#2 ++ pHalf h0 ++ pHalf h1 : DWord) = w at e
  have h2 : w.extractLsb' 62 2 = 1#2 := field_eq (by simp only [BitVec.toNat_ofNat]; omega)
  constructor
  · unfold parse parseP
    rw [h2, field_eq (s := 31) (f := pHalf h0) (by omega), field_eq (s := 0) (f := pHalf h1) (by omega),
      parseHalf_pHalf, parseHalf_pHalf]
    rfl
  · unfold opcodeCheck
    rw [h2, field_eq (s := 55) (f := h0.op.code) (by omega), field_eq (s := 24) (k := 7) (f := h1.op.code) (by omega),
      pop_ofCode, pop_ofCode]
    rfl
theorem ld (ty : Ty) (o : RecOp) : Statement (.ld ty o) :=
  of_word rfl (reads_xWord (by
    show Option.map _ (Ty.ofCode _) = _; simp only [memMod_15, memMod_0, repOf_repField, ty_ofCode, Option.map_some])
    (by decide))
theorem st (ty : Ty) (o : RecOp) : Statement (.st ty o) :=
  of_word rfl (reads_xWord (by
    show Option.map _ (Ty.ofCode _) = _; simp only [memMod_15, memMod_0, repOf_repField, ty_ofCode, Option.map_some])
    (by decide))
theorem ldAcq (ty : Ty) (o : RecOp) : Statement (.ldAcq ty o) :=
  of_word rfl (reads_xWord (by
    show Option.map _ (Ty.ofCode _) = _; simp only [memMod_15, memMod_0, repOf_repField, ty_ofCode, Option.map_some])
    (by decide))
theorem stRel (ty : Ty) (o : RecOp) : Statement (.stRel ty o) :=
  of_word rfl (reads_xWord (by
    show Option.map _ (Ty.ofCode _) = _; simp only [memMod_15, memMod_0, repOf_repField, ty_ofCode, Option.map_some])
    (by decide))
theorem lds (ty : Ty) (o : ScrOp) : Statement (.lds ty o) :=
  of_word rfl (reads_xWord (by
    show Option.map _ (Ty.ofCode _) = _; simp only [memMod_15, memMod_0, ty_ofCode, Option.map_some])
    (by decide))
theorem sts (ty : Ty) (o : ScrOp) : Statement (.sts ty o) :=
  of_word rfl (reads_xWord (by
    show Option.map _ (Ty.ofCode _) = _; simp only [memMod_15, memMod_0, ty_ofCode, Option.map_some])
    (by decide))
theorem ldw (ty : Ty) (o : RecOp) : Statement (.ldw ty o) :=
  of_word rfl (reads_xWord (by
    show Option.map _ (Ty.ofCode _) = _; simp only [memMod_15, memMod_0, repOf_repField, ty_ofCode, Option.map_some])
    (by decide))
theorem stw (ty : Ty) (o : RecOp) : Statement (.stw ty o) :=
  of_word rfl (reads_xWord (by
    show Option.map _ (Ty.ofCode _) = _; simp only [memMod_15, memMod_0, repOf_repField, ty_ofCode, Option.map_some])
    (by decide))
theorem ldacc (ty : Ty) (o : ScrOp) : Statement (.ldacc ty o) :=
  of_word rfl (reads_xWord (by
    show Option.map _ (Ty.ofCode _) = _; simp only [memMod_15, memMod_0, ty_ofCode, Option.map_some])
    (by decide))
theorem prf (ty : Ty) (m : MReg) (b : Reg) (buf : BufR) (off : BitVec 15) : Statement (.prf ty m b buf off) :=
  of_word rfl (reads_xWord (by
    show Option.map _ (Ty.ofCode _) = _; simp only [memMod_15, memMod_0, ty_ofCode, Option.map_some])
    (by decide))
theorem present (m d : MReg) (b : Reg) (off : BitVec 15) : Statement (.present m d b off) :=
  of_word rfl (reads_xWord (by show some _ = _; simp only [memMod_0, mField_0]) (by decide))
theorem fence (m : MReg) (mode : FenceMode) : Statement (.fence m mode) :=
  of_word rfl (reads_xWord (by
    show Option.map _ (FenceMode.ofCode _) = _; simp only [fenceMod_16, fenceMode_ofCode, Option.map_some])
    (by decide))
theorem brec (m : MReg) (buf : BufR) (a : Reg) : Statement (.brec m buf a) :=
  of_word rfl (reads_xWord rfl (by decide))
theorem brrd (m : MReg) (a : Reg) (buf : BufR) : Statement (.brrd m a buf) :=
  of_word rfl (reads_xWord rfl (by decide))
theorem leaseQ (m : MReg) (a b : Reg) (buf : BufR) (off : BitVec 15) : Statement (.leaseQ m a b buf off) :=
  of_word rfl (reads_xWord (by show some _ = _; simp only [offMod_0]) (by decide))
theorem leaseRenew (m : MReg) (a b : Reg) (buf : BufR) (off : BitVec 15) : Statement (.leaseRenew m a b buf off) :=
  of_word rfl (reads_xWord (by show some _ = _; simp only [offMod_0]) (by decide))
theorem atom (op : AOp) (ty : Ty) (o : AtomRec) : Statement (.atom op ty o) :=
  of_word rfl (reads_xWord (by
    show Option.bind (Ty.ofCode _) _ = _; simp only [atomMod_15, atomMod_11, atomMod_0, repOf_repField, ty_ofCode, aop_ofCode, Option.bind_some, Option.map_some])
    (by decide))
theorem red (op : AOp) (ty : Ty) (o : AtomRec) : Statement (.red op ty o) :=
  of_word rfl (reads_xWord (by
    show Option.bind (Ty.ofCode _) _ = _; simp only [atomMod_15, atomMod_11, atomMod_0, repOf_repField, ty_ofCode, aop_ofCode, Option.bind_some, Option.map_some])
    (by decide))
theorem atoms (op : AOp) (ty : Ty) (o : AtomScr) : Statement (.atoms op ty o) :=
  of_word rfl (reads_xWord (by
    show Option.bind (Ty.ofCode _) _ = _; simp only [atomMod_15, atomMod_11, atomMod_0, ty_ofCode, aop_ofCode, Option.bind_some, Option.map_some])
    (by decide))
theorem reds (op : AOp) (ty : Ty) (o : AtomScr) : Statement (.reds op ty o) :=
  of_word rfl (reads_xWord (by
    show Option.bind (Ty.ofCode _) _ = _; simp only [atomMod_15, atomMod_11, atomMod_0, ty_ofCode, aop_ofCode, Option.bind_some, Option.map_some])
    (by decide))
theorem barArr (m : MReg) (bar : BarR) : Statement (.barArr m bar) :=
  of_word rfl (reads_xWord rfl (by decide))
theorem barWait (m : MReg) (bar : BarR) (p : Option Reg) : Statement (.barWait m bar p) := by
  refine of_word rfl (reads_xWord (i := .barWait m bar p) ?_ (by decide))
  show some (Instr.barWait _ _ (if _ then _ else _)) = _
  rw [phaseMod_0]
  cases p <;> rfl
theorem barArw (m : MReg) (bar : BarR) : Statement (.barArw m bar) :=
  of_word rfl (reads_xWord rfl (by decide))
theorem barExp (m : MReg) (bar : BarR) (b : Reg) : Statement (.barExp m bar b) :=
  of_word rfl (reads_xWord rfl (by decide))
theorem barTest (m d : MReg) (bar : BarR) (p : Option Reg) : Statement (.barTest m d bar p) := by
  refine of_word rfl (reads_xWord (i := .barTest m d bar p) ?_ (by decide))
  show some (Instr.barTest _ _ _ (if _ then _ else _)) = _
  rw [phaseMod_0, mField_0]
  cases p <;> rfl
theorem barPh (m : MReg) (a : Reg) (bar : BarR) : Statement (.barPh m a bar) :=
  of_word rfl (reads_xWord rfl (by decide))
theorem cvdecl (m : MReg) (cv : BitVec 3) (s : CvSize) : Statement (.cvdecl m cv s) := by
  cases s with
  | imm k =>
    exact of_word rfl (reads_xWord (by
      show some (Instr.cvdecl _ _ (if _ then _ else _)) = _
      rw [convField_0, countMod_12, countMod_0]
      rfl) (by decide))
  | reg r =>
    exact of_word rfl (reads_xWord (by
      show some _ = _
      rw [convField_0]
      rfl) (by decide))
theorem cvq (m : MReg) (a : Reg) (cv : BitVec 3) : Statement (.cvq m a cv) :=
  of_word rfl (reads_xWord (by show some _ = _; simp only [convField_0]) (by decide))
theorem send (m : MReg) (ch : BitVec 4) (a : Reg) : Statement (.send m ch a) :=
  of_word rfl (reads_xWord (by show some _ = _; simp only [chanField_0]) (by decide))
theorem recv (m : MReg) (a : Reg) (ch : BitVec 4) : Statement (.recv m a ch) :=
  of_word rfl (reads_xWord (by show some _ = _; simp only [chanField_0]) (by decide))
theorem chq (m : MReg) (a : Reg) (ch : BitVec 4) : Statement (.chq m a ch) :=
  of_word rfl (reads_xWord (by show some _ = _; simp only [chanField_0]) (by decide))
theorem cpa4 (o : CpaOp) : Statement (.cpa4 o) :=
  of_word rfl (reads_xWord (by show some _ = _; simp only [offMod_0, queueField_0]) (by decide))
theorem cpa8 (o : CpaOp) : Statement (.cpa8 o) :=
  of_word rfl (reads_xWord (by show some _ = _; simp only [offMod_0, queueField_0]) (by decide))
theorem cpa16 (o : CpaOp) : Statement (.cpa16 o) :=
  of_word rfl (reads_xWord (by show some _ = _; simp only [offMod_0, queueField_0]) (by decide))
theorem cpaFlush (m : MReg) : Statement (.cpaFlush m) :=
  of_word rfl (reads_xWord rfl (by decide))
theorem tcopy (o : TileOp) (out tr : Bool) (mt ct : Ty) (had : Had) (fold mxs : Bool) : Statement (.tcopy o out tr mt ct had fold mxs) :=
  of_word rfl (reads_xWord (by
    show Option.bind (Ty.ofCode _) _ = _; simp only [queueField_0, tcopyMod_0, tcopyMod_1, tcopyMod_2, tcopyMod_7, tcopyMod_12, tcopyMod_14, tcopyMod_15, ty_ofCode, had_ofCode, Option.bind_some, Option.map_some])
    (by decide))
theorem tgather (o : TileOp) (b : Reg) (ty : Ty) (fill : Fill) : Statement (.tgather o b ty fill) :=
  of_word rfl (reads_xWord (by
    show Option.bind (Ty.ofCode _) _ = _; simp only [queueField_0, gatherMod_0, gatherMod_5, ty_ofCode, fill_ofCode, Option.bind_some, Option.map_some])
    (by decide))
theorem tscatter (o : TileOp) (b : Reg) (ty : Ty) : Statement (.tscatter o b ty) :=
  of_word rfl (reads_xWord (by
    show Option.map _ (Ty.ofCode _) = _; simp only [queueField_0, scatterMod_0, ty_ofCode, Option.map_some])
    (by decide))
theorem tpack (o : TileOp) (f : BitVec 6) (ty : Ty) (fill : Fill) : Statement (.tpack o f ty fill) :=
  of_word rfl (reads_xWord (by
    show Option.bind (Ty.ofCode _) _ = _; simp only [queueField_0, packMod_6, packMod_11, packMod_0, ty_ofCode, fill_ofCode, Option.bind_some, Option.map_some])
    (by decide))
theorem tunpack (o : TileOp) (f : BitVec 6) (ty : Ty) : Statement (.tunpack o f ty) :=
  of_word rfl (reads_xWord (by
    show Option.map _ (Ty.ofCode _) = _; simp only [queueField_0, unpackMod_6, unpackMod_0, ty_ofCode, Option.map_some])
    (by decide))
theorem mdcopy (m : MReg) (b : Reg) (buf : BufR) (bar : BarR) (q : BitVec 2) (slot : BitVec 2) (scale : Bool) (n : BitVec 8) :
    Statement (.mdcopy m b buf bar q slot scale n) :=
  of_word rfl (reads_xWord (by
    show some _ = _; simp only [queueField_0, mdMod_0, mdMod_2, mdMod_3])
    (by decide))
theorem cfill (m : MReg) (a b : Reg) (bar : BarR) (q : BitVec 2) (lines : BitVec 12) : Statement (.cfill m a b bar q lines) :=
  of_word rfl (reads_xWord (by show some _ = _; simp only [queueField_0, linesMod_0]) (by decide))
theorem qfence (m : MReg) (qs : BitVec 5) : Statement (.qfence m qs) :=
  of_word rfl (reads_xWord (by show some _ = _; rw [scatterMod_0]) (by decide))
theorem qwait (m : MReg) (a : Reg) (q : BitVec 2) : Statement (.qwait m a q) :=
  of_word rfl (reads_xWord (by show some _ = _; simp only [queueField_0]) (by decide))
theorem mldSt (m : MReg) (ta tb : Ty) (a : Reg) (cv : BitVec 3) : Statement (.mldSt m ta tb a cv) :=
  of_word rfl (reads_xWord (by
    show Option.bind (Ty.ofCode _) _ = _; simp only [convField_0, twoTyMod_0, twoTyMod_5, ty_ofCode, Option.bind_some, Option.map_some])
    (by decide))
theorem mswap (m : MReg) (cv : BitVec 3) : Statement (.mswap m cv) :=
  of_word rfl (reads_xWord (by show some _ = _; simp only [convField_0]) (by decide))
theorem mstream (m : MReg) (ta tb : Ty) (sp mx : Bool) (t s q : BitVec 2) (a : Reg) (cv : BitVec 3) :
    Statement (.mstream m ta tb sp mx t s q a cv) :=
  of_word rfl (reads_xWord (by
    show Option.bind (Ty.ofCode _) _ = _; simp only [convField_0, streamMod_0, streamMod_5, streamMod_10, streamMod_11, streamMod_12, streamMod_14, streamMod_16, ty_ofCode, Option.bind_some, Option.map_some])
    (by decide))
theorem mtile (m : MReg) (ta tb : Ty) (mx set : Bool) (t n : BitVec 2) (a : Reg) (cv : BitVec 3) : Statement (.mtile m ta tb mx set t n a cv) :=
  of_word rfl (reads_xWord (by
    show Option.bind (Ty.ofCode _) _ = _; simp only [convField_0, tileMod_0, tileMod_5, tileMod_11, tileMod_16, tileMod_12, tileMod_14, ty_ofCode, Option.bind_some, Option.map_some])
    (by decide))
theorem maccZ (m : MReg) (t : BitVec 2) (cv : BitVec 3) : Statement (.maccZ m t cv) :=
  of_word rfl (reads_xWord (by show some _ = _; simp only [convField_0, accMod_12]) (by decide))
theorem maccSt (m : MReg) (ty : Ty) (t : BitVec 2) (a : Reg) (cv : BitVec 3) : Statement (.maccSt m ty t a cv) :=
  of_word rfl (reads_xWord (by
    show Option.map _ (Ty.ofCode _) = _; simp only [convField_0, accTyMod_12, accTyMod_0, ty_ofCode, Option.map_some])
    (by decide))
theorem maccLd (m : MReg) (ty : Ty) (t : BitVec 2) (a : Reg) (cv : BitVec 3) : Statement (.maccLd m ty t a cv) :=
  of_word rfl (reads_xWord (by
    show Option.map _ (Ty.ofCode _) = _; simp only [convField_0, accTyMod_12, accTyMod_0, ty_ofCode, Option.map_some])
    (by decide))
theorem mstat (m : MReg) (a : Reg) (t : BitVec 2) : Statement (.mstat m a t) :=
  of_word rfl (reads_xWord (by show some _ = _; simp only [accMod_12]) (by decide))
theorem mcfg (m : MReg) (tiles : BitVec 4) (flags : BitVec 3) (f : Bool) : Statement (.mcfg m tiles flags f) :=
  of_word rfl (reads_xWord (by
    show some _ = _; simp only [cfgMod_0, cfgMod_4, cfgMod_7])
    (by decide))
theorem tret (skip : Bool) : Statement (.tret skip) :=
  of_word rfl (reads_xWord (by show some _ = _; simp only [skipMod_0]) (by decide))
theorem tvec (m : MReg) (a : Reg) : Statement (.tvec m a) :=
  of_word rfl (reads_xWord rfl (by decide))
theorem segLd (m : MReg) (h : Bool) (sgm : BitVec 3) (a : Reg) : Statement (.segLd m h sgm a) :=
  of_word rfl (reads_xWord (by show some _ = _; simp only [segMod_0, segMod_3]) (by decide))
theorem segRd (m : MReg) (a : Reg) (sgm : BitVec 3) : Statement (.segRd m a sgm) :=
  of_word rfl (reads_xWord (by show some _ = _; simp only [segNoMod_0]) (by decide))
theorem sysRd (m : MReg) (a : Reg) (n : BitVec 12) : Statement (.sysRd m a n) :=
  of_word rfl (reads_xWord (by show some _ = _; simp only [linesMod_0]) (by decide))
theorem sysWr (m : MReg) (n : BitVec 12) (a : Reg) : Statement (.sysWr m n a) :=
  of_word rfl (reads_xWord (by show some _ = _; simp only [linesMod_0]) (by decide))
theorem ckpt : Statement .ckpt :=
  of_word rfl (reads_xWord rfl (by decide))
theorem ckptQ (m : MReg) (a : Reg) : Statement (.ckptQ m a) :=
  of_word rfl (reads_xWord rfl (by decide))
theorem halt : Statement .halt := of_word rfl (reads_xWord rfl (by decide))
theorem haltDbg : Statement .haltDbg := of_word rfl (reads_xWord rfl (by decide))
theorem snap (m : MReg) (b : Reg) (buf : BufR) (a : Reg) : Statement (.snap m b buf a) :=
  of_word rfl (reads_xWord rfl (by decide))
theorem l2op (m : MReg) (op : L2Op) (b : Reg) (buf : BufR) (lines : BitVec 12) : Statement (.l2op m op b buf lines) :=
  of_word rfl (reads_xWord (by
    show Option.map _ (L2Op.ofCode _) = _; simp only [l2Mod_12, l2Mod_0, l2op_ofCode, Option.map_some])
    (by decide))
theorem vfsel (m : MReg) (a : Reg) : Statement (.vfsel m a) :=
  of_word rfl (reads_xWord rfl (by decide))
theorem tlbProbe (m : MReg) (a b : Reg) : Statement (.tlbProbe m a b) :=
  of_word rfl (reads_xWord rfl (by decide))
theorem walkQ (m : MReg) (a b : Reg) (f : BitVec 6) (s2 : Bool) : Statement (.walkQ m a b f s2) :=
  of_word rfl (reads_xWord (by show some _ = _; simp only [stageMod_16]) (by decide))
theorem scrub (m : MReg) (a b : Reg) : Statement (.scrub m a b) :=
  of_word rfl (reads_xWord rfl (by decide))
theorem tokRd (m : MReg) (a b : Reg) (off : BitVec 15) : Statement (.tokRd m a b off) :=
  of_word rfl (reads_xWord (by show some _ = _; simp only [offMod_0]) (by decide))
theorem partQ (m : MReg) (a b : Reg) : Statement (.partQ m a b) :=
  of_word rfl (reads_xWord rfl (by decide))
theorem trapEntry (h c g : Nat) : Statement (.trapEntry h c g) := fun _ h => nomatch h
theorem binAgeThreshold (h c b : Nat) : Statement (.binAgeThreshold h c b) := fun _ h => nomatch h
theorem binDraw (h c : Nat) : Statement (.binDraw h c) := fun _ h => nomatch h
theorem yieldEnd (h c g : Nat) : Statement (.yieldEnd h c g) := fun _ h => nomatch h
theorem sleepWake (h c g : Nat) : Statement (.sleepWake h c g) := fun _ h => nomatch h
theorem schedStall (h c : Nat) : Statement (.schedStall h c) := fun _ h => nomatch h
theorem parkWake (h c g : Nat) : Statement (.parkWake h c g) := fun _ h => nomatch h
theorem loadComplete (h c g : Nat) : Statement (.loadComplete h c g) := fun _ h => nomatch h
theorem atomicReturn (h c g : Nat) : Statement (.atomicReturn h c g) := fun _ h => nomatch h
theorem fenceRelease (h c g : Nat) : Statement (.fenceRelease h c g) := fun _ h => nomatch h
theorem homeRequestArrival (h c k : Nat) : Statement (.homeRequestArrival h c k) := fun _ h => nomatch h
theorem l1CopyExpiry (h c line : Nat) : Statement (.l1CopyExpiry h c line) := fun _ h => nomatch h
theorem tlbLeaseExpiry (h c : Nat) : Statement (.tlbLeaseExpiry h c) := fun _ h => nomatch h
theorem walkStart (h k : Nat) : Statement (.walkStart h k) := fun _ h => nomatch h
theorem walkPendingRetry (h c g : Nat) : Statement (.walkPendingRetry h c g) := fun _ h => nomatch h
theorem walkComplete (h k : Nat) : Statement (.walkComplete h k) := fun _ h => nomatch h
theorem swapRetry (h k : Nat) : Statement (.swapRetry h k) := fun _ h => nomatch h
theorem enlargerLeaseRenewal (h k : Nat) : Statement (.enlargerLeaseRenewal h k) := fun _ h => nomatch h
theorem swapEngineExchange (f va frame tier : Nat) : Statement (.swapEngineExchange f va frame tier) := fun _ h => nomatch h
theorem swapHorizonEnd (k : Nat) : Statement (.swapHorizonEnd k) := fun _ h => nomatch h
theorem windowReductionAccept (k : Nat) : Statement (.windowReductionAccept k) := fun _ h => nomatch h
theorem windowContributionLimit (h a : Nat) : Statement (.windowContributionLimit h a) := fun _ h => nomatch h
theorem switchMerge (k j : Nat) : Statement (.switchMerge k j) := fun _ h => nomatch h
theorem barrierArrivalCount (h c g : Nat) : Statement (.barrierArrivalCount h c g) := fun _ h => nomatch h
theorem barrierPhaseComplete (h c w bar : Nat) : Statement (.barrierPhaseComplete h c w bar) := fun _ h => nomatch h
theorem barrierWaitRelease (h c g : Nat) : Statement (.barrierWaitRelease h c g) := fun _ h => nomatch h
theorem lbForward (l h n : Nat) : Statement (.lbForward l h n) := fun _ h => nomatch h
theorem lbCompletionBroadcast (l h n : Nat) : Statement (.lbCompletionBroadcast l h n) := fun _ h => nomatch h
theorem sidebandPathLoss (l h : Nat) : Statement (.sidebandPathLoss l h) := fun _ h => nomatch h
theorem signatureRecord (h c g : Nat) : Statement (.signatureRecord h c g) := fun _ h => nomatch h
theorem qmPlacement (h c g : Nat) : Statement (.qmPlacement h c g) := fun _ h => nomatch h
theorem sendSlotFill (h c g : Nat) : Statement (.sendSlotFill h c g) := fun _ h => nomatch h
theorem recvSlotTake (h c g : Nat) : Statement (.recvSlotTake h c g) := fun _ h => nomatch h
theorem channelSlotFreed (h c w ch : Nat) : Statement (.channelSlotFreed h c w ch) := fun _ h => nomatch h
theorem copyAccept (h c g : Nat) : Statement (.copyAccept h c g) := fun _ h => nomatch h
theorem copyLineWrite (h k line : Nat) : Statement (.copyLineWrite h k line) := fun _ h => nomatch h
theorem cpaCoalesceTimeout (h c : Nat) : Statement (.cpaCoalesceTimeout h c) := fun _ h => nomatch h
theorem qfenceEntryComplete (h k : Nat) : Statement (.qfenceEntryComplete h k) := fun _ h => nomatch h
theorem qwaitComplete (h c g : Nat) : Statement (.qwaitComplete h c g) := fun _ h => nomatch h
theorem matrixStep (h c : Nat) : Statement (.matrixStep h c) := fun _ h => nomatch h
theorem matrixWatchdog (h c : Nat) : Statement (.matrixWatchdog h c) := fun _ h => nomatch h
theorem launchRecordTake (h q : Nat) : Statement (.launchRecordTake h q) := fun _ h => nomatch h
theorem rectClaim (l : Nat) : Statement (.rectClaim l) := fun _ h => nomatch h
theorem routeLoad (l : Nat) (ok : Bool) : Statement (.routeLoad l ok) := fun _ h => nomatch h
theorem residency (l : Nat) : Statement (.residency l) := fun _ h => nomatch h
theorem gangPlacement (l : Nat) : Statement (.gangPlacement l) := fun _ h => nomatch h
theorem launchSetup (l : Nat) : Statement (.launchSetup l) := fun _ h => nomatch h
theorem scrubTokenMatch (l : Nat) : Statement (.scrubTokenMatch l) := fun _ h => nomatch h
theorem cardReceive (k : Nat) : Statement (.cardReceive k) := fun _ h => nomatch h
theorem cardPlacement (h q : Nat) : Statement (.cardPlacement h q) := fun _ h => nomatch h
theorem workgroupNormalEnd (h c w : Nat) : Statement (.workgroupNormalEnd h c w) := fun _ h => nomatch h
theorem launchCompletion (l : Nat) : Statement (.launchCompletion l) := fun _ h => nomatch h
theorem hostDoorbell (f h q tail : Nat) : Statement (.hostDoorbell f h q tail) := fun _ h => nomatch h
theorem prqReply (f stage tag : Nat) : Statement (.prqReply f stage tag) := fun _ h => nomatch h
theorem prqReplyRefuse (f stage tag : Nat) : Statement (.prqReplyRefuse f stage tag) := fun _ h => nomatch h
theorem lqva (f va : Nat) : Statement (.lqva f va) := fun _ h => nomatch h
theorem leaseQueryDone (f : Nat) : Statement (.leaseQueryDone f) := fun _ h => nomatch h
theorem hostApertureRead (port f off n : Nat) : Statement (.hostApertureRead port f off n) := fun _ h => nomatch h
theorem hostApertureWrite (port f off n v : Nat) : Statement (.hostApertureWrite port f off n v) := fun _ h => nomatch h
theorem hostMapRead (off : Nat) : Statement (.hostMapRead off) := fun _ h => nomatch h
theorem hostMapWrite (off v : Nat) : Statement (.hostMapWrite off v) := fun _ h => nomatch h
theorem mgdataRead (f off : Nat) : Statement (.mgdataRead f off) := fun _ h => nomatch h
theorem mgdataWrite (f off v : Nat) : Statement (.mgdataWrite f off v) := fun _ h => nomatch h
theorem registerWrite (f off v : Nat) : Statement (.registerWrite f off v) := fun _ h => nomatch h
theorem prego (vf : Nat) : Statement (.prego vf) := fun _ h => nomatch h
theorem killgo (vf id : Nat) : Statement (.killgo vf id) := fun _ h => nomatch h
theorem chipletReset (h : Nat) : Statement (.chipletReset h) := fun _ h => nomatch h
theorem chipletFence (h : Nat) : Statement (.chipletFence h) := fun _ h => nomatch h
theorem chipletDrop (h : Nat) : Statement (.chipletDrop h) := fun _ h => nomatch h
theorem chipletFatal (h act cause : Nat) : Statement (.chipletFatal h act cause) := fun _ h => nomatch h
theorem rsgo (h c w : Nat) : Statement (.rsgo h c w) := fun _ h => nomatch h
theorem wdlim (h c : Nat) (all : Bool) (v : Nat) : Statement (.wdlim h c all v) := fun _ h => nomatch h
theorem checkpointInstant (f : Nat) : Statement (.checkpointInstant f) := fun _ h => nomatch h
theorem checkpointDrainDone (f : Nat) : Statement (.checkpointDrainDone f) := fun _ h => nomatch h
theorem checkpointCommit (f : Nat) : Statement (.checkpointCommit f) := fun _ h => nomatch h
theorem crossPackageMessage (f seq sender : Nat) (msg : Msg) : Statement (.crossPackageMessage f seq sender msg) := fun _ h => nomatch h
theorem partWrite (h f v : Nat) : Statement (.partWrite h f v) := fun _ h => nomatch h
theorem connmatWrite (h i v : Nat) : Statement (.connmatWrite h i v) := fun _ h => nomatch h
theorem waymaskWrite (h v : Nat) : Statement (.waymaskWrite h v) := fun _ h => nomatch h
theorem shareWrite (h q k v : Nat) : Statement (.shareWrite h q k v) := fun _ h => nomatch h
theorem scrubComplete (h c g : Nat) : Statement (.scrubComplete h c g) := fun _ h => nomatch h
theorem dbmswap (f : Nat) : Statement (.dbmswap f) := fun _ h => nomatch h
theorem dbmSwapInstant (f : Nat) : Statement (.dbmSwapInstant f) := fun _ h => nomatch h
theorem dbmSwapDone (f : Nat) : Statement (.dbmSwapDone f) := fun _ h => nomatch h
theorem rstgo (f : Nat) : Statement (.rstgo f) := fun _ h => nomatch h
theorem restoreDone (f : Nat) : Statement (.restoreDone f) := fun _ h => nomatch h
theorem flitReceive (h link : Nat) (head rest : List Byte) : Statement (.flitReceive h link head rest) := fun _ h => nomatch h
theorem linkFence (h link : Nat) : Statement (.linkFence h link) := fun _ h => nomatch h
theorem linkgo (h port : Nat) : Statement (.linkgo h port) := fun _ h => nomatch h
theorem clockSkew (h c : Nat) (off : Nat × Nat) : Statement (.clockSkew h c off) := fun _ h => nomatch h
theorem clockSkewRecover (h c : Nat) : Statement (.clockSkewRecover h c) := fun _ h => nomatch h
theorem domen : Statement .domen := fun _ h => nomatch h
theorem domainEpochLock (t : Nat) : Statement (.domainEpochLock t) := fun _ h => nomatch h
theorem domainLockTimeout (h c : Nat) : Statement (.domainLockTimeout h c) := fun _ h => nomatch h
theorem fwgo : Statement .fwgo := fun _ h => nomatch h
theorem firmwareCheckDone (sigOk : Bool) : Statement (.firmwareCheckDone sigOk) := fun _ h => nomatch h
theorem railSample (h p v cur : Nat) : Statement (.railSample h p v cur) := fun _ h => nomatch h
theorem minvClear (h k v : Nat) : Statement (.minvClear h k v) := fun _ h => nomatch h
theorem railCrack (h p : Nat) : Statement (.railCrack h p) := fun _ h => nomatch h
theorem thermalTrip (h i t : Nat) : Statement (.thermalTrip h i t) := fun _ h => nomatch h
theorem thvalWrite (h v : Nat) : Statement (.thvalWrite h v) := fun _ h => nomatch h
theorem thermalForecast (h t : Nat) : Statement (.thermalForecast h t) := fun _ h => nomatch h
theorem bankRetiring (h k bank cause : Nat) : Statement (.bankRetiring h k bank cause) := fun _ h => nomatch h
theorem bkack (h k bank : Nat) : Statement (.bkack h k bank) := fun _ h => nomatch h
theorem frameMove (h k : Nat) : Statement (.frameMove h k) := fun _ h => nomatch h
theorem bankRetired (h k : Nat) : Statement (.bankRetired h k) := fun _ h => nomatch h
theorem powerOn (fwOk : Bool × Nat × Nat × List (Nat × Nat)) : Statement (.powerOn fwOk) := fun _ h => nomatch h
theorem packageReset : Statement .packageReset := fun _ h => nomatch h
theorem powerLoss : Statement .powerLoss := fun _ h => nomatch h
theorem prqhead (f stage v : Nat) : Statement (.prqhead f stage v) := fun _ h => nomatch h
theorem l2opDone (h c g : Nat) : Statement (.l2opDone h c g) := fun _ h => nomatch h
theorem snapCaptureDone (h c g : Nat) : Statement (.snapCaptureDone h c g) := fun _ h => nomatch h
theorem uncorrectableError (space h c line : Nat) : Statement (.uncorrectableError space h c line) := fun _ h => nomatch h
theorem powerGating (h c : Nat) : Statement (.powerGating h c) := fun _ h => nomatch h
theorem corePoweredAgain (h c : Nat) : Statement (.corePoweredAgain h c) := fun _ h => nomatch h
theorem sensorFault (h i : Nat) : Statement (.sensorFault h i) := fun _ h => nomatch h
theorem vfEnable (en : Bool) (n : Nat) : Statement (.vfEnable en n) := fun _ h => nomatch h

end Sys2Proof.Laws.RoundTrip
end

