-- ==== Sys2Proof/Tests/Slice0.lean ====
section
/-! SUPPORT. Tests: ill-formed terms refused, words of the spec's worked examples decoded, single steps with results that
the spec states, and a witness for each statement's hypotheses. -/

namespace Sys2Proof.Tests

set_option Elab.async false

open Sys2Proof Sys2Proof.Machine Sys2Proof.Safety

/-! ### Operand checks: one ill-formed term for each check -/

/-- No sign modifier. -/
def sg0 : Signs := ⟨false, false, false, false⟩

/-- R36, R37: codes 124 to 127 name no source, 32 to 95 no destination but of `kst`. -/
theorem test_wf_scalar : [Instr.smov .always 32 0, .smov .always 0 124, .smovi .always 112 1, .sadd .eq 32 0 (.imm 1),
    .sadd .eq 0 124 (.imm 1), .smulh .eq true 0 0 (.code 127), .scmp .always 124 0, .scmpi .always 125 0, .sread .always 0 16 (.imm 0),
    .sread .always 0 0 (.code 126), .kst .always 31 (.imm 0), .bra .always (.imm 4), .sloop .always 32 0, .call .always 16 0,
    .ret .always 16, .sleep .always (.code 124)].all (fun i => wellFormed 16 .hypervisor i) = false
    ∧ ([Instr.smov .always 32 0, .smov .always 0 124, .smovi .always 112 1, .sadd .eq 32 0 (.imm 1),
    .sadd .eq 0 124 (.imm 1), .smulh .eq true 0 0 (.code 127), .scmp .always 124 0, .scmpi .always 125 0, .sread .always 0 16 (.imm 0),
    .sread .always 0 0 (.code 126), .kst .always 31 (.imm 0), .bra .always (.imm 4), .sloop .always 32 0, .call .always 16 0,
    .ret .always 16, .sleep .always (.code 124)].any (fun i => wellFormed 16 .hypervisor i)) = false := by decide

/-- R153, R158, R159: the limits of `spawn`, `bin.age` and `jpost`. -/
theorem test_wf_work : ([Instr.spawn .always 0 1 0 1 (.label 0), .spawn .always 2 1 0 9 (.label 0), .spawn .always 2 1 1 0 (.label 0),
    .spawn .always 2 1 15 2 (.label 0), .spawn .always 2 1 0 1 (.code 124), .reform .always (some 16), .binAge .always (.imm 15),
    .binAge .always (.imm 4097), .jpost .always 32 0 0 1 0, .jpost .always 0 31 0 2 0, .jpost .always 0 0 0 9 0,
    .jpost .always 0 1 0 0 0, .jpost .always 0 0 0 1 5].any (fun i => wellFormed 16 .hypervisor i)) = false := by decide

/-- R35: registers below N, pairs even, and the types of each row of Table 4.1. -/
theorem test_wf_integer : ([Instr.mov 0 .s32 0 0, .mov 0 .b64 1 2, .mov 0 .b64 0 15, .movScalar 0 0 124, .movi 0 16 0, .tidx 0 16,
    .add 0 .b32 0 0 0, .add 0 .s64 2 4 5, .addc 0 0 16 0 1, .mul 0 .s64 0 0 0, .mad 0 .b32 0 0 0 0, .madw 0 .s32 1 0 0 2, .neg 0 .n32 0 0,
    .and 0 .s32 0 0 0, .not 0 .f32 0 0, .shl 0 .n32 0 0 0, .shl 0 .b64 0 0 16, .bfi 0 0 0 0 16, .popc 0 .s32 0 0, .cmp 0 .eq .b32 1 0 0,
    .sel 0 .b64 0 0 1 1, .cvti 0 .f32 .s8 false 0 0, .cvti 0 .s64 .s8 false 1 0, .adds 0 .s64 0 0 0, .dot4 0 .s4x8 0 0 0 0,
    .dot8 0 .s8x4 0 0 0 0, .addImm 0 16 0 1, .cmpS32Imm 0 .eq 0 16 1, .bfxImm 0 false 0 0 4 0, .bfxImm 0 false 0 0 31 2].any
      (fun i => wellFormed 16 .hypervisor i)) = false := by decide

/-- R39, R110, R115, R122 to R128: types, rounding modes and sign modifiers that a floating-point word may not name. -/
theorem test_wf_float : ([Instr.fadd 0 .bf16 .rne sg0 0 0 0, .fadd 0 .f32 .sr sg0 0 0 0, .fadd 0 .f32 .rne ⟨false, false, false, true⟩ 0 0 0,
    .fma 0 .e4m3 .rne sg0 0 0 0 0, .fmin 0 sg0 0 0 16, .fclass 0 ⟨false, false, true, false⟩ 0 0, .frcp 0 .sr sg0 0 0,
    .fldexp 0 .rne ⟨false, false, true, false⟩ 0 0 0, .fcvt 0 .f32 .f32 .rne false sg0 0 0 0, .fcvt 0 .s32 .n32 .rne false sg0 0 0 0,
    .fcvt 0 .f16 .f32 .rne false sg0 0 0 1, .fcvt 0 .e2m1 .f32 .rne true sg0 0 0 0, .fcvt 0 .e8m0 .f32 .rne false sg0 0 0 0,
    .fpack 0 .f16 .f32 .rne false sg0 0 0 0 0, .fpack 0 .e2m1x8 .f32 .rne true sg0 0 0 0 0, .fdot2 0 .e4m3x4 .rne sg0 0 0 0 0,
    .fdot4 0 .f16x2 .rne sg0 0 0 0 0, .fdot8 0 .sr sg0 0 0 0 0, .mxs 0 .f16 sg0 0 0, .fcmpImm 0 .eq 0 16 0].any
      (fun i => wellFormed 16 .hypervisor i)) = false := by decide

/-- R135 to R141, R43: masks, exchanges, reductions and paired words. -/
theorem test_wf_masks : ([Instr.mvoteEq 0 0 16, .mpop 0 16 0, .qswx 0 0 16, .gshf 0 0 0 16, .gred 0 .and .f32 .rne 0 0,
    .gred 0 .min .f32 .rz 0 0, .gred 0 .add .s32 .rz 0 0, .gscan 0 .add false .f32 .sr 0 0,
    .pPair ⟨.addN32, 0, 8, 0, .rne, false⟩ ⟨.addN32, 0, 0, 0, .rne, false⟩, .pPair ⟨.addN32, 0, 0, 0, .rz, false⟩ ⟨.addN32, 0, 0, 0, .rne, false⟩,
    .pPair ⟨.fmin, 0, 0, 0, .rz, false⟩ ⟨.addN32, 0, 0, 0, .rne, false⟩, .pPair ⟨.fadd, 0, 0, 0, .sr, false⟩ ⟨.fadd, 0, 0, 0, .rne, false⟩].any
      (fun i => wellFormed 16 .hypervisor i)) = false := by decide

/-- R183, R188, R182, R231, R251, R252: memory accesses. -/
theorem test_wf_memory : ([Instr.ld .f32 ⟨0, 0, 0, 0, none, 0⟩, .ld .b64 ⟨0, 1, 0, 0, none, 0⟩, .ld .b32 ⟨0, 0, 16, 0, none, 0⟩,
    .st .s8 ⟨0, 0, 0, 0, none, 0⟩, .ldAcq .n8 ⟨0, 0, 0, 0, none, 0⟩, .ldw .n8 ⟨0, 0, 0, 0, none, 0⟩, .lds .f32 ⟨0, 0, 0, 0⟩,
    .sts .s16 ⟨0, 0, 0, 0⟩, .ldacc .b64 ⟨0, 0, 0, 0⟩, .prf .f32 0 0 0 0, .present 0 0 16 0, .brec 0 0 2, .brrd 0 13 0, .leaseQ 0 1 0 0 0,
    .atom .add .b32 ⟨0, 0, 0, 0, none, 0⟩, .atom .cas .b64 ⟨0, 2, 0, 0, none, 0⟩, .red .exch .b32 ⟨0, 0, 0, 0, none, 0⟩,
    .reds .cas .b32 ⟨0, 0, 0, 0⟩, .atoms .fadd .f16 ⟨0, 0, 0, 0⟩].any (fun i => wellFormed 16 .hypervisor i)) = false := by decide

/-- R272, R281 to R286: barriers, convergence registers and channels. -/
theorem test_wf_sync : ([Instr.barArr 0 24, .barWait 0 0 (some 16), .barExp 0 16 0, .barPh 0 1 0, .cvdecl 0 0 (.imm 0), .cvdecl 0 0 (.imm 1025),
    .cvq 0 1 0, .send 0 0 16].any (fun i => wellFormed 16 .hypervisor i)) = false := by decide

/-- R300, R301, R310 to R315, R340: copies and matrix operations. -/
theorem test_wf_copies : ([Instr.cpa4 ⟨0, 0, 0, 0, 16, 0, 0⟩, .tcopy ⟨0, 2, 0, 0, 0⟩ false false .b32 .b32 .none false false,
    .tcopy ⟨0, 4, 0, 0, 0⟩ false false .f32 .s8 .none false false, .tcopy ⟨0, 4, 0, 0, 0⟩ false false .b32 .b32 .h16 false false,
    .tcopy ⟨0, 4, 0, 0, 0⟩ false true .e2m1 .e2m1 .none false false, .tcopy ⟨0, 4, 31, 0, 0⟩ false false .e4m3 .e4m3 .none false true,
    .tcopy ⟨0, 4, 0, 0, 0⟩ true true .b32 .b32 .none false false, .tgather ⟨0, 4, 0, 0, 0⟩ 4 .b32 .fz, .tpack ⟨0, 4, 0, 0, 0⟩ 0 .b32 .fz,
    .tunpack ⟨0, 4, 0, 0, 0⟩ 2 .s4, .mdcopy 0 16 0 0 0 0 false 0, .cfill 0 0 0 0 0 0, .qfence 0 0, .qwait 0 1 0, .mldSt 0 .f32 .bf16 0 0,
    .mstream 0 .bf16 .bf16 false false 0 1 0 4 0, .mstream 0 .bf16 .bf16 false false 0 0 1 4 0, .mtile 0 .bf16 .bf16 false false 2 2 4 0,
    .maccSt 0 .b32 0 0 0, .mstat 0 1 0].any (fun i => wellFormed 16 .hypervisor i)) = false := by decide

/-- R357 to R366, R384, R391, R393, R402: system instructions and register numbers. -/
theorem test_wf_system : ([Instr.tvec 0 16, .segRd 0 2 0, .sysRd 0 1 0, .sysRd 0 0 0x003, .sysRd 0 0 0x0A4, .ckptQ 0 2, .snap 0 0 0 2,
    .l2op 0 .clean 16 0 0, .tlbProbe 0 2 0, .walkQ 0 2 0 0 false, .scrub 0 2 0, .tokRd 0 16 0 0, .partQ 0 2 0].any
      (fun i => wellFormed 16 .hypervisor i)) = false := by decide

/-! ### Decoding: the words of the spec's worked examples -/

/-- The word decodes to the instruction at hypervisor level with 64 registers. -/
def Reads64 (w : DWord) (i : Instr) : Prop := decode .hypervisor 64 w = .ok i

/-- 02_words_and_assembly.md R41, R44, R48, R49; 03_scalar_control.md R75, R77: worked encodings and listings. -/
theorem test_decode_scalar :
    Reads64 0x10C82024282D8000 (.fma 2 .f32 .rne sg0 8 9 10 11)
    ∧ Reads64 0x400040C040008180 (.pPair ⟨.addN32, 0, 2, 3, .rne, false⟩ ⟨.fadd, 0, 2, 3, .rne, false⟩)
    ∧ Reads64 0x90000020FFFFFFFA (.br .ne 0xFFFFFFFA)
    ∧ Reads64 0x8040800100000004 (.smovi .always 1 4)
    ∧ Reads64 0x8081020000000001 (.sadd .always 2 2 (.code 1))
    ∧ Reads64 0x91408000FFFFFFFF (.sloop .always 1 0xFFFFFFFF)
    ∧ Reads64 0x8071800100000FFF (.smovi .always 99 0xFFF)
    ∧ Reads64 0x918A000000000003 (.call .always 20 3)
    ∧ Reads64 0x91CA000000000000 (.ret .always 20)
    ∧ Reads64 0x92C0000100000308 (.sleep .always (.imm 776))
    ∧ Reads64 0x90C06100FFFFFFFE (.brmnz .always 1 0xFFFFFFFE) := ⟨rfl, rfl, rfl, rfl, rfl, rfl, rfl, rfl, rfl, rfl, rfl⟩

/-- 04_integer.md R95, R104, R105; 18_programs_layernorm_gather.md Table 18.1; 20_programs_guest_tenant.md. -/
theorem test_decode_integer :
    Reads64 0x0080281018150000 (.addc 0 10 4 6 5)
    ∧ Reads64 0x084030080C326000 (.dot4 0 .s8x4 12 2 3 12)
    ∧ Reads64 0x3BC00C2600000C04 (.bfxImm 0 true 3 9 4 12)
    ∧ Reads64 0x0740040000000000 (.tidx 0 1)
    ∧ Reads64 0x0000088000000001 (.movScalar 0 2 32)
    ∧ Reads64 0x000005C800000001 (.movScalar 0 1 114)
    ∧ Reads64 0x3B80043400000000 (.cmpN32Imm 0 .eq 1 13 0)
    ∧ Reads64 0x06C0302414040000 (.sel 0 .b32 12 9 5 1)
    ∧ Reads64 0x39C0140000000002 (.shlImm 0 5 0 2)
    ∧ Reads64 0x0704081018010001 (.cmp 1 .ne .n32 2 4 6) := ⟨rfl, rfl, rfl, rfl, rfl, rfl, rfl, rfl, rfl, rfl⟩

/-- 05_float.md R123; 02_words_and_assembly.md; Table 18.1. -/
theorem test_decode_float :
    Reads64 0x14C010080025D40C (.fcvt 0 .bf16 .f32 .sr false sg0 4 2 9)
    ∧ Reads64 0x1080040408018000 (.fmul 0 .rne sg0 1 1 2)
    ∧ Reads64 0x3C80141C3F000000 (.fmaImm 0 .rne 5 7 0x3F000000)
    ∧ Reads64 0x12C0201C00018000 (.frsq 0 .rne sg0 8 7)
    ∧ Reads64 0x1500080C0803000C (.fpack 0 .bf16x2 .f32 .rne false sg0 2 3 2 0) := ⟨rfl, rfl, rfl, rfl, rfl⟩

/-- 06_masks_exchange.md, the kernel quad_demo; Table 18.1; 20_programs_guest_tenant.md. -/
theorem test_decode_masks :
    Reads64 0x2500080400008000 (.gscan 0 .add false .s32 .rne 2 1)
    ∧ Reads64 0x24C00C0400008000 (.gred 0 .add .s32 .rne 3 1)
    ∧ Reads64 0x2280100400000000 (.qswx 0 4 1)
    ∧ Reads64 0x24C4140400008002 (.gred 1 .max .s32 .rne 5 1)
    ∧ Reads64 0x238024143C000000 (.gshf 0 9 5 15)
    ∧ Reads64 0x21C01C0800000000 (.mpop 0 7 2) := ⟨rfl, rfl, rfl, rfl, rfl, rfl⟩

/-- 07_work_creation.md, the kernel of R153. -/
theorem test_decode_work :
    Reads64 0x9808800110000003 (.spawn .always 2 1 0 1 (.label 3))
    ∧ Reads64 0x9880610000000002 (.reformTwo .always 1 2)
    ∧ Reads64 0x98C0000000000000 (.retire .always) := ⟨rfl, rfl, rfl⟩

/-- 02_words_and_assembly.md R49; 08_memory_access.md R182 to R197; 09_translation_leases.md R231; 11_atomics.md R251; Table 18.1. -/
theorem test_decode_memory :
    Reads64 0xC000301C60000010 (.ld .b32 ⟨0, 12, 7, 3, none, 16⟩)
    ∧ Reads64 0xC00004002A000000 (.ld .b32 ⟨0, 1, 0, 1, some 4, 0⟩)
    ∧ Reads64 0xC000280820008008 (.ld .b64 ⟨0, 10, 2, 1, none, 8⟩)
    ∧ Reads64 0xC04C080040000004 (.st .b32 ⟨3, 2, 0, 2, none, 4⟩)
    ∧ Reads64 0xC100184C00000004 (.lds .b32 ⟨0, 6, 19, 4⟩)
    ∧ Reads64 0xC200505400060000 (.ldacc .f32 ⟨0, 20, 21, 0⟩)
    ∧ Reads64 0xC300100020000000 (.brec 0 1 4)
    ∧ Reads64 0xC2C0000000020000 (.fence 0 .w)
    ∧ Reads64 0xC2C0000000030000 (.fence 0 .io)
    ∧ Reads64 0xC380280C00000000 (.leaseQ 0 10 3 0 0)
    ∧ Reads64 0xC3C0280400000000 (.leaseRenew 0 10 1 0 0)
    ∧ Reads64 0xC400181440040008 (.atom .add .n32 ⟨0, 6, 5, 2, none, 8⟩)
    ∧ Reads64 0xC4400C0880065800 (.red .fadd .f32 ⟨0, 3, 2, 4, none, 0⟩) :=
  ⟨rfl, rfl, rfl, rfl, rfl, rfl, rfl, rfl, rfl, rfl, rfl, rfl, rfl⟩

/-- 12_synchronisation.md R272, R281, R286; 13_async_copy.md R300, R308, R315; 14_matrix.md R340. -/
theorem test_decode_sync_copy_matrix :
    Reads64 0xD080000001000000 (.barArw 0 2)
    ∧ Reads64 0xD0C4001400000000 (.barExp 1 0 5)
    ∧ Reads64 0xD180000000000020 (.cvdecl 0 0 (.imm 32))
    ∧ Reads64 0xD200040000000000 (.send 0 0 1)
    ∧ Reads64 0xD2400C0000000000 (.recv 0 3 0)
    ∧ Reads64 0xD9002000000058B8 (.tcopy ⟨0, 8, 0, 0, 0⟩ false false .bf16 .e2m1 .h16 true false)
    ∧ Reads64 0xD94040200000002C (.tgather ⟨0, 16, 0, 0, 0⟩ 8 .f32 .fnan)
    ∧ Reads64 0xDB00180000000000 (.qwait 0 6 0)
    ∧ Reads64 0xE100000000400000 (.maccZ 0 0 0)
    ∧ Reads64 0xE0003000004001CE (.mldSt 0 .bf16 .bf16 12 0)
    ∧ Reads64 0xE040000000400000 (.mswap 0 0)
    ∧ Reads64 0xE0802000004001CE (.mstream 0 .bf16 .bf16 false false 0 0 0 8 0) :=
  ⟨rfl, rfl, rfl, rfl, rfl, rfl, rfl, rfl, rfl, rfl, rfl, rfl⟩

/-- 15_traps_preemption.md R358; 16_tenants.md R384, R391, R393. -/
theorem test_decode_system :
    Reads64 0xF100100000000064 (.sysRd 0 4 0x064)
    ∧ Reads64 0xF000000000000001 (.tret true)
    ∧ Reads64 0xF380203000000000 (.scrub 0 8 12)
    ∧ Reads64 0xF3C0080C00000000 (.tokRd 0 2 3 0)
    ∧ Reads64 0xF400100400000000 (.partQ 0 4 1) := ⟨rfl, rfl, rfl, rfl, rfl⟩

/-- R34, R53, R358: the decode traps by rank. -/
theorem test_decode_traps :
    decode .user 64 0x4FFF000000000000 = .error .illegalOpcode
    ∧ decode .user 64 0x400000007F000000 = .error .illegalPair
    ∧ decode .user 64 0xF380203000000000 = .error .privilege
    ∧ decode .user 8 0x918A000000000003 = .error .illegalOperand
    ∧ decode .hypervisor 64 0x08C0000000000000 = .error .illegalOpcode := ⟨rfl, rfl, rfl, rfl, rfl⟩

/-- R41: in memory the word of `[m2] fma.f32.rne v8, v9, v10, v11` reads 00 80 2D 28 24 20 C8 10. -/
theorem test_word_bytes : decodeTableWord 64 0x10C82024282D8000 = some (.fma 2 .f32 .rne sg0 8 9 10 11)
    ∧ bytesOf 8 0x10C82024282D8000 = [0x00, 0x80, 0x2D, 0x28, 0x24, 0x20, 0xC8, 0x10] := ⟨rfl, by decide⟩

/-! ### One step on a small state -/

/-- Group 0 of core 0: 32 members, every lane live, hypervisor level, 256 registers each. -/
def base : State := State.reset.readyToFetch

/-- Lane registers written. -/
def regs (s : State) (xs : List (Nat × Nat × Word)) : State := xs.foldl (fun t x => t.setLreg x.1 x.2.1 x.2.2) s

/-- The acting group changed. -/
def withGrp (s : State) (f : Group → Group) : State := s.setGrp (f s.grp)

/-- The acting group's workgroup changed. -/
def withWg (s : State) (f : Wg → Wg) : State :=
  s.setCore { s.core with wgs := mset s.core.wgs s.grp.wgs (f s.wg) }

/-- The state after an instruction. -/
def after (i : Instr) (s : State) : State :=
  match exec i s with
  | .next t => t
  | _ => s

/-- 06_masks_exchange.md, Worked example: six members, two helper lanes. -/
def quad : State := withGrp base (fun g => { g with member := 0x3F, helpers := 0xC0, m := [(0, 0x3F), (1, 3)] })

/-- `tidx v1` there: a helper receives 0xFFFFFFFF. -/
def quadT : State := after (.tidx 0 1) quad

/-- Table 6.4, column v1. -/
theorem test_tidx : (List.range 8).map (fun l => quadT.lreg l 1) = [0, 1, 2, 3, 4, 5, 0xFFFFFFFF, 0xFFFFFFFF] := by decide +kernel

/-- Table 6.4, column v2: `gscan.add.s32 v2, v1`. -/
theorem test_gscan : (List.range 8).map (fun l => (after (.gscan 0 .add false .s32 .rne 2 1) quadT).lreg l 2)
    = [0, 1, 3, 6, 10, 15, 15, 15] := by decide +kernel

/-- Table 6.4, column v3: `gred.add.s32 v3, v1`. -/
theorem test_gred : (List.range 8).map (fun l => (after (.gred 0 .add .s32 .rne 3 1) quadT).lreg l 3)
    = [15, 15, 15, 15, 15, 15, 15, 15] := by decide +kernel

/-- Table 6.4, column v4: `qswx v4, v1`. -/
theorem test_qswx : (List.range 8).map (fun l => (after (.qswx 0 4 1) quadT).lreg l 4)
    = [1, 0, 3, 2, 5, 4, 0xFFFFFFFF, 0xFFFFFFFF] := by decide +kernel

/-- Table 6.4, column v5: `[m1] gred.max.s32 v5, v1`. -/
theorem test_gred_masked : (List.range 8).map (fun l => (after (.gred 1 .max .s32 .rne 5 1) quadT).lreg l 5)
    = [1, 1, 0, 0, 0, 0, 0, 0] := by decide +kernel

/-- 04_integer.md R104: the clamped dot product. -/
theorem test_dot4 : (after (.dot4 0 .s8x4 12 2 3 12) (regs base [(0, 2, 0x80808080), (0, 3, 0x80808080), (0, 12, 0x7FFF0000)])).lreg 0 12
    = 0x7FFFFFFF := by decide +kernel

/-- 04_integer.md, the worked encoding of `bfx.s32 v3, v9, 4, 12`. -/
theorem test_bfx : (after (.bfxImm 0 true 3 9 4 12) (regs base [(5, 9, 0xABCD)])).lreg 5 3 = 0xFFFFFABC := by decide +kernel

/-- 04_integer.md R95, Worked example: the low halves, then the high halves with the carry. -/
theorem test_addc :
    let s := after (.addc 0 10 4 6 5) (regs base [(3, 4, 0xFFFFFFFF), (3, 5, 1), (3, 6, 3), (3, 7, 2)])
    let t := after (.addc 0 11 5 7 5) s
    s.lreg 3 10 = 2 ∧ (s.grp.mreg 5).getLsbD 3 = true ∧ t.lreg 3 11 = 4 ∧ (t.grp.mreg 5).getLsbD 3 = false := by decide +kernel

/-- R92: the most negative value divided away: `mulhi.s32` of 0x80000000 by itself is 0x40000000. -/
theorem test_mulhi : (after (.mulhi 0 .s32 3 1 1) (regs base [(0, 1, 0x80000000)])).lreg 0 3 = 0x40000000 := by decide +kernel

/-- 05_float.md R123, Worked example: `fcvt.bf16.f32.sr v4, v2, v9`. -/
theorem test_fcvt_sr :
    (after (.fcvt 0 .bf16 .f32 .sr false sg0 4 2 9) (regs base [(0, 2, 0x3F808000), (0, 9, 0x7FFFFFFF)])).lreg 0 4 = 0x3F80
    ∧ (after (.fcvt 0 .bf16 .f32 .sr false sg0 4 2 9) (regs base [(0, 2, 0x3F808000), (0, 9, 0x80000000)])).lreg 0 4 = 0x3F81 := by
  decide +kernel

/-- R116: 1.5 + 2.25 = 3.75; R119: 1 / -0 is negative infinity. -/
theorem test_fadd : (after (.fadd 0 .f32 .rne sg0 3 1 2) (regs base [(0, 1, 0x3FC00000), (0, 2, 0x40100000)])).lreg 0 3 = 0x40700000
    ∧ (after (.frcp 0 .rne sg0 3 1) (regs base [(0, 1, 0x80000000)])).lreg 0 3 = 0xFF800000 := by decide +kernel

/-- R100 and R89: a comparison writes the executing lanes' bits only. -/
theorem test_cmp : (after (.cmp 1 .lt .s32 2 1 3) (withGrp (regs base [(0, 1, 0xFFFFFFFF), (1, 1, 1)])
    (fun g => { g with m := [(0, 0xFFFFFFFF), (1, 3), (2, 0x30)] }))).grp.mreg 2 = 0x31 := by decide +kernel

/-- R43, R44: a paired word reads its sources before it writes. -/
theorem test_pair :
    let t := after (.pPair ⟨.addN32, 0, 2, 3, .rne, false⟩ ⟨.fadd, 0, 2, 3, .rne, false⟩)
      (regs base [(0, 4, 7), (0, 6, 8), (0, 5, 0x3F800000), (0, 7, 0x3F800000)])
    t.lreg 0 4 = 15 ∧ t.lreg 0 5 = 0x40000000 := by decide +kernel

/-- R66: `sadd` wraps; `ssar` by 32 or more gives the sign. -/
theorem test_scalar : (after (.sadd .always 2 1 (.imm 1)) (withGrp base (fun g => { g with s := [(1, 0xFFFFFFFF)] }))).grp.sreg 2 = 0
    ∧ (after (.ssar .always 2 1 (.imm 32)) (withGrp base (fun g => { g with s := [(1, 0x80000000)] }))).grp.sreg 2 = 0xFFFFFFFF := by
  decide +kernel

/-- R68: comparing 0x80000000 with 1 sets C and V, and clears Z and N. -/
theorem test_scmp :
    let g := (after (.scmpi .always 1 1) (withGrp base (fun g => { g with s := [(1, 0x80000000)] }))).grp
    g.z = false ∧ g.n = false ∧ g.c = true ∧ g.v = true := by decide +kernel

/-- R75: `sloop` counts down and falls through at zero; R73: an offset counts words. -/
theorem test_sloop : (after (.sloop .always 1 0xFFFFFFFF) (withGrp base (fun g => { g with s := [(1, 2)], pc := 0x10 }))).grp.pc = 8
    ∧ (after (.sloop .always 1 0xFFFFFFFF) (withGrp base (fun g => { g with s := [(1, 1)], pc := 0x10 }))).grp.pc = 0x18 := by decide +kernel

/-- R77, the kernel split_ret: lanes 0 to 11 hold another link than the rest, so the group dissolves. -/
theorem test_ret_splits :
    let s := regs base ((List.range 32).map (fun l => (l, 20, if l < 12 then 0x30 else 0x10)))
    let t := after (.ret .always 20) s
    mfind t.core.groups 0 = none ∧ (mget {} t.core.slots 0).pc = 0x30 ∧ (mget {} t.core.slots 12).pc = 0x10
    ∧ t.core.bins.map (fun (b : Nat × Bin) => b.2.threads.length) = [12, 20] := by decide +kernel

/-- A scratchpad of one page for the acting group. -/
def scr : State := withGrp base (fun g => { g with segs := mset g.segs 2 { limit := 4096, r := true, w := true, a := true, valid := true } })

/-- R192: `lds.s8` extends the sign of the byte that `sts.n8` stored; R188: no other byte changed. -/
theorem test_scratch :
    let t := after (.sts .n8 ⟨1, 2, 1, 5⟩) (withGrp (regs scr [(0, 2, 0x1234FF80)]) (fun g => { g with m := mset g.m 1 1 }))
    t.core.scratch = [(5, 0x80)] ∧ (after (.lds .s8 ⟨1, 3, 1, 5⟩) t).lreg 0 3 = 0xFFFFFF80 := by decide +kernel

/-- R251: an atomic in the scratchpad returns the old value and adds. -/
theorem test_atoms :
    let s := withGrp (regs scr [(0, 2, 5)]) (fun g => { g with m := mset g.m 1 1 })
    let t := after (.atoms .add .n32 ⟨1, 2, 1, 0⟩) (after (.atoms .add .n32 ⟨1, 2, 1, 0⟩) s)
    t.lreg 0 2 = 5 ∧ readN t.core.scratch 0 4 = 5 := by decide +kernel

/-- R353, R355: a trap of a user group of function 3 goes to that function's supervisor handler, at 64 times its class. -/
def userGroup : State :=
  (withWg (withGrp base (fun g => { g with lvl := .user, pc := 0x40 })) (fun w => { w with fn := 3, launch := 0 })).setFn 3
    { tven := true, tvbase := 0x1000 }

/-- The handler's level, address and first registers, and the saved PC (R78: the next word's). -/
theorem test_trap :
    let t := after (.trap .always 0xBEEF) userGroup
    t.grp.lvl = .supervisor ∧ t.grp.pc = 0x1000 + 64 * BitVec.ofNat 32 (trapClass 6) ∧ t.grp.sreg 0 = 6 ∧ t.grp.sreg 1 = 0xBEEF
    ∧ t.grp.sreg 5 = 0x48 ∧ (after (.tret false) t).grp.pc = 0x48 ∧ (after (.tret false) t).grp.lvl = .user := by decide +kernel

/-- R271, R278: two arrivals complete a barrier of two members. -/
theorem test_barrier :
    let s0 : State := { base with hums := [(0, {})] }
    let s := withGrp (withWg (s0.setCore { s0.core with wbars := [(0, { members := 2, valid := true })] })
      (fun w => { w with arr := [(0, { memb := 1, mark := 0xFFFFFF }), (1, { memb := 1, mark := 0xFFFFFF })] }))
      (fun g => { g with m := mset g.m 1 3 })
    let t := after (.barArr 1 0) s
    (t.bar 0).arrived = 2 ∧ ((after (.barrierPhaseComplete 0 0 0 0) t).bar 0).phcnt = 1
    ∧ ((after (.barrierPhaseComplete 0 0 0 0) t).bar 0).arrived = 0 := by decide +kernel

/-- A step fetches, decodes and runs the word placed where it fetches: `smovi s1, 4` (R32, R67). -/
theorem test_step : ∃ t, step (State.reset.withFetchWord 64 0x8040800100000004) = .next t ∧ t.grp.sreg 1 = 4 ∧ t.grp.pc = 8 :=
  ⟨_, rfl, by decide +kernel, by decide +kernel⟩

/-! ### Witnesses: states and operands that meet the hypotheses of the statements -/

/-- Members whose thread slots are their lane numbers have registers and slots of their own. -/
theorem apart {s : State} (hn : s.wg.n ≤ 256) (hb : s.wg.sbase = 0)
    (hr : ∀ l, l < 32 → s.grp.member.getLsbD l = true → mget 0 s.grp.roster l = l) : RowsApart s ∧ RosterApart s := by
  refine ⟨⟨hn, fun l l' j k hl hl' hm hm' hne hj hk => ?_⟩, hn, fun l hl hm => by rw [hb]; exact Nat.zero_le _,
    fun l l' hl hl' hm hm' hne => by rw [hr l hl hm, hr l' hl' hm']; exact hne⟩
  simp only [State.physReg, hr l hl hm, hr l' hl' hm', hb, Nat.sub_zero]
  intro c
  rcases Nat.lt_or_gt_of_ne hne with h | h
  · have := Nat.mul_le_mul_right s.wg.n (Nat.succ_le_of_lt h)
    rw [Nat.succ_mul] at this
    omega
  · have := Nat.mul_le_mul_right s.wg.n (Nat.succ_le_of_lt h)
    rw [Nat.succ_mul] at this
    omega

/-- The small state has them. -/
theorem base_apart : RowsApart base ∧ RosterApart base := apart (by decide +kernel) (by decide +kernel) (by decide +kernel)

/-- The group of six members and two helper lanes too. -/
theorem quad_apart : RowsApart quad ∧ RosterApart quad := apart (by decide +kernel) (by decide +kernel) (by decide +kernel)

/-- For the scalar statements: a condition that holds, one that does not, and the destinations at the ends of their ranges. -/
theorem wit_scalar : base.grp.holds .always = true ∧ base.grp.holds .eq = false ∧ (31 : SCode).toNat < 32
    ∧ 96 ≤ (96 : SCode).toNat ∧ (111 : SCode).toNat < 112 ∧ 32 ≤ (32 : SCode).toNat ∧ (95 : SCode).toNat < 96
    ∧ base.grp.latch = none := by decide +kernel

/-- `BranchesGoToTheirTargets`: an aligned target, a counter, a link register of a full group. -/
theorem wit_branches : (base.op2 (.imm 0xFFFFFFF8)).toNat % 8 = 0 ∧ (31 : SCode).toNat < 32 ∧ RowsApart base
    ∧ (255 : Reg).toNat < base.wg.n := ⟨by decide +kernel, by decide, base_apart.1, by decide +kernel⟩

/-- Links of the members: lane 31 holds `v`, the others 8. -/
def links (v : Word) : State := regs base ((List.range 32).map (fun l => (l, 20, if l = 31 then v else 8)))

/-- `ReturnFollowsTheLinks`: equal links, different links, and a misaligned link of the highest lane. -/
theorem wit_ret :
    ((∀ l ∈ lanesOf (links 8).grp.member, (links 8).lreg l 20 = 8) ∧ (8 : Word).toNat % 8 = 0 ∧ (links 8).grp.member ≠ 0)
    ∧ ((∀ l ∈ lanesOf (links 16).grp.member, ((links 16).lreg l 20).toNat % 8 = 0)
      ∧ (∃ l ∈ lanesOf (links 16).grp.member, ∃ j ∈ lanesOf (links 16).grp.member, (links 16).lreg l 20 ≠ (links 16).lreg j 20)
      ∧ RosterApart (links 16))
    ∧ (31 ∈ lanesOf (links 9).grp.member ∧ ((links 9).lreg 31 20).toNat % 8 ≠ 0
      ∧ ∀ j ∈ lanesOf (links 9).grp.member, j < 31 → ((links 9).lreg j 20).toNat % 8 = 0) :=
  ⟨by decide +kernel, ⟨by decide +kernel, ⟨0, by decide +kernel, 31, by decide +kernel, by decide +kernel⟩,
    (apart (by decide +kernel) (by decide +kernel) (by decide +kernel)).2⟩, by decide +kernel⟩

/-- `IntegerResults`, `FieldConversionAndPackedResults`, `IntegerImmediateResults`, `CarryFormsWriteSumAndCarry`: each instruction
is legal with the highest registers that its types admit. -/
theorem wit_integer : RowsApart base ∧ ([Instr.mov 1 .b64 254 252, .movi 0 255 7, .movScalar 0 255 123, .tidx 0 255, .add 0 .n64 254 252 250,
    .sub 0 .s32 255 0 255, .mul 0 .s32 255 1 2, .mulhi 0 .n32 255 1 2, .mad 0 .s32 255 1 2 3, .madw 0 .n32 254 1 2 252, .neg 0 .s64 254 0,
    .abs 0 .s32 255 0, .min 0 .n64 254 0 2, .max 0 .s64 254 0 2, .and 0 .b64 254 0 2, .or 0 .b32 255 0 2, .xor 0 .b32 255 0 2,
    .andn 0 .b32 255 0 2, .not 0 .b64 254 0, .shl 0 .b64 254 0 255, .shr 0 .b32 255 0 1, .sar 0 .b64 254 0 255, .rot 0 .b64 254 0 1,
    .popc 0 .b64 255 254, .brev 0 .b64 254 0, .sel 0 .b64 254 0 2 15, .bfx 0 .s32 255 0 1, .bfi 0 255 0 1 2, .clz 0 .b64 255 254,
    .cvti 0 .s64 .n4 true 254 0, .adds 0 .s32 255 0 1, .subs 0 .n4x8 255 0 1, .dot4 0 .n8x4 255 0 1 2, .dot8 0 .s4x8 255 0 1 2,
    .addImm 0 255 0 1, .addsImm 0 true 255 0 1, .mulImm 0 255 0 1, .andImm 0 255 0 1, .orImm 0 255 0 1, .xorImm 0 255 0 1,
    .andnImm 0 255 0 1, .shlImm 0 255 0 31, .shrImm 0 255 0 31, .sarImm 0 255 0 31, .rotImm 0 255 0 31, .minImm 0 true 255 0 1,
    .maxImm 0 false 255 0 1, .bfxImm 0 true 255 0 31 1, .bfxImm 0 false 255 0 0 32, .addc 0 255 0 1 15, .subc 0 255 0 1 0].all
      (fun i => wellFormed base.wg.n base.grp.lvl i)) = true := ⟨base_apart.1, by decide +kernel⟩

/-- `ComparesWriteMaskBits`, `FloatResults`, `FloatConversionAndPacking`. -/
theorem wit_float : RowsApart base ∧ Ty.packed .e2m1x8 = true
    ∧ ([Instr.cmp 0 .le .s64 0 254 252, .cmpS32Imm 0 .ge 15 255 1, .cmpN32Imm 0 .lt 15 255 1, .fcmp 0 .un ⟨true, true, true, false⟩ 15 255 0,
    .fcmpImm 0 .eq 15 255 0, .fadd 0 .bf16x2 .rna ⟨true, true, true, false⟩ 255 0 1, .fma 0 .f16x2 .rz ⟨true, true, true, true⟩ 255 0 1 2,
    .fsub 0 .rd sg0 255 0 1, .fmul 0 .ru sg0 255 0 1, .fmin 0 sg0 255 0 1, .fmax 0 sg0 255 0 1, .fminn 0 sg0 255 0 1, .fmaxn 0 sg0 255 0 1,
    .fclass 0 sg0 255 0, .frcp 0 .rne sg0 255 0, .fdiv 0 .rne sg0 255 0 1, .frsq 0 .rne sg0 255 0, .fsqrt 0 .rne sg0 255 0,
    .fexp2 0 sg0 255 0, .flog2 0 sg0 255 0, .ffract 0 sg0 255 0, .fround 0 .rna sg0 255 0, .fldexp 0 .rne sg0 255 0 1,
    .fdot2 0 .bf16x2 .rne sg0 255 0 1 2, .fdot4 0 .e5m2x4 .rne sg0 255 0 1 2, .fdot8 0 .rne sg0 255 0 1 2, .mxs 0 .e2m1 sg0 255 0,
    .faddImm 0 .rd 255 0 1, .fmulImm 0 .rz 255 0 1, .fmaImm 0 .ru 255 0 1, .fminImm 0 255 0 1, .fmaxImm 0 255 0 1,
    .fcvt 0 .s64 .f32 .rz false sg0 254 0 0, .fcvt 0 .e8m0 .f32 .ru true sg0 255 0 0, .fcvt 0 .bf16 .f32 .sr true sg0 255 0 255,
    .fpack 0 .e2m1x8 .f32 .rne false sg0 255 0 1 0].all (fun i => wellFormed base.wg.n base.grp.lvl i)) = true :=
  ⟨base_apart.1, rfl, by decide +kernel⟩

/-- `FloatConditionsAndRepresentableRounding`: a NaN, two numbers, and a word that is no NaN. -/
theorem wit_conditions : f32 0x7FC00000 = .nan ∧ f32 0x3F800000 ≠ .nan ∧ f32 0x80000001 ≠ .nan ∧ f32 0x7F800000 ≠ .nan := by
  decide +kernel

/-- `ExchangesDeliverTheNamedLane`, `PairedWordWritesBothHalves`, with helper lanes present. -/
theorem wit_masks : RowsApart quad ∧ ([Instr.mpop 0 255 15, .mfirst 0 255 0, .mlast 0 255 0, .qswx 0 255 0, .qswy 0 255 0, .qswd 0 255 0,
    .qbc 0 255 0 3, .gshf 0 255 0 1, .gshu 0 255 0 31, .gshd 0 255 0 31, .gshx 0 255 0 31, .gbc 0 255 0 31,
    .pPair ⟨.mov, 0, 127, 127, .rne, false⟩ ⟨.fadd, 7, 127, 0, .rna, true⟩].all (fun i => wellFormed quad.wg.n quad.grp.lvl i)) = true :=
  ⟨quad_apart.1, by decide +kernel⟩

/-- The levels of a reduction tree (R141). -/
def redLevels (c : Option Word → Option Word → Option Word) (x : Nat → Option Word) : Nat → Nat → Option Word
  | 0, l => x l
  | t + 1, i => c (redLevels c x t (2 * i)) (redLevels c x t (2 * i + 1))

/-- The levels of a scan (R141). -/
def scanLevels (c : Option Word → Option Word → Option Word) (x : Nat → Option Word) : Nat → Nat → Option Word
  | 0, l => x l
  | t + 1, l => if 2 ^ t ≤ l then c (scanLevels c x t (l - 2 ^ t)) (scanLevels c x t l) else scanLevels c x t l

/-- `ReductionsAndScansFollowTheFixedTrees`: the trees exist, for legal instructions. -/
theorem wit_trees : RowsApart quad ∧ (∃ T : Nat → Nat → Option Word,
      (∀ l, T 0 l = if (quad.exe 0).getLsbD l then some (quad.lreg l 1) else none)
      ∧ ∀ t i, T (t + 1) i = combineO (combine .add .f32 .rz) (T t (2 * i)) (T t (2 * i + 1)))
    ∧ (∃ K : Nat → Nat → Option Word,
      (∀ l, K 0 l = if (quad.exe 0).getLsbD l then some (quad.lreg l 1) else none)
      ∧ ∀ t l, K (t + 1) l = if 2 ^ t ≤ l then combineO (combine .add .f32 .rz) (K t (l - 2 ^ t)) (K t l) else K t l)
    ∧ ([Instr.gred 0 .add .f32 .rz 255 1, .gred 0 .xor .n32 .rne 255 1, .gscan 0 .add true .f32 .ru 255 1,
      .gscan 0 .min false .s32 .rne 255 1].all (fun i => wellFormed quad.wg.n quad.grp.lvl i)) = true :=
  ⟨quad_apart.1, ⟨redLevels (combineO (combine .add .f32 .rz)) _, fun _ => rfl, fun _ _ => rfl⟩, ⟨scanLevels (combineO (combine .add .f32 .rz)) _, fun _ => rfl, fun _ _ => rfl⟩, by decide +kernel⟩

/-- A core with a request of slot 3 in flight. -/
def busy : State := base.setCore { base.core with reqs := [{ slots := [3], kind := .store }] }

/-- Registers v20 of the live lanes hold `v` in lane 2, else 8. -/
def targets (v : Word) : State := regs base ((List.range 32).map (fun l => (l, 20, if l = 2 then v else 8)))

/-- `ReformFilesTheMembers`: aligned targets, and a misaligned one behind aligned ones. -/
theorem wit_reform : RosterApart (targets 16) ∧ RosterApart (targets 12) ∧ (targets 16).grp.pc.toNat % 8 = 0
    ∧ (∀ l ∈ lanesOf (targets 16).grp.member, (targets 16).grp.m0.getLsbD l = true → ((targets 16).lreg l 20).toNat % 8 = 0)
    ∧ 2 ∈ lanesOf (targets 12).grp.member ∧ (targets 12).grp.m0.getLsbD 2 = true
    ∧ ((targets 12).lreg 2 20).toNat % 8 ≠ 0 ∧ (targets 12).grp.pc.toNat % 8 = 0
    ∧ (∀ i ∈ lanesOf (targets 12).grp.member, i < 2 → (targets 12).grp.m0.getLsbD i = true →
        ((targets 12).lreg i 20).toNat % 8 = 0) :=
  ⟨(apart (by decide +kernel) (by decide +kernel) (by decide +kernel)).2,
    (apart (by decide +kernel) (by decide +kernel) (by decide +kernel)).2, by decide +kernel⟩

/-- `RetireFreesTheThreads`: the members' accesses are performed, or not. -/
theorem wit_retire : base.drained (base.slotsOf (base.grp.m0 &&& base.grp.member)) = true ∧ RosterApart base
    ∧ busy.grp.holds .always = true ∧ busy.drained (busy.slotsOf (busy.grp.m0 &&& busy.grp.member)) = false :=
  ⟨by decide +kernel, base_apart.2, by decide +kernel, by decide +kernel⟩

/-- One spawning lane and a workgroup limit of `l` slots. -/
def spawning (l : Nat) : State :=
  withWg (withGrp base (fun g => { g with m := mset g.m 1 8, s := [(1, 12)] })) (fun w => { w with n := 16, lim := l })

/-- `SpawnCreatesThreads`: a misaligned entry, undone stores, no free slot, and a free slot with the copies at their bound. -/
theorem wit_spawn : (spawning 33).grp.holds .always = true ∧ ((spawning 33).spawnEntry (.code 1)).toNat % 8 ≠ 0
    ∧ (busy.spawnEntry (.label 1)).toNat % 8 = 0 ∧ busy.drained (busy.slotsOf (busy.grp.mreg 0 &&& busy.grp.m0)) = false
    ∧ ((spawning 32).spawnEntry (.label 1)).toNat % 8 = 0
    ∧ (spawning 32).drained ((spawning 32).slotsOf ((spawning 32).grp.mreg 1 &&& (spawning 32).grp.m0)) = true
    ∧ lanesOf ((spawning 32).grp.mreg 1 &&& (spawning 32).grp.m0) = [3]
    ∧ (spawning 32).core.freeSlot (spawning 32).wg = none
    ∧ lanesOf ((spawning 33).grp.mreg 1 &&& (spawning 33).grp.m0) = [3]
    ∧ (spawning 33).core.freeSlot (spawning 33).wg = some 32 ∧ (8 : BitVec 4).toNat ≤ (spawning 33).wg.n := by decide +kernel

/-- A launch with card 63 for its own function, its card queue 5 on hummock 0. -/
def posting : State :=
  ((withGrp base (fun g => { g with s := [(30, 7), (31, 9)] })).setLaunch 0
    { phase := .running, rect := [0], wgs := [{}], kernel := { cards := [(63, 0)] }, cardq := 5 }).setHum 0
      { queues := [(5, { en := true, cardq := true })] }

/-- `BinAgeAndJobPosts`: a card that is none of the launch's, a launch without a card queue, a direction outside, and a post. -/
theorem wit_jpost : posting.grp.holds .always = true
    ∧ (∀ e ∈ (posting.launchAt (posting.rootLaunch posting.wg.launch)).kernel.cards, e.1 ≠ (0 : BitVec 6).toNat)
    ∧ (base.launchAt (base.rootLaunch base.wg.launch)).cardq = 0xFFFF
    ∧ (posting.jpostCard 63 2 30 2).1 ≠ 0 ∧ (posting.jpostCard 63 2 30 0).1 = 0
    ∧ posting.drained (posting.slotsOf posting.grp.member) = true ∧ (posting.jpostCard 63 2 30 0).2.fn = posting.wg.fn
    ∧ (posting.jpostCard 63 2 30 0).2.hum < 8 := by
  decide +kernel

/-- Two ready groups on a pipe. -/
def pairOfGroups : State := base.setCore { base.core with groups := [(0, base.grp), (1, base.grp)] }

/-- `YieldAndSleepWait`. -/
theorem wit_yield : base.yieldTo = [] ∧ pairOfGroups.grp.holds .always = true ∧ pairOfGroups.yieldTo ≠ []
    ∧ (base.op2 (.imm 0)).toNat = 0 ∧ (base.op2 (.imm 0xFFFFFFFF)).toNat ≠ 0 := by decide +kernel

/-- `SoftwareTrapEntersTheHandler` and `TrapsSaveAndTrapReturnRestores`: a user group with a handler, without one, with accesses in
flight, at hypervisor level, and after a trap. -/
theorem wit_trap :
    (userGroup.grp.holds .always = true ∧ userGroup.drained (userGroup.slotsOf userGroup.grp.member) = true
      ∧ TrapGoesTo userGroup .supervisor 3 ∧ (userGroup.fnAt 3).tven = true)
    ∧ busy.drained (busy.slotsOf busy.grp.member) = false
    ∧ (let t := userGroup.setFn 3 {}
       t.drained (t.slotsOf t.grp.member) = true ∧ TrapGoesTo t .supervisor 3 ∧ (t.fnAt 3).tven = false)
    ∧ (base.drained (base.slotsOf base.grp.member) = true ∧ base.grp.lvl = .hypervisor)
    ∧ (let t := after (.trap .always 0xFFFF) userGroup
       (∃ sv rest, t.grp.saved = sv :: rest ∧ sv.pc.toNat % 8 = 0 ∧ (sv.pc + 8).toNat % 8 = 0)
       ∧ t.drained (t.slotsOf t.grp.member) = true) := by
  refine ⟨⟨by decide +kernel, by decide +kernel, .inr (.inl (by decide +kernel)), by decide +kernel⟩, by decide +kernel,
    ⟨by decide +kernel, .inr (.inl (by decide +kernel)), by decide +kernel⟩, by decide +kernel,
    ⟨_, _, rfl, by decide +kernel, by decide +kernel⟩, by decide +kernel⟩

/-- An access whose checks pass, with a property of it. -/
def goes (c : Chk) (p : MemOp → Bool) : Bool :=
  match c with
  | .go op => p op
  | _ => false

/-- An access that takes a trap. -/
def trapsAs (c : Chk) (k : Nat) : Bool :=
  match c with
  | .trap code _ _ => code == k
  | _ => false

/-- Segments of the plain spaces, buffer records over them, and a mask m2 of no lane. -/
def recs : State :=
  let r := fun (sel base : Nat) => (⟨base, 8, 512, 0, 0, sel, true, true, true, false, true⟩ : BufRec)
  let sg : Seg := { r := true, w := true, a := true, valid := true }
  let s := withGrp base (fun g => { g with segs := [(0, mget {} g.segs 0), (1, sg), (2, { sg with limit := 8192 }),
    (3, { sg with limit := 262144 }), (4, sg), (5, { sg with limit := 2 ^ 48 })] })
  withWg s (fun w => { w with b := [(1, r 1 4096), (2, r 2 0), (4, r 4 0), (5, r 5 (2 * 2 ^ 28))], peers := [{}], holds := true
                              segs := [(2, { sg with limit := 8192 })] })

/-- There, v1 holds each lane's number. -/
def recsT : State := after (.tidx 0 1) recs

/-- The same with the first scratchpad line absent, and with lane 31 outside every record. -/
def recsA : State := recsT.setCore { recsT.core with absent := [0] }
def recsB : State := recsT.setLreg 31 1 0xFFFFFFFF

/-- `RecordAndScratchpadFormsRun`: the forms of a kind with a record of a segment. -/
def formGoes (s : State) (k : MemKind) (ty : Ty) (buf : BufR) (p : MemOp → Bool) : Bool :=
  goes ((opened s buf).recCheck { kind := k, ty := ty, dst := 2, sels := [1, 2, 4, 6] } 0 1 buf 0) p

/-- Every kind, in memory, in the scratchpad (lines present or absent) and through the peer window. -/
theorem wit_records : (∀ k ∈ [MemKind.load, .store, .atom .add, .red .min],
      formGoes recsT k .n32 1 (fun op => op.space == .mem && recsT.prompt
        && (match (opened recsT 1).rank6 ((opened recsT 1).trimHelpers op) with
            | .ok ts => ((opened recsT 1).rank7 ((opened recsT 1).trimHelpers op) ts).isNone
            | _ => false)) = true
      ∧ (∀ b ∈ [(2 : BufR), 4], formGoes recsT k .n32 b (fun op => (op.space == .scr || op.space == .peer)
          && ((opened recsT b).scrPoison op).isNone && (opened recsT b).allPresent op) = true
        ∧ formGoes recsA k .n32 b (fun op => (op.space == .scr || op.space == .peer)
          && ((opened recsA b).scrPoison op).isNone && !((opened recsA b).allPresent op)) = true)
      ∧ trapsAs ((opened recsB 1).recCheck { kind := k, ty := .n32, dst := 2, sels := [1, 2, 4, 6] } 0 1 1 0) tBounds = true)
    ∧ recsT.exe 2 = 0 ∧ (opened recsT 1).drained ((opened recsT 1).slotsOf ((opened recsT 1).exe 0)) = true
    ∧ (opened recsT 1).ckFull (opened recsT 1).accFn = false := by decide +kernel

/-- Registers of the lanes as word addresses. -/
def recsW : State := after (.shlImm 0 1 1 2) recsT

/-- The direct forms, `CompletionWritesDataAndReport`, `ScratchpadLoadReturnsItsBytes`, `ScratchpadStoreWritesItsBytes`. -/
theorem wit_scratchpad : RowsApart recsW ∧ (∀ k ∈ [MemKind.load, .store, .atom .add, .red .min],
      goes (recsW.scrCheck { kind := k, ty := .b32, dst := 2 } 0 1 8064) (fun op => (recsW.scrPoison op).isNone && recsW.allPresent op) = true
      ∧ trapsAs (recsW.scrCheck { kind := k, ty := .b32, dst := 2 } 0 1 8068) tBounds = true
      ∧ trapsAs (recsW.scrCheck { kind := k, ty := .b32, dst := 2 } 0 1 2) tAlign = true
      ∧ goes ((recsW.setCore { recsW.core with absent := [0] }).scrCheck { kind := k, ty := .b32, dst := 2 } 0 1 0)
          (fun op => !((recsW.setCore { recsW.core with absent := [0] }).allPresent op)) = true)
    ∧ tyRegOk recsW.wg.n .b64 254 = true ∧ wellFormed recsW.wg.n recsW.grp.lvl (.lds .b32 ⟨0, 2, 1, 8064⟩) = true
    ∧ (∀ l ∈ lanesOf (recsW.exe 0), (∀ i ∈ lanesOf (recsW.exe 0), l < i →
        (recsW.lreg i 1).toNat + 4 ≤ (recsW.lreg l 1).toNat ∨ (recsW.lreg l 1).toNat + 4 ≤ (recsW.lreg i 1).toNat)) :=
  ⟨(apart (by decide +kernel) (by decide +kernel) (by decide +kernel)).1, by decide +kernel⟩

/-- `LaneOperationsAtTheHome`, `HintsFencesAndRecordsRun`: no function checkpoints and nothing is accumulated; the home owns its line. -/
theorem wit_home : Quiet base ∧ base.assigned (4096 / 128 * 128) = true ∧ base.linePoison 32 = false := by
  refine ⟨⟨?_, ?_⟩, by decide +kernel⟩ <;> decide +kernel

/-- `StoredNumbersAndRecordsReadBack`: a canonical memory, and a record with its fields at their bounds. -/
theorem wit_stored : Memory.wf [(3, 1), (2 ^ 56 - 1, 0xFF)] = true
    ∧ (let r : BufRec := ⟨2 ^ 52 - 1, 2 ^ 24 - 1, 2 ^ 32 - 1, 7, 7, 7, true, false, true, false, true⟩
       r.base < 2 ^ 52 ∧ r.stride < 2 ^ 24 ∧ r.extent < 2 ^ 32 ∧ r.esize < 8 ∧ r.swz < 8 ∧ r.sel < 8) := by decide +kernel

/-- `WindowAccessesRun`, `AccumulatorLoadReadsAfterTheQueue`. -/
theorem wit_windows :
    (∀ k ∈ [MemKind.load, .store], ∀ b ∈ [(4 : BufR), 5],
      goes ((opened recsW b).recCheck { kind := k, ty := .b32, dst := 2, sels := [4, 5] } 0 1 b 0) (fun op =>
        (op.space == .peer && ((opened recsW b).scrPoison op).isNone && (opened recsW b).allPresent op)
        || (op.space == .map && op.items.all (fun i => (opened recsW b).mapPath (opened recsW b).accFn
              (opened recsW b).cur.h ((opened recsW b).cur.c / 8) i.addr))) = true)
    ∧ goes (recsW.accCheck { kind := .load, ty := .f32, dst := 2 } 0 1 0) (fun _ => true) = true ∧ recsW.wg.qm.accn ≤ recsW.wg.qm.donen
    ∧ (let s := withWg recsW (fun w => { w with qm := { accn := 1 } })
       goes (s.accCheck { kind := .load, ty := .f32, dst := 2 } 0 1 0) (fun _ => true) = true ∧ s.wg.qm.donen < s.wg.qm.accn) := by
  decide +kernel

/-- `HintsFencesAndRecordsRun`: a fence with nothing in flight and with a store in flight; `present` at the ends of the segment. -/
theorem wit_fence : base.fenceDone .rw (base.slotsOf (base.exe 0)) = true ∧ busy.exe 0 ≠ 0
    ∧ (∀ mode ∈ [FenceMode.rw, .w, .io], busy.fenceDone mode (busy.slotsOf (busy.exe 0)) = false) ∧ (recsW.segOf 2).valid = true
    ∧ (∀ l ∈ lanesOf (recsW.exe 0), (0 : Int) ≤ (recsW.lreg l 1).toNat + 8067 ∧ (recsW.lreg l 1).toNat + 8067 < (recsW.segOf 2).size)
    ∧ wellFormed base.wg.n base.grp.lvl (.brrd 0 252 31) = true := by decide +kernel

/-- A page table of the PF: one leaf of 2^36 bytes at address 0, readable, writable, executable and marked, of lease class 15. -/
def paged : State :=
  let s := withGrp recsT (fun g => { g with m := mset g.m 1 1 })
  { (s.setFn 0 { tren := true, root1 := 0x100000 }) with mem := writeN [] 0x100000 8 (0x1F + 15 * 2 ^ 5 + 2 ^ 31 + 2 ^ 32) }

/-- `LeaseInstructionsRun`: one lane, its page translated by a fresh walk. -/
theorem wit_lease : RowsApart paged ∧ paged.faulty (coreKey paged.cur.h paged.cur.c) = false ∧ paged.faulty (512 + paged.cur.h) = false
    ∧ goes (paged.recCheck (leaseForm 2) 1 1 1 0) (fun op => lanesOf op.live == [0] && op.items.map (fun i => i.lane) == [0]
        && op.items.all (fun i =>
          let w := (paged.uncached 0).walkFull 0 paged.accFn (i.addr / 65536 * 65536) { r := true }
          i.pass && w.bad.isEmpty && w.reads.all (fun a => paged.assigned a && paged.pathOk paged.accFn paged.cur.h 9 (paged.homeOf {} a))
            && (match w.res with
              | .ok e _ => e.cls == 15
              | _ => false))) = true
    ∧ goes ((withWg paged (fun w => { w with b := [(1, { (mget {} w.b 1 : BufRec) with extent := 0, zf := true })] })).recCheck
        (leaseForm 2) 1 1 1 0) (fun op => op.items.all (fun i => !i.pass)) = true
    ∧ wellFormed paged.wg.n paged.grp.lvl (.leaseRenew 1 254 1 1 0) = true
    ∧ ((∀ e ∈ paged.fns, e.2.ck.en = false ∧ e.2.ck.tray = [] ∧ e.2.dbmEn = false) ∧ ∀ e ∈ paged.hums, e.2.wins = []) :=
  ⟨(apart (by decide +kernel) (by decide +kernel) (by decide +kernel)).1, by decide +kernel⟩

/-- A barrier of 32 members with an arrival record for each lane. -/
def barred (b : Wbar) : State :=
  withWg (base.setCore { base.core with wbars := [(0, b)] })
    (fun w => { w with arr := (List.range 32).map (fun l => (l, { memb := 1, mark := 0xFFFFFF })) })

/-- `BarrierInstructionsRun`: undeclared, broken, with accesses in flight, ready for arrivals, dormant, waiting, and PENDING at its
bound and past it. -/
theorem wit_barriers :
    (let s := base; s.exe 0 ≠ 0 ∧ (s.bar 0).valid = false)
    ∧ (let s := barred { valid := true, members := 32, broken := true }; s.exe 0 ≠ 0 ∧ (s.bar 0).valid = true ∧ (s.bar 0).broken = true)
    ∧ (let s := barred { valid := true, members := 32 }
       s.exe 0 ≠ 0 ∧ (s.bar 0).valid = true ∧ (s.bar 0).broken = false ∧ s.drained (s.slotsOf (s.exe 0)) = true
       ∧ (∀ l ∈ lanesOf (s.exe 0), s.mustHold 0 l = false) ∧ (s.bar 0).dormant = false
       ∧ (∀ l ∈ lanesOf (s.exe 0), (s.arrOf l).isMember 0 = true ∧ (s.arrOf l).arrivedAt 0 (s.bar 0).phcnt = false)
       ∧ (s.bar 0).pending + (lanesOf (s.exe 0)).foldl (fun x l => x + (s.lreg l 0).toNat) 0 ≤ 2 ^ 47 - 1)
    ∧ (let s := (barred { valid := true, members := 32 }).setCore { (barred { valid := true, members := 32 }).core with
        reqs := [{ slots := [0], kind := .store }] }
       s.drained (s.slotsOf (s.exe 0)) = false)
    ∧ ((barred { valid := true, dormant := true }).bar 0).dormant = true
    ∧ (let s := barred { valid := true, members := 32, phcnt := 5 }
       (1 ≤ ((s.bar 0).phcnt - s.lreg 0 0).toNat ∧ ((s.bar 0).phcnt - s.lreg 0 0).toNat ≤ 2 ^ 31)
       ∧ ∃ l ∈ lanesOf (s.exe 0), ¬ 1 ≤ ((s.bar 0).phcnt - ((s.setLreg 3 1 5).lreg l 1)).toNat ∨ (s.setLreg 3 1 5).lreg l 1 = 5)
    ∧ (let s := (barred { valid := true, members := 32, pending := 2 ^ 47 - 1 }).setLreg 31 1 1
       2 ^ 47 - 1 < (s.bar 0).pending + (lanesOf (s.exe 0)).foldl (fun x l => x + (s.lreg l 1).toNat) 0) := by
  decide +kernel

/-- A workgroup with a channel end. -/
def channelled (q : Chan) : State := withWg base (fun w => { w with chans := [(15, q)], num := 7 })

/-- `ConvergenceAndChannelInstructionsRun`: sizes at their bounds, an unsigned and a signed register; a send with room, without, to an
ended workgroup; a receive with a full slot, without, from an ended workgroup. -/
theorem wit_converge : RowsApart base ∧ base.exe 0 ≠ 0 ∧ (1024 : BitVec 11).toNat = 1024 ∧ ((mget {} base.wg.cvs 7 : Cv)).signed = 0
    ∧ (withWg base (fun w => { w with cvs := [(7, { size := 32, signed := 31 })] })).wg.cvs = [(7, { size := 32, signed := 31 })]
    ∧ ([Instr.cvq 0 254 7, .chq 0 255 15, .recv 0 255 15].all (fun i => wellFormed base.wg.n base.grp.lvl i)) = true
    ∧ (let s := channelled { snd := true, slots := 64, full := 63, peer := 7 }
       (s.chan 15).snd = true ∧ s.exe 0 ≠ 0 ∧ (s.chan 15).peerEnded = false ∧ s.drained (s.slotsOf (s.exe 0)) = true
       ∧ (s.chan 15).full < (s.chan 15).slots ∧ s.findWg s.wg.launch (s.chan 15).peer = some {} ∧ (s.chan 15).rcv = false)
    ∧ (let s := channelled { snd := true, slots := 64, full := 64, peer := 7 }; s.canSend 15 (s.slotsOf (s.exe 0)) = false)
    ∧ (channelled { snd := true, peerEnded := true }).chan 15 = { snd := true, peerEnded := true }
    ∧ (let s := channelled { rcv := true, slots := 4, full := 1, head := 3, line0 := 8 }
       (s.chan 15).rcv = true ∧ (s.chan 15).full ≠ 0 ∧ s.exe 0 ≠ 0 ∧ (s.chan 15).snd = false)
    ∧ (let s := channelled { rcv := true, slots := 4 }; (s.chan 15).full = 0 ∧ (s.chan 15).peerEnded = false) :=
  ⟨base_apart.1, by decide +kernel⟩

/-- Records of 128-byte rows for copies, in memory (b3) and with 2 KiB rows for matrix panels (b6, b7, b8). -/
def copying : State :=
  let r := fun (base stride extent esize sel : Nat) => (⟨base, stride, extent, esize, 0, sel, true, true, true, true, true⟩ : BufRec)
  let s := withWg recs (fun w => { w with b := [(3, r 4096 128 64 2 1), (6, r 0 256 4096 1 1), (7, r 0 256 128 1 1), (8, r 0 512 4096 2 1)] })
  regs s [(0, 4, 8), (0, 5, 0), (0, 6, 4 + 65536), (0, 7, 0), (0, 8, 63), (0, 9, 64), (0, 12, 4 + 65536 * 4), (0, 20, 8), (0, 21, 1 + 65536),
    (0, 22, 16 + 65536), (0, 23, 16)]

/-- The record of the copies, their descriptor and an operation of queue 3. -/
def copyJob (opc : Nat) (kind : CopyKind) (d : TileDesc) : CopyJob :=
  { copying.newJob opc 0 3 63 with kind := kind, desc := d, mrec := mget {} copying.wg.b 3 }

/-- A descriptor of the row forms and of the pack forms. -/
def dRows : Nat × Nat × Nat × Nat := copying.descRegs 0 4
def dPack : Nat × Nat × Nat × Nat := copying.descRegs 0 20

/-- `CopyInstructionsRun`: each tile form passes its checks and there is room; an undeclared barrier fails one. -/
theorem wit_tiles :
    copying.tileCheck (copyJob 0x64 (.tile false false .b32 .b32 0 false false) (descTcopy dRows.1 dRows.2.1 dRows.2.2.1 dRows.2.2.2))
        false (descTcopyOk false dRows.2.1 dRows.2.2.1 dRows.2.2.2) = none
    ∧ copying.tileCheck (copyJob 0x65 (.gather (copying.indices 0 8) .b32 0) (descRows dRows.1 dRows.2.1 dRows.2.2.1 dRows.2.2.2))
        false (descRowsOk dRows.1 dRows.2.1 dRows.2.2.1 dRows.2.2.2) = none
    ∧ copying.tileCheck (copyJob 0x66 (.scatter (copying.indices 0 8) .b32) (descRows dRows.1 dRows.2.1 dRows.2.2.1 dRows.2.2.2))
        true (descRowsOk dRows.1 dRows.2.1 dRows.2.2.1 dRows.2.2.2) = none
    ∧ copying.tileCheck (copyJob 0x67 (.pack 1 .b32 0) (descPack dPack.1 dPack.2.1 dPack.2.2.1 dPack.2.2.2))
        true (descPackOk 32 dPack.2.1 dPack.2.2.1 dPack.2.2.2) = none
    ∧ copying.tileCheck (copyJob 0x68 (.unpack 1 .b32) (descPack dPack.1 dPack.2.1 dPack.2.2.1 dPack.2.2.2))
        false (descPackOk 32 dPack.2.1 dPack.2.2.1 dPack.2.2.2) = none
    ∧ copying.tileCheck { copyJob 0x64 (.tile false false .b32 .b32 0 false false) {} with bar := 15 } false true = some (tBarUse, 0)
    ∧ copying.mayAccept [copyJob 0x65 (.gather [] .b32 0) {}] = true
    ∧ (withWg copying (fun w => { w with qs := [(3, { outst := 64 })] })).mayAccept [copyJob 0x65 (.gather [] .b32 0) {}] = false
    ∧ copying.exe 0 ≠ 0 ∧ copying.exe 2 = 0 := by decide +kernel

/-- `CopyInstructionsRun`: lane copies of 4, 8 and 16 bytes within the record and the scratchpad; none without a segment. -/
theorem wit_lane_copies :
    (∀ w ∈ [4, 8, 16], ∀ l ∈ lanesOf (copying.exe 0),
      let r : BufRec := mget {} copying.wg.b 3
      let off : Int := (((copying.lreg l 1).toNat * r.stride : Nat) : Int) + 112
      r.inb off w = true ∧ copying.copyFits r.sel (r.segOff off) = true ∧ copying.copyFits r.sel (r.segOff off + w - 1) = true
      ∧ ((copying.segOf r.sel).base + r.segOff off) % w = 0 ∧ (copying.lreg l 2).toNat + w ≤ (copying.segOf 2).size
      ∧ (copying.lreg l 2).toNat % w = 0)
    ∧ copying.copyRec (mget {} copying.wg.b 3) false = true ∧ copying.copyScr true = true ∧ copying.barMissing 63 = false
    ∧ copying.barMissing 15 = true ∧ base.copyRec (mget {} base.wg.b 3) false = false
    ∧ (∀ x ∈ copying.core.coal, x.group ≠ copying.cur.g)
    ∧ (∃ x ∈ (copying.setCore { copying.core with coal := [{ group := 0 }] }).core.coal, x.group = copying.cur.g) := by
  decide +kernel

/-- `CopyInstructionsRun`: model data at the end of its record, a fill of the segment's last line, and a queue with and without work. -/
theorem wit_model_data : RowsApart copying ∧ copying.wg.holds = true
    ∧ (let r : BufRec := mget {} copying.wg.b 3
       63 * r.stride + 128 ≤ r.stride * r.extent ∧ copying.copyFits r.sel ((r.base + 63 * r.stride) % 2 ^ 64) = true
       ∧ copying.copyFits r.sel ((r.base + (63 * r.stride + 127)) % 2 ^ 64) = true)
    ∧ ((copying.lreg 0 8).toNat + 1) * 128 ≤ (copying.segOf 2).size
    ∧ copying.queueDone 0 0 0 3 0 = true
    ∧ (copying.setHum 0 { enl := [(0, copyJob 0x65 (.gather [] .b32 0) {})] }).queueDone 0 0 0 3 1 = false
    ∧ wellFormed copying.wg.n copying.grp.lvl (.qwait 0 254 3) = true :=
  ⟨(apart (by decide +kernel) (by decide +kernel) (by decide +kernel)).1, by decide +kernel⟩

/-- `MatrixInstructionsRun`: a signature in each of its states. -/
theorem wit_sign :
    (let s := withWg copying (fun w => { w with cvs := [(7, { size := 64, signed := 32, opnds := [1] })] })
     let x : Cv := mget {} s.wg.cvs 7
     s.exe 0 ≠ 0 ∧ s.wg.qm.fail = false ∧ s.wg.holds = true ∧ x.size ≠ 0 ∧ x.signed + (lanesOf (s.exe 0)).length = x.size
     ∧ x.opnds = [1] ∧ x.signed ≠ 0 ∧ s.wg.qm.outst < 64 ∧ s.drained (s.slotsOf (s.exe 0)) = true)
    ∧ (let s := withWg copying (fun w => { w with cvs := [(7, { size := 64 })] })
       let x : Cv := mget {} s.wg.cvs 7
       x.signed = 0 ∧ x.signed + (lanesOf (s.exe 0)).length < x.size)
    ∧ (mget {} copying.wg.cvs 7 : Cv).size = 0 ∧ base.wg.holds = false
    ∧ (withWg base (fun w => { w with qm := { fail := true } })).wg.qm.fail = true := by decide +kernel

/-- The bytes of consecutive rows of an unswizzled record lie below its end. -/
theorem rows_within (r : BufRec) (size rows n : Nat) (h0 : r.swz = 0) (h1 : r.base + rows * r.stride ≤ size) (h2 : size ≤ 2 ^ 64)
    (h3 : n ≤ r.stride) : ∀ i q, i < rows → q < n → r.atOff (i * r.stride + q) < size := by
  intro i q hi hq
  have h4 : (i + 1) * r.stride ≤ rows * r.stride := Nat.mul_le_mul_right _ hi
  have h5 : (i + 1) * r.stride = i * r.stride + r.stride := Nat.succ_mul _ _
  have h6 : i * r.stride + q < 2 ^ 64 := by omega
  have h7 : (((i * r.stride + q : Nat) : Int) % ((2 ^ 64 : Nat) : Int)).toNat = i * r.stride + q := by
    generalize i * r.stride + q = o at h6
    omega
  simp only [BufRec.atOff, BufRec.segOff, h0, h7, swzOff]
  exact Nat.lt_of_le_of_lt (Nat.mod_le _ _) (by omega)

/-- `MatrixInstructionsRun`: the rows of the records of `mtile` lie within their segments. -/
theorem wit_mtile_rows :
    (∀ i q, i < 4096 → q < 256 → (mget {} copying.wg.b 6 : BufRec).atOff (i * (mget {} copying.wg.b 6 : BufRec).stride + q)
      < (copying.segOf (mget {} copying.wg.b 6 : BufRec).sel).size)
    ∧ (∀ i q, i < 128 → q < 256 → (mget {} copying.wg.b 7 : BufRec).atOff (i * (mget {} copying.wg.b 7 : BufRec).stride + q)
      < (copying.segOf (mget {} copying.wg.b 7 : BufRec).sel).size)
    ∧ (∀ i q, i < 4096 → q < 512 → (mget {} copying.wg.b 8 : BufRec).atOff (i * (mget {} copying.wg.b 8 : BufRec).stride + q)
      < (copying.segOf (mget {} copying.wg.b 8 : BufRec).sel).size) :=
  ⟨rows_within _ _ _ _ (by decide +kernel) (by decide +kernel) (by decide +kernel) (by decide +kernel),
   rows_within _ _ _ _ (by decide +kernel) (by decide +kernel) (by decide +kernel) (by decide +kernel),
   rows_within _ _ _ _ (by decide +kernel) (by decide +kernel) (by decide +kernel) (by decide +kernel)⟩

/-- `MatrixInstructionsRun`: a legal pair and descriptors of `mld.st`, `mstream` (sparse and scaled), the accumulator moves and `mtile`,
with fields at their bounds. -/
theorem wit_matrix :
    (matPair .bf16 .bf16).isSome = true ∧ comboOk .e4m3 .e2m1 true true = true
    ∧ (let s := withGrp copying (fun g => { g with segs := mset g.segs 2 { limit := 393216, r := true, w := true, valid := true } })
       (tileLine 0 0 (pairKp .bf16 .bf16 * tyWidth .bf16 / 1024) 127 (pairKp .bf16 .bf16 * tyWidth .bf16 / 1024 - 1) + 1) * 128 ≤ s.scrSize
       ∧ (tileLine 0 16 (pairKl .e4m3 .e2m1 true * tyWidth .e4m3 / 1024) (0 + 128 - 1) (pairKl .e4m3 .e2m1 true * tyWidth .e4m3 / 1024 - 1) + 1) * 128
          ≤ s.scrSize
       ∧ 1024 * 128 + (0 + 128) * (pairKl .e4m3 .e2m1 true / 32) ≤ s.scrSize
       ∧ (1 + pairKp .e4m3 .e2m1 / 128 ≤ 4 ∧ (3 < 1 ∨ 1 + pairKp .e4m3 .e2m1 / 128 ≤ 3))
       ∧ (tileLine 0 0 4 (128 - 1) 3 + 1) * 128 ≤ s.scrSize
       ∧ (16 + 640) * 128 ≤ s.scrSize
       ∧ s.mtileRec (mget {} s.wg.b 6) true false (copySize .bf16) = true ∧ s.mtileRec (mget {} s.wg.b 7) true false (copySize .bf16) = true
       ∧ s.mtileRec (mget {} s.wg.b 8) true true 2 = true
       ∧ (1 * pairKp .bf16 .bf16 * tyWidth .bf16 / 8 ≤ (mget {} s.wg.b 6 : BufRec).stride ∧ 512 ≤ (mget {} s.wg.b 8 : BufRec).stride
          ∧ 4096 ≤ (mget {} s.wg.b 6 : BufRec).extent ∧ 128 ≤ (mget {} s.wg.b 7 : BufRec).extent
          ∧ 1 * pairKp .bf16 .bf16 * tyWidth .bf16 / 8 ≤ (mget {} s.wg.b 7 : BufRec).stride ∧ 4096 ≤ (mget {} s.wg.b 8 : BufRec).extent)
       ∧ comboOk .bf16 .bf16 false false = true)
    ∧ wellFormed copying.wg.n copying.grp.lvl (.mstat 0 254 3) = true := by decide +kernel

/-- `SystemRegisterInstructionsRun`: levels, a saved set, and the functions that may and may not ask for a checkpoint. -/
theorem wit_system : RowsApart base ∧ base.exe 0 ≠ 0 ∧ recs.exe 2 = 0 ∧ base.grp.lvl = .hypervisor ∧ userGroup.grp.lvl = .user
    ∧ (after (.trap .always 1) userGroup).grp.lvl = .supervisor ∧ (after (.trap .always 1) userGroup).grp.saved.length = 1
    ∧ base.wg.fn = 0
    ∧ (let s := userGroup.setFn 3 { ck := { en := true } }
       s.wg.fn ≠ 0 ∧ (s.fnAt s.wg.fn).ck.en = true ∧ (s.fnAt s.wg.fn).ck.early = none ∧ s.pkg.epoch ≤ s.chipTime + 2000)
    ∧ (mfind base.launches (base.rootLaunch 0)).isSome = true
    ∧ ([Instr.segRd 0 252 5, .sysRd 0 254 0x0B1, .ckptQ 0 252].all (fun i => wellFormed base.wg.n base.grp.lvl i)) = true :=
  ⟨base_apart.1, by decide +kernel⟩

/-- `QueryAndSpanInstructionsRun`: `vfsel` within and past its bound and of a function without a sedge; queries; spans; a scrub refused
and started; `tok.rd` within, past, misaligned, and with its place absent. -/
theorem wit_queries : RowsApart paged ∧ paged.exe 1 ≠ 0
    ∧ ((63 : Word).toNat ≤ 63 ∧ ∀ h, h < 8 → base.inPartition h 63 = false)
    ∧ (let s := base.setHum 7 { regs := { part := [(63, { sedge := 0x80, en := true })] } }; s.inPartition 7 63 = true)
    ∧ ([Instr.tlbProbe 1 252 0, .walkQ 1 252 0 63 true, .partQ 1 252 0, .scrub 1 252 254, .tokRd 1 255 0 0].all
        (fun i => wellFormed paged.wg.n paged.grp.lvl i)) = true
    ∧ base.pkg.vfen = false ∧ (let s : State := { base with pkg := { base.pkg with vfen := true, numvfs := 63 } }; s.pkg.numvfs = 63)
    ∧ (∀ l ∈ lanesOf (paged.live 1), (paged.walkQuery 0 false (paged.pairVa 0 l)).1 ≠ none
        ∧ ((paged.uncached 0).walkFull 0 0 (paged.pairVa 0 l) {}).bad = [])
    ∧ (let s := { paged with mem := writeN [] 0x100000 8 (0x1F + 2 ^ 30) }
       ∃ l ∈ lanesOf (s.live 1), (s.walkQuery 0 false (s.pairVa 0 l)).1 = none)
    ∧ (∀ t ∈ recs.core.tlb ++ recs.hum.tlb, t.serves recs.accFn 65536 recs.chipTime = false) :=
  ⟨(apart (by decide +kernel) (by decide +kernel) (by decide +kernel)).1, by decide +kernel⟩

/-- A span of the last lines of a record. -/
def spanOk (s : State) (sels : List Nat) (buf : BufR) (i w n : Nat) : Bool :=
  match (opened s buf).spanCheck sels buf i w n with
  | .go sel x addr =>
    sel == 2 || (match (opened s buf).rank6 (spanOp 0 sel x addr (List.replicate (w * n) 0)) with
      | .ok _ => true
      | _ => false)
  | .trap _ _ => false

/-- `QueryAndSpanInstructionsRun`: `l2op`, `snap`, `scrub` and `tok.rd`. -/
theorem wit_spans :
    spanOk copying [1, 6] 3 63 128 1 = true ∧ spanOk copying [1, 6] 3 63 128 2 = false
    ∧ copying.prompt = true ∧ copying.ckRoom copying.accFn (8 * (16 * 64)) = true
    ∧ copying.snapTrap 0 4 0 = none ∧ copying.snapTrap 0 0 0 = some tBounds
    ∧ spanOk recs [1, 2, 6, 7] 2 0 8 (sheetSize 32 / 8) = true
    ∧ copying.scrubStatus (ScrubDesc.of [1 + 0x7F * 256, 0x01, 0, 0]) ≠ 0
    ∧ (let s := base.setHum 0 { regs := { part := [(0, { sedge := 0xFE, en := true })] } }
       s.scrubStatus (ScrubDesc.of [1 + 0x40 * 256 + 3 * 65536, 1, 0, 0]) = 0)
    ∧ ((recs.segOf 2).valid = true ∧ (recs.segOf 2).w = true ∧ (recs.segOf 2).size = 8192)
    ∧ recs.tokenReady (8192 - 256) = true ∧ (recs.setCore { recs.core with absent := [63] }).tokenReady (8192 - 256) = false := by
  decide +kernel

/-- `WaitsEndWhenTheirConditionsHold`: a group may wait for anything. -/
theorem wit_waits (w : Wait) : ((withGrp base (fun g => { g with wait := w })).at_ {}).grp.wait = w := by
  have h : (withGrp base (fun g => { g with wait := w })).at_ {} = withGrp base (fun g => { g with wait := w }) := rfl
  rw [h, withGrp, State.grp_setGrp]

/-- `WaitsEndWhenTheirConditionsHold`: two of its conditions, met and not met. -/
theorem wit_wait_conditions : base.cycles 0 + 16 ≤ ({ base with uc := 32 } : State).cycles 0 ∧ ¬ base.cycles 0 + 16 ≤ base.cycles 0
    ∧ (mfind base.core.groups 0).isSome = true ∧ (base.humAt 0).pending.length < 256 := by decide +kernel

/-- A core of hummock 0 with a workgroup of 33 threads in a bin, a channel end, an L1 copy and a barrier at its count. -/
def working : State :=
  let ts := (List.range 33).map (fun i => (64 + i, ({ tidx := i, state := 2 } : Slot)))
  let k : Core := { base.core with
    slots := base.core.slots ++ ts, bins := [(0, { threads := ts.map Prod.fst })], l1 := [(5, {})]
    wbars := [(15, { valid := true, members := 1, arrived := 1, name := 15 })]
    wgs := [(0, { base.wg with chans := [(2, { rcv := true, freed := 1, peer := 0 }), (3, { snd := true })] })] }
  { base.setCore k with
    hums := [(0, { ctxs := [(0, 9)], lbars := [(3, { valid := true, members := 2, root := false })] }),
             (1, { ctxs := [(15, 9)], lbars := [(63, { valid := true, members := 2 })] })]
    launches := [(9, { rect := [1, 0], root := 1, phase := .running })]
    cards := [{ seq := none }, { seq := some 1 }] }

/-- `CoreEventsAct`: the state that each of its clauses asks for. -/
theorem wit_core_events :
    (let x := working.barView 0 0 0 15; x.valid && !x.dormant && decide (x.members ≤ x.arrived) && x.pending == 0) = true
    ∧ working.lctxOf 0 9 = some 0 ∧ working.lctxOf (working.launchAt 9).root 9 = some 15
    ∧ (mget {} (working.humAt 0).lbars 3 : Gbar).valid = true ∧ (mget {} (working.humAt 1).lbars 63 : Gbar).valid = true
    ∧ 0 ∈ (working.launchAt 9).rect ∧ 0 ≠ (working.launchAt 9).root ∧ 2 ∉ (working.launchAt 9).rect
    ∧ (let v : Wg := mget {} (working.coreAt 0 0).wgs 0
       let a : Chan := mget {} v.chans 2
       let b : Chan := mget {} v.chans 3
       a.rcv = true ∧ a.freed ≠ 0 ∧ b.rcv = false)
    ∧ (let k := working.coreAt 0 0
       k.drawPipe.isSome = true ∧ (k.drawBin (working.cycles 0)).isSome = true
       ∧ ((List.range 64).find? (fun a => (mfind k.groups a).isNone)).isSome = true)
    ∧ (base.coreAt 0 0).drawBin (base.cycles 0) = none
    ∧ working.cards[0]? = some { seq := none } ∧ (working.fnAt 0).ck.out_ = false ∧ working.cards[1]? = some { seq := some 1 }
    ∧ working.cards[2]? = none ∧ (mfind (working.coreAt 0 0).l1 5).isSome = true ∧ mfind (working.coreAt 0 0).l1 6 = none := by
  decide +kernel

/-- Walks of hummock 0: one in progress for a page, one that waits for an exchange, one that was replied to. -/
def walking : State :=
  let w : Walk := { fn := 0, va := 0x5000 }
  let d : Hum := {
    walks := [w, { w with swapAt := some 0 }, { w with swapAt := some 2000 }], pending := [w]
    replies := [{ w with tag := some (1, 2 ^ 32 - 1) }]
    enl := [(7, { tlb := [{ fn := 0, va := 0, size := 65536, read := 0, expiry := 100, r := true }] })]
    wins := [(64, {})] }
  let s : State := { paged with
    hums := [(0, d)], travel := [{ addr := 64 }, { addr := 64 }], swaps := [{ until_ := 0 }, { until_ := 10 ^ 9 }] }
  s.setFn 0 { s.fnAt 0 with tags := [(1, 2 ^ 32 - 1)], prq := { size := 1, tail := 1 } }

/-- `WalkAndHomeEventsAct`: walks that end with a translation, a retry and a denial; replies; renewals; exchanges; requests. -/
theorem wit_walk_events :
    (walking.humAt 0).nextWalk = some 0 ∧ (walking.humAt 0).walks[3]? = none ∧ walking.faulty 512 = false
    ∧ (∀ k, k < 3 → ((walking.humAt 0).walks[k]?).isSome = true)
    ∧ (match ((walking.setHum 0 { walking.humAt 0 with walks := [] }).walkFull 0 0 0x5000 {}).res with
       | .ok _ _ => true
       | _ => false) = true
    ∧ (match (({ walking with mem := writeN [] 0x100000 8 (0x1F + 2 ^ 30) } : State).walkFull 0 0 0x5000 {}).res with
       | .swap => true
       | _ => false) = true
    ∧ (match (({ walking with mem := [] } : State).walkFull 0 0 0x5000 {}).res with
       | .fail st _ _ _ _ => st == 1
       | _ => false) = true
    ∧ (1, (2 ^ 32 - 1) % 2 ^ 32) ∈ (walking.fnAt 0).tags ∧ (walking.findReply 0 1 (2 ^ 32 - 1)).isSome = true
    ∧ (1, 5 % 2 ^ 32) ∉ (walking.fnAt 0).tags
    ∧ 5 < (walking.fnAt 0).prq.count 5 ∧ (walking.fnAt 0).prq.count 5 ≤ 2 ^ 32 ∧ (walking.fnAt 0).prq.held = []
    ∧ (mfind (walking.humAt 0).enl 7).any (fun x => x.tlb.length == 1 && x.tlb.all (fun t => decide (walking.chipTime < t.expiry)
        && !decide (4 * (t.expiry - walking.chipTime) < t.expiry - t.read))) = true
    ∧ ((walking.uncached 0).leafOf 0 0 0x5000).any (fun p =>
        !p.1.swap && walking.swapOk p.1 p.2 (2 ^ 21) 0 && !(walking.swapOk p.1 p.2 (2 ^ 21) 1)) = true
    ∧ (({ walking with mem := [] } : State).uncached 0).leafOf 0 0 0x5000 = none
    ∧ (walking.swaps[0]?).any (fun w => decide (w.until_ ≤ walking.chipTime) && decide (w.tier < 2) && decide (w.cls < 16)
        && !(walking.acceptedIn w.from_ w.size) && walking.swappable w.from_ w.size && walking.swappable w.to_ w.size) = true
    ∧ (walking.swaps[1]?).any (fun w => decide (walking.chipTime < w.until_)) = true ∧ walking.swaps[2]? = none
    ∧ walking.travel[0]? = some { addr := 64 } ∧ walking.travel[1]? = some { addr := 64 }
    ∧ (mfind (walking.humAt 0).wins 64).isSome = true ∧ mfind (walking.humAt 0).wins 0 = none := by
  decide +kernel

/-- A renewal that is due, with its fresh walk; requests before and after their leases end, and one that was accepted. -/
theorem wit_renewal :
    (let t : Tlb := { fn := 0, va := 0, read := 0, expiry := 1000, r := true }
     let x : CopyJob := { tlb := [t] }
     let s : State := { walking with pkg := { walking.pkg with chip := 900 } }
     let need : Need := { r := !x.kind.writesMem, w := x.kind.writesMem }
     s.chipTime < t.expiry ∧ 4 * (t.expiry - s.chipTime) < t.expiry - t.read
     ∧ (match (s.walkFull 0 t.fn t.va need).res with
        | .ok _ _ => true
        | _ => false) = true
     ∧ s.walkLost 0 t.fn (s.unitLaunch 0 0) (s.walkFull 0 t.fn t.va need).reads = false
     ∧ (match (({ s with mem := [] } : State).walkFull 0 t.fn t.va need).res with
        | .ok _ _ => false
        | _ => true) = true
     ∧ (let s : State := { s with mem := [] }
        s.walkLost 0 t.fn (s.unitLaunch 0 0) (s.walkFull 0 t.fn t.va need).reads = false))
    ∧ (let s := base.setCore { base.core with reqs := [{ expiry := 100, line := 2 ^ 47 },
        { expiry := 0, va := 128, line := 1 }, { acc := 1, line := 2, va := 256 }] }
       let rs := (s.coreAt 0 0).reqs
       (rs[0]?).any (fun r => r.acc == 0 && s.acceptable rs 0 r && decide (s.chipTime < r.expiry)
          && (s.arbitrate r).1.through (s.arbitrate r).2) = true
       ∧ (rs[1]?).any (fun r => r.acc == 0 && s.acceptable rs 1 r && decide (r.expiry ≤ s.chipTime)) = true
       ∧ (s.humAt 0).pending.length < 256
       ∧ (rs[2]?).any (fun r => r.acc != 0 && s.performable rs 2 r) = true ∧ rs[3]? = none) := by
  decide +kernel

/-- A row gather accepted by the Enlarger, its page not yet translated, then translated. -/
def enlarging : State :=
  let j := { copyJob 0x65 (.gather [0, 1] .b32 0) (descRows dRows.1 dRows.2.1 dRows.2.2.1 dRows.2.2.2) with user := false }
  match execCopyAccept 0 0 0 (withGrp copying (fun g => { g with wait := .copies [j] })) with
  | .next t => t
  | _ => copying

/-- `CopyAndMatrixEventsAct`: an operation with a unit to do, one without, a fence, and operations at the head of qm. -/
theorem wit_copy_events :
    (match (enlarging.humAt 0).enl with
     | [] => false
     | (_, j) :: _ =>
       let bs := enlarging.unitMem 0 j (j.todo.headD 0)
       let i := { j with tlb := enlarging.core.tlb }
       !j.todo.isEmpty && !j.isFence && (enlarging.fnAt j.fn).ck.state == .run && !(enlarging.unitBlocked 0 j (j.todo.headD 0))
         && !(enlarging.unitUndeclared 0 j bs) && (enlarging.unitMissing j bs).isSome && (enlarging.unitMissing i bs).isNone
         && enlarging.unitPath 0 i bs && !(enlarging.unitHeld 0 i bs)) = true
    ∧ (base.setHum 0 { enl := [(0, { kind := .fence 1 })] }).queueDone 0 0 0 0 0 = true
    ∧ mfind (base.humAt 0).enl 0 = none
    ∧ (let s := base.setCore { base.core with engine := { holder := some 0, queue := [{ kind := .accZ 0 }], state := 1 } }
       (s.coreAt 0 0).engine.queue ≠ [] ∧ (s.coreAt 0 0).engine.holder = some 0
       ∧ ((s.coreAt 0 0).status == .running && (s.fnAt 0).ck.state == .run) = true)
    ∧ base.core.engine.holder = none ∧ ({ kind := .fence 1 } : MatOp).isFence = true ∧ ({ kind := .accZ 0 } : MatOp).isFence = false := by
  decide +kernel

/-- A package in service whose PF has the page table of `paged`, with launches at each step and queues of hummock 0. -/
def launching : State :=
  let q : HwQueue := { en := true, tail := 1, base := 0x4000 }
  let l : Launch := {}
  { paged with
    pkg := { paged.pkg with up := true, domrdy := true, measured := true }
    hums := [(0, { queues := [(0, q), (1, { q with tail := 0 }), (2, { en := true, cardq := true }), (3, { en := true, cardq := true })] })]
    cards := [{ hum := 0, queue := 2, seq := some 1 }]
    launches := [(1, l), (2, { l with kernel := { rectW := 9 } }), (3, { l with cardq := 5 }), (4, { l with phase := .routes }),
      (5, { l with phase := .routes, reloads := 1 }), (6, { l with phase := .resident, rect := [0] }),
      (7, { l with phase := .resident, rect := [0], kernel := { ranges := [(0, 1, 2 ^ 40, 8, 8)] } }),
      (8, { l with phase := .place, rect := [0] }), (9, { l with phase := .setup, rect := [0], fresh := [{}], wgs := [{}] }),
      (10, { l with phase := .token }), (11, { l with phase := .running, rect := [0] })] }

/-- What a device unit got. -/
def gotOk {α : Type} (r : Got α) (p : α → Bool) : Bool :=
  match r with
  | .ok x => p x
  | _ => false
def gotNone {α : Type} (r : Got α) : Bool :=
  match r with
  | .none => true
  | _ => false
def gotHold {α : Type} (r : Got α) : Bool :=
  match r with
  | .hold => true
  | _ => false

/-- `LaunchEventsAct`: its clauses' conditions, each met by one of these launches or queues. -/
theorem wit_launch_events :
    (let s := launching
     let y := fun (q : Nat) => (mget {} (s.humAt 0).queues q : HwQueue)
     let go := fun (q : Nat) => (y q).en && !(y q).cardq && (y q).busy.isNone && (y q).head != (y q).tail && s.mayDispatch (y q).fn
     s.mayDispatch 0 = true ∧ go 0 = true ∧ go 1 = false ∧ gotOk (s.devRead 0 0 0x4000 64).2 (fun bs => bs.length == 64 && !recordOk bs) = true
     ∧ gotNone (({ s with mem := [] } : State).devRead 0 0 0x4000 64).2 = true
     ∧ gotHold (({ s with mem := writeN [] 0x100000 8 (0x1F + 2 ^ 30) } : State).devRead 0 0 0x4000 64).2 = true
     ∧ s.candidates (s.launchAt 1) ≠ [] ∧ s.candidates (s.launchAt 2) = []
     ∧ ((s.candidates (s.launchAt 1)).find? (fun hs => hs.all (s.hasRoom 1))).isSome = true
     ∧ ((s.candidates (s.launchAt 3)).find? (fun hs => hs.all (s.hasRoom 3))).any (fun hs => !(hs.all (s.cardQueueOk 0 5))) = true
     ∧ (s.launchAt 4).reloads = 0 ∧ (s.launchAt 5).reloads ≠ 0
     ∧ (s.reside 0 0 6 (s.launchAt 6).kernel.ranges []).ok = true ∧ (s.reside 0 0 7 (s.launchAt 7).kernel.ranges []).ok = false
     ∧ ((List.range 1).findSome? (fun i => (s.spotOn 8 (s.launchAt 8) ((s.launchAt 8).order.getD i 0)).map (fun p => (i, p)))).any
         (fun p => p.2.isSome) = true
     ∧ ((s.launchAt 9).phase == .setup && s.mayDispatch 0) = true ∧ (s.launchAt 10).phase = .token
     ∧ (s.nextCard 0 2).isSome = true ∧ s.nextCard 0 3 = none
     ∧ (s.launchAt 11).wgs.isEmpty = true)
    ∧ (let s := base.setCore { base.core with wgs := [(0, { base.wg with ended := true })] }
       (mfind (s.coreAt 0 0).wgs 0).any (fun v => v.ended) = true ∧ s.workDone 0 0 0 = true ∧ mfind (s.coreAt 0 0).wgs 1 = none)
    ∧ mfind base.launches 1 = none := by
  decide +kernel

/-- Function 3 with checkpoints, in each of its states, with a tray of a card and an image of one byte at 64 KiB. -/
def tracked (st : CkState) (out_ : Bool) (tray : List TrayItem) : State :=
  { userGroup.setFn 3 { ck := {
      en := true, state := st, out_ := out_, tray := tray, seq := 4, imgBase := 0x10000, image := some { sheet := [(0, 7)], size := 1 } } }
    with mem := [(0x10000, 7)] }

/-- `CheckpointAndChipletEventsAct`. -/
theorem wit_checkpoint_events :
    (∀ i ∈ ((tracked .commit false [.card {}]).fnAt 3).ck.tray, ∃ d, i = .card d)
    ∧ (((tracked .run false []).fnAt 3).ck.en = true ∧ 4 ≤ ((tracked .run false []).fnAt 3).ck.seq ∧ ((tracked .run false []).fnAt 3).ck.state = .run
      ∧ ((tracked .drain false []).fnAt 3).ck.state ≠ .run ∧ ((tracked .run true []).fnAt 3).ck.out_ = true
      ∧ ((tracked .commit false []).fnAt 3).ck.state = .commit ∧ ((tracked .commit false []).fnAt 3).ck.tray = []
      ∧ ((tracked .commit false []).fnAt 3).ck.msgs = [] ∧ ((tracked .commit false []).fnAt 3).ck.heldMsgs = [])
    ∧ (base.fnAt 3).ck.en = false
    ∧ (let s := (tracked .run true []).setFn 5 { rstBase := 0x10000 }
       (s.fnAt 5).rstStat ≠ 1 ∧ s.hasWork 5 = false ∧ s.imageOwner 5 0x10000 = some 3 ∧ s.imageOwner 5 0x20000 = none
       ∧ (s.shape 5 (((s.fnAt 3).ck.image).getD {})).isSome = true ∧ s.areasFit 5 (((s.fnAt 3).ck.image).getD {}) = true
       ∧ s.areasFit 5 { logSz := 15 } = false ∧ s.shape 5 { hums := [(0, { x := 200, y := 200 })] } = none)
    ∧ (tracked .run false []).hasWork 3 = true
    ∧ (let s := (tracked .run true []).setFn 5 { rstStat := 1, rstFrom := 3 }
       (s.fnAt 5).rstStat = 1 ∧ (s.fnAt 5).rstFail = false ∧ (s.reside 0 5 0 [] []).ok = true
       ∧ (s.reside 0 5 0 [(0, 1, 0, 8, 8)] []).ok = false)
    ∧ ((tracked .run true []).setFn 5 { rstStat := 1, rstFail := true }).fnAt 5 = { rstStat := 1, rstFail := true }
    ∧ (let s := withWg base (fun w => { w with stopped := true, halting := 1 })
       (mfind (s.coreAt 0 0).wgs 0).any (fun g => g.stopped && g.halting != 0
         && (mfind (s.coreAt 0 0).groups (g.halting - 1)).isSome) = true
       ∧ mfind (s.coreAt 0 0).wgs 1 = none) := by
  refine ⟨fun i hi => ?_, by decide +kernel⟩
  have h : ((tracked .commit false [.card {}]).fnAt 3).ck.tray = [.card {}] := rfl
  rw [h] at hi
  exact ⟨{}, List.mem_singleton.mp hi⟩

/-- `TenancyEventsAct`: the limits of its ranges, a share at its bound and past it, a scrub in progress, and a bitmap swap. -/
theorem wit_tenancy_events : 7 < 8 ∧ 63 < 64 ∧ 15 < 16 ∧ 127 < 128 ∧ 85 < 86
    ∧ base.sharesBut 7 127 85 + 224 % 65536 ≤ 224 ∧ ¬ base.sharesBut 7 127 85 + 225 % 65536 ≤ 224
    ∧ base.scrubOf {} = none
    ∧ (∀ b, let s := base.setHum 0 { scrub := {
          busy := true, signing := b, desc := [1 + 0x40 * 256 + 3 * 65536, 1, 0, 0], nonce := List.replicate 32 0 } }
       (s.scrubOf {}).any (fun x => x.signing == b && !(ScrubDesc.of x.desc).inNone && x.nonce.length == 32
         && (ScrubDesc.of x.desc).hums == [0]) = true)
    ∧ (base.fnAt 3).dbmBusy = false ∧ (base.setFn 3 { dbmBusy := true }).fnAt 3 = { dbmBusy := true } := by
  decide +kernel

/-- `DeviceEventsAct`: a package that joins its domain, one past its time, an offset at its bound and past it, firmware lengths at their
bounds, a sensor, a stack and a link at the ends of their ranges. -/
theorem wit_device_events :
    (let s : State := { base with pkg := { base.pkg with domen := true, tref := 8 } }
     (s.pkg.domen && !s.pkg.domrdy && (!(s.pkg.tref / 8 == s.pkg.pkgnum) || decide ((s.pkg.domAt / 1000 + 1) * 1000 ≤ s.chipTime))) = true
     ∧ (s.pkg.domen && !s.pkg.domrdy && decide (s.pkg.domAt + 10000000 ≤ s.chipTime)) = false)
    ∧ (let s : State := { base with pkg := { base.pkg with domen := true, chip := 10000000 } }
       (s.pkg.domen && !s.pkg.domrdy && decide (s.pkg.domAt + 10000000 ≤ s.chipTime)) = true)
    ∧ base.faulty 512 = false ∧ base.pkg.faulty.isEmpty = true ∧ (signedOf 64 8).natAbs ≤ 8 ∧ (signedOf 64 64).natAbs ≤ 64
    ∧ 8 < (signedOf 64 9).natAbs ∧ 8 < (signedOf 64 (2 ^ 64 - 9)).natAbs ∧ 64 < (signedOf 64 (2 ^ 64 - 65)).natAbs
    ∧ base.pkg.fwstat ≠ 1 ∧ base.pkg.measured = false ∧ launching.pkg.power = true ∧ launching.pkg.measured = true
    ∧ (7 < 8 ∧ 79 < 80 ∧ 191 < 192 ∧ 1 < 2)
    ∧ (let x : Stack := mget {} (base.humAt 7).banks 1
       (decide (7 < 8) && decide (1 < 2) && decide (2047 < 2048) && !x.retiring && !x.dead.contains 2047) = true
       ∧ x.lowered + 768 ≤ 1572864 ∧ base.mayRetire 7 1 1 = true ∧ base.mayRetire 7 1 2 = false)
    ∧ (let s := base.setHum 7 { regs := { sensors := [(191, { hot := some 0 })] } }
       ({ s with pkg := { s.pkg with chip := 10 ^ 9 } } : State).mayRetire 7 1 2 = true)
    ∧ (let s := base.setHum 7 { banks := [(1, { retiring := true, acked := true, moved := 1572864 - 768 })] }
       (mget {} (s.humAt 7).banks 1 : Stack).retiring = true ∧ (mget {} (s.humAt 7).banks 1 : Stack).acked = true
       ∧ 1572864 - (mget {} (s.humAt 7).banks 1 : Stack).lowered - 768 ≤ (mget {} (s.humAt 7).banks 1 : Stack).moved)
    ∧ hasLink 7 2 = true ∧ hasLink 3 2 = false ∧ hasLink 6 16 = true := by
  decide +kernel

/-- `DeviceEventsAct`: bytes that are no flit. -/
theorem wit_flit : goodFlit [] = none := by
  unfold goodFlit
  split <;> simp

/-- `HostAccessesAct`: what the host sees, a doorbell at its bound and past it, an unassigned register, and the apertures. -/
theorem wit_host : launching.hostSees 0 = true ∧ launching.hostSees 63 = true ∧ launching.hostSees 64 = false
    ∧ 0xE000 ≤ 0x1FFFF8 ∧ 0x1FFFF8 < 0x200000
    ∧ 2 ^ ((mget {} (launching.humAt 0).queues 0 : HwQueue).size + 6) ≤ 64 % 2 ^ 32
    ∧ 63 % 2 ^ 32 < 2 ^ ((mget {} (launching.humAt 0).queues 0 : HwQueue).size + 6)
    ∧ (launching.fnAt 0).lqbusy = false ∧ launching.pkg.up = true ∧ 8 + (2 ^ 36 - 8) ≤ 2 ^ 36 ∧ base.pkg.up = false
    ∧ (match (State.hostRead 0 0 2 launching 0x4000 8 []).2 with
       | .bytes bs => bs.length == 8
       | _ => false) = true
    ∧ (match (State.hostRead 0 0 2 ({ launching with mem := [] } : State) 0x4000 8 []).2 with
       | .unsupported => true
       | _ => false) = true
    ∧ (match (State.hostRead 0 0 2 ({ launching with poison := [0x4000 / 128] } : State) 0x4000 8 []).2 with
       | .abort => true
       | _ => false) = true
    ∧ (let s : State := { launching with pkg := { launching.pkg with mapsel := 2 } }
       (s.pkg.up && decide (8 < 2 ^ 28) && s.inMap (s.bar4 8) 8 && s.mapPath 0 1 10 (s.bar4 8)) = true
       ∧ s.faulty 512 = false ∧ mapQuiesced (mapCode (s.bar4 8)) = false)
    ∧ launching.inMap (2 ^ 48) 8 = false := by decide +kernel

/-- `ReservedOpcodesRaiseTheirTraps`: words of each frame with a reserved opcode at an end of a range. -/
theorem wit_reserved : (0x08C0000000000000 : DWord).extractLsb' 62 2 = 0 ∧ ((0x08C0000000000000 : DWord).extractLsb' 54 8).toNat = 0x23
    ∧ (0xBBC0000000000000 : DWord).extractLsb' 62 2 = 2 ∧ ((0xBBC0000000000000 : DWord).extractLsb' 54 8).toNat = 0xEF
    ∧ (0xE240000000000000 : DWord).extractLsb' 62 2 = 3 ∧ ((0xE240000000000000 : DWord).extractLsb' 54 8).toNat = 0x89
    ∧ ((0x4B00000000000000 : DWord).extractLsb' 55 7).toNat = 0x16 ∧ ((0x4000000016000000 : DWord).extractLsb' 24 7).toNat = 0x16 := by
  decide +kernel

/-- `EncodeDecodeRoundTrip`: well-formed instructions with a word, one of them above the level. -/
theorem wit_round_trip : wellFormed 64 .user (.add 15 .n64 62 60 58) = true ∧ (encode (.add 15 .n64 62 60 58)).isSome = true
    ∧ wellFormed 64 .user (.vfsel 0 63) = true ∧ encode (.vfsel 0 63) = some 0xF2C0FC0000000000
    ∧ Level.user.rank < (xLevel ((0xF2C0FC0000000000 : DWord).extractLsb' 54 8).toNat).rank := by decide +kernel

/-- `EveryStepKeepsMemoryCanonical`: a step from a canonical memory that answers a next state. -/
theorem wit_canonical : ∃ t, MemOk (State.reset.withFetchWord 64 0x8040800100000004)
    ∧ step (State.reset.withFetchWord 64 0x8040800100000004) = .next t := ⟨_, (by decide +kernel : Memory.wf _ = true), rfl⟩

/-- What a fetch gives. -/
def fetches (s : State) (p : Fetched → Bool) : Bool := p (({ s.issueTime {} with cur := {} } : State).noteIssue).fetch

/-- `AStepRunsTheDecodedInstruction`: a group that may not issue, a fetch that traps, one whose page is not cached, a word that decodes and
one that does not; and an event of the agenda. -/
theorem wit_step :
    (withGrp base (fun g => { g with wait := .sleep 5 })).canIssue {} = false ∧ base.canIssue {} = true
    ∧ fetches (withGrp base (fun g => { g with pc := 65536 })) (fun f => match f with
        | .trap code _ => code == tBounds
        | _ => false) = true
    ∧ fetches (base.setCore { base.core with tlb := [] }) (fun f => match f with
        | .walk va => va == 0
        | _ => false) = true
    ∧ fetches { base with mem := writeBytes [] 0 (bytesOf 8 0x8040800100000004) } (fun f => match f with
        | .word w _ _ => (match decode .hypervisor 256 w with
            | .ok _ => true
            | .error _ => false)
        | _ => false) = true
    ∧ fetches { base with mem := writeBytes [] 0 (bytesOf 8 0x08C0000000000000) } (fun f => match f with
        | .word w _ _ => (match decode .hypervisor 256 w with
            | .ok _ => false
            | .error _ => true)
        | _ => false) = true
    ∧ (encode (.domen)).isNone = true ∧ base.pkg.power = true := by decide +kernel

/-- `EveryStepWithPowerGoesOn`: a package with power, and one without. -/
theorem wit_power : State.reset.pkg.power = true ∧ ({ State.reset with pkg := { power := false } } : State).pkg.power = false
    ∧ step { State.reset with pkg := { power := false } } = .fault .powerLost := ⟨rfl, rfl, rfl⟩

/-- Lanes 2 and 3 spawn, with one slot free, or both; a state whose live lanes are the first four; a saved PC between two words. -/
def spawningTwo (l : Nat) : State := withGrp (spawning l) (fun g => { g with m := mset g.m 1 0xC })
def fewLive : State := withGrp busy (fun g => { g with m := mset g.m 0 0xC })
def offWord : State := withGrp userGroup (fun g => { g with saved := [{ pc := 12, level := .user }], lvl := .supervisor })

/-- `BranchesGoToTheirTargets`, `SpawnCreatesThreads`, `RetireFreesTheThreads`, `TrapsSaveAndTrapReturnRestores`: a misaligned target,
two spawning lanes with one slot free and with two, members that do not end, one of the ending threads with a store on its way, and a
saved PC that is no multiple of 8. -/
theorem wit_control :
    (base.op2 (.imm 4)).toNat % 8 ≠ 0
    ∧ RosterApart (spawningTwo 33) ∧ RosterApart (spawningTwo 34)
    ∧ (∀ k ∈ [33, 34], (spawningTwo k).grp.holds .always = true
      ∧ ((spawningTwo k).spawnEntry (.label 1)).toNat % 8 = 0
      ∧ (spawningTwo k).grp.m0 &&& ~~~(spawningTwo k).grp.member = 0 ∧ (1 : Reg).toNat + (8 : BitVec 4).toNat ≤ (spawningTwo k).wg.n
      ∧ ((spawningTwo k).core.slots.map Prod.fst).Pairwise (· < ·)
      ∧ (∀ l ∈ lanesOf (spawningTwo k).grp.member, (mget {} (spawningTwo k).core.slots (mget 0 (spawningTwo k).grp.roster l)).state ≠ 0)
      ∧ lanesOf ((spawningTwo k).grp.mreg 1 &&& (spawningTwo k).grp.m0) = [2, 3]
      ∧ (((List.range (spawningTwo k).wg.lim).map (fun i => (spawningTwo k).wg.sbase + i)).filter
          (fun i => (mget {} (spawningTwo k).core.slots i).state == 0)).length = k - 32)
    ∧ (RosterApart fewLive ∧ fewLive.grp.m0 &&& fewLive.grp.member = 0xC ∧ fewLive.drained [3] = false ∧ fewLive.drained [2] = true
      ∧ fewLive.barReach fewLive.cur.h fewLive.cur.c fewLive.grp.wgs 16 = true)
    ∧ (let s := offWord
       s.grp.saved = [{ pc := 12, level := .user }] ∧ (12 : Word).toNat % 8 ≠ 0 ∧ s.drained (s.slotsOf s.grp.member) = true) :=
  ⟨by decide +kernel, (apart (by decide +kernel) (by decide +kernel) (by decide +kernel)).2,
    (apart (by decide +kernel) (by decide +kernel) (by decide +kernel)).2, by decide +kernel,
    ⟨(apart (by decide +kernel) (by decide +kernel) (by decide +kernel)).2, by decide +kernel⟩, by decide +kernel⟩

/-- `posting` with the crossbar closed to its core; and posting for function 3, whose card queue is the PF's. -/
def postDenied : State := posting.setHum 0 { posting.humAt 0 with regs := { connmat := [(0, 0)] } }
def postAcross : State :=
  let s := withWg posting (fun w => { w with fn := 3 })
  (s.setLaunch 0 { s.launchAt 0 with fn := 3 }).setHum 0 { queues := [(5, { en := true, cardq := true, xen := true, xfn := 3 })] }

/-- A checkpointed function 3 with `n` entries in its tray. -/
def trayed (n : Nat) : State := { postAcross with fns := [(3, { ck := { en := true, tray := List.replicate n (.heal 0) } })] }

/-- What a tray holds for lines takes no room from cards. -/
theorem trayed_posts (n card k a : Nat) : (trayed n).jpostCard card k a 0 = (trayed 0).jpostCard card k a 0 := by
  have h : ∀ l x q, (trayed n).cardsFull l x q = (trayed 0).cardsFull l x q := by
    intro l x q
    have t : ∀ m, Ckpt.trayCards { en := true, tray := List.replicate m (.heal 0) } = [] := by
      intro m
      simp [Ckpt.trayCards]
    simp only [State.cardsFull, trayed, List.foldl, t]
    rfl
  have h1 : ∀ l, (trayed n).rootLaunch l = (trayed 0).rootLaunch l := fun _ => rfl
  have h2 : ∀ x, (trayed n).jpostHum x 0 = (trayed 0).jpostHum x 0 := fun _ => rfl
  have h3 : ∀ l x i as, (trayed n).cardFor l x i as = (trayed 0).cardFor l x i as := fun _ _ _ _ => rfl
  have h4 : ∀ f q x, (trayed n).cardQueueTakes f q x = (trayed 0).cardQueueTakes f q x := fun _ _ _ => rfl
  have h5 : ∀ l, (trayed n).launchAt l = (trayed 0).launchAt l := fun _ => rfl
  have h6 : (trayed n).wg = (trayed 0).wg := rfl
  have h7 : (trayed n).grp = (trayed 0).grp := rfl
  simp only [State.jpostCard, h, h1, h2, h3, h4, h5, h6, h7]

/-- `BinAgeAndJobPosts`: a post that the crossbar lets through, one that it denies, and one that waits for room in the tray. -/
theorem wit_post :
    (let p := posting.jpostCard 63 2 30 0
     p.2.fn = posting.wg.fn ∧ p.2.hum < 8 ∧ posting.cardDenied posting.wg.fn posting.cur.h posting.cur.c p.2 = none)
    ∧ (let s := postDenied
       (s.jpostCard 63 2 30 0).1 = 0 ∧ s.drained (s.slotsOf s.grp.member) = true
       ∧ s.cardDenied s.wg.fn s.cur.h s.cur.c (s.jpostCard 63 2 30 0).2 = some (portPair 0 15))
    ∧ ∀ n, 262144 ≤ n → (let s := trayed n
       (s.jpostCard 63 2 30 0).1 = 0 ∧ (s.jpostCard 63 2 30 0).2.fn ≠ s.wg.fn ∧ s.ckFull s.wg.fn = true) := by
  refine ⟨by decide +kernel, by decide +kernel, fun n hn => ?_⟩
  have h : (trayed n).fnAt 3 = { ck := { en := true, tray := List.replicate n (.heal 0) } } := rfl
  have w : (trayed n).wg.fn = 3 := rfl
  have p : ((trayed 0).jpostCard 63 2 30 0).1 = 0 ∧ ((trayed 0).jpostCard 63 2 30 0).2.fn ≠ 3 := by decide +kernel
  simp only [trayed_posts, w, p, true_and, State.ckFull, h, Ckpt.logBytes, Ckpt.entries, trayBytes, List.length_replicate]
  simp [p]
  omega

/-- The lanes' scratchpad access of a kind. -/
def scrOp (s : State) (k : MemKind) : Chk := s.scrCheck { kind := k, ty := .b32, dst := 2 } 0 1 0

/-- `recsW` with thread 3 past a fence for stores and a store of its on its way; with a release of thread 3 on its way; with a poisoned
line; and with an access to its first word before it. -/
def recsF : State := recsW.setCore { recsW.core with
  slots := mset recsW.core.slots 3 { (mget {} recsW.core.slots 3 : Slot) with fenced := true }, reqs := [{ slots := [3], kind := .store }] }
def recsR : State := recsW.setCore { recsW.core with reqs := [{ slots := [3], kind := .store, rel := true }] }
def recsP : State := recsW.setCore { recsW.core with poison := [0] }
def recsQ : State := recsW.setCore { recsW.core with
  pend := [{ what := .bank 0 { kind := .store, space := .scr, ty := .b32, live := 1, exe := 1, items := [{ lane := 0, pass := true }] } }] }

/-- `ScratchGoes`: what each of its clauses asks for. -/
theorem wit_scratch_waits :
    (∀ k ∈ [MemKind.store, .atom .add], goes (scrOp recsF k) (fun op => recsF.bankWait op == some (.drain [3] none)) = true)
    ∧ goes (scrOp recsF (.red .min)) (fun op => (recsF.bankWait op).isNone && !(recsF.fencesMet (recsF.slotsOf op.exe))
        && recsF.allPresent op && !(recsF.scrBehind op (recsF.reqCtr + 1))) = true
    ∧ goes (scrOp recsF .load) (fun op => (recsF.bankWait op).isNone && !(recsF.fencesMet (recsF.slotsOf op.exe))
        && recsF.allPresent op && (recsF.scrPoison op).isNone && !(recsF.scrBehind op (recsF.reqCtr + 1))) = true
    ∧ (∀ k ∈ [MemKind.load, .atom .add], goes (scrOp recsR k) (fun op => (recsR.bankWait op).isSome) = true
      ∧ goes (scrOp recsP k) (fun op => (recsP.bankWait op).isNone && (recsP.scrPoison op).isSome) = true)
    ∧ (∀ k ∈ [MemKind.load, .store, .atom .add, .red .min], goes (scrOp recsQ k) (fun op =>
        (!op.kind.returns || (recsQ.scrPoison op).isNone) && recsQ.scrBehind op (recsQ.reqCtr + 1)) = true
      ∧ goes (scrOp recsW k) (fun op => (recsW.bankWait op).isNone && recsW.fencesMet (recsW.slotsOf op.exe)
          && recsW.allPresent op && !(recsW.scrBehind op (recsW.reqCtr + 1))) = true)
    ∧ recsW.released (recsW.slotsOf (recsW.exe 0)) = true ∧ recsR.released (recsR.slotsOf (recsR.exe 0)) = false := by decide +kernel

/-- `MemGoes`: an access of translated pages whose requests are performed as they issue, one whose requests set out, and one with none. -/
def recsN : State := { recsT with prompt := false }
def recsZ : State := withWg recsT (fun w => { w with b := [(1, { (mget {} w.b 1 : BufRec) with extent := 0, zf := true })] })
def memGo (s : State) (k : MemKind) (p : State → MemOp → List (Nat × Tlb) → Bool) : Bool :=
  let u := opened s 1
  formGoes s k .n32 1 (fun op => match u.rank6 (u.trimHelpers op) with
    | .ok ts => (u.rank7 (u.trimHelpers op) ts).isNone && p u (u.trimHelpers op) ts
    | _ => false)
theorem wit_mem_goes : ∀ k ∈ [MemKind.load, .store, .atom .add, .red .min],
    memGo recsT k (fun u op ts => (kept u ts).atOnce (issuing u op ts).2 && !ts.isEmpty) = true
    ∧ memGo recsN k (fun u op ts => !((kept u ts).atOnce (issuing u op ts).2) && !ts.isEmpty) = true
    ∧ memGo recsZ k (fun _ _ ts => ts.isEmpty) = true := by decide +kernel

/-- `AccumulatorLoadReadsAfterTheQueue`: everything placed is done, but not its threads' release. -/
theorem wit_ldacc : goes (recsR.accCheck { kind := .load, ty := .f32, dst := 2 } 0 1 0) (fun op => !(recsR.released (recsR.slotsOf op.exe))) = true
    ∧ goes (recsW.accCheck { kind := .load, ty := .f32, dst := 2 } 0 1 0) (fun op => recsW.released (recsW.slotsOf op.exe)) = true := by decide +kernel

/-- Every link of hummock 0 to another one is fenced. -/
def cutOff (s : State) : State :=
  s.setHum 0 { s.humAt 0 with links := [(4, { fenced := true }), (5, { fenced := true }), (6, { fenced := true }), (7, { fenced := true })] }

/-- A request from there to hummock 1 then has no way. -/
theorem cut_off {s : State} {r : Req} (hl : (s.humAt 0).links
      = [(4, { fenced := true }), (5, { fenced := true }), (6, { fenced := true }), (7, { fenced := true })])
    (hh : r.who.h = 0) (hw : s.wayOf r = (1, none)) : s.overFenced r = true := by
  have hm : (s.linkAt 0 (meshPort 0 1)).fenced = true := by
    have h : Config.meshLink 0 1 % 4 < 4 := Nat.mod_lt _ (by decide)
    simp only [State.linkAt, hl, meshPort]
    generalize Config.meshLink 0 1 % 4 = n at h
    match n, h with
    | 0, _ => rfl
    | 1, _ => rfl
    | 2, _ => rfl
    | 3, _ => rfl
  have hp : (0, meshPort 0 1) ∈ s.linksOf r := by
    simp [State.linksOf, hw, hh, meshSteps, meshWay, meshNext]
  exact List.any_eq_true.mpr ⟨_, hp, hm⟩

/-- `recsW` with record b5 over core 0 of hummock 1 in the map, past fenced links; and over the barrier unit of its own hummock, with
the crossbar open and closed to the core. -/
def recsMap (base : Nat) : State :=
  withWg recsW (fun w => { w with b := mset w.b 5 ⟨base, 8, 512, 0, 0, 5, true, true, true, false, true⟩ })
def farMap : State := cutOff (recsMap (2 ^ 39))
def ownMap : State := recsMap (63 * 2 ^ 33 + 16 * 2 ^ 28)
def shutMap : State := ownMap.setHum 0 { ownMap.humAt 0 with regs := { connmat := [(0, 0)] } }
def onMap (s : State) (k : MemKind) (p : State → MemOp → Bool) : Bool :=
  goes ((opened s 5).recCheck { kind := k, ty := .b32, dst := 2, sels := [4, 5] } 0 1 5 0) (fun op => op.space == .map && p (opened s 5) op)
def mapped (u : State) (i : LaneAcc) : Bool := u.mapPath u.wg.fn u.cur.h (u.cur.c / 8) i.addr

/-- A map access that waits for what its threads did before a fence for stores, or for their release. -/
def waitMap (q : Req) (fenced : Bool) : State := ownMap.setCore { ownMap.core with
  slots := mset ownMap.core.slots 3 { (mget {} ownMap.core.slots 3 : Slot) with fenced := fenced }, reqs := [q] }

/-- `WindowAccessesRun`: accesses that answer, wait, are denied and lose their path. -/
theorem wit_map :
    (∀ k ∈ [MemKind.load, .store],
      onMap ownMap k (fun u op => (u.bankWait op).isNone
        && op.items.all (fun i => i.pass && mapped u i && !(u.mapLost u.cur.h u.wg.launch i.addr))) = true
      ∧ onMap shutMap k (fun u op => (u.bankWait op).isNone && op.items.any (fun i => i.pass && !i.helper && !(mapped u i))) = true
      ∧ onMap farMap k (fun u op => (u.bankWait op).isNone && op.items.all (fun i => mapped u i)
          && op.items.any (fun i => i.pass && i.lane == 0 && mapHum i.addr == 1)) = true)
    ∧ onMap (waitMap { slots := [3], kind := .store } true) .store (fun u op => (u.bankWait op).isSome) = true
    ∧ onMap (waitMap { slots := [3], kind := .store, rel := true } false) .load (fun u op => (u.bankWait op).isSome) = true
    ∧ ∀ l a, mapHum a = 1 → (opened farMap 5).mapLost 0 l a = true := by
  refine ⟨by decide +kernel, by decide +kernel, by decide +kernel, fun l a h => cut_off (by decide +kernel) rfl ?_⟩
  have e : (opened farMap 5).localHum 1 = some 1 := by decide +kernel
  simp only [State.wayOf, h, e, show isHost (0 * 128) = false from by decide +kernel]
  rfl

/-- The page table of `paged` in hummock 1's memory, and no way there. -/
def pagedFar : State := cutOff { (paged.setFn 0 { tren := true, root1 := 0x400000 }) with mem := writeN [] 0x400000 8 (0x1F + 15 * 2 ^ 5 + 2 ^ 31 + 2 ^ 32) }

/-- A walk of the hummock's that reads an entry there is lost. -/
theorem walk_lost (s : State) (f l : Nat) (reads : List Nat) (hl : (s.humAt 0).links
      = [(4, { fenced := true }), (5, { fenced := true }), (6, { fenced := true }), (7, { fenced := true })])
    (h : reads.any (fun a => s.wayOf (s.unitReq 0 f l a) == (1, none)) = true) : s.walkLost 0 f l reads = true := by
  obtain ⟨a, ha, hw⟩ := List.any_eq_true.mp h
  exact List.any_eq_true.mpr ⟨a, ha, cut_off hl rfl (eq_of_beq hw)⟩

theorem walk_stuck (s : State) (w : Walk) (hl : (s.humAt 0).links
      = [(4, { fenced := true }), (5, { fenced := true }), (6, { fenced := true }), (7, { fenced := true })])
    (h : (s.walkFull 0 w.fn w.va w.need).reads.any (fun a => s.wayOf (s.unitReq 0 w.fn w.launch a) == (1, none)) = true) :
    s.walkStuck 0 w = true := walk_lost s _ _ _ hl h
theorem query_lost (s : State) (f va : Nat) (hl : (s.humAt 0).links
      = [(4, { fenced := true }), (5, { fenced := true }), (6, { fenced := true }), (7, { fenced := true })]) (hh : s.cur.h = 0)
    (h : ((s.uncached 0).walkFull 0 f va {}).reads.any (fun a => s.wayOf (s.unitReq 0 f s.wg.launch a) == (1, none)) = true) :
    s.queryLost f va = true := by
  rw [State.queryLost, hh]
  exact walk_lost s _ _ _ hl h

/-- `LeaseInstructionsRun`, `QueryAndSpanInstructionsRun`, `WalkAndHomeEventsAct`, `HostAccessesAct`: walks whose entries are in reach,
and lost ones. -/
theorem wit_lost :
    (goes (paged.recCheck (leaseForm 2) 1 1 1 0) (fun op => op.items.all (fun i => !(paged.queryLost paged.accFn i.addr))) = true
      ∧ ¬ ∃ l ∈ lanesOf (paged.live 1), paged.walkLost paged.cur.h 0 paged.wg.launch (paged.walkQuery 0 false (paged.pairVa 0 l)).2.reads = true)
    ∧ goes (pagedFar.recCheck (leaseForm 2) 1 1 1 0) (fun op => op.items.any (fun i => i.pass && i.addr == 4096)) = true
    ∧ pagedFar.queryLost pagedFar.accFn 4096 = true
    ∧ lanesOf (pagedFar.live 1) = [0]
    ∧ pagedFar.walkLost 0 0 pagedFar.wg.launch (pagedFar.walkQuery 0 false (pagedFar.pairVa 0 0)).2.reads = true
    ∧ pagedFar.walkStuck 0 { fn := 0, va := 0x5000 } = true ∧ paged.walkStuck 0 { fn := 0, va := 0x5000 } = false
    ∧ (let s := pagedFar.setFn 0 { pagedFar.fnAt 0 with lqbusy := true, lqva := 0x5000 }
       s.faulty 512 = false ∧ s.walkLost 0 0 0 (s.queryWalk 0 0 (s.fnAt 0).lqva).2.reads = true)
    ∧ (let s := paged.setFn 0 { paged.fnAt 0 with lqbusy := true, lqva := 0x5000 }
       s.faulty 512 = false ∧ (s.fnAt 0).lqbusy = true ∧ s.walkLost 0 0 0 (s.queryWalk 0 0 (s.fnAt 0).lqva).2.reads = false)
    ∧ (let t : Tlb := { fn := 0, va := 0x5000, read := 0, expiry := 1000, r := true }
       let s : State := { pagedFar.setHum 0 { pagedFar.humAt 0 with enl := [(0, { tlb := [t] })] } with pkg := { pagedFar.pkg with chip := 900 } }
       (s.faulty 512 = false ∧ s.chipTime < t.expiry ∧ 4 * (t.expiry - s.chipTime) < t.expiry - t.read)
       ∧ s.walkLost 0 t.fn (s.unitLaunch 0 0) (s.walkFull 0 t.fn t.va { r := true }).reads = true) := by
  refine ⟨by decide +kernel, by decide +kernel, query_lost _ _ _ (by decide +kernel) (by decide +kernel) (by decide +kernel), by decide +kernel,
    walk_lost _ _ _ _ (by decide +kernel) (by decide +kernel), walk_stuck _ _ (by decide +kernel) (by decide +kernel), by decide +kernel,
    ⟨by decide +kernel, walk_lost _ _ _ _ (by decide +kernel) (by decide +kernel)⟩, by decide +kernel,
    ⟨by decide +kernel, walk_lost _ _ _ _ (by decide +kernel) (by decide +kernel)⟩⟩

/-- `BarrierInstructionsRun`: a release on its way, all earlier accesses done or not; an arrival at a gang barrier that the crossbar
denies; `QueryAndSpanInstructionsRun`: `tok.rd` without a scratchpad and behind a release. -/
def releasing (s : State) : State := s.setCore { s.core with pend := [{ slots := [3], what := .nothing }] }
def gangBar (regs : HumRegs) : State :=
  withWg (base.setHum 0 { gbars := [(0, { valid := true, root := true, members := 32 })], regs := regs })
    (fun w => { w with arr := (List.range 32).map (fun l => (l, { memb := 2 ^ 16, mark := 0xFFFFFF })) })
theorem wit_releases :
    (let s := releasing (barred { valid := true, members := 32 })
     s.exe 0 ≠ 0 ∧ (s.bar 0).valid = true ∧ (s.bar 0).broken = false ∧ s.released (s.slotsOf (s.exe 0)) = false)
    ∧ (let s := (barred { valid := true, members := 32 }).setCore { (barred { valid := true, members := 32 }).core with
        reqs := [{ slots := [0], kind := .store }] }
       s.released (s.slotsOf (s.exe 0)) = true)
    ∧ (∀ x ∈ [{}, ({ connmat := [(0, 0)] } : HumRegs)], let s := gangBar x
       s.exe 0 ≠ 0 ∧ (s.bar 16).valid = true ∧ (s.bar 16).broken = false ∧ s.drained (s.slotsOf (s.exe 0)) = true
       ∧ s.released (s.slotsOf (s.exe 0)) = true
       ∧ (∀ l ∈ lanesOf (s.exe 0), s.mustHold 16 l = false) ∧ (∀ l ∈ lanesOf (s.exe 0), s.toCount 16 l = true)
       ∧ s.barReach s.cur.h s.cur.c s.grp.wgs 16 = x.connmat.isEmpty)
    ∧ (let s := releasing (channelled { rcv := true, slots := 4, full := 1 }); (s.chan 15).rcv = true ∧ s.released (s.slotsOf (s.exe 0)) = false)
    ∧ ((base.segOf 2).valid = false ∧ (base.segOf 2).w = false
      ∧ (releasing recs).released ((releasing recs).slotsOf ((releasing recs).exe 0)) = false
      ∧ recs.released (recs.slotsOf (recs.exe 0)) = true)
    ∧ (let s := pairOfGroups.setCore { pairOfGroups.core with groups := [(0, { base.grp with wait := .qwait 0 0 3 0 }), (1, base.grp)] }
       (s.at_ { g := 1 }).qwaitAhead 3 = true)
    ∧ copying.qwaitAhead 3 = false := by decide +kernel

/-- `CoreEventsAct`: a launch barrier whose root is in another package, a hummock whose sideband path reaches a remote cell, and a card
that its queue takes. -/
theorem wit_far_events :
    (let s : State := { working with launches := [(9, { rect := [0], root := 9, cells := [0, 9], phase := .running })] }
     8 ≤ (s.launchAt 9).root ∧ s.lctxOf 0 9 = some 0 ∧ (mget {} (s.humAt 0).lbars 3 : Gbar).valid = true
     ∧ 0 ∈ (s.launchAt 9).cells ∧ 0 ≠ (s.launchAt 9).root)
    ∧ (let s : State := { posting with cards := [{ hum := 0, queue := 5, poster := some 0 }] }
       ∀ x, s.cards[0]? = some x →
         let y : HwQueue := mget {} (s.humAt x.hum).queues x.queue
         x.seq = none ∧ (s.fnAt x.fn).ck.out_ = false ∧ (y.cardq && (x.poster.isSome || y.xen) && y.fn == x.fn) = true) := by
  refine ⟨by decide +kernel, ?_⟩
  intro s x h
  obtain rfl : { hum := 0, queue := 5, poster := some 0 } = x := Option.some.inj h
  decide +kernel

/-- A request without a reservation that meets a reserved one at an arbiter, and one whose lease has ended before a full list of walks. -/
def queuing : State :=
  let r : Req := { who := { h := 1 }, expiry := 100, line := 2 ^ 47 }
  (base.setCoreAt 1 0 { base.core with reqs := [r, { r with line := 2 ^ 47 + 1, va := 128, mark := true }, { who := { h := 1 }, line := 7, va := 256 }] }).setHum 1
    { pending := List.replicate 256 {} }

/-- `WalkAndHomeEventsAct`: a home that holds back and one that does not; requests that an arbiter grants and holds; a list of walks that
is full. -/
theorem wit_arbiters :
    base.homeHolds (0, 0) 0 = false
    ∧ (base.setCore { base.core with reqs := [{ acc := 1 }] }).homeHolds (0, 0) 0 = true
    ∧ base.noMarks = true ∧ base.through (base.arbitrate {}).2 = true
    ∧ (let rs := (queuing.coreAt 1 0).reqs
       (rs[0]?).any (fun r => r.acc == 0 && queuing.acceptable rs 0 r && decide (queuing.chipTime < r.expiry)
         && !((queuing.arbitrate r).1.through (queuing.arbitrate r).2)) = true
       ∧ (rs[2]?).any (fun r => r.acc == 0 && queuing.acceptable rs 2 r && decide (r.expiry ≤ queuing.chipTime)) = true
       ∧ 256 ≤ (queuing.humAt 1).pending.length)
    ∧ (walking.swaps[0]?).any (fun w => !(walking.homeHolds (walking.homeOf {} w.entry) w.entry)) = true := by decide +kernel

/-- `CopyAndMatrixEventsAct`: lines that pass their arbiters and a line that one holds back; an engine that its watchdog has stopped. -/
theorem wit_engine_lines :
    (∀ b : Bool, let s := if b = true then enlarging else enlarging.setCore { enlarging.core with
        reqs := [{ expiry := 2 ^ 60, line := 2 ^ 40, mark := true, eng := true }] }
     (match (s.humAt 0).enl with
      | [] => false
      | (_, j) :: _ =>
        let i := { j with tlb := s.core.tlb }
        let bs := s.unitMem 0 i (i.todo.headD 0)
        (s.unitMissing i bs).isNone && s.unitPath 0 i bs && !(s.unitHeld 0 i bs) && i.sent.isEmpty
        && (s.sendLines [] (s.unitReqs 0 i bs)).2.all (s.sendLines [] (s.unitReqs 0 i bs)).1.through == b) = true)
    ∧ (let s := base.setCore { base.core with engine := { holder := some 0, queue := [{ kind := .accZ 0 }], state := 3 } }
       (s.coreAt 0 0).engine.holder = some 0 ∧ (s.coreAt 0 0).engine.state = 3) := by
  decide +kernel

/-- `LaunchEventsAct`: a residency whose walks arrive, tokens that match and one that does not, and a gang after which the next is placed. -/
theorem wit_launch_paths :
    (launching.reside 0 0 6 (launching.launchAt 6).kernel.ranges []).lost = false
    ∧ (launching.reside 0 0 7 (launching.launchAt 7).kernel.ranges []).lost = false
    ∧ launching.tokensOk 10 (launching.launchAt 10) = true ∧ launching.tokensOk 11 (launching.launchAt 11) = false
    ∧ (let x : Launch := { gangs := 2, placed := 1 }; x.fresh = [] ∧ x.placed < x.gangs ∧ x.status = none) := by decide +kernel

/-- An image of function 3 with a core, which function 5 takes over on sedge 0 of hummock 0, free or under a scrub. -/
def taking (busy : Bool) : State :=
  let s := (tracked .run true []).setFn 3 { ck := { en := true, out_ := true, image := some { cores := [(0, {})], hums := [(0, {})] } } }
  (s.setFn 5 { rstStat := 1, rstFrom := 3 }).setHum 0 { regs := { part := [(5, { sedge := 1, en := true })] }, scrub := { busy := busy, sedges := 1 } }

/-- `CheckpointAndChipletEventsAct`: functions that leave and that do not; messages kept; an image area that is assigned and one that is
not; a restore whose cores are open and one whose sedge is under a scrub. -/
theorem wit_checkpoint_paths :
    ((tracked .leave false []).fnAt 3).ck.state = .leave ∧ ((tracked .run false []).fnAt 3).ck.state ≠ .leave
    ∧ (let s := tracked .commit false []
       s.assigned ((s.fnAt 3).ck.imgBase) = true ∧ s.assigned ((s.fnAt 3).ck.imgBase + (s.capture 3).size - 1) = true
       ∧ ∀ e ∈ s.hums, e.2.wins = [])
    ∧ base.assigned (2 ^ 37 - 1) = false ∧ base.linePoison 0 = false ∧ ({ base with poison := [0] } : State).linePoison 0 = true
    ∧ base.findWg 1 0 = none ∧ base.reach 0 0 12 0 8 = true
    ∧ (∀ b, let s := taking b
       let im := (s.fnAt (s.fnAt 5).rstFrom).ck.image.getD {}
       let r := s.reside 0 5 0 im.ranges (s.fnAt 5).rstWaits
       (s.fnAt 5).rstFail = false ∧ r.ok = true
       ∧ (r.s.shape 5 im).any (fun hm => r.s.coresOpen 5 im (r.s.coreMap 5 im hm) == !b) = true) := by decide +kernel

/-- `DeviceEventsAct`: an image to check of a length in the range, and of one outside it; flits to send again. -/
theorem wit_device_paths :
    (let s : State := { base with pkg := { base.pkg with fwstat := 1, fwlen := 4096 } }
     s.pkg.fwstat = 1 ∧ 4096 ≤ s.pkg.fwlen ∧ s.pkg.fwlen ≤ 2 ^ 26 ∧ s.fwRead.2 = true
     ∧ ({ s with poison := [0] } : State).fwRead.2 = false)
    ∧ (let s : State := { base with pkg := { base.pkg with fwstat := 1, fwlen := 4095 } }; s.pkg.fwstat = 1 ∧ s.pkg.fwlen < 4096)
    ∧ ({ again := [7], buffer := [(7, [1])] } : Link).fenced = false ∧ 9 ≤ ({ bad := 9 } : Link).bad := by decide +kernel

/-- `HostAccessesAct`: a requester none of whose accesses waits, and one of whose accesses waits; map accesses on their way. -/
theorem wit_host_order :
    (let s : State := { launching with pkg := { launching.pkg with held := [.read 0 3 0 8] } }
     (∃ x ∈ s.pkg.held, x.fn = (HostAcc.regWrite 3 0 0).fn) ∧ (∀ x ∈ s.pkg.held, x.fn ≠ 0)
     ∧ s.pkg.held.find? (fun x => x.fn == 3) = some (.read 0 3 0 8))
    ∧ (let s : State := { launching with pkg := { launching.pkg with mapsel := 2 } }
       (∀ x ∈ s.pkg.held, x.fn ≠ 0) ∧ s.mapPath 0 1 10 (s.bar4 8) = true ∧ mapCode (s.bar4 8) < 0x0C
       ∧ (∀ e ∈ s.fns, e.2.ck.image = none))
    ∧ (let s : State := { launching with pkg := { launching.pkg with mapsel := 63 * 32 + 0x10 } }
       (decide (8 < 2 ^ 28) && s.inMap (s.bar4 8) 8) = true ∧ s.mapPath 0 1 10 (s.bar4 8) = true ∧ 0x0C ≤ mapCode (s.bar4 8)
       ∧ (s.setHum 1 { s.humAt 1 with regs := { connmat := [(10, 0)] } }).mapPath 0 1 10 (s.bar4 8) = false)
    ∧ (let s : State := { launching with pkg := { launching.pkg with mapsel := 63 * 32 + 0x10 + 2 ^ 11 } }
       s.hostMapLost (s.bar4 8) = false
       ∧ (s.setHum 1 { s.humAt 1 with links := [(16, { fenced := true })] }).hostMapLost (s.bar4 8) = true) := by decide +kernel

/-- `AStepRunsTheDecodedInstruction`: a group whose pipe has issued in this cycle, and whose translation lapses before the next one, in
which the other has its word at a home that is taken. -/
theorem wit_held_fetch :
    (let t : Tlb := base.core.tlb.headD {}
     let s := base.setCore { base.core with
       tlb := [{ t with frame := 65536, expiry := 1 }, t], reqs := [{ acc := 1 }], turns := [(base.grp.pipe, (0, 1))] }
     s.canIssue {} = true ∧ fetches s (fun f => match f with
        | .hold => true
        | _ => false) = true) := by decide +kernel

end Sys2Proof.Tests
end

section
/-! SUPPORT. What each operation that writes no memory leaves of it: all of it. -/

namespace Sys2Proof.Machine

open Sys2Proof.Safety

/-! ### What a choice, a fold and a scalar condition do to the memory -/

@[simp] theorem State.ite_mem (c : Prop) [Decidable c] (s t : State) :
    (if c then s else t).mem = if c then s.mem else t.mem := apply_ite State.mem c s t

@[simp] theorem foldl_mem {α : Type} (f : State → α → State) (hf : ∀ t a, (f t a).mem = t.mem) (l : List α) (s : State) :
    (l.foldl f s).mem = s.mem := foldl_keeps (fun t => t.mem = s.mem) f (fun t a h => (hf t a).trans h) l s rfl

@[simp] theorem State.when_mem (s : State) (c : SCond) {t : State} (h : t.mem = s.mem) : (s.when c t).mem = s.mem := by
  unfold State.when
  split
  · exact h
  · rfl

/-! ### What each operation that writes no memory does to it: nothing -/

@[simp] theorem State.free_mem (s : State) : (s.free).2.mem = s.mem := by rfl

@[simp] theorem State.goTo_mem (s : State) (off : Word) : (s.goTo off).mem = s.mem := by rfl

@[simp] theorem State.setLval_mem (s : State) (t : Ty) (lane j : Nat) (v : DWord) :
    (s.setLval t lane j v).mem = s.mem := by simp [State.setLval]

@[simp] theorem State.writeLanes_mem (s : State) (live : Word) (j : Nat) (f : Nat → Word) :
    (s.writeLanes live j f).mem = s.mem := by simp [State.writeLanes]

@[simp] theorem State.writeTy_mem (s : State) (t : Ty) (live : Word) (j : Nat) (f : Nat → DWord) :
    (s.writeTy t live j f).mem = s.mem := by simp [State.writeTy]

@[simp] theorem State.acquireAt_mem (s : State) (h c : Nat) : (s.acquireAt h c).mem = s.mem := by rfl

@[simp] theorem State.acquire_mem (s : State) : (s.acquire).mem = s.mem := by rfl

@[simp] theorem State.dissolve_mem (s : State) : (s.dissolve).mem = s.mem := by rfl

@[simp] theorem State.modWbar_mem (s : State) (h c w n : Nat) (f : Wbar → Wbar) : (s.modWbar h c w n f).mem = s.mem := by
  unfold State.modWbar
  split <;> rfl

@[simp] theorem State.modGbar_mem (s : State) (h c w bar : Nat) (f : Gbar → Gbar) :
    (s.modGbar h c w bar f).mem = s.mem := by simp [State.modGbar]

@[simp] theorem State.addArrived_mem (s : State) (h c w bar n : Nat) :
    (s.addArrived h c w bar n).mem = s.mem := by simp [State.addArrived]

@[simp] theorem State.dropArrived_mem (s : State) (h c w bar : Nat) :
    (s.dropArrived h c w bar).mem = s.mem := by simp [State.dropArrived]

@[simp] theorem State.setMark_mem (s : State) (h c w tidx bar : Nat) (b : Bool) :
    (s.setMark h c w tidx bar b).mem = s.mem := by rfl

@[simp] theorem State.passOn_mem (s : State) (key gi : Nat) (g : Group) : (s.passOn key gi g).mem = s.mem := by
  unfold State.passOn
  dsimp only
  (repeat' split) <;> simp

@[simp] theorem State.inheritGo_mem (n : Nat) (s : State) : (s.inheritGo n).mem = s.mem := by
  induction n generalizing s with
  | zero => rfl
  | succ n ih => exact (ih _).trans (foldl_mem _ (fun _ _ => foldl_mem _ (fun _ _ => State.passOn_mem _ _ _ _) _ _) _ _)

@[simp] theorem State.inherit_mem (s : State) : (s.inherit).mem = s.mem := by simp [State.inherit]

@[simp] theorem State.inheritNew_mem (s : State) : (s.inheritNew).mem = s.mem := by simp [State.inheritNew]

@[simp] theorem State.withdraw_mem (s : State) (h c : Nat) (g : Group) (bar : Nat) (counted : Word) :
    (s.withdraw h c g bar counted).mem = s.mem := by simp [State.withdraw]

@[simp] theorem State.breakGroup_mem (s : State) (h c g : Nat) : (s.breakGroup h c g).mem = s.mem := by
  unfold State.breakGroup
  dsimp only
  (repeat' split) <;> simp

@[simp] theorem State.breakGroups_mem (s : State) (who : Wg → Nat → Bool) : (s.breakGroups who).mem = s.mem := by
  refine (State.inherit_mem _).trans (foldl_mem _ (fun t e => foldl_mem _ (fun t g => ?_) _ _) _ _)
  split
  · simp
  · rfl

@[simp] theorem State.breakBarriers_mem (s : State) (h c w : Nat) :
    (s.breakBarriers h c w).mem = s.mem := by simp [State.breakBarriers]

@[simp] theorem State.endChannels_mem (s : State) (launch num : Nat) : (s.endChannels launch num).mem = s.mem := by rfl

@[simp] theorem State.clearWg_mem (s : State) (h c w : Nat) : (s.clearWg h c w).mem = s.mem := by rfl

@[simp] theorem State.endWgAbnormal_mem (s : State) (r : GRef) :
    (s.endWgAbnormal r).mem = s.mem := by simp [State.endWgAbnormal]

@[simp] theorem State.endLaunch_mem (s : State) (l status : Nat) :
    (s.endLaunch l status).mem = s.mem := by simp [State.endLaunch]

@[simp] theorem State.enterTrap_mem (s : State) (t : TrapInfo) : (s.enterTrap t).mem = s.mem := by
  unfold State.enterTrap
  split <;> simp

@[simp] theorem State.takeTrap_mem (s : State) (t : TrapInfo) : (s.takeTrap t).mem = s.mem := by simp [State.takeTrap]

@[simp] theorem State.trap_mem (s : State) (code : Nat) (lane : Nat) (addr : Nat) (detail : Nat) :
    (s.trap code lane addr detail).mem = s.mem := by simp [State.trap]

@[simp] theorem State.trapReturn_mem (s : State) (skip : Bool) : (s.trapReturn skip).mem = s.mem := by
  unfold State.trapReturn
  split <;> simp

@[simp] theorem State.read2_mem (s : State) (a : SCode) (b : Op2) : (s.read2 a b).2.2.mem = s.mem := by simp [State.read2]

@[simp] theorem State.lanes_mem (s : State) (m : MReg) (t : Ty) (d : Reg) (f : Nat → DWord) :
    (s.lanes m t d f).mem = s.mem := by simp [State.lanes]

@[simp] theorem State.lanes32_mem (s : State) (m : MReg) (d : Reg) (f : Nat → Word) :
    (s.lanes32 m d f).mem = s.mem := by simp [State.lanes32]

@[simp] theorem State.lanesMask_mem (s : State) (m d : MReg) (f : Nat → Bool) : (s.lanesMask m d f).mem = s.mem := by rfl

@[simp] theorem State.arith_mem (s : State) (c : SCond) (d a : SCode) (b : Op2) (op : Word → Word → Word) :
    (s.arith c d a b op).mem = s.mem := by simp [State.arith]

@[simp] theorem State.setFlags_mem (s : State) (a b : Word) : (s.setFlags a b).mem = s.mem := by rfl

@[simp] theorem State.latchSel_mem (s : State) (l : LaneSel) : (s.latchSel l).mem = s.mem := by
  unfold State.latchSel
  split <;> simp

@[simp] theorem State.setK_mem (s : State) (i : Nat) (v : Word) : (s.setK i v).mem = s.mem := by simp [State.setK]

@[simp] theorem State.branchIf_mem (s : State) (c : SCond) (taken : Bool) (off : Word) :
    (s.branchIf c taken off).mem = s.mem := by simp [State.branchIf]

@[simp] theorem State.fileAll_mem (s : State) (ts : List (Nat × Word × Int)) : (s.fileAll ts).mem = s.mem := by rfl

@[simp] theorem State.dissolveTo_mem (s : State) (target : Nat → Word) (far : Nat → Int) :
    (s.dissolveTo target far).mem = s.mem := by rfl

@[simp] theorem State.int2_mem (s : State) (m : MReg) (t : Ty) (d a b : Reg) (op : DWord → DWord → DWord) :
    (s.int2 m t d a b op).mem = s.mem := by simp [State.int2]

@[simp] theorem State.int1_mem (s : State) (m : MReg) (t : Ty) (d a : Reg) (op : DWord → DWord) :
    (s.int1 m t d a op).mem = s.mem := by simp [State.int1]

@[simp] theorem State.word2_mem (s : State) (m : MReg) (d a b : Reg) (op : Word → Word → Word) :
    (s.word2 m d a b op).mem = s.mem := by simp [State.word2]

@[simp] theorem State.wordImm_mem (s : State) (m : MReg) (d a : Reg) (imm : Word) (op : Word → Word → Word) :
    (s.wordImm m d a imm op).mem = s.mem := by simp [State.wordImm]

@[simp] theorem State.carryOp_mem (s : State) (m : MReg) (d : Reg) (cm : MReg) (f : Nat → Word × Bool) :
    (s.carryOp m d cm f).mem = s.mem := by simp [State.carryOp]

@[simp] theorem State.shiftOp_mem (s : State) (m : MReg) (t : Ty) (d a b : Reg) (op : DWord → Nat → DWord) :
    (s.shiftOp m t d a b op).mem = s.mem := by simp [State.shiftOp]

@[simp] theorem State.dotOp_mem (s : State) (m : MReg) (t : Ty) (d a b e : Reg) :
    (s.dotOp m t d a b e).mem = s.mem := by simp [State.dotOp]

@[simp] theorem State.keepWalk_mem (s : State) (h f : Nat) (path : List Pte) : (s.keepWalk h f path).mem = s.mem := by rfl

@[simp] theorem State.signal_mem (s : State) (f v : Nat) : (s.signal f v).mem = s.mem := by rfl

@[simp] theorem State.lostErr_mem (s : State) (f : Nat) : (s.lostErr f).mem = s.mem := by rfl

@[simp] theorem State.keepTlb_mem (s : State) (t : Tlb) : (s.keepTlb t).mem = s.mem := by simp [State.keepTlb]

@[simp] theorem State.installTlb_mem (s : State) (r : GRef) (t : Tlb) : (s.installTlb r t).mem = s.mem := by
  unfold State.installTlb
  dsimp only
  (repeat' split) <;> simp

@[simp] theorem State.askWalks_mem (s : State) (ws : List Walk) : (s.askWalks ws).mem = s.mem := by simp [State.askWalks]

@[simp] theorem State.askWalk_mem (s : State) (w : Walk) : (s.askWalk w).mem = s.mem := by simp [State.askWalk]

@[simp] theorem State.sendFlit_mem (s : State) (r : Req) : (s.sendFlit r).mem = s.mem := by simp [State.sendFlit]

@[simp] theorem State.report_mem (s : State) (op : MemOp) : (s.report op).mem = s.mem := by
  unfold State.report
  split <;> rfl

@[simp] theorem State.endMem_mem (s : State) : (s.endMem).mem = s.mem := by rfl

@[simp] theorem State.complete_mem (s : State) (op : MemOp) (got : List LaneAcc) :
    (s.complete op got).mem = s.mem := by simp [State.complete]

@[simp] theorem State.setScr_mem (s : State) (key a n v : Nat) : (s.setScr key a n v).mem = s.mem := by rfl

@[simp] theorem State.scrLane_mem (s : State) (op : MemOp) (i : LaneAcc) : (s.scrLane op i).1.mem = s.mem := by
  unfold State.scrLane
  dsimp only
  (repeat' split) <;> simp

@[simp] theorem State.scrHeal_mem (s : State) (op : MemOp) : (s.scrHeal op).mem = s.mem := by simp [State.scrHeal]

@[simp] theorem State.scrDefer_mem (s : State) (op : MemOp) : (s.scrDefer op).mem = s.mem := by simp [State.scrDefer]

@[simp] theorem State.markReq_mem (s : State) (r : Req) : (s.markReq r).1.mem = s.mem := by
  unfold State.markReq
  dsimp only
  (repeat' split) <;> simp

@[simp] theorem State.markReqs_mem (s : State) (rs : List Req) : (s.markReqs rs).1.mem = s.mem :=
  foldl_keeps (fun p : State × List Req => p.1.mem = s.mem) _ (fun p r h => (State.markReq_mem p.1 r).trans h) rs (s, []) rfl

@[simp] theorem State.sendReqs_mem (s : State) (rs : List Req) (os : List Outst) : (s.sendReqs rs os).mem = s.mem := by rfl

@[simp] theorem State.relDropped_mem (s : State) (op : MemOp) : (s.relDropped op).mem = s.mem := by simp [State.relDropped]

@[simp] theorem State.ldaccPerform_mem (s : State) (op : MemOp) :
    (s.ldaccPerform op).mem = s.mem := by simp [State.ldaccPerform]

@[simp] theorem State.fenceEnd_mem (s : State) (mode : FenceMode) (slots : List Nat) : (s.fenceEnd mode slots).mem = s.mem := by
  unfold State.fenceEnd
  split <;> rfl

@[simp] theorem State.writeQuad_mem (s : State) (live : Word) (a : Nat) (f : Nat → Nat) :
    (s.writeQuad live a f).mem = s.mem := by simp [State.writeQuad]

@[simp] theorem State.writePair_mem (s : State) (live : Word) (a : Nat) (f : Nat → Nat) :
    (s.writePair live a f).mem = s.mem := by simp [State.writePair]

@[simp] theorem State.setRec_mem (s : State) (n : Nat) (r : BufRec) : (s.setRec n r).mem = s.mem := by simp [State.setRec]

@[simp] theorem State.waitEnd_mem (s : State) : (s.waitEnd).mem = s.mem := by simp [State.waitEnd]

@[simp] theorem State.waitFor_mem (s : State) (bar : Nat) (counted : Word) (cs : List (Nat × BarCond)) :
    (s.waitFor bar counted cs).mem = s.mem := by simp [State.waitFor]

@[simp] theorem State.modLb_mem (s : State) (h l n : Nat) (f : Gbar → Gbar) : (s.modLb h l n f).mem = s.mem := by
  unfold State.modLb
  split <;> simp

@[simp] theorem State.breakLbs_mem (s : State) (l : Nat) (which : Nat → Bool) :
    (s.breakLbs l which).mem = s.mem := by simp [State.breakLbs]

@[simp] theorem State.setCvSize_mem (s : State) (cv n : Nat) : (s.setCvSize cv n).mem = s.mem := by simp [State.setCvSize]

@[simp] theorem State.modChan_mem (s : State) (r : GRef) (ch : Nat) (f : Chan → Chan) : (s.modChan r ch f).mem = s.mem := by rfl

@[simp] theorem State.putSlotAt_mem (s : State) (r : GRef) (ch : Nat) (words : List Word) :
    (s.putSlotAt r ch words).mem = s.mem := by simp [State.putSlotAt]

@[simp] theorem State.fillSlot_mem (s : State) (ch : Nat) (words : List Word) : (s.fillSlot ch words).mem = s.mem := by
  unfold State.fillSlot
  split <;> simp

@[simp] theorem State.sendGo_mem (s : State) (ch : Nat) (words : List Word) :
    (s.sendGo ch words).mem = s.mem := by simp [State.sendGo]

@[simp] theorem State.takeSlot_mem (s : State) (ch : Nat) (d : Reg) (m : MReg) :
    (s.takeSlot ch d m).mem = s.mem := by simp [State.takeSlot]

@[simp] theorem State.recvGo_mem (s : State) (ch : Nat) (d : Reg) (m : MReg) :
    (s.recvGo ch d m).mem = s.mem := by simp [State.recvGo]

@[simp] theorem State.modGroup_mem (s : State) (r : GRef) (f : Group → Group) : (s.modGroup r f).mem = s.mem := by
  unfold State.modGroup
  dsimp only
  (repeat' split) <;> simp

@[simp] theorem State.wake_mem (s : State) (r : GRef) : (s.wake r).mem = s.mem := by simp [State.wake]

@[simp] theorem State.dropAccess_mem (s : State) (r : GRef) (id : Nat) : (s.dropAccess r id).mem = s.mem := by rfl

@[simp] theorem State.failLate_mem (s : State) (r : Req) (code lane off detail status : Nat) :
    (s.failLate r code lane off detail status).mem = s.mem := by
  unfold State.failLate
  split <;> simp

@[simp] theorem State.deniedLate_mem (s : State) (r : Req) (code lane off detail : Nat) :
    (s.deniedLate r code lane off detail).mem = s.mem := by simp [State.deniedLate]

@[simp] theorem State.movedFail_mem (s : State) (r : Req) (x : Rank6) : (s.movedFail r x).mem = s.mem := by
  unfold State.movedFail
  split <;> simp

@[simp] theorem State.modAwaiting_mem (s : State) (w : Walk) (f : Req → Req) : (s.modAwaiting w f).mem = s.mem := by rfl

@[simp] theorem State.retarget_mem (s : State) (w : Walk) (t : Tlb) : (s.retarget w t).mem = s.mem := by
  unfold State.retarget
  dsimp only
  (repeat' split) <;> simp

@[simp] theorem State.setJob_mem (s : State) (h k : Nat) (j : CopyJob) : (s.setJob h k j).mem = s.mem := by rfl

@[simp] theorem State.giveTlb_mem (s : State) (h k : Nat) (w : Walk) (t : Tlb) : (s.giveTlb h k w t).mem = s.mem := by
  unfold State.giveTlb
  dsimp only
  (repeat' split) <;> simp

@[simp] theorem State.walkOk_mem (s : State) (h : Nat) (w : Walk) (t : Tlb) : (s.walkOk h w t).mem = s.mem := by
  unfold State.walkOk
  split <;> simp

@[simp] theorem State.walkDenied_mem (s : State) (h : Nat) (w : Walk) : (s.walkDenied h w).mem = s.mem := by
  unfold State.walkDenied
  (repeat' split) <;> simp

@[simp] theorem State.holdWalk_mem (s : State) (h : Nat) (w : Walk) : (s.holdWalk h w).mem = s.mem := by rfl

@[simp] theorem State.grant_mem {s t : State} (a : Nat × Nat) (r : Req) (h : s.grant a r = some t) : t.mem = s.mem := by
  unfold State.grant at h
  dsimp only at h
  split at h
  · cases h
    rfl
  · split at h
    · cases h
      exact State.setHum_mem _ _ _
    · cases h

@[simp] theorem State.pass_mem (n : Nat) (s : State) (r : Req) : (State.pass n s r).1.mem = s.mem := by
  induction n generalizing s r with
  | zero => rfl
  | succ n ih =>
    unfold State.pass
    split
    · rfl
    · split
      next ht => exact (ih _ _).trans (State.grant_mem _ _ ht)
      next => rfl

@[simp] theorem State.arbitrate_mem (s : State) (r : Req) : (s.arbitrate r).1.mem = s.mem := by
  unfold State.arbitrate
  split <;> simp

@[simp] theorem State.sendLines_mem (s : State) (sent rs : List Req) : (s.sendLines sent rs).1.mem = s.mem := by
  refine foldl_keeps (fun p : State × List Req => p.1.mem = s.mem) _ (fun p r h => ?_) rs (s, []) rfl
  refine (State.arbitrate_mem _ _).trans (Eq.trans ?_ h)
  split
  · rfl
  · exact State.markReq_mem _ _

@[simp] theorem State.replayReq_mem (s : State) (k : Nat) (r : Req) : (s.replayReq k r).mem = s.mem := by simp [State.replayReq]

@[simp] theorem State.posted_mem (s : State) (r : Req) : (s.posted r).mem = s.mem := by
  unfold State.posted
  dsimp only
  (repeat' split) <;> simp

@[simp] theorem State.noteAccepted_mem (s : State) (r : Req) : (s.noteAccepted r).mem = s.mem := by simp [State.noteAccepted]

@[simp] theorem State.finish_mem (s : State) (h c : Nat) (o : Outst) : (s.finish h c o).mem = s.mem := by
  unfold State.finish
  split <;> simp

@[simp] theorem State.tokenGo_mem (s : State) (dst : Reg) (live : Word) (at_ : Nat) :
    (s.tokenGo dst live at_).mem = s.mem := by simp [State.tokenGo]

@[simp] theorem State.latchEntry_mem (s : State) (x : SpawnEntry) : (s.latchEntry x).mem = s.mem := by
  unfold State.latchEntry
  split <;> simp

@[simp] theorem State.fileAt_mem (s : State) (h c slot : Nat) (pc : Word) (far : Int) :
    (s.fileAt h c slot pc far).mem = s.mem := by rfl

@[simp] theorem State.spawnLane_mem (s : State) (e : Word) (far : Int) (f n l : Nat) :
    (s.spawnLane e far f n l).1.mem = s.mem := by
  unfold State.spawnLane
  dsimp only
  split
  · rfl
  · unfold State.release
    split
    · exact (State.fileAt_mem _ _ _ _ _ _).trans (State.setCore_mem _ _)
    · rfl

@[simp] theorem State.noteEnd_mem (s : State) (h c wgs : Nat) : (s.noteEnd h c wgs).mem = s.mem := by simp [State.noteEnd]

@[simp] theorem State.setBinAge_mem (s : State) (v : Nat) : (s.setBinAge v).mem = s.mem := by simp [State.setBinAge]

@[simp] theorem State.sendCard_mem (s : State) (l : Nat) (c : Card) : (s.sendCard l c).mem = s.mem := by rfl

@[simp] theorem State.numberCard_mem (s : State) (c : Card) : (s.numberCard c).1.mem = s.mem := by rfl

@[simp] theorem State.noteIssue_mem (s : State) : (s.noteIssue).mem = s.mem := by rfl

@[simp] theorem State.settleIssue_mem (s : State) : (s.settleIssue).mem = s.mem := by
  unfold State.settleIssue
  (repeat' split) <;> rfl

@[simp] theorem State.afterIssue_mem (s : State) (r : GRef) : (s.afterIssue r).mem = s.mem := by simp [State.afterIssue]

@[simp] theorem State.modQ_mem (s : State) (h c w q : Nat) (f : CopyQ → CopyQ) : (s.modQ h c w q f).mem = s.mem := by rfl

@[simp] theorem State.modKey_mem (s : State) (key : Nat) (f : Core → Core) : (s.modKey key f).mem = s.mem := by rfl

@[simp] theorem State.markAbsent_mem (s : State) (h : Nat) (j : CopyJob) (code : Nat) :
    (s.markAbsent h j code).mem = s.mem := by
  unfold State.markAbsent
  (repeat' split) <;> rfl

@[simp] theorem State.modEngine_mem (s : State) (h c : Nat) (f : Engine → Engine) : (s.modEngine h c f).mem = s.mem := by rfl

@[simp] theorem State.takeSide_mem (s : State) (h : Nat) (j : CopyJob) : (s.takeSide h j).mem = s.mem := by
  unfold State.takeSide
  split <;> rfl

@[simp] theorem State.accept_mem (s : State) (h : Nat) (j : CopyJob) : (s.accept h j).1.mem = s.mem := by simp [State.accept]

@[simp] theorem State.enlarge_mem (s : State) (h : Nat) (j : CopyJob) : (s.enlarge h j).mem = s.mem := by rfl

@[simp] theorem State.handOn_mem (s : State) (h c : Nat) : (s.handOn h c).mem = s.mem := by simp [State.handOn]

@[simp] theorem State.coalesce_mem (s : State) (h c g : Nat) (j : CopyJob) : (s.coalesce h c g j).mem = s.mem := by
  unfold State.coalesce
  dsimp only
  (repeat' split) <;> simp

@[simp] theorem State.placeQmFence_mem (s : State) (h c w queues : Nat) (ws : NMap Nat) :
    (s.placeQmFence h c w queues ws).mem = s.mem := by rfl

@[simp] theorem State.placeFence_mem (s : State) (h : Nat) (j : CopyJob) (queues : Nat) :
    (s.placeFence h j queues).mem = s.mem := by simp [State.placeFence]

@[simp] theorem State.acceptOne_mem (s : State) (j : CopyJob) : (s.acceptOne j).mem = s.mem := by
  unfold State.acceptOne
  split <;> simp

@[simp] theorem State.acceptAll_mem (s : State) (js : List CopyJob) : (s.acceptAll js).mem = s.mem := by simp [State.acceptAll]

@[simp] theorem State.copyGo_mem (s : State) (js : List CopyJob) : (s.copyGo js).mem = s.mem := by simp [State.copyGo]

@[simp] theorem State.cpa_mem (s : State) (opc n : Nat) (o : CpaOp) : (s.cpa opc n o).mem = s.mem := by
  unfold State.cpa
  dsimp only
  (repeat' split) <;> simp

@[simp] theorem State.tileGo_mem (s : State) (m : MReg) (j : CopyJob) (out descOk : Bool) :
    (s.tileGo m j out descOk).mem = s.mem := by
  unfold State.tileGo
  (repeat' split) <;> simp

@[simp] theorem State.qwaitEnd_mem (s : State) (m : MReg) (a : Reg) (q n : Nat) :
    (s.qwaitEnd m a q n).mem = s.mem := by simp [State.qwaitEnd]

@[simp] theorem State.askCopyWalk_mem (s : State) (h k : Nat) (j : CopyJob) (b : MemByte) :
    (s.askCopyWalk h k j b).mem = s.mem := by
  unfold State.askCopyWalk
  dsimp only
  (repeat' split) <;> simp

@[simp] theorem State.l2Lines_mem (s : State) (rs : List Req) : (s.l2Lines rs).mem = s.mem :=
  foldl_mem _ (fun _ _ => State.l2Touch_mem _ _ _ _ _ _) _ _

@[simp] theorem State.writeScrLine_mem (s : State) (key line : Nat) (bs : List (Nat × Nat)) (pois : Bool) :
    (s.writeScrLine key line bs pois).mem = s.mem := by rfl

@[simp] theorem State.writeSide_mem (s : State) (h c slot n : Nat) (bs : List (Nat × Nat)) (pois : Bool) :
    (s.writeSide h c slot n bs pois).mem = s.mem := by rfl

@[simp] theorem State.finishJob_mem (s : State) (h k : Nat) (j : CopyJob) : (s.finishJob h k j).mem = s.mem := by
  unfold State.finishJob
  split <;> rfl

@[simp] theorem State.qmPlace_mem (s : State) (op : MatOp) : (s.qmPlace op).mem = s.mem := by rfl

@[simp] theorem State.placeOp_mem (s : State) (op : MatOp) (cv : Nat) (lanes : Word) :
    (s.placeOp op cv lanes).mem = s.mem := by simp [State.placeOp]

@[simp] theorem State.record_mem (s : State) (op : MatOp) (cv : Nat) (lanes : Word) : (s.record op cv lanes).mem = s.mem := by
  unfold State.record
  dsimp only
  (repeat' split) <;> simp

@[simp] theorem State.sign_mem (s : State) (m : MReg) (cv : BitVec 3) (bad : MatTrap) (op : MatOp) :
    (s.sign m cv bad op).mem = s.mem := by
  unfold State.sign
  dsimp only
  (repeat' split) <;> simp

@[simp] theorem State.modQm_mem (s : State) (h c w : Nat) (f : QmState → QmState) : (s.modQm h c w f).mem = s.mem := by rfl

@[simp] theorem State.placeFail_mem (s : State) (h c w : Nat) : (s.placeFail h c w).mem = s.mem := by
  refine foldl_mem _ (fun t e => ?_) _ _
  split
  · split
    · exact State.trap_mem _ _ _ _ _
    · rfl
  · rfl

@[simp] theorem State.qmFail_mem (s : State) (h c w cause : Nat) (op : MatOp) :
    (s.qmFail h c w cause op).mem = s.mem := by simp [State.qmFail]

@[simp] theorem State.stepWait_mem (s : State) (h c : Nat) : (s.stepWait h c).mem = s.mem := by rfl

@[simp] theorem State.stepDone_mem (s : State) (h c w : Nat) (op : MatOp) :
    (s.stepDone h c w op).mem = s.mem := by simp [State.stepDone]

@[simp] theorem State.measureAll_mem (s : State) : (s.measureAll).mem = s.mem := by
  refine foldl_mem _ (fun t e => ?_) _ _
  split
  · split
    · rfl
    · exact State.modKey_mem _ _ _
  · rfl

@[simp] theorem State.mapWrite_mem (s : State) (a w v : Nat) : (s.mapWrite a w v).mem = s.mem := by
  unfold State.mapWrite
  split <;> simp

@[simp] theorem State.respond_mem (s : State) (r : HostResp) : (s.respond r).mem = s.mem := by rfl

@[simp] theorem State.modCk_mem (s : State) (f : Nat) (g : Ckpt → Ckpt) : (s.modCk f g).mem = s.mem := by rfl

@[simp] theorem State.dropWork_mem (s : State) (f : Nat) : (s.dropWork f).mem = s.mem := by rfl

@[simp] theorem State.putQueues_mem (s : State) (im : Image) : (s.putQueues im).mem = s.mem :=
  foldl_mem _ (fun _ _ => State.setHum_mem _ _ _) _ _

@[simp] theorem State.putBack_mem (s : State) (im : Image) : (s.putBack im).mem = s.mem :=
  (State.putQueues_mem _ _).trans ((foldl_mem _ (fun _ _ => State.setHum_mem _ _ _) _ _).trans
    (foldl_mem _ (fun _ _ => State.setHum_mem _ _ _) _ _))

@[simp] theorem State.dropImage_mem (s : State) (f status : Nat) : (s.dropImage f status).mem = s.mem := by rfl

@[simp] theorem State.prego_mem (s : State) (vf : Nat) : (s.prego vf).mem = s.mem := by simp [State.prego]

@[simp] theorem State.killgo_mem (s : State) (vf id : Nat) : (s.killgo vf id).mem = s.mem := by simp [State.killgo]

@[simp] theorem State.endSome_mem (s : State) (l status : Nat) (who : GRef → Bool) :
    (s.endSome l status who).mem = s.mem := by simp [State.endSome]

@[simp] theorem State.modQueue_mem (s : State) (h q : Nat) (f : HwQueue → HwQueue) : (s.modQueue h q f).mem = s.mem := by rfl

@[simp] theorem State.takeRecord_mem (s : State) (h q n : Nat) (x : Launch) : (s.takeRecord h q n x).mem = s.mem := by rfl

@[simp] theorem State.takeCtxs_mem (s : State) (l : Nat) (hs : List Nat) : (s.takeCtxs l hs).mem = s.mem := by
  refine foldl_mem _ (fun t h => ?_) _ _
  split
  · exact State.setHum_mem _ _ _
  · rfl

@[simp] theorem State.placeWg_mem (s : State) (l : Nat) (x : Launch) (h c m gctx : Nat) (fit : Fit) :
    (s.placeWg l x h c m gctx fit).mem = s.mem := by rfl

@[simp] theorem State.placeGang_mem (s : State) (l : Nat) (x : Launch) (k h : Nat) (cores : NMap Nat) :
    (s.placeGang l x k h cores).mem = s.mem :=
  (State.setLaunch_mem _ _ _).trans ((foldl_mem _ (fun _ _ => State.setCoreAt_mem _ _ _ _) _ _).trans
    ((foldl_mem _ (fun _ _ => State.placeWg_mem _ _ _ _ _ _ _ _) _ _).trans (State.setHum_mem _ _ _)))

@[simp] theorem State.newWbars_mem (s : State) (x : Launch) (r : GRef) : (s.newWbars x r).mem = s.mem := by
  refine foldl_mem _ (fun t b => ?_) _ _
  split
  · dsimp only
    split
    · exact State.setCoreAt_mem _ _ _ _
    · rfl
  · rfl

@[simp] theorem State.newGbars_mem (s : State) (x : Launch) (h gctx : Nat) :
    (s.newGbars x h gctx).mem = s.mem := by simp [State.newGbars]

@[simp] theorem State.newLbars_mem (s : State) (l : Nat) (x : Launch) : (s.newLbars l x).mem = s.mem := by
  refine foldl_mem _ (fun t h => ?_) _ _
  split
  · rfl
  · refine foldl_mem _ (fun u b => ?_) _ _
    split
    · exact State.setHum_mem _ _ _
    · rfl

@[simp] theorem State.addLbars_mem (s : State) (l : Nat) (x : Launch) (h : Nat) : (s.addLbars l x h).mem = s.mem := by
  unfold State.addLbars
  (repeat' split) <;> simp

@[simp] theorem State.setupWg_mem (s : State) (x : Launch) (r : GRef) : (s.setupWg x r).mem = s.mem := by simp [State.setupWg]

@[simp] theorem State.dropCode_mem (s : State) (hs : List Nat) : (s.dropCode hs).mem = s.mem := by rfl

@[simp] theorem State.fileWg_mem (s : State) (x : Launch) (r : GRef) : (s.fileWg x r).mem = s.mem := by rfl

@[simp] theorem State.freeQueue_mem (s : State) (l : Nat) (x : Launch) : (s.freeQueue l x).mem = s.mem := by rfl

@[simp] theorem State.fileGang_mem (s : State) (l : Nat) (x : Launch) : (s.fileGang l x).mem = s.mem := by simp [State.fileGang]

@[simp] theorem State.dropGbars_mem (s : State) (h : Nat) : (s.dropGbars h).mem = s.mem := by rfl

@[simp] theorem State.dropCtxs_mem (s : State) (l : Nat) (x : Launch) : (s.dropCtxs l x).mem = s.mem := by simp [State.dropCtxs]

@[simp] theorem State.writeBack_mem (s : State) (f : Nat) (im : Image) (hm : NMap Nat) :
    (s.writeBack f im hm).mem = s.mem := by simp [State.writeBack]

@[simp] theorem State.restoreFail_mem (s : State) (f g stat status : Nat) :
    (s.restoreFail f g stat status).mem = s.mem := by rfl

@[simp] theorem State.restoreFrom_mem (s : State) (f g : Nat) : (s.restoreFrom f g).mem = s.mem := by
  unfold State.restoreFrom
  dsimp only
  (repeat' split) <;> simp

@[simp] theorem State.restoreGo_mem (s : State) (f : Nat) : (s.restoreGo f).mem = s.mem := by
  unfold State.restoreGo
  dsimp only
  (repeat' split) <;> simp

@[simp] theorem State.loseChiplet_mem (s : State) (h : Nat) : (s.loseChiplet h).mem = s.mem := by simp [State.loseChiplet]

@[simp] theorem State.clearCores_mem (s : State) (h : Nat) (st : CoreStatus) : (s.clearCores h st).mem = s.mem :=
  foldl_mem _ (fun _ _ => State.setCoreAt_mem _ _ _ _) _ _

@[simp] theorem State.isolateCores_mem (s old : State) (h : Nat) : (s.isolateCores old h).mem = s.mem :=
  foldl_mem _ (fun _ _ => State.setCoreAt_mem _ _ _ _) _ _

@[simp] theorem State.resumeWg_mem (s : State) (h c w : Nat) : (s.resumeWg h c w).mem = s.mem := by
  unfold State.resumeWg
  dsimp only
  (repeat' split) <;> simp

@[simp] theorem State.modRegs_mem (s : State) (h : Nat) (f : HumRegs → HumRegs) : (s.modRegs h f).mem = s.mem := by rfl

@[simp] theorem State.writePart_mem (s : State) (h f v : Nat) : (s.writePart h f v).mem = s.mem := by simp [State.writePart]

@[simp] theorem State.writeWays_mem (s : State) (h v : Nat) : (s.writeWays h v).mem = s.mem := by simp [State.writeWays]

@[simp] theorem State.writeShares_mem (s : State) (h q : Nat) (ws : List (Nat × Nat)) :
    (s.writeShares h q ws).mem = s.mem := by simp [State.writeShares]

@[simp] theorem State.scrubStart_mem (s : State) (d : ScrubDesc) : (s.scrubStart d).mem = s.mem :=
  foldl_mem _ (fun _ _ => State.setHum_mem _ _ _) _ _

@[simp] theorem State.scrubClear_mem (s : State) (d : ScrubDesc) (h : Nat) : (s.scrubClear d h).mem = s.mem :=
  (foldl_mem _ (fun _ _ => State.setCoreAt_mem _ _ _ _) _ _).trans (State.setHum_mem _ _ _)

@[simp] theorem State.scrubToken_mem (s : State) (d : ScrubDesc) (g : Scrub) : (s.scrubToken d g).mem = s.mem := by
  have hd := foldl_mem (fun (t : State) h => t.setHum h { t.humAt h with
    scrub := { (t.humAt h).scrub with busy := false, signing := false, token := s.tokenOf d g }
    regs := (t.humAt h).regs.releaseWays }) (fun _ _ => State.setHum_mem _ _ _) d.hums { s with freeCtr := s.freeCtr + 1 }
  unfold State.scrubToken
  dsimp only
  split
  · exact hd
  · exact (State.setFn_mem _ _ _).trans hd

@[simp] theorem State.scrubResult_mem (s0 : State) (r : GRef) (seq : Nat) : (s0.scrubResult r seq).mem = s0.mem := by
  unfold State.scrubResult
  dsimp only
  (repeat' split) <;> simp

@[simp] theorem State.scrubCleared_mem (s : State) (d : ScrubDesc) : (s.scrubCleared d).mem = s.mem :=
  (foldl_mem _ (fun _ _ => State.setHum_mem _ _ _) _ _).trans ((foldl_mem _ (fun _ _ => State.modRegs_mem _ _ _) _ _).trans
    (foldl_mem _ (fun _ _ => State.scrubClear_mem _ _ _) _ _))

@[simp] theorem State.dbmSwap_mem (s : State) (f : Nat) : (s.dbmSwap f).mem = s.mem := by simp [State.dbmSwap]

@[simp] theorem State.joinDomain_mem (s : State) : (s.joinDomain).mem = s.mem := by simp [State.joinDomain]

@[simp] theorem State.setChip_mem (s : State) (t : Nat) : (s.setChip t).mem = s.mem := by rfl

@[simp] theorem State.fwStart_mem (s : State) : (s.fwStart).mem = s.mem := by simp [State.fwStart]

@[simp] theorem State.setStack_mem (s : State) (h k : Nat) (x : Stack) : (s.setStack h k x).mem = s.mem := by rfl

@[simp] theorem State.setLink_mem (s : State) (h l : Nat) (x : Link) : (s.setLink h l x).mem = s.mem := by rfl

@[simp] theorem State.failStack_mem (s : State) (h k : Nat) : (s.failStack h k).mem = s.mem := by rfl

@[simp] theorem State.failPort_mem (s : State) (h l : Nat) : (s.failPort h l).mem = s.mem := by simp [State.failPort]

@[simp] theorem State.failChiplet_mem (s : State) (h : Nat) : (s.failChiplet h).mem = s.mem := by simp [State.failChiplet]

@[simp] theorem State.setHalf_mem (s : State) (h : Nat) (half : Bool) :
    (s.setHalf h half).mem = s.mem := by simp [State.setHalf]

@[simp] theorem State.bankAck_mem (s : State) (h k bank : Nat) : (s.bankAck h k bank).mem = s.mem := by simp [State.bankAck]

@[simp] theorem State.retrain_mem (s : State) (h port : Nat) : (s.retrain h port).mem = s.mem := by simp [State.retrain]

@[simp] theorem State.float1_mem (s : State) (m : MReg) (sg : Signs) (d a : Reg) (f : FVal → Nat) :
    (s.float1 m sg d a f).mem = s.mem := by simp [State.float1]

@[simp] theorem State.float2_mem (s : State) (m : MReg) (sg : Signs) (d a b : Reg) (f : FVal → FVal → Nat) :
    (s.float2 m sg d a b f).mem = s.mem := by simp [State.float2]

@[simp] theorem State.fdot_mem (s : State) (m : MReg) (t : Ty) (rm : Rnd) (sg : Signs) (d a b e : Reg) :
    (s.fdot m t rm sg d a b e).mem = s.mem := by simp [State.fdot]

@[simp] theorem State.tenantWrite_mem (s : State) (hyp : Bool) (f o v : Nat) : (s.tenantWrite hyp f o v).mem = s.mem := by
  unfold State.tenantWrite
  (repeat' split) <;> simp

@[simp] theorem State.startQuery_mem (s : State) (f va : Nat) : (s.startQuery f va).mem = s.mem := by simp [State.startQuery]

@[simp] theorem State.portWrite_mem (s : State) (hyp : Bool) (f o v : Nat) : (s.portWrite hyp f o v).mem = s.mem := by
  unfold State.portWrite
  split <;> simp

@[simp] theorem State.handlerWrite_mem (s : State) (hyp : Bool) (f o v : Nat) :
    (s.handlerWrite hyp f o v).mem = s.mem := by simp [State.handlerWrite]

@[simp] theorem State.humTenantWrite_mem (s : State) (h o v : Nat) : (s.humTenantWrite h o v).mem = s.mem := by
  unfold State.humTenantWrite
  (repeat' split) <;> simp

@[simp] theorem State.fwWrite_mem (s : State) (o v : Nat) : (s.fwWrite o v).mem = s.mem := by
  unfold State.fwWrite
  split <;> simp

@[simp] theorem State.domRefuse_mem (s : State) : (s.domRefuse).mem = s.mem := by rfl

@[simp] theorem State.writeLogical_mem (s : State) (h v : Nat) :
    (s.writeLogical h v).mem = s.mem := by simp [State.writeLogical]

@[simp] theorem State.domainWrite_mem (s : State) (o v : Nat) : (s.domainWrite o v).mem = s.mem := by
  unfold State.domainWrite
  (repeat' split) <;> simp

@[simp] theorem State.setWdog_mem (s : State) (h c v : Nat) : (s.setWdog h c v).mem = s.mem := by rfl

@[simp] theorem State.setWdlim_mem (s : State) (h c : Nat) (all : Bool) (v : Nat) :
    (s.setWdlim h c all v).mem = s.mem := by simp [State.setWdlim]

@[simp] theorem State.keepHostWrite_mem (s : State) (a w v : Nat) : (s.keepHostWrite a w v).mem = s.mem := by
  unfold State.keepHostWrite
  split <;> rfl

@[simp] theorem State.maskOp_mem (s : State) (m d : MReg) (v : Word) : (s.maskOp m d v).mem = s.mem := by rfl

@[simp] theorem State.exchange_mem (s : State) (m : MReg) (d a : Reg) (src : Nat → Nat) :
    (s.exchange m d a src).mem = s.mem := by simp [State.exchange]

@[simp] theorem halfWrite_mem (s t : State) (odd : Bool) (p : PHalf) : (halfWrite s t odd p).mem = t.mem := by simp [halfWrite]

@[simp] theorem State.wdWrite_mem (s : State) (v : Nat) : (s.wdWrite v).mem = s.mem := by
  unfold State.wdWrite
  dsimp only
  (repeat' split) <;> simp

@[simp] theorem State.rsWrite_mem (s : State) (v : Nat) : (s.rsWrite v).mem = s.mem := by simp [State.rsWrite]

@[simp] theorem State.mapHeal_mem (s : State) (op : MemOp) : (s.mapHeal op).mem = s.mem := by
  refine foldl_mem _ (fun t ln => ?_) _ _
  split
  · split
    · exact State.modKey_mem _ _ _
    · rfl
  · rfl

@[simp] theorem State.settleBars_mem (s : State) (n : Nat) : (s.settleBars n).mem = s.mem := by rfl

@[simp] theorem State.idle_mem (s : State) (n : Nat) : (s.idle n).mem = s.mem := by simp [State.idle]

@[simp] theorem State.nextCycle_mem (s : State) (h : Nat) : (s.nextCycle h).mem = s.mem := by simp [State.nextCycle]

@[simp] theorem State.issueTime_mem (s : State) (r : GRef) : (s.issueTime r).mem = s.mem := by simp [State.issueTime]

end Sys2Proof.Machine
end

section
/-! SUPPORT. Walks, requests at their homes, and the accesses in their forms keep the memory canonical. -/

namespace Sys2Proof.Machine

open Sys2Proof.Safety

/-- A choice between two states that are canonical is canonical. -/
theorem memOk_ite {c : Prop} [Decidable c] {s t : State} (hs : MemOk s) (ht : MemOk t) : MemOk (if c then s else t) := by
  split <;> assumption

theorem memOk_ite_fst {α : Type} {c : Prop} [Decidable c] {p q : State × α} (hp : MemOk p.1) (hq : MemOk q.1) :
    MemOk (if c then p else q).1 := by
  split <;> assumption

/-! ### Tables, walks and the Enlarger's own writes -/

theorem memOk_flushErrs {s : State} (h f : Nat) (held : List (List Byte)) (hs : MemOk s) : MemOk (s.flushErrs h f held) := by
  induction held generalizing s with
  | nil => exact hs
  | cons e es ih =>
    have hd : ∀ (w : Walked) upd, MemOk ((s.drainReads w.reads).writeMarks f upd) :=
      fun w upd => memOk_writeMarks f upd (memOk_drainReads w.reads hs)
    unfold State.flushErrs
    dsimp only
    split
    · exact ih (memOk_of_mem (by simp) hs)
    · generalize s.walkFull h f ((s.fnAt f).err.base + 32 * (s.fnAt f).err.tail) { w := true } = w
      split
      next t upd _ =>
        split
        next d _ => exact ih (memOk_logErrN 0 0 d.1 h d.2.1 d.2.2 (memOk_of_mem (by simp) (hd w upd)))
        next =>
          split
          · exact hs
          · exact ih (memOk_of_mem (State.setFn_mem _ _ _)
              (memOk_putErr f _ e (memOk_of_mem (State.l2At_mem _ _ _ _ _) (hd w upd))))
      · exact hs
      · exact ih (memOk_of_mem (State.lostErr_mem _ _) (foldl_keeps MemOk _ (fun _ _ ht => memOk_logErrN 0 _ _ _ _ _ ht) _ _
          (memOk_of_mem (State.setFn_mem _ _ _) (memOk_drainReads w.reads hs))))

theorem memOk_dirtyReady {s : State} (a : Nat) (hs : MemOk s) : MemOk (s.dirtyReady a) :=
  foldl_keeps MemOk _ (fun _ _ ht => memOk_besides _ _ _ ht) _ _ hs

theorem memOk_winArrive {s : State} (home a : Nat) (c : WinAcc) (hs : MemOk s) : MemOk (s.winArrive home a c) :=
  memOk_ite (memOk_logErr _ _ _ _ _ hs) (memOk_winAccept _ _ _ hs)

/-- What a walk logs and reads keeps the canonical form. -/
theorem memOk_noteWalk {s : State} (f h : Nat) (r : Walked) (hs : MemOk s) : MemOk (s.noteWalk f h r) := by
  refine foldl_keeps MemOk _ (fun t a ht => ?_) _ _
    (foldl_keeps MemOk _ (fun _ _ ht => memOk_logErr _ _ _ _ _ ht) _ _ (memOk_drainReads _ hs))
  exact memOk_ite (memOk_logErr _ _ _ _ _ ht)
    (memOk_ite (memOk_of_mem (State.l2At_mem _ _ _ _ _) ht) (memOk_logErr _ _ _ _ _ ht))

theorem memOk_devWalk {s : State} (h f va : Nat) (need : Need) (hs : MemOk s) : MemOk (s.devWalk h f va need).1 := by
  have hn := fun r => memOk_noteWalk f h r hs
  refine memOk_ite_fst hs (memOk_ite_fst hs ?_)
  dsimp only
  split
  · exact memOk_of_mem (State.keepWalk_mem _ _ _ _) (memOk_writeMarks _ _ (hn _))
  · exact hn _
  · exact hn _

theorem memOk_devWrite {s : State} (h f i va : Nat) (bs : List Byte) (hs : MemOk s) : MemOk (s.devWrite h f i va bs).1 := by
  have hw := memOk_devWalk h f va { w := true } hs
  unfold State.devWrite
  split
  next heq =>
    rw [heq] at hw
    dsimp only
    split
    · exact memOk_logErr _ _ _ _ _ hw
    · exact memOk_ite_fst hw
        (memOk_performBytes _ _ _ _ (memOk_of_mem (State.l2At_mem _ _ _ _ _) (memOk_drainFor _ _ hw)))
  · exact hw

/-! ### Requests at their homes -/

theorem memOk_lanesPerform {s : State} (r : Req) (is : List LaneAcc) (got : List LaneAcc) (hs : MemOk s) :
    MemOk (is.foldl (fun (p : State × List LaneAcc) i =>
      let q := p.1.lanePerform r i
      (q.1, p.2 ++ [{ i with val := q.2 }])) (s, got)).1 :=
  foldl_keeps (fun p : State × List LaneAcc => MemOk p.1) _ (fun _ i ht => memOk_lanePerform r i ht) is (s, got) hs

theorem memOk_performReq {s : State} (r : Req) (hs : MemOk s) : MemOk (s.performReq r).1 := by
  have h1 : MemOk (if s.assigned (r.line * 128) then s else s.logErr 0 3 r.who.h (r.line * 128) 0) :=
    memOk_ite hs (memOk_logErr _ _ _ _ _ hs)
  unfold State.performReq
  dsimp only
  generalize (if s.assigned (r.line * 128) then s else s.logErr 0 3 r.who.h (r.line * 128) 0) = u at h1
  have h2 : MemOk (if r.tray then u else u.sendFlit r) := memOk_ite h1 (memOk_of_mem (State.sendFlit_mem _ _) h1)
  generalize (if r.tray then u else u.sendFlit r) = v at h2
  have h3 : MemOk (if r.tray || v.l1Hit r then v else v.l2Touch r.fn (r.home, r.slice) r.sp r.line r.kind.writes) :=
    memOk_ite h2 (memOk_of_mem (State.l2Touch_mem _ _ _ _ _ _) h2)
  generalize (if r.tray || v.l1Hit r then v else v.l2Touch r.fn (r.home, r.slice) r.sp r.line r.kind.writes) = w at h3
  have h4 := memOk_lanesPerform r r.items [] h3
  refine memOk_ite_fst ?_ (memOk_ite_fst (memOk_putTray _ _ h3) (memOk_ite h4 (memOk_ite (memOk_putTray _ _ h4) h4)))
  dsimp only
  split
  · exact h3
  · exact memOk_logErr _ _ _ _ _ h3

theorem memOk_performAll {s : State} (rs : List Req) (hs : MemOk s) : MemOk (s.performAll rs).1 :=
  foldl_keeps (fun p : State × List LaneAcc => MemOk p.1)
    (fun p r => ((p.1.performReq r).1, p.2 ++ (p.1.performReq r).2)) (fun _ r ht => memOk_performReq r ht) rs (s, []) hs

/-! ### Scratchpad accesses, which log poisoned lines -/

theorem memOk_scrDrops {s : State} (f : Nat) (op : MemOp) (hs : MemOk s) : MemOk (s.scrDrops f op) := by
  unfold State.scrDrops
  split
  · exact hs
  · exact hs
  · exact foldl_keeps MemOk _ (fun _ _ ht => memOk_ite (memOk_logErr _ _ _ _ _ ht) ht) _ _ hs

theorem memOk_scrAccess {s : State} (f : Nat) (op : MemOp) (hs : MemOk s) : MemOk (s.scrAccess f op).1 :=
  memOk_of_mem (State.scrHeal_mem _ _) (foldl_keeps (fun p : State × List LaneAcc => MemOk p.1) _
    (fun _ _ ht => memOk_of_mem (State.scrLane_mem _ _ _) ht) op.parts (s.scrDrops f op, []) (memOk_scrDrops f op hs))

theorem memOk_scrPerform {s : State} (op : MemOp) (hs : MemOk s) : MemOk (s.scrPerform op) :=
  memOk_of_mem (State.complete_mem _ _ _) (memOk_scrAccess _ op hs)

theorem memOk_scrAct {s : State} (op : MemOp) (hs : MemOk s) : MemOk (s.scrAct op) := by
  unfold State.scrAct
  split
  · exact memOk_ite (memOk_scrPerform op hs) (memOk_of_mem (State.scrDefer_mem _ _) hs)
  · exact memOk_scrPerform op hs

theorem memOk_scrGo {s : State} (op : MemOp) (hs : MemOk s) : MemOk (s.scrGo op) := by
  unfold State.scrGo
  split
  · exact memOk_of_mem (by simp) hs
  · exact memOk_ite (memOk_scrAct op hs) (memOk_of_mem (by simp) hs)

/-! ### Accesses in their forms -/

theorem memOk_issueReqs {s : State} (op : MemOp) (rs : List Req) (hs : MemOk s) : MemOk (s.issueReqs op rs) := by
  unfold State.issueReqs
  dsimp only
  refine memOk_ite (memOk_of_mem (State.complete_mem _ _ _) (memOk_performAll _ (memOk_of_mem (by simp) hs))) ?_
  exact memOk_ite (memOk_of_mem (by simp) hs) (memOk_of_mem (by simp) hs)

/-- Keeping the translations of an access leaves memory alone. -/
theorem State.keepTlbs_mem (ts : List (Nat × Tlb)) (s : State) : (ts.foldl (fun t p => t.keepTlb p.2) s).mem = s.mem :=
  foldl_mem _ (fun _ _ => State.keepTlb_mem _ _) ts s

theorem memOk_memGo {s : State} (op : MemOp) (hs : MemOk s) : MemOk (s.memGo op) := by
  unfold State.memGo
  dsimp only
  split
  · exact memOk_of_mem (by simp) hs
  · exact memOk_of_mem (by simp) hs
  · exact memOk_of_mem (by simp) hs
  · split
    · exact memOk_of_mem (State.trap_mem _ _ _ _ _) (memOk_ite hs (memOk_logErr _ _ _ _ _ hs))
    · exact memOk_issueReqs _ _ (memOk_of_mem (State.keepTlbs_mem _ _) hs)

theorem memOk_accGo {s : State} (op : MemOp) (hs : MemOk s) : MemOk (s.accGo op) := by
  have hb : MemOk (match s.bankWait op with
      | some w => s.setWait w
      | none => s.scrGo op) := by
    split
    · exact memOk_of_mem (by simp) hs
    · exact memOk_scrGo op hs
  unfold State.accGo
  dsimp only
  split
  · exact hb
  · exact hb
  · exact memOk_memGo op hs

/-- What an access does once its checks are made: it ends, traps, or goes on. -/
theorem memOk_chkGo {s : State} (c : Chk) (go : MemOp → State) (hs : MemOk s) (hg : ∀ op, MemOk (go op)) :
    MemOk (s.chkGo c go) := by
  unfold State.chkGo
  split
  · exact memOk_of_mem (by simp) hs
  · exact memOk_of_mem (by simp) hs
  · exact hg _

/-- A record form's first step: its record is read and held. -/
theorem memOk_held {s : State} (buf : BufR) (hs : MemOk s) :
    MemOk (if s.grp.held.isNone then s.setGrp { s.grp with held := some (mget {} s.wg.b buf.toNat) } else s) :=
  memOk_of_mem (by simp) hs

theorem memOk_recForm {s : State} (f : Form) (m : MReg) (b : Reg) (buf : BufR) (off : Int) (hs : MemOk s) :
    MemOk (s.recForm f m b buf off) := by
  have hu := memOk_held buf hs
  unfold State.recForm
  dsimp only
  generalize (if s.grp.held.isNone then s.setGrp { s.grp with held := some (mget {} s.wg.b buf.toNat) } else s) = u at hu
  have hw : ∀ w, MemOk (u.setWait w) := fun w => memOk_of_mem (by simp) hu
  exact memOk_chkGo _ _ hu (fun op => memOk_ite (hw _) (memOk_ite (hw _) (memOk_ite (hw _) (memOk_accGo op hu))))

theorem memOk_scrForm {s : State} (f : Form) (m : MReg) (b : Reg) (off : Int) (hs : MemOk s) : MemOk (s.scrForm f m b off) :=
  memOk_chkGo _ _ hs (fun op => memOk_accGo op hs)

/-! ### Prefetches -/

theorem memOk_prfWalk {s : State} (va : Nat) (hs : MemOk s) : MemOk (s.prfWalk va).1 := by
  have hw := memOk_devWalk s.cur.h s.accFn va { r := true } hs
  unfold State.prfWalk
  split
  · exact hs
  · refine memOk_ite_fst hs ?_
    split
    next heq => rw [heq] at hw; exact memOk_of_mem (State.installTlb_mem _ _ _) hw
    next heq => rw [heq] at hw; exact hw

theorem memOk_fillLine {s : State} (line : Nat) (hs : MemOk s) : MemOk (s.fillLine line) :=
  foldl_keeps MemOk _ (fun _ _ ht => memOk_ite ht (memOk_of_mem (State.l1Fill_mem _ _ _ _) (memOk_drainFor _ _ ht))) _ _ hs

theorem memOk_prfLine {s : State} (n va : Nat) (hs : MemOk s) : MemOk (s.prfLine n va) := by
  have hw := memOk_prfWalk va hs
  unfold State.prfLine
  split
  next heq => rw [heq] at hw; exact hw
  next u _ heq =>
    rw [heq] at hw
    exact memOk_ite hw (memOk_ite (c := Config.prefetchFills n = true) (memOk_fillLine _ hw) hw)

theorem memOk_prfOne {s : State} (va : Nat) (hs : MemOk s) : MemOk (s.prfOne va) :=
  memOk_ite (memOk_prfLine _ _ (memOk_of_mem rfl hs)) (memOk_of_mem rfl hs)

theorem memOk_queryWalk {s : State} (h f va : Nat) (hs : MemOk s) : MemOk (s.queryWalk h f va).1 := memOk_noteWalk _ _ _ hs

end Sys2Proof.Machine
end

section
/-! SUPPORT. Barriers, page requests, page exchanges, requests on their way, threads that end and the copy units keep the
memory canonical. -/

namespace Sys2Proof.Machine

open Sys2Proof.Safety

/-! ### Barriers, whose refusals are logged -/

theorem memOk_barDenied {s : State} (h c w : Nat) (hs : MemOk s) : MemOk (s.barDenied h c w) := memOk_logErr _ _ _ _ _ hs

theorem memOk_arrive {s : State} (bar : Nat) (ls : List Nat) (hs : MemOk s) : MemOk (s.arrive bar ls) :=
  memOk_ite (memOk_of_mem (by simp) hs) (memOk_barDenied _ _ _ hs)

theorem memOk_arriveGo {s : State} (bar : Nat) (lanes counted : Word) (arw : Bool) (cs : List (Nat × BarCond)) (hs : MemOk s) :
    MemOk (s.arriveGo bar lanes counted arw cs) := by
  have ha := memOk_arrive bar ((lanesOf lanes).filter (fun l => !(s.mustHold bar l))) hs
  exact memOk_ite (memOk_ite (memOk_of_mem (by simp) ha) (memOk_of_mem (by simp) ha)) (memOk_of_mem (by simp) ha)

theorem memOk_arriveInstr {s : State} (m : MReg) (bar : Nat) (arw : Bool) (hs : MemOk s) : MemOk (s.arriveInstr m bar arw) := by
  have hn : ∀ {t : State}, t.mem = s.mem → MemOk t := fun e => memOk_of_mem e hs
  exact memOk_ite (hn (by simp)) (memOk_ite (hn (by simp)) (memOk_ite (hn (by simp)) (memOk_ite (hn (by simp))
    (memOk_ite (memOk_arriveGo _ _ _ _ _ hs) (hn (by simp))))))

theorem memOk_leaveBarriers {s : State} (h c w tidx : Nat) (hs : MemOk s) : MemOk (s.leaveBarriers h c w tidx) := by
  refine foldl_keeps MemOk _ (fun t bar ht => ?_) _ _ hs
  exact memOk_ite (memOk_barDenied _ _ _ ht) (memOk_ite (memOk_of_mem (by simp) ht) ht)

/-! ### Page requests and replies -/

theorem memOk_flushRing {s : State} (h f stage : Nat) (es : List (List Byte)) (hs : MemOk s) :
    MemOk (s.flushRing h f stage es) := by
  induction es generalizing s with
  | nil => exact hs
  | cons e es ih =>
    have hw := memOk_devWrite h (ringFn f stage) 9 (((s.fnAt f).ring stage).base + 32 * ((s.fnAt f).ring stage).tail) e hs
    unfold State.flushRing
    dsimp only
    refine memOk_ite (memOk_of_mem (by simp) hs) ?_
    split
    next heq => rw [heq] at hw; exact ih (memOk_of_mem (by simp) hw)
    next heq => rw [heq] at hw; exact memOk_of_mem (by simp) hw

theorem memOk_retryRing {s : State} (f stage : Nat) (hs : MemOk s) : MemOk (s.retryRing f stage) :=
  memOk_ite hs (memOk_flushRing _ _ _ _ hs)

theorem memOk_postRequest {s : State} (h f stage flags page launch : Nat) (hs : MemOk s) :
    MemOk (s.postRequest h f stage flags page launch).1 :=
  memOk_flushRing _ _ _ _ (memOk_of_mem (State.setFn_mem _ _ _) hs)

theorem memOk_walkFailed {s : State} (h : Nat) (w : Walk) (stage : Nat) (invalid : Bool) (need : Need) (page : Nat) (hs : MemOk s) :
    MemOk (s.walkFailed h w stage invalid need page) :=
  memOk_ite (memOk_of_mem (by simp) hs) (memOk_ite (memOk_of_mem (by simp) hs)
    (memOk_of_mem (State.setHum_mem _ _ _) (memOk_postRequest _ _ _ _ _ _ hs)))

/-- A walk that is made keeps the canonical form, however it ends. -/
theorem memOk_walkGo {s : State} (h : Nat) (w : Walk) (hs : MemOk s) : MemOk (s.walkGo h w) := by
  have hn := fun r => memOk_noteWalk w.fn h r hs
  unfold State.walkGo
  dsimp only
  split
  · exact memOk_of_mem (State.holdWalk_mem _ _ _) (hn _)
  · exact memOk_of_mem ((State.walkOk_mem _ _ _ _).trans (State.keepWalk_mem _ _ _ _)) (memOk_writeMarks _ _ (hn _))
  · exact memOk_walkFailed _ _ _ _ _ _ (hn _)

theorem memOk_reply {s : State} (f stage v : Nat) (hs : MemOk s) : MemOk (s.reply f stage v) := by
  have hn : ∀ {t : State}, t.mem = s.mem → MemOk t := fun e => memOk_of_mem e hs
  refine memOk_ite (memOk_logErr _ _ _ _ _ hs) ?_
  dsimp only
  split
  · split
    · exact memOk_ite (hn (by simp)) (hn (by simp))
    · exact memOk_ite (hn (by simp)) (hn (by simp))
  · exact memOk_ite (hn (by simp)) (hn (by simp))

theorem memOk_writePrqHead {s : State} (f stage v : Nat) (hs : MemOk s) : MemOk (s.writePrqHead f stage v) :=
  memOk_ite (memOk_logErr _ _ _ _ _ hs) (memOk_flushRing _ _ _ _ (memOk_of_mem (State.setFn_mem _ _ _) hs))

theorem memOk_renew {s : State} (h k : Nat) (t : Tlb) (hs : MemOk s) : MemOk (s.renew h k t) := by
  unfold State.renew
  dsimp only
  split
  · exact hs
  · refine memOk_ite (memOk_ite hs (memOk_of_mem (State.setJob_mem _ _ _ _) ?_)) hs
    split
    · exact memOk_of_mem (State.keepWalk_mem _ _ _ _) (memOk_writeMarks _ _ (memOk_noteWalk _ _ _ hs))
    · exact memOk_noteWalk _ _ _ hs

/-! ### Page exchanges -/

theorem memOk_drainRange {s : State} (a n : Nat) (hs : MemOk s) : MemOk (s.drainRange a n) :=
  foldl_keeps MemOk _ (fun _ _ ht => foldl_keeps MemOk _ (fun _ _ hu => memOk_drainWin _ _ hu) _ _ ht) _ _ hs

theorem memOk_beginSwap {s : State} (f va frame tier : Nat) (hs : MemOk s) : MemOk (s.beginSwap f va frame tier) := by
  unfold State.beginSwap
  split
  · exact hs
  · exact memOk_ite hs (memOk_of_mem rfl (memOk_performStore _ _ _ 8 _ (memOk_drainFor _ 8 hs)))

theorem memOk_endSwap {s : State} (w : Swap) (hs : MemOk s) : MemOk (s.endSwap w) := by
  have hc : MemOk { s.drainRange w.from_ w.size with
      mem := copyRange (s.drainRange w.from_ w.size).mem w.from_ w.to_ w.size
      poison := movePoison (s.drainRange w.from_ w.size).poison w.from_ w.to_ w.size } :=
    wf_copyRange _ _ _ (memOk_drainRange _ _ hs)
  exact memOk_performStore _ _ _ _ _ (memOk_performStore _ _ _ _ _ (memOk_drainFor _ _ hc))

/-! ### Requests on their way -/

theorem memOk_acceptReq {s : State} (k : Nat) (r : Req) (hs : MemOk s) : MemOk (s.acceptReq k r) := by
  unfold State.acceptReq
  split
  · exact memOk_of_mem (State.failLate_mem _ _ _ _ _ _ _) (memOk_ite hs (memOk_logErr _ _ _ _ _ hs))
  · exact memOk_of_mem (by simp) hs

theorem memOk_performAt {s : State} (k : Nat) (r : Req) (hs : MemOk s) : MemOk (s.performAt k r) :=
  memOk_of_mem (State.setCoreAt_mem _ _ _ _) (memOk_performReq r (memOk_of_mem (State.setCoreAt_mem _ _ _ _) hs))

theorem memOk_unpark {s : State} (op : MemOp) (hs : MemOk s) : MemOk (s.unpark op) := by
  unfold State.unpark
  split
  · exact memOk_of_mem (by simp) hs
  · exact memOk_ite (memOk_of_mem (State.acquire_mem _) (memOk_scrAct op hs)) (memOk_scrAct op hs)

/-! ### Threads that end, cards, and what waits for a drain -/

theorem memOk_endThread {s : State} (h c wgs slot tidx : Nat) (hs : MemOk s) : MemOk (s.endThread h c wgs slot tidx) :=
  memOk_of_mem (by simp [State.endThread]) (memOk_leaveBarriers h c wgs tidx hs)

/-- What is done at once or left until the slots' accesses are done. -/
theorem memOk_release {s : State} (slots : List Nat) (what : PendWhat) (now : State → State) (hs : MemOk s) (hn : MemOk (now s)) :
    MemOk (s.release slots what now) :=
  memOk_ite hn (memOk_of_mem (State.setCore_mem _ _) hs)

theorem memOk_endLanes {s : State} (ls : List Nat) (hs : MemOk s) : MemOk (s.endLanes ls) := by
  refine foldl_keeps MemOk _ (fun t l ht => ?_) ls s hs
  exact memOk_release _ _ _ ht (memOk_endThread _ _ _ _ _ ht)

theorem memOk_postCard {s : State} (h core f : Nat) (c : Card) (hs : MemOk s) : MemOk (s.postCard h core f c) := by
  unfold State.postCard
  dsimp only
  split
  · exact memOk_logErr _ _ _ _ _ hs
  · exact memOk_ite (memOk_of_mem (by simp) hs) (memOk_ite (memOk_putTray _ _ hs) (memOk_of_mem rfl hs))

theorem memOk_releaseGo {s : State} (h c : Nat) (what : PendWhat) (hs : MemOk s) : MemOk (s.releaseGo h c what) := by
  unfold State.releaseGo
  split
  · exact memOk_of_mem (State.fileAt_mem _ _ _ _ _ _) hs
  · exact memOk_endThread _ _ _ _ _ hs
  · exact memOk_postCard _ _ _ _ hs
  · exact memOk_scrAccess _ _ (memOk_of_mem (State.atRef_mem _ _) hs)
  · exact hs

theorem memOk_afterFetch {s : State} (w : DWord) (hpa : Nat) (t : Tlb) (hs : MemOk s) : MemOk (s.afterFetch w hpa t) :=
  memOk_of_mem (by simp [State.afterFetch]) (memOk_ite (c := (mfind s.core.icache hpa).isSome = true) hs
    (memOk_of_mem (State.l2At_mem _ s.accFn t hpa false) (memOk_drainFor hpa 8 hs)))

/-! ### The Enlarger -/

theorem memOk_writeMemLine {s : State} (h : Nat) (j : CopyJob) (sel : Nat) (bs : List (Nat × Nat)) (pois : Bool) (hs : MemOk s) :
    MemOk (s.writeMemLine h j sel bs pois) := by
  unfold State.writeMemLine
  split
  · exact hs
  · split
    · exact hs
    · have hw : ∀ ws : List (Nat × Nat × Nat), MemOk (ws.foldl (fun (u : State) w =>
          (u.drainFor w.1 w.2.1).performStore j.fn ownEnlarger w.1 w.2.1 w.2.2) s) := fun ws =>
        foldl_keeps MemOk _ (fun _ _ ht => memOk_performStore _ _ _ _ _ (memOk_drainFor _ _ ht)) _ _ hs
      exact memOk_ite (memOk_putTray _ _ hs) (memOk_ite (memOk_logErr _ _ _ _ _ hs)
        (memOk_ite (memOk_ite (hw _) (hw _)) (memOk_ite (hw _) (hw _))))

theorem memOk_putUnit {s : State} (h : Nat) (j : CopyJob) (code : Nat) (u : UnitOut) (pois : Bool) (hs : MemOk s) :
    MemOk (s.putUnit h j code u pois).1 := by
  unfold State.putUnit
  dsimp only
  split
  · split
    · exact memOk_of_mem (State.writeSide_mem _ _ _ _ _ _ _) hs
    · exact hs
  · exact hs
  · exact hs
  · split
    · exact memOk_of_mem (by simp) hs
    · exact memOk_writeMemLine _ _ _ _ _ hs
    · exact hs
    · exact hs

/-- Draining the accumulators of the words that a unit reads keeps the canonical form. -/
theorem memOk_drainUnit {s : State} (tlb : State → MemByte → Option Tlb) (bs : List MemByte) (hs : MemOk s) :
    MemOk (bs.foldl (fun (t : State) b => match tlb t b with
      | some e => if b.write then t else t.drainFor (e.hpa b.va / 4 * 4) 4
      | none => t) s) := by
  refine foldl_keeps MemOk _ (fun t b ht => ?_) _ _ hs
  split
  · exact memOk_ite ht (memOk_drainFor _ _ ht)
  · exact ht

theorem memOk_writeUnit {s : State} (h k : Nat) (j : CopyJob) (code : Nat) (bs : List MemByte) (hs : MemOk s) :
    MemOk (s.writeUnit h k j code bs) := by
  have hd := memOk_drainUnit (fun t b => j.tlbFor b.va t.chipTime b.write) bs hs
  have hl : ∀ (t : State) (as : List Nat), MemOk t → MemOk (as.foldl (fun (t : State) a => t.logErr 0 3 h a 0) t) :=
    fun _ _ ht => foldl_keeps MemOk _ (fun _ _ hu => memOk_logErr _ _ _ _ _ hu) _ _ ht
  have hp := fun as u pois => memOk_putUnit h j code u pois (hl _ as hd)
  have hq := fun as u pois f => memOk_of_mem (State.modQ_mem _ h j.core j.wgs j.queue f) (hp as u pois)
  have hb := fun as u pois f n => memOk_ite (c := j.bar < 16)
    (memOk_of_mem (State.modWbar_mem _ h j.core j.wgs j.bar n) (hq as u pois f)) (hq as u pois f)
  exact memOk_ite (memOk_of_mem (State.finishJob_mem _ _ _ _) (hb _ _ _ _ _))
    (memOk_of_mem (State.setJob_mem _ _ _ _) (hb _ _ _ _ _))

end Sys2Proof.Machine
end

section
/-! SUPPORT. The matrix engine, messages, checkpoints, launches, chiplets, registers and the host keep the memory canonical. -/

namespace Sys2Proof.Machine

open Sys2Proof.Safety

/-! ### The matrix engine -/

theorem memOk_doStores {s : State} (h c w : Nat) (op : MatOp) (hs : MemOk s) : MemOk (s.doStores h c w op) := by
  refine foldl_keeps MemOk _ (fun _ _ ht => memOk_writeMemLine _ _ _ _ _ ht) _ _ ?_
  exact foldl_keeps MemOk _ (fun _ _ ht => memOk_of_mem (State.writeScrLine_mem _ _ _ _ _) ht) _ _ hs

/-- A step of the matrix engine waits, asks for a walk, fails, or drains what it reads and writes its result. -/
theorem memOk_matStep {s : State} (h c w : Nat) (op : MatOp) (hs : MemOk s) : MemOk (s.matStep h c w op) := by
  have hn : ∀ {t : State}, t.mem = s.mem → MemOk t := fun e => memOk_of_mem e hs
  refine memOk_ite (hn (by simp)) (memOk_ite (hn (by simp)) ?_)
  dsimp only
  split
  · split
    · exact hn (by simp)
    · exact memOk_ite (hn (by simp)) (hn (by simp))
  · refine memOk_ite (hn (by simp)) (memOk_ite (hn (by simp)) (memOk_ite (hn (by simp)) ?_))
    have hd := fun rs ls => memOk_drainUnit (fun t b => op.tlb.find? (fun e => e.serves op.fn b.va t.chipTime))
      (s.stepMem h c w op op.need) (hn ((State.l2Lines_mem _ ls).trans (State.sendLines_mem s op.sent rs)))
    split
    · exact memOk_of_mem (State.qmFail_mem _ _ _ _ _ _) (hd _ _)
    · exact memOk_of_mem (State.stepDone_mem _ _ _ _ _)
        (memOk_doStores _ _ _ _ (memOk_of_mem (State.setCoreAt_mem _ _ _ _) (hd _ _)))

/-! ### Messages and checkpoints -/

theorem memOk_arriveRed {s : State} (f : Nat) (op : AOp) (ty : Ty) (win : Option Nat) (a v : Nat) (hs : MemOk s) :
    MemOk (s.arriveRed f op ty win a v) := by
  unfold State.arriveRed
  dsimp only
  split
  · exact memOk_winArrive _ _ _ hs
  · exact memOk_ite (memOk_logErr _ _ _ _ _ hs) (memOk_performStore _ _ _ _ _ (memOk_drainFor _ _ hs))

/-- A message that enters the package acts or is dropped and logged. -/
theorem memOk_enter {s : State} (f h j : Nat) (g : State → State) (hs : MemOk s) (hg : MemOk (g s)) : MemOk (s.enter f h j g) :=
  memOk_ite hg (memOk_logErr _ _ _ _ _ hs)

theorem memOk_enterLine {s : State} (f a : Nat) (g : State → State) (hs : MemOk s) (hg : MemOk (g s)) :
    MemOk (s.enterLine f a g) := by
  unfold State.enterLine
  split
  · exact memOk_enter _ _ _ _ hs hg
  · exact hg

theorem memOk_deliverMsg {s : State} (f : Nat) (msg : Msg) (hs : MemOk s) : MemOk (s.deliverMsg f msg) := by
  unfold State.deliverMsg
  split
  · exact memOk_enterLine _ _ _ hs
      (memOk_performStore _ _ _ _ _ (memOk_of_mem (State.l2At_mem _ _ _ _ _) (memOk_drainFor _ _ hs)))
  · exact memOk_enterLine _ _ _ hs (memOk_arriveRed _ _ _ _ _ _ (memOk_of_mem (State.l2At_mem _ _ _ _ _) hs))
  · split
    · exact memOk_of_mem (State.putSlotAt_mem _ _ _ _) hs
    · exact hs
  · exact memOk_enter _ _ _ _ hs (memOk_of_mem (State.modLb_mem _ _ _ _ _) hs)
  · exact foldl_keeps MemOk _ (fun _ _ ht => memOk_enter _ _ _ _ ht (memOk_of_mem (State.modLb_mem _ _ _ _ _) ht)) _ _ hs
  · exact memOk_enter _ _ _ _ hs (memOk_of_mem (State.breakLbs_mem _ _ _) hs)
  · exact memOk_enter _ _ _ _ hs (memOk_of_mem rfl hs)

theorem memOk_deliverAll {s : State} (f : Nat) (ms : List (Nat × Msg)) (hs : MemOk s) : MemOk (s.deliverAll f ms) :=
  foldl_keeps MemOk _ (fun _ _ ht => memOk_deliverMsg _ _ ht) _ _ hs

theorem memOk_modCk {s : State} (f : Nat) (g : Ckpt → Ckpt) (hs : MemOk s) : MemOk (s.modCk f g) :=
  memOk_of_mem (State.modCk_mem _ _ _) hs

theorem memOk_takeMsg {s : State} (f seq : Nat) (msg : Msg) (hs : MemOk s) : MemOk (s.takeMsg f seq msg) :=
  memOk_ite (memOk_deliverMsg _ _ hs) (memOk_ite (memOk_modCk _ _ hs) (memOk_ite (memOk_deliverMsg _ _ hs) (memOk_modCk _ _ hs)))

theorem memOk_releaseItem {s : State} (f : Nat) (i : TrayItem) (hs : MemOk s) : MemOk (s.releaseItem f i) := by
  unfold State.releaseItem
  split
  · exact memOk_performStore _ _ _ _ _ (memOk_of_mem (State.l2At_mem _ _ _ _ _) (memOk_drainFor _ _ hs))
  · exact memOk_performReq _ hs
  · exact memOk_of_mem rfl hs
  · exact memOk_of_mem rfl hs
  · exact memOk_of_mem rfl hs

theorem memOk_releaseTray {s : State} (f : Nat) (hs : MemOk s) : MemOk (s.releaseTray f) :=
  memOk_modCk _ _ (foldl_keeps MemOk _ (fun _ _ ht => memOk_releaseItem _ _ ht) _ _ (memOk_modCk _ _ hs))

theorem memOk_setCken {s : State} (f : Nat) (en : Bool) (hs : MemOk s) : MemOk (s.setCken f en) :=
  memOk_ite hs (memOk_ite (memOk_modCk _ _ (memOk_writeImage _ _ _ hs)) (memOk_modCk _ _ (memOk_releaseTray _ hs)))

theorem memOk_undoLine {s : State} (e : Nat × List Byte) (hs : MemOk s) : MemOk (s.undoLine e) := by
  have hm : MemOk (((s.dirtyReady (e.1 * 128)).drainFor (e.1 * 128) 128).markDirty (e.1 * 128)) :=
    memOk_markDirty _ (memOk_drainFor _ _ (memOk_dirtyReady _ hs))
  exact foldl_keeps MemOk _ (fun _ _ ht => memOk_of_mem (State.setOwner_mem _ _ _) ht) _ _ (wf_writeBytes _ _ hm)

theorem memOk_undoLog {s : State} (f : Nat) (hs : MemOk s) : MemOk (s.undoLog f) :=
  memOk_modCk _ _ (foldl_keeps MemOk _ (fun _ _ ht => memOk_undoLine _ ht) _ _ hs)

theorem memOk_unwind {s : State} (f : Nat) (hs : MemOk s) : MemOk (s.unwind f) :=
  memOk_modCk _ _ (memOk_undoLog _ (memOk_of_mem (State.dropWork_mem _ _) hs))

theorem memOk_resumeImage {s : State} (f : Nat) (hs : MemOk s) : MemOk (s.resumeImage f) := by
  have hd : ∀ n, MemOk (s.dropImage f n) := fun n => memOk_of_mem (State.dropImage_mem _ _ _) hs
  refine memOk_ite (hd _) ?_
  split
  · exact memOk_deliverAll _ _ (memOk_modCk _ _ (memOk_of_mem (State.putBack_mem _ _) hs))
  · exact hd _

theorem memOk_rollback {s : State} (f : Nat) (hs : MemOk s) : MemOk (s.rollback f) := memOk_resumeImage _ (memOk_unwind _ hs)

theorem memOk_preempt {s : State} (f : Nat) (hs : MemOk s) : MemOk (s.preempt f) :=
  memOk_modCk _ _ (memOk_of_mem (State.dropWork_mem _ _) (memOk_writeImage _ _ _ (memOk_rollback _ hs)))

theorem memOk_preemptDone {s : State} (f : Nat) (hs : MemOk s) : MemOk (s.preemptDone f) := memOk_ite (memOk_preempt _ hs) hs

theorem memOk_lose {s : State} (l status : Nat) (hs : MemOk s) : MemOk (s.lose l status) :=
  memOk_ite (memOk_rollback _ hs) (memOk_of_mem (State.endLaunch_mem _ _ _) hs)

/-! ### The undo log's map blocks (15_traps_preemption.md R368) -/

theorem memOk_logBlock {s t : State} (f b : Nat) (ht : MemOk t) : MemOk (s.logBlock t f b) :=
  memOk_ite ht (memOk_putLog _ _ _ _ _ (memOk_of_mem (State.setFn_mem _ _ _) (memOk_besides _ _ _ ht)))

theorem memOk_logBlocks {s t : State} (ht : MemOk t) : MemOk (s.logBlocks t) :=
  memOk_ite ht (foldl_keeps MemOk _ (fun _ _ hu => foldl_keeps MemOk _ (fun _ _ hv => memOk_logBlock _ _ hv) _ _ hu) _ _ ht)

/-! ### What the device reads -/

theorem memOk_logUnassigned {s : State} (h line : Nat) (hs : MemOk s) : MemOk (s.logUnassigned h line) :=
  memOk_ite hs (memOk_logErr _ _ _ _ _ hs)

theorem memOk_readSpan {s : State} (h f i : Nat) (t : Tlb) (a n : Nat) (hs : MemOk s) : MemOk (s.readSpan h f i t a n).1 := by
  have hu : ∀ ls : List Nat, MemOk (ls.foldl (fun t l => t.logUnassigned h l) s) :=
    fun _ => foldl_keeps MemOk _ (fun _ _ ht => memOk_logUnassigned _ _ ht) _ _ hs
  unfold State.readSpan
  dsimp only
  split
  · exact memOk_logErr _ _ _ _ _ hs
  · refine memOk_ite_fst hs (memOk_ite_fst hs (memOk_ite_fst (hu _) ?_))
    exact foldl_keeps MemOk _ (fun _ _ ht => memOk_of_mem (State.l2At_mem _ _ _ _ _) ht) _ _ (memOk_drainFor _ _ (hu _))

theorem memOk_devReadGo (h f k : Nat) {s : State} (va n : Nat) (acc : List Byte) (hs : MemOk s) :
    MemOk (State.devReadGo h f k s va n acc).1 := by
  induction k generalizing s va n acc with
  | zero => exact hs
  | succ k ih =>
    have hw := memOk_devWalk h f va { r := true } hs
    unfold State.devReadGo
    refine memOk_ite_fst hs ?_
    dsimp only
    split
    next heq => rw [heq] at hw; exact hw
    next heq => rw [heq] at hw; exact hw
    next heq => rw [heq] at hw; exact hw
    next t heq =>
      rw [heq] at hw
      have hr := memOk_readSpan h f dispatcherPort t (t.hpa va) (min n (65536 - va % 65536)) hw
      split
      next heq => rw [heq] at hr; exact ih _ _ _ hr
      next heq => rw [heq] at hr; exact hr
      next heq => rw [heq] at hr; exact hr

theorem memOk_devRead {s : State} (h f va n : Nat) (hs : MemOk s) : MemOk (s.devRead h f va n).1 := memOk_devReadGo _ _ _ _ _ _ hs

theorem memOk_pagesOk (h f k : Nat) {s : State} (va : Nat) (hs : MemOk s) : MemOk (State.pagesOk h f k s va).1 := by
  induction k generalizing s va with
  | zero => exact hs
  | succ k ih =>
    have hw := memOk_devWalk h f va { r := true } hs
    unfold State.pagesOk
    split
    next heq => rw [heq] at hw; exact hw
    next heq => rw [heq] at hw; exact hw
    next heq => rw [heq] at hw; exact hw
    next heq => rw [heq] at hw; exact ih _ hw

/-- A read that goes on with what it got. -/
theorem memOk_gotBind {α β : Type} {r : State × Got α} {f : State → α → State × Got β} (hr : MemOk r.1)
    (hf : ∀ s x, MemOk s → MemOk (f s x).1) : MemOk (Got.bind r f).1 := by
  unfold Got.bind
  split
  · exact hf _ _ hr
  · exact hr
  · exact hr

theorem memOk_gotCheck {β : Type} {s : State} (c : Bool) {f : Unit → State × Got β} (hs : MemOk s) (hf : MemOk (f ()).1) :
    MemOk (Got.check s c f).1 := memOk_ite_fst hf hs

theorem memOk_readTable {s : State} (q f img : Nat) (h : ImageHead) (n size off : Nat) (hs : MemOk s) :
    MemOk (s.readTable q f img h n size off).1 :=
  memOk_gotCheck _ hs (memOk_gotBind (memOk_devRead _ _ _ _ hs) (fun _ _ ht => ht))

theorem memOk_readKernel {s : State} (q f img : Nat) (h : ImageHead) (gangs i : Nat) (hs : MemOk s) :
    MemOk (s.readKernel q f img h gangs i).1 := by
  refine memOk_gotCheck _ hs (memOk_gotBind (memOk_devRead _ _ _ _ hs) (fun s d hs => memOk_gotCheck _ hs ?_))
  refine memOk_gotBind (memOk_readTable _ _ _ _ _ _ _ hs) (fun s rs hs => ?_)
  refine memOk_gotBind (memOk_readTable _ _ _ _ _ _ _ hs) (fun s bs hs => ?_)
  refine memOk_gotBind (memOk_readTable _ _ _ _ _ _ _ hs) (fun s chs hs => ?_)
  exact memOk_gotBind (memOk_readTable _ _ _ _ _ _ _ hs) (fun s cds hs => memOk_gotCheck _ hs hs)

theorem memOk_readCards (q f img : Nat) (h : ImageHead) (is : List Nat) {s : State} (acc : NMap Kernel) (hs : MemOk s) :
    MemOk (State.readCards q f img h is s acc).1 := by
  induction is generalizing s acc with
  | nil => exact hs
  | cons i is ih => exact memOk_gotBind (memOk_readKernel _ _ _ _ _ _ hs) (fun s k hs => memOk_ite_fst (ih _ hs) hs)

theorem memOk_readHead {s : State} (q f img : Nat) (hs : MemOk s) : MemOk (s.readHead q f img).1 := by
  have hh : ∀ {t : State} (c : Bool) (h : ImageHead) (n : Nat), MemOk t → MemOk (Got.check t c
      (fun _ => Got.bind (State.pagesOk q f n t (img / 65536 * 65536)) (fun s _ => (s, .ok h)))).1 :=
    fun c h n ht => memOk_gotCheck c ht (memOk_gotBind (memOk_pagesOk _ _ _ _ ht) (fun _ _ hu => hu))
  exact memOk_gotBind (memOk_devRead _ _ _ _ hs) (fun t b ht => hh _ _ _ ht)

theorem memOk_readImage {s : State} (q f img gangs kidx : Nat) (hs : MemOk s) : MemOk (s.readImage q f img gangs kidx).1 :=
  memOk_gotBind (memOk_readHead _ _ _ hs) (fun _ _ ht => memOk_gotBind (memOk_readKernel _ _ _ _ _ _ ht)
    (fun _ _ hu => memOk_gotBind (memOk_readCards _ _ _ _ _ _ hu) (fun _ _ hv => hv)))

theorem memOk_readLaunch {s : State} (f h q : Nat) (r : List Byte) (hs : MemOk s) : MemOk (s.readLaunch f h q r).1 := by
  have hi := memOk_readImage h f (launchOf f h q r).image (launchOf f h q r).gangs (launchOf f h q r).kidx hs
  refine memOk_ite_fst ?_ hs
  split
  next heq => rw [heq] at hi; exact hi
  next heq => rw [heq] at hi; exact hi
  next heq => rw [heq] at hi; exact hi

/-! ### Launches -/

theorem memOk_page {r : Resid} (h f id : Nat) (write : Bool) (va : Nat) (hr : MemOk r.s) : MemOk (r.page h f id write va).s := by
  have hn := fun w => memOk_noteWalk f h w hr
  unfold Resid.page
  split
  · exact hr
  · dsimp only
    split
    · exact hr
    · split
      · exact hr
      · split
        · exact memOk_of_mem (State.keepWalk_mem _ _ _ _) (memOk_writeMarks _ _ (hn _))
        · exact memOk_ite (memOk_beginSwap _ _ _ _ hr) hr
      · exact memOk_postRequest _ _ _ _ _ _ (hn _)

theorem memOk_pages {r : Resid} (h f id : Nat) (write : Bool) (k va : Nat) (hr : MemOk r.s) :
    MemOk (Resid.pages h f id write k va r).s := by
  induction k generalizing r va with
  | zero => exact hr
  | succ k ih => exact ih _ (memOk_page _ _ _ _ _ hr)

theorem memOk_reside {s : State} (h f id : Nat) (ranges : List (Nat × Nat × Nat × Nat × Nat)) (waits : List (Nat × Nat × Nat))
    (hs : MemOk s) : MemOk (s.reside h f id ranges waits).s :=
  foldl_keeps (fun r : Resid => MemOk r.s) _ (fun _ _ hr => memOk_pages _ _ _ _ _ _ hr) _ _ hs

/-- A record written to memory, or held back. -/
theorem memOk_writeRecord {s t : State} (x : Launch) (va : Nat) (bs : List Byte) (hs : MemOk s)
    (h : s.writeRecord x va bs = some t) : MemOk t := by
  have hw := memOk_devWalk x.hum x.fn va { w := true } hs
  unfold State.writeRecord at h
  split at h
  · cases h
  next heq => rw [heq] at hw; cases h; exact hw
  next heq => rw [heq] at hw; cases h; exact hw
  next heq =>
    rw [heq] at hw
    dsimp only at h
    split at h
    · cases h; exact memOk_logErr _ _ _ _ _ hw
    · split at h
      · cases h; exact memOk_logErr _ _ _ _ _ hw
      · split at h
        · cases h
        · split at h
          · cases h; exact memOk_putTray _ _ hw
          · cases h; exact memOk_performBytes _ _ _ _ (memOk_of_mem (State.l2At_mem _ _ _ _ _) (memOk_drainFor _ _ hw))

theorem memOk_writeCompletion {s t : State} (x : Launch) (status : Nat) (hs : MemOk s) (h : s.writeCompletion x status = some t) :
    MemOk t := by
  obtain ⟨u, hu, ht⟩ := Option.bind_eq_some_iff.mp h
  have hu' := memOk_writeRecord _ _ _ hs hu
  split at ht
  · cases ht; exact hu'
  · exact memOk_writeRecord _ _ _ hu' ht

/-! ### Chiplets (15_traps_preemption.md R374) -/

/-- A chiplet that is reset unwinds the checkpointed functions on it, and each goes on from its image. -/
theorem memOk_chipletReset {s : State} (h : Nat) (hs : MemOk s) : MemOk (s.chipletReset h) := by
  refine foldl_keeps MemOk _ (fun t f ht => ?_) _ _ (memOk_of_mem ((State.setHum_mem _ _ _).trans (State.clearCores_mem _ _ _)) ?_)
  · exact memOk_of_mem (s := t.resumeImage f) rfl (memOk_resumeImage f ht)
  · exact foldl_keeps MemOk _ (fun _ _ ht => memOk_unwind _ ht) _ _ (memOk_of_mem (State.loseChiplet_mem _ _) hs)

theorem memOk_resumeElsewhere {s : State} (f : Nat) (hs : MemOk s) : MemOk (s.resumeElsewhere f) := by
  have hp := memOk_preempt f hs
  unfold State.resumeElsewhere
  dsimp only
  split
  · exact memOk_ite (memOk_of_mem (State.writeBack_mem _ _ _ _) hp) hp
  · exact hp

theorem memOk_chipletOut {s : State} (h : Nat) (st : Chiplet) (hs : MemOk s) : MemOk (s.chipletOut h st) := by
  have hp : ∀ {t : State} (p : Pkg), MemOk t → MemOk { t with pkg := p } := fun _ ht => memOk_of_mem rfl ht
  have hl : MemOk ((s.loseChiplet h).setHum h { (s.loseChiplet h).humAt h with chiplet := st }) := memOk_of_mem (by simp) hs
  exact memOk_of_mem (State.isolateCores_mem _ _ _)
    (foldl_keeps MemOk _ (fun _ _ ht => memOk_resumeElsewhere _ ht) _ _ (memOk_ite (hp _ hl) hl))

theorem memOk_chipletAct {s : State} (h act : Nat) (hs : MemOk s) : MemOk (s.chipletAct h act) := by
  refine memOk_ite ?_ hs
  split
  · exact memOk_chipletReset _ hs
  · exact memOk_chipletOut _ _ hs
  · exact memOk_chipletOut _ _ hs
  · exact hs

/-! ### The package -/

theorem memOk_fwRead {s : State} (hs : MemOk s) : MemOk s.fwRead.1 :=
  foldl_keeps MemOk _ (fun _ _ ht => memOk_logUnassigned _ _ ht) _ _ (memOk_drainRange _ _ hs)

/-- A package that starts again drops bytes of memory and writes none. -/
theorem memOk_restart {s : State} (hs : MemOk s) : MemOk s.restart := wf_filter _ hs

theorem memOk_setSensor {s : State} (h i : Nat) (x : Sensor) (hs : MemOk s) : MemOk (s.setSensor h i x) := by
  have ht : ∀ b, MemOk ((s.modRegs h (fun r => { r with sensors := mset r.sensors i x })).setHalf h b) :=
    fun b => memOk_of_mem (by simp) hs
  exact memOk_ite (memOk_logErr _ _ _ _ _ (memOk_ite (memOk_of_mem rfl (ht _)) (ht _))) (memOk_ite (memOk_of_mem rfl (ht _)) (ht _))

theorem memOk_writeThval {s : State} (h v : Nat) (hs : MemOk s) : MemOk (s.writeThval h v) :=
  memOk_ite (memOk_setSensor _ _ _ hs) (memOk_of_mem (State.modRegs_mem _ _ _) hs)

theorem memOk_takeFlit {s : State} (hd payload : List Byte) (hs : MemOk s) : MemOk (s.takeFlit hd payload) := by
  unfold State.takeFlit
  split
  · exact memOk_takeMsg _ _ _ hs
  · exact hs

theorem memOk_losePath {s : State} (h link : Nat) (hs : MemOk s) : MemOk (s.losePath h link) :=
  foldl_keeps MemOk _ (fun _ _ ht => memOk_lose _ _ ht) _ _ (memOk_of_mem rfl hs)

/-! ### Register writes (17_device_boundary.md Table 17.1) -/

theorem memOk_errWrite {s : State} (f o v : Nat) (hs : MemOk s) : MemOk (s.errWrite f o v) := by
  have hn : ∀ x, MemOk (s.setFn f x) := fun x => memOk_of_mem (State.setFn_mem _ _ _) hs
  unfold State.errWrite
  dsimp only
  split
  · exact hn _
  · exact memOk_ite (memOk_logErr _ _ _ _ _ hs) (hn _)
  · exact hn _
  · exact hs

theorem memOk_transWrite {s : State} (hyp : Bool) (f o v : Nat) (hs : MemOk s) : MemOk (s.transWrite hyp f o v) := by
  have hn : ∀ x, MemOk (s.setFn f x) := fun x => memOk_of_mem (State.setFn_mem _ _ _) hs
  refine memOk_ite ?_ (memOk_ite ?_ hs)
  · split
    · exact hn _
    · exact memOk_ite (hn _) hs
    · exact hn _
    · exact memOk_writePrqHead _ _ _ hs
    · exact memOk_reply _ _ _ hs
    · exact hn _
    · exact hs
  · split
    · exact hn _
    · exact memOk_writePrqHead _ _ _ hs
    · exact memOk_reply _ _ _ hs
    · exact hn _
    · exact hs

theorem memOk_mgmtWrite {s : State} (h o v : Nat) (hs : MemOk s) : MemOk (s.mgmtWrite h o v) := by
  have hn : ∀ {t : State}, t.mem = s.mem → MemOk t := fun e => memOk_of_mem e hs
  unfold State.mgmtWrite
  split
  case h_7 => exact memOk_writeThval _ _ hs
  all_goals exact hn (by simp)

theorem memOk_queueWrite {s : State} (hyp : Bool) (h q o v : Nat) (hs : MemOk s) : MemOk (s.queueWrite hyp h q o v) := by
  have hm : ∀ g, MemOk (s.modQueue h q g) := fun g => memOk_of_mem (State.modQueue_mem _ _ _ _) hs
  refine memOk_ite (memOk_ite (memOk_of_mem (State.writeShares_mem _ _ _ _) hs) hs) ?_
  split
  · exact memOk_ite (hm _) hs
  · exact hm _
  · exact memOk_ite (memOk_logErr _ _ _ _ _ hs) (hm _)
  · exact memOk_ite (hm _) hs
  · exact hs

theorem memOk_regWrite {s : State} (hyp : Bool) (f off v : Nat) (hs : MemOk s) : MemOk (s.regWrite hyp f off v) := by
  unfold State.regWrite
  dsimp only
  split
  · exact hs
  · exact memOk_errWrite _ _ _ hs
  · exact memOk_transWrite _ _ _ _ hs
  · exact memOk_of_mem (State.tenantWrite_mem _ _ _ _ _) hs
  · exact memOk_of_mem (State.portWrite_mem _ _ _ _ _) hs
  · exact memOk_of_mem (State.handlerWrite_mem _ _ _ _ _) hs
  · exact memOk_of_mem (State.humTenantWrite_mem _ _ _ _) hs
  · exact memOk_mgmtWrite _ _ _ hs
  · exact memOk_of_mem (State.fwWrite_mem _ _ _) hs
  · exact memOk_of_mem (State.domainWrite_mem _ _ _) hs
  · exact memOk_queueWrite _ _ _ _ _ hs
  · exact memOk_logErr _ _ _ _ _ hs

/-! ### The host's accesses -/

theorem memOk_respond {s : State} (r : HostResp) (hs : MemOk s) : MemOk (s.respond r) := memOk_of_mem rfl hs

theorem memOk_hostMapRead {s : State} (off : Nat) (hs : MemOk s) : MemOk (s.hostMapRead off) :=
  memOk_ite (memOk_respond _ hs) (memOk_ite (memOk_respond _ (memOk_logErr _ _ _ _ _ hs))
    (memOk_ite (memOk_respond _ hs) (memOk_of_mem rfl hs)))

theorem memOk_hostMapWrite {s : State} (off v : Nat) (hs : MemOk s) : MemOk (s.hostMapWrite off v) :=
  memOk_ite hs (memOk_ite (memOk_logErr _ _ _ _ _ hs) (memOk_ite (memOk_logErr _ _ _ _ _ hs) (memOk_ite hs
    (memOk_ite (memOk_logErr _ _ _ _ _ hs) (memOk_ite (memOk_of_mem (by simp) hs) hs)))))

theorem memOk_hostRead (port f k : Nat) {s : State} (va n : Nat) (acc : List Byte) (hs : MemOk s) :
    MemOk (State.hostRead port f k s va n acc).1 := by
  induction k generalizing s va n acc with
  | zero => exact hs
  | succ k ih =>
    have hw := memOk_devWalk (hostHum port) f va { r := true } hs
    unfold State.hostRead
    refine memOk_ite_fst hs ?_
    dsimp only
    split
    next heq => rw [heq] at hw; exact hw
    next heq => rw [heq] at hw; exact hw
    next heq => rw [heq] at hw; exact hw
    next t heq =>
      rw [heq] at hw
      have hr := memOk_readSpan (hostHum port) f 10 t (t.hpa va) (min n (65536 - va % 65536)) hw
      split
      next heq => rw [heq] at hr; exact hr
      next heq => rw [heq] at hr; exact hr
      next heq => rw [heq] at hr; exact hr
      next heq => rw [heq] at hr; exact hr
      next heq => rw [heq] at hr; exact memOk_ite_fst hr (ih _ _ _ hr)

theorem memOk_hostStore (f k : Nat) {s : State} (a : Nat) (bs : List Byte) (hs : MemOk s) : MemOk (State.hostStore f k s a bs) := by
  induction k generalizing s a bs with
  | zero => exact hs
  | succ k ih =>
    exact memOk_ite hs (ih _ _ (memOk_ite (memOk_performBytes _ _ _ _ (memOk_drainFor _ _ hs)) (memOk_logErr _ _ _ _ _ hs)))

theorem memOk_hostWrite (port f k : Nat) {s t : State} (off va : Nat) (bs : List Byte) (hs : MemOk s)
    (h : State.hostWrite port f k s off va bs = some t) : MemOk t := by
  induction k generalizing s off va bs with
  | zero => cases h; exact hs
  | succ k ih =>
    have hw := memOk_devWalk (hostHum port) f va { w := true } hs
    unfold State.hostWrite at h
    dsimp only at h
    split at h
    · cases h; exact hs
    · split at h
      · cases h
      next heq => rw [heq] at hw; exact ih _ _ _ (memOk_logErr _ _ _ _ _ hw) h
      next heq => rw [heq] at hw; exact ih _ _ _ hw h
      next heq =>
        rw [heq] at hw
        split at h
        · exact ih _ _ _ (memOk_logErr _ _ _ _ _ hw) h
        · split at h
          · exact ih _ _ _ hw h
          · split at h
            · cases h
            · exact ih _ _ _ (memOk_hostStore _ _ _ _
                (foldl_keeps MemOk _ (fun _ _ ht => memOk_of_mem (State.l2At_mem _ _ _ _ _) ht) _ _ hw)) h

theorem memOk_hostAct {s t : State} (a : HostAcc) (hs : MemOk s) (h : s.hostAct a = some t) : MemOk t := by
  unfold State.hostAct at h
  split at h
  · split at h
    · exact memOk_hostWrite _ _ _ _ _ _ hs h
    · cases h; exact hs
  next port f off n =>
    have hr := memOk_hostRead port f (n / 65536 + 2) ((s.fnAt f).hwbase + off) n [] hs
    split at h
    · split at h
      next heq => rw [heq] at hr; cases h; exact memOk_respond _ hr
      next heq => rw [heq] at hr; cases h; exact memOk_respond _ hr
      next heq => rw [heq] at hr; cases h; exact memOk_respond _ hr
      · cases h
    · cases h; exact memOk_respond _ hs
  · cases h; exact memOk_ite (memOk_regWrite _ _ _ _ hs) hs
  · cases h; exact memOk_respond _ hs
  · cases h; exact memOk_hostMapWrite _ _ hs
  · cases h; exact memOk_hostMapRead _ hs

theorem memOk_hostDo {s : State} (a : HostAcc) (hs : MemOk s) : MemOk (s.hostDo a) := by
  refine memOk_ite (memOk_of_mem rfl hs) ?_
  cases h : s.hostAct a with
  | none => exact memOk_of_mem rfl hs
  | some t => exact memOk_hostAct a hs h

/-! ### System registers (15_traps_preemption.md Table 15.3) -/

theorem memOk_ckWrite {s : State} (f n v : Nat) (hs : MemOk s) : MemOk (s.ckWrite f n v) := by
  unfold State.ckWrite
  split
  · exact memOk_ite (memOk_modCk _ _ (memOk_modCk _ _ hs)) (memOk_setCken _ _ (memOk_modCk _ _ hs))
  · exact memOk_modCk _ _ hs
  · exact memOk_modCk _ _ hs
  · exact memOk_modCk _ _ hs
  · exact hs

theorem memOk_pkgWrite {s : State} (n v : Nat) (hs : MemOk s) : MemOk (s.pkgWrite n v) := by
  have hn : ∀ {t : State}, t.mem = s.mem → MemOk t := fun e => memOk_of_mem e hs
  unfold State.pkgWrite
  split
  · exact hn rfl
  · dsimp only
    split
    · exact memOk_chipletAct _ _ (hn rfl)
    · exact hn rfl
  · exact hn (by simp)
  · exact hn (by simp)
  · exact hn (State.wdWrite_mem _ _)
  · exact hn rfl
  · exact memOk_regWrite _ _ _ _ hs
  · exact hs

theorem memOk_sysWrite {s : State} (n v : Nat) (hs : MemOk s) : MemOk (s.sysWrite n v) := by
  have hn : ∀ {t : State}, t.mem = s.mem → MemOk t := fun e => memOk_of_mem e hs
  refine memOk_ite ?_ (memOk_ite (hn (by simp)) (memOk_ite (hn (by simp)) (memOk_ite (hn (by simp)) (memOk_ite
    (memOk_ite (memOk_ckWrite _ _ _ hs) (memOk_pkgWrite _ _ hs)) hs))))
  split
  · exact hs
  · exact hn (by simp)

/-! ### Leases, spans and map windows -/

/-- The walks of a lease query's pages, where each keeps the canonical form. -/
theorem memOk_leaseLanes {s : State} (op : MemOp) (f : State → Nat → State × Nat) (hs : MemOk s)
    (hf : ∀ t va, MemOk t → MemOk (f t va).1) : MemOk (s.leaseLanes op f).1 :=
  foldl_keeps (fun p : State × NMap Nat => MemOk p.1) _ (fun _ _ ht => hf _ _ ht) _ (s, []) hs

theorem memOk_leaseGo {s : State} (op : MemOp) (f : State → Nat → State × Nat) (hs : MemOk s)
    (hf : ∀ t va, MemOk t → MemOk (f t va).1) : MemOk (s.leaseGo op f) :=
  memOk_ite (memOk_of_mem (by simp) hs) (memOk_ite (memOk_lose _ _ hs)
    (memOk_of_mem ((State.endMem_mem _).trans (State.writePair_mem _ _ _ _)) (memOk_leaseLanes op f hs hf)))

theorem memOk_spanGo {s : State} (op : MemOp) (w : Nat → Wait) (hs : MemOk s) : MemOk (s.spanGo op w) := by
  have hn : ∀ {t : State}, t.mem = s.mem → MemOk t := fun e => memOk_of_mem e hs
  refine memOk_ite (hn (by simp [State.requestEarly_mem])) ?_
  split
  · exact hn (by simp)
  · exact hn (by simp)
  · exact hn (by simp)
  next ts _ =>
    have hm := fun rs => hn ((State.markReqs_mem _ rs).trans (State.keepTlbs_mem ts s))
    exact memOk_ite (memOk_of_mem (State.endMem_mem _) (memOk_performAll _ (hm _)))
      (memOk_of_mem ((State.setWait_mem _ _).trans (State.sendReqs_mem _ _ _)) (hm _))

theorem memOk_mapGo {s : State} (op : MemOp) (hs : MemOk s) : MemOk (s.mapGo op) := by
  unfold State.mapGo
  dsimp only
  split
  · exact memOk_of_mem (State.trap_mem _ _ _ _ _) hs
  · exact memOk_ite (memOk_lose _ _ hs) (memOk_ite (memOk_of_mem (State.complete_mem _ _ _) (memOk_of_mem rfl hs))
      (memOk_of_mem (by simp) hs))

theorem memOk_winGo {s : State} (op : MemOp) (hs : MemOk s) : MemOk (s.winGo op) := by
  refine memOk_ite (memOk_accGo op hs) ?_
  split
  · exact memOk_of_mem (by simp) hs
  · exact memOk_mapGo op hs

theorem memOk_winForm {s : State} (f : Form) (m : MReg) (b : Reg) (buf : BufR) (off : Int) (hs : MemOk s) :
    MemOk (s.winForm f m b buf off) :=
  memOk_chkGo _ _ (memOk_held buf hs) (fun op => memOk_winGo op (memOk_held buf hs))

end Sys2Proof.Machine
end

section
/-! SUPPORT. Every instruction and event answers a next state, and keeps the memory canonical: what a step needs of each. -/

namespace Sys2Proof.Machine

open Sys2Proof.Safety

/-- An outcome that goes on, and keeps the canonical form of the memory that `s` holds. -/
def Keeps (s : State) (o : Out) : Prop := ∃ t, o = .next t ∧ (MemOk s → MemOk t)

theorem Keeps.next {s t : State} (h : MemOk s → MemOk t) : Keeps s (.next t) := ⟨t, rfl, h⟩

theorem Keeps.same {s t : State} (e : t.mem = s.mem) : Keeps s (.next t) := .next (memOk_of_mem e)

theorem Keeps.self (s : State) : Keeps s (.next s) := .same rfl

theorem Keeps.ite {s : State} {c : Prop} [Decidable c] {a b : Out} (ha : Keeps s a) (hb : Keeps s b) :
    Keeps s (if c then a else b) := by
  split <;> assumption

theorem memOk_when {s t : State} (c : SCond) (h : MemOk s → MemOk t) (hs : MemOk s) : MemOk (s.when c t) :=
  memOk_ite (h hs) (memOk_of_mem rfl hs)

/-! ### Instructions -/

theorem keeps_ret (c : SCond) (l : Reg) (s : State) : Keeps s (execRet c l s) := by
  refine .same (State.when_mem _ _ ?_)
  split <;> simp

theorem keeps_yield (c : SCond) (s : State) : Keeps s (execYield c s) := by
  refine .same (State.when_mem _ _ ?_)
  split <;> simp

/-- The spawns of an instruction's lanes, one after another. -/
theorem memOk_spawnLanes {s : State} (f : State × Word → Nat → State × Word) (hf : ∀ p l, (f p l).1.mem = p.1.mem)
    (ls : List Nat) (v : Word) (hs : MemOk s) : MemOk (ls.foldl f (s, v)).1 :=
  foldl_keeps (fun p : State × Word => MemOk p.1) f (fun p l hp => memOk_of_mem (hf p l) hp) ls _ hs

theorem keeps_spawn (c : SCond) (d src : MReg) (f : Reg) (n : BitVec 4) (e : SpawnEntry) (s : State) :
    Keeps s (execSpawn c d src f n e s) := by
  refine .next (memOk_when c fun hs => memOk_ite (memOk_of_mem (State.trap_mem _ _ _ _ _) hs) ?_)
  exact memOk_of_mem (s := (List.foldl _ (s.latchEntry e, 0) _).1) rfl (memOk_spawnLanes _
    (fun _ _ => State.spawnLane_mem _ _ _ _ _ _) _ _ (memOk_of_mem (State.latchEntry_mem s e) hs))

theorem keeps_retire (c : SCond) (s : State) : Keeps s (execRetire c s) :=
  .next (memOk_when c fun hs =>
    memOk_of_mem ((State.dissolve_mem _).trans (State.fileAll_mem _ _)) (memOk_endLanes _ hs))

theorem keeps_jpost (c : SCond) (d a : SCode) (card : BitVec 6) (n : BitVec 4) (dir : BitVec 3) (s : State) :
    Keeps s (execJpost c d a card n dir s) :=
  .next (memOk_when c fun hs => memOk_ite
    (memOk_ite (memOk_of_mem (by simp) hs)
      (memOk_of_mem (s := s.release _ _ _) rfl (memOk_release _ _ _ hs (memOk_postCard _ _ _ _ hs))))
    (memOk_of_mem (by simp) hs))

theorem keeps_ldacc (ty : Ty) (o : ScrOp) (s : State) : Keeps s (execLdacc ty o s) :=
  .next fun hs => memOk_chkGo _ _ hs fun _ => memOk_of_mem (by simp) hs

theorem keeps_prf (ty : Ty) (m : MReg) (b : Reg) (buf : BufR) (off : BitVec 15) (s : State) :
    Keeps s (execPrf ty m b buf off s) :=
  .next fun hs => memOk_of_mem (s := List.foldl State.prfOne s _) rfl
    (foldl_keeps MemOk _ (fun _ va ht => memOk_prfOne va ht) _ s hs)

theorem keeps_ckpt (s : State) : Keeps s (execCkpt s) := .same (by simp [State.requestEarly_mem])

theorem keeps_sysWr (m : MReg) (n : BitVec 12) (a : Reg) (s : State) : Keeps s (execSysWr m n a s) :=
  .next fun hs => memOk_ite (memOk_of_mem rfl hs) (memOk_sysWrite _ _ (memOk_of_mem rfl hs))

theorem keeps_leaseQ (m : MReg) (a b : Reg) (buf : BufR) (off : BitVec 15) (s : State) : Keeps s (execLeaseQ m a b buf off s) :=
  .next fun hs => memOk_chkGo _ _ hs fun op => memOk_leaseGo op _ hs fun _ _ ht => memOk_queryWalk _ _ _ ht

theorem keeps_leaseRenew (m : MReg) (a b : Reg) (buf : BufR) (off : BitVec 15) (s : State) :
    Keeps s (execLeaseRenew m a b buf off s) := by
  refine .next fun hs => memOk_chkGo _ _ hs fun op => memOk_leaseGo op _ hs fun t va ht => memOk_ite_fst ht ?_
  have hn := fun w => memOk_noteWalk t.accFn t.cur.h w ht
  dsimp only
  split
  · exact memOk_of_mem ((State.installTlb_mem _ _ _).trans (State.keepWalk_mem _ _ _ _)) (memOk_writeMarks _ _ (hn _))
  · exact hn _

theorem keeps_walkQ (m : MReg) (a b : Reg) (f : BitVec 6) (s2 : Bool) (s : State) : Keeps s (execWalkQ m a b f s2 s) := by
  refine .next fun hs => ?_
  have hn : ∀ {t : State}, t.mem = s.mem → MemOk t := fun e => memOk_of_mem e hs
  refine memOk_ite (hn rfl) (memOk_ite (hn (by simp)) (memOk_ite (hn (by simp)) (memOk_ite (memOk_lose _ _ hs)
    (memOk_ite (hn (by simp)) ?_))))
  exact memOk_of_mem (s := List.foldl _ s _) (State.writeQuad_mem _ _ _ _)
    (foldl_keeps MemOk _ (fun _ _ ht => memOk_noteWalk _ _ _ ht) _ s hs)

theorem keeps_l2op (m : MReg) (op : L2Op) (b : Reg) (buf : BufR) (lines : BitVec 12) (s : State) :
    Keeps s (execL2op m op b buf lines s) := by
  refine .next fun hs => ?_
  have hu := memOk_held buf hs
  dsimp only
  generalize (if s.grp.held.isNone then s.setGrp { s.grp with held := some (mget {} s.wg.b buf.toNat) } else s) = u at hu
  have hn : ∀ {t : State}, t.mem = u.mem → MemOk t := fun e => memOk_of_mem e hu
  refine memOk_ite (hn (by simp)) ?_
  split
  · exact hn (by simp)
  · refine memOk_ite (memOk_spanGo _ _ hu) ?_
    split
    · exact hn (by simp)
    · exact hn (by simp)
    · exact hn (by simp)
    · exact hn (by simp)

theorem keeps_snap (m : MReg) (b : Reg) (buf : BufR) (a : Reg) (s : State) : Keeps s (execSnap m b buf a s) := by
  unfold execSnap
  refine .next fun hs => memOk_ite (memOk_of_mem (by simp) hs) ?_
  have hu := memOk_held buf hs
  generalize (if s.grp.held.isNone then s.setGrp { s.grp with held := some (mget {} s.wg.b buf.toNat) } else s) = u at hu
  have ht : ∀ {t : State}, t.mem = u.mem → MemOk t := fun e => memOk_of_mem e hu
  split
  · exact ht (State.trap_mem _ _ _ _ _)
  · split
    · exact ht (State.trap_mem _ _ _ _ _)
    · exact memOk_ite (memOk_accGo _ (ht rfl)) (memOk_spanGo _ _ (ht rfl))

/-! ### Events of a hummock's units -/

theorem keeps_barrierArrivalCount (h c g : Nat) (s : State) : Keeps s (execBarrierArrivalCount h c g s) := by
  unfold execBarrierArrivalCount
  dsimp only
  split
  · exact .ite (.next fun hs => memOk_arriveGo _ _ _ _ _ (memOk_of_mem rfl hs)) (.self s)
  · exact .self s

theorem keeps_walkComplete (h k : Nat) (s : State) : Keeps s (execWalkComplete h k s) := by
  unfold execWalkComplete
  split
  · exact .self s
  · exact .ite (.self s) (.next fun hs => memOk_walkGo _ _ (memOk_of_mem (by simp) hs))

theorem keeps_swapRetry (h k : Nat) (s : State) : Keeps s (execSwapRetry h k s) := by
  unfold execSwapRetry
  split
  · exact .self s
  · split
    · exact .self s
    · exact .ite (.self s) (.next fun hs => memOk_walkGo _ _ (memOk_of_mem (by simp) hs))

theorem keeps_enlargerLeaseRenewal (h k : Nat) (s : State) : Keeps s (execEnlargerLeaseRenewal h k s) := by
  unfold execEnlargerLeaseRenewal
  split
  · exact .self s
  · exact .next fun hs => foldl_keeps MemOk _ (fun _ t ht => memOk_renew h k t ht) _ _ hs

theorem keeps_swapHorizonEnd (k : Nat) (s : State) : Keeps s (execSwapHorizonEnd k s) := by
  unfold execSwapHorizonEnd
  split
  · exact .self s
  · exact .ite (.self s) (.next fun hs => memOk_endSwap _ (memOk_of_mem rfl hs))

theorem keeps_homeRequestArrival (h c k : Nat) (s : State) : Keeps s (execHomeRequestArrival h c k s) := by
  unfold execHomeRequestArrival
  dsimp only
  split
  · exact .self s
  next r _ =>
    have ha : ∀ hs : MemOk s, MemOk (s.arbitrate r).1 := memOk_of_mem (State.arbitrate_mem s r)
    exact .ite (.ite (.next fun hs => memOk_performAt _ _ hs) (.self s)) (.ite (.self s) (.ite (.same (by simp))
      (.next fun hs => memOk_ite (memOk_acceptReq _ _ (ha hs)) (memOk_of_mem (State.setCoreAt_mem _ _ _ _) (ha hs)))))

theorem keeps_parkWake (h c g : Nat) (s : State) : Keeps s (execParkWake h c g s) := by
  unfold execParkWake
  dsimp only
  split
  · exact .ite (.next fun hs => memOk_unpark _ (memOk_of_mem rfl hs)) (.self s)
  · exact .ite (.same (by simp)) (.self s)
  · exact .ite (.same (by simp)) (.self s)
  · exact .self s

theorem keeps_windowReductionAccept (k : Nat) (s : State) : Keeps s (execWindowReductionAccept k s) := by
  unfold execWindowReductionAccept
  split
  · exact .self s
  · exact .next fun hs => memOk_winArrive _ _ _ (memOk_of_mem rfl hs)

theorem keeps_windowContributionLimit (h a : Nat) (s : State) : Keeps s (execWindowContributionLimit h a s) := by
  unfold execWindowContributionLimit
  split
  · exact .self s
  · exact .ite (.next fun hs => memOk_drainWin _ _ hs) (.self s)

theorem keeps_release (h c k : Nat) (s : State) : Keeps s (execRelease h c k s) := by
  unfold execRelease
  split
  · exact .self s
  · exact .ite (.next fun hs => memOk_releaseGo _ _ _ (memOk_of_mem (by simp) hs)) (.self s)

theorem keeps_copyLineWrite (h k line : Nat) (s : State) : Keeps s (execCopyLineWrite h k line s) := by
  unfold execCopyLineWrite
  split
  · exact .self s
  next j _ =>
    refine .ite (.self s) (.ite (.same (by simp)) ?_)
    split
    · exact .same (by simp)
    · refine .ite (.same (by simp)) (.ite (.self s) (.next fun hs => ?_))
      have hl : ∀ sent rs, MemOk (s.sendLines sent rs).1 := fun sent rs => memOk_of_mem (State.sendLines_mem s sent rs) hs
      exact memOk_ite (memOk_writeUnit _ _ _ _ _ (memOk_of_mem (State.l2Lines_mem _ _) (hl _ _)))
        (memOk_of_mem (State.setJob_mem _ _ _ _) (hl _ _))

theorem keeps_matrixStep (h c : Nat) (s : State) : Keeps s (execMatrixStep h c s) := by
  unfold execMatrixStep
  dsimp only
  split
  · exact .ite (.self s) (.next fun hs => memOk_matStep _ _ _ _ hs)
  · exact .self s

theorem keeps_matrixWatchdog (h c : Nat) (s : State) : Keeps s (execMatrixWatchdog h c s) := by
  unfold execMatrixWatchdog
  dsimp only
  split
  · refine .ite (.same (by simp)) (.next fun hs => ?_)
    have hl := memOk_logErr 0 10 h (coreKey (s.phys h) c) 0
      (memOk_of_mem (State.setCoreAt_mem s h c { s.coreAt h c with engine := (s.coreAt h c).engine.hung }) hs)
    exact memOk_ite (memOk_rollback _ hl) (memOk_of_mem (State.endSome_mem _ _ _ _) hl)
  · exact .self s

/-! ### Launches and checkpoints -/

theorem keeps_launchRecordTake (h q : Nat) (s : State) : Keeps s (execLaunchRecordTake h q s) := by
  unfold execLaunchRecordTake
  dsimp only
  generalize mget {} (s.humAt h).queues q = x
  refine .ite ?_ (.self s)
  have hd := memOk_devRead (s := s) h x.fn (x.base / 4096 * 4096 + 64 * x.head) 64
  split
  · exact .self s
  next heq => exact .next fun hs => memOk_logErr _ _ _ _ _ (memOk_of_mem (State.modQueue_mem _ _ _ _) (by simpa [heq] using hd hs))
  next t r heq =>
    have hr : MemOk s → MemOk (t.readLaunch x.fn h q r).1 := fun hs => memOk_readLaunch _ _ _ _ (by simpa [heq] using hd hs)
    split
    next heq' => exact .next fun hs => memOk_of_mem (State.takeRecord_mem _ _ _ _ _) (by simpa [heq'] using hr hs)
    next => exact .self s

theorem keeps_residency (l : Nat) (s : State) : Keeps s (execResidency l s) := by
  unfold execResidency
  refine .ite (.next fun hs => ?_) (.self s)
  have hr := memOk_reside (s.launchAt l).hum (s.launchAt l).fn l (s.launchAt l).kernel.ranges (s.launchAt l).waits hs
  exact memOk_ite (memOk_of_mem (State.endLaunch_mem _ _ _) hr) (memOk_of_mem (State.setLaunch_mem _ _ _) hr)

theorem keeps_launchCompletion (l : Nat) (s : State) : Keeps s (execLaunchCompletion l s) := by
  unfold execLaunchCompletion
  split
  · exact .self s
  next x _ =>
    refine .ite (.next fun hs => ?_) (.self s)
    have ht : MemOk { (s.dropCtxs l x).freeQueue l x with launches := mdel ((s.dropCtxs l x).freeQueue l x).launches l } :=
      memOk_of_mem (s := s) (by simp) hs
    refine memOk_ite ht ?_
    cases hw : State.writeCompletion { (s.dropCtxs l x).freeQueue l x with
        launches := mdel ((s.dropCtxs l x).freeQueue l x).launches l } x (x.status.getD 0) with
    | none => exact hs
    | some u => exact memOk_writeCompletion _ _ ht hw

theorem keeps_checkpointCommit (f : Nat) (s : State) : Keeps s (execCheckpointCommit f s) :=
  .ite (.next fun hs => memOk_deliverAll _ _ (memOk_modCk _ _ (memOk_modCk _ _ (memOk_releaseTray _
    (memOk_modCk _ _ (memOk_writeImage f f s hs)))))) (.self s)

theorem keeps_crossPackageMessage (f seq sender : Nat) (msg : Msg) (s : State) :
    Keeps s (execCrossPackageMessage f seq sender msg s) :=
  .next fun hs => memOk_ite hs (memOk_takeMsg _ _ _ hs)

theorem keeps_restoreDone (f : Nat) (s : State) : Keeps s (execRestoreDone f s) := by
  unfold execRestoreDone
  dsimp only
  refine .ite (.self s) (.ite (.same (by simp)) ?_)
  generalize ((s.fnAt (s.fnAt f).rstFrom).ck.image.getD {}) = im
  have hr := memOk_reside (s := s) 0 f 0 im.ranges (s.fnAt f).rstWaits
  generalize s.reside 0 f 0 im.ranges (s.fnAt f).rstWaits = r at hr
  refine .ite ?_ (.next fun hs => memOk_of_mem (State.setFn_mem _ _ _) (hr hs))
  split
  · exact .next fun hs => memOk_of_mem (State.restoreFail_mem _ _ _ _ _) (hr hs)
  · exact .ite (.next hr) (.next fun hs => memOk_of_mem (by simp) (hr hs))

/-! ### The package, its chiplets and its links -/

theorem keeps_chipletReset (h : Nat) (s : State) : Keeps s (execChipletReset h s) :=
  .next fun hs => memOk_ite (memOk_chipletReset _ hs) hs

theorem keeps_chipletFence (h : Nat) (s : State) : Keeps s (execChipletFence h s) :=
  .next fun hs => memOk_ite (memOk_chipletOut _ _ hs) hs

theorem keeps_chipletDrop (h : Nat) (s : State) : Keeps s (execChipletDrop h s) :=
  .next fun hs => memOk_ite (memOk_chipletOut _ _ hs) hs

theorem keeps_chipletFatal (h act cause : Nat) (s : State) : Keeps s (execChipletFatal h act cause s) :=
  .next fun hs => memOk_chipletAct _ _ (memOk_logErr _ _ _ _ _ hs)

theorem keeps_domainLockTimeout (h c : Nat) (s : State) : Keeps s (execDomainLockTimeout h c s) :=
  .ite (.next fun hs => memOk_logErr _ _ _ _ _ (memOk_of_mem (State.free_mem s) hs)) (.self s)

theorem keeps_clockSkew (h c : Nat) (off : Nat × Nat) (s : State) : Keeps s (execClockSkew h c off s) := by
  unfold execClockSkew
  split
  · exact .self s
  · exact .next fun hs => memOk_logErr _ _ _ _ _ (memOk_of_mem (by simp) hs)

theorem keeps_firmwareCheckDone (readOk : Bool) (s : State) : Keeps s (execFirmwareCheckDone readOk s) := by
  unfold execFirmwareCheckDone
  refine .ite (.next fun hs => ?_) (.self s)
  have hp : MemOk (if s.pkg.fwLenOk then s.fwRead else (s, true)).1 := memOk_ite_fst (memOk_fwRead hs) hs
  exact memOk_logErr _ _ _ _ _ (memOk_of_mem rfl hp)

theorem keeps_powerLoss (s : State) : Keeps s (execPowerLoss s) := .next fun hs => memOk_of_mem rfl (memOk_restart hs)

theorem keeps_railCrack (h p : Nat) (s : State) : Keeps s (execRailCrack h p s) :=
  .ite (.next fun hs => memOk_logErr _ _ _ _ _ (memOk_of_mem (by simp) hs)) (.self s)

theorem keeps_thermalTrip (h i t : Nat) (s : State) : Keeps s (execThermalTrip h i t s) :=
  .next fun hs => memOk_ite (memOk_setSensor _ _ _ hs) hs

theorem keeps_sensorFault (h i : Nat) (s : State) : Keeps s (execSensorFault h i s) :=
  .next fun hs => memOk_ite (memOk_setSensor _ _ _ hs) hs

theorem keeps_thvalWrite (h v : Nat) (s : State) : Keeps s (execThvalWrite h v s) :=
  .next fun hs => memOk_ite (memOk_writeThval _ _ hs) hs

theorem keeps_bankRetiring (h k bank cause : Nat) (s : State) : Keeps s (execBankRetiring h k bank cause s) :=
  .ite (.next fun hs => memOk_logErr _ _ _ _ _ (memOk_of_mem (State.setStack_mem _ _ _ _) hs)) (.self s)

theorem keeps_bankRetired (h k : Nat) (s : State) : Keeps s (execBankRetired h k s) :=
  .ite (.next fun hs => memOk_logErr _ _ _ _ _ (memOk_of_mem (State.setStack_mem _ _ _ _) hs)) (.self s)

theorem keeps_flitReceive (h link : Nat) (head rest : List Byte) (s : State) : Keeps s (execFlitReceive h link head rest s) := by
  unfold execFlitReceive
  refine .next fun hs => memOk_ite hs ?_
  split
  · exact memOk_ite (memOk_takeFlit _ _ (memOk_of_mem (State.setLink_mem _ _ _ _) hs)) hs
  · exact memOk_of_mem (State.setLink_mem _ _ _ _) hs

theorem keeps_linkFence (h link : Nat) (s : State) : Keeps s (execLinkFence h link s) :=
  .ite (.self s) (.ite
    (.next fun hs => memOk_losePath _ _ (memOk_logErr _ _ _ _ _ (memOk_of_mem (State.setLink_mem _ _ _ _) hs)))
    (.ite (.next fun hs => memOk_losePath _ _ hs) (.self s)))

theorem keeps_mgdataWrite (f off v : Nat) (s : State) : Keeps s (execMgdataWrite f off v s) :=
  .next fun hs => memOk_ite (memOk_regWrite _ _ _ _ hs) hs

theorem keeps_leaseQueryDone (f : Nat) (s : State) : Keeps s (execLeaseQueryDone f s) :=
  .ite (.next fun hs => memOk_ite (memOk_of_mem (State.setFn_mem _ _ _) hs)
    (memOk_of_mem (State.setFn_mem _ _ _) (memOk_queryWalk 0 f _ hs))) (.self s)

theorem keeps_hostRetry (f : Nat) (s : State) : Keeps s (hostRetry f s) := by
  unfold hostRetry
  split
  · exact .self s
  next a _ =>
    refine .next fun hs => ?_
    have hu : MemOk { s with pkg := { s.pkg with held := s.pkg.held.erase a } } := memOk_of_mem rfl hs
    generalize { s with pkg := { s.pkg with held := s.pkg.held.erase a } } = u at hu
    cases ha : u.hostAct a with
    | none => exact hs
    | some t => exact memOk_hostAct a hu ha

theorem keeps_hostDoorbell (f h q tail : Nat) (s : State) : Keeps s (execHostDoorbell f h q tail s) := by
  refine .next fun hs => ?_
  split
  · exact memOk_hostDo _ hs
  · exact hs

theorem keeps_flitAgain (h link : Nat) (s : State) : Keeps s (flitAgain h link s) := by
  unfold flitAgain
  refine .same ?_
  split <;> simp

theorem keeps_errRetry (f : Nat) (s : State) : Keeps s (errRetry f s) :=
  .next fun hs => memOk_ite hs (memOk_flushErrs _ _ _ hs)

theorem keeps_ringRetry (f stage : Nat) (s : State) : Keeps s (ringRetry f stage s) := .next (memOk_retryRing _ _)

theorem keeps_leaveDone (f : Nat) (s : State) : Keeps s (leaveDone f s) := .next (memOk_preemptDone _)

/-! ### The table of instructions and events -/

/-- Every instruction and event goes on and keeps the memory canonical: those that write no memory leave it as it is, whichever of
their branches is taken, and of the others each has its rule. -/
theorem exec_keeps (i : Instr) (s : State) : Keeps s (exec i s) := by
  cases i with
  | smov | smovi | sadd | ssub | smul | smulh | sand | sor | sxor | sshl | sshr | ssar | smin | smax | scmp | scmpi | ssel
  | sread | kst | br | bra | brmz | brmnz | brmf | sloop | call | trap | nop | hint | sleep | reformTwo | binAge | mov
  | movScalar | movi | tidx | add | addc | sub | subc | mul | mulhi | mad | madw | neg | abs | min | max | and | or | xor
  | not | andn | shl | shr | sar | rot | bfx | bfi | popc | clz | brev | sel | cmp | cvti | adds | subs | dot4 | dot8
  | addImm | addsImm | mulImm | andImm | orImm | xorImm | andnImm | shlImm | shrImm | sarImm | rotImm | minImm | maxImm
  | cmpS32Imm | cmpN32Imm | bfxImm | fadd | fsub | fmul | fma | fmin | fmax | fminn | fmaxn | fcmp | fclass | frcp | frsq
  | fsqrt | fdiv | fexp2 | flog2 | ffract | fround | fldexp | fcvt | fpack | fdot2 | fdot4 | fdot8 | mxs | faddImm
  | fmulImm | fmaImm | fminImm | fmaxImm | fcmpImm | mand | mor | mxor | mandn | mnot | mmov | mseti | mvoteBallot
  | mvoteEq | mpop | mfirst | mlast | qswx | qswy | qswd | qbc | gshf | gshu | gshd | gshx | gbc | gred | gscan | pPair
  | fence | brec | brrd | barWait | barExp | barTest | barPh | cvdecl | cvq | send | recv | chq | cpa4 | cpa8 | cpa16
  | cpaFlush | tcopy | tgather | tscatter | tpack | tunpack | mdcopy | cfill | qfence | qwait | mldSt | mswap | mstream
  | mtile | maccZ | maccSt | maccLd | mstat | mcfg | tret | tvec | segLd | segRd | sysRd | ckptQ | halt | haltDbg | vfsel
  | tlbProbe | tokRd | partQ | lqva | mgdataRead | prego | killgo | rsgo | wdlim | partWrite | connmatWrite | waymaskWrite
  | shareWrite | dbmswap | dbmSwapInstant | dbmSwapDone | rstgo | linkgo | clockSkewRecover | domen | fwgo | railSample
  | minvClear | thermalForecast | bkack | frameMove | uncorrectableError | vfEnable => exact .same (by simp)
  | reform | present | scrub | trapEntry | binAgeThreshold | binDraw | yieldEnd | sleepWake | schedStall | loadComplete
  | atomicReturn | fenceRelease | l1CopyExpiry | tlbLeaseExpiry | walkStart | walkPendingRetry | switchMerge
  | barrierPhaseComplete | barrierWaitRelease | lbForward | lbCompletionBroadcast | sidebandPathLoss | signatureRecord
  | qmPlacement | sendSlotFill | recvSlotTake | channelSlotFreed | copyAccept | cpaCoalesceTimeout | qfenceEntryComplete
  | qwaitComplete | rectClaim | routeLoad | gangPlacement | launchSetup | scrubTokenMatch | cardReceive | cardPlacement
  | workgroupNormalEnd | checkpointInstant | checkpointDrainDone | scrubComplete | domainEpochLock | powerOn | l2opDone
  | snapCaptureDone | powerGating | corePoweredAgain =>
    unfold exec
    dsimp only [execReform, execPresent, execScrub, execTrapEntry, execBinAgeThreshold, execBinDraw, execYieldEnd, execSleepWake,
      execSchedStall, execLoadComplete, execAtomicReturn, execFenceRelease, execL1CopyExpiry, execTlbLeaseExpiry,
      execWalkStart, execWalkPendingRetry, execSwitchMerge, execBarrierPhaseComplete, execBarrierWaitRelease,
      execLbForward, execLbCompletionBroadcast, execSidebandPathLoss, execSignatureRecord, execQmPlacement,
      execSendSlotFill, execRecvSlotTake, execChannelSlotFreed, execCopyAccept, execCpaCoalesceTimeout,
      execQfenceEntryComplete, execQwaitComplete, execRectClaim, execRouteLoad, execGangPlacement, execLaunchSetup,
      execScrubTokenMatch, execCardReceive, execCardPlacement, execWorkgroupNormalEnd, execCheckpointInstant,
      execCheckpointDrainDone, execScrubComplete, execDomainEpochLock, execPowerOn, execL2opDone, execSnapCaptureDone,
      execPowerGating, execCorePoweredAgain]
    (repeat' split) <;> exact .same (by simp)
  | ld | st | ldAcq | stRel | atom | red => exact .next (memOk_recForm _ _ _ _ _)
  | lds | sts | atoms | reds => exact .next (memOk_scrForm _ _ _ _)
  | ldw | stw => exact .next (memOk_winForm _ _ _ _ _)
  | hostApertureRead | hostApertureWrite | hostMapRead | hostMapWrite | registerWrite => exact .next (memOk_hostDo _)
  | barArr | barArw => exact .next (memOk_arriveInstr _ _ _)
  | prqReply | prqReplyRefuse => exact .next (memOk_reply _ _ _)
  | swapEngineExchange => exact .next (memOk_beginSwap _ _ _ _)
  | prqhead => exact .next (memOk_writePrqHead _ _ _)
  | packageReset => exact .next memOk_restart
  | ret => exact keeps_ret _ _ s
  | yield => exact keeps_yield _ s
  | spawn => exact keeps_spawn _ _ _ _ _ _ s
  | retire => exact keeps_retire _ s
  | jpost => exact keeps_jpost _ _ _ _ _ _ s
  | ldacc => exact keeps_ldacc _ _ s
  | prf => exact keeps_prf _ _ _ _ _ s
  | leaseQ => exact keeps_leaseQ _ _ _ _ _ s
  | leaseRenew => exact keeps_leaseRenew _ _ _ _ _ s
  | sysWr => exact keeps_sysWr _ _ _ s
  | ckpt => exact keeps_ckpt s
  | snap => exact keeps_snap _ _ _ _ s
  | l2op => exact keeps_l2op _ _ _ _ _ s
  | walkQ => exact keeps_walkQ _ _ _ _ _ s
  | parkWake => exact keeps_parkWake _ _ _ s
  | homeRequestArrival => exact keeps_homeRequestArrival _ _ _ s
  | walkComplete => exact keeps_walkComplete _ _ s
  | swapRetry => exact keeps_swapRetry _ _ s
  | enlargerLeaseRenewal => exact keeps_enlargerLeaseRenewal _ _ s
  | swapHorizonEnd => exact keeps_swapHorizonEnd _ s
  | windowReductionAccept => exact keeps_windowReductionAccept _ s
  | windowContributionLimit => exact keeps_windowContributionLimit _ _ s
  | barrierArrivalCount => exact keeps_barrierArrivalCount _ _ _ s
  | copyLineWrite => exact keeps_copyLineWrite _ _ _ s
  | matrixStep => exact keeps_matrixStep _ _ s
  | matrixWatchdog => exact keeps_matrixWatchdog _ _ s
  | launchRecordTake => exact keeps_launchRecordTake _ _ s
  | residency => exact keeps_residency _ s
  | launchCompletion => exact keeps_launchCompletion _ s
  | hostDoorbell => exact keeps_hostDoorbell _ _ _ _ s
  | leaseQueryDone => exact keeps_leaseQueryDone _ s
  | mgdataWrite => exact keeps_mgdataWrite _ _ _ s
  | chipletReset => exact keeps_chipletReset _ s
  | chipletFence => exact keeps_chipletFence _ s
  | chipletDrop => exact keeps_chipletDrop _ s
  | chipletFatal => exact keeps_chipletFatal _ _ _ s
  | checkpointCommit => exact keeps_checkpointCommit _ s
  | crossPackageMessage => exact keeps_crossPackageMessage _ _ _ _ s
  | restoreDone => exact keeps_restoreDone _ s
  | flitReceive => exact keeps_flitReceive _ _ _ _ s
  | linkFence => exact keeps_linkFence _ _ s
  | clockSkew => exact keeps_clockSkew _ _ _ s
  | domainLockTimeout => exact keeps_domainLockTimeout _ _ s
  | firmwareCheckDone => exact keeps_firmwareCheckDone _ s
  | railCrack => exact keeps_railCrack _ _ s
  | thermalTrip => exact keeps_thermalTrip _ _ _ s
  | thvalWrite => exact keeps_thvalWrite _ _ s
  | bankRetiring => exact keeps_bankRetiring _ _ _ _ s
  | bankRetired => exact keeps_bankRetired _ _ s
  | powerLoss => exact keeps_powerLoss s
  | sensorFault => exact keeps_sensorFault _ _ s

end Sys2Proof.Machine
end

section
/-! SUPPORT. The moves that the machine makes of itself, and a whole step. -/

namespace Sys2Proof.Machine

open Sys2Proof.Safety

/-! ### The machine's own moves -/

/-- Each move of a list goes on and keeps the memory canonical, from every state. -/
def AllKeep (as : List Act) : Prop := ∀ a ∈ as, ∀ u, Keeps u (a u)

theorem AllKeep.nil : AllKeep [] := by simp [AllKeep]

theorem AllKeep.cons {a : Act} {as : List Act} (h : ∀ u, Keeps u (a u)) (t : AllKeep as) : AllKeep (a :: as) :=
  List.forall_mem_cons.mpr ⟨h, t⟩

theorem AllKeep.one {a : Act} (h : ∀ u, Keeps u (a u)) : AllKeep [a] := .cons h .nil

theorem AllKeep.append {as bs : List Act} (ha : AllKeep as) (hb : AllKeep bs) : AllKeep (as ++ bs) :=
  List.forall_mem_append.mpr ⟨ha, hb⟩

theorem AllKeep.map {α : Type} (l : List α) {f : α → Act} (h : ∀ x u, Keeps u (f x u)) : AllKeep (l.map f) :=
  List.forall_mem_map.mpr fun x _ => h x

theorem AllKeep.flatMap {α : Type} (l : List α) {f : α → List Act} (h : ∀ x, AllKeep (f x)) : AllKeep (l.flatMap f) := by
  intro a ha
  obtain ⟨x, _, hx⟩ := List.mem_flatMap.mp ha
  exact h x a hx

theorem AllKeep.ite {c : Prop} [Decidable c] {as bs : List Act} (ha : AllKeep as) (hb : AllKeep bs) :
    AllKeep (if c then as else bs) := by
  split <;> assumption

theorem allKeep_groupEvents (h c g : Nat) (x : Group) : AllKeep (groupEvents h c g x) := by
  unfold groupEvents
  generalize x.wait = w
  cases w with
  | ready | drain | order | mem => exact .nil
  | yield => exact .one (exec_keeps (.yieldEnd h c g))
  | sleep => exact .one (exec_keeps (.sleepWake h c g))
  | walk => exact .ite (.one (exec_keeps (.walkPendingRetry h c g))) .nil
  | park | ldacc | token => exact .one (exec_keeps (.parkWake h c g))
  | fence => exact .one (exec_keeps (.fenceRelease h c g))
  | barArr => exact .one (exec_keeps (.barrierArrivalCount h c g))
  | barWait => exact .one (exec_keeps (.barrierWaitRelease h c g))
  | send => exact .one (exec_keeps (.sendSlotFill h c g))
  | recv => exact .one (exec_keeps (.recvSlotTake h c g))
  | copies => exact .one (exec_keeps (.copyAccept h c g))
  | sign => exact .one (exec_keeps (.signatureRecord h c g))
  | place => exact .one (exec_keeps (.qmPlacement h c g))
  | qwait => exact .one (exec_keeps (.qwaitComplete h c g))
  | l2op => exact .one (exec_keeps (.l2opDone h c g))
  | snap => exact .one (exec_keeps (.snapCaptureDone h c g))
  | scrub => exact .one (exec_keeps (.scrubComplete h c g))
  | trap => exact .one (exec_keeps (.trapEntry h c g))

theorem allKeep_workEvents (h c : Nat) (k : Core) : AllKeep (workEvents h c k) := by
  refine .append (.append (.append (.append (.append (.append (.append (.append (.append (.append ?outs ?pend) ?groups) ?wgs)
    ?coal) ?engine) ?l1) ?tlb) ?ends) ?age) ?bins
  case outs => exact .flatMap _ fun _ => .cons (exec_keeps (.loadComplete h c _)) (.one (exec_keeps (.atomicReturn h c _)))
  case pend => exact .map _ fun _ => keeps_release h c _
  case groups => exact .flatMap _ fun _ => allKeep_groupEvents h c _ _
  case wgs =>
    exact .flatMap _ fun e => .append (.map _ fun ch => exec_keeps (.channelSlotFreed h c e.1 ch.1))
      (.map _ fun b => exec_keeps (.barrierPhaseComplete h c e.1 b))
  case coal => exact .ite .nil (.one (exec_keeps (.cpaCoalesceTimeout h c)))
  case engine => exact .ite .nil (.cons (exec_keeps (.matrixWatchdog h c)) (.cons (exec_keeps (.matrixStep h c))
    (.one (exec_keeps (.qfenceEntryComplete h (2048 + c))))))
  case l1 => exact .map _ fun _ => exec_keeps (.l1CopyExpiry h c _)
  case tlb => exact .ite .nil (.one (exec_keeps (.tlbLeaseExpiry h c)))
  case ends => exact .map _ fun _ => exec_keeps (.workgroupNormalEnd h c _)
  case age => exact .map _ fun _ => exec_keeps (.binAgeThreshold h c _)
  case bins => exact .ite .nil (.cons (exec_keeps (.binDraw h c)) (.one (exec_keeps (.schedStall h c))))

theorem allKeep_coreEvents (h c : Nat) (k : Core) : AllKeep (coreEvents h c k) :=
  .append (.map _ fun _ => exec_keeps (.homeRequestArrival h c _)) (.ite .nil (allKeep_workEvents h c k))

theorem allKeep_humEvents (s : State) (h : Nat) (d : Hum) : AllKeep (s.humEvents h d) := by
  refine .append (.append (.append (.append (.append (.append (.append (.append (.append (.append (.append (.append ?walks
    ?start) ?gbars) ?lbars) ?jobs) ?wins) ?tlb) ?queues) ?scrub) ?rails) ?links) ?again) ?banks
  case walks => exact .flatMap _ fun _ => .cons (exec_keeps (.walkComplete h _)) (.one (exec_keeps (.swapRetry h _)))
  case start =>
    split
    · exact .one (exec_keeps (.walkStart h _))
    · exact .nil
  case gbars => exact .map _ fun _ => exec_keeps (.barrierPhaseComplete h 64 _ _)
  case lbars => exact .map _ fun _ => exec_keeps (.barrierPhaseComplete h 64 _ _)
  case jobs =>
    refine .flatMap _ fun _ => .append
      (.cons (exec_keeps (.enlargerLeaseRenewal h _)) (.one (exec_keeps (.qfenceEntryComplete h _)))) ?_
    split
    · exact .nil
    · exact .one (exec_keeps (.copyLineWrite h _ _))
  case wins => exact .map _ fun _ => exec_keeps (.windowContributionLimit h _)
  case tlb => exact .ite .nil (.one (exec_keeps (.tlbLeaseExpiry h 64)))
  case queues => exact .flatMap _ fun _ => .cons (exec_keeps (.launchRecordTake h _)) (.one (exec_keeps (.cardPlacement h _)))
  case scrub => exact .ite (.one (exec_keeps (.scrubComplete _ _ _))) .nil
  case rails => exact .map _ fun _ => exec_keeps (.railCrack h _)
  case links => exact .map _ fun _ => exec_keeps (.linkFence h _)
  case again => exact .map _ fun _ => keeps_flitAgain h _
  case banks => exact .flatMap _ fun _ => .cons (exec_keeps (.frameMove h _)) (.one (exec_keeps (.bankRetired h _)))

theorem allKeep_launchEvents (l : Nat) (x : Launch) : AllKeep (launchEvents l x) := by
  unfold launchEvents
  split
  · exact .one (exec_keeps (.rectClaim l))
  · exact .one (exec_keeps (.routeLoad l true))
  · exact .one (exec_keeps (.residency l))
  · exact .one (exec_keeps (.gangPlacement l))
  · exact .one (exec_keeps (.launchSetup l))
  · exact .one (exec_keeps (.scrubTokenMatch l))
  · exact .append (.one (exec_keeps (.launchCompletion l))) (.flatMap _ fun _ => .flatMap _ fun _ =>
      .cons (exec_keeps (.lbForward l _ _)) (.one (exec_keeps (.lbCompletionBroadcast l _ _))))

theorem allKeep_fnEvents (f : Nat) (x : Fn) : AllKeep (fnEvents f x) := by
  refine .append (.append (.append (.append (.append (.append (.append ?err ?prq) ?s2prq) ?lease) ?swap) ?restore) ?leave) ?ckpt
  case err => exact .ite .nil (.one (keeps_errRetry f))
  case prq => exact .ite .nil (.one (keeps_ringRetry f 1))
  case s2prq => exact .ite .nil (.one (keeps_ringRetry f 2))
  case lease => exact .ite (.one (exec_keeps (.leaseQueryDone f))) .nil
  case swap => exact .ite (.cons (exec_keeps (.dbmSwapInstant f)) (.one (exec_keeps (.dbmSwapDone f)))) .nil
  case restore => exact .ite (.one (exec_keeps (.restoreDone f))) .nil
  case leave => exact .ite (.one (keeps_leaveDone f)) .nil
  case ckpt => exact .ite (.cons (exec_keeps (.checkpointInstant f)) (.cons (exec_keeps (.checkpointDrainDone f))
    (.one (exec_keeps (.checkpointCommit f))))) .nil

/-- Every internal event goes on and keeps the memory canonical. -/
theorem allKeep_events (s : State) : AllKeep s.events := by
  refine .append (.append (.append (.append (.append (.append (.append (.append ?held ?cards) ?travel) ?swaps) ?cores) ?hums)
    ?launches) ?fns) ?lock
  case held => exact .map _ keeps_hostRetry
  case cards => exact .map _ fun _ => exec_keeps (.cardReceive _)
  case travel => exact .map _ fun _ => exec_keeps (.windowReductionAccept _)
  case swaps => exact .map _ fun _ => exec_keeps (.swapHorizonEnd _)
  case cores => exact .flatMap _ fun _ => allKeep_coreEvents _ _ _
  case hums => exact .flatMap _ fun _ => allKeep_humEvents s _ _
  case launches => exact .flatMap _ fun _ => allKeep_launchEvents _ _
  case fns => exact .flatMap _ fun _ => allKeep_fnEvents _ _
  case lock => exact .ite (.one (exec_keeps (.domainEpochLock 0))) .nil

/-! ### A step -/

/-- What a group's issue does: its word's instruction, or the trap or the walk that its fetch needs. -/
theorem keeps_issue (s : State) (r : GRef) : Keeps s (s.issue r) := by
  unfold State.issue
  refine .ite (.self s) ?_
  dsimp only
  have hm : (State.noteIssue { s.issueTime r with cur := r }).mem = s.mem := by simp
  generalize State.noteIssue { s.issueTime r with cur := r } = u at hm
  split
  · exact .same (by simp [hm])
  · exact .same (by simp [hm])
  · exact .self s
  next w hpa t _ =>
    have hu : MemOk s → MemOk (u.afterFetch w hpa t) := fun hs => memOk_afterFetch _ _ _ (memOk_of_mem hm hs)
    generalize u.afterFetch w hpa t = v at hu
    split
    · exact .next fun hs => memOk_of_mem (by simp) (hu hs)
    next i _ =>
      obtain ⟨x, hx, hk⟩ := exec_keeps i v
      rw [hx]
      exact .next fun hs => memOk_of_mem (State.afterIssue_mem x r) (hk (hu hs))

theorem keeps_eventMove (s : State) (i : Instr) : Keeps s (s.eventMove i) := .ite (exec_keeps i s) (.self s)

theorem keeps_perform (s : State) (m : Move) : Keeps s (s.perform m) := by
  cases m with
  | issue h c g => exact keeps_issue s _
  | event i => exact keeps_eventMove s i
  | inner k =>
    simp only [State.perform]
    split
    next a ha => exact allKeep_events s a (List.mem_filter.mp (List.mem_of_getElem? ha)).1 s
    next => exact .self s
  | readReg f off => exact .next (memOk_hostDo _)
  | tick n => exact .same (State.idle_mem s n)

theorem keeps_auto (s : State) : Keeps s s.auto := by
  unfold State.auto
  split
  next a ha => exact allKeep_events s a (List.mem_of_find?_eq_some ha) s
  next =>
    split
    · exact keeps_issue s _
    · exact .same (State.idle_mem s 1)

theorem Keeps.logged {s : State} {o : Out} (h : Keeps s o) : Keeps s (s.logged o) := by
  obtain ⟨t, rfl, ht⟩ := h
  exact .next fun hs => memOk_logBlocks (ht hs)

/-- A step with power, or to power-on, goes on and keeps the memory canonical. -/
theorem keeps_step {s : State} (h : s.powered = true) : Keeps s (step s) := by
  unfold step
  rw [if_pos h]
  refine Keeps.logged ?_
  split
  · obtain ⟨t, ht, hk⟩ := keeps_perform { s with agenda := _ } _
    exact ⟨t, ht, fun hs => hk (memOk_of_mem rfl hs)⟩
  · exact keeps_auto s

theorem powered_of_power {s : State} (h : s.pkg.power = true) : s.powered = true := by simp [State.powered, h]

/-- Without power only power-on is a move (R427). -/
theorem step_unpowered {s : State} (h : s.powered = false) : step s = .fault .powerLost := by simp [step, h]

end Sys2Proof.Machine
end

section
/-! PROOF. Stored numbers and records read back, every step keeps the memory canonical, and every step with power goes on. -/

namespace Sys2Proof.Machine

open Sys2Proof.Safety

/-! ### Buffer records (08_memory_access.md R179) -/

theorem b2n_le_one (b : Bool) : b2n b ≤ 1 := by cases b <;> decide

theorem decide_b2n_eq_one (b : Bool) : decide (b2n b = 1) = b := by cases b <;> decide

theorem bitOf_eq_of_div_mod {x i : Nat} {b : Bool} (h : x / 2 ^ i % 2 = b2n b) : bitOf x i = b := by
  rw [bitOf, Nat.testBit_eq_decide_div_mod_eq, h, decide_b2n_eq_one]

/-- A record's fields take the lowest 122 of its 128 bits, each field cut to its width. -/
theorem BufRec.toNat_lt (r : BufRec) : r.toNat < 2 ^ 122 := by
  have := b2n_le_one r.pr; have := b2n_le_one r.pw; have := b2n_le_one r.pa
  have := b2n_le_one r.zf; have := b2n_le_one r.valid
  unfold BufRec.toNat
  omega

/-- A record whose numbers fit their fields is the record that its bits give: each field's digits are its own. -/
theorem BufRec.ofNat_toNat {r : BufRec} (hbase : r.base < 2 ^ 52) (hstride : r.stride < 2 ^ 24) (hextent : r.extent < 2 ^ 32)
    (hesize : r.esize < 8) (hswz : r.swz < 8) (hsel : r.sel < 8) : BufRec.ofNat r.toNat = r := by
  have := b2n_le_one r.pr; have := b2n_le_one r.pw; have := b2n_le_one r.pa
  have := b2n_le_one r.zf; have := b2n_le_one r.valid
  generalize hx : r.toNat = x
  unfold BufRec.toNat at hx
  cases r
  simp only [BufRec.ofNat, bitsOf, BufRec.mk.injEq] at *
  refine ⟨?_, ?_, ?_, ?_, ?_, ?_, bitOf_eq_of_div_mod ?_, bitOf_eq_of_div_mod ?_, bitOf_eq_of_div_mod ?_,
    bitOf_eq_of_div_mod ?_, bitOf_eq_of_div_mod ?_⟩ <;> omega

/-! ### The obligations -/

/-- Settles O33: a byte of a number in memory is its digit base 256, and a record's fields lie side by side in its bits. -/
theorem storedNumbersAndRecordsReadBack : Obligations.StoredNumbersAndRecordsReadBack := by
  refine ⟨fun m a n v hm => ⟨readN_writeN m a n v, wf_writeN n a v hm, fun b hb => ?_, fun k hk => ?_⟩,
    fun r hbase hstride hextent hesize hswz hsel =>
      ⟨BufRec.ofNat_toNat hbase hstride hextent hesize hswz hsel, BufRec.toNat_lt r⟩⟩
  · rw [memRead_writeN, if_neg (by omega)]
  · rw [memRead_writeN, if_pos (by omega), Nat.add_sub_cancel_left]

/-- Settles O58: every move that a step makes keeps the memory canonical, and so do the undo logs that it writes after it. -/
theorem everyStepKeepsMemoryCanonical : Obligations.EveryStepKeepsMemoryCanonical := by
  intro s t hs hst
  cases hp : s.powered with
  | true =>
    obtain ⟨u, hu, hk⟩ := keeps_step hp
    cases hu.symm.trans hst
    exact hk hs
  | false => cases (step_unpowered hp).symm.trans hst

/-- Settles O60: with power every move goes on, and without power only power-on is one. -/
theorem everyStepWithPowerGoesOn : Obligations.EveryStepWithPowerGoesOn := by
  refine fun s => ⟨fun hp => ?_, fun hp hon => step_unpowered ?_⟩
  · obtain ⟨t, ht, _⟩ := keeps_step (powered_of_power hp)
    exact ⟨t, ht⟩
  · unfold State.powered
    rw [hp, Bool.false_or]
    split
    next b ms h => exact absurd h (hon b ms)
    next => rfl

end Sys2Proof.Machine
end

section
/-! SUPPORT. Which block of a register space an offset lies in (17_device_boundary.md Table 17.1), and what a read of a
block reads. -/

namespace Sys2Proof.Machine

/-! ### The block of an offset -/

theorem regBlock_err (s : State) (f : Nat) {o : Nat} (ho : o < 0x30) : s.regBlock f (0x1000 + o) = (.err, o) := by
  unfold State.regBlock
  rw [if_neg (by omega), if_pos (by simp; omega), Nat.add_sub_cancel_left]

theorem regBlock_trans (s : State) (f : Nat) {o : Nat} (ho : o < 0x78) : s.regBlock f (0x3000 + o) = (.trans, o) := by
  unfold State.regBlock
  rw [if_neg (by omega), if_neg (by simp; omega), if_pos (by simp; omega), Nat.add_sub_cancel_left]

/-- Above the blocks of every function the PF has four of its own, and every function its queues. -/
theorem regBlock_above (s : State) (f : Nat) {off : Nat} (ho : 0x5188 ≤ off) : s.regBlock f off =
    if f = 0 && 0x6000 ≤ off && off < 0x8000 then (.humTenant ((off - 0x6000) / 0x400), (off - 0x6000) % 0x400)
    else if f = 0 && 0x8000 ≤ off && off < 0xC000 then (.mgmt ((off - 0x8000) / 0x800), (off - 0x8000) % 0x800)
    else if f = 0 && 0xC000 ≤ off && off < 0xC020 then (.firmware, off - 0xC000)
    else if f = 0 && 0xD000 ≤ off && off < 0xD080 then (.domain, off - 0xD000)
    else if 0x200000 ≤ off && off < 0x400000 then
      if s.reachesQueue f (queueAtOff off).1 (queueAtOff off).2 && off % 0x800 < 0x108 then
        (.queue (queueAtOff off).1 (queueAtOff off).2, off % 0x800)
      else (.none, 0)
    else (.none, 0) := by
  unfold State.regBlock
  rw [if_neg (by omega), if_neg (by simp; omega), if_neg (by simp; omega), if_neg (by simp; omega), if_neg (by simp; omega),
    if_neg (by simp; omega)]

theorem regBlock_handler (s : State) (f : Nat) {o : Nat} (ho : o < 0x88) : s.regBlock f (0x5100 + o) = (.handler, o) := by
  unfold State.regBlock
  rw [if_neg (by omega), if_neg (by simp; omega), if_neg (by simp; omega), if_neg (by simp; omega), if_neg (by simp; omega),
    if_pos (by simp; omega), Nat.add_sub_cancel_left]

theorem regBlock_humTenant (s : State) {h o : Nat} (hh : h < 8) (ho : o < 0x400) :
    s.regBlock 0 (0x6000 + 0x400 * h + o) = (.humTenant h, o) := by
  have hnum : (0x6000 + 0x400 * h + o - 0x6000) / 0x400 = h := by omega
  have hreg : (0x6000 + 0x400 * h + o - 0x6000) % 0x400 = o := by omega
  rw [regBlock_above s 0 (by omega), if_pos (by simp; omega), hnum, hreg]

theorem regBlock_mgmt (s : State) {h o : Nat} (hh : h < 8) (ho : o < 0x800) :
    s.regBlock 0 (0x8000 + 0x800 * h + o) = (.mgmt h, o) := by
  have hnum : (0x8000 + 0x800 * h + o - 0x8000) / 0x800 = h := by omega
  have hreg : (0x8000 + 0x800 * h + o - 0x8000) % 0x800 = o := by omega
  rw [regBlock_above s 0 (by omega), if_neg (by simp; omega), if_pos (by simp; omega), hnum, hreg]

theorem regBlock_domain (s : State) {o : Nat} (ho : o < 0x80) : s.regBlock 0 (0xD000 + o) = (.domain, o) := by
  rw [regBlock_above s 0 (by omega), if_neg (by simp; omega), if_neg (by simp; omega), if_neg (by simp; omega),
    if_pos (by simp; omega), Nat.add_sub_cancel_left]

/-- No block lies between the domain block and the queues. -/
theorem regBlock_unassigned (s : State) (f : Nat) {off : Nat} (hlo : 0xE000 ≤ off) (hhi : off < 0x200000) :
    s.regBlock f off = (.none, 0) := by
  rw [regBlock_above s f (by omega), if_neg (by simp; omega), if_neg (by simp; omega), if_neg (by simp; omega),
    if_neg (by simp; omega), if_neg (by simp; omega)]

theorem queueAtOff_queue {h q o : Nat} (hq : q < 128) (ho : o < 0x800) :
    queueAtOff (0x200000 + 0x800 * (128 * h + q) + o) = (h, q) := by
  unfold queueAtOff
  congr <;> omega

/-- The registers of a queue that the function reaches. -/
theorem regBlock_queue (s : State) {f h q o : Nat} (hh : h < 8) (hq : q < 128) (ho : o < 0x108)
    (hr : s.reachesQueue f h q = true) : s.regBlock f (0x200000 + 0x800 * (128 * h + q) + o) = (.queue h q, o) := by
  have hmod : (0x200000 + 0x800 * (128 * h + q) + o) % 0x800 = o := by omega
  rw [regBlock_above s f (by omega), if_neg (by simp; omega), if_neg (by simp; omega), if_neg (by simp; omega),
    if_neg (by simp; omega), if_pos (by simp; omega), queueAtOff_queue hq (by omega), hmod, if_pos (by simp [hr, ho])]

/-! ### Reads of the PF's blocks -/

theorem regRead_humTenant (s : State) (hyp : Bool) {h o : Nat} (hh : h < 8) (ho : o < 0x400) (ha : o % 8 = 0) :
    s.regRead hyp 0 (0x6000 + 0x400 * h + o) = (s.humAt h).regs.tenantRead o % 2 ^ 64 := by
  have hal : (0x6000 + 0x400 * h + o) / 8 * 8 = 0x6000 + 0x400 * h + o := by omega
  simp only [State.regRead, hal, regBlock_humTenant s hh ho]

theorem regRead_mgmt (s : State) (hyp : Bool) {h o : Nat} (hh : h < 8) (ho : o < 0x800) (ha : o % 8 = 0) :
    s.regRead hyp 0 (0x8000 + 0x800 * h + o) = (s.humAt h).regs.mgmtRead o % 2 ^ 64 := by
  have hal : (0x8000 + 0x800 * h + o) / 8 * 8 = 0x8000 + 0x800 * h + o := by omega
  simp only [State.regRead, hal, regBlock_mgmt s hh ho]

theorem regRead_domain (s : State) (hyp : Bool) {o : Nat} (ho : o < 0x80) (ha : o % 8 = 0) :
    s.regRead hyp 0 (0xD000 + o) = s.domainRead o % 2 ^ 64 := by
  have hal : (0xD000 + o) / 8 * 8 = 0xD000 + o := by omega
  simp only [State.regRead, hal, regBlock_domain s ho]

/-! ### Reads of the tenancy and domain blocks, register by register (Tables 16.1, 17.7) -/

theorem tenantRead_connmat (r : HumRegs) {i : Nat} (hi : i < 16) : r.tenantRead (8 * i) = mget 0xFFFF r.connmat i := by
  unfold HumRegs.tenantRead
  rw [if_pos (by omega), Nat.mul_div_cancel_left i (by decide)]

theorem tenantRead_part (r : HumRegs) {f : Nat} (hf : f < 64) : r.tenantRead (0x80 + 8 * f) = (r.partAt f).toNat := by
  unfold HumRegs.tenantRead
  rw [if_neg (by omega), if_pos (by omega), Nat.add_sub_cancel_left, Nat.mul_div_cancel_left f (by decide)]

theorem domainRead_coordinates (s : State) {h : Nat} (hh : h < 8) :
    s.domainRead (0x40 + 8 * h) = packFields [(0, 8, s.lx h), (8, 8, s.ly h), (16, 1, b2n (s.lvalid h))] := by
  unfold State.domainRead
  rw [if_pos (by simp; omega), Nat.add_sub_cancel_left, Nat.mul_div_cancel_left h (by decide)]

/-! ### Accesses of an unassigned offset (R401) -/

theorem regRead_unassigned (s : State) (hyp : Bool) (f : Nat) {off : Nat} (hlo : 0xE000 ≤ off) (hhi : off < 0x200000) :
    s.regRead hyp f off = 0 := by
  have hb : s.regBlock f (off / 8 * 8) = (.none, 0) := regBlock_unassigned s f (by omega) (by omega)
  simp only [State.regRead, hb, Nat.zero_mod]

theorem regWrite_unassigned (s : State) (hyp : Bool) (f v : Nat) {off : Nat} (hlo : 0xE000 ≤ off) (hhi : off < 0x200000) :
    s.regWrite hyp f off v = s.logErr f 11 0 (off / 8 * 8) 0 := by
  have hb : s.regBlock f (off / 8 * 8) = (.none, 0) := regBlock_unassigned s f (by omega) (by omega)
  simp only [State.regWrite, hb, State.rejectWrite]

/-! ### Writes of three registers, and of a queue's TAIL -/

theorem fnAt_regWrite_root1 (s : State) (hyp : Bool) (f : Nat) {v : Nat} (hv : v < 2 ^ 64) :
    (s.regWrite hyp f 0x3000 v).fnAt f = { s.fnAt f with tren := bitOf v 0, root1 := bitsOf v 16 40 * 65536 } := by
  have hb : s.regBlock f (0x3000 / 8 * 8) = (.trans, 0) := regBlock_trans s f (o := 0) (by decide)
  simp only [State.regWrite, hb, Nat.mod_eq_of_lt hv]
  exact State.fnAt_setFn_self _ _ _

theorem fnAt_regWrite_tvec (s : State) (hyp : Bool) (f : Nat) {v : Nat} (hv : v < 2 ^ 64) :
    (s.regWrite hyp f 0x5180 v).fnAt f = { s.fnAt f with tven := bitOf v 0, tvbase := bitsOf v 6 26 * 64 } := by
  have hb : s.regBlock f (0x5180 / 8 * 8) = (.handler, 0x80) := regBlock_handler s f (o := 0x80) (by decide)
  simp only [State.regWrite, hb, Nat.mod_eq_of_lt hv]
  exact State.fnAt_setFn_self _ _ _

theorem fnAt_regWrite_erren (s : State) (hyp : Bool) (f : Nat) {v : Nat} (hv : v < 2 ^ 64) :
    (s.regWrite hyp f 0x1028 v).fnAt f = { s.fnAt f with erren := bitOf v 0 } := by
  have hb : s.regBlock f (0x1028 / 8 * 8) = (.err, 0x28) := regBlock_err s f (o := 0x28) (by decide)
  simp only [State.regWrite, hb, Nat.mod_eq_of_lt hv]
  exact State.fnAt_setFn_self _ _ _

/-- A write of TAIL within the ring stands; one at its size or above is logged at the queue's function (R451). -/
theorem regWrite_tail (s : State) (hyp : Bool) {f h q : Nat} (tail : Nat) (hh : h < 8) (hq : q < 128)
    (hr : s.reachesQueue f h q = true) :
    s.regWrite hyp f (0x200000 + 0x800 * (128 * h + q) + 0x10) tail =
      if 2 ^ ((mget {} (s.humAt h).queues q).size + 6) ≤ tail % 2 ^ 32 then
        s.logErr (mget {} (s.humAt h).queues q).fn 11 0 (0x200000 + 0x800 * (128 * h + q) + 0x10) 0
      else s.modQueue h q (fun y => { y with tail := tail % 2 ^ 32 }) := by
  have hal : (0x200000 + 0x800 * (128 * h + q) + 0x10) / 8 * 8 = 0x200000 + 0x800 * (128 * h + q) + 0x10 := by omega
  have hcut : tail % 2 ^ 64 % 2 ^ 32 = tail % 2 ^ 32 := by omega
  simp only [State.regWrite, hal, regBlock_queue s hh hq (show 0x10 < 0x108 by decide) hr, State.queueWrite, hcut]
  rfl

end Sys2Proof.Machine
end

section
/-! SUPPORT. The host's accesses: their order, what each does now, and the map, the lease query and the watchdog limit
(10_ordering.md R247; 17_device_boundary.md R401, R402, R408, R410). -/

namespace Sys2Proof.Machine

open Sys2Proof.Safety

/-- An event that answers a choice between a state and the one it began in. -/
theorem waitEnds_of_ite {i : Instr} {s u : State} {b : Bool} (h : exec i s = .next (if b = true then u else s)) :
    WaitEnds i s b u := by
  cases b <;> exact ⟨by simp [h], by simp [h]⟩

/-! ### The order of a requester's accesses (R247) -/

theorem hostDo_of_waiting {s : State} {a : HostAcc} (h : ∃ x ∈ s.pkg.held, x.fn = a.fn) : s.hostDo a = s.hostKeep a := by
  rw [State.hostDo, if_pos (by simpa using h)]

theorem hostDo_of_first {s : State} {a : HostAcc} (h : ∀ x ∈ s.pkg.held, x.fn ≠ a.fn) :
    s.hostDo a = (s.hostAct a).getD (s.hostKeep a) := by
  rw [State.hostDo, if_neg (by simpa using h)]

theorem hostDo_of_act {s t : State} {a : HostAcc} (h : ∀ x ∈ s.pkg.held, x.fn ≠ a.fn) (ha : s.hostAct a = some t) :
    s.hostDo a = t := by
  rw [hostDo_of_first h, ha, Option.getD_some]

theorem hostDo_of_hold {s : State} {a : HostAcc} (h : ∀ x ∈ s.pkg.held, x.fn ≠ a.fn) (ha : s.hostAct a = none) :
    s.hostDo a = s.hostKeep a := by
  rw [hostDo_of_first h, ha, Option.getD_none]

/-- The accesses that the host makes of itself are done in their requester's order. -/
theorem exec_of_hostAccess {s : State} {f off v port n : Nat} {i : Instr} {a : HostAcc}
    (h : (i, a) ∈ [(Instr.registerWrite f off v, HostAcc.regWrite f off v), (.hostApertureRead port f off n, .read port f off n),
      (.hostApertureWrite port f off n v, .write port f off n v), (.hostMapRead off, .mapRead off),
      (.hostMapWrite off v, .mapWrite off v)]) : exec i s = .next (s.hostDo a) := by
  simp only [List.mem_cons, List.not_mem_nil, or_false, Prod.mk.injEq] at h
  obtain ⟨rfl, rfl⟩ | ⟨rfl, rfl⟩ | ⟨rfl, rfl⟩ | ⟨rfl, rfl⟩ | ⟨rfl, rfl⟩ := h <;> rfl

theorem hostRetry_of_first {s : State} {f : Nat} (h : ∀ x ∈ s.pkg.held, x.fn ≠ f) : hostRetry f s = .next s := by
  have hn : s.pkg.held.find? (fun x => x.fn == f) = none := by simpa using h
  rw [hostRetry, hn]

theorem hostRetry_of_waiting {s : State} {f : Nat} {a : HostAcc} (h : s.pkg.held.find? (fun x => x.fn == f) = some a) :
    hostRetry f s = .next ((({ s with pkg := { s.pkg with held := s.pkg.held.erase a } } : State).hostAct a).getD s) := by
  rw [hostRetry, h]

/-! ### Registers (R401, R402) -/

/-- The host sees the PF, and a VF unless the firmware did not verify (R427). -/
theorem hostSees_iff (s : State) (f : Nat) :
    s.hostSees f = true ↔ f = 0 ∨ (f < 64 ∧ ¬ (s.pkg.fwstat = 3 ∧ s.pkg.measured = false)) := by
  rw [State.hostSees, Bool.or_eq_true, beq_iff_eq, Bool.and_eq_true, decide_eq_true_eq, Bool.not_eq_true', ← Bool.not_eq_true,
    Bool.and_eq_true, beq_iff_eq, Bool.not_eq_true']

theorem hostDo_regWrite {s : State} {f : Nat} (off v : Nat) (h : ∀ x ∈ s.pkg.held, x.fn ≠ f) :
    s.hostDo (.regWrite f off v) =
      if (s.hostSees f && decide (off < 2 ^ 22)) = true then s.regWrite (f == 0) f off v else s := hostDo_of_act h rfl

theorem hostDo_regRead {s : State} {f : Nat} (off : Nat) (h : ∀ x ∈ s.pkg.held, x.fn ≠ f) :
    s.hostDo (.regRead f off) =
      s.respond (.data (if (s.hostSees f && decide (off < 2 ^ 22)) = true then s.regRead (f == 0) f off else 0)) :=
  hostDo_of_act h rfl

theorem step_readReg {s : State} {f off : Nat} {ms : List Move} (hp : s.pkg.power = true) (h : ∀ x ∈ s.pkg.held, x.fn ≠ f)
    (hm : s.agenda = .readReg f off :: ms) :
    step s = .next (s.logBlocks (({ s with agenda := ms } : State).respond
      (.data (if s.hostSees f = true ∧ off < 2 ^ 22 then ({ s with agenda := ms } : State).regRead (f == 0) f off else 0)))) := by
  have hd := hostDo_regRead (s := { s with agenda := ms }) off h
  simp only [Bool.and_eq_true, decide_eq_true_eq] at hd
  rw [step, if_pos (powered_of_power hp), hm]
  simp only [State.perform, hd, State.logged]
  rfl

/-! ### Doorbells (R451) -/

theorem exec_hostDoorbell (s : State) (f h q tail : Nat) : exec (.hostDoorbell f h q tail) s =
    .next (if (decide (h < 8) && decide (q < 128)) = true then
      s.hostDo (.regWrite f (0x200000 + 0x800 * (128 * h + q) + 0x10) tail) else s) := rfl

theorem exec_hostDoorbell_outside {s : State} {f h q tail : Nat} (hb : 8 ≤ h ∨ 128 ≤ q) :
    exec (.hostDoorbell f h q tail) s = .next s := by
  have hc : ¬ (decide (h < 8) && decide (q < 128)) = true := by simp; omega
  rw [exec_hostDoorbell, if_neg hc]

theorem exec_hostDoorbell_unseen {s : State} {f h q tail : Nat} (hf : ∀ x ∈ s.pkg.held, x.fn ≠ f)
    (hs : s.hostSees f = false) : exec (.hostDoorbell f h q tail) s = .next s := by
  rw [exec_hostDoorbell, hostDo_regWrite _ _ hf, hs, Bool.false_and, if_neg Bool.false_ne_true, ite_self]

/-- A doorbell within the queues writes the queue's TAIL register, where the host sees the function. -/
theorem exec_hostDoorbell_inside {s : State} {f h q tail : Nat} (hh : h < 8) (hq : q < 128)
    (hf : ∀ x ∈ s.pkg.held, x.fn ≠ f) : exec (.hostDoorbell f h q tail) s =
      .next (if s.hostSees f = true then s.regWrite (f == 0) f (0x200000 + 0x800 * (128 * h + q) + 0x10) tail else s) := by
  have hc : (decide (h < 8) && decide (q < 128)) = true := by simp [hh, hq]
  have hoff : 0x200000 + 0x800 * (128 * h + q) + 0x10 < 2 ^ 22 := by omega
  rw [exec_hostDoorbell, if_pos hc, hostDo_regWrite _ _ hf, decide_eq_true hoff, Bool.and_true]

theorem reachesQueue_of {s : State} {f h q : Nat} (hr : f = 0 ∨ (mget {} (s.humAt h).queues q : HwQueue).fn = f) :
    s.reachesQueue f h q = true := by
  simpa [State.reachesQueue] using hr

section

variable {s : State} {f h q tail : Nat} (hf : ∀ x ∈ s.pkg.held, x.fn ≠ f) (hs : s.hostSees f = true) (hh : h < 8)
  (hq : q < 128) (hr : f = 0 ∨ (mget {} (s.humAt h).queues q : HwQueue).fn = f)

include hf hs hh hq hr

theorem exec_hostDoorbell_seen (tail : Nat) : exec (.hostDoorbell f h q tail) s =
    .next (if 2 ^ ((mget {} (s.humAt h).queues q).size + 6) ≤ tail % 2 ^ 32 then
        s.logErr (mget {} (s.humAt h).queues q).fn 11 0 (0x200000 + 0x800 * (128 * h + q) + 0x10) 0
      else s.modQueue h q (fun y => { y with tail := tail % 2 ^ 32 })) := by
  rw [exec_hostDoorbell_inside hh hq hf, if_pos hs, regWrite_tail _ _ _ hh hq (reachesQueue_of hr)]

theorem exec_hostDoorbell_within (ht : tail % 2 ^ 32 < 2 ^ ((mget {} (s.humAt h).queues q).size + 6)) :
    exec (.hostDoorbell f h q tail) s = .next (s.modQueue h q (fun y => { y with tail := tail % 2 ^ 32 })) := by
  rw [exec_hostDoorbell_seen hf hs hh hq hr, if_neg (Nat.not_le.mpr ht)]

theorem exec_hostDoorbell_beyond (ht : 2 ^ ((mget {} (s.humAt h).queues q).size + 6) ≤ tail % 2 ^ 32) :
    exec (.hostDoorbell f h q tail) s =
      .next (s.logErr (mget {} (s.humAt h).queues q).fn 11 0 (0x200000 + 0x800 * (128 * h + q) + 0x10) 0) := by
  rw [exec_hostDoorbell_seen hf hs hh hq hr, if_pos ht]

end

/-! ### Lease queries (R408) -/

theorem waitEnds_lqva (s : State) (f va : Nat) :
    WaitEnds (.lqva f va) s (!(s.fnAt f).lqbusy) (s.setFn f { s.fnAt f with lqva := va % 2 ^ 52, lqbusy := true }) := by
  refine waitEnds_of_ite ?_
  change Host.Outcome.next (s.startQuery f va) = _
  unfold State.startQuery
  cases h : (s.fnAt f).lqbusy <;> simp [h]

theorem exec_leaseQueryDone_idle {s : State} {f : Nat} (h : (s.fnAt f).lqbusy = false ∨ s.faulty 512 = true) :
    exec (.leaseQueryDone f) s = .next s :=
  if_neg (by rcases h with h | h <;> simp [h])

theorem exec_leaseQueryDone_busy {s : State} {f : Nat} (hb : (s.fnAt f).lqbusy = true) (hc : s.faulty 512 = false) :
    exec (.leaseQueryDone f) s =
      .next (if s.walkLost 0 f 0 (s.queryWalk 0 f (s.fnAt f).lqva).2.reads = true then
          s.setFn f { s.fnAt f with lqres := 0, lqbusy := false }
        else (s.queryWalk 0 f (s.fnAt f).lqva).1.setFn f { (s.queryWalk 0 f (s.fnAt f).lqva).1.fnAt f with
          lqres := (s.queryWalk 0 f (s.fnAt f).lqva).1.horizonOf (s.queryWalk 0 f (s.fnAt f).lqva).2, lqbusy := false }) :=
  if_pos (by simp [hb, hc])

/-! ### The watchdog limit (R357) -/

theorem setWdlim_one (s : State) {h c : Nat} (v : Nat) (hh : h < 8) (hc : c < 64) :
    s.setWdlim h c false v = s.setWdog h c v := by
  simp [State.setWdlim, hh, hc]

/-- The cores numbered below `n` hold the limit once it is set in each of them. -/
theorem wdog_foldl_setWdog (s : State) (v n : Nat) {a b : Nat} (hn : coreKey a b < n) :
    (((List.range n).foldl (fun t i => t.setWdog (i / 64) (i % 64) v) s).coreAt a b).engine.wdog
      = max (2 ^ 12) (min (2 ^ 31) v) := by
  induction n with
  | zero => omega
  | succ n ih =>
    rw [List.range_succ, List.foldl_append]
    change ((State.setCoreAt _ _ _ _).coreAt a b).engine.wdog = _
    rw [State.coreAt_setCoreAt]
    have hkey : coreKey (n / 64) (n % 64) = n := by unfold coreKey; omega
    split
    · rfl
    · exact ih (by omega)

theorem wdog_setWdlim_all (s : State) (h c v : Nat) {a b : Nat} (ha : a < 8) (hb : b < 64) :
    ((s.setWdlim h c true v).coreAt a b).engine.wdog = max (2 ^ 12) (min (2 ^ 31) v) := by
  simp only [State.setWdlim, if_true]
  exact wdog_foldl_setWdog s v 512 (by unfold coreKey; omega)

/-! ### The apertures (R410) -/

/-- What a host read that ended so gives: its answer, or nothing while it waits. -/
def HostRead.outcome (t : State) : HostRead → Option State
  | .bytes bs => some (t.respond (.data (leNat bs)))
  | .unsupported => some (t.respond .unsupported)
  | .abort => some (t.respond .abort)
  | .hold => none

/-- An aperture answers once bring-up has ended, to whoever the host sees, within its 2^36 bytes. -/
def State.apertureOpen (s : State) (f k : Nat) : Bool := s.pkg.up && s.hostSees f && decide (k ≤ 2 ^ 36)

theorem apertureOpen_of {s : State} {f k : Nat} (hu : s.pkg.up = true) (hs : s.hostSees f = true) (hk : k ≤ 2 ^ 36) :
    s.apertureOpen f k = true := by
  simp only [State.apertureOpen, hu, hs, decide_eq_true hk, Bool.and_self]

theorem apertureOpen_false {s : State} {f k : Nat} (h : s.pkg.up = false ∨ s.hostSees f = false ∨ 2 ^ 36 < k) :
    s.apertureOpen f k = false := by
  unfold State.apertureOpen
  rcases h with h | h | h
  · rw [h, Bool.false_and, Bool.false_and]
  · rw [h, Bool.and_false, Bool.false_and]
  · rw [decide_eq_false (by omega), Bool.and_false]

theorem hostAct_read_shut {s : State} {f off n : Nat} (port : Nat) (h : s.apertureOpen f (off + n) = false) :
    s.hostAct (.read port f off n) = some (s.respond .unsupported) :=
  if_neg (Bool.eq_false_iff.mp h)

theorem hostAct_write_shut {s : State} {f off n : Nat} (port v : Nat) (h : s.apertureOpen f (off + n) = false) :
    s.hostAct (.write port f off n v) = some s :=
  if_neg (Bool.eq_false_iff.mp h)

theorem hostAct_read_open {s : State} {f off n : Nat} (port : Nat) (h : s.apertureOpen f (off + n) = true) :
    s.hostAct (.read port f off n) =
      (State.hostRead port f (n / 65536 + 2) s ((s.fnAt f).hwbase + off) n []).2.outcome
        (State.hostRead port f (n / 65536 + 2) s ((s.fnAt f).hwbase + off) n []).1 := by
  refine (if_pos h).trans ?_
  split <;> rename_i heq <;> rw [heq] <;> rfl

theorem hostAct_write_open {s : State} {f off n : Nat} (port v : Nat) (h : s.apertureOpen f (off + n) = true) :
    s.hostAct (.write port f off n v) =
      State.hostWrite port f (n / 65536 + 2) s off ((s.fnAt f).hwbase + off) (bytesOf n v) :=
  if_pos h

/-! ### The map (R23, R410) -/

section

variable {s : State} {off : Nat}

theorem ite_bnot {α : Type} (b : Bool) (x y : α) : (if (!b) = true then x else y) = if b = true then y else x := by
  cases b <;> rfl

/-- Whether a window lies at a host offset of the map. -/
def State.windowAt (s : State) (off : Nat) : Bool := decide (off < 2 ^ 28) && s.inMap (s.bar4 off) 8

theorem hostMapRead_noWindow (h : (s.pkg.up && s.windowAt off) = false) : s.hostMapRead off = s.respond .unsupported := by
  unfold State.windowAt at h
  rw [← Bool.and_assoc] at h
  simp only [State.hostMapRead, h, Bool.not_false, if_true]

section

variable (hu : s.pkg.up = true) (ht : s.windowAt off = true)

include hu ht

/-- A read of a window, once the package is up: denied, lost, or answered. -/
theorem hostMapRead_window : s.hostMapRead off =
    if s.mapPath 0 1 10 (s.bar4 off) = true then
      if s.hostMapLost (s.bar4 off) = true then s.respond .abort
      else ({ s with freeCtr := s.freeCtr + 1 } : State).respond (.data (s.mapReadN true (s.bar4 off) 8))
    else (s.logErr 0 4 1 (portPair 10 14) 0).respond .unsupported := by
  have hb : (s.pkg.up && decide (off < 2 ^ 28) && s.inMap (s.bar4 off) 8) = true := by
    rw [Bool.and_assoc, hu, Bool.true_and]; exact ht
  simp only [State.hostMapRead, hb, Bool.not_true, Bool.false_eq_true, if_false]
  exact ite_bnot _ _ _

theorem hostMapRead_denied (hp : s.mapPath 0 1 10 (s.bar4 off) = false) :
    s.hostMapRead off = (s.logErr 0 4 1 (portPair 10 14) 0).respond .unsupported := by
  rw [hostMapRead_window hu ht, if_neg (Bool.eq_false_iff.mp hp)]

theorem hostMapRead_lost (hp : s.mapPath 0 1 10 (s.bar4 off) = true) (hl : s.hostMapLost (s.bar4 off) = true) :
    s.hostMapRead off = s.respond .abort := by
  rw [hostMapRead_window hu ht, if_pos hp, if_pos hl]

theorem hostMapRead_answered (hp : s.mapPath 0 1 10 (s.bar4 off) = true) (hl : s.hostMapLost (s.bar4 off) = false) :
    s.hostMapRead off = ({ s with freeCtr := s.freeCtr + 1 } : State).respond (.data (s.mapReadN true (s.bar4 off) 8)) := by
  rw [hostMapRead_window hu ht, if_pos hp, if_neg (Bool.eq_false_iff.mp hl)]

end

theorem hostMapWrite_down (v : Nat) (hu : s.pkg.up = false) : s.hostMapWrite off v = s := by
  simp only [State.hostMapWrite, hu, Bool.not_false, if_true]

theorem hostMapWrite_noWindow (v : Nat) (hu : s.pkg.up = true) (ht : s.windowAt off = false) :
    s.hostMapWrite off v = s.logErr 0 3 1 (s.bar4 off) 0 := by
  unfold State.windowAt at ht
  simp only [State.hostMapWrite, hu, ht, Bool.not_true, Bool.not_false, Bool.false_eq_true, if_true, if_false]
  rfl

/-- Whether the core that a map address names, where its window asks for a quiesced core, is not. -/
def State.notQuiesced (s : State) (a : Nat) : Bool :=
  mapQuiesced (mapCode a) && (match s.localHum (mapHum a) with
    | some h => (s.coreAt h (mapCore a)).status != CoreStatus.quiesced
    | none => false)

theorem notQuiesced_of {a b : Nat} (hb : s.localHum (mapHum a) = some b) (hq : mapQuiesced (mapCode a) = true)
    (hc : (s.coreAt b (mapCore a)).status ≠ .quiesced) : s.notQuiesced a = true := by
  simp [State.notQuiesced, hb, hq, hc]

theorem notQuiesced_false {a : Nat} (h : mapQuiesced (mapCode a) = false ∨
    ∀ b, s.localHum (mapHum a) = some b → (s.coreAt b (mapCore a)).status = .quiesced) : s.notQuiesced a = false := by
  unfold State.notQuiesced
  rcases h with h | h
  · rw [h, Bool.false_and]
  · split
    next b hb => rw [h b hb, bne_self_eq_false, Bool.and_false]
    next => rw [Bool.and_false]

section

variable (v : Nat) (hu : s.pkg.up = true) (ht : s.windowAt off = true)

include hu ht

/-- A write of a window, once the package is up: denied, lost, refused by a core that runs, or done. -/
theorem hostMapWrite_window : s.hostMapWrite off v =
    if s.mapPath 0 1 10 (s.bar4 off) = true then
      if s.hostMapLost (s.bar4 off) = true then s
      else if s.notQuiesced (s.bar4 off) = true then s.logErr 0 3 ((s.localHum (mapHum (s.bar4 off))).getD 0) (s.bar4 off) 0
      else if mapCode (s.bar4 off) < 0x0C then (s.keepHostWrite (s.bar4 off) 8 v).mapWrite (s.bar4 off) 8 v
      else s
    else s.logErr 0 4 1 (portPair 10 14) 0 := by
  unfold State.windowAt at ht
  simp only [State.hostMapWrite, hu, ht, Bool.not_true, Bool.false_eq_true, if_false]
  exact ite_bnot _ _ _

theorem hostMapWrite_denied (hp : s.mapPath 0 1 10 (s.bar4 off) = false) :
    s.hostMapWrite off v = s.logErr 0 4 1 (portPair 10 14) 0 := by
  rw [hostMapWrite_window v hu ht, if_neg (Bool.eq_false_iff.mp hp)]

variable (hp : s.mapPath 0 1 10 (s.bar4 off) = true)

include hp

theorem hostMapWrite_lost (hl : s.hostMapLost (s.bar4 off) = true) : s.hostMapWrite off v = s := by
  rw [hostMapWrite_window v hu ht, if_pos hp, if_pos hl]

variable (hl : s.hostMapLost (s.bar4 off) = false)

include hl

theorem hostMapWrite_running {b : Nat} (hb : s.localHum (mapHum (s.bar4 off)) = some b)
    (hq : mapQuiesced (mapCode (s.bar4 off)) = true) (hc : (s.coreAt b (mapCore (s.bar4 off))).status ≠ .quiesced) :
    s.hostMapWrite off v = s.logErr 0 3 b (s.bar4 off) 0 := by
  rw [hostMapWrite_window v hu ht, if_pos hp, if_neg (Bool.eq_false_iff.mp hl), if_pos (notQuiesced_of hb hq hc), hb,
    Option.getD_some]

theorem hostMapWrite_taken (hq : s.notQuiesced (s.bar4 off) = false) : s.hostMapWrite off v =
    if mapCode (s.bar4 off) < 0x0C then (s.keepHostWrite (s.bar4 off) 8 v).mapWrite (s.bar4 off) 8 v else s := by
  rw [hostMapWrite_window v hu ht, if_pos hp, if_neg (Bool.eq_false_iff.mp hl), if_neg (Bool.eq_false_iff.mp hq)]

end

/-- A host write stands beside no checkpoint where no function has one. -/
theorem keepHostWrite_of_noImage (a w v : Nat) (h : ∀ e ∈ s.fns, e.2.ck.image = none) : s.keepHostWrite a w v = s := by
  unfold State.keepHostWrite
  split
  · rfl
  · have hid : ∀ g : Nat × Fn → Nat × Fn, (∀ e ∈ s.fns, g e = e) → s.fns.map g = s.fns := fun g hg =>
      (List.map_congr_left hg).trans (List.map_id' _)
    dsimp only
    rw [hid]
    intro e he
    rw [h e he]

end

end Sys2Proof.Machine
end

section
/-! PROOF. Chip time reads as R28 says, the host's accesses act as their chapters say, and reset holds the stated values. -/

namespace Sys2Proof.Machine

open Sys2Proof.Safety

/-! ### Chip time (01_machine.md R28) -/

theorem grp_setS (s : State) (i : Nat) (v : Word) : (s.setS i v).grp = { s.grp with s := mset s.grp.s i v } :=
  State.grp_setGrp _ _

theorem exec_smov_true {s : State} {c : SCond} {d : SCode} (src : SCode) (hc : s.grp.holds c = true) (hd : d.toNat < 32) :
    exec (.smov c d src) s = .next ((s.latchRead src).setS d.toNat (s.scalar src)).advance := by
  change Host.Outcome.next (s.when c _) = _
  rw [State.when_true _ _ _ hc, State.setDest, if_pos hd]

theorem grp_advance (s : State) : s.advance.grp = { s.grp with pc := s.grp.pc + 8, far := 0 } := State.grp_setGrp _ _

/-- A move to a scalar register leaves in it what its source read, and the latch as reading the source left it. -/
theorem runs_smov {s : State} {c : SCond} {d : SCode} (src : SCode) (hc : s.grp.holds c = true) (hd : d.toNat < 32) :
    Runs (.smov c d src) s (fun t => t.grp.sreg d.toNat = s.scalar src ∧ t.grp.latch = (s.latchRead src).grp.latch) := by
  refine ⟨_, exec_smov_true src hc hd, ?_, ?_⟩
  · rw [grp_advance, grp_setS]
    exact mget_mset_self _ _ _ _
  · rw [grp_advance, grp_setS]

/-- time.hi reads what time.lo latched, and the high half of the moment where nothing is latched. -/
theorem scalar_timeHi (s : State) : s.scalar 122 = s.grp.latch.getD (BitVec.ofNat 32 (s.chipTime / 2 ^ 32)) := rfl

theorem latch_latchRead_timeLo (s : State) :
    (s.latchRead 121).grp.latch = some (BitVec.ofNat 32 (s.chipTime / 2 ^ 32)) := by
  rw [State.latchRead, if_pos (by decide), State.grp_setGrp]

/-- Settles O7: time.hi reads the latch that a read of time.lo sets, and the moment's high half where none is set. -/
theorem timeLowLatchesTimeHigh : Obligations.TimeLowLatchesTimeHigh := by
  intro s c d hc hd
  refine ⟨?_, runs_smov 122 hc hd, fun hl => by rw [scalar_timeHi, hl, Option.getD_none], fun _ _ _ _ _ _ => rfl⟩
  obtain ⟨t, ht, hreg, hlatch⟩ := runs_smov 121 hc hd
  refine ⟨t, ht, hreg, fun u hu => ?_⟩
  rw [scalar_timeHi, hu, hlatch, latch_latchRead_timeLo, Option.getD_some]

/-! ### The host (17_device_boundary.md R400 to R410) -/

/-- Settles O53: an access of a requester is done where none of its own waits, and each kind of access acts by its cases. -/
theorem hostAccessesAct : Obligations.HostAccessesAct := by
  intro s f h q tail va off v c port n fn sees first
  refine ⟨hostSees_iff s f, fun i a hi hw => by rw [exec_of_hostAccess hi, hostDo_of_waiting hw], fun a => rfl,
    hostRetry_of_first, fun a ha => hostRetry_of_waiting ha,
    fun hf => waitEnds_of_ite (congrArg _ (hostDo_regWrite off v hf)), waitEnds_of_ite rfl, waitEnds_of_ite rfl,
    fun ms hp hf hm => step_readReg hp hf hm,
    fun hyp hlo hhi => ⟨regRead_unassigned s hyp f hlo hhi, regWrite_unassigned s hyp f v hlo hhi⟩,
    fun hyp hv => ⟨fnAt_regWrite_root1 s hyp f hv, fnAt_regWrite_tvec s hyp f hv, fnAt_regWrite_erren s hyp f hv⟩,
    ⟨?doorbellNone, fun hf hs hh hq hr =>
      ⟨exec_hostDoorbell_within hf hs hh hq hr, exec_hostDoorbell_beyond hf hs hh hq hr⟩⟩,
    waitEnds_lqva s f va, exec_leaseQueryDone_idle, ?query,
    fun hh hc => ⟨_, rfl, setWdlim_one s v hh hc⟩, ⟨_, rfl, fun a b ha hb => wdog_setWdlim_all s h c v ha hb⟩,
    ?shut, ?aperture, ?map⟩
  case doorbellNone =>
    rintro (hh | hq | ⟨hf, hs⟩)
    · exact exec_hostDoorbell_outside (.inl hh)
    · exact exec_hostDoorbell_outside (.inr hq)
    · exact exec_hostDoorbell_unseen hf hs
  case query =>
    refine fun hb hc => ⟨fun hl => ?_, fun hl => ?_⟩
    · rw [exec_leaseQueryDone_busy hb hc, if_pos hl]
    · rw [exec_leaseQueryDone_busy hb hc, if_neg (Bool.eq_false_iff.mp hl)]
  case shut =>
    intro hf hshut
    have hshut := apertureOpen_false hshut
    exact ⟨congrArg _ (hostDo_of_act hf (hostAct_read_shut port hshut)),
      congrArg _ (hostDo_of_act hf (hostAct_write_shut port v hshut))⟩
  case aperture =>
    intro hf hu hs hk r
    have hopen := apertureOpen_of hu hs hk
    have hread : s.hostAct (.read port f off n) = r.2.outcome r.1 := hostAct_read_open port hopen
    have hwrite := hostAct_write_open port v hopen
    refine ⟨fun bs hr => congrArg _ (hostDo_of_act hf ?_), fun hr => congrArg _ (hostDo_of_act hf ?_),
      fun hr => congrArg _ (hostDo_of_act hf ?_), fun hr => congrArg _ (hostDo_of_hold hf ?_),
      fun hw => congrArg _ (hostDo_of_hold hf (hwrite.trans hw)), fun t hw => congrArg _ (hostDo_of_act hf (hwrite.trans hw))⟩
    all_goals rw [hread, hr]; rfl
  case map =>
    intro hf a there path lost answer denied
    have hread : exec (.hostMapRead off) s = .next (s.hostMapRead off) := congrArg _ (hostDo_of_act hf rfl)
    have hwrite : exec (.hostMapWrite off v) s = .next (s.hostMapWrite off v) := congrArg _ (hostDo_of_act hf rfl)
    rw [hread, hwrite]
    refine ⟨fun hn => congrArg _ (hostMapRead_noWindow hn),
      fun hu ht => ⟨fun hp => congrArg _ (hostMapRead_denied hu ht hp), fun hp hl => congrArg _ (hostMapRead_lost hu ht hp hl),
        fun hp hl => congrArg _ (hostMapRead_answered hu ht hp hl)⟩,
      fun hu => congrArg _ (hostMapWrite_down v hu), fun hu ht => congrArg _ (hostMapWrite_noWindow v hu ht),
      fun hu ht hp => congrArg _ (hostMapWrite_denied v hu ht hp), fun hu ht hp hl => congrArg _ (hostMapWrite_lost v hu ht hp hl),
      fun hu ht hp hl => ⟨fun b hb hq hc => congrArg _ (hostMapWrite_running v hu ht hp hl hb hq hc), fun hq => ?taken⟩⟩
    have htaken := hostMapWrite_taken v hu ht hp hl (notQuiesced_false hq)
    exact ⟨fun hcode => ⟨congrArg _ (htaken.trans (if_pos hcode)), keepHostWrite_of_noImage _ _ _⟩,
      fun hcode => congrArg _ (htaken.trans (if_neg (Nat.not_lt.mpr hcode)))⟩

/-! ### Reset (Tables 15.6, 16.1, 17.3, 17.5, 17.7) -/

/-- Chip time begins at zero (R26). -/
theorem chipTime_reset : State.reset.chipTime = 0 := by decide

/-- A register of a hummock's tenancy block at reset is that of a block of defaults. -/
theorem regRead_reset_humTenant {h o off : Nat} (hh : h < 8) (ho : o < 0x400) (ha : o % 8 = 0)
    (hoff : off = 0x6000 + 0x400 * h + o) : State.reset.regRead true 0 off = HumRegs.tenantRead {} o % 2 ^ 64 := by
  rw [hoff]
  exact regRead_humTenant _ true hh ho ha

/-- At reset the registers of a hummock's management block but the crack monitor's and the sensors' are zero (R417). -/
theorem mgmtRead_reset : ∀ o ∈ [0x08, 0x10, 0x18, 0x20, 0x28, 0x38, 0x40, 0x48, 0x50],
    o < 0x800 ∧ o % 8 = 0 ∧ HumRegs.mgmtRead {} o % 2 ^ 64 = 0 := by decide

/-- At reset every partition is empty but the PF's, which is everything (R379). -/
theorem partAt_reset (f : Nat) : (HumRegs.partAt {} f).toNat = if f = 0 then 0x1FFFF else 0 := by
  unfold HumRegs.partAt
  rw [mget_nil]
  split <;> rfl

/-- At reset a hummock's logical coordinates are its physical ones, and stand (R404). -/
theorem domainRead_reset_coordinates {h : Nat} (hh : h < 8) :
    State.reset.domainRead (0x40 + 8 * h) % 2 ^ 64 = h % 4 + h / 4 * 2 ^ 8 + 2 ^ 16 := by
  have hall : ∀ h < 8, packFields [(0, 8, State.reset.lx h), (8, 8, State.reset.ly h), (16, 1, b2n (State.reset.lvalid h))]
      % 2 ^ 64 = h % 4 + h / 4 * 2 ^ 8 + 2 ^ 16 := by decide
  rw [domainRead_coordinates _ hh, hall h hh]

/-- At reset a handler segment is empty but for the one that covers the map (R362). -/
theorem hsegAt_reset (f i : Nat) : (State.reset.fnAt f).hsegAt i = if i = 5 then hseg5Reset else {} := rfl

/-- Settles O57: each block reads its registers' defaults, of which the state at reset is made. -/
theorem resetHoldsTheStatedValues : Obligations.ResetHoldsTheStatedValues := by
  unfold Obligations.ResetHoldsTheStatedValues
  intro s reg
  have mgmt : ∀ {h o : Nat}, h < 8 → o < 0x800 → o % 8 = 0 →
      reg (0x8000 + 0x800 * h + o) = HumRegs.mgmtRead {} o % 2 ^ 64 := regRead_mgmt s true
  have domain : ∀ {o : Nat}, o < 0x80 → o % 8 = 0 → reg (0xD000 + o) = s.domainRead o % 2 ^ 64 := regRead_domain s true
  refine ⟨rfl, chipTime_reset, rfl,
    fun h hh => ⟨fun i hi => ?connmat, fun f hf => ?part, ?waysel, ?waymask, ?refused, ?crack, ?mgmt, ?coordinates⟩,
    domain (o := 0) (by decide) rfl, domain (o := 8) (by decide) rfl, domain (o := 0x10) (by decide) rfl,
    domain (o := 0x18) (by decide) rfl, rfl,
    fun f => ⟨fun i _ hi => (hsegAt_reset f i).trans (if_neg hi), rfl, rfl, rfl, rfl, rfl, rfl⟩⟩
  case connmat =>
    refine (regRead_reset_humTenant hh (o := 8 * i) (by omega) (by omega) rfl).trans ?_
    rw [tenantRead_connmat _ hi]
    rfl
  case part =>
    refine (regRead_reset_humTenant hh (o := 0x80 + 8 * f) (by omega) (by omega) (by omega)).trans ?_
    rw [tenantRead_part _ hf, partAt_reset]
    split <;> rfl
  case waysel => exact regRead_reset_humTenant hh (o := 0x300) (by decide) rfl (by omega)
  case waymask => exact regRead_reset_humTenant hh (o := 0x308) (by decide) rfl (by omega)
  case refused => exact regRead_reset_humTenant hh (o := 0x310) (by decide) rfl (by omega)
  case crack => exact mgmt (o := 0) hh (by decide) rfl
  case mgmt =>
    intro o ho
    obtain ⟨hlt, hal, hzero⟩ := mgmtRead_reset o ho
    exact (mgmt hh hlt hal).trans hzero
  case coordinates =>
    have hoff : 0xD040 + 8 * h = 0xD000 + (0x40 + 8 * h) := by omega
    rw [hoff, domain (by omega) (by omega), domainRead_reset_coordinates hh]

end Sys2Proof.Machine
end

section
/-! PROOF. The word of a well-formed instruction decodes to it, and a reserved opcode raises its trap. -/

namespace Sys2Proof.Laws.RoundTrip

/-- Each instruction has its lemma, and an event has no word. -/
theorem statement_of (i : Instr) : Statement i :=
  Instr.casesOn i
    smov smovi sadd ssub smul smulh sand sor sxor sshl sshr ssar smin smax scmp scmpi ssel sread kst br bra brmz brmnz
    brmf sloop call ret trap nop hint yield sleep spawn reform reformTwo retire binAge jpost mov movScalar movi tidx add
    addc sub subc mul mulhi mad madw neg abs min max and or xor not andn shl shr sar rot bfx bfi popc clz brev sel cmp
    cvti adds subs dot4 dot8 addImm addsImm mulImm andImm orImm xorImm andnImm shlImm shrImm sarImm rotImm minImm maxImm
    cmpS32Imm cmpN32Imm bfxImm fadd fsub fmul fma fmin fmax fminn fmaxn fcmp fclass frcp frsq fsqrt fdiv fexp2 flog2
    ffract fround fldexp fcvt fpack fdot2 fdot4 fdot8 mxs faddImm fmulImm fmaImm fminImm fmaxImm fcmpImm mand mor mxor
    mandn mnot mmov mseti mvoteBallot mvoteEq mpop mfirst mlast qswx qswy qswd qbc gshf gshu gshd gshx gbc gred gscan
    pPair ld st ldAcq stRel lds sts ldw stw ldacc prf present fence brec brrd leaseQ leaseRenew atom red atoms reds
    barArr barWait barArw barExp barTest barPh cvdecl cvq send recv chq cpa4 cpa8 cpa16 cpaFlush tcopy tgather tscatter
    tpack tunpack mdcopy cfill qfence qwait mldSt mswap mstream mtile maccZ maccSt maccLd mstat mcfg tret tvec segLd
    segRd sysRd sysWr ckpt ckptQ halt haltDbg snap l2op vfsel tlbProbe walkQ scrub tokRd partQ trapEntry binAgeThreshold
    binDraw yieldEnd sleepWake schedStall parkWake loadComplete atomicReturn fenceRelease homeRequestArrival
    l1CopyExpiry tlbLeaseExpiry walkStart walkPendingRetry walkComplete swapRetry enlargerLeaseRenewal
    swapEngineExchange swapHorizonEnd windowReductionAccept windowContributionLimit switchMerge barrierArrivalCount
    barrierPhaseComplete barrierWaitRelease lbForward lbCompletionBroadcast sidebandPathLoss signatureRecord qmPlacement
    sendSlotFill recvSlotTake channelSlotFreed copyAccept copyLineWrite cpaCoalesceTimeout qfenceEntryComplete
    qwaitComplete matrixStep matrixWatchdog launchRecordTake rectClaim routeLoad residency gangPlacement launchSetup
    scrubTokenMatch cardReceive cardPlacement workgroupNormalEnd launchCompletion hostDoorbell prqReply prqReplyRefuse
    lqva leaseQueryDone hostApertureRead hostApertureWrite hostMapRead hostMapWrite mgdataRead mgdataWrite registerWrite
    prego killgo chipletReset chipletFence chipletDrop chipletFatal rsgo wdlim checkpointInstant checkpointDrainDone
    checkpointCommit crossPackageMessage partWrite connmatWrite waymaskWrite shareWrite scrubComplete dbmswap
    dbmSwapInstant dbmSwapDone rstgo restoreDone flitReceive linkFence linkgo clockSkew clockSkewRecover domen
    domainEpochLock domainLockTimeout fwgo firmwareCheckDone railSample minvClear railCrack thermalTrip thvalWrite
    thermalForecast bankRetiring bkack frameMove bankRetired powerOn packageReset powerLoss prqhead l2opDone
    snapCaptureDone uncorrectableError powerGating corePoweredAgain sensorFault vfEnable

end Sys2Proof.Laws.RoundTrip

namespace Sys2Proof.Laws

/-! ### The opcode check, frame by frame (02_words_and_assembly.md Table 2.2) -/

variable {lvl : Level} {n : Nat} {w : DWord}

theorem opcodeCheck_fFrame (h : w.extractLsb' 62 2 = 0) :
    opcodeCheck lvl w = if fAssigned (w.extractLsb' 54 8).toNat then none else some .illegalOpcode := by
  unfold opcodeCheck
  rw [h]
  rfl

theorem opcodeCheck_pFrame (h : w.extractLsb' 62 2 = 1) : opcodeCheck lvl w =
    if (POp.ofCode (w.extractLsb' 55 7)).isNone then some .illegalOpcode
    else if (POp.ofCode (w.extractLsb' 24 7)).isNone then some .illegalPair else none := by
  unfold opcodeCheck
  rw [h]
  rfl

theorem opcodeCheck_sFrame (h : w.extractLsb' 62 2 = 2) :
    opcodeCheck lvl w = if sAssigned (w.extractLsb' 54 8).toNat then none else some .illegalOpcode := by
  unfold opcodeCheck
  rw [h]
  rfl

theorem opcodeCheck_xFrame (h : w.extractLsb' 62 2 = 3) : opcodeCheck lvl w =
    if !xAssigned (w.extractLsb' 54 8).toNat then some .illegalOpcode
    else if lvl.rank < (xLevel (w.extractLsb' 54 8).toNat).rank then some .privilege else none := by
  unfold opcodeCheck
  rw [h]
  rfl

theorem frame_cases (f : BitVec 2) : f = 0 ∨ f = 1 ∨ f = 2 ∨ f = 3 := by
  revert f
  decide

/-- A word whose opcode is assigned passes the check at every level, except that an X opcode needs its level. -/
theorem opcodeCheck_of_hypervisor (lvl : Level) (h : opcodeCheck .hypervisor w = none) : opcodeCheck lvl w =
    if w.extractLsb' 62 2 = 3 ∧ lvl.rank < (xLevel (w.extractLsb' 54 8).toNat).rank then some .privilege else none := by
  have hnot {f : BitVec 2} (he : w.extractLsb' 62 2 = f) (hne : f ≠ 3) :
      ¬(w.extractLsb' 62 2 = 3 ∧ lvl.rank < (xLevel (w.extractLsb' 54 8).toNat).rank) := fun hx => hne (he.symm.trans hx.1)
  rcases frame_cases (w.extractLsb' 62 2) with hf | hf | hf | hf
  · rw [opcodeCheck_fFrame hf] at h ⊢
    rw [h, if_neg (hnot hf (by decide))]
  · rw [opcodeCheck_pFrame hf] at h ⊢
    rw [h, if_neg (hnot hf (by decide))]
  · rw [opcodeCheck_sFrame hf] at h ⊢
    rw [h, if_neg (hnot hf (by decide))]
  · rw [opcodeCheck_xFrame hf] at h ⊢
    cases ha : xAssigned (w.extractLsb' 54 8).toNat with
    | false =>
      rw [ha] at h
      cases h
    | true => simp [hf]

theorem decode_of_opcodeCheck {t : DecodeTrap} (h : opcodeCheck lvl w = some t) : decode lvl n w = .error t := by
  rw [decode, h]

/-- Settles O56: the word reads as the instruction, its opcode being assigned, so that only its level can refuse it. -/
theorem encodeDecodeRoundTrip : Obligations.EncodeDecodeRoundTrip := by
  intro i lvl n w hwf henc
  obtain ⟨hparse, hcheck⟩ := RoundTrip.statement_of i w henc
  rw [decode, opcodeCheck_of_hypervisor lvl hcheck]
  by_cases hl : w.extractLsb' 62 2 = 3 ∧ lvl.rank < (xLevel (w.extractLsb' 54 8).toNat).rank
  · rw [if_pos hl, if_pos hl]
  · rw [if_neg hl, if_neg hl, hparse]
    exact if_pos ⟨henc, hwf⟩

/-! ### Words of the encoding tables -/

/-- The word of a well-formed instruction that the level may use decodes to it. -/
theorem decode_of_encode {i : Instr} (henc : encode i = some w) (hwf : wellFormed n lvl i = true)
    (hlvl : w.extractLsb' 62 2 = 3 → (xLevel (w.extractLsb' 54 8).toNat).rank ≤ lvl.rank) : decode lvl n w = .ok i := by
  rw [encodeDecodeRoundTrip i lvl n w hwf henc, if_neg]
  rintro ⟨hf, hlt⟩
  exact Nat.not_lt.mpr (hlvl hf) hlt

/-- Settles O54: each word is the encoding of its instruction, which is well-formed. -/
theorem wordsOfTheSpecDecode : Obligations.WordsOfTheSpecDecode := by
  refine ⟨?_, ?_, ?_, ?_, ?_, ?_, ?_, ?_, ?_, ?_, ?_, ?_⟩ <;> exact decode_of_encode rfl (by decide) (by decide)

/-! ### Reserved opcodes (R45, R50, R52, R53) -/

/-- A number in a gap between ranges lies in none of them. -/
theorem inRanges_eq_false {x : Nat} {gaps rs : List (Nat × Nat)} (hapart : ∀ g ∈ gaps, ∀ r ∈ rs, g.2 < r.1 ∨ r.2 < g.1)
    (hx : ∃ g ∈ gaps, g.1 ≤ x ∧ x ≤ g.2) : inRanges x rs = false := by
  obtain ⟨g, hg, hlo, hhi⟩ := hx
  rw [inRanges, List.any_eq_false]
  intro r hr
  have := hapart g hg r hr
  simp only [Bool.and_eq_true, decide_eq_true_eq]
  omega

/-- The P opcodes that Table 2.12 does not assign. -/
theorem pOpcode_reserved_iff (c : BitVec 7) : (POp.ofCode c).isNone = true ↔
    ∃ r ∈ [(0x16, 0x3F), (0x49, 0x7F)], r.1 ≤ c.toNat ∧ c.toNat ≤ r.2 := by
  have hlen : POp.all.length = 31 := rfl
  have hlt := c.isLt
  simp only [List.mem_cons, List.not_mem_nil, or_false, exists_eq_or_imp, exists_eq_left]
  unfold POp.ofCode
  split
  · rw [Option.isNone_iff_eq_none, List.getElem?_eq_none_iff]
    omega
  · split
    · rw [Option.isNone_iff_eq_none, List.getElem?_eq_none_iff]
      omega
    · rw [Option.isNone_none, eq_self, true_iff]
      omega

/-- Settles O55: a reserved opcode fails the first check, which looks at neither the level nor the other fields. -/
theorem reservedOpcodesRaiseTheirTraps : Obligations.ReservedOpcodesRaiseTheirTraps := by
  refine fun lvl n w => ⟨fun hf hop => ?fFrame, fun hf hop => ?sFrame, fun hf hop => ?xFrame, fun hf hop => ?firstHalf,
    fun hf h0 h1 => ?secondHalf⟩ <;> apply decode_of_opcodeCheck
  case fFrame => rw [opcodeCheck_fFrame hf, fAssigned, inRanges_eq_false (by decide) hop]; rfl
  case sFrame => rw [opcodeCheck_sFrame hf, sAssigned, inRanges_eq_false (by decide) hop]; rfl
  case xFrame => rw [opcodeCheck_xFrame hf, xAssigned, inRanges_eq_false (by decide) hop]; rfl
  case firstHalf => rw [opcodeCheck_pFrame hf, if_pos ((pOpcode_reserved_iff _).mpr hop)]
  case secondHalf =>
    rw [opcodeCheck_pFrame hf, if_neg (fun h => h0 ((pOpcode_reserved_iff _).mp h)), if_pos ((pOpcode_reserved_iff _).mpr h1)]

end Sys2Proof.Laws
end

section
/-! PROOF. Scalar control: what a false condition leaves, and where branches, loops and calls go; the paired word; and the step that
runs the decoded instruction. -/

namespace Sys2Proof.Machine

open Sys2Proof.Safety

/-! ### False conditions, `nop` and hints (02_words_and_assembly.md R46, R52, 03_scalar_control.md R79) -/

/-- An instruction whose effect stands under a condition that is false only advances. -/
theorem exec_of_false {s x : State} {c : SCond} {i : Instr} (hc : s.grp.holds c = false) (hi : exec i s = .next (s.when c x)) :
    exec i s = .next s.advance := by
  rw [hi, State.when_false s x c hc]

theorem exec_of_true {s x : State} {c : SCond} {i : Instr} (hc : s.grp.holds c = true) (hi : exec i s = .next (s.when c x)) :
    exec i s = .next x := by
  rw [hi, State.when_true s x c hc]

/-- Settles O4: each conditional word's effect stands under its condition; `nop` and hints have no effect. -/
theorem falseConditionsNopsAndHintsOnlyAdvance : Obligations.FalseConditionsNopsAndHintsOnlyAdvance := by
  refine fun s c => ⟨rfl, fun _ _ => rfl, fun hc d a b u imm off sel l v m m2 code n e t card dir => ?_⟩
  simp only [List.forall_mem_cons, List.not_mem_nil, false_imp_iff, implies_true, and_true]
  and_intros <;> exact exec_of_false hc rfl

/-! ### Branches, loops and calls (R48, R73 to R75) -/

variable {s : State} {c : SCond}

/-- A branch goes to its target where its test holds, and to the next word where it does not. -/
theorem runs_branch {i : Instr} {b : Bool} {off : Word} (hc : s.grp.holds c = true) (hi : exec i s = .next (s.branchIf c b off)) :
    Runs i s (fun t => OnlyGroup s t
      { s.grp with pc := if b then s.grp.pc + off * 8 else s.grp.pc + 8, far := if b then s.farOf off else 0 }) := by
  refine ⟨_, exec_of_true hc hi, ?_⟩
  cases b <;> rfl

theorem exec_bra_true (hc : s.grp.holds c = true) (b : Op2) : exec (.bra c b) s =
    .next (if (s.op2 b).toNat % 8 = 0 then (s.latchOp2 b).setPc (s.op2 b) else s.trap tMisalignedPc) := exec_of_true hc rfl

theorem goTo_setGrp (s : State) (g : Group) (off : Word) : (s.setGrp g).goTo off =
    s.setGrp { g with pc := g.pc + off * 8, far := ((g.pc.toNat : Int) + 8 * off.toInt) / 2 ^ 32 } := by
  rw [State.goTo, State.target, State.farOf, State.grp_setGrp, State.setGrp_setGrp]

/-- `sloop` counts its register down and branches back until the count is zero. -/
theorem exec_sloop_true (hc : s.grp.holds c = true) (k : SCode) (off : Word) : exec (.sloop c k off) s =
    .next (s.setGrp { s.grp with
      s := mset s.grp.s k.toNat (s.grp.sreg k.toNat - 1)
      pc := if s.grp.sreg k.toNat = 1 then s.grp.pc + 8 else s.grp.pc + off * 8
      far := if s.grp.sreg k.toNat = 1 then 0 else s.farOf off }) := by
  rw [exec_of_true hc (i := .sloop c k off) rfl, State.setS, goTo_setGrp, State.advance_setGrp]
  by_cases hk : s.grp.sreg k.toNat = 1
  · simp only [hk]
    rfl
  · have hne : s.grp.sreg k.toNat - 1 ≠ 0 := by bv_omega
    rw [if_pos (bne_iff_ne.mpr hne), if_neg hk, if_neg hk]
    rfl

theorem SameBut.goTo {t : State} (h : SameBut s t) (off : Word) : t.goTo off = s.setCore { s.core with
    rf := t.core.rf
    groups := mset s.core.groups s.cur.g { s.grp with hregs := t.grp.hregs, pc := s.grp.pc + off * 8, far := s.farOf off } } := by
  rw [State.goTo, h.setGrp, State.target, State.farOf, h.pc]
  congr 3
  rw [h.grp]
  rfl

theorem lreg_goTo (s : State) (off : Word) (l k : Nat) : (s.goTo off).lreg l k = s.lreg l k := by
  have hw : (s.goTo off).wg = s.wg := State.wg_setGrp _ _
  simp only [State.lreg, State.physReg, hw]
  simp only [State.goTo, State.grp_setGrp, State.core_setGrp_rf]

/-- `call` writes the link to its register of every member lane and goes to its target. -/
theorem runs_call (hc : s.grp.holds c = true) (hr : RowsApart s) {l : Reg} (hl : l.toNat < s.wg.n) (off : Word) :
    Runs (.call c l off) s (fun t => LaneRegs s t (s.grp.pc + off * 8) (fun i k =>
      if s.grp.member.getLsbD i = true ∧ k = l.toNat then s.grp.pc + 8 else s.lreg i k) (s.farOf off)) := by
  obtain ⟨hsame, hreg, hrest⟩ := writeLanes_law hr (SameBut.refl s) s.grp.member l.toNat hl (fun _ => s.grp.pc + 8)
  refine ⟨_, exec_of_true hc rfl, fun i k hi hk => ?_, fun p hp => ?_, _, _, hsame.goTo off⟩
  · rw [lreg_goTo, hreg i k hi hk]
  · rw [State.goTo, State.core_setGrp_rf, hrest p hp]

/-- Settles O5: a test that holds goes to the target, one that fails to the next word. -/
theorem branchesGoToTheirTargets : Obligations.BranchesGoToTheirTargets := by
  intro s c off m hc
  refine ⟨runs_branch hc rfl, ?brmz, ?brmnz, ?brmf, fun b hb => ⟨_, ?bra, rfl⟩, fun b hb => ?misaligned,
    fun k _ => ⟨_, exec_sloop_true hc k off, ?count, fun i hi => ?others, _, rfl⟩, fun l hr hl => runs_call hc hr hl off⟩
  case brmz | brmf => exact runs_branch hc rfl
  case brmnz =>
    rw [decide_not]
    exact runs_branch hc rfl
  case bra =>
    rw [exec_bra_true hc, if_pos hb]
    rfl
  case misaligned => rw [exec_bra_true hc, if_neg hb]
  case count =>
    rw [State.grp_setGrp]
    exact mget_mset_self _ _ _ _
  case others =>
    rw [State.grp_setGrp]
    exact mget_mset_ne _ _ _ hi

/-! ### The paired word (R43, R44) -/

theorem PHalf.dst_lt_of_ok {p : PHalf} {odd : Bool} {n : Nat} (h : p.ok odd n = true) : 2 * p.d.toNat + b2n odd < n := by
  simp only [PHalf.ok, Bool.and_eq_true, decide_eq_true_eq] at h
  obtain ⟨⟨hd, _⟩, _⟩ := h
  exact hd

/-- One half writes its destination in its executing lanes from the sources of the state before the word. -/
theorem halfWrite_law {t : State} (hr : RowsApart s) (h : SameBut s t) {odd : Bool} {p : PHalf} (hp : p.ok odd s.wg.n = true) :
    SameBut s (halfWrite s t odd p)
      ∧ (∀ l k, HasRegs s l → k < s.wg.n → (halfWrite s t odd p).lreg l k =
          if (s.live (p.m.setWidth 4)).getLsbD l = true ∧ k = 2 * p.d.toNat + b2n odd
          then halfOp p (s.lreg l (2 * p.d.toNat + b2n odd)) (s.lreg l (2 * p.b.toNat + b2n odd)) else t.lreg l k)
      ∧ (∀ q, (∀ l k, l < 32 → s.grp.member.getLsbD l = true → k < s.wg.n → s.physReg l k ≠ q) →
          mget 0 (halfWrite s t odd p).core.rf q = mget 0 t.core.rf q) :=
  writeLanes_law hr h _ _ (PHalf.dst_lt_of_ok hp) _

/-- Settles O20: both halves take their sources from the state before the word, and an even register is no odd one. -/
theorem pairedWordWritesBothHalves : Obligations.PairedWordWritesBothHalves := by
  intro s h0 h1 hr v hwf
  obtain ⟨hok0, hok1⟩ := Bool.and_eq_true_iff.mp hwf
  obtain ⟨same0, reg0, rest0⟩ := halfWrite_law hr (SameBut.refl s) hok0
  obtain ⟨same1, reg1, rest1⟩ := halfWrite_law hr same0 hok1
  refine ⟨_, rfl, ?_⟩
  rw [State.advance, same1.pc]
  refine same1.laneRegs _ _ (fun l k hl hk => ?_) (fun p hp => (rest1 p hp).trans (rest0 p hp))
  rw [reg1 l k hl hk, reg0 l k hl hk]
  by_cases heven : (s.live (h0.m.setWidth 4)).getLsbD l = true ∧ k = 2 * h0.d.toNat
  · have hne : k ≠ 2 * h1.d.toNat + b2n true := by
      have hone : b2n true = 1 := rfl
      omega
    rw [if_pos heven, if_neg (fun hodd => hne hodd.2)]
    exact if_pos heven
  · rw [if_neg heven]
    exact congrArg _ (if_neg heven)

/-! ### A step (02_words_and_assembly.md R32, R34, 15_traps_preemption.md R368) -/

theorem step_of_move {m : Move} {ms : List Move} {y : State} (hp : s.pkg.power = true) (hm : s.agenda = m :: ms)
    (h : ({ s with agenda := ms } : State).perform m = .next y) : step s = .next (s.logBlocks y) := by
  rw [step, if_pos (powered_of_power hp), hm]
  simp only [h, State.logged]

section

variable {r : GRef} {v : State} (hc : s.canIssue r = true) (hv : ({ s.issueTime r with cur := r } : State).noteIssue = v)

theorem issue_of_not_canIssue (h : s.canIssue r = false) : s.issue r = .next s := by
  rw [State.issue, h]
  rfl

include hc hv

theorem issue_of_trap {code addr : Nat} (hf : v.fetch = .trap code addr) :
    s.issue r = .next ((v.trap code 0 addr).afterIssue r) := by
  simp only [State.issue, hc, Bool.not_true, Bool.false_eq_true, if_false, hv, hf]

theorem issue_of_hold (hf : v.fetch = .hold) : s.issue r = .next s := by
  simp only [State.issue, hc, Bool.not_true, Bool.false_eq_true, if_false, hv, hf]

theorem issue_of_walk {va : Nat} (hf : v.fetch = .walk va) : s.issue r = .next ((v.askWalk (v.fetchWalk va)).afterIssue r) := by
  simp only [State.issue, hc, Bool.not_true, Bool.false_eq_true, if_false, hv, hf]

theorem issue_of_decoded {w : DWord} {hpa : Nat} {t : Tlb} {x y : State} {i : Instr} (hf : v.fetch = .word w hpa t)
    (hx : v.afterFetch w hpa t = x) (hd : decode x.grp.lvl x.wg.n w = .ok i) (he : exec i x = .next y) :
    s.issue r = .next (y.afterIssue r) := by
  simp only [State.issue, hc, Bool.not_true, Bool.false_eq_true, if_false, hv, hf, hx, hd, he]

theorem issue_of_undecoded {w : DWord} {hpa : Nat} {t : Tlb} {x : State} {e : DecodeTrap} (hf : v.fetch = .word w hpa t)
    (hx : v.afterFetch w hpa t = x) (hd : decode x.grp.lvl x.wg.n w = .error e) :
    s.issue r = .next ((x.trap (decodeCode e)).afterIssue r) := by
  simp only [State.issue, hc, Bool.not_true, Bool.false_eq_true, if_false, hv, hf, hx, hd]

end

theorem eventMove_of_event {i : Instr} (h : encode i = none) : s.eventMove i = exec i s := by
  rw [State.eventMove, h]
  rfl

/-- What holds of the default and of every entry holds of every number's value. -/
theorem mget_of_forall {α : Type} {P : α → Prop} {d : α} {m : NMap α} (hd : P d) (h : ∀ e ∈ m, P e.2) (k : Nat) :
    P (mget d m k) := by
  induction m with
  | nil => exact hd
  | cons e m ih =>
    obtain ⟨hhead, htail⟩ := List.forall_mem_cons.mp h
    rw [mget, mfind]
    split
    · exact hhead
    · exact ih htail

/-- Where no function is checkpointed, a step enters nothing in an undo log (R368). -/
theorem logBlocks_of_unchecked {y : State} (h : ∀ e ∈ y.fns, e.2.ck.en = false) : s.logBlocks y = y := by
  have hen (f : Nat) : (y.fnAt f).ck.en = false := mget_of_forall (P := fun x : Fn => x.ck.en = false) rfl h f
  have hnone : y.fns.filter (fun (e : Nat × Fn) => s.keepsInterval y e.1) = [] :=
    List.filter_eq_nil_iff.mpr fun e _ => by simp [State.keepsInterval, hen]
  rw [State.logBlocks, hnone, List.foldl_nil, ite_self]

/-- Settles O59: the move that the agenda names is the issue of a group, which does what its fetch and its decoding give, or an
event. -/
theorem aStepRunsTheDecodedInstruction : Obligations.AStepRunsTheDecodedInstruction := by
  refine ⟨fun s h c g ms hp hm => ⟨fun hno => ?_, fun hcan => ⟨fun code addr hf => ?_, fun hf => ?_, fun va hf => ?_,
    fun w hpa t hf => ⟨fun i hd y he => ?_, fun e hd => ?_⟩⟩⟩,
    fun s i ms hp hm hi y he => step_of_move hp hm ((eventMove_of_event hi).trans he), fun s y => logBlocks_of_unchecked⟩
    <;> apply step_of_move hp hm
  · exact issue_of_not_canIssue hno
  · exact issue_of_trap hcan rfl hf
  · exact issue_of_hold hcan rfl hf
  · exact issue_of_walk hcan rfl hf
  · exact issue_of_decoded hcan rfl hf rfl hd he
  · exact issue_of_undecoded hcan rfl hf rfl hd

end Sys2Proof.Machine
end

section
/-! SUPPORT. Bits of a mask given lane by lane, and what a write of the executing lanes' bits of a mask register leaves. -/

namespace Sys2Proof.Machine

open Sys2Proof.Safety

/-! ### Masks bit by bit -/

theorem testBit_foldl_or_two_pow (ls : List Nat) (j : Nat) :
    ∀ a : Nat, (ls.foldl (fun x i => x ||| 2 ^ i) a).testBit j = (a.testBit j || decide (j ∈ ls)) := by
  induction ls with
  | nil => intro a; simp
  | cons i ls ih =>
    intro a
    have hcomm : decide (i = j) = decide (j = i) := decide_eq_decide.mpr eq_comm
    rw [List.foldl_cons, ih, Nat.testBit_or, Nat.testBit_two_pow, Bool.or_assoc, hcomm]
    simp only [List.mem_cons, Bool.decide_or]

theorem getLsbD_maskBy (f : Nat → Bool) {l : Nat} (hl : l < 32) : (maskBy f).getLsbD l = f l := by
  rw [maskBy, maskOf, BitVec.getLsbD_ofNat, testBit_foldl_or_two_pow]
  simp [hl]

theorem getLsbD_bitsMerged (old live : Word) (f : Nat → Bool) {l : Nat} (hl : l < 32) :
    ((old &&& ~~~live) ||| (maskBy f &&& live)).getLsbD l = if live.getLsbD l then f l else old.getLsbD l := by
  simp only [BitVec.getLsbD_or, BitVec.getLsbD_and, BitVec.getLsbD_not, getLsbD_maskBy f hl, hl, decide_true, Bool.true_and]
  cases live.getLsbD l <;> simp

/-! ### Mask registers after the bits of some lanes were written (04_integer.md R89, 03_scalar_control.md R70) -/

theorem State.mreg_setM (s : State) (i j : Nat) (v : Word) :
    (s.setM i v).grp.mreg j = if j = i then (if i = 0 then v &&& s.grp.member else v) else s.grp.mreg j := by
  rw [State.setM, State.grp_setGrp, Group.mreg_mset]

theorem State.mreg_setMBits_ne (s : State) {i j : Nat} (live bits : Word) (h : j ≠ i) :
    (s.setMBits i live bits).grp.mreg j = s.grp.mreg j := by
  rw [State.setMBits, State.mreg_setM, if_neg h]

theorem State.getLsbD_mreg_setMBits (s : State) (d : MReg) (live : Word) (f : Nat → Bool) {l : Nat} (hl : l < 32) :
    ((s.setMBits d.toNat live (maskBy f)).grp.mreg d.toNat).getLsbD l =
      ((if live.getLsbD l then f l else (s.grp.mreg d.toNat).getLsbD l) && (d != 0 || s.grp.member.getLsbD l)) := by
  rw [State.setMBits, State.mreg_setM, if_pos rfl]
  by_cases hd : d = 0
  · subst hd
    rw [if_pos (by decide), BitVec.getLsbD_and, getLsbD_bitsMerged _ _ _ hl, bne_self_eq_false, Bool.false_or]
  · have hd' : d.toNat ≠ 0 := fun h => hd (BitVec.eq_of_toNat_eq h)
    rw [if_neg hd', getLsbD_bitsMerged _ _ _ hl, bne_iff_ne.mpr hd, Bool.true_or, Bool.and_true]

theorem State.mreg_advance (s : State) (i : Nat) : s.advance.grp.mreg i = s.grp.mreg i := by
  rw [State.advance, State.setPc, State.grp_setGrp]
  rfl

theorem State.setMBits_advance (s : State) (i : Nat) (live bits : Word) : ∃ r,
    (s.setMBits i live bits).advance = s.setGrp { s.grp with m := r, pc := s.grp.pc + 8, far := 0 } :=
  ⟨_, State.advance_setGrp _ _⟩

/-- A lane instruction that writes a mask: what it wrote, and that nothing else changed. -/
theorem lanesMask_wrote (s : State) (m d : MReg) (f : Nat → Bool) : MaskBitsWrote s m d f (s.lanesMask m d f) := by
  refine ⟨fun l hl => ?_, fun i hi => ?_, State.setMBits_advance _ _ _ _⟩
  · rw [State.lanesMask, State.mreg_advance, State.getLsbD_mreg_setMBits _ _ _ _ hl]
  · rw [State.lanesMask, State.mreg_advance, State.mreg_setMBits_ne _ _ _ hi]

end Sys2Proof.Machine
end

section
/-! SUPPORT. Group writes that keep the lanes' registers, and instructions whose effect is one write of the lanes. -/

namespace Sys2Proof.Machine

open Sys2Proof.Safety

variable {s u : State} {i : Instr} {m : MReg} {d : Reg} {ty : Ty}

/-! ### What the registers of the lanes depend on -/

/-- The group's lanes have the registers they had. -/
structure KeepsLanes (g g' : Group) : Prop where
  wgs : g'.wgs = g.wgs
  member : g'.member = g.member
  helpers : g'.helpers = g.helpers
  roster : g'.roster = g.roster
  hregs : g'.hregs = g.hregs

theorem wg_setGrp_of_keeps {g : Group} (h : KeepsLanes s.grp g) : (s.setGrp g).wg = s.wg := by
  rw [State.wg_setGrp, h.wgs]
  rfl

theorem physReg_setGrp_of_keeps {g : Group} (h : KeepsLanes s.grp g) (l j : Nat) :
    (s.setGrp g).physReg l j = s.physReg l j := by
  simp only [State.physReg, wg_setGrp_of_keeps h, State.grp_setGrp, h.roster]

theorem lreg_setGrp_of_keeps {g : Group} (h : KeepsLanes s.grp g) (l j : Nat) : (s.setGrp g).lreg l j = s.lreg l j := by
  simp only [State.lreg, physReg_setGrp_of_keeps h, State.grp_setGrp, State.core_setGrp_rf, h.member, h.helpers, h.hregs]

theorem keepsLanes_masks (g : Group) (ms : NMap Word) (pc : Word) : KeepsLanes g { g with m := ms, pc := pc, far := 0 } :=
  ⟨rfl, rfl, rfl, rfl, rfl⟩

theorem lreg_setMBits_advance (s : State) (i : Nat) (live bits : Word) (l j : Nat) :
    (s.setMBits i live bits).advance.lreg l j = s.lreg l j := by
  obtain ⟨ms, hms⟩ := State.setMBits_advance s i live bits
  rw [hms, lreg_setGrp_of_keeps (keepsLanes_masks s.grp ms _)]

theorem rf_setMBits_advance (s : State) (i : Nat) (live bits : Word) :
    (s.setMBits i live bits).advance.core.rf = s.core.rf := by
  obtain ⟨ms, hms⟩ := State.setMBits_advance s i live bits
  rw [hms, State.core_setGrp_rf]

theorem rowsApart_setGrp_of_keeps {g : Group} (h : KeepsLanes s.grp g) (hr : RowsApart s) : RowsApart (s.setGrp g) := by
  simpa only [RowsApart, wg_setGrp_of_keeps h, physReg_setGrp_of_keeps h, State.grp_setGrp, h.member] using hr

theorem wg_latchRead (s : State) (c : SCode) : (s.latchRead c).wg = s.wg := by
  rw [State.latchRead]
  split
  · exact wg_setGrp_of_keeps ⟨rfl, rfl, rfl, rfl, rfl⟩
  · rfl

theorem rowsApart_latchRead (hr : RowsApart s) (c : SCode) : RowsApart (s.latchRead c) := by
  rw [State.latchRead]
  split
  · exact rowsApart_setGrp_of_keeps ⟨rfl, rfl, rfl, rfl, rfl⟩ hr
  · exact hr

/-! ### Instructions whose effect is one write of the lanes -/

theorem runs_lanes32 {f g : Nat → Word} (hr : RowsApart u) (hd : regOk u.wg.n d = true)
    (hi : exec i s = .next (u.lanes32 m d g)) (hg : ∀ l, g l = f l) : Runs i s (Wrote32 u m d f) :=
  ⟨_, hi, funext hg ▸ lanes32_wrote hr m d (of_decide_eq_true hd) g⟩

theorem runs_lanes {f g : Nat → DWord} (hr : RowsApart s) (hd : tyRegOk s.wg.n ty d = true)
    (hi : exec i s = .next (s.lanes m ty d g)) (hg : ∀ l, g l = f l) : Runs i s (WroteTy s m ty d f) :=
  ⟨_, hi, funext hg ▸ lanes_wrote hr m ty d hd g⟩

/-- A typed result of a 32-bit type, said of the one register. -/
theorem runs_lanes_of_32 {f : Nat → Word} {g : Nat → DWord} (hr : RowsApart s) (h32 : ty.is64 = false)
    (hd : tyRegOk s.wg.n ty d = true) (hi : exec i s = .next (s.lanes m ty d g)) (hg : ∀ l, lo32 (g l) = f l) :
    Runs i s (Wrote32 s m d f) := by
  have h := lanes_wrote hr m ty d hd g
  rw [WroteTy, h32, if_neg Bool.false_ne_true, funext hg] at h
  exact ⟨_, hi, h⟩

/-- A typed result of a 64-bit type, said of the pair. -/
theorem runs_lanes_of_64 {f g : Nat → DWord} (hr : RowsApart s) (h64 : ty.is64 = true) (hd : tyRegOk s.wg.n ty d = true)
    (hi : exec i s = .next (s.lanes m ty d g)) (hg : ∀ l, g l = f l) : Runs i s (Wrote64 s m d f) := by
  have h := lanes_wrote hr m ty d hd g
  rw [WroteTy, if_pos h64] at h
  exact ⟨_, hi, funext hg ▸ h⟩

theorem runs_lanesMask {d : MReg} {f g : Nat → Bool} (hi : exec i s = .next (s.lanesMask m d g)) (hg : ∀ l, g l = f l) :
    Runs i s (MaskBitsWrote s m d f) :=
  ⟨_, hi, funext hg ▸ lanesMask_wrote s m d g⟩

end Sys2Proof.Machine
end

section
/-! SUPPORT. The values that the integer lane instructions compute, as numbers. -/

namespace Sys2Proof.Machine

/-! ### Words and halves -/

theorem lo32_setWidth (x : Word) : lo32 (x.setWidth 64) = x := by
  apply BitVec.eq_of_toNat_eq
  rw [lo32, BitVec.extractLsb'_toNat, BitVec.toNat_setWidth_of_le (by omega), Nat.shiftRight_zero, Nat.mod_eq_of_lt x.isLt]

theorem lval_b32 (s : State) (l j : Nat) : s.lval .b32 l j = (s.lreg l j).setWidth 64 := rfl

theorem lval_toNat_lt (s : State) {ty : Ty} (hty : ty.bits = true) (l j : Nat) :
    (s.lval ty l j).toNat < 2 ^ tyWidth ty := by
  cases ty <;> cases hty
  case b32 =>
    rw [lval_b32, BitVec.toNat_setWidth_of_le (by omega)]
    exact (s.lreg l j).isLt
  case b64 => exact (s.lval .b64 l j).isLt

/-! ### Ranges -/

theorem clampI_eq_max_min {lo hi : Int} (h : lo ≤ hi) (x : Int) : clampI lo hi x = max lo (min hi x) := by
  unfold clampI
  split
  · omega
  · split <;> omega

theorem intMin_le_intMax (sg : Bool) (w : Nat) : intMin sg w ≤ intMax sg w := by
  have h := Nat.two_pow_pos (w - 1)
  have h' := Nat.two_pow_pos w
  cases sg
  · simp only [intMin, intMax, Bool.false_eq_true, if_false]
    omega
  · simp only [intMin, intMax, if_true]
    omega

theorem clampI_type (ty : Ty) (w : Nat) (x : Int) :
    clampI (intMin (tySigned ty) w) (intMax (tySigned ty) w) x
      = max (intMin (tySigned ty) w) (min (intMax (tySigned ty) w) x) :=
  clampI_eq_max_min (intMin_le_intMax _ _) x

theorem asInt_signed (x : Word) : asInt true 32 x.toNat = x.toInt := by
  rw [asInt, if_pos rfl, Nat.mod_eq_of_lt x.isLt, sextNat, BitVec.toInt_eq_toNat_cond]
  split <;> split <;> omega

theorem asInt_unsigned (x : Word) : asInt false 32 x.toNat = x.toNat := by
  rw [asInt, if_neg Bool.false_ne_true, Nat.mod_eq_of_lt x.isLt]

/-! ### Packed forms of a whole register (04_integer.md R103) -/

theorem packedMap_word {ty : Ty} (hw : elemWidth ty = 32) (f : Int → Int → Int) (x y : Word) :
    packedMap ty f x y = BitVec.ofInt 32 (f (asInt (tySigned ty) 32 x.toNat) (asInt (tySigned ty) 32 y.toNat)) := by
  unfold packedMap
  generalize elemWidth ty = w at hw
  subst hw
  simp [List.range_succ, -BitVec.toNat_ofInt]

theorem packedSat_s32 (f : Int → Int → Int) (x y : Word) :
    packedSat .s32 f x y = BitVec.ofInt 32 (max (-2 ^ 31) (min (2 ^ 31 - 1) (f x.toInt y.toInt))) := by
  rw [packedSat, packedMap_word rfl, ← asInt_signed x, ← asInt_signed y]
  exact congrArg _ (clampI_eq_max_min (by decide) _)

theorem packedSat_n32 (f : Int → Int → Int) (x y : Word) :
    packedSat .n32 f x y = BitVec.ofInt 32 (max 0 (min (2 ^ 32 - 1) (f x.toNat y.toNat))) := by
  rw [packedSat, packedMap_word rfl, ← asInt_unsigned x, ← asInt_unsigned y]
  exact congrArg _ (clampI_eq_max_min (by decide) _)

theorem packedSat_n32_add (x y : Word) :
    packedSat .n32 (· + ·) x y = BitVec.ofNat 32 (min (2 ^ 32 - 1) (x.toNat + y.toNat)) := by
  rw [packedSat_n32, ← BitVec.ofInt_natCast]
  congr 1
  omega

theorem packedSat_n32_sub (x y : Word) : packedSat .n32 (· - ·) x y = BitVec.ofNat 32 (x.toNat - y.toNat) := by
  have hx := x.isLt
  rw [packedSat_n32, ← BitVec.ofInt_natCast]
  congr 1
  omega

/-! ### Absolute values (R93) -/

theorem absValue_eq (ty : Ty) (x : DWord) :
    (if 0 ≤ tyInt ty x then x else -x) = if tyInt ty x < 0 then -x else x := by
  simp only [← Int.not_lt, ite_not]

/-! ### Products (R92, R94) -/

theorem wideProduct_s32 (x y : Word) : wideProduct .s32 x y = BitVec.ofInt 64 (x.toInt * y.toInt) :=
  (BitVec.ofInt_mul ..).symm

theorem wideProduct_n32 (x y : Word) : wideProduct .n32 x y = BitVec.ofNat 64 (x.toNat * y.toNat) := by
  rw [BitVec.ofNat_mul, BitVec.ofNat_toNat, BitVec.ofNat_toNat]
  rfl

/-! ### Shifts (R97, R105) -/

theorem shiftLeft_eq_ofNat {w : Nat} (x : BitVec w) (n : Nat) : x <<< n = BitVec.ofNat w (x.toNat * 2 ^ n) := by
  rw [← Nat.shiftLeft_eq]
  rfl

theorem ushiftRight_eq_ofNat {w : Nat} (x : BitVec w) (n : Nat) : x >>> n = BitVec.ofNat w (x.toNat / 2 ^ n) := by
  rw [← Nat.shiftRight_eq_div_pow]
  exact BitVec.eq_of_toNat_eq (by simp [Nat.mod_eq_of_lt (Nat.lt_of_le_of_lt (Nat.shiftRight_le _ _) x.isLt)])

theorem shiftLeft_or_zero_eq_ofNat (w : Nat) (x : DWord) (n : Nat) :
    (if w ≤ n then 0 else x <<< n) = if w ≤ n then 0 else BitVec.ofNat 64 (x.toNat * 2 ^ n) := by
  rw [shiftLeft_eq_ofNat]

theorem ushiftRight_of_width_le {x : DWord} {w n : Nat} (hx : x.toNat < 2 ^ w) (hn : w ≤ n) : x >>> n = 0 := by
  rw [ushiftRight_eq_ofNat, Nat.div_eq_of_lt (Nat.lt_of_lt_of_le hx (Nat.pow_le_pow_right (by omega) hn))]
  rfl

theorem ushiftRight_eq_zero_or_ofNat {x : DWord} {w : Nat} (hx : x.toNat < 2 ^ w) (n : Nat) :
    x >>> n = if w ≤ n then 0 else BitVec.ofNat 64 (x.toNat / 2 ^ n) := by
  split
  · exact ushiftRight_of_width_le hx ‹_›
  · exact ushiftRight_eq_ofNat x n

theorem sshiftRight_eq_ofInt {w : Nat} (x : BitVec w) (n : Nat) : x.sshiftRight n = BitVec.ofInt w (x.toInt / 2 ^ n) := by
  rw [BitVec.sshiftRight, Int.shiftRight_eq_div_pow]
  rfl

theorem sshiftRight_of_width_le (x : Word) {n : Nat} (hn : 32 ≤ n) :
    x.sshiftRight n = if x.getLsbD 31 then BitVec.allOnes 32 else 0 := by
  ext i hi
  rw [BitVec.getElem_sshiftRight, dif_neg (by omega), BitVec.msb_eq_getLsbD_last]
  cases x.getLsbD 31
  · exact (BitVec.getElem_zero hi).symm
  · exact (BitVec.getElem_allOnes i hi).symm

theorem lo32_tySar_b32 (x : Word) (n : Nat) : lo32 (tySar .b32 (x.setWidth 64) n) =
    if 32 ≤ n then (if x.getLsbD 31 then BitVec.allOnes 32 else 0) else BitVec.ofInt 32 (x.toInt / 2 ^ n) := by
  have h : lo32 (tySar .b32 (x.setWidth 64) n) = x.sshiftRight n := by
    rw [tySar, if_neg (by decide), lo32_setWidth, lo32_setWidth]
  rw [h]
  split
  · exact sshiftRight_of_width_le x ‹_›
  · exact sshiftRight_eq_ofInt x n

theorem lo32_tyRot_b32 (x : Word) (n : Nat) : lo32 (tyRot .b32 (x.setWidth 64) n) = x.rotateLeft (n % 32) := by
  rw [tyRot, if_neg (by decide), lo32_setWidth, lo32_setWidth]

theorem toNat_count (n : BitVec 5) : (n.setWidth 32).toNat = n.toNat := BitVec.toNat_setWidth_of_le (by omega)

theorem shiftL_count (x : Word) (n : BitVec 5) : shiftL x (n.setWidth 32) = BitVec.ofNat 32 (x.toNat * 2 ^ n.toNat) := by
  rw [shiftL, toNat_count, if_neg (Nat.not_le.mpr n.isLt), shiftLeft_eq_ofNat]

theorem shiftR_count (x : Word) (n : BitVec 5) : shiftR x (n.setWidth 32) = BitVec.ofNat 32 (x.toNat / 2 ^ n.toNat) := by
  rw [shiftR, toNat_count, ushiftRight_eq_ofNat]

theorem shiftA_count (x : Word) (n : BitVec 5) : shiftA x (n.setWidth 32) = BitVec.ofInt 32 (x.toInt / 2 ^ n.toNat) := by
  rw [shiftA, toNat_count, sshiftRight_eq_ofInt]

/-! ### Bit fields (R98) -/

theorem fieldOf_unsigned (x : Word) (pos wd : Nat) : fieldOf false x pos wd = BitVec.ofNat 32 (x.toNat / 2 ^ pos % 2 ^ wd) := by
  rw [fieldOf]
  split
  · next h =>
    rw [h, Nat.pow_zero, Nat.mod_one]
    rfl
  · exact BitVec.ofInt_natCast ..

theorem fieldOf_signed (x : Word) (pos : Nat) {wd : Nat} (h : wd ≠ 0) :
    fieldOf true x pos wd = BitVec.ofInt 32 (sextNat (x.toNat / 2 ^ pos % 2 ^ wd) wd) := if_neg h

/-! ### Counts (R99) -/

theorem popNat_of_lt {x w n : Nat} (hx : x < 2 ^ w) (hn : w ≤ n) : popNat x n = popNat x w := by
  induction hn with
  | refl => rfl
  | @step n hn ih =>
    have hbit : x.testBit n = false := Nat.testBit_lt_two_pow (Nat.lt_of_lt_of_le hx (Nat.pow_le_pow_right (by omega) hn))
    rw [← ih, popNat, popNat, List.range_succ, List.filter_append]
    simp [hbit]

theorem length_takeWhile_range {p : Nat → Bool} {k w : Nat} (hk : k ≤ w) (hall : ∀ i < k, p i = true)
    (hnext : k < w → p k = false) : ((List.range w).takeWhile p).length = k := by
  obtain ⟨r, rfl⟩ := Nat.exists_eq_add_of_le hk
  rw [List.range_add, List.takeWhile_append_of_pos (fun i hi => hall i (List.mem_range.mp hi)), List.length_append,
    List.length_range]
  cases r with
  | zero => rfl
  | succ r =>
    rw [List.range_succ_eq_map, List.map_cons, List.takeWhile_cons, Nat.add_zero, hnext (by omega)]
    rfl

/-- The leading zeros end at the highest set bit. -/
theorem clzNat_eq_length_takeWhile {x w : Nat} (hx : x < 2 ^ w) :
    clzNat w x = ((List.range w).takeWhile (fun i => !x.testBit (w - 1 - i))).length := by
  rw [clzNat]
  split
  · next h0 =>
    subst h0
    exact (length_takeWhile_range (Nat.le_refl w) (fun i _ => by simp) (fun h => absurd h (Nat.lt_irrefl w))).symm
  · next h0 =>
    have htop : x.log2 < w := (Nat.log2_lt h0).mpr hx
    refine (length_takeWhile_range (by omega) (fun i hi => ?_) (fun _ => ?_)).symm
    · have hlow : x < 2 ^ (w - 1 - i) := (Nat.log2_lt h0).mp (by omega)
      rw [Nat.testBit_lt_two_pow hlow, Bool.not_false]
    · rw [show w - 1 - (w - 1 - x.log2) = x.log2 by omega, Nat.testBit_log2 h0, Bool.not_true]

/-! ### Conversion (R102) -/

theorem tyWidth_le (ty : Ty) : tyWidth ty ≤ 64 := by cases ty <;> decide

theorem convertI_eq (ty : Ty) (sat : Bool) (v : Int) : convertI ty sat v =
    if sat then max (intMin (tySigned ty) (tyWidth ty)) (min (intMax (tySigned ty) (tyWidth ty)) v)
    else tyInt ty (BitVec.ofInt 64 v) := by
  cases sat
  · have hmod : (v % (2 ^ tyWidth ty : Nat)).toNat % 2 ^ tyWidth ty = (BitVec.ofInt 64 v).toNat % 2 ^ tyWidth ty := by
      have hdvd : ((2 ^ tyWidth ty : Nat) : Int) ∣ ((2 ^ 64 : Nat) : Int) :=
        Int.natCast_dvd_natCast.mpr (Nat.pow_dvd_pow 2 (tyWidth_le ty))
      have hpos : (0 : Int) < ((2 ^ tyWidth ty : Nat) : Int) := Int.natCast_pos.mpr (Nat.two_pow_pos _)
      apply Int.ofNat_inj.mp
      rw [Int.natCast_emod, Int.natCast_emod, BitVec.toNat_ofInt, Int.toNat_of_nonneg (Int.emod_nonneg _ (Int.ne_of_gt hpos)),
        Int.toNat_of_nonneg (Int.emod_nonneg _ (by decide)), Int.emod_emod_of_dvd _ hdvd, Int.emod_emod_of_dvd _ (Int.dvd_refl _)]
    simp only [convertI, tyInt, asInt, Bool.false_eq_true, if_false, hmod]
  · exact clampI_type ty _ v

end Sys2Proof.Machine
end

section
/-! PROOF. The integer lane instructions and their carry forms write the stated results, and comparisons the bits of a mask. -/

namespace Sys2Proof.Machine

open Sys2Proof.Safety

/-! ### The destination's legality in an instruction's check (04_integer.md R86, R87)

A check lists the types it admits, where it does, then the destination, then the sources. -/

theorem and2_left {p q : Bool} (h : (p && q) = true) : p = true := (Bool.and_eq_true_iff.mp h).left

theorem and2_right {p q : Bool} (h : (p && q) = true) : q = true := (Bool.and_eq_true_iff.mp h).right

theorem and3_left {p q r : Bool} (h : (p && q && r) = true) : p = true := and2_left (and2_left h)

theorem and3_mid {p q r : Bool} (h : (p && q && r) = true) : q = true := and2_right (and2_left h)

theorem and4_left {p q r t : Bool} (h : (p && q && r && t) = true) : p = true := and3_left (and2_left h)

theorem and4_snd {p q r t : Bool} (h : (p && q && r && t) = true) : q = true := and3_mid (and2_left h)

theorem and4_third {p q r t : Bool} (h : (p && q && r && t) = true) : r = true := and2_right (and2_left h)

theorem and5_snd {p q r t u : Bool} (h : (p && q && r && t && u) = true) : q = true := and4_snd (and2_left h)

/-! ### Integer results (R90 to R99, R101) -/

/-- Settles O9: each instruction is one write of the executing lanes, and its operation is the stated arithmetic. -/
theorem integerResults : Obligations.IntegerResults := by
  intro s m d a b e cm ty hr x y X Y Z w
  refine ⟨?mov, ?movi, ?movScalar, ?tidx, ?add, ?sub, ?mul, ?mulhiS, ?mulhiN, ?mad, ?madwS, ?madwN, ?neg, ?abs, ?min, ?max,
    ?and, ?or, ?xor, ?andn, ?not, ?shl, ?shr, ?sarWord, ?sarPair, ?rotWord, ?rotPair, ?popc, ?brev, ?sel⟩
  case movi => exact fun imm hwf => runs_lanes32 hr hwf rfl fun _ => rfl
  case tidx => exact fun hwf => runs_lanes32 hr hwf rfl fun _ => rfl
  case movScalar =>
    intro src hwf
    have hd : regOk (s.latchRead src).wg.n d = true := by
      rw [wg_latchRead]
      exact and2_left hwf
    exact runs_lanes32 (rowsApart_latchRead hr src) hd rfl fun _ => rfl
  case mov | neg | not | brev => exact fun hwf => runs_lanes hr (and3_mid hwf) rfl fun _ => rfl
  case add | sub | min | max | and | or | xor | andn | sel =>
    exact fun hwf => runs_lanes hr (and4_snd hwf) rfl fun _ => rfl
  case mul | mulhiS | mulhiN => exact fun hwf => runs_lanes32 hr (and4_snd hwf) rfl fun _ => rfl
  case mad => exact fun hwf => runs_lanes32 hr (and5_snd hwf) rfl fun _ => rfl
  case madwS =>
    exact fun hwf => runs_lanes_of_64 (ty := .n64) hr rfl (and5_snd hwf) rfl fun _ => congrArg (· + _) (wideProduct_s32 _ _)
  case madwN =>
    exact fun hwf => runs_lanes_of_64 (ty := .n64) hr rfl (and5_snd hwf) rfl fun _ => congrArg (· + _) (wideProduct_n32 _ _)
  case abs => exact fun hwf => runs_lanes hr (and3_mid hwf) rfl fun l => absValue_eq ty (x l)
  case shl => exact fun hwf => runs_lanes hr (and4_snd hwf) rfl fun l => shiftLeft_or_zero_eq_ofNat w (x l) _
  case shr =>
    exact fun hwf => runs_lanes hr (and4_snd hwf) rfl fun l =>
      ushiftRight_eq_zero_or_ofNat (lval_toNat_lt s (and4_left hwf) l _) _
  case sarWord => exact fun hwf => runs_lanes_of_32 hr rfl (and4_snd hwf) rfl fun l => lo32_tySar_b32 (X l) _
  case rotWord => exact fun hwf => runs_lanes_of_32 hr rfl (and4_snd hwf) rfl fun l => lo32_tyRot_b32 (X l) _
  case sarPair | rotPair => exact fun hwf => runs_lanes_of_64 hr rfl (and4_snd hwf) rfl fun _ => rfl
  case popc =>
    exact fun hwf => runs_lanes32 hr (and3_mid hwf) rfl fun l =>
      congrArg _ (popNat_of_lt (lval_toNat_lt s (and3_left hwf) l _) (tyWidth_le ty))

/-! ### Bit fields, conversion, saturating and dot-product forms (R98, R99, R102 to R104) -/

/-- Settles O10: fields, counts, conversions and clamped sums, each the model's operation as a number. -/
theorem fieldConversionAndPackedResults : Obligations.FieldConversionAndPackedResults := by
  intro s m d a b e ty ft sat hr X Y pos wd
  refine ⟨?bfxN, ?bfxS, ?bfi, ?clz, ?cvti, ?addsS, ?addsN, ?subsS, ?subsN, ?adds, ?subs, ?dot4, ?dot8⟩
  case bfxN => exact fun hwf => runs_lanes32 hr (and4_snd hwf) rfl fun l => fieldOf_unsigned (X l) (pos l) (wd l)
  case bfxS | adds | subs => exact fun hwf => runs_lanes32 hr (and4_snd hwf) rfl fun _ => rfl
  case bfi => exact fun hwf => runs_lanes32 hr (and4_left hwf) rfl fun _ => rfl
  case clz =>
    exact fun hwf => runs_lanes32 hr (and3_mid hwf) rfl fun l =>
      congrArg _ (clzNat_eq_length_takeWhile (lval_toNat_lt s (and3_left hwf) l _))
  case cvti => exact fun hwf => runs_lanes hr (and4_third hwf) rfl fun l => congrArg _ (convertI_eq ty sat _)
  case addsS | subsS => exact fun hwf => runs_lanes32 hr (and4_snd hwf) rfl fun l => packedSat_s32 _ (X l) (Y l)
  case addsN => exact fun hwf => runs_lanes32 hr (and4_snd hwf) rfl fun l => packedSat_n32_add (X l) (Y l)
  case subsN => exact fun hwf => runs_lanes32 hr (and4_snd hwf) rfl fun l => packedSat_n32_sub (X l) (Y l)
  case dot4 | dot8 => exact fun hwf => runs_lanes32 hr (and5_snd hwf) rfl fun _ => congrArg _ (clampI_type ty 32 _)

/-! ### Immediate forms (R105, Table 4.2) -/

/-- Settles O11: the operation of each immediate form, with the immediate in place of the second register. -/
theorem integerImmediateResults : Obligations.IntegerImmediateResults := by
  intro s m d a imm n p wd hr X
  refine ⟨?add, ?addsS, ?addsN, ?mul, ?and, ?or, ?xor, ?andn, ?shl, ?shr, ?sar, ?rot,
    ?minS, ?minN, ?maxS, ?maxN, ?bfxN, ?bfxS⟩
  case add | mul | and | or | xor | andn | rot | minS | minN | maxS | maxN =>
    exact fun hwf => runs_lanes32 hr (and2_left hwf) rfl fun _ => rfl
  case addsS => exact fun hwf => runs_lanes32 hr (and2_left hwf) rfl fun l => packedSat_s32 _ (X l) imm
  case addsN => exact fun hwf => runs_lanes32 hr (and2_left hwf) rfl fun l => packedSat_n32_add (X l) imm
  case shl => exact fun hwf => runs_lanes32 hr (and2_left hwf) rfl fun l => shiftL_count (X l) n
  case shr => exact fun hwf => runs_lanes32 hr (and2_left hwf) rfl fun l => shiftR_count (X l) n
  case sar => exact fun hwf => runs_lanes32 hr (and2_left hwf) rfl fun l => shiftA_count (X l) n
  case bfxN => exact fun hwf => runs_lanes32 hr (and4_left hwf) rfl fun l => fieldOf_unsigned (X l) p.toNat wd.toNat
  case bfxS =>
    intro hwf
    have hwd : 1 ≤ wd.toNat := of_decide_eq_true (and4_third hwf)
    exact runs_lanes32 hr (and4_left hwf) rfl fun l => fieldOf_signed (X l) p.toNat (by omega)

/-! ### Carry forms (R95) -/

/-- What a carry form leaves: `f` in register `d` and `g` in the bits of mask `cm` of each executing lane, the rest as before. -/
def CarryWrote (s : State) (m : MReg) (d : Reg) (cm : MReg) (f : Nat → Word) (g : Nat → Bool) (t : State) : Prop :=
  (∀ l k, HasRegs s l → k < s.wg.n → t.lreg l k =
      if (s.live m).getLsbD l = true ∧ k = d.toNat then f l else s.lreg l k)
    ∧ (∀ p, (∀ l k, l < 32 → s.grp.member.getLsbD l = true → k < s.wg.n → s.physReg l k ≠ p) →
        mget 0 t.core.rf p = mget 0 s.core.rf p)
    ∧ (∀ l, l < 32 → (t.grp.mreg cm.toNat).getLsbD l
        = ((if (s.live m).getLsbD l then g l else (s.grp.mreg cm.toNat).getLsbD l)
            && (cm != 0 || s.grp.member.getLsbD l)))
    ∧ (∀ i, i ≠ cm.toNat → t.grp.mreg i = s.grp.mreg i)
    ∧ ∃ rf hr ms, t = s.setCore { s.core with
        rf := rf, groups := mset s.core.groups s.cur.g { s.grp with hregs := hr, m := ms, pc := s.grp.pc + 8, far := 0 } }

theorem SameBut.mreg {s t : State} (h : SameBut s t) (i : Nat) : t.grp.mreg i = s.grp.mreg i := by
  rw [Group.mreg, Group.mreg, h.m]

/-- After the lanes were written, a mask is written and the group goes on. -/
theorem SameBut.setMBits_advance {s t : State} (h : SameBut s t) (i : Nat) (live bits : Word) :
    ∃ ms, (t.setMBits i live bits).advance = s.setCore { s.core with
      rf := t.core.rf
      groups := mset s.core.groups s.cur.g { s.grp with hregs := t.grp.hregs, m := ms, pc := s.grp.pc + 8, far := 0 } } := by
  obtain ⟨ms, hms⟩ := State.setMBits_advance t i live bits
  refine ⟨ms, ?_⟩
  rw [hms, h.setGrp, h.pc]
  congr 3
  rw [h.grp]

/-- The writes of the lanes' registers come first; the mask written after them is the one that was read. -/
theorem carryOp_wrote {s : State} (hr : RowsApart s) (m : MReg) {d : Reg} (hd : regOk s.wg.n d = true) (cm : MReg)
    (f : Nat → Word × Bool) : CarryWrote s m d cm (fun l => (f l).1) (fun l => (f l).2) (s.carryOp m d cm f) := by
  obtain ⟨hsame, hreg, hrest⟩ :=
    writeLanes_law hr (SameBut.refl s) (s.live m) d.toNat (of_decide_eq_true hd) (fun l => (f l).1)
  rw [State.carryOp]
  generalize (s.writeLanes (s.live m) d.toNat fun l => (f l).1) = t at hsame hreg hrest ⊢
  refine ⟨fun l k hl hk => ?reg, fun p hp => ?rest, fun l hl => ?bits, fun i hi => ?masks, _, _,
    hsame.setMBits_advance _ _ _⟩
  case reg => rw [lreg_setMBits_advance, hreg l k hl hk]
  case rest => rw [rf_setMBits_advance, hrest p hp]
  case bits => rw [State.mreg_advance, State.getLsbD_mreg_setMBits _ _ _ _ hl, hsame.mreg, hsame.member]
  case masks => rw [State.mreg_advance, State.mreg_setMBits_ne _ _ _ hi, hsame.mreg]

theorem runs_carryOp {s : State} {i : Instr} {m : MReg} {d : Reg} {cm : MReg} {c : Nat → Word × Bool} {f : Nat → Word}
    {g : Nat → Bool} (hr : RowsApart s) (hd : regOk s.wg.n d = true) (hi : exec i s = .next (s.carryOp m d cm c))
    (hf : ∀ l, (c l).1 = f l) (hg : ∀ l, (c l).2 = g l) : Runs i s (CarryWrote s m d cm f g) :=
  ⟨_, hi, funext hf ▸ funext hg ▸ carryOp_wrote hr m hd cm c⟩

/-- Settles O12: the sum or difference and its carry or borrow are one write of the executing lanes. -/
theorem carryFormsWriteSumAndCarry : Obligations.CarryFormsWriteSumAndCarry := by
  intro s m d a b cm hr X Y C Both
  have hborrow (l : Nat) : (X l : Int) - Y l - C l < 0 ↔ X l < Y l + C l := by omega
  exact ⟨fun hwf => runs_carryOp hr (and3_left hwf) rfl (fun _ => rfl) fun _ => rfl,
    fun hwf => runs_carryOp hr (and3_left hwf) rfl (fun _ => rfl) fun l => decide_eq_decide.mpr (hborrow l)⟩

/-! ### Comparisons (R100, R105, R118, R128) -/

theorem natCast_toNat_inj {x y : Word} : ((x.toNat : Int) = y.toNat) ↔ x = y := Int.ofNat_inj.trans BitVec.toNat_inj

/-- Settles O13: each comparison is one write of the executing lanes' bits of its mask. -/
theorem comparesWriteMaskBits : Obligations.ComparesWriteMaskBits := by
  intro s m d a b ty imm sg fc x y X M
  refine ⟨?eq, ?ne, ?lt, ?le, ?gt, ?ge, ?eqS, ?neS, ?ltS, ?geS, ?eqN, ?neN, ?ltN, ?geN, ?fcmp, ?feq, ?fne, ?flt, ?fge⟩
  case eq | lt | le | gt | ge | ltS | geS | fcmp | feq | fne | flt | fge => exact fun _ => runs_lanesMask rfl fun _ => rfl
  case ne => exact fun _ => runs_lanesMask rfl fun _ => decide_not.symm
  case eqS => exact fun _ => runs_lanesMask rfl fun _ => decide_eq_decide.mpr BitVec.toInt_inj
  case neS =>
    exact fun _ => runs_lanesMask rfl fun _ => decide_not.symm.trans (decide_eq_decide.mpr (not_congr BitVec.toInt_inj))
  case eqN => exact fun _ => runs_lanesMask rfl fun _ => decide_eq_decide.mpr natCast_toNat_inj
  case neN =>
    exact fun _ => runs_lanesMask rfl fun _ => decide_not.symm.trans (decide_eq_decide.mpr (not_congr natCast_toNat_inj))
  case ltN => exact fun _ => runs_lanesMask rfl fun _ => decide_eq_decide.mpr Int.ofNat_lt
  case geN => exact fun _ => runs_lanesMask rfl fun _ => decide_eq_decide.mpr Int.ofNat_le

end Sys2Proof.Machine
end

section
/-! SUPPORT. Floating-point values in their order, and the rounding of values that a format represents (05_float.md R109, R113,
R118). -/

namespace Sys2Proof.Machine

/-! ### The order of values (R118) -/

theorem ltV_nan_left (y : FVal) : ltV .nan y = false := rfl

theorem ltV_nan_right (x : FVal) : ltV x .nan = false := by cases x <;> rfl

theorem unordered_eq_decide (x y : FVal) : unordered x y = decide (x = .nan ∨ y = .nan) := (Bool.decide_or ..).symm

theorem eqV_of_unordered {x y : FVal} (h : unordered x y = true) : eqV x y = false := by
  rw [eqV, h]
  rfl

theorem eqV_of_ordered {x y : FVal} (h : unordered x y = false) : eqV x y = (!ltV x y && !ltV y x) := by
  rw [eqV, h]
  rfl

theorem ltV_of_unordered {x y : FVal} (h : x = .nan ∨ y = .nan) : ltV x y = false := by
  rcases h with rfl | rfl
  · exact ltV_nan_left y
  · exact ltV_nan_right x

theorem ltV_asymm (x y : FVal) : (ltV x y && ltV y x) = false := by
  cases x with
  | nan => rfl
  | inf p => cases y <;> cases p <;> simp [ltV]
  | fin p m e =>
    cases y with
    | nan => rfl
    | inf q => cases q <;> rfl
    | fin q n f =>
      simp only [ltV, Int.min_comm f e, Bool.and_eq_false_iff, decide_eq_false_iff_not]
      omega

theorem eqV_zeros (p q : Bool) (e f : Int) : eqV (.fin p 0 e) (.fin q 0 f) = true := by
  have hlt (p q : Bool) (e f : Int) : ltV (.fin p 0 e) (.fin q 0 f) = false := by cases p <;> cases q <;> simp [ltV, sgnI]
  rw [eqV_of_ordered rfl, hlt, hlt]
  rfl

theorem fcondHolds_of_unordered {x y : FVal} (h : x = .nan ∨ y = .nan) (c : FCond) :
    fcondHolds c x y = decide (c = .ne ∨ c = .un) := by
  have hun : unordered x y = true := by rw [unordered_eq_decide, decide_eq_true h]
  cases c <;> simp [fcondHolds, hun, eqV_of_unordered hun, ltV_of_unordered h, ltV_of_unordered h.symm]

/-! ### Rounding of a representable magnitude (R109, R113) -/

theorem roundAt_same_unit (mode : Rnd) (rnd : Nat) (neg : Bool) (m : Nat) (e : Int) (st : Bool) :
    roundAt mode rnd neg m e st e = m := by
  rw [roundAt, if_pos (Int.le_refl e), Int.sub_self, Int.toNat_zero, Nat.pow_zero, Nat.mul_one]

/-- A magnitude whose unit is already the format's unit at its size needs no rounding, in any mode. -/
theorem roundMag_of_unit {t : Ty} {m : Nat} {e : Int} (mode : Rnd) (rnd : Nat) (sat neg st : Bool) (hm : m ≠ 0)
    (hunit : max (1 - (fmtOf t).bias) ((Nat.log2 m : Int) + e) - (fmtOf t).mb = e) (hmax : packMag t m e ≤ fmtMax t) :
    roundMag t mode rnd sat neg m e st = signed t neg (packMag t m e) := by
  have hg : (if (Nat.log2 m : Int) + e < 1 - (fmtOf t).bias then 1 - (fmtOf t).bias else (Nat.log2 m : Int) + e)
      - (fmtOf t).mb = e := by split <;> omega
  simp only [roundMag, if_neg hm, hg, roundAt_same_unit, if_neg (Nat.not_lt.mpr hmax)]

theorem log2_of_implicit_bit {k m : Nat} (hm : m < 2 ^ k) : Nat.log2 (2 ^ k + m) = k := by
  have hpos := Nat.two_pow_pos k
  rw [Nat.log2_eq_iff (by omega), Nat.pow_succ]
  omega

/-- The pattern of a subnormal magnitude is its mantissa. -/
theorem packMag_subnormal {t : Ty} {m : Nat} (hm : m < 2 ^ (fmtOf t).mb) :
    packMag t m (1 - (fmtOf t).bias - (fmtOf t).mb) = m := by
  by_cases h0 : m = 0
  · simp [packMag, h0]
  · have hlog : m.log2 < (fmtOf t).mb := (Nat.log2_lt h0).mpr hm
    simp only [packMag, if_neg h0]
    rw [if_pos (by omega), Int.sub_self, Int.toNat_zero, Nat.pow_zero, Nat.mul_one]

/-- The pattern of a normal magnitude is its biased exponent above its mantissa. -/
theorem packMag_normal {t : Ty} {m k : Nat} (hm : m < 2 ^ (fmtOf t).mb) (hk : k ≠ 0) :
    packMag t (2 ^ (fmtOf t).mb + m) (k - (fmtOf t).bias - (fmtOf t).mb) = k * 2 ^ (fmtOf t).mb + m := by
  have hpos := Nat.two_pow_pos (fmtOf t).mb
  simp only [packMag, log2_of_implicit_bit hm]
  rw [if_neg (by omega), if_neg (by omega), if_pos (Nat.le_refl _), Nat.sub_self, Nat.pow_zero, Nat.mul_one,
    Nat.add_sub_cancel_left, show ((fmtOf t).mb + ((k : Int) - (fmtOf t).bias - (fmtOf t).mb) + (fmtOf t).bias).toNat = k by omega]

theorem roundMag_subnormal {t : Ty} {m : Nat} (mode : Rnd) (rnd : Nat) (sat neg st : Bool) (hm : m < 2 ^ (fmtOf t).mb)
    (hmax : m ≤ fmtMax t) :
    roundMag t mode rnd sat neg m (1 - (fmtOf t).bias - (fmtOf t).mb) st = signed t neg m := by
  by_cases h0 : m = 0
  · rw [roundMag, if_pos h0, h0]
  · have hlog : m.log2 < (fmtOf t).mb := (Nat.log2_lt h0).mpr hm
    rw [roundMag_of_unit mode rnd sat neg st h0 (by omega) (by rwa [packMag_subnormal hm]), packMag_subnormal hm]

theorem roundMag_normal {t : Ty} {m k : Nat} (mode : Rnd) (rnd : Nat) (sat neg st : Bool) (hm : m < 2 ^ (fmtOf t).mb)
    (hk : k ≠ 0) (hmax : k * 2 ^ (fmtOf t).mb + m ≤ fmtMax t) :
    roundMag t mode rnd sat neg (2 ^ (fmtOf t).mb + m) (k - (fmtOf t).bias - (fmtOf t).mb) st
      = signed t neg (k * 2 ^ (fmtOf t).mb + m) := by
  have hpos := Nat.two_pow_pos (fmtOf t).mb
  have hlog := log2_of_implicit_bit hm
  rw [roundMag_of_unit mode rnd sat neg st (by omega) (by rw [hlog]; omega) (by rwa [packMag_normal hm hk]),
    packMag_normal hm hk]

/-! ### Words as FP32 values (Table 5.1) -/

theorem b2n_testBit (x i : Nat) : b2n (x.testBit i) = x / 2 ^ i % 2 := by
  rw [b2n, Nat.testBit_eq_decide_div_mod_eq]
  simp only [decide_eq_true_eq]
  split <;> omega

/-- A word is its sign above its biased exponent above its mantissa. -/
theorem signed_fields (x : Word) :
    signed .f32 (x.toNat.testBit 31) (bitsOf x.toNat 23 8 * 2 ^ 23 + x.toNat % 2 ^ 23) = x.toNat := by
  have hx := x.isLt
  have hsign : fmtSign .f32 = 31 := rfl
  rw [signed, hsign, b2n_testBit, bitsOf]
  omega

/-- The value of a word: of the top exponent an infinity or a NaN, of exponent zero a subnormal, else a normal. -/
theorem f32_eq_fields (x : Word) : f32 x =
    if bitsOf x.toNat 23 8 = 255 then (if x.toNat % 2 ^ 23 = 0 then .inf (x.toNat.testBit 31) else .nan)
    else if bitsOf x.toNat 23 8 = 0 then .fin (x.toNat.testBit 31) (x.toNat % 2 ^ 23) (1 - 127 - 23)
    else .fin (x.toNat.testBit 31) (2 ^ 23 + x.toNat % 2 ^ 23) (bitsOf x.toNat 23 8 - 127 - 23) := by
  have hfmt : fmtOf .f32 = ⟨8, 23, 127⟩ := rfl
  have hsign : fmtSign .f32 = 31 := rfl
  have hinf : fmtInf .f32 = true := rfl
  have he8m0 : (Ty.f32 == Ty.e8m0) = false := rfl
  have hfp8 : Ty.f32.among [.e4m3, .e4m3x4] = false := rfl
  simp only [f32, toF, hfmt, hsign, hinf, he8m0, hfp8, Bool.false_eq_true, if_false, Bool.true_and, Bool.false_and,
    decide_eq_true_eq]
  rfl

/-- Rounding gives an FP32 value's own pattern back, in every mode. -/
theorem roundV_f32 (mode : Rnd) (rnd : Nat) {x : Word} (hx : f32 x ≠ .nan) : roundV .f32 mode rnd false (f32 x) = x.toNat := by
  have hm : x.toNat % 2 ^ 23 < 2 ^ 23 := Nat.mod_lt _ (Nat.two_pow_pos 23)
  have he : bitsOf x.toNat 23 8 < 2 ^ 8 := Nat.mod_lt _ (Nat.two_pow_pos 8)
  have hmax : fmtMax .f32 = 255 * 2 ^ 23 - 1 := rfl
  have hfields := signed_fields x
  rw [f32_eq_fields] at hx ⊢
  generalize x.toNat.testBit 31 = neg at *
  generalize bitsOf x.toNat 23 8 = e at *
  generalize x.toNat % 2 ^ 23 = m at *
  by_cases htop : e = 255
  · rw [if_pos htop] at hx ⊢
    have h0 : m = 0 := Decidable.of_not_not fun h0 => hx (if_neg h0)
    rw [if_pos h0, ← hfields, htop, h0]
    rfl
  · rw [if_neg htop]
    by_cases hsub : e = 0
    · rw [if_pos hsub, ← hfields, hsub, Nat.zero_mul, Nat.zero_add]
      exact roundMag_subnormal (t := .f32) mode rnd false neg false hm (by omega)
    · have hfin : e * 2 ^ 23 + m ≤ fmtMax .f32 := by omega
      rw [if_neg hsub, ← hfields]
      exact roundMag_normal (t := .f32) mode rnd false neg false hm hsub hfin

theorem toF32_f32 (mode : Rnd) {x : Word} (hx : f32 x ≠ .nan) : toF32 mode (f32 x) = x := by
  rw [toF32, roundV_f32 mode 0 hx, BitVec.ofNat_toNat, BitVec.setWidth_eq]

end Sys2Proof.Machine
end

section
/-! SUPPORT. How wide a rounded element is, and how elements stand beside each other in a register (05_float.md R113, R125,
R126). -/

namespace Sys2Proof.Machine

/-! ### The width of a rounded element (R113) -/

theorem fmtMax_lt (t : Ty) : fmtMax t < 2 ^ fmtSign t := by cases t <;> decide

theorem fmtNan_lt (t : Ty) : fmtNan t < 2 ^ (fmtSign t + 1) := by cases t <;> decide

theorem infinity_lt (t : Ty) : (2 ^ (fmtOf t).eb - 1) * 2 ^ (fmtOf t).mb < 2 ^ fmtSign t := by
  have hpos := Nat.two_pow_pos (fmtOf t).eb
  rw [fmtSign, Nat.pow_add]
  exact Nat.mul_lt_mul_of_pos_right (by omega) (Nat.two_pow_pos _)

theorem signed_lt {t : Ty} {x : Nat} (neg : Bool) (hx : x < 2 ^ fmtSign t) : signed t neg x < 2 ^ (fmtSign t + 1) := by
  rw [signed, Nat.pow_succ]
  cases neg
  · simp only [b2n, Bool.false_eq_true, if_false]
    omega
  · simp only [b2n, if_true]
    omega

theorem infPat_lt (t : Ty) (sat neg : Bool) : infPat t sat neg < 2 ^ (fmtSign t + 1) := by
  unfold infPat
  split
  · exact signed_lt neg (fmtMax_lt t)
  · split
    · exact signed_lt neg (infinity_lt t)
    · exact fmtNan_lt t

theorem overflowPat_lt (t : Ty) (mode : Rnd) (sat neg : Bool) : overflowPat t mode sat neg < 2 ^ (fmtSign t + 1) :=
  iteInduction (motive := (· < _)) (fun _ => infPat_lt t sat neg) fun _ => signed_lt neg (fmtMax_lt t)

theorem roundMag_lt (t : Ty) (mode : Rnd) (rnd : Nat) (sat neg : Bool) (m : Nat) (e : Int) (st : Bool) :
    roundMag t mode rnd sat neg m e st < 2 ^ (fmtSign t + 1) := by
  rw [roundMag]
  split
  · exact signed_lt neg (Nat.two_pow_pos _)
  · exact iteInduction (motive := (· < _)) (fun _ => overflowPat_lt t mode sat neg)
      fun hmax => signed_lt neg (Nat.lt_of_le_of_lt (Nat.not_lt.mp hmax) (fmtMax_lt t))

theorem roundV_lt (t : Ty) (mode : Rnd) (rnd : Nat) (sat : Bool) (v : FVal) : roundV t mode rnd sat v < 2 ^ (fmtSign t + 1) := by
  cases v with
  | nan => exact fmtNan_lt t
  | inf neg => exact infPat_lt t sat neg
  | fin neg m e => exact roundMag_lt t mode rnd sat neg m e false

/-! ### Elements of a register (R125, R126) -/

theorem fmtWidth_of_packed {t : Ty} (ht : t.packed = true) : fmtWidth t = fmtSign t + 1 := by
  cases t <;> cases ht <;> rfl

theorem ofNat_or_of_lt {n k x y : Nat} (hy : y < 2 ^ k) :
    BitVec.ofNat n (x * 2 ^ k) ||| BitVec.ofNat n y = BitVec.ofNat n (y + 2 ^ k * x) := by
  rw [← BitVec.ofNat_or, Nat.mul_comm, ← Nat.two_pow_add_eq_or_of_lt hy, Nat.add_comm]

/-- An old register shifted up by two elements, over two elements of `w` bits. -/
theorem ofNat_pack {n w x y old : Nat} (hx : x < 2 ^ w) (hy : y < 2 ^ w) :
    BitVec.ofNat n (old * 2 ^ (2 * w)) ||| BitVec.ofNat n (y * 2 ^ w + x)
      = BitVec.ofNat n (x % 2 ^ w + 2 ^ w * (y % 2 ^ w) + 2 ^ (2 * w) * old) := by
  have hlow : y * 2 ^ w + x < 2 ^ (2 * w) := by
    have h := Nat.mul_le_mul_right (2 ^ w) (Nat.succ_le_of_lt hy)
    rw [Nat.two_mul, Nat.pow_add]
    rw [Nat.succ_mul] at h
    omega
  rw [ofNat_or_of_lt hlow, Nat.mod_eq_of_lt hx, Nat.mod_eq_of_lt hy, Nat.mul_comm y, Nat.add_comm x]

theorem fmtWidth_of_half_pair {t : Ty} (ht : t.among [.f16x2, .bf16x2] = true) : fmtWidth t = 16 := by
  cases t <;> cases ht <;> rfl

theorem fmtWidth_of_byte_quad {t : Ty} (ht : t.among [.e4m3x4, .e5m2x4] = true) : fmtWidth t = 8 := by
  cases t <;> cases ht <;> rfl

end Sys2Proof.Machine
end

section
/-! PROOF. Floating-point conditions and the rounding of represented values; the floating-point lane instructions, conversion and
packing write the stated results. -/

namespace Sys2Proof.Machine

open Sys2Proof.Safety

/-! ### Conditions and represented values (R109, R113, R118) -/

/-- Settles O14: the eight conditions are the order of values and its failure for a NaN, and a represented value has the
format's unit already. -/
theorem floatConditionsAndRepresentableRounding : Obligations.FloatConditionsAndRepresentableRounding := by
  refine ⟨fun x y => ⟨fcondHolds_of_unordered, fun hx hy => ?_, fun p q e f => eqV_zeros p q e f⟩, fun x rm => toF32_f32 rm⟩
  have hord : unordered x y = false := by rw [unordered_eq_decide, decide_eq_false (by simp [hx, hy])]
  have hasymm := ltV_asymm x y
  simp only [fcondHolds, hord, eqV_of_ordered hord, Bool.not_false]
  generalize ltV x y = lt at hasymm ⊢
  generalize ltV y x = gt at hasymm ⊢
  revert lt gt
  decide

/-! ### Lane instructions (R116, R117, R119 to R121, R126 to R128) -/

theorem and5_left {p q r t u : Bool} (h : (p && q && r && t && u) = true) : p = true := and4_left (and2_left h)

/-- Settles O15: each instruction is one write of the executing lanes, of the rounded result of its exact operation. -/
theorem floatResults : Obligations.FloatResults := by
  intro s m d a b e ty rm r4 sg imm hr A B C a' b' c' X W one
  refine ⟨?fadd, ?fma, ?fsub, ?fmul, ?fmin, ?fmax, ?fminn, ?fmaxn, ?fclass, ?frcp, ?fdiv, ?frsq, ?fsqrt, ?fexp2, ?flog2, ?ffract,
    ?fround, ?fldexp, ?fdot2, ?fdot4, ?fdot8, ?mxs, ?faddImm, ?fmulImm, ?fmaImm, ?fminImm, ?fmaxImm⟩
  case fadd | fsub | fmul | fmin | fmax | fminn | fmaxn | fdiv | fldexp =>
    exact fun hwf => runs_lanes32 hr (and4_snd hwf) rfl fun _ => rfl
  case fclass | frcp | frsq | fsqrt | fexp2 | flog2 | ffract | fround | mxs =>
    exact fun hwf => runs_lanes32 hr (and3_mid hwf) rfl fun _ => rfl
  case fma | fdot8 => exact fun hwf => runs_lanes32 hr (and5_snd hwf) rfl fun _ => rfl
  case fdot2 =>
    intro hwf
    have hw : fmtWidth ty = 16 := fmtWidth_of_half_pair (and3_left (and5_left hwf))
    exact runs_lanes32 hr (and5_snd hwf) rfl fun _ => by rw [hw]; rfl
  case fdot4 =>
    intro hwf
    have hw : fmtWidth ty = 8 := fmtWidth_of_byte_quad (and3_left (and5_left hwf))
    exact runs_lanes32 hr (and5_snd hwf) rfl fun _ => by rw [hw]
  case faddImm | fmulImm | fmaImm | fminImm | fmaxImm =>
    exact fun hwf => runs_lanes32 hr (and2_left hwf) rfl fun _ => rfl

/-! ### Conversion and packing (R122 to R125) -/

/-- Settles O16: a conversion is one typed write of the executing lanes, and the elements that `fpack` joins do not overlap. -/
theorem floatConversionAndPacking : Obligations.FloatConversionAndPacking := by
  intro s m d a b e dt ft rm sat sg hr R w elem
  refine ⟨fun hwf => runs_lanes hr (and3_mid hwf) rfl fun _ => rfl, fun hpacked hwf => ?_⟩
  have hlt (rnd : Nat) (v : FVal) : roundV dt rm rnd sat v < 2 ^ w := by
    rw [show w = fmtSign dt + 1 from fmtWidth_of_packed hpacked]
    exact roundV_lt dt rm rnd sat v
  exact runs_lanes32 hr (and4_snd hwf) rfl fun _ => ofNat_pack (hlt _ _) (hlt _ _)

end Sys2Proof.Machine
end

section
/-! SUPPORT. Reductions and scans over the lanes of a group: the levels of the tree and the stages of the scan lane by lane, and
the lanes that a node gathers when the operation is associative (06_masks_exchange.md R140, R141). -/

namespace Sys2Proof.Machine

open Sys2Proof.Safety

/-! ### Lanes written with values known below lane 32 -/

theorem wrote32_congr {s t : State} {m : MReg} {d : Reg} {f g : Nat → Word} (h : Wrote32 s m d f t)
    (hfg : ∀ l < 32, f l = g l) : Wrote32 s m d g t := by
  obtain ⟨hregs, hrest⟩ := h
  refine ⟨fun l k hl hk => ?_, hrest⟩
  simpa only [hfg l hl.1] using hregs l k hl hk

theorem runs_lanes32_below {s : State} {i : Instr} {m : MReg} {d : Reg} {f g : Nat → Word} (hr : RowsApart s)
    (hd : regOk s.wg.n d = true) (hi : exec i s = .next (s.lanes32 m d g)) (hg : ∀ l < 32, g l = f l) :
    Runs i s (Wrote32 s m d f) :=
  ⟨_, hi, wrote32_congr (lanes32_wrote hr m d (of_decide_eq_true hd) g) hg⟩

/-! ### The tree and the scan by level (R141) -/

variable {f : Word → Word → Word} {x : Nat → Option Word}

theorem pairUp_map_range' (g : Nat → Option Word) (n : Nat) :
    ∀ i, pairUp f ((List.range' (2 * i) (2 * n)).map g)
      = (List.range' i n).map (fun i => combineO f (g (2 * i)) (g (2 * i + 1))) := by
  induction n with
  | zero => intro i; rfl
  | succ n ih =>
    intro i
    have hcons : pairUp f ((List.range' (2 * i) (2 * (n + 1))).map g)
        = combineO f (g (2 * i)) (g (2 * i + 1)) :: pairUp f ((List.range' (2 * (i + 1)) (2 * n)).map g) := rfl
    rw [hcons, ih]
    rfl

theorem pairUp_map_range (g : Nat → Option Word) (n : Nat) :
    pairUp f ((List.range (2 * n)).map g) = (List.range n).map (fun i => combineO f (g (2 * i)) (g (2 * i + 1))) := by
  rw [List.range_eq_range', List.range_eq_range']
  exact pairUp_map_range' g n 0

theorem treeReduce_eq {T : Nat → Nat → Option Word} (h0 : ∀ l, T 0 l = x l)
    (hT : ∀ t i, T (t + 1) i = combineO f (T t (2 * i)) (T t (2 * i + 1))) :
    treeReduce f ((List.range 32).map x) = T 5 0 := by
  have hlevel (t n : Nat) : pairUp f ((List.range (2 * n)).map (T t)) = (List.range n).map (T (t + 1)) := by
    rw [pairUp_map_range, funext (hT t)]
  rw [← funext h0, treeReduce, hlevel 0 16, hlevel 1 8, hlevel 2 4, hlevel 3 2, hlevel 4 1]
  rfl

/-- The five stages of `gscan` (R141). -/
def scanAll (f : Word → Word → Word) (x : List (Option Word)) : List (Option Word) :=
  scanStage f 16 (scanStage f 8 (scanStage f 4 (scanStage f 2 (scanStage f 1 x))))

theorem getD_map_range (g : Nat → Option Word) {n l : Nat} (hl : l < n) : ((List.range n).map g).getD l none = g l := by
  simp [List.getD_eq_getElem?_getD, hl]

theorem scanStage_map_range (g : Nat → Option Word) (k n : Nat) : scanStage f k ((List.range n).map g)
    = (List.range n).map (fun l => if k ≤ l then combineO f (g (l - k)) (g l) else g l) := by
  rw [scanStage, List.length_map, List.length_range]
  refine List.map_congr_left fun l hl => ?_
  have hl : l < n := List.mem_range.mp hl
  rw [getD_map_range g hl, getD_map_range g (Nat.lt_of_le_of_lt (Nat.sub_le l k) hl)]

theorem scanAll_getD {K : Nat → Nat → Option Word} (h0 : ∀ l, K 0 l = x l)
    (hK : ∀ t l, K (t + 1) l = if 2 ^ t ≤ l then combineO f (K t (l - 2 ^ t)) (K t l) else K t l) {l : Nat} (hl : l < 32) :
    (scanAll f ((List.range 32).map x)).getD l none = K 5 l := by
  have hstage (t : Nat) : scanStage f (2 ^ t) ((List.range 32).map (K t)) = (List.range 32).map (K (t + 1)) := by
    rw [scanStage_map_range, funext (hK t)]
  have hall : scanAll f ((List.range 32).map (K 0)) = (List.range 32).map (K 5) := by
    rw [← hstage 4, ← hstage 3, ← hstage 2, ← hstage 1, ← hstage 0]
    rfl
  rw [← funext h0, hall, getD_map_range _ hl]

/-! ### The lanes that a node gathers

With an associative operation every node of the tree and of the scan is the combination, in lane order, of the values of a run of
neighbouring lanes. -/

/-- The values of `n` lanes from `lo`, combined in lane order. -/
def gathered (f : Word → Word → Word) (x : Nat → Option Word) (lo : Nat) : Nat → Option Word
  | 0 => none
  | n + 1 => combineO f (gathered f x lo n) (x (lo + n))

theorem combineO_none_left (y : Option Word) : combineO f none y = y := rfl

theorem combineO_none_right (y : Option Word) : combineO f y none = y := by cases y <;> rfl

section
variable (hf : ∀ a b c, f (f a b) c = f a (f b c))
include hf

theorem combineO_assoc (a b c : Option Word) : combineO f (combineO f a b) c = combineO f a (combineO f b c) := by
  cases a with
  | none => rfl
  | some a =>
    cases b with
    | none => rfl
    | some b =>
      cases c with
      | none => rfl
      | some c => exact congrArg some (hf a b c)

/-- Two neighbouring runs of lanes make one. -/
theorem gathered_add (lo n k : Nat) : gathered f x lo (n + k) = combineO f (gathered f x lo n) (gathered f x (lo + n) k) := by
  induction k with
  | zero => exact (combineO_none_right _).symm
  | succ k ih => rw [← Nat.add_assoc, gathered, gathered, ih, combineO_assoc hf, Nat.add_assoc]

/-- Node `i` of level `t` of the tree gathers the `2 ^ t` lanes from `2 ^ t * i`. -/
theorem gathered_tree (t i : Nat) : gathered f x (2 ^ (t + 1) * i) (2 ^ (t + 1))
    = combineO f (gathered f x (2 ^ t * (2 * i)) (2 ^ t)) (gathered f x (2 ^ t * (2 * i + 1)) (2 ^ t)) := by
  rw [Nat.pow_succ, Nat.mul_two, gathered_add hf, ← Nat.mul_two, Nat.mul_assoc, Nat.mul_succ]

/-- After `t` stages of the scan lane `l` has gathered the last `2 ^ t` lanes up to it, or all there are. -/
theorem gathered_scan (t l : Nat) : gathered f x (l + 1 - 2 ^ (t + 1)) (min (l + 1) (2 ^ (t + 1)))
    = if 2 ^ t ≤ l then
        combineO f (gathered f x (l - 2 ^ t + 1 - 2 ^ t) (min (l - 2 ^ t + 1) (2 ^ t)))
          (gathered f x (l + 1 - 2 ^ t) (min (l + 1) (2 ^ t)))
      else gathered f x (l + 1 - 2 ^ t) (min (l + 1) (2 ^ t)) := by
  rw [Nat.pow_succ]
  generalize 2 ^ t = k
  split
  · have hcount : min (l + 1) (k * 2) = min (l - k + 1) k + k := by omega
    have hfirst : l + 1 - k * 2 = l - k + 1 - k := by omega
    have hnext : l - k + 1 - k + min (l - k + 1) k = l + 1 - k := by omega
    rw [hcount, hfirst, gathered_add hf, hnext, Nat.min_eq_right (by omega : k ≤ l + 1)]
  · have hcount : min (l + 1) (k * 2) = min (l + 1) k := by omega
    have hfirst : l + 1 - k * 2 = l + 1 - k := by omega
    rw [hcount, hfirst]

theorem treeReduce_eq_gathered : treeReduce f ((List.range 32).map x) = gathered f x 0 32 :=
  treeReduce_eq (T := fun t i => gathered f x (2 ^ t * i) (2 ^ t))
    (fun l => by rw [Nat.pow_zero, Nat.one_mul, gathered, gathered, combineO_none_left, Nat.add_zero]) (gathered_tree hf)

theorem scanAll_getD_eq_gathered {l : Nat} (hl : l < 32) :
    (scanAll f ((List.range 32).map x)).getD l none = gathered f x 0 (l + 1) := by
  have hlevel : (scanAll f ((List.range 32).map x)).getD l none = gathered f x (l + 1 - 2 ^ 5) (min (l + 1) (2 ^ 5)) :=
    scanAll_getD (K := fun t l => gathered f x (l + 1 - 2 ^ t) (min (l + 1) (2 ^ t)))
      (fun l => by rw [Nat.pow_zero, Nat.add_sub_cancel, Nat.min_eq_right (by omega), gathered, gathered, combineO_none_left,
        Nat.add_zero]) (gathered_scan hf) hl
  rw [hlevel, Nat.sub_eq_zero_of_le (show l + 1 ≤ 2 ^ 5 from hl), Nat.min_eq_left (show l + 1 ≤ 2 ^ 5 from hl)]

end

/-! ### The integer operations (R140) -/

theorem wordMin_assoc (u : Bool) (a b c : Word) : wordMin u (wordMin u a b) c = wordMin u a (wordMin u b c) := by
  cases u <;> grind [wordMin]

theorem wordMax_assoc (u : Bool) (a b c : Word) : wordMax u (wordMax u a b) c = wordMax u a (wordMax u b c) := by
  cases u <;> grind [wordMax]

theorem wordMin_unsigned_top (v : Word) : wordMin true 0xFFFFFFFF v = v := by
  rw [wordMin, if_pos rfl]
  exact ite_eq_right_iff.mpr fun h => BitVec.eq_of_toNat_eq (Nat.le_antisymm h (Nat.le_of_lt_succ v.isLt))

theorem wordMax_unsigned_bottom (v : Word) : wordMax true 0 v = v := by
  rw [wordMax, if_pos rfl]
  exact if_pos (Nat.zero_le _)

theorem wordMin_signed_top (v : Word) : wordMin false 0x7FFFFFFF v = v := by
  rw [wordMin, if_neg Bool.false_ne_true]
  exact ite_eq_right_iff.mpr fun h => BitVec.eq_of_toInt_eq (Int.le_antisymm h (Int.le_of_lt_add_one v.toInt_lt))

theorem wordMax_signed_bottom (v : Word) : wordMax false 0x80000000 v = v := by
  rw [wordMax, if_neg Bool.false_ne_true]
  exact if_pos v.le_toInt

/-- What `combine` computes on words that are not FP32; `u` for the unsigned type (R140). -/
def intOp (u : Bool) : GOp → Word → Word → Word
  | .add => (· + ·)
  | .min => wordMin u
  | .max => wordMax u
  | .and => (· &&& ·)
  | .or => (· ||| ·)
  | .xor => (· ^^^ ·)

theorem combine_of_int {ty : Ty} (hty : ty ≠ .f32) (op : GOp) (rm : Rnd) : combine op ty rm = intOp (ty == .n32) op := by
  funext a b
  cases op <;> exact if_neg (mt eq_of_beq hty)

theorem combine_assoc {ty : Ty} (hty : ty ≠ .f32) (op : GOp) (rm : Rnd) (a b c : Word) :
    combine op ty rm (combine op ty rm a b) c = combine op ty rm a (combine op ty rm b c) := by
  rw [combine_of_int hty]
  cases op with
  | add => exact BitVec.add_assoc a b c
  | min => exact wordMin_assoc _ a b c
  | max => exact wordMax_assoc _ a b c
  | and => exact BitVec.and_assoc a b c
  | or => exact BitVec.or_assoc a b c
  | xor => exact BitVec.xor_assoc a b c

theorem combine_identity {ty : Ty} (hty : ty ≠ .f32) (op : GOp) (rm : Rnd) (v : Word) :
    combine op ty rm (identity op ty) v = v := by
  rw [combine_of_int hty]
  cases op with
  | add => exact BitVec.zero_add v
  | min =>
    simp only [identity, beq_false_of_ne hty, intOp]
    cases ty == .n32
    · exact wordMin_signed_top v
    · exact wordMin_unsigned_top v
  | max =>
    simp only [identity, beq_false_of_ne hty, intOp]
    cases ty == .n32
    · exact wordMax_signed_bottom v
    · exact wordMax_unsigned_bottom v
  | and => exact BitVec.allOnes_and
  | or => exact BitVec.zero_or
  | xor => exact BitVec.zero_xor

/-! ### The contributors in lane order -/

/-- What lane `l` contributes: the elements of `State.contrib` (R140). -/
def State.contribAt (s : State) (m : MReg) (a : Reg) (l : Nat) : Option Word :=
  if (s.exe m).getLsbD l then some (s.lreg l a.toNat) else none

theorem settle_of_int {ty : Ty} (hty : ty ≠ .f32) (op : GOp) (y : Option Word) : settle op ty y = y.getD (identity op ty) := by
  cases y with
  | none => rfl
  | some v => simp [settle, hty]

theorem settle_combineO_some {ty : Ty} (hty : ty ≠ .f32) (op : GOp) (rm : Rnd) (y : Option Word) (v : Word) :
    settle op ty (combineO (combine op ty rm) y (some v)) = combine op ty rm (settle op ty y) v := by
  simp only [settle_of_int hty]
  cases y with
  | none => exact (combine_identity hty op rm v).symm
  | some w => rfl

theorem lanesOf_filter_lt (e : Word) {n : Nat} (hn : n ≤ 32) :
    (lanesOf e).filter (fun i => decide (i < n)) = (List.range n).filter (fun i => e.getLsbD i) := by
  obtain ⟨r, hr⟩ := Nat.exists_eq_add_of_le hn
  have hbelow : ∀ i ∈ List.range n, decide (i < n) = true := fun i hi => decide_eq_true (List.mem_range.mp hi)
  have habove : ∀ i ∈ (List.range r).map (n + ·), ¬ decide (i < n) = true := by
    intro i hi
    obtain ⟨j, _, rfl⟩ := List.mem_map.mp hi
    exact mt of_decide_eq_true (Nat.not_lt.mpr (Nat.le_add_right n j))
  have hrange : (List.range 32).filter (fun i => decide (i < n)) = List.range n := by
    rw [hr, List.range_add, List.filter_append, List.filter_eq_self.mpr hbelow, List.filter_eq_nil_iff.mpr habove,
      List.append_nil]
  have hcomm : (lanesOf e).filter (fun i => decide (i < n))
      = ((List.range 32).filter (fun i => decide (i < n))).filter (fun i => e.getLsbD i) := by
    rw [lanesOf, List.filter_filter, List.filter_filter]
    exact List.filter_congr fun _ _ => Bool.and_comm _ _
  rw [hcomm, hrange]

/-- Values of the lanes below `n`, gathered and settled: the contributors among them, combined in lane order. -/
theorem settle_gathered {ty : Ty} (hty : ty ≠ .f32) (s : State) (m : MReg) (op : GOp) (rm : Rnd) (a : Reg)
    {n : Nat} (hn : n ≤ 32) : settle op ty (gathered (combine op ty rm) (s.contribAt m a) 0 n)
      = ((lanesOf (s.exe m)).filter (fun i => decide (i < n))).foldl
          (fun x l => combine op ty rm x (s.lreg l a.toNat)) (identity op ty) := by
  rw [lanesOf_filter_lt _ hn]
  clear hn
  induction n with
  | zero => rfl
  | succ n ih =>
    rw [gathered, Nat.zero_add, List.range_succ, List.filter_append, List.foldl_append, ← ih, State.contribAt]
    by_cases he : (s.exe m).getLsbD n
    · rw [if_pos he, settle_combineO_some hty, List.filter_cons_of_pos he]
      rfl
    · rw [if_neg he, combineO_none_right, List.filter_cons_of_neg he]
      rfl

end Sys2Proof.Machine
end

section
/-! PROOF. The counts and exchanges deliver the named lane's register, and reductions and scans follow their fixed trees. -/

namespace Sys2Proof.Machine

open Sys2Proof.Safety

/-! ### Counts and exchanges (R133, R137 to R139) -/

/-- Settles O18: each count and each exchange is one write of the executing lanes, of values read before it. -/
theorem exchangesDeliverTheNamedLane : Obligations.ExchangesDeliverTheNamedLane := by
  intro s m am d a b p k hr F ls
  refine ⟨?mpop, ?mfirst, ?mlast, ?qswx, ?qswy, ?qswd, ?qbc, ?gshf, ?gshu, ?gshd, ?gshx, ?gbc⟩
  case mpop | mfirst | mlast => exact fun hwf => runs_lanes32 hr hwf rfl fun _ => rfl
  case qswx | qswy | qswd | qbc | gshx | gbc => exact fun hwf => runs_lanes32 hr (and2_left hwf) rfl fun _ => rfl
  case gshf => exact fun hwf => runs_lanes32 hr (and3_left hwf) rfl fun _ => rfl
  case gshu =>
    refine fun hwf => runs_lanes32 hr (and2_left hwf) rfl fun l => congrArg (s.lreg · a.toNat) ?_
    simp only [← Nat.not_lt, ite_not]
  case gshd =>
    refine fun hwf => runs_lanes32 hr (and2_left hwf) rfl fun l => congrArg (s.lreg · a.toNat) ?_
    simp only [← Nat.not_lt, ite_not]

/-! ### Reductions and scans (R140, R141) -/

section
variable {s : State} {m : MReg} {op : GOp} {ty : Ty} {rm : Rnd} {d a : Reg} {excl : Bool}

theorem does_gred {v : Word} (hr : RowsApart s)
    (hv : settle op ty (treeReduce (combine op ty rm) ((List.range 32).map (s.contribAt m a))) = v) :
    Does (.gred m op ty rm d a) s (Wrote32 s m d (fun _ => v)) :=
  fun hwf => runs_lanes32 hr (and3_mid hwf) rfl fun _ => hv

theorem does_gscan_incl {f : Nat → Word} (hr : RowsApart s)
    (hf : ∀ l < 32, settle op ty ((scanAll (combine op ty rm) ((List.range 32).map (s.contribAt m a))).getD l none) = f l) :
    Does (.gscan m op false ty rm d a) s (Wrote32 s m d f) :=
  fun hwf => runs_lanes32_below hr (and3_mid hwf) rfl hf

theorem does_gscan_excl {f : Nat → Word} (hr : RowsApart s) (h0 : identity op ty = f 0)
    (hf : ∀ l < 32, settle op ty ((scanAll (combine op ty rm) ((List.range 32).map (s.contribAt m a))).getD l none) = f (l + 1)) :
    Does (.gscan m op true ty rm d a) s (Wrote32 s m d f) := by
  refine fun hwf => runs_lanes32_below hr (and3_mid hwf) rfl fun l hl => ?_
  cases l with
  | zero => exact h0
  | succ l => exact hf l (by omega)

end

/-- Settles O19: each level of the tree and each stage of the scan is the recursion's, and with an associative operation a node is
the combination of a run of neighbouring lanes, from lane 0 for the results. -/
theorem reductionsAndScansFollowTheFixedTrees : Obligations.ReductionsAndScansFollowTheFixedTrees := by
  intro s m op ty rm d a hr
  refine ⟨fun T h0 hT => ?tree, fun K h0 hK => ⟨?incl, ?excl⟩, fun hty => ⟨?intTree, ?intIncl, ?intExcl⟩⟩
  case tree => exact does_gred hr (congrArg _ (treeReduce_eq h0 hT))
  case incl => exact does_gscan_incl hr fun l hl => congrArg _ (scanAll_getD h0 hK hl)
  case excl => exact does_gscan_excl hr rfl fun l hl => congrArg _ (scanAll_getD h0 hK hl)
  case intTree =>
    have hall : (lanesOf (s.exe m)).filter (fun i => decide (i < 32)) = (lanesOf (s.exe m)).filter (fun _ => true) :=
      List.filter_congr fun l hl => decide_eq_true (lanesOf_lt l hl)
    refine does_gred hr ?_
    rw [treeReduce_eq_gathered (combine_assoc hty op .rne), settle_gathered hty s m op .rne a (Nat.le_refl 32), hall]
  case intIncl =>
    refine does_gscan_incl hr fun l hl => ?_
    rw [scanAll_getD_eq_gathered (combine_assoc hty op .rne) hl, settle_gathered hty s m op .rne a hl]
    simp only [Nat.lt_succ_iff]
  case intExcl =>
    refine does_gscan_excl hr (settle_gathered hty s m op .rne a (Nat.zero_le 32)) fun l hl => ?_
    rw [scanAll_getD_eq_gathered (combine_assoc hty op .rne) hl, settle_gathered hty s m op .rne a hl]

end Sys2Proof.Machine
end

section
/-! SUPPORT. Filing threads: what a bin's service, a filing and a group's dissolution leave of a core (07_work_creation.md R146,
R155). -/

namespace Sys2Proof.Machine

open Sys2Proof.Safety

/-! ### Slots of a core that are in a bin or wait for one -/

/-- A slot whose thread is filed: in a bin (STATE 2), or waiting for one (STATE 3). -/
def Core.Filed (k : Core) (x : Nat) : Prop := (mget {} k.slots x).state = 2 ∨ (mget {} k.slots x).state = 3

/-- `k'` differs from `k` in its slots and bins only: no thread's PC changed, and each filed thread is still filed. -/
structure Rebinned (k k' : Core) : Prop where
  only  : ∃ sl bs, k' = { k with slots := sl, bins := bs }
  pc    : ∀ x, (mget {} k'.slots x).pc = (mget {} k.slots x).pc
  filed : ∀ x, k.Filed x → k'.Filed x

namespace Rebinned

variable {k k' k'' : Core}

theorem refl (k : Core) : Rebinned k k := ⟨⟨_, _, rfl⟩, fun _ => rfl, fun _ => id⟩

theorem trans (h : Rebinned k k') (h' : Rebinned k' k'') : Rebinned k k'' := by
  obtain ⟨sl, bs, rfl⟩ := h.only
  obtain ⟨sl', bs', rfl⟩ := h'.only
  exact ⟨⟨sl', bs', rfl⟩, fun x => (h'.pc x).trans (h.pc x), fun x hx => h'.filed x (h.filed x hx)⟩

theorem joinBin (k : Core) (b slot : Nat) : Rebinned k (k.joinBin b slot) := by
  refine ⟨⟨_, _, rfl⟩, fun x => ?_, fun x hx => ?_⟩
  · simp only [Core.joinBin, mget_mset]
    split
    next h => rw [h]
    next => rfl
  · simp only [Core.Filed, Core.joinBin, mget_mset]
    split
    · exact .inl rfl
    · exact hx

theorem serveBins (k : Core) : Rebinned k k.serveBins := by
  refine foldl_keeps (Rebinned k) _ (fun k' sl h => ?_) _ _ (refl k)
  dsimp only
  split
  · exact h.trans (joinBin _ _ _)
  · split
    · exact h.trans (joinBin _ _ _)
    · exact h

end Rebinned

/-! ### Filing threads (R146) -/

/-- A filing sets the thread's PC and marks it as waiting for a bin; the bins are then served. -/
theorem Core.rebinned_file (k : Core) (slot : Nat) (pc : Word) (now : Nat) (far : Int) :
    ∃ sl, sl.state = 3 ∧ sl.pc = pc ∧ Rebinned { k with slots := mset k.slots slot sl } (k.file slot pc now far) := by
  refine ⟨{ mget {} k.slots slot with pc := pc, far := far, filed := now % 2 ^ 32, state := 3 }, rfl, rfl, ?_⟩
  unfold Core.file
  dsimp only
  split
  · exact .joinBin _ _ _
  · split
    · split
      · exact .joinBin _ _ _
      · exact .refl _
    · exact .serveBins _

/-- What filing one thread does: it has the PC given and is filed; every other thread keeps its PC, and stays filed where it was. -/
theorem Core.file_law (k : Core) (slot : Nat) (pc : Word) (now : Nat) (far : Int) :
    (∃ sl bs, k.file slot pc now far = { k with slots := sl, bins := bs })
      ∧ (∀ x, (mget {} (k.file slot pc now far).slots x).pc = if x = slot then pc else (mget {} k.slots x).pc)
      ∧ ∀ x, x = slot ∨ k.Filed x → (k.file slot pc now far).Filed x := by
  obtain ⟨y, hstate, hpc, hre⟩ := k.rebinned_file slot pc now far
  obtain ⟨sl, bs, hk⟩ := hre.only
  refine ⟨⟨sl, bs, hk⟩, fun x => ?_, fun x hx => hre.filed x ?_⟩
  · rw [hre.pc, mget_mset, ← hpc]
    split <;> rfl
  · simp only [Core.Filed, mget_mset]
    split
    · exact .inr hstate
    · exact hx.resolve_left ‹_›

/-- Filing threads in turn, each with a slot of its own. -/
theorem Core.foldl_file (now : Nat) (ts : List (Nat × Word × Int)) (k : Core) (hnd : (ts.map Prod.fst).Nodup) :
    let k' := ts.foldl (fun k t => k.file t.1 t.2.1 now t.2.2) k
    (∃ sl bs, k' = { k with slots := sl, bins := bs })
      ∧ (∀ t ∈ ts, (mget {} k'.slots t.1).pc = t.2.1)
      ∧ (∀ x, x ∉ ts.map Prod.fst → (mget {} k'.slots x).pc = (mget {} k.slots x).pc)
      ∧ ∀ x, x ∈ ts.map Prod.fst ∨ k.Filed x → k'.Filed x := by
  induction ts generalizing k with
  | nil => exact ⟨⟨_, _, rfl⟩, by simp, fun _ _ => rfl, by simp⟩
  | cons t ts ih =>
    obtain ⟨hnot, hnd⟩ := List.nodup_cons.mp hnd
    obtain ⟨⟨sl, bs, hk⟩, hpc, hfiled⟩ := k.file_law t.1 t.2.1 now t.2.2
    obtain ⟨⟨sl', bs', hk'⟩, hin, hout, hall⟩ := ih (k.file t.1 t.2.1 now t.2.2) hnd
    refine ⟨⟨sl', bs', ?_⟩, ?_, fun x hx => ?_, fun x hx => hall x ?_⟩
    · rw [List.foldl_cons, hk', hk]
    · refine List.forall_mem_cons.mpr ⟨?_, hin⟩
      rw [List.foldl_cons, hout _ hnot, hpc, if_pos rfl]
    · obtain ⟨hne, hx⟩ := List.ne_and_not_mem_of_not_mem_cons hx
      rw [List.foldl_cons, hout x hx, hpc, if_neg hne]
    · rcases hx with hx | hx
      · rcases List.mem_cons.mp hx with rfl | hx
        · exact .inr (hfiled _ (.inl rfl))
        · exact .inl hx
      · exact .inr (hfiled x (.inr hx))

/-! ### Dissolving a group (R77, R155) -/

theorem nodup_memberSlots {s : State} (hr : RosterApart s) :
    ((lanesOf s.grp.member).map (fun l => mget 0 s.grp.roster l)).Nodup := by
  obtain ⟨-, -, hne⟩ := hr
  refine List.pairwise_map.mpr ((lanesOf_nodup s.grp.member).imp_of_mem fun {l l'} hl hl' h => ?_)
  obtain ⟨hlt, hm⟩ := mem_lanesOf.mp hl
  obtain ⟨hlt', hm'⟩ := mem_lanesOf.mp hl'
  exact hne l l' hlt hlt' hm hm' h

theorem dissolved_dissolveTo {s : State} (hr : RosterApart s) (target : Nat → Word) (far : Nat → Int) :
    Dissolved s (s.dissolveTo target far) target := by
  have hnd : (((lanesOf s.grp.member).map (fun l => (mget 0 s.grp.roster l, target l, far l))).map Prod.fst).Nodup := by
    rw [List.map_map]
    exact nodup_memberSlots hr
  obtain ⟨⟨sl, bs, hk⟩, hin, hout, hfiled⟩ := Core.foldl_file (s.cycles s.cur.h) _ s.core hnd
  rw [hk] at hin hout hfiled
  refine ⟨sl, bs, ?_, fun l hl => ⟨?_, ?_⟩, fun x hx => hout x ?_⟩
  · simp only [State.dissolveTo, State.fileAll, hk, State.dissolve, State.core_setCore, State.setCore_setCore, State.setCore_cur]
  · exact hin _ (List.mem_map_of_mem hl)
  · refine hfiled _ (.inl ?_)
    rw [List.map_map]
    exact List.mem_map_of_mem hl
  · rw [List.map_map]
    intro hmem
    obtain ⟨l, hl, rfl⟩ := List.mem_map.mp hmem
    exact hx l hl rfl

/-! ### The first misaligned target (R155) -/

theorem misaligned_eq_none {ls : List Nat} {target : Nat → Word} (h : ∀ l ∈ ls, (target l).toNat % 8 = 0) :
    misaligned ls target = none :=
  List.find?_eq_none.mpr fun l hl => by simp [h l hl]

theorem lanesOf_sorted (e : Word) : (lanesOf e).Pairwise (· < ·) := List.pairwise_lt_range.filter _

theorem misaligned_eq_some {e : Word} {target : Nat → Word} {l : Nat} (hl : l ∈ lanesOf e) (hbad : (target l).toNat % 8 ≠ 0)
    (hlow : ∀ i ∈ lanesOf e, i < l → (target i).toNat % 8 = 0) : misaligned (lanesOf e) target = some l := by
  obtain ⟨as, bs, hsplit⟩ := List.append_of_mem hl
  have hsorted := lanesOf_sorted e
  rw [hsplit] at hsorted hlow
  refine List.find?_eq_some_iff_append.mpr ⟨by simpa using hbad, as, bs, hsplit, fun i hi => ?_⟩
  have hlt : i < l := (List.pairwise_append.mp hsorted).2.2 i hi l (by simp)
  simp [hlow i (by simp [hi]) hlt]

end Sys2Proof.Machine
end

section
/-! PROOF. Members in slots of their own have registers of their own, and `reform` files the members where it says. -/

namespace Sys2Proof.Machine

open Sys2Proof.Safety

/-! ### Rows of registers (R144) -/

/-- Two registers of one number are of one row. -/
theorem row_eq_of_register_eq {n x y j k : Nat} (hj : j < n) (hk : k < n) (h : x * n + j = y * n + k) : x = y := by
  have hx : (x * n + j) / n = x := by rw [Nat.mul_comm, Nat.mul_add_div (by omega), Nat.div_eq_of_lt hj, Nat.add_zero]
  have hy : (y * n + k) / n = y := by rw [Nat.mul_comm, Nat.mul_add_div (by omega), Nat.div_eq_of_lt hk, Nat.add_zero]
  rw [← hx, h, hy]

/-- Settles O8: the rows of different slots do not overlap. -/
theorem apartSlotsGiveApartRegisters : Obligations.ApartSlotsGiveApartRegisters := by
  rintro s ⟨hn, hbase, hne⟩
  refine ⟨hn, fun l l' j k hl hl' hm hm' hll hj hk heq => hne l l' hl hl' hm hm' hll ?_⟩
  have hb := hbase l hl hm
  have hb' := hbase l' hl' hm'
  unfold State.physReg at heq
  have hrow := row_eq_of_register_eq hj hk (by omega :
    (mget 0 s.grp.roster l - s.wg.sbase) * s.wg.n + j = (mget 0 s.grp.roster l' - s.wg.sbase) * s.wg.n + k)
  omega

/-! ### Regrouping (R155, R156) -/

theorem aligned_add_eight {v : Word} (h : v.toNat % 8 = 0) : (v + 8).toNat % 8 = 0 := by bv_omega

section

variable {s : State} {c : SCond} {t : Option Reg}

/-- Where `reform` files a lane: at its register where it is live, and at the next word where it is not, or no register is named. -/
def State.reformTarget (s : State) (t : Option Reg) (l : Nat) : Word :=
  match t with
  | some r => if s.grp.m0.getLsbD l then s.lreg l r.toNat else s.grp.pc + 8
  | none => s.grp.pc + 8

theorem exec_reform_true (hc : s.grp.holds c = true) : exec (.reform c t) s =
    .next (match misaligned (lanesOf s.grp.member) (s.reformTarget t) with
      | some l => s.trap tMisalignedPc l
      | none => s.dissolveTo (s.reformTarget t)) := (exec_of_true hc rfl : _)

theorem runs_reform (hc : s.grp.holds c = true) (hr : RosterApart s)
    (h : ∀ l ∈ lanesOf s.grp.member, (s.reformTarget t l).toNat % 8 = 0) :
    Runs (.reform c t) s (fun u => Dissolved s u (s.reformTarget t)) := by
  refine ⟨s.dissolveTo (s.reformTarget t), ?_, dissolved_dissolveTo hr _ _⟩
  rw [exec_reform_true hc, misaligned_eq_none h]

end

/-- Settles O21: each member's target is aligned where its register is, the next word being aligned. -/
theorem reformFilesTheMembers : Obligations.ReformFilesTheMembers := by
  intro s c r m off hc hr hpc
  have hnext := aligned_add_eight hpc
  have htarget {l : Nat} (h : s.grp.m0.getLsbD l = true → (s.lreg l r.toNat).toNat % 8 = 0) :
      (s.reformTarget (some r) l).toNat % 8 = 0 := by
    dsimp only [State.reformTarget]
    split
    · exact h ‹_›
    · exact hnext
  refine ⟨runs_reform hc hr fun _ _ => hnext, fun h => runs_reform hc hr fun l hl => htarget (h l hl),
    fun l hl hlive hbad hlow => ?trap, _, exec_of_true hc rfl, dissolved_dissolveTo hr _ _⟩
  have hat : (s.reformTarget (some r) l).toNat % 8 ≠ 0 := by rwa [State.reformTarget, if_pos hlive]
  rw [exec_reform_true hc, misaligned_eq_some hl hat fun i hi hlt => htarget (hlow i hi hlt)]

end Sys2Proof.Machine
end

section
/-! SUPPORT. Hummocks changed in turn, and a scrub's structures, token and result (16_tenants.md R378, R386 to R391). -/

namespace Sys2Proof.Machine

open Sys2Proof.Safety

/-! ### Hummocks changed in turn -/

/-- What no step of a fold changes, the fold does not. -/
theorem foldl_fixes {α β : Type} (g : State → β) (f : State → α → State) (hf : ∀ t a, g (f t a) = g t) (l : List α) (s : State) :
    g (l.foldl f s) = g s := foldl_keeps (fun t => g t = g s) f (fun t a h => (hf t a).trans h) l s rfl

/-- Each hummock of a list is changed once, from what it held before. -/
theorem humAt_foldl_setHum (F : Nat → Hum → Hum) (hs : List Nat) (s : State) (a : Nat) (hnd : hs.Nodup) :
    (hs.foldl (fun t h => t.setHum h (F h (t.humAt h))) s).humAt a = if a ∈ hs then F a (s.humAt a) else s.humAt a := by
  induction hs generalizing s with
  | nil => rfl
  | cons h hs ih =>
    obtain ⟨hnot, hnd⟩ := List.nodup_cons.mp hnd
    rw [List.foldl_cons, ih _ hnd, State.humAt_setHum]
    by_cases hah : a = h
    · subst hah
      rw [if_neg hnot, if_pos rfl, if_pos List.mem_cons_self]
    · simp only [List.mem_cons, hah, false_or, if_false]

theorem ScrubDesc.nodup_hums (d : ScrubDesc) : d.hums.Nodup := List.nodup_range.filter _

/-! ### What a scrub clears and moves (R386) -/

@[simp] theorem State.scrubClear_chipTime (s : State) (d : ScrubDesc) (h : Nat) : (s.scrubClear d h).chipTime = s.chipTime :=
  foldl_fixes State.chipTime (fun (t : State) (c : Nat) => t.setCoreAt h c (t.coreAt h c).scrubbed) (fun _ _ => rfl) _ _

@[simp] theorem State.modRegs_chipTime (s : State) (h : Nat) (f : HumRegs → HumRegs) :
    (s.modRegs h f).chipTime = s.chipTime := rfl

/-- The ways move without the partitions. -/
theorem HumRegs.partAt_foldl_setWays (f g : Nat) (v : HumRegs → Nat → Nat) (is : List Nat) (r : HumRegs) :
    (is.foldl (fun x i => x.setWays i f (v x i)) r).partAt g = r.partAt g :=
  foldl_keeps (fun x : HumRegs => x.partAt g = r.partAt g) (fun x i => x.setWays i f (v x i)) (fun _ _ h => h) is r rfl

theorem HumRegs.partAt_of_part {r : HumRegs} {m : NMap Part} {f : Nat} {p : Part} (h : r.part = mset m f p) : r.partAt f = p := by
  rw [HumRegs.partAt, h, mget_mset_self]

/-- A scrub enables the partition entry of the function that takes the sedges. -/
theorem HumRegs.en_partAt_scrubMove (r : HumRegs) {d : ScrubDesc} (h : Nat) (hin : d.inNone = false) :
    ((r.scrubMove d h).partAt d.inVf).en = true := by
  unfold HumRegs.scrubMove
  simp only [hin, Bool.false_eq_true, if_false]
  split
  · rw [HumRegs.partAt_foldl_setWays _ _ fun _ _ => d.nways, HumRegs.partAt_of_part rfl]
  · rw [HumRegs.partAt_foldl_setWays _ _ fun r i => andNot (r.waymaskAt i d.outVf) d.nways,
      HumRegs.partAt_foldl_setWays _ _ fun _ _ => d.nways, HumRegs.partAt_of_part rfl]

/-- A hummock after its scrub has cleared: the registers moved, and the signing begun. -/
theorem State.humAt_scrubCleared (s : State) {d : ScrubDesc} {a : Nat} (ha : a ∈ d.hums) :
    ∃ x : Hum, (s.scrubCleared d).humAt a = { x with
      regs := x.regs.scrubMove d a
      scrub := { x.scrub with signing := true, done := d.cleared, tend := s.chipTime } } := by
  have hclear : (d.hums.foldl (fun (t : State) h => t.scrubClear d h) s).chipTime = s.chipTime :=
    foldl_fixes State.chipTime _ (fun t h => t.scrubClear_chipTime d h) _ _
  have hmove (u : State) : (d.hums.foldl (fun (t : State) h => t.modRegs h (fun r => r.scrubMove d h)) u).chipTime = u.chipTime :=
    foldl_fixes State.chipTime _ (fun t h => t.modRegs_chipTime h _) _ _
  refine ⟨(d.hums.foldl (fun (t : State) h => t.scrubClear d h) s).humAt a, ?_⟩
  unfold State.scrubCleared
  dsimp only
  rw [hmove, humAt_foldl_setHum (fun _ x => { x with scrub := { x.scrub with signing := true, done := d.cleared, tend := _ } })
    _ _ _ d.nodup_hums, if_pos ha]
  unfold State.modRegs
  rw [humAt_foldl_setHum (fun h x => { x with regs := x.regs.scrubMove d h }) _ _ _ d.nodup_hums, if_pos ha]
  rw [← hclear]
  rfl

/-! ### The token and the result (R388, R391) -/

@[simp] theorem length_bytesOf (n v : Nat) : (bytesOf n v).length = n := by simp [bytesOf]

@[simp] theorem length_beBytes (n v : Nat) : (beBytes n v).length = n := by simp [beBytes]

/-- A token is 256 bytes long (R388). -/
theorem State.length_tokenOf (s : State) (d : ScrubDesc) {g : Scrub} (hn : g.nonce.length = 32) : (s.tokenOf d g).length = 256 := by
  simp [State.tokenOf, State.tokenBody, hn]

/-- The token is kept by the function that takes the sedges. -/
theorem State.fnAt_scrubToken (s : State) {d : ScrubDesc} (g : Scrub) (hin : d.inNone = false) :
    ((s.scrubToken d g).fnAt d.inVf).token = s.tokenOf d g ∧ ((s.scrubToken d g).fnAt d.inVf).tokseq = g.seq := by
  simp only [State.scrubToken, hin, Bool.false_eq_true, if_false, State.fnAt_setFn_self, and_self]

theorem State.scrub_scrubToken (s : State) {d : ScrubDesc} (g : Scrub) {a : Nat} (ha : a ∈ d.hums) :
    ((s.scrubToken d g).humAt a).scrub.busy = false := by
  have hfold := humAt_foldl_setHum (fun _ x => { x with
    scrub := { x.scrub with busy := false, signing := false, token := s.tokenOf d g }
    regs := x.regs.releaseWays }) d.hums { s with freeCtr := s.freeCtr + 1 } a d.nodup_hums
  rw [if_pos ha] at hfold
  unfold State.scrubToken
  dsimp only
  split
  · rw [hfold]
  · rw [State.humAt_setFn, hfold]

@[simp] theorem State.writeLanes_hums (s : State) (live : Word) (j : Nat) (f : Nat → Word) :
    (s.writeLanes live j f).hums = s.hums := foldl_fixes State.hums _ (fun t l => t.setLreg_hums l j (f l)) _ _

@[simp] theorem State.writeLanes_fns (s : State) (live : Word) (j : Nat) (f : Nat → Word) :
    (s.writeLanes live j f).fns = s.fns := foldl_fixes State.fns _ (fun t l => t.setLreg_fns l j (f l)) _ _

@[simp] theorem State.endMem_hums (s : State) : s.endMem.hums = s.hums := rfl

@[simp] theorem State.endMem_fns (s : State) : s.endMem.fns = s.fns := rfl

/-- The result of a scrub is in its group's registers: hummocks and functions are as before. -/
theorem State.scrubResult_frame (s : State) (r : GRef) (seq : Nat) :
    (s.scrubResult r seq).hums = s.hums ∧ (s.scrubResult r seq).fns = s.fns := by
  unfold State.scrubResult
  dsimp only
  split
  · split
    · simp
    · exact ⟨rfl, rfl⟩
  · exact ⟨rfl, rfl⟩

end Sys2Proof.Machine
end

section
/-! PROOF. Writes of the tenancy registers, the end of a scrub, and the swap of the dirty bitmap's buffers. -/

namespace Sys2Proof.Machine

open Sys2Proof.Safety

section

variable {s : State} {h f i v q k : Nat}

/-! ### Registers of a hummock (07_work_creation.md R172, 16_tenants.md R378, R379, R382) -/

/-- A register of a hummock that does not exist takes no write. -/
theorem exec_tenancyWrite_outside (hh : 8 ≤ h) {j : Instr}
    (hj : j ∈ [Instr.partWrite h f v, .connmatWrite h i v, .waymaskWrite h v, .shareWrite h q k v]) : exec j s = .next s := by
  have hno : decide (h < 8) = false := decide_eq_false (Nat.not_lt.mpr hh)
  simp only [List.mem_cons, List.not_mem_nil, or_false] at hj
  obtain rfl | rfl | rfl | rfl := hj
  · change execPartWrite h f v s = _
    simp [execPartWrite, hno]
  · change execConnmatWrite h i v s = _
    simp [execConnmatWrite, hno]
  · change execWaymaskWrite h v s = _
    simp [execWaymaskWrite, Nat.not_lt.mpr hh]
  · change execShareWrite h q k v s = _
    simp [execShareWrite, hno]

theorem exec_partWrite_inside (hh : h < 8) (hf : f < 64) : exec (.partWrite h f v) s = .next (s.writePart h f v) :=
  congrArg Host.Outcome.next (if_pos (by simp [hh, hf]))

theorem exec_connmatWrite_inside (hh : h < 8) (hi : i < 16) : exec (.connmatWrite h i v) s =
    .next (s.modRegs h (fun r => { r with connmat := mset r.connmat i (v % 65536) })) :=
  congrArg Host.Outcome.next (if_pos (by simp [hh, hi]))

theorem exec_waymaskWrite_inside (hh : h < 8) : exec (.waymaskWrite h v) s = .next (s.writeWays h v) :=
  congrArg Host.Outcome.next (if_pos hh)

/-- One SHARE field is written where the sum over the package allows it (R172). -/
theorem exec_shareWrite_inside (hh : h < 8) (hq : q < 128) (hk : k < 86) : exec (.shareWrite h q k v) s =
    .next (s.modQueue h q (fun y => if s.sharesBut h q k + v % 65536 ≤ 224
      then { y with share := mset y.share k (v % 65536) } else { y with refused := true })) := by
  refine (congrArg Host.Outcome.next (if_pos (by simp [hh, hq, hk]))).trans ?_
  simp only [State.writeShares, List.all_cons, List.all_nil, Bool.and_true, decide_eq_true_eq, List.foldl_cons, List.foldl_nil]
  split <;> rfl

/-! ### The dirty bitmap (R395) -/

theorem exec_dbmswap_busy (hb : (s.fnAt f).dbmBusy = true) : exec (.dbmswap f) s = .next s :=
  congrArg Host.Outcome.next (if_pos hb)

theorem exec_dbmswap_idle (hb : (s.fnAt f).dbmBusy = false) : exec (.dbmswap f) s = .next (s.setFn f { s.fnAt f with
    dbmBusy := true, dbmFlip := false, dbmNext := (s.chipTime + 2000 + 999) / 1000 * 1000 }) :=
  congrArg Host.Outcome.next (if_neg (by simp [hb]))

/-! ### The end of a scrub (R386, R391) -/

theorem exec_scrubComplete {c g : Nat} {x : Scrub} (hx : s.scrubOf { h := h, c := c, g := g } = some x) :
    exec (.scrubComplete h c g) s = .next (if x.signing then (s.scrubToken (ScrubDesc.of x.desc) x).scrubResult x.who x.seq
      else s.scrubCleared (ScrubDesc.of x.desc)) := by
  change execScrubComplete h c g s = _
  rw [execScrubComplete, hx]

theorem exec_scrubComplete_none {c g : Nat} (hx : s.scrubOf { h := h, c := c, g := g } = none) :
    exec (.scrubComplete h c g) s = .next s := by
  change execScrubComplete h c g s = _
  rw [execScrubComplete, hx]

end

/-! ### The events (R172, R378, R379, R382, R386, R391, R395) -/

/-- Settles O51: each register's write is its rule's choice; a scrub's hummocks each change once; the swap instant is the first
multiple of 1 µs that is far enough ahead. -/
theorem tenancyEventsAct : Obligations.TenancyEventsAct := by
  intro s h c g f i v q k
  refine ⟨fun hh j hj => exec_tenancyWrite_outside hh hj, fun hh hf => exec_partWrite_inside hh hf,
    fun hh hi => exec_connmatWrite_inside hh hi, fun hh => exec_waymaskWrite_inside hh,
    fun hh hq hk => exec_shareWrite_inside hh hq hk, exec_scrubComplete_none, fun x hx => ⟨fun hs => ?cleared, fun hs => ?signed⟩,
    exec_dbmswap_busy, fun hb => ⟨_, exec_dbmswap_idle hb, ?_, ?_, ?_⟩, waitEnds_of_ite rfl, waitEnds_of_ite rfl⟩
  case cleared =>
    refine ⟨s.scrubCleared (ScrubDesc.of x.desc), ?_, rfl, State.scrubCleared_mem _ _, fun a ha => ?_⟩
    · rw [exec_scrubComplete hx, if_neg (by simp [hs])]
    · obtain ⟨y, hy⟩ := s.humAt_scrubCleared ha
      rw [hy]
      exact ⟨rfl, rfl, rfl, HumRegs.en_partAt_scrubMove _ _⟩
  case signed =>
    obtain ⟨hhums, hfns⟩ := (s.scrubToken (ScrubDesc.of x.desc) x).scrubResult_frame x.who x.seq
    refine ⟨(s.scrubToken (ScrubDesc.of x.desc) x).scrubResult x.who x.seq, ?_, rfl, by simp, fun hin => ?_, fun a ha => ?_⟩
    · rw [exec_scrubComplete hx, if_pos hs]
    · obtain ⟨htok, hseq⟩ := s.fnAt_scrubToken x hin
      rw [State.fnAt, hfns, ← State.fnAt, htok]
      exact ⟨hseq, s.length_tokenOf _⟩
    · rw [State.humAt, hhums, ← State.humAt]
      exact s.scrub_scrubToken x ha
  all_goals omega

end Sys2Proof.Machine
end

section
/-! SUPPORT. The units of a core and its hummock: launch barrier entries, the draw of a bin, and a card in its queue
(07_work_creation.md R147, R148, R160; 12_synchronisation.md R278, R279). -/

namespace Sys2Proof.Machine

open Sys2Proof.Safety

/-- An event that chooses between a state and the one it began in. -/
theorem waitEnds_of_choice {i : Instr} {s u : State} {b : Bool} (h : exec i s = if b = true then .next u else .next s) :
    WaitEnds i s b u := by
  cases b <;> exact ⟨by simp [h], by simp [h]⟩

/-- As `waitEnds_of_choice`, where the event tests what keeps it. -/
theorem waitEnds_of_unless {i : Instr} {s u : State} {b : Bool} (h : exec i s = if b = true then .next s else .next u) :
    WaitEnds i s (!b) u := by
  cases b <;> exact ⟨by simp [h], by simp [h]⟩

/-! ### Launch barrier entries (R279) -/

section

variable {s : State} {h l x i : Nat}

theorem lbAt_of_lctxOf (hx : s.lctxOf h l = some x) (i : Nat) :
    s.lbAt h l i = some (4 * x + i, mget {} (s.humAt h).lbars (4 * x + i)) := by
  rw [State.lbAt, hx, Option.map_some]

theorem modLb_of_lctxOf (hx : s.lctxOf h l = some x) (f : Gbar → Gbar) : s.modLb h l i f =
    if (mget {} (s.humAt h).lbars (4 * x + i)).valid then
      s.setHum h { s.humAt h with lbars := mset (s.humAt h).lbars (4 * x + i) (f (mget {} (s.humAt h).lbars (4 * x + i))) }
    else s := by
  rw [State.modLb, lbAt_of_lctxOf hx]

/-- A hummock's forwarding to a root of the package takes place where they differ and both entries are valid. -/
theorem exec_lbForward {y : Nat} (hroot : (s.launchAt l).root < 8) (hx : s.lctxOf h l = some x)
    (hy : s.lctxOf (s.launchAt l).root l = some y) : exec (.lbForward l h i) s =
      let e : Gbar := mget {} (s.humAt h).lbars (4 * x + i)
      let a : Gbar := mget {} (s.humAt (s.launchAt l).root).lbars (4 * y + i)
      if h = (s.launchAt l).root ∨ e.valid = false ∨ a.valid = false then .next s
      else .next ((s.modLb h l i (fun b => { b with arrived := 0, retired := 0, back := 0 })).modLb (s.launchAt l).root l i
        (fun r => r.take e.arrived e.retired e.back e.phcnt)) := by
  change execLbForward l h i s = _
  rw [execLbForward, lbAt_of_lctxOf hx, lbAt_of_lctxOf hy]
  refine (if_neg (Nat.not_le.mpr hroot)).trans (ite_congr ?_ (fun _ => rfl) (fun _ => rfl))
  simp only [Bool.or_eq_true, decide_eq_true_eq, Bool.not_eq_true', or_assoc]

theorem exec_lbForward_still {y : Nat} (hroot : (s.launchAt l).root < 8) (hx : s.lctxOf h l = some x)
    (hy : s.lctxOf (s.launchAt l).root l = some y)
    (hno : h = (s.launchAt l).root ∨ (mget {} (s.humAt h).lbars (4 * x + i) : Gbar).valid = false
      ∨ (mget {} (s.humAt (s.launchAt l).root).lbars (4 * y + i) : Gbar).valid = false) :
    exec (.lbForward l h i) s = .next s := by
  rw [exec_lbForward hroot hx hy]
  exact if_pos hno

theorem exec_lbForward_away (hroot : 8 ≤ (s.launchAt l).root) (hh : h < 8) : exec (.lbForward l h i) s =
    .next (s.modLb h l i (fun b => { b with arrived := 0, retired := 0, back := 0 })) := by
  change execLbForward l h i s = _
  rw [execLbForward]
  exact (if_pos hroot).trans (congrArg Host.Outcome.next (if_pos hh))

/-- What a forwarding hummock and the root then hold. -/
theorem runs_lbForward {y : Nat} (hroot : (s.launchAt l).root < 8) (hx : s.lctxOf h l = some x)
    (hy : s.lctxOf (s.launchAt l).root l = some y) (hne : h ≠ (s.launchAt l).root)
    (he : (mget {} (s.humAt h).lbars (4 * x + i) : Gbar).valid = true)
    (ha : (mget {} (s.humAt (s.launchAt l).root).lbars (4 * y + i) : Gbar).valid = true) :
    let e : Gbar := mget {} (s.humAt h).lbars (4 * x + i)
    Runs (.lbForward l h i) s (fun t =>
      mget {} (t.humAt (s.launchAt l).root).lbars (4 * y + i)
        = (mget {} (s.humAt (s.launchAt l).root).lbars (4 * y + i) : Gbar).take e.arrived e.retired e.back e.phcnt
      ∧ mget {} (t.humAt h).lbars (4 * x + i) = { e with arrived := 0, retired := 0, back := 0 }
      ∧ t.cores = s.cores ∧ t.mem = s.mem ∧ t.fns = s.fns) := by
  intro e
  have hsent := modLb_of_lctxOf (i := i) hx (fun b => { b with arrived := 0, retired := 0, back := 0 })
  rw [if_pos he] at hsent
  have hkeep (d : Hum) : (s.setHum h d).humAt (s.launchAt l).root = s.humAt (s.launchAt l).root := by
    rw [State.humAt_setHum, if_neg (Ne.symm hne)]
  have hctx (d : Hum) : (s.setHum h d).lctxOf (s.launchAt l).root l = some y := by rw [State.lctxOf, hkeep, ← State.lctxOf, hy]
  refine ⟨_, (exec_lbForward hroot hx hy).trans (if_neg ?_), ?_⟩
  · rw [he, ha]
    exact not_or.mpr ⟨hne, by decide⟩
  rw [hsent, modLb_of_lctxOf (hctx _), hkeep, if_pos ha]
  refine ⟨?_, ?_, rfl, rfl, rfl⟩
  · rw [State.humAt_setHum_self, mget_mset_self]
  · rw [State.humAt_setHum, if_neg hne, State.humAt_setHum_self, mget_mset_self]

theorem exec_lbCompletionBroadcast {y : Nat} (hx : s.lctxOf h l = some x) (hy : s.lctxOf (s.launchAt l).root l = some y) :
    exec (.lbCompletionBroadcast l h i) s =
      let e : Gbar := mget {} (s.humAt h).lbars (4 * x + i)
      let a : Gbar := mget {} (s.humAt (s.launchAt l).root).lbars (4 * y + i)
      .next (s.setHum h { s.humAt h with lbars := mset (s.humAt h).lbars (4 * x + i) (e.reached a.phcnt a.dormant) }) := by
  change execLbCompletionBroadcast l h i s = _
  rw [execLbCompletionBroadcast, lbAt_of_lctxOf hx, lbAt_of_lctxOf hy]

/-- A launch's barriers break on every hummock, with the groups that wait at them (R278). -/
theorem State.breakLbs_all (s : State) (l : Nat) : s.breakLbs l (fun _ => true) =
    let broken := fun (e : Nat × Hum) => (e.1, { e.2 with lbars := e.2.lbars.map (fun (p : Nat × Gbar) =>
      if mget 0 e.2.ctxs (p.1 / 4) = l then (p.1, if p.2.valid then { p.2 with broken := true } else p.2) else p) })
    ({ s with hums := s.hums.map broken } : State).breakGroups (fun v bar => v.launch == l && decide (20 ≤ bar)) := by
  simp only [State.breakLbs, Gbar.breakIt, Bool.and_true, decide_eq_true_eq]

end

/-! ### The draw of a bin (R147, R148) -/

theorem length_insertBy (key : Nat → Nat) (x : Nat) (ys : List Nat) : (insertBy key x ys).length = ys.length + 1 := by
  induction ys with
  | nil => rfl
  | cons y ys ih =>
    rw [insertBy]
    split
    · rfl
    · rw [List.length_cons, ih, List.length_cons]

theorem length_sortBy (key : Nat → Nat) (xs : List Nat) : (sortBy key xs).length = xs.length := by
  have hfold (xs ys : List Nat) : (xs.foldl (fun ys x => insertBy key x ys) ys).length = ys.length + xs.length := by
    induction xs generalizing ys with
    | nil => rfl
    | cons x xs ih => rw [List.foldl_cons, ih, length_insertBy, List.length_cons]; omega
  rw [sortBy, hfold, List.length_nil, Nat.zero_add]

/-- A draw takes 32 threads at most. -/
theorem Core.length_drawn_le (k : Core) (now : Nat) (b : Bin) : (k.drawn now b).length ≤ 32 := by
  rw [Core.drawn, length_sortBy, List.length_take]
  exact Nat.min_le_left _ _

@[simp] theorem Core.serveBins_groups (k : Core) : k.serveBins.groups = k.groups := by
  obtain ⟨sl, bs, hk⟩ := (Rebinned.serveBins k).only
  rw [hk]

/-- The group that a core draws, and the core with it: its threads left their bin, and the bins are served. -/
theorem Core.draw_eq_some {k : Core} {now uc p i y : Nat} {x : Bin} (hp : k.drawPipe = some p) (hb : k.drawBin now = some (i, x))
    (hy : (List.range 64).find? (fun a => (mfind k.groups a).isNone) = some y) : k.draw now uc =
      some ({ (k.enterGroup (k.drawn now x)).leaveBin i x (k.drawn now x) with
        groups := mset k.groups y (newGroup (mget {} k.wgs x.wg) x p (k.binAgeOf now x) uc (k.drawn now x)) } : Core).serveBins := by
  simp only [Core.draw, hp, hb, hy]
  rfl

theorem Core.draw_eq_none {k : Core} {now uc : Nat} (h : k.drawPipe = none ∨ k.drawBin now = none
    ∨ ∀ a, a < 64 → (mfind k.groups a).isSome = true) : k.draw now uc = none := by
  rcases h with h | h | h
  · simp only [Core.draw, h]
  · simp only [Core.draw, h]
    cases k.drawPipe <;> rfl
  · have hfull : (List.range 64).find? (fun a => (mfind k.groups a).isNone) = none :=
      List.find?_eq_none.mpr fun a ha => by simpa [← Option.isSome_iff_ne_none] using h a (List.mem_range.mp ha)
    simp only [Core.draw, hfull]
    cases k.drawPipe <;> cases k.drawBin now <;> rfl

theorem exec_binDraw_none {s : State} {h c : Nat} (hno : (s.coreAt h c).status ≠ .running
    ∨ (s.coreAt h c).draw (s.cycles h) s.uc = none) : exec (.binDraw h c) s = .next s := by
  have hnone : (if (s.coreAt h c).status == .running then (s.coreAt h c).draw (s.cycles h) s.uc else none) = none := by
    rcases hno with hr | hd
    · rw [if_neg (by simpa using hr)]
    · rw [hd, ite_self]
  change execBinDraw h c s = _
  simp only [execBinDraw, hnone]

theorem exec_binDraw_some {s : State} {h c : Nat} {k' : Core} (hr : (s.coreAt h c).status = .running)
    (hd : (s.coreAt h c).draw (s.cycles h) s.uc = some k') : exec (.binDraw h c) s =
      .next (if (s.coreAt h c).drawsFresh (s.cycles h) then (s.setCoreAt h c k').acquireAt h c else s.setCoreAt h c k') := by
  change execBinDraw h c s = _
  simp only [execBinDraw, hr, beq_self_eq_true, if_true, hd]

theorem State.acquireAt_groups (s : State) (h c : Nat) : ((s.acquireAt h c).coreAt h c).groups = (s.coreAt h c).groups := by
  rw [State.acquireAt, State.coreAt_setCoreAt_self]

end Sys2Proof.Machine
end

section
/-! PROOF. The events of a core and its barriers each act where their condition holds, and change nothing where it does not. -/

namespace Sys2Proof.Machine

open Sys2Proof.Safety

section

variable {s : State} {h c : Nat}

/-! ### Barriers (12_synchronisation.md R269, R279) -/

theorem waitEnds_wbarPhase {b : Nat} (w : Nat) (hc : c < 64) (hb : b < 16) : WaitEnds (.barrierPhaseComplete h c w b) s
    (s.barView h c w b).complete
    (s.modWbar h c w b (fun y => { y with arrived := 0, phcnt := y.phcnt + 1, dormant := y.members == 0 })) :=
  waitEnds_of_ite (if_pos (by simp [hc, hb]))

/-- Gang barrier `j` is barrier 16 + `j` of its workgroup. -/
theorem waitEnds_gbarPhase {j : Nat} (w : Nat) (hj : j < 4) :
    let gk := 4 * (if c < 64 then (mget {} (s.coreAt h c).wgs w : Wg).gctx else w) + j
    WaitEnds (.barrierPhaseComplete h c w (16 + j)) s (mget {} (s.humAt h).gbars gk : Gbar).complete
      (s.setHum h { s.humAt h with gbars := mset (s.humAt h).gbars gk (mget {} (s.humAt h).gbars gk : Gbar).next }) := by
  refine waitEnds_of_ite ?_
  change execBarrierPhaseComplete h c w (16 + j) s = _
  rw [execBarrierPhaseComplete]
  have hw : ¬ (decide (c < 64) && decide (16 + j < 16)) = true := by simp
  have hg : 16 + j < 20 := by omega
  simp only [if_neg hw, if_pos hg, Nat.add_sub_cancel_left]

/-- Launch barrier `j` is barrier 20 + `j` of its workgroup. -/
theorem waitEnds_lbarPhase (w j : Nat) :
    let lk := 4 * (if c < 64 then (mget {} (s.coreAt h c).wgs w : Wg).lctx else w) + j
    WaitEnds (.barrierPhaseComplete h c w (20 + j)) s (mget {} (s.humAt h).lbars lk : Gbar).complete
      (s.setHum h { s.humAt h with lbars := mset (s.humAt h).lbars lk (mget {} (s.humAt h).lbars lk : Gbar).next }) := by
  refine waitEnds_of_ite ?_
  change execBarrierPhaseComplete h c w (20 + j) s = _
  rw [execBarrierPhaseComplete]
  have hw : ¬ (decide (c < 64) && decide (20 + j < 16)) = true := by simp; omega
  have hg : ¬ 20 + j < 20 := by omega
  simp only [if_neg hw, if_neg hg, Nat.add_sub_cancel_left]

theorem exec_sidebandPathLoss (l : Nat) : exec (.sidebandPathLoss l h) s =
    if ((s.launchAt l).rect.contains h || (s.launchAt l).cells.contains h) && h != (s.launchAt l).root then
      .next (s.breakLbs l (fun _ => true)) else .next s := rfl

/-! ### Channels (R286) -/

section

variable {w q : Nat} {x : Chan} (hx : mget {} (mget {} (s.coreAt h c).wgs w : Wg).chans q = x)

include hx

theorem exec_channelSlotFreed_none (hno : x.rcv = false ∨ x.freed = 0) : exec (.channelSlotFreed h c w q) s = .next s := by
  subst hx
  refine if_neg ?_
  rcases hno with h0 | h0 <;> rw [h0] <;> simp

/-- The receiver gives one slot back, and the sender, where it is resident, has it. -/
theorem exec_channelSlotFreed_some (hr : x.rcv = true) (hf : x.freed ≠ 0) : exec (.channelSlotFreed h c w q) s =
      let u := s.modChan { h := h, c := c, g := w } q (fun y => { y with freed := y.freed - 1 })
      .next (match u.findWg (mget {} (s.coreAt h c).wgs w : Wg).launch x.peer with
        | none => u
        | some p => u.modChan p q (fun y => { y with full := y.full - 1 })) := by
  subst hx
  refine (if_pos ?_).trans ?_
  · rw [hr, Bool.true_and, bne_iff_ne]
    exact hf
  · dsimp only
    generalize State.findWg _ _ _ = p
    cases p <;> rfl

end

/-! ### Bins (07_work_creation.md R147) -/

theorem waitEnds_binAgeThreshold (b : Nat) :
    let k := s.coreAt h c
    let x : Bin := mget {} k.bins b
    WaitEnds (.binAgeThreshold h c b) s (x.ready.isSome != k.binReady (s.cycles h) x)
      (s.setCoreAt h c { k with bins := mset k.bins b { x with
        ready := if k.binReady (s.cycles h) x then some (s.cycles h) else none } }) := by
  refine ⟨fun hne => if_neg (bne_iff_ne.mp hne), fun heq => if_pos ?_⟩
  rwa [bne_eq_false_iff_eq] at heq

/-! ### Cards (R160) -/

theorem exec_cardReceive_none {n : Nat} (hn : s.cards[n]? = none) : exec (.cardReceive n) s = .next s := by
  change execCardReceive n s = _
  rw [execCardReceive, hn]

theorem exec_cardReceive {n : Nat} {x : Card} (hn : s.cards[n]? = some x) : exec (.cardReceive n) s =
    if x.seq.isSome || (s.fnAt x.fn).ck.out_ || !(s.cardAllowed x) then .next s
    else
      let u : State := { (s.numberCard x).1 with cards := s.cards.set n (s.numberCard x).2 }
      .next (if x.poster.isNone && (u.fnAt x.fn).ck.en then
          u.setFn x.fn { u.fnAt x.fn with ck := { (u.fnAt x.fn).ck with cardsIn := (u.fnAt x.fn).ck.cardsIn ++ [x] } }
        else u) := by
  change execCardReceive n s = _
  rw [execCardReceive, hn]

theorem exec_cardReceive_still {n : Nat} {x : Card} (hn : s.cards[n]? = some x)
    (hno : x.seq.isSome = true ∨ (s.fnAt x.fn).ck.out_ = true ∨ s.cardAllowed x = false) : exec (.cardReceive n) s = .next s := by
  rw [exec_cardReceive hn]
  refine if_pos ?_
  rcases hno with h0 | h0 | h0 <;> rw [h0] <;> simp

/-- A card that its queue takes is numbered; what a checkpointed function remembers of it is in the function. -/
theorem runs_cardReceive {n : Nat} {x : Card} (hn : s.cards[n]? = some x) (hseq : x.seq = none)
    (hout : (s.fnAt x.fn).ck.out_ = false) (hok : s.cardAllowed x = true) : Runs (.cardReceive n) s (fun t =>
      t.cards = s.cards.set n (s.numberCard x).2 ∧ t.hums = (s.numberCard x).1.hums ∧ t.cores = s.cores ∧ t.mem = s.mem) := by
  refine ⟨_, (exec_cardReceive hn).trans (if_neg (by simp [hseq, hout, hok])), ?_⟩
  split <;> exact ⟨rfl, rfl, rfl, rfl⟩

/-! ### Cached translations (09_translation_leases.md R211, R213) -/

theorem any_expired {α : Type} (e : α → Nat) (now : Nat) (ts : List α) :
    ts.any (fun t => decide (e t ≤ now)) = !(ts.all fun t => decide (now < e t)) := by
  simp only [List.any_eq_not_all_not, ← decide_not, Nat.not_le]

theorem waitEnds_tlbLeaseExpiry (hc : c < 64) :
    let k := s.coreAt h c
    WaitEnds (.tlbLeaseExpiry h c) s (k.tlb.any (fun e => decide (e.expiry ≤ s.chipTime)))
      (s.setCoreAt h c { k with tlb := k.tlb.filter (fun e => decide (s.chipTime < e.expiry)) }) := by
  intro k
  rw [any_expired Tlb.expiry]
  exact waitEnds_of_unless (if_pos hc)

theorem waitEnds_tlbLeaseExpiry_base :
    let d := s.humAt h
    WaitEnds (.tlbLeaseExpiry h 64) s (d.tlb.any (fun e => decide (e.expiry ≤ s.chipTime))
        || d.wcache.any (fun e => decide (e.2.expiry ≤ s.chipTime)))
      (s.setHum h { d with
        tlb := d.tlb.filter (fun e => decide (s.chipTime < e.expiry))
        wcache := d.wcache.filter (fun e => decide (s.chipTime < e.2.expiry)) }) := by
  intro d
  rw [any_expired Tlb.expiry, any_expired (fun e : Nat × WalkCache => e.2.expiry), ← Bool.not_and]
  exact waitEnds_of_unless rfl

theorem exec_l1CopyExpiry_none {line : Nat} (hl : mfind (s.coreAt h c).l1 line = none) :
    exec (.l1CopyExpiry h c line) s = .next s := by
  change execL1CopyExpiry h c line s = _
  rw [execL1CopyExpiry, hl]

theorem waitEnds_l1CopyExpiry {line : Nat} {x : L1Line} (hl : mfind (s.coreAt h c).l1 line = some x) :
    WaitEnds (.l1CopyExpiry h c line) s (decide (x.time + 4096 ≤ s.chipTime))
      (s.setCoreAt h c { s.coreAt h c with l1 := mdel (s.coreAt h c).l1 line }) := by
  refine waitEnds_of_choice ?_
  change execL1CopyExpiry h c line s = _
  simp only [execL1CopyExpiry, hl, decide_eq_true_eq]
  rfl

end

/-! ### The events of a core -/

/-- Settles O46: each event is a choice between what its condition asks for and the state it began in. -/
theorem coreEventsAct : Obligations.CoreEventsAct := by
  intro s h c w b l n line q k v
  refine ⟨fun hc hb => waitEnds_wbarPhase w hc hb, fun j hj => ⟨waitEnds_gbarPhase w hj, waitEnds_lbarPhase w j⟩,
    fun i x y hx hy _ => ⟨fun hz hno => exec_lbForward_still hz hx hy hno,
      fun hz hne he ha => runs_lbForward hz hx hy hne he ha, exec_lbCompletionBroadcast hx hy⟩,
    fun i x hz hh _ hx => ?away, ⟨fun hno => ?sideNo, fun hin hne => ?side⟩, ⟨exec_channelSlotFreed_none rfl, fun hr hf => ?chan⟩,
    waitEnds_binAgeThreshold b, fun p i x y hr hp hb hy => ?draw, fun hno => ?drawNo, waitEnds_of_choice rfl,
    exec_cardReceive_none, fun x hx => ⟨exec_cardReceive_still hx, runs_cardReceive hx⟩, waitEnds_of_choice rfl,
    exec_l1CopyExpiry_none, fun x hx => waitEnds_l1CopyExpiry hx, waitEnds_tlbLeaseExpiry, waitEnds_tlbLeaseExpiry_base,
    waitEnds_of_choice rfl, waitEnds_of_choice rfl⟩
  case away => rw [exec_lbForward_away hz hh, modLb_of_lctxOf hx]
  case sideNo =>
    refine (exec_sidebandPathLoss l).trans (if_neg ?_)
    rcases hno with ⟨hr, hcell⟩ | hroot
    · simp [hr, hcell]
    · simp [← hroot]
  case side =>
    refine ⟨_, (exec_sidebandPathLoss l).trans (if_pos ?_), _, s.breakLbs_all l, rfl⟩
    simp [hin, hne]
  case chan =>
    refine ⟨_, exec_channelSlotFreed_some rfl hr hf, ?_, ?_, rfl⟩ <;> split <;> rfl
  case draw =>
    have hd := Core.draw_eq_some (uc := s.uc) hp hb hy
    have hfresh : k.drawsFresh (s.cycles h) = (k.drawn (s.cycles h) x).any (fun a => (mget {} k.slots a).fresh) := by
      rw [Core.drawsFresh, hb]
    refine ⟨_, exec_binDraw_some hr hd, k.length_drawn_le _ _, ?_, ?_⟩
    · split <;> simp [State.acquireAt_groups]
    · rw [hfresh]
      rfl
  case drawNo =>
    refine exec_binDraw_none ?_
    rcases hno with hr | hno
    · exact .inl hr
    · exact .inr (Core.draw_eq_none hno)

end Sys2Proof.Machine
end

section
/-! SUPPORT. The steps of a launch at the dispatcher, and what set-up and the ends leave (07_work_creation.md R160, R163 to R168;
15_traps_preemption.md R376). -/

namespace Sys2Proof.Machine

open Sys2Proof.Safety

variable {s : State} {h c w q l : Nat}

/-! ### Conditions of the dispatcher -/

theorem mayDispatch_iff (s : State) (f : Nat) : s.mayDispatch f = true ↔
    s.pkg.up = true ∧ s.pkg.domrdy = true ∧ (s.fnAt f).ck.state = .run ∧ (s.fnAt f).ck.out_ = false := by
  simp only [State.mayDispatch, Bool.and_eq_true, beq_iff_eq, Bool.not_eq_true', and_assoc]

/-- A step of a launch does nothing out of its phase, or while its function may not work. -/
theorem not_phase_and_mayDispatch {x : Launch} {p : Phase} (hno : x.phase ≠ p ∨ s.mayDispatch x.fn = false) :
    ¬ (x.phase == p && s.mayDispatch x.fn) = true := by
  rcases hno with h0 | h0 <;> simp [h0]

theorem phase_and_mayDispatch {x : Launch} {p : Phase} (hp : x.phase = p) (hm : s.mayDispatch x.fn = true) :
    (x.phase == p && s.mayDispatch x.fn) = true := by
  simp [hp, hm]

/-! ### The record at HEAD (R163, R165) -/

/-- Whether the dispatcher takes a record from a queue: it is enabled for records and free, has one, and its function may work. -/
def State.takesRecord (s : State) (y : HwQueue) : Bool :=
  y.en && !y.cardq && y.busy.isNone && y.head != y.tail && s.mayDispatch y.fn

/-- The read of the record at the HEAD of a queue. -/
def State.headRead (s : State) (h : Nat) (y : HwQueue) : State × Got (List Byte) :=
  s.devRead h y.fn (y.base / 4096 * 4096 + 64 * y.head) 64

theorem exec_launchRecordTake_still (hgo : s.takesRecord (mget {} (s.humAt h).queues q) = false) :
    exec (.launchRecordTake h q) s = .next s := if_neg (Bool.eq_false_iff.mp hgo)

section

variable {y : HwQueue} (hy : mget {} (s.humAt h).queues q = y) (hgo : s.takesRecord y = true)

include hy hgo

theorem exec_launchRecordTake_hold {t : State} (hr : s.headRead h y = (t, .hold)) : exec (.launchRecordTake h q) s = .next s := by
  subst hy
  unfold State.headRead at hr
  refine (if_pos hgo).trans ?_
  simp only [hr]

theorem exec_launchRecordTake_unread {t : State} (hr : s.headRead h y = (t, .none)) : exec (.launchRecordTake h q) s =
    .next ((t.modQueue h q (fun a => { a with head := (y.head + 1) % 2 ^ (a.size + 6) })).logErr y.fn 11 h y.head 0) := by
  subst hy
  unfold State.headRead at hr
  refine (if_pos hgo).trans ?_
  simp only [hr]

theorem exec_launchRecordTake_unready {t u : State} {b : List Byte} (hr : s.headRead h y = (t, .ok b))
    (hl : t.readLaunch y.fn h q b = (u, .hold)) : exec (.launchRecordTake h q) s = .next s := by
  subst hy
  unfold State.headRead at hr
  refine (if_pos hgo).trans ?_
  simp only [hr, hl]

theorem exec_launchRecordTake_read {t u : State} {b : List Byte} {k : Launch} (hr : s.headRead h y = (t, .ok b))
    (hl : t.readLaunch y.fn h q b = (u, .ok k)) : exec (.launchRecordTake h q) s = .next (u.takeRecord h q y.head k) := by
  subst hy
  unfold State.headRead at hr
  refine (if_pos hgo).trans ?_
  simp only [hr, hl]

end

/-- A taken record is the package's next launch, and holds its queue. -/
theorem State.takeRecord_law (s : State) (h q n : Nat) (k : Launch) :
    let t := s.takeRecord h q n k
    t.launchAt s.pkg.nextId = k ∧ t.pkg.nextId = s.pkg.nextId + 1
      ∧ mget {} (t.humAt h).queues q = { (mget {} (s.humAt h).queues q : HwQueue) with
          head := (n + 1) % 2 ^ ((mget {} (s.humAt h).queues q : HwQueue).size + 6), busy := some s.pkg.nextId } := by
  refine ⟨mget_mset_self _ _ _ _, rfl, ?_⟩
  unfold State.takeRecord State.modQueue
  rw [State.humAt_setHum_self, mget_mset_self]
  rfl

/-- A record with a field out of its limits becomes a launch that ends with BAD_RECORD. -/
theorem readLaunch_of_not_recordOk {b : List Byte} (hb : recordOk b = false) (s : State) (f : Nat) :
    (s.readLaunch f h q b).2 = .ok ((launchOf f h q b).failed stBadRecord) := by
  rw [State.readLaunch, hb]
  rfl

/-! ### Step 1: the rectangle (R165, R166) -/

theorem exec_rectClaim_still (hno : (s.launchAt l).phase ≠ .claim ∨ mfind s.launches l = none
    ∨ s.mayDispatch (s.launchAt l).fn = false) : exec (.rectClaim l) s = .next s := by
  refine if_neg ?_
  rcases hno with h0 | h0 | h0 <;> simp [h0]

section

variable (hp : (s.launchAt l).phase = .claim) (hl : (mfind s.launches l).isSome = true)
  (hm : s.mayDispatch (s.launchAt l).fn = true)

include hp hl hm

theorem claims : ((s.launchAt l).phase == .claim && (mfind s.launches l).isSome && s.mayDispatch (s.launchAt l).fn) = true := by
  simp [hp, hl, hm]

/-- NO_RECT: no rectangle is admissible. -/
theorem exec_rectClaim_none (hc : s.candidates (s.launchAt l) = []) :
    exec (.rectClaim l) s = .next (s.setLaunch l ((s.launchAt l).failed 2)) := by
  refine (if_pos (claims hp hl hm)).trans ?_
  simp only [hc]

/-- No admissible rectangle has room on every hummock yet. -/
theorem exec_rectClaim_full (hc : s.candidates (s.launchAt l) ≠ [])
    (hf : (s.candidates (s.launchAt l)).find? (fun hs => hs.all (s.hasRoom l)) = none) : exec (.rectClaim l) s = .next s := by
  refine (if_pos (claims hp hl hm)).trans ?_
  cases hcs : s.candidates (s.launchAt l) with
  | nil => exact absurd hcs hc
  | cons a as =>
    rw [hcs] at hf
    simp only [hf]

/-- The first rectangle with room is claimed, unless a card queue of it does not qualify. -/
theorem exec_rectClaim_some {hs : List Nat}
    (hf : (s.candidates (s.launchAt l)).find? (fun hs => hs.all (s.hasRoom l)) = some hs) : exec (.rectClaim l) s =
      let x := s.launchAt l
      let here := hs.filter (fun a => decide (a < 8))
      .next (if x.cardq != 0xFFFF && !(hs.all (s.cardQueueOk x.fn x.cardq)) then s.setLaunch l (x.failed 4)
        else (s.takeCtxs l here).setLaunch l { x with phase := .routes, rect := here, cells := hs, root := hs.headD 0 }) := by
  refine (if_pos (claims hp hl hm)).trans ?_
  cases hcs : s.candidates (s.launchAt l) with
  | nil =>
    rw [hcs] at hf
    cases hf
  | cons a as =>
    rw [hcs] at hf
    simp only [hf]
    split <;> rfl

end

/-! ### Steps 2 and 3: routes and residency -/

theorem exec_routeLoad_still {ok : Bool} (hno : (s.launchAt l).phase ≠ .routes ∨ s.mayDispatch (s.launchAt l).fn = false) :
    exec (.routeLoad l ok) s = .next s := if_neg (not_phase_and_mayDispatch hno)

theorem exec_residency_still (hno : (s.launchAt l).phase ≠ .resident ∨ s.mayDispatch (s.launchAt l).fn = false) :
    exec (.residency l) s = .next s := if_neg (not_phase_and_mayDispatch hno)

section

variable (hm : s.mayDispatch (s.launchAt l).fn = true)

include hm

theorem exec_routeLoad_ok (hp : (s.launchAt l).phase = .routes) : exec (.routeLoad l true) s =
    .next (({ s with freeCtr := s.freeCtr + 1 } : State).setLaunch l
      { s.launchAt l with phase := .resident, routes := s.freeCtr }) :=
  (if_pos (phase_and_mayDispatch hp hm)).trans (if_pos rfl)

/-- The tables are loaded again once; a second failure is ROUTE_CHECK. -/
theorem exec_routeLoad_bad (hp : (s.launchAt l).phase = .routes) : exec (.routeLoad l false) s =
    if (s.launchAt l).reloads = 0 then .next (s.setLaunch l { s.launchAt l with reloads := 1 })
    else .next (s.setLaunch l ((s.launchAt l).failed 3)) :=
  (if_pos (phase_and_mayDispatch hp hm)).trans (if_neg Bool.false_ne_true)

theorem exec_residency_go (hp : (s.launchAt l).phase = .resident) :
    let x := s.launchAt l
    let r := s.reside x.hum x.fn l x.kernel.ranges x.waits
    exec (.residency l) s = .next (if r.lost then r.s.endLaunch l stPathLost
      else r.s.setLaunch l (if r.ok then { x with phase := .place, waits := [] } else { x with waits := r.waits })) :=
  if_pos (phase_and_mayDispatch hp hm)

end

/-! ### Step 4: placement (R167) -/

theorem exec_gangPlacement_still (hno : (s.launchAt l).phase ≠ .place ∨ (s.launchAt l).gangs ≤ (s.launchAt l).placed
    ∨ s.mayDispatch (s.launchAt l).fn = false ∨ s.gangSpot l (s.launchAt l) = none) : exec (.gangPlacement l) s = .next s := by
  by_cases hgo : ((s.launchAt l).phase == .place && decide ((s.launchAt l).placed < (s.launchAt l).gangs)
      && s.mayDispatch (s.launchAt l).fn) = true
  · refine (if_pos hgo).trans ?_
    simp only [Bool.and_eq_true, beq_iff_eq, decide_eq_true_eq] at hgo
    obtain ⟨⟨hp, hlt⟩, hm⟩ := hgo
    have hspot : s.gangSpot l (s.launchAt l) = none := by
      rcases hno with h0 | h0 | h0 | h0
      · exact absurd hp h0
      · omega
      · cases hm.symm.trans h0
      · exact h0
    simp only [hspot]
  · exact if_neg hgo

section

variable (hp : (s.launchAt l).phase = .place) (hlt : (s.launchAt l).placed < (s.launchAt l).gangs)
  (hm : s.mayDispatch (s.launchAt l).fn = true)

include hp hlt hm

theorem exec_gangPlacement_here {k : Nat} {cs : NMap Nat} (hspot : s.gangSpot l (s.launchAt l) = some (k, some cs)) :
    exec (.gangPlacement l) s = .next (s.placeGang l (s.launchAt l) k ((s.launchAt l).order.getD k 0) cs) := by
  refine (if_pos (by simp [hp, hlt, hm])).trans ?_
  simp only [hspot]

/-- A gang placed on another package's hummock is away from then on. -/
theorem exec_gangPlacement_away {k : Nat} (hspot : s.gangSpot l (s.launchAt l) = some (k, none)) :
    let x := s.launchAt l
    let z := { x with
      placed := x.placed + 1, nextHum := (k + 1) % x.order.length, fresh := []
      away := x.away ++ [(x.order.getD k 0, x.placed)] }
    exec (.gangPlacement l) s = .next (if x.kernel.nonced then s.setLaunch l { z with phase := .token } else s.fileGang l z) := by
  refine (if_pos (by simp [hp, hlt, hm])).trans ?_
  simp only [hspot]

end

theorem State.placeGang_fns (s : State) (l : Nat) (x : Launch) (k h : Nat) (cs : NMap Nat) :
    (s.placeGang l x k h cs).fns = s.fns :=
  (foldl_fixes State.fns _ (fun _ _ => State.setCoreAt_fns _ _ _ _) _ _).trans
    (foldl_fixes State.fns (fun (t : State) (e : Nat × Nat) => t.placeWg l x h e.2 e.1 _ _) (fun _ _ => rfl) _ _)

/-- What a placed gang's launch then holds. -/
theorem State.launchAt_placeGang (s : State) (l : Nat) (x : Launch) (k h : Nat) (cs : NMap Nat) :
    ∃ refs, (s.placeGang l x k h cs).launchAt l = { x with
      placed := x.placed + 1, nextHum := (k + 1) % x.order.length, fresh := refs, wgs := x.wgs ++ refs, phase := .setup } :=
  ⟨_, State.launchAt_setLaunch_self _ _ _⟩

/-! ### Step 5: set-up (R178, R181) -/

/-- Allocating barrier registers leaves every workgroup's context alone. -/
theorem State.newWbars_wgs (s : State) (x : Launch) (r : GRef) :
    ((s.newWbars x r).coreAt r.h r.c).wgs = (s.coreAt r.h r.c).wgs := by
  refine foldl_fixes (fun t : State => (t.coreAt r.h r.c).wgs) _ (fun t b => ?_) _ _
  dsimp only
  split
  · split
    · rw [State.coreAt_setCoreAt_self]
    · rfl
  · rfl

theorem State.setupWg_wg (s : State) (x : Launch) (a : GRef) :
    let v : Wg := mget {} (s.coreAt a.h a.c).wgs a.g
    mfind ((s.setupWg x a).coreAt a.h a.c).wgs a.g = some { v with
      segs := s.newSegs x v, k := x.newK, b := x.newB, binAge := x.kernel.binAge
      arr := (List.range x.kernel.wg).map (fun i => (i, { memb := x.memb i, mark := 2 ^ 24 - 1 })) } := by
  rw [State.setupWg, State.newWbars_wgs, State.coreAt_setCoreAt_self, mfind_mset_self]

/-- A gang without members here that is not the last only passes the turn on. -/
theorem State.fileGang_of_empty {x : Launch} (s : State) (l : Nat) (hf : x.fresh = []) (hlt : x.placed < x.gangs)
    (hst : x.status = none) : s.fileGang l x = s.setLaunch l { x with phase := .place } := by
  cases x
  subst hf hst
  exact if_pos (by simpa using hlt)

/-! ### Job cards (R160) -/

section

variable {y : HwQueue} (hy : mget {} (s.humAt h).queues q = y)

include hy

theorem exec_cardPlacement_still (hno : (y.en && y.cardq && y.busy.isNone) = false ∨ s.nextCard h q = none) :
    exec (.cardPlacement h q) s = .next s := by
  subst hy
  by_cases hidle : ((mget {} (s.humAt h).queues q : HwQueue).en && (mget {} (s.humAt h).queues q : HwQueue).cardq
      && (mget {} (s.humAt h).queues q : HwQueue).busy.isNone) = true
  · refine (if_pos hidle).trans ?_
    simp only [hno.resolve_left (by simp [hidle])]
  · exact if_neg hidle

theorem exec_cardPlacement_some {d : Card} (hidle : (y.en && y.cardq && y.busy.isNone) = true) (hd : s.nextCard h q = some d) :
    exec (.cardPlacement h q) s =
      let id := s.pkg.nextId
      let u : State := { s with cards := s.cards.erase d, pkg := { s.pkg with nextId := id + 1 } }
      if s.mayDispatch d.fn then
        .next ((u.setLaunch id (taskOf d)).modQueue h q (fun a => { a with busy := some id }))
      else .next s := by
  subst hy
  refine (if_pos hidle).trans ?_
  simp only [hd]

end

/-! ### Ends (R164, R376) -/

theorem exec_workgroupNormalEnd_none (hw : mfind (s.coreAt h c).wgs w = none) : exec (.workgroupNormalEnd h c w) s = .next s := by
  change execWorkgroupNormalEnd h c w s = _
  rw [execWorkgroupNormalEnd, hw]

theorem exec_workgroupNormalEnd_some {v : Wg} (hw : mfind (s.coreAt h c).wgs w = some v) : exec (.workgroupNormalEnd h c w) s =
    if v.ended && s.workDone h c w then
      .next (((s.clearWg h c w).dropGbars h).setLaunch v.launch { s.launchAt v.launch with
        wgs := (s.launchAt v.launch).wgs.erase { h := h, c := c, g := w } })
    else .next s := by
  change execWorkgroupNormalEnd h c w s = _
  rw [execWorkgroupNormalEnd, hw]

/-- A workgroup's slot and groups are gone once it is cleared. -/
theorem State.clearWg_core (s : State) (h c w : Nat) : mfind ((s.clearWg h c w).coreAt h c).wgs w = none
    ∧ ∀ e ∈ ((s.clearWg h c w).coreAt h c).groups, e.2.wgs ≠ w := by
  unfold State.clearWg
  rw [State.coreAt_setHum, State.coreAt_setCoreAt_self]
  obtain ⟨sl, bs, hk⟩ := (Rebinned.serveBins _).only
  rw [hk]
  refine ⟨?_, fun e he => ?_⟩
  · rw [mfind_mdel, if_pos rfl]
  · simpa using (List.mem_filter.mp he).2

theorem exec_launchCompletion_none (hl : mfind s.launches l = none) : exec (.launchCompletion l) s = .next s := by
  change execLaunchCompletion l s = _
  rw [execLaunchCompletion, hl]

/-- A launch that is done releases its contexts and its queue, and its record is written; a task writes none. -/
theorem waitEnds_launchCompletion {x : Launch} (hl : mfind s.launches l = some x) :
    let done := (x.phase == .running || x.phase == .ended) && x.wgs.isEmpty && !(s.runsAway l x) && !(s.hasTasks l)
      && !(s.hasReqs l) && (s.fnAt x.fn).ck.state == .run
    let t : State := { (s.dropCtxs l x).freeQueue l x with launches := mdel ((s.dropCtxs l x).freeQueue l x).launches l }
    WaitEnds (.launchCompletion l) s done (if x.task then t else (t.writeCompletion x (x.status.getD 0)).getD s) := by
  refine waitEnds_of_choice ?_
  change execLaunchCompletion l s = _
  rw [execLaunchCompletion, hl]

end Sys2Proof.Machine
end

section
/-! PROOF. The steps of a launch each act where their condition holds, and change nothing where it does not. -/

namespace Sys2Proof.Machine

open Sys2Proof.Safety

/-- Settles O49: each step is a choice on its phase and its condition, and what it then reads decides where it goes. -/
theorem launchEventsAct : Obligations.LaunchEventsAct := by
  intro s h c w q l ok x may y n go r free res spot
  refine ⟨mayDispatch_iff s, exec_launchRecordTake_still, fun hgo hr => ?recordHeld, fun hgo hr => ?recordUnread,
    fun b hgo hr => ⟨fun hl => ?imageHeld, fun k hl => ?recordTaken, fun hb => ?badRecord⟩,
    exec_rectClaim_still, fun hp hl hm => ⟨exec_rectClaim_none hp hl hm, exec_rectClaim_full hp hl hm, fun hs hf => ?rectangle⟩,
    exec_routeLoad_still, fun hp hm => ⟨exec_routeLoad_ok hm hp, fun hr => ?reload, fun hr => ?routeCheck⟩,
    exec_residency_still, fun hp hm => ⟨fun hl => ?lost, fun hl ho => ?resident, fun hl ho => ?waiting⟩,
    exec_gangPlacement_still, fun k cs hp hlt hm hs => ?placed, fun k hp hlt hm hs => exec_gangPlacement_away hp hlt hm hs,
    fun a => ⟨State.setupWg_wg s x a, rfl, rfl, fun hu => ?scratch, rfl, rfl⟩, waitEnds_of_choice ?setup, waitEnds_of_choice rfl,
    State.fileGang_of_empty s l, ⟨exec_cardPlacement_still rfl, fun d hi hd => ⟨fun hm => ?cardWaits, fun hm => ?cardTaken⟩⟩,
    exec_workgroupNormalEnd_none, fun v hv => ⟨fun hno => ?running, fun he hd => ?ended⟩,
    exec_launchCompletion_none, fun hl => waitEnds_launchCompletion hl⟩
  case recordHeld => exact exec_launchRecordTake_hold rfl hgo (Prod.ext rfl hr)
  case recordUnread => exact exec_launchRecordTake_unread rfl hgo (Prod.ext rfl hr)
  case imageHeld => exact exec_launchRecordTake_unready rfl hgo (Prod.ext rfl hr) (Prod.ext rfl hl)
  case recordTaken =>
    exact ⟨_, exec_launchRecordTake_read rfl hgo (Prod.ext rfl hr) (Prod.ext rfl hl), State.takeRecord_law _ _ _ _ _⟩
  case badRecord => exact ⟨_, readLaunch_of_not_recordOk hb _ _, rfl, rfl⟩
  case rectangle =>
    refine ⟨fun hd => ?_, fun hd => ?_⟩ <;> refine (exec_rectClaim_some hp hl hm hf).trans (congrArg Host.Outcome.next ?_)
    · exact if_pos hd
    · exact if_neg (Bool.eq_false_iff.mp hd)
  case reload => exact (exec_routeLoad_bad hm hp).trans (if_pos hr)
  case routeCheck => exact (exec_routeLoad_bad hm hp).trans (if_neg hr)
  case lost => exact (exec_residency_go hm hp).trans (congrArg Host.Outcome.next (if_pos hl))
  case resident =>
    refine (exec_residency_go hm hp).trans (congrArg Host.Outcome.next ((if_neg (Bool.eq_false_iff.mp hl)).trans ?_))
    rw [if_pos ho]
  case waiting =>
    refine (exec_residency_go hm hp).trans (congrArg Host.Outcome.next ((if_neg (Bool.eq_false_iff.mp hl)).trans ?_))
    rw [if_neg (Bool.eq_false_iff.mp ho)]
  case placed =>
    refine ⟨_, exec_gangPlacement_here hp hlt hm hs, rfl, ?_⟩
    obtain ⟨refs, hrefs⟩ := s.launchAt_placeGang l x k (x.order.getD k 0) cs
    rw [hrefs]
    exact ⟨rfl, rfl, rfl, State.placeGang_mem _ _ _ _ _ _, s.placeGang_fns _ _ _ _ _⟩
  case scratch =>
    have hp : decide (1 ≤ x.units) = true := decide_eq_true hu
    rw [State.newSegs, hp]
    rfl
  case setup =>
    change execLaunchSetup l s = _
    rw [execLaunchSetup]
    exact ite_congr rfl (fun _ => (apply_ite Host.Outcome.next _ _ _).symm) (fun _ => rfl)
  case cardWaits => exact (exec_cardPlacement_some rfl hi hd).trans (if_neg (Bool.eq_false_iff.mp hm))
  case cardTaken =>
    refine ⟨_, (exec_cardPlacement_some rfl hi hd).trans (if_pos hm), rfl, mget_mset_self _ _ _ _, rfl, ?_, rfl, rfl⟩
    unfold State.modQueue
    rw [State.humAt_setHum_self, mget_mset_self]
    rfl
  case running =>
    refine (exec_workgroupNormalEnd_some hv).trans (if_neg ?_)
    rcases hno with h0 | h0 <;> simp [h0]
  case ended =>
    obtain ⟨hwg, hgroups⟩ := s.clearWg_core h c w
    refine ⟨_, (exec_workgroupNormalEnd_some hv).trans (if_pos (by simp [he, hd])), hwg, hgroups, ?_, ?_, rfl⟩
    · rw [State.launchAt_setLaunch_self]
    · simp

end Sys2Proof.Machine
end

section
/-! SUPPORT. A walk's reads pass the L2 slices of their homes, which fill or touch the lines (16_tenants.md R382). -/

namespace Sys2Proof.Machine

open Sys2Proof.Safety

/-! ### An access moves a slice's replacement state (R30, R382) -/

theorem L2.mget_turns_fill (x : L2) {mask : Nat} (e : L2Tag) (hways : (List.range 16).filter mask.testBit ≠ []) :
    mget 0 (x.fill mask e).turns (64 * e.slice + e.fn) = mget 0 x.turns (64 * e.slice + e.fn) + 1 := by
  unfold L2.fill
  dsimp only
  split
  next hnone => exact absurd (List.getElem?_eq_none_iff.mp hnone) (Nat.not_le.mpr (Nat.mod_lt _ (List.length_pos_iff.mpr hways)))
  next => exact mget_mset_self _ _ _ _

theorem L2.mget_turns_touch (x : L2) {mask : Nat} (e : L2Tag) (hways : (List.range 16).filter mask.testBit ≠ []) :
    mget 0 (x.touch mask e).turns (64 * e.slice + e.fn) = mget 0 x.turns (64 * e.slice + e.fn) + 1 := by
  unfold L2.touch
  split
  · exact mget_mset_self _ _ _ _
  · exact x.mget_turns_fill e hways

/-- An access at a home of the package, by a function that may fill a way of the slice, changes the slice's state. -/
theorem State.l2At_l2_ne {s : State} {f pa h : Nat} {t : Tlb} (w : Bool) (hhome : s.localHum (s.homeOf t pa).1 = some h)
    (hslice : (s.homeOf t pa).2 < 64)
    (hways : (List.range 16).filter ((s.humAt h).regs.waymaskAt (s.homeOf t pa).2 f).testBit ≠ []) :
    (s.l2At f t pa w).l2 ≠ s.l2 := by
  intro heq
  have hturn := s.l2.mget_turns_touch
    { slice := 64 * h + (s.homeOf t pa).2, line := pa / 128, fn := f, policy := t.sp, dirty := w } hways
  simp only [State.l2At, State.l2Touch, hhome, if_pos hslice] at heq
  rw [heq] at hturn
  omega

/-! ### What a clean walk leaves (R30, R260, R380) -/

/-- The accesses at the L2 by which a walk reads its entries at their homes. -/
def State.l2Reads (s : State) (f : Nat) (reads : List Nat) : State := reads.foldl (fun t a => t.l2At f {} a false) s

theorem State.l2At_eq (s : State) (f : Nat) (t : Tlb) (pa : Nat) (w : Bool) : ∃ x, s.l2At f t pa w = { s with l2 := x } := by
  unfold State.l2At State.l2Touch
  split
  · split
    · exact ⟨_, rfl⟩
    · exact ⟨s.l2, rfl⟩
  · exact ⟨s.l2, rfl⟩

theorem State.drainFor_of_wins {s : State} (hwins : ∀ e ∈ s.hums, e.2.wins = []) (a n : Nat) : s.drainFor a n = s := by
  unfold State.drainFor
  rw [List.foldl_ext _ (fun t _ => t) s fun t e he => by rw [hwins e he]; rfl]
  exact List.foldl_fixed _

theorem State.drainReads_of_wins {s : State} (hwins : ∀ e ∈ s.hums, e.2.wins = []) (as : List Nat) : s.drainReads as = s :=
  foldl_keeps (fun t => t = s) _ (fun _ _ ht => ht ▸ s.drainFor_of_wins hwins _ _) _ _ rfl

/-- With no accumulator to drain, a clean walk leaves what its reads do to the L2, and no more. -/
theorem State.noteWalk_of_clean {s : State} {f : Nat} {w : Walked} (hwins : ∀ e ∈ s.hums, e.2.wins = []) (hc : CleanWalk s f w) :
    s.noteWalk f s.cur.h w = s.l2Reads f w.reads := by
  obtain ⟨hbad, hreads⟩ := hc
  unfold State.noteWalk State.l2Reads
  dsimp only
  rw [State.drainReads_of_wins hwins, hbad, List.foldl_nil]
  generalize s.cur.h = h at hreads
  generalize w.reads = as at hreads
  clear hwins hbad
  induction as generalizing s with
  | nil => rfl
  | cons a as ih =>
    obtain ⟨⟨hassigned, hpath⟩, htail⟩ := List.forall_mem_cons.mp hreads
    obtain ⟨x, hx⟩ := s.l2At_eq f {} a false
    rw [List.foldl_cons, List.foldl_cons, hassigned, hpath]
    refine ih ?_
    change ∀ b ∈ as, (s.l2At f {} a false).assigned b = true ∧ _
    rw [hx]
    exact htail

/-! ### The query (R233) -/

@[simp] theorem State.writeLanes_l2 (s : State) (live : Word) (j : Nat) (f : Nat → Word) : (s.writeLanes live j f).l2 = s.l2 :=
  foldl_fixes State.l2 _ (fun t l => t.setLreg_l2 l j (f l)) _ _

@[simp] theorem State.writeQuad_l2 (s : State) (live : Word) (a : Nat) (f : Nat → Nat) : (s.writeQuad live a f).l2 = s.l2 :=
  foldl_fixes State.l2 _ (fun t _ => t.writeLanes_l2 _ _ _) _ _

/-- `walk.q` of the issuer's own function, once every lane's walk has its answer: the L2 is as the walks leave it. -/
theorem l2_of_exec_walkQ {s t : State} {m : MReg} {a b : Reg} {s2 : Bool} (he : s.exe m ≠ 0)
    (hfault : s.faulty (512 + s.cur.h) = false)
    (hlost : ¬ ∃ l ∈ lanesOf (s.live m),
      s.walkLost s.cur.h s.accFn s.wg.launch (s.walkQuery s.accFn s2 (s.pairVa b l)).2.reads = true)
    (hsome : ∀ l ∈ lanesOf (s.live m), (s.walkQuery s.accFn s2 (s.pairVa b l)).1 ≠ none)
    (hexec : exec (.walkQ m a b 0 s2) s = .next t) :
    t.l2 = ((lanesOf (s.live m)).foldl
      (fun t l => t.noteWalk s.accFn s.cur.h (s.walkQuery s.accFn s2 (s.pairVa b l)).2) s).l2 := by
  have hnone : ¬ (lanesOf (s.live m)).any (fun l => (s.walkQuery s.accFn s2 (s.pairVa b l)).1.isNone) = true := by
    simpa [List.any_eq_true, Option.isNone_iff_eq_none] using hsome
  change execWalkQ m a b 0 s2 s = _ at hexec
  rw [← List.any_eq_true] at hlost
  simp only [execWalkQ, if_true, if_neg he, hfault, if_neg hlost, if_neg hnone, ne_eq, not_true_eq_false, decide_false,
    Bool.false_and, Bool.false_eq_true, if_false] at hexec
  obtain rfl := Host.Outcome.next.inj hexec
  rw [State.advance_l2, State.writeQuad_l2]

end Sys2Proof.Machine
end

section
/-! PROOF. A query's walk passes the L2, so its registers are not all that it changes. -/

namespace Sys2Proof.Machine

open Sys2Proof.Safety

/-- The PF's lanes, lane 0 alone in m1, with the root of an empty page table at 1 MiB and nothing in the L2. -/
def emptyTable : State :=
  let s := State.reset.readyToFetch
  (s.setGrp { s.grp with m := mset s.grp.m 1 1 }).setFn 0 { tren := true, root1 := 0x100000 }

theorem rowsApart_emptyTable : RowsApart emptyTable := by
  have hslot : ∀ l < 32, mget 0 emptyTable.grp.roster l = l := by decide +kernel
  refine apartSlotsGiveApartRegisters _ ⟨by decide +kernel, by decide +kernel, fun l l' hl hl' _ _ hne => ?_⟩
  rwa [hslot l hl, hslot l' hl']

/-- Lane 0 walks its address 0: the walk ends at the invalid entry at 1 MiB, the only one that it reads. -/
theorem reads_emptyTable : (emptyTable.walkQuery 0 false (emptyTable.pairVa 0 0)).2.reads = [0x100000] := by decide +kernel

theorem quiet_emptyTable : Quiet emptyTable := ⟨by decide +kernel, by decide +kernel⟩

theorem lanesOf_live_emptyTable : lanesOf (emptyTable.live 1) = [0] := by decide +kernel

theorem cleanWalk_emptyTable : CleanWalk emptyTable 0 (emptyTable.walkQuery 0 false (emptyTable.pairVa 0 0)).2 :=
  ⟨by decide +kernel, by decide +kernel⟩

theorem l2_emptyTable_read : (emptyTable.l2At 0 {} 0x100000 false).l2 ≠ emptyTable.l2 :=
  State.l2At_l2_ne (h := (emptyTable.homeOf {} 0x100000).1) _ (by decide +kernel) (by decide +kernel) (by decide +kernel)

/-- Refutes O44: in the clause of a quiet `walk.q` with clean walks, which lets registers alone change, the walk's read of its entry
at 1 MiB still fills the line into the L2 slice of its home. -/
theorem not_queryAndSpanInstructionsRun : ¬ Obligations.QueryAndSpanInstructionsRun := by
  intro h
  obtain ⟨-, -, -, -, -, hwalk, -⟩ := h emptyTable 1 252 0 0 .zero 0 0 false 0
  have he : emptyTable.exe 1 ≠ 0 := by decide +kernel
  obtain ⟨-, hgo⟩ := hwalk he rowsApart_emptyTable
  obtain ⟨-, -, hgo⟩ := hgo (.inl rfl)
  have hfault : emptyTable.faulty (512 + emptyTable.cur.h) = false := by decide +kernel
  have hlost : ¬ ∃ l ∈ lanesOf (emptyTable.live 1), emptyTable.walkLost emptyTable.cur.h emptyTable.accFn emptyTable.wg.launch
      (emptyTable.walkQuery emptyTable.accFn false (emptyTable.pairVa 0 l)).2.reads = true := by decide +kernel
  have hsome : ∀ l ∈ lanesOf (emptyTable.live 1),
      (emptyTable.walkQuery emptyTable.accFn false (emptyTable.pairVa 0 l)).1 ≠ none := by decide +kernel
  have hclean : ∀ l ∈ lanesOf (emptyTable.live 1),
      CleanWalk emptyTable emptyTable.accFn (emptyTable.walkQuery emptyTable.accFn false (emptyTable.pairVa 0 l)).2 := by
    rw [lanesOf_live_emptyTable]
    exact List.forall_mem_singleton.mpr cleanWalk_emptyTable
  obtain ⟨t, hexec, -, -, rf, hr, hframe⟩ := (hgo hfault hlost hsome).2 quiet_emptyTable hclean (by decide +kernel)
  have hl2 := l2_of_exec_walkQ he hfault hlost hsome hexec
  have hnote : emptyTable.noteWalk 0 emptyTable.cur.h (emptyTable.walkQuery 0 false (emptyTable.pairVa 0 0)).2
      = emptyTable.l2At 0 {} 0x100000 false := by
    rw [State.noteWalk_of_clean quiet_emptyTable.2 cleanWalk_emptyTable, reads_emptyTable]
    rfl
  rw [hframe, lanesOf_live_emptyTable] at hl2
  exact l2_emptyTable_read (hl2.trans (congrArg State.l2 hnote)).symm

end Sys2Proof.Machine
end

section
/-! SUPPORT. What the operations of a line's home touch beside memory, and the bytes that a lane's operation leaves there
(10_ordering.md R235, 11_atomics.md R254). -/

namespace Sys2Proof.Machine

theorem forall_mem_mset {α : Type} {P : α → Prop} {m : NMap α} (hm : ∀ e ∈ m, P e.2) (k : Nat) {v : α} (hv : P v) :
    ∀ e ∈ mset m k v, P e.2 := by
  induction m with
  | nil => simpa [mset] using hv
  | cons x m ih =>
    obtain ⟨hx, hm'⟩ := List.forall_mem_cons.mp hm
    simp only [mset]
    split
    · exact List.forall_mem_cons.mpr ⟨hv, hm⟩
    · split
      · exact List.forall_mem_cons.mpr ⟨hv, hm'⟩
      · exact List.forall_mem_cons.mpr ⟨hx, ih hm'⟩

/-! ### Stores and loads at the home (R235, R236) -/

theorem State.dirtyBit_of_untracked (s : State) {x : Fn} (h : x.dbmEn = false) (a : Nat) : s.dirtyBit x a = none := by
  simp [State.dirtyBit, h]

theorem State.dropPair_fns (s : State) (o w : Nat) : (s.dropPair o w).fns = s.fns := by
  unfold State.dropPair
  dsimp only
  repeat' split
  all_goals rfl

theorem State.dropPair_hums (s : State) (o w : Nat) : (s.dropPair o w).hums = s.hums := by
  unfold State.dropPair
  dsimp only
  repeat' split
  all_goals rfl

theorem State.setOwner_fns (s : State) (w o : Nat) : (s.setOwner w o).fns = s.fns := by
  unfold State.setOwner
  dsimp only
  split
  · rfl
  · rw [State.dropPair_fns, State.dropPair_fns]

theorem State.setOwner_hums (s : State) (w o : Nat) : (s.setOwner w o).hums = s.hums := by
  unfold State.setOwner
  dsimp only
  split
  · rfl
  · rw [State.dropPair_hums, State.dropPair_hums]

theorem State.l1Room_fns (s : State) (h c l : Nat) : (s.l1Room h c l).fns = s.fns := by
  unfold State.l1Room
  dsimp only
  repeat' split
  all_goals rfl

theorem State.l1Room_hums (s : State) (h c l : Nat) : (s.l1Room h c l).hums = s.hums := by
  unfold State.l1Room
  dsimp only
  repeat' split
  all_goals rfl

theorem State.l1Fill_fns (s : State) (h c a : Nat) : (s.l1Fill h c a).fns = s.fns := by
  simp only [State.l1Fill, State.setCoreAt_fns, State.l1Room_fns]

theorem State.l1Fill_hums (s : State) (h c a : Nat) : (s.l1Fill h c a).hums = s.hums := by
  simp only [State.l1Fill, State.setCoreAt_hums, State.l1Room_hums]

theorem State.lanePerform_load (s : State) {r : Req} (hk : r.kind = .load) (i : LaneAcc) : s.lanePerform r i = s.loadLane r i := by
  unfold State.lanePerform
  dsimp only
  rw [hk]

/-! ### The bytes that lane operations leave (R251, R252, R254) -/

/-- Memory after a lane's operation of a request that is performed at its home. -/
def Req.laneMem (r : Req) (m : Memory) (i : LaneAcc) : Memory :=
  let w := memWidth r.ty
  let old := BitVec.ofNat 64 (readN m i.addr w)
  match r.kind with
  | .load => m
  | .store => writeN m i.addr w i.val.toNat
  | .atom op => writeN m i.addr w (atomNew op r.ty old i.val i.val2).toNat
  | .red op => writeN m i.addr w (atomNew op r.ty old i.val 0).toNat

theorem Req.laneMem_load {r : Req} (hk : r.kind = .load) : r.laneMem = fun m _ => m := by
  funext m i
  rw [Req.laneMem, hk]

theorem Req.laneMem_store {r : Req} (hk : r.kind = .store) :
    r.laneMem = fun m i => writeN m i.addr (memWidth r.ty) i.val.toNat := by
  funext m i
  rw [Req.laneMem, hk]

/-- A request whose lane operations are performed at its home: neither held in a tray nor collected in an accumulator. -/
def Req.AtHome (r : Req) : Prop := r.tray = false ∧ ∀ op, r.kind = .red op → r.rwin = false

/-- A lane's operation leaves every byte outside its own. -/
theorem Req.memRead_laneMem (r : Req) (m : Memory) (i : LaneAcc) {a : Nat} (ha : a < i.addr ∨ i.addr + memWidth r.ty ≤ a) :
    memRead (r.laneMem m i) a = memRead m a := by
  have hout : ¬ (i.addr ≤ a ∧ a < i.addr + memWidth r.ty) := by omega
  unfold Req.laneMem
  dsimp only
  split
  · rfl
  all_goals rw [memRead_writeN, if_neg hout]

theorem Req.memRead_foldl_laneMem (r : Req) (is : List LaneAcc) (m : Memory) {a : Nat}
    (ha : ∀ x ∈ is, a < x.addr ∨ x.addr + memWidth r.ty ≤ a) : memRead (is.foldl r.laneMem m) a = memRead m a := by
  induction is generalizing m with
  | nil => rfl
  | cons x is ih =>
    obtain ⟨hx, hrest⟩ := List.forall_mem_cons.mp ha
    rw [List.foldl_cons, ih _ hrest, r.memRead_laneMem m x hx]

/-! ### A request on its way to its home (17_device_boundary.md R413, 16_tenants.md R382) -/

/-- Which memory exists depends on the hummocks' banks alone. -/
theorem State.assigned_setHum (s : State) (h : Nat) {x : Hum} (hx : x.banks = (s.humAt h).banks) (a : Nat) :
    (s.setHum h x).assigned a = s.assigned a := by
  have hbanks : ∀ g, ((s.setHum h x).humAt g).banks = (s.humAt g).banks := by
    intro g
    rw [State.humAt_setHum]
    split
    next hg => rw [hg, hx]
    next => rfl
  simp only [State.assigned, hbanks]
  rfl

/-- The flit that carries a request changes the links of a hummock alone. -/
theorem State.sendFlit_eq (s : State) (r : Req) :
    s.sendFlit r = s ∨ ∃ h ls, s.sendFlit r = s.setHum h { s.humAt h with links := ls } := by
  unfold State.sendFlit
  split
  · exact .inl rfl
  · dsimp only
    split
    · exact .inr ⟨_, _, rfl⟩
    · exact .inl rfl

theorem State.l2Touch_eq (s : State) (f : Nat) (home : Nat × Nat) (policy line : Nat) (w : Bool) :
    ∃ x, s.l2Touch f home policy line w = { s with l2 := x } := by
  unfold State.l2Touch
  split
  · split
    · exact ⟨_, rfl⟩
    · exact ⟨s.l2, rfl⟩
  · exact ⟨s.l2, rfl⟩

end Sys2Proof.Machine

namespace Sys2Proof.Safety

open Sys2Proof.Machine

variable {s t : State}

/-! ### Quiet states: no store writes beside its bytes (R260, R368, 16_tenants.md R394) -/

theorem Quiet.of_eq (hq : Quiet s) (hf : t.fns = s.fns) (hh : t.hums = s.hums) : Quiet t := by
  unfold Quiet
  rw [hf, hh]
  exact hq

theorem Quiet.fnAt (hq : Quiet s) (f : Nat) : (s.fnAt f).ck.en = false ∧ (s.fnAt f).ck.tray = [] ∧ (s.fnAt f).dbmEn = false :=
  mget_of_forall (P := fun x : Fn => x.ck.en = false ∧ x.ck.tray = [] ∧ x.dbmEn = false) ⟨rfl, rfl, rfl⟩ hq.1 f

theorem Quiet.humAt (hq : Quiet s) (h : Nat) : (s.humAt h).wins = [] := mget_of_forall (P := fun x : Hum => x.wins = []) rfl hq.2 h

/-- A hummock changed beside its accumulators leaves the state quiet. -/
theorem Quiet.setHum (hq : Quiet s) (h : Nat) {x : Hum} (hx : x.wins = []) : Quiet (s.setHum h x) :=
  ⟨hq.1, forall_mem_mset (P := fun x : Hum => x.wins = []) hq.2 h hx⟩

theorem Quiet.dirtyReady (hq : Quiet s) (a : Nat) : s.dirtyReady a = s := by
  have hnone : s.fns.filterMap (fun e => s.dirtyBit e.2 a) = [] :=
    List.filterMap_eq_nil_iff.mpr fun e he => s.dirtyBit_of_untracked (hq.1 e he).2.2 a
  rw [State.dirtyReady, hnone, List.foldl_nil]

theorem Quiet.logsLine (hq : Quiet s) (f line : Nat) : s.logsLine f line = false := by simp [State.logsLine, (hq.fnAt f).1]

theorem Quiet.storeReady (hq : Quiet s) (f o a : Nat) : s.storeReady f o a = s := by
  simp [State.storeReady, hq.dirtyReady, hq.logsLine]

theorem Quiet.logLine (hq : Quiet s) (f line : Nat) : s.logLine f line = s := by simp [State.logLine, hq.logsLine]

theorem Quiet.markDirty (hq : Quiet s) (a : Nat) : s.markDirty a = s := by
  unfold State.markDirty
  rw [List.foldl_ext _ (fun t _ => t) s fun t e he => by rw [s.dirtyBit_of_untracked (hq.1 e he).2.2]]
  exact List.foldl_fixed _

/-- No store waits in a tray, so a byte reads as memory holds it. -/
theorem Quiet.loadByte (hq : Quiet s) (h c f a : Nat) : s.loadByte h c f a false = memRead s.mem a := by
  simp [State.loadByte, State.trayByte, (hq.fnAt f).2.1]

theorem Quiet.loadN (hq : Quiet s) (h c f a n : Nat) : s.loadN h c f a false n = readN s.mem a n := by
  induction n generalizing a with
  | zero => rfl
  | succ n ih => rw [State.loadN, readN, hq.loadByte, ih]

/-- In a quiet state a store writes its bytes and takes its words over, and that is all. -/
theorem Quiet.performStore (hq : Quiet s) (f o a n v : Nat) : s.performStore f o a n v =
    (List.range ((a % 4 + n + 3) / 4)).foldl (fun t i => t.setOwner (a / 4 + i) o) { s with mem := writeN s.mem a n v } := by
  simp only [State.performStore, State.homeStore, hq.storeReady, hq.logLine, ite_self, hq.markDirty]

theorem Quiet.performStore_mem (hq : Quiet s) (f o a n v : Nat) : (s.performStore f o a n v).mem = writeN s.mem a n v := by
  rw [hq.performStore, foldl_fixes State.mem _ (fun t i => t.setOwner_mem (a / 4 + i) o)]

theorem Quiet.after_performStore (hq : Quiet s) (f o a n v : Nat) : Quiet (s.performStore f o a n v) := by
  rw [hq.performStore]
  exact foldl_keeps Quiet _ (fun t i ht => ht.of_eq (t.setOwner_fns _ _) (t.setOwner_hums _ _)) _ _ (hq.of_eq rfl rfl)

/-! ### Lane operations in a quiet state (R235, R254) -/

/-- A load at its home changes no byte: it fills the L1 or drops an older copy from it. -/
theorem Quiet.loadLane (hq : Quiet s) (r : Req) (i : LaneAcc) :
    (s.loadLane r i).1.mem = s.mem ∧ Quiet (s.loadLane r i).1
      ∧ (r.acq = true → (s.loadLane r i).2 = BitVec.ofNat 64 (readN s.mem i.addr (memWidth r.ty))) := by
  unfold State.loadLane
  dsimp only
  rw [State.drainFor_of_wins hq.2]
  split
  next hhit => exact ⟨rfl, hq, fun hacq => by simp [hacq] at hhit⟩
  next =>
    dsimp only
    split
    · have hq' : Quiet (s.l1Fill r.who.h r.who.c i.addr) := hq.of_eq (State.l1Fill_fns ..) (State.l1Fill_hums ..)
      exact ⟨State.l1Fill_mem .., hq', fun _ => by rw [hq'.loadN, State.l1Fill_mem]⟩
    · have hq' : Quiet (s.dropPair (ownCore r.who.h r.who.c) (i.addr / 4)) :=
        hq.of_eq (State.dropPair_fns ..) (State.dropPair_hums ..)
      exact ⟨State.dropPair_mem .., hq', fun _ => by rw [hq'.loadN, State.dropPair_mem]⟩

theorem Quiet.lanePerform (hq : Quiet s) {r : Req} (hr : r.AtHome) (i : LaneAcc) :
    (s.lanePerform r i).1.mem = r.laneMem s.mem i ∧ Quiet (s.lanePerform r i).1 := by
  obtain ⟨htray, hwin⟩ := hr
  unfold State.lanePerform Req.laneMem
  dsimp only
  rw [State.drainFor_of_wins hq.2]
  cases hk : r.kind with
  | load =>
    obtain ⟨hmem, hq', -⟩ := hq.loadLane r i
    exact ⟨hmem, hq'⟩
  | store =>
    simp only [htray, Bool.false_eq_true, if_false]
    exact ⟨hq.performStore_mem .., hq.after_performStore ..⟩
  | atom op => exact ⟨hq.performStore_mem .., hq.after_performStore ..⟩
  | red op =>
    simp only [hwin op hk, Bool.false_eq_true, if_false]
    exact ⟨hq.performStore_mem .., hq.after_performStore ..⟩

theorem Quiet.lanePerform_atom (hq : Quiet s) {r : Req} {op : AOp} (hk : r.kind = .atom op) (i : LaneAcc) :
    (s.lanePerform r i).2 = BitVec.ofNat 64 (readN s.mem i.addr (memWidth r.ty)) := by
  unfold State.lanePerform
  dsimp only
  rw [hk, State.drainFor_of_wins hq.2]

/-- The lane operations of a request in turn. -/
theorem Quiet.lanesPerform (hq : Quiet s) {r : Req} (hr : r.AtHome) (is got : List LaneAcc) :
    (is.foldl (fun (p : State × List LaneAcc) i =>
      ((p.1.lanePerform r i).1, p.2 ++ [{ i with val := (p.1.lanePerform r i).2 }])) (s, got)).1.mem = is.foldl r.laneMem s.mem := by
  induction is generalizing s got with
  | nil => rfl
  | cons i is ih =>
    obtain ⟨hmem, hq'⟩ := hq.lanePerform hr i
    rw [List.foldl_cons, List.foldl_cons, ih hq', hmem]

/-! ### Requests in a quiet state (R254) -/

theorem Quiet.sendFlit (hq : Quiet s) (r : Req) :
    Quiet (s.sendFlit r) ∧ ∀ line, (s.sendFlit r).linePoison line = s.linePoison line := by
  rcases s.sendFlit_eq r with heq | ⟨h, ls, heq⟩
  · rw [heq]
    exact ⟨hq, fun _ => rfl⟩
  · rw [heq]
    refine ⟨hq.setHum h (hq.humAt h), fun line => ?_⟩
    simp only [State.linePoison, State.setHum_poison, s.assigned_setHum h (x := { s.humAt h with links := ls }) rfl]

/-- A request to a line that can be read performs its lanes' operations in turn. -/
theorem Quiet.performReq_mem (hq : Quiet s) {r : Req} (hr : r.AtHome) (ha : s.assigned (r.line * 128) = true)
    (hp : s.linePoison r.line = false) : (s.performReq r).1.mem = r.items.foldl r.laneMem s.mem := by
  have htray := hr.1
  obtain ⟨hq1, hp1⟩ := hq.sendFlit r
  unfold State.performReq
  simp only [ha, htray, if_true, Bool.false_or, Bool.false_and, Bool.false_eq_true, if_false]
  generalize hu : (if (s.sendFlit r).l1Hit r = true then s.sendFlit r
    else (s.sendFlit r).l2Touch r.fn (r.home, r.slice) r.sp r.line r.kind.writes) = u
  obtain ⟨x, rfl⟩ : ∃ x, u = { s.sendFlit r with l2 := x } := by
    rw [← hu]
    split
    · exact ⟨(s.sendFlit r).l2, rfl⟩
    · exact State.l2Touch_eq ..
  have hlanes := (hq1.of_eq (t := { s.sendFlit r with l2 := x }) rfl rfl).lanesPerform hr r.items []
  have hline : ({ s.sendFlit r with l2 := x } : State).linePoison r.line = false := (hp1 _).trans hp
  simp only [hline, Bool.false_and, Bool.false_eq_true, if_false]
  rw [← State.sendFlit_mem s r]
  split <;> exact hlanes

end Sys2Proof.Safety
end

section
/-! PROOF. Stores, atomics, reductions and loads at their home. -/

namespace Sys2Proof.Machine

open Sys2Proof.Safety

/-- Settles O32: in a quiet state a store at its home writes its own bytes alone, and a request is its lanes' operations in turn. -/
theorem laneOperationsAtTheHome : Obligations.LaneOperationsAtTheHome := by
  unfold Obligations.LaneOperationsAtTheHome
  intro s r i op hq htray
  have lane : (∀ o, r.kind = .red o → r.rwin = false) → (s.lanePerform r i).1.mem = r.laneMem s.mem i :=
    fun hwin => (hq.lanePerform ⟨htray, hwin⟩ i).1
  have request : (∀ o, r.kind = .red o → r.rwin = false) → s.assigned (r.line * 128) = true → s.linePoison r.line = false →
      (s.performReq r).1.mem = r.items.foldl r.laneMem s.mem := fun hwin => hq.performReq_mem ⟨htray, hwin⟩
  refine ⟨fun hk => ?_, fun hk => ⟨hq.lanePerform_atom hk i, ?_⟩, fun hk hwin => ?_, fun hk => ?_,
    fun ha hp => ⟨fun hk => ?_, fun hk => ?_, fun a hout hwin => ?_⟩⟩
  · rw [lane (by simp [hk]), Req.laneMem_store hk]
  · rw [lane (by simp [hk]), Req.laneMem, hk]
  · rw [lane fun _ _ => hwin, Req.laneMem, hk]
  · rw [State.lanePerform_load s hk]
    obtain ⟨hmem, -, hval⟩ := hq.loadLane r i
    exact ⟨hmem, hval⟩
  · rw [request (by simp [hk]) ha hp, Req.laneMem_load hk]
    exact List.foldl_fixed _
  · rw [request (by simp [hk]) ha hp, Req.laneMem_store hk]
  · rw [request (fun _ _ => hwin) ha hp, Req.memRead_foldl_laneMem r _ _ hout]

end Sys2Proof.Machine
end

section
/-! SUPPORT. A store at its home and an entry of an error queue change no core beside its L1, no hummock beside its accumulators and
not which group acts (10_ordering.md R235, 11_atomics.md R260, 17_device_boundary.md R406). -/

namespace Sys2Proof.Machine

/-- The acting group, the cores without their L1 and the hummocks without their accumulators. -/
def State.units (s : State) : GRef × (Nat → Core) × (Nat → Hum) :=
  (s.cur, fun k => { (mget {} s.cores k : Core) with l1 := [] }, fun h => { s.humAt h with wins := [] })

theorem State.units_of_eq {s t : State} (hcur : t.cur = s.cur) (hcores : t.cores = s.cores) (hhums : t.hums = s.hums) :
    t.units = s.units := by
  simp only [State.units, State.humAt, hcur, hcores, hhums]

/-- A core set with another L1 alone. -/
theorem State.units_set_l1 (s : State) (key : Nat) (x : NMap L1Line) :
    ({ s with cores := mset s.cores key { (mget {} s.cores key : Core) with l1 := x } } : State).units = s.units := by
  have hcore : ∀ k, ({ mget {} (mset s.cores key { (mget {} s.cores key : Core) with l1 := x }) k with l1 := [] } : Core)
      = { (mget {} s.cores k : Core) with l1 := [] } := by
    intro k
    rw [mget_mset]
    split
    next h => rw [h]
    next => rfl
  simp only [State.units, hcore]
  rfl

/-- A hummock set with other accumulators alone. -/
theorem State.units_set_wins (s : State) (h : Nat) (x : NMap WinAcc) :
    (s.setHum h { s.humAt h with wins := x }).units = s.units := by
  have hhum : ∀ g, ({ (s.setHum h { s.humAt h with wins := x }).humAt g with wins := [] } : Hum) = { s.humAt g with wins := [] } := by
    intro g
    rw [State.humAt_setHum]
    split
    next hg => rw [hg]
    next => rfl
  simp only [State.units, hhum]
  rfl

/-! ### Stores at their home -/

@[simp] theorem State.dropPair_units (s : State) (o w : Nat) : (s.dropPair o w).units = s.units := by
  unfold State.dropPair
  dsimp only
  split
  · rfl
  · split
    · rfl
    · exact s.units_set_l1 _ _

@[simp] theorem State.setOwner_units (s : State) (w o : Nat) : (s.setOwner w o).units = s.units := by
  unfold State.setOwner
  dsimp only
  split
  · rfl
  · rw [State.dropPair_units, State.dropPair_units]
    rfl

@[simp] theorem State.setFn_units (s : State) (f : Nat) (x : Fn) : (s.setFn f x).units = s.units := rfl

@[simp] theorem State.requestEarly_units (s : State) (f : Nat) : (s.requestEarly f).units = s.units := by
  unfold State.requestEarly
  dsimp only
  split <;> rfl

@[simp] theorem State.putLog_units (s : State) (f n kind a : Nat) (old : List Byte) : (s.putLog f n kind a old).units = s.units := by
  unfold State.putLog
  dsimp only
  split
  · rw [State.requestEarly_units]
    split <;> rfl
  · split <;> rfl

@[simp] theorem State.logLine_units (s : State) (f line : Nat) : (s.logLine f line).units = s.units := by
  unfold State.logLine
  dsimp only
  split
  · rw [State.putLog_units, State.setFn_units]
  · rfl

@[simp] theorem State.markDirty_units (s : State) (a : Nat) : (s.markDirty a).units = s.units := by
  refine foldl_fixes State.units _ (fun t e => ?_) _ _
  split
  · split <;> rfl
  · rfl

@[simp] theorem State.homeStore_units (s : State) (f o a n v : Nat) : (s.homeStore f o a n v).units = s.units := by
  unfold State.homeStore
  dsimp only
  rw [foldl_fixes State.units _ (fun t i => t.setOwner_units (a / 4 + i) o)]
  refine (State.units_of_eq rfl rfl rfl).trans ((State.markDirty_units _ _).trans ?_)
  split
  · rfl
  · rw [State.logLine_units]

@[simp] theorem State.homeBytes_units (s : State) (f o a : Nat) (bs : List Byte) : (s.homeBytes f o a bs).units = s.units := by
  have hpois : ∀ (c : Prop) [Decidable c] (x : State) (p : List Nat), (if c then { x with poison := p } else x).units = x.units := by
    intro c _ x p
    split <;> rfl
  unfold State.homeBytes
  dsimp only
  rw [hpois, foldl_fixes State.units _ (fun t i => t.setOwner_units (a / 4 + i) o)]
  refine (State.units_of_eq rfl rfl rfl).trans ((State.markDirty_units _ _).trans ?_)
  split
  · rfl
  · rw [State.logLine_units]

@[simp] theorem State.drainWin_units (s : State) (h a : Nat) : (s.drainWin h a).units = s.units := by
  unfold State.drainWin
  split
  · rfl
  · dsimp only
    rw [State.homeStore_units, State.units_set_wins]

@[simp] theorem State.drainFor_units (s : State) (a n : Nat) : (s.drainFor a n).units = s.units :=
  foldl_fixes State.units _ (fun _ _ => foldl_fixes State.units _ (fun t _ => t.drainWin_units _ _) _ _) _ _

@[simp] theorem State.drainReads_units (s : State) (as : List Nat) : (s.drainReads as).units = s.units :=
  foldl_fixes State.units _ (fun t a => t.drainFor_units a 16) _ _

@[simp] theorem State.l2At_units (s : State) (f : Nat) (t : Tlb) (pa : Nat) (w : Bool) : (s.l2At f t pa w).units = s.units := by
  obtain ⟨x, hx⟩ := s.l2At_eq f t pa w
  rw [hx]
  rfl

@[simp] theorem State.writeMarks_units (s : State) (f : Nat) (upd : List (Nat × Nat)) : (s.writeMarks f upd).units = s.units :=
  foldl_fixes State.units _ (fun t u => by simp only [State.homeStore_units, State.l2At_units, State.drainFor_units]) _ _

/-! ### The error queue -/

@[simp] theorem State.lostErr_units (s : State) (f : Nat) : (s.lostErr f).units = s.units := rfl

@[simp] theorem State.putErr_units (s : State) (f pa : Nat) (e : List Byte) : (s.putErr f pa e).units = s.units := by
  simp only [State.putErr, State.signal, State.setFn_units, State.homeBytes_units, State.drainFor_units]

@[simp] theorem State.tryErr_units (s : State) (f h va : Nat) (e : List Byte) (w : Walked) :
    (s.tryErr f h va e w).1.units = s.units := by
  unfold State.tryErr
  dsimp only
  split
  · rfl
  · split
    · split
      · rw [State.lostErr_units, State.writeMarks_units]
      · split
        · rfl
        · rw [State.putErr_units, State.l2At_units, State.writeMarks_units]
    · rfl
    · rfl

theorem State.logErrN_units (n : Nat) (s : State) (f kind h i0 i1 : Nat) : (State.logErrN n s f kind h i0 i1).units = s.units := by
  induction n generalizing s f kind i0 i1 with
  | zero =>
    unfold State.logErrN
    dsimp only
    repeat' split
    all_goals simp only [State.lostErr_units, State.setFn_units, State.tryErr_units, State.drainReads_units]
  | succ n ih =>
    unfold State.logErrN
    dsimp only
    split
    · rfl
    · split
      · rfl
      · split
        · rfl
        · rw [foldl_fixes State.units _ (fun t e => ih t _ _ _ _)]
          split
          · rw [ih, State.tryErr_units, State.drainReads_units]
          · rw [State.tryErr_units, State.drainReads_units]

@[simp] theorem State.logErr_units (s : State) (f kind h i0 i1 : Nat) : (s.logErr f kind h i0 i1).units = s.units :=
  State.logErrN_units 1 s f kind h i0 i1

/-! ### What the units show -/

section

variable {s t : State} (hu : t.units = s.units)

include hu

theorem cur_of_units : t.cur = s.cur := congrArg Prod.fst hu

/-- A part of a core beside its L1. -/
theorem coreAt_of_units {β : Type} (g : Core → β) (hg : ∀ k : Core, g { k with l1 := [] } = g k) (h c : Nat) :
    g (t.coreAt h c) = g (s.coreAt h c) := by
  have hcore := congrFun (congrArg (fun x => x.2.1) hu) (coreKey h c)
  exact (hg _).symm.trans ((congrArg g hcore).trans (hg _))

/-- A part of a hummock beside its accumulators. -/
theorem humAt_of_units {β : Type} (g : Hum → β) (hg : ∀ x : Hum, g { x with wins := [] } = g x) (h : Nat) :
    g (t.humAt h) = g (s.humAt h) := by
  have hhum := congrFun (congrArg (fun x => x.2.2) hu) h
  exact (hg _).symm.trans ((congrArg g hhum).trans (hg _))

theorem grp_of_units : t.grp = s.grp := by
  unfold State.grp State.core
  rw [cur_of_units hu, coreAt_of_units hu Core.groups (fun _ => rfl)]

/-- A barrier shows what it showed. -/
theorem barView_of_units (h c w n : Nat) : t.barView h c w n = s.barView h c w n := by
  unfold State.barView Core.wbarOf
  dsimp only
  rw [coreAt_of_units hu Core.wbars (fun _ => rfl), coreAt_of_units hu Core.wgs (fun _ => rfl),
    humAt_of_units hu Hum.gbars (fun _ => rfl), humAt_of_units hu Hum.lbars (fun _ => rfl)]

end

end Sys2Proof.Machine
end

section
/-! SUPPORT. What changes of a core, of the acting workgroup, an acquire step and an instruction's end leave of the acting group, its
workgroup and its lanes' registers. -/

namespace Sys2Proof.Machine

open Sys2Proof.Safety

variable {s t : State}

/-! ### Cores -/

/-- A part of the cores that a core set keeps. -/
theorem coreAt_setCoreAt_part {β : Type} {h c : Nat} {k : Core} (g : Core → β) (hg : g k = g (s.coreAt h c)) (h' c' : Nat) :
    g ((s.setCoreAt h c k).coreAt h' c') = g (s.coreAt h' c') := by
  rw [State.coreAt_setCoreAt]
  split
  next hkey => rw [hg, State.coreAt, State.coreAt, hkey]
  next => rfl

theorem grp_setCoreAt_of_groups {h c : Nat} {k : Core} (hk : k.groups = (s.coreAt h c).groups) : (s.setCoreAt h c k).grp = s.grp :=
  congrArg (fun m : NMap Group => mget ({} : Group) m s.cur.g) (coreAt_setCoreAt_part Core.groups hk s.cur.h s.cur.c)

theorem grp_of_groups (hcur : t.cur = s.cur) (hg : (t.coreAt s.cur.h s.cur.c).groups = s.core.groups) : t.grp = s.grp := by
  unfold State.grp State.core at *
  rw [hcur, hg]

/-! ### The acting workgroup -/

theorem State.grp_setWg (s : State) (w : Wg) : (s.setWg w).grp = s.grp := State.grp_setCore _ _ rfl

theorem State.core_setWg (s : State) (w : Wg) : (s.setWg w).core = { s.core with wgs := mset s.core.wgs s.grp.wgs w } :=
  State.core_setCore _ _

theorem State.wg_setWg (s : State) (w : Wg) : (s.setWg w).wg = w := by
  rw [State.wg, State.core_setWg, State.grp_setWg]
  exact mget_mset_self _ _ _ _

theorem State.core_advance (s : State) : s.advance.core =
    { s.core with groups := mset s.core.groups s.cur.g { s.grp with pc := s.grp.pc + 8, far := 0 } } := State.core_setGrp _ _

/-- A write of the acting workgroup, and the next word: what `OnlyWg` says. -/
theorem onlyWg_setWg_advance (s : State) (w : Wg) : OnlyWg s (s.setWg w).advance w { s.grp with pc := s.grp.pc + 8, far := 0 } := by
  rw [OnlyWg, State.advance, State.setPc, State.setGrp, State.core_setWg, State.grp_setWg]
  exact State.setCore_setCore _ _ _

/-! ### An acquire step (10_ordering.md R239) -/

theorem State.acquire_eq (s : State) : ∃ x, s.acquire = s.setCore { s.core with l1 := x } := ⟨_, rfl⟩

theorem State.grp_acquire (s : State) : s.acquire.grp = s.grp := State.grp_setCore _ _ rfl

theorem State.wg_acquire (s : State) : s.acquire.wg = s.wg := State.wg_setCore _ _ rfl rfl

/-- A part of the acting core beside its L1. -/
theorem State.core_acquire {β : Type} (s : State) (g : Core → β) (hg : ∀ x, g { s.core with l1 := x } = g s.core) :
    g s.acquire.core = g s.core := by
  obtain ⟨x, hx⟩ := s.acquire_eq
  rw [hx, State.core_setCore, hg]

/-! ### The end of an instruction (08_memory_access.md R185) -/

/-- The group that has done its instruction: what it held is dropped, and it goes on at the next word. -/
def Group.ended (g : Group) : Group :=
  { g with tlb := [], denied := [], held := none, wait := .ready, pc := g.pc + 8, far := 0 }

theorem State.endMem_eq (s : State) : s.endMem = s.setGrp s.grp.ended := State.advance_setGrp _ _

theorem State.grp_endMem (s : State) : s.endMem.grp = s.grp.ended := by rw [State.endMem_eq, State.grp_setGrp]

theorem State.core_endMem (s : State) : s.endMem.core = { s.core with groups := mset s.core.groups s.cur.g s.grp.ended } := by
  rw [State.endMem_eq, State.core_setGrp]

theorem State.wg_endMem (s : State) : s.endMem.wg = s.wg := by
  rw [State.endMem_eq]
  exact State.wg_setGrp _ _

/-! ### Registers of the lanes -/

theorem lreg_congr (hg : KeepsLanes s.grp t.grp) (hrf : t.core.rf = s.core.rf) (hbase : t.wg.rbase = s.wg.rbase)
    (hslot : t.wg.sbase = s.wg.sbase) (hn : t.wg.n = s.wg.n) (l k : Nat) : t.lreg l k = s.lreg l k := by
  simp only [State.lreg, State.physReg, hg.member, hg.helpers, hg.roster, hg.hregs, hrf, hbase, hslot, hn]

theorem keepsLanes_of_eq {g g' : Group} (h : g' = g) : KeepsLanes g g' := h ▸ ⟨rfl, rfl, rfl, rfl, rfl⟩

theorem keepsLanes_ended (g : Group) : KeepsLanes g g.ended := ⟨rfl, rfl, rfl, rfl, rfl⟩

theorem State.lreg_acquire (s : State) (l k : Nat) : s.acquire.lreg l k = s.lreg l k :=
  lreg_congr (keepsLanes_of_eq s.grp_acquire) (s.core_acquire Core.rf fun _ => rfl) (congrArg Wg.rbase s.wg_acquire)
    (congrArg Wg.sbase s.wg_acquire) (congrArg Wg.n s.wg_acquire) l k

theorem State.lreg_advance (s : State) (l k : Nat) : s.advance.lreg l k = s.lreg l k := lreg_setPc _ _ _ _

theorem State.lreg_endMem (s : State) (l k : Nat) : s.endMem.lreg l k = s.lreg l k := by
  rw [State.endMem_eq, lreg_setGrp_of_keeps (keepsLanes_ended s.grp)]

theorem State.lreg_setWg (s : State) {w : Wg} (hbase : w.rbase = s.wg.rbase) (hslot : w.sbase = s.wg.sbase) (hn : w.n = s.wg.n)
    (l k : Nat) : (s.setWg w).lreg l k = s.lreg l k :=
  lreg_congr (keepsLanes_of_eq (s.grp_setWg w)) (by rw [State.core_setWg]) (by rw [State.wg_setWg, hbase])
    (by rw [State.wg_setWg, hslot]) (by rw [State.wg_setWg, hn]) l k

/-- After writes of the lanes' registers every other part of the core but its groups is as it was. -/
theorem SameBut.core_part {β : Type} (h : SameBut s t) (g : Core → β) (hrf : ∀ (k : Core) x, g { k with rf := x } = g k)
    (hgroups : ∀ (k : Core) x, g { k with groups := x } = g k) : g t.core = g s.core := by
  have hcore := congrArg g (h.rest {})
  rw [hgroups] at hcore
  rw [hcore]
  exact (hgroups { s.core with rf := t.core.rf } _).trans (hrf s.core _)

end Sys2Proof.Machine
end

section
/-! SUPPORT. Barriers of a workgroup: what counting an arrival, marking a thread and a denied request leave, when a lane's wait has
ended, and what the barrier instructions do case by case (12_synchronisation.md R265 to R278). -/

namespace Sys2Proof.Machine

open Sys2Proof.Safety

variable {s t : State}

/-! ### Barrier registers (R265) -/

/-- The first entry that satisfies a test stays the first where the entry of its number is set to one that the test treats alike. -/
theorem find?_mset {α : Type} (p : α → Bool) (d : α) {m : NMap α} {r : Nat} {v : α} (hv : p v = p (mget d m r))
    (hr : (m.find? (fun e => p e.2)).map Prod.fst = some r) : ((mset m r v).find? (fun e => p e.2)).map Prod.fst = some r := by
  induction m with
  | nil => cases hr
  | cons e m ih =>
    obtain ⟨i, x⟩ := e
    simp only [mset]
    split
    next =>
      rw [List.find?_cons]
      cases hp : p v
      · exact hr
      · rfl
    next hle =>
      split
      next hir =>
        subst hir
        have hpx : p v = p x := by rw [hv, mget, mfind, if_pos rfl]; rfl
        cases hp : p x
        · simpa [List.find?_cons, hpx, hp] using hr
        · simp [hpx, hp]
      next hir =>
        cases hp : p x
        · have hget : mget d ((i, x) :: m) r = mget d m r := by rw [mget, mfind, if_neg hir]; rfl
          rw [List.find?_cons, hp] at hr ⊢
          exact ih (hget ▸ hv) hr
        · simp [hp, hir] at hr

/-- A workgroup's barrier register as its users see it. -/
def Wbar.view (b : Wbar) : BView :=
  { arrived := b.arrived, members := b.members, broken := b.broken, valid := b.valid, dormant := b.dormant, pending := b.pending,
    phcnt := b.phcnt }

/-- A gang or launch barrier's entry as its users see it. -/
def Gbar.view (b : Gbar) : BView :=
  { arrived := b.arrived, members := b.members, broken := b.broken, valid := b.valid, dormant := b.dormant, phcnt := b.phcnt }

theorem Core.wbarOf_mset {k : Core} {w n r : Nat} {f : Wbar → Wbar} (hf : ∀ b, (f b).valid = b.valid ∧ (f b).owner = b.owner ∧ (f b).name = b.name)
    (hr : k.wbarOf w n = some r) : ({ k with wbars := mset k.wbars r (f (mget {} k.wbars r)) } : Core).wbarOf w n = some r := by
  obtain ⟨hvalid, howner, hname⟩ := hf (mget {} k.wbars r)
  exact find?_mset (fun b : Wbar => b.valid && b.owner == w && b.name == n) {} (by rw [hvalid, howner, hname]) hr

/-- A change of a declared workgroup barrier shows in its view. -/
theorem barView_modWbar {h c w n : Nat} {f : Wbar → Wbar}
    (hf : ∀ b, (f b).valid = b.valid ∧ (f b).owner = b.owner ∧ (f b).name = b.name) (hn : n < 16)
    (hv : (s.barView h c w n).valid = true) :
    ∃ b : Wbar, s.barView h c w n = b.view ∧ (s.modWbar h c w n f).barView h c w n = (f b).view := by
  cases hr : (s.coreAt h c).wbarOf w n with
  | none => simp [State.barView, hn, hr] at hv
  | some r =>
    refine ⟨mget {} (s.coreAt h c).wbars r, ?_, ?_⟩
    · simp only [State.barView, if_pos hn, hr]
      rfl
    · simp only [State.barView, State.modWbar, if_pos hn, hr, State.coreAt_setCoreAt_self, Core.wbarOf_mset hf hr, mget_mset_self]
      rfl

theorem barView_modGbar {h c w n : Nat} (f : Gbar → Gbar) (hn : ¬ n < 16) :
    ∃ b : Gbar, s.barView h c w n = b.view ∧ (s.modGbar h c w n f).barView h c w n = (f b).view := by
  by_cases hg : n < 20
  · refine ⟨mget {} (s.humAt h).gbars (4 * (mget {} (s.coreAt h c).wgs w : Wg).gctx + (n - 16)), ?_, ?_⟩
    · simp only [State.barView, if_neg hn, if_pos hg]
      rfl
    · simp only [State.barView, State.modGbar, if_neg hn, if_pos hg, State.humAt_setHum_self, State.coreAt_setHum, mget_mset_self]
      rfl
  · refine ⟨mget {} (s.humAt h).lbars (4 * (mget {} (s.coreAt h c).wgs w : Wg).lctx + (n - 20)), ?_, ?_⟩
    · simp only [State.barView, if_neg hn, if_neg hg]
      rfl
    · simp only [State.barView, State.modGbar, if_neg hn, if_neg hg, State.humAt_setHum_self, State.coreAt_setHum, mget_mset_self]
      rfl

/-! ### Counting arrivals (R273) -/

theorem barView_addArrived {h c w n : Nat} (k : Nat) (hv : (s.barView h c w n).valid = true) :
    (s.addArrived h c w n k).barView h c w n =
      { s.barView h c w n with arrived := (s.barView h c w n).arrived + k } := by
  unfold State.addArrived
  split
  next hn =>
    obtain ⟨b, hb, hb'⟩ := barView_modWbar (f := fun b => { b with arrived := b.arrived + k }) (fun _ => ⟨rfl, rfl, rfl⟩) hn hv
    rw [hb', hb]
    rfl
  next hn =>
    obtain ⟨b, hb, hb'⟩ := barView_modGbar (s := s) (h := h) (c := c) (w := w) (fun b => { b with arrived := b.arrived + k }) hn
    rw [hb', hb]
    rfl

/-- A part of the cores beside the barrier registers. -/
theorem coreAt_modWbar {β : Type} {h c w n : Nat} {f : Wbar → Wbar} (g : Core → β) (hg : ∀ (k : Core) x, g { k with wbars := x } = g k)
    (h' c' : Nat) : g ((s.modWbar h c w n f).coreAt h' c') = g (s.coreAt h' c') := by
  unfold State.modWbar
  split
  · rfl
  · exact coreAt_setCoreAt_part g (hg _ _) h' c'

theorem coreAt_addArrived {β : Type} {h c w n k : Nat} (g : Core → β) (hg : ∀ (k : Core) x, g { k with wbars := x } = g k)
    (h' c' : Nat) : g ((s.addArrived h c w n k).coreAt h' c') = g (s.coreAt h' c') := by
  unfold State.addArrived
  split
  · exact coreAt_modWbar g hg h' c'
  · unfold State.modGbar
    dsimp only
    split <;> rfl

theorem cur_modWbar (s : State) (h c w n : Nat) (f : Wbar → Wbar) : (s.modWbar h c w n f).cur = s.cur := by
  unfold State.modWbar
  split <;> rfl

theorem cur_addArrived (s : State) (h c w n k : Nat) : (s.addArrived h c w n k).cur = s.cur := by
  unfold State.addArrived
  split
  · exact cur_modWbar ..
  · unfold State.modGbar
    dsimp only
    split <;> rfl

/-! ### Marking threads (R268, R273) -/

/-- A record marked for a barrier with a phase bit. -/
def Arrival.marked (a : Arrival) (bar : Nat) (b : Bool) : Arrival :=
  { a with mark := if a.mark.testBit bar = b then a.mark else a.mark ^^^ 2 ^ bar }

theorem Arrival.testBit_marked (a : Arrival) (bar : Nat) (b : Bool) : (a.marked bar b).mark.testBit bar = b := by
  simp only [Arrival.marked]
  split
  next h => exact h
  next h =>
    rw [Nat.testBit_xor, Nat.testBit_two_pow_self]
    revert h
    cases a.mark.testBit bar <;> cases b <;> decide

theorem arrival_setMark (s : State) (h c w i j bar : Nat) (b : Bool) : (s.setMark h c w i bar b).arrival h c w j =
    if j = i then (s.arrival h c w i).marked bar b else s.arrival h c w j := by
  simp only [State.setMark, State.arrival, State.coreAt_setCoreAt_self, mget_mset_self, mget_mset]
  rfl

/-- A part of the cores beside the workgroups. -/
theorem coreAt_setMark {β : Type} {h c w i bar : Nat} {b : Bool} (g : Core → β) (hg : ∀ (k : Core) x, g { k with wgs := x } = g k)
    (h' c' : Nat) : g ((s.setMark h c w i bar b).coreAt h' c') = g (s.coreAt h' c') :=
  coreAt_setCoreAt_part g (hg _ _) h' c'

theorem barView_setMark (s : State) (h c w i bar n : Nat) (b : Bool) :
    (s.setMark h c w i bar b).barView h c w n = s.barView h c w n := by
  simp only [State.barView, State.setMark, State.coreAt_setCoreAt_self, mget_mset_self, State.humAt_setCoreAt, Core.wbarOf]

/-- The threads of some lanes marked in turn. -/
def State.markAll (s : State) (h c w bar : Nat) (b : Bool) (ls : List Nat) (i : Nat → Nat) : State :=
  ls.foldl (fun t l => t.setMark h c w (i l) bar b) s

section

variable (s : State) (h c w bar : Nat) (b : Bool) (ls : List Nat) (i : Nat → Nat)

theorem cur_markAll : (s.markAll h c w bar b ls i).cur = s.cur :=
  foldl_fixes State.cur (fun (t : State) l => t.setMark h c w (i l) bar b) (fun _ _ => rfl) ls s

theorem mem_markAll : (s.markAll h c w bar b ls i).mem = s.mem := foldl_fixes State.mem _ (fun t _ => t.setMark_mem ..) _ _

theorem barView_markAll (n : Nat) : (s.markAll h c w bar b ls i).barView h c w n = s.barView h c w n :=
  foldl_fixes (fun t => t.barView h c w n) _ (fun t _ => barView_setMark t ..) _ _

theorem coreAt_markAll {β : Type} (g : Core → β) (hg : ∀ (k : Core) x, g { k with wgs := x } = g k) (h' c' : Nat) :
    g ((s.markAll h c w bar b ls i).coreAt h' c') = g (s.coreAt h' c') :=
  foldl_fixes (fun t => g (t.coreAt h' c')) _ (fun _ _ => coreAt_setMark g hg h' c') _ _

theorem memb_markAll (j : Nat) : ((s.markAll h c w bar b ls i).arrival h c w j).memb = (s.arrival h c w j).memb := by
  refine foldl_fixes (fun t => (t.arrival h c w j).memb) _ (fun t l => ?_) _ _
  rw [arrival_setMark]
  split
  next hj => rw [hj]; rfl
  next => rfl

/-- Each thread of the lanes is marked: a later lane of the same thread marks it alike. -/
theorem testBit_markAll : ∀ l ∈ ls, ((s.markAll h c w bar b ls i).arrival h c w (i l)).mark.testBit bar = b := by
  intro l hl
  have hstep : ∀ (t : State) (x : Nat), (i l = i x ∨ (t.arrival h c w (i l)).mark.testBit bar = b) →
      ((t.setMark h c w (i x) bar b).arrival h c w (i l)).mark.testBit bar = b := by
    intro t x hx
    rw [arrival_setMark]
    split
    next => exact Arrival.testBit_marked ..
    next hne => exact hx.resolve_left hne
  obtain ⟨before, after, rfl⟩ := List.append_of_mem hl
  rw [State.markAll, List.foldl_append, List.foldl_cons]
  exact foldl_keeps (fun t : State => (t.arrival h c w (i l)).mark.testBit bar = b) _ (fun t x ht => hstep t x (.inr ht)) _ _
    (hstep _ l (.inl rfl))

end

/-! ### The arrivals of an instruction (R273, R380) -/

theorem State.arrive_eq (s : State) (n : Nat) (ls : List Nat) : s.arrive n ls =
    if s.barReach s.cur.h s.cur.c s.grp.wgs n || !(ls.any (s.toCount n)) then
      (s.markAll s.cur.h s.cur.c s.grp.wgs n ((s.bar n).phcnt.getLsbD 0) (ls.filter (s.mustCount n)) s.tidxOf).addArrived
        s.cur.h s.cur.c s.grp.wgs n (ls.filter (s.mustCount n)).length
    else s.barDenied s.cur.h s.cur.c s.grp.wgs := rfl

theorem State.barDenied_units (s : State) (h c w : Nat) : (s.barDenied h c w).units = s.units := State.logErr_units ..

/-- Arrivals that the crossbar denies are dropped and logged. -/
theorem State.arrive_denied {n : Nat} {ls : List Nat} (hr : s.barReach s.cur.h s.cur.c s.grp.wgs n = false)
    (hc : ∃ l ∈ ls, s.toCount n l = true) : s.arrive n ls = s.barDenied s.cur.h s.cur.c s.grp.wgs := by
  rw [State.arrive_eq, if_neg]
  rw [hr, Bool.false_or, List.any_eq_true.mpr hc]
  decide

/-- What no arrival changes: neither which group acts, nor the group, nor its threads' numbers. -/
theorem State.arrive_group (s : State) (n : Nat) (ls : List Nat) :
    (s.arrive n ls).cur = s.cur ∧ (s.arrive n ls).grp = s.grp ∧ (s.arrive n ls).core.slots = s.core.slots := by
  rw [State.arrive_eq]
  split
  · have hcur := (cur_addArrived (s.markAll s.cur.h s.cur.c s.grp.wgs n ((s.bar n).phcnt.getLsbD 0) (ls.filter (s.mustCount n)) s.tidxOf)
      s.cur.h s.cur.c s.grp.wgs n (ls.filter (s.mustCount n)).length).trans (cur_markAll ..)
    refine ⟨hcur, grp_of_groups hcur ?_, ?_⟩
    · rw [coreAt_addArrived Core.groups fun _ _ => rfl, coreAt_markAll (g := Core.groups) (hg := fun _ _ => rfl)]
      rfl
    · unfold State.core
      rw [hcur, coreAt_addArrived Core.slots fun _ _ => rfl, coreAt_markAll (g := Core.slots) (hg := fun _ _ => rfl)]
  · have hu := s.barDenied_units s.cur.h s.cur.c s.grp.wgs
    refine ⟨cur_of_units hu, grp_of_units hu, ?_⟩
    unfold State.core
    rw [cur_of_units hu, coreAt_of_units hu Core.slots fun _ => rfl]

theorem State.bar_eq_of_group {n : Nat} (hcur : t.cur = s.cur) (hgrp : t.grp = s.grp) :
    t.bar n = t.barView s.cur.h s.cur.c s.grp.wgs n := by rw [State.bar, hcur, hgrp]

/-- A declared barrier after the arrivals of lanes: those that count are added, and nothing else of it changes. -/
theorem State.bar_arrive {n : Nat} (ls : List Nat) (hv : (s.bar n).valid = true) :
    (s.arrive n ls).bar n = { s.bar n with arrived := (s.bar n).arrived + (ls.filter (s.mustCount n)).length } := by
  obtain ⟨hcur, hgrp, -⟩ := s.arrive_group n ls
  rw [State.bar_eq_of_group hcur hgrp, State.arrive_eq]
  split
  · rw [barView_addArrived _ (by rwa [barView_markAll]), barView_markAll]
    rfl
  next hden =>
    have hr : s.barReach s.cur.h s.cur.c s.grp.wgs n = false := by
      cases h : s.barReach s.cur.h s.cur.c s.grp.wgs n
      · rfl
      · rw [h] at hden
        exact absurd rfl hden
    have hnone : ls.filter (s.mustCount n) = [] := List.filter_eq_nil_iff.mpr fun l _ => by simp [State.mustCount, hr]
    rw [hnone, barView_of_units (State.barDenied_units ..)]
    rfl

theorem State.arrOf_arrive_of_reach {n : Nat} (ls : List Nat) (hr : s.barReach s.cur.h s.cur.c s.grp.wgs n = true) (l : Nat) :
    (s.arrive n ls).arrOf l = (s.markAll s.cur.h s.cur.c s.grp.wgs n ((s.bar n).phcnt.getLsbD 0) (ls.filter (s.mustCount n))
      s.tidxOf).arrival s.cur.h s.cur.c s.grp.wgs (s.tidxOf l) := by
  obtain ⟨hcur, hgrp, hslots⟩ := s.arrive_group n ls
  rw [State.arrOf, State.tidxOf, hcur, hgrp, hslots, State.arrive_eq, hr, Bool.true_or, if_pos rfl, State.arrival,
    coreAt_addArrived Core.wgs fun _ _ => rfl]
  rfl

/-- A lane whose arrival counted has arrived at the phase. -/
theorem State.arrivedAt_arrive {n : Nat} {ls : List Nat} {l : Nat} (hl : l ∈ ls) (hc : s.mustCount n l = true) :
    ((s.arrive n ls).arrOf l).arrivedAt n (s.bar n).phcnt = true := by
  obtain ⟨hto, hr⟩ := Bool.and_eq_true_iff.mp hc
  obtain ⟨-, hmemb⟩ := Bool.and_eq_true_iff.mp hto
  rw [State.arrOf_arrive_of_reach ls hr, Arrival.arrivedAt, memb_markAll,
    testBit_markAll _ _ _ _ _ _ _ _ l (List.mem_filter.mpr ⟨hl, hc⟩), beq_self_eq_true, Bool.and_true]
  exact hmemb

theorem State.mem_arrive_of_reach {n : Nat} (ls : List Nat) (hr : s.barReach s.cur.h s.cur.c s.grp.wgs n = true) :
    (s.arrive n ls).mem = s.mem := by
  rw [State.arrive_eq, hr, Bool.true_or, if_pos rfl, State.addArrived_mem, mem_markAll]

/-! ### Waits (R274) -/

/-- A lane's wait has ended: the barrier is dormant, the phase given lies behind, or the lane has yet to arrive at this one. -/
def State.past (s : State) (n : Nat) (p : Option Reg) (l : Nat) : Prop :=
  (s.bar n).dormant = true ∨ match p with
    | some r => 1 ≤ ((s.bar n).phcnt - s.lreg l r.toNat).toNat ∧ ((s.bar n).phcnt - s.lreg l r.toNat).toNat ≤ 2 ^ 31
    | none => (s.arrOf l).isMember n = true ∧ (s.arrOf l).arrivedAt n (s.bar n).phcnt = false

/-- What a lane waits for, where its wait has not ended. -/
theorem State.waitCond_none (s : State) (n l : Nat) : s.waitCond n none l =
    if (s.bar n).dormant = true ∨ ((s.arrOf l).isMember n = true ∧ (s.arrOf l).arrivedAt n (s.bar n).phcnt = false) then none
    else some (.changed (s.bar n).phcnt) := by
  simp only [State.waitCond]
  cases (s.bar n).dormant <;> cases (s.arrOf l).isMember n <;> cases (s.arrOf l).arrivedAt n (s.bar n).phcnt <;> rfl

theorem condHolds_phase {b : BView} {p : Word} : condHolds b (.phase p) = true ↔
    b.dormant = true ∨ (1 ≤ (b.phcnt - p).toNat ∧ (b.phcnt - p).toNat ≤ 2 ^ 31) := by simp [condHolds]

/-- The condition of a lane holds just where its wait has ended. -/
theorem State.past_iff (s : State) (n : Nat) (p : Option Reg) (l : Nat) :
    s.past n p l ↔ ∀ c, s.waitCond n p l = some c → condHolds (s.bar n) c = true := by
  cases p with
  | some r =>
    have hcond : s.waitCond n (some r) l = some (.phase (s.lreg l r.toNat)) := rfl
    simp only [hcond, Option.some.injEq, forall_eq', condHolds_phase]
    rfl
  | none =>
    have hnone := s.waitCond_none n l
    constructor
    · intro hp c hc
      rw [hnone.trans (if_pos hp)] at hc
      cases hc
    · intro hc
      by_contra hp
      have hdorm : (s.bar n).dormant = false := Bool.eq_false_iff.mpr fun h => hp (.inl h)
      have hholds := hc _ (hnone.trans (if_neg hp))
      simp [condHolds, hdorm] at hholds

/-- What the lanes of a wait wait for. -/
def State.waits (s : State) (n : Nat) (p : Option Reg) (ls : List Nat) : List (Nat × BarCond) :=
  ls.filterMap (fun l => (s.waitCond n p l).map (fun c => (l, c)))

theorem State.all_waits_iff (s : State) (n : Nat) (p : Option Reg) (ls : List Nat) :
    (s.waits n p ls).all (fun c => condHolds (s.bar n) c.2) = true ↔ ∀ l ∈ ls, s.past n p l := by
  simp only [State.waits, List.all_eq_true, List.mem_filterMap, Option.map_eq_some_iff, State.past_iff]
  constructor
  · intro h l hl c hc
    exact h (l, c) ⟨l, hl, c, hc, rfl⟩
  · rintro h _ ⟨l, hl, c, hc, rfl⟩
    exact h l hl c hc

theorem State.waitFor_past {n : Nat} {p : Option Reg} {ls : List Nat} (k : Word) (h : ∀ l ∈ ls, s.past n p l) :
    s.waitFor n k (s.waits n p ls) = s.waitEnd := if_pos ((s.all_waits_iff n p ls).mpr h)

theorem State.waitFor_not_past {n : Nat} {p : Option Reg} {ls : List Nat} (k : Word) (h : ∃ l ∈ ls, ¬ s.past n p l) :
    s.waitFor n k (s.waits n p ls) = (s.setWait (.barWait n k (s.waits n p ls))).inherit := by
  refine if_neg fun hall => ?_
  obtain ⟨l, hl, hp⟩ := h
  exact hp ((s.all_waits_iff n p ls).mp hall l hl)

end Sys2Proof.Machine
end

section
/-! PROOF. The barrier instructions: what each does with no executing lane, on an undeclared or broken barrier, and when it acts. -/

namespace Sys2Proof.Machine

open Sys2Proof.Safety

section

variable {s : State} {m d : MReg} {bar : BarR} {a : Reg} {p : Option Reg}

/-! ### Before a barrier acts (12_synchronisation.md R272, 10_ordering.md R239) -/

/-- The first checks of the barrier instructions. -/
theorem exec_barrier : ∀ i ∈ [Instr.barArr m bar, .barArw m bar, .barWait m bar p, .barExp m bar a, .barTest m d bar p,
    .barPh m a bar], ∃ x : State, exec i s = .next (if s.exe m = 0 then s.advance
      else if !(s.bar bar.toNat).valid then s.trap tBarUse else x) := by
  simp only [List.forall_mem_cons]
  exact ⟨⟨_, rfl⟩, ⟨_, rfl⟩, ⟨_, rfl⟩, ⟨_, rfl⟩, ⟨_, rfl⟩, ⟨_, rfl⟩, List.forall_mem_nil _⟩

/-- The first checks of the barrier instructions that a broken barrier traps. -/
theorem exec_barrier_unless_broken : ∀ i ∈ [Instr.barArr m bar, .barArw m bar, .barWait m bar p, .barExp m bar a],
    ∃ x : State, exec i s = .next (if s.exe m = 0 then s.advance else if !(s.bar bar.toNat).valid then s.trap tBarUse
      else if (s.bar bar.toNat).broken then s.trap tBarBroken else x) := by
  simp only [List.forall_mem_cons]
  exact ⟨⟨_, rfl⟩, ⟨_, rfl⟩, ⟨_, rfl⟩, ⟨_, rfl⟩, List.forall_mem_nil _⟩

theorem exec_barrier_idle (he : s.exe m = 0) {i : Instr} (hi : i ∈ [Instr.barArr m bar, .barArw m bar, .barWait m bar p,
    .barExp m bar a, .barTest m d bar p, .barPh m a bar]) : exec i s = .next s.advance := by
  obtain ⟨x, hx⟩ := exec_barrier (s := s) i hi
  rw [hx, if_pos he]

theorem exec_barrier_undeclared (he : s.exe m ≠ 0) (hv : (s.bar bar.toNat).valid = false) {i : Instr}
    (hi : i ∈ [Instr.barArr m bar, .barArw m bar, .barWait m bar p, .barExp m bar a, .barTest m d bar p, .barPh m a bar]) :
    exec i s = .next (s.trap tBarUse) := by
  obtain ⟨x, hx⟩ := exec_barrier (s := s) i hi
  rw [hx, if_neg he, hv]
  rfl

theorem exec_barrier_broken (he : s.exe m ≠ 0) (hv : (s.bar bar.toNat).valid = true) (hb : (s.bar bar.toNat).broken = true)
    {i : Instr} (hi : i ∈ [Instr.barArr m bar, .barArw m bar, .barWait m bar p, .barExp m bar a]) :
    exec i s = .next (s.trap tBarBroken) := by
  obtain ⟨x, hx⟩ := exec_barrier_unless_broken (s := s) i hi
  rw [hx, if_neg he, hv, hb]
  rfl

/-- At a declared, sound barrier the checks pass. -/
theorem barrier_checked (he : s.exe m ≠ 0) (hv : (s.bar bar.toNat).valid = true) (hb : (s.bar bar.toNat).broken = false) (x : State) :
    (if s.exe m = 0 then s.advance else if !(s.bar bar.toNat).valid then s.trap tBarUse
      else if (s.bar bar.toNat).broken then s.trap tBarBroken else x) = x := by
  rw [if_neg he, hv, hb]
  rfl

/-! ### Arrivals (R273, R274) -/

/-- An arrival's instruction at a declared, sound barrier. -/
theorem exec_arrives (he : s.exe m ≠ 0) (hv : (s.bar bar.toNat).valid = true) (hb : (s.bar bar.toNat).broken = false) (arw : Bool) :
    s.arriveInstr m bar.toNat arw =
      if arw && !(s.released (s.slotsOf (s.exe m))) then s.setWait (.order (s.slotsOf (s.exe m)))
      else if s.drained (s.slotsOf (s.exe m)) then s.arriveGo bar.toNat (s.exe m) 0 arw []
      else s.setWait (.barArr bar.toNat (s.exe m) 0 arw none []) :=
  barrier_checked he hv hb _

theorem filter_not_eq_self {α : Type} {q : α → Bool} {ls : List α} (h : ∀ l ∈ ls, q l = false) :
    ls.filter q = [] ∧ ls.filter (fun l => !q l) = ls :=
  ⟨List.filter_eq_nil_iff.mpr fun l hl => by simp [h l hl], List.filter_eq_self.mpr fun l hl => by simp [h l hl]⟩

theorem State.arriveGo_unheld {n : Nat} {e : Word} (hno : ∀ l ∈ lanesOf e, s.mustHold n l = false) (arw : Bool) :
    s.arriveGo n e 0 arw [] =
      if arw then (s.arrive n (lanesOf e)).waitFor n (maskOf ((lanesOf e).filter (s.mustCount n)))
        ((lanesOf e).map fun l => (l, .phase (s.bar n).phcnt))
      else (s.arrive n (lanesOf e)).endMem.inherit := by
  obtain ⟨hheld, hgo⟩ := filter_not_eq_self hno
  have hzero : ∀ v : Word, 0 ||| v = v := fun v => BitVec.zero_or
  simp only [State.arriveGo, hheld, hgo, List.isEmpty_nil, if_true, hzero, List.nil_append]
  cases arw <;> rfl

/-- The phase that a lane arrived at is the barrier's still, and has not ended. -/
theorem condHolds_phase_self (b : BView) : condHolds b (.phase b.phcnt) = b.dormant := by simp [condHolds]

theorem exists_lane {e : Word} (he : e ≠ 0) : ∃ l, l ∈ lanesOf e := by
  by_contra hno
  refine he (BitVec.eq_of_getLsbD_eq fun l hl => ?_)
  rw [show (0 : Word).getLsbD l = false from BitVec.getLsbD_zero]
  exact Bool.eq_false_iff.mpr fun h => hno ⟨l, mem_lanesOf.mpr ⟨hl, h⟩⟩

/-- The wait of `bar.arw` after its arrivals, which neither end a phase nor make a barrier dormant. -/
theorem State.waitFor_arrived {n : Nat} {e : Word} (he : e ≠ 0) (hv : (s.bar n).valid = true) (k : Word) :
    (s.arrive n (lanesOf e)).waitFor n k ((lanesOf e).map fun l => (l, .phase (s.bar n).phcnt)) =
      if (s.bar n).dormant then (s.arrive n (lanesOf e)).waitEnd
      else ((s.arrive n (lanesOf e)).setWait (.barWait n k ((lanesOf e).map fun l => (l, .phase (s.bar n).phcnt)))).inherit := by
  have hcond : condHolds ((s.arrive n (lanesOf e)).bar n) (.phase (s.bar n).phcnt) = (s.bar n).dormant := by
    rw [State.bar_arrive _ hv]
    exact condHolds_phase_self _
  have hall : ((lanesOf e).map fun l => (l, BarCond.phase (s.bar n).phcnt)).all
      (fun c => condHolds ((s.arrive n (lanesOf e)).bar n) c.2) = (s.bar n).dormant := by
    rw [List.all_map]
    simp only [Function.comp_def, hcond]
    obtain ⟨l, hl⟩ := exists_lane he
    cases hd : (s.bar n).dormant
    · exact List.all_eq_false.mpr ⟨l, hl, nofun⟩
    · exact List.all_eq_true.mpr fun _ _ => rfl
  rw [State.waitFor, hall]

/-! ### Waits (R274) -/

theorem exec_barWait (he : s.exe m ≠ 0) (hv : (s.bar bar.toNat).valid = true) (hb : (s.bar bar.toNat).broken = false) :
    exec (.barWait m bar p) s = .next (if !(s.released (s.slotsOf (s.exe m))) then s.setWait (.order (s.slotsOf (s.exe m)))
      else s.waitFor bar.toNat 0 (s.waits bar.toNat p (lanesOf (s.exe m)))) :=
  congrArg Host.Outcome.next (barrier_checked he hv hb _)

/-! ### Expected contributions (R275) -/

/-- The sum that `bar.exp` adds to PENDING. -/
def State.expected (s : State) (e : Word) (a : Reg) : Int := (lanesOf e).foldl (fun x l => x + (s.lreg l a.toNat).toNat) 0

theorem exec_barExp (he : s.exe m ≠ 0) (hv : (s.bar bar.toNat).valid = true) (hb : (s.bar bar.toNat).broken = false) :
    exec (.barExp m bar a) s = .next (if (2 ^ 47 : Int) - 1 < (s.bar bar.toNat).pending + s.expected (s.exe m) a then s.trap tBarUse
      else (s.modWbar s.cur.h s.cur.c s.grp.wgs bar.toNat
        (fun x => { x with pending := x.pending + s.expected (s.exe m) a })).advance) :=
  congrArg Host.Outcome.next (barrier_checked he hv hb _)

theorem barView_setGrp (s : State) (g : Group) (h c w n : Nat) : (s.setGrp g).barView h c w n = s.barView h c w n := by
  unfold State.barView Core.wbarOf State.setGrp State.setCore
  dsimp only
  rw [coreAt_setCoreAt_part (s := s) (k := { s.core with groups := mset s.core.groups s.cur.g g }) Core.wbars rfl,
    coreAt_setCoreAt_part (s := s) (k := { s.core with groups := mset s.core.groups s.cur.g g }) Core.wgs rfl, State.humAt_setCoreAt]

theorem grp_modWbar (s : State) (h c w n : Nat) (f : Wbar → Wbar) : (s.modWbar h c w n f).grp = s.grp :=
  grp_of_groups (cur_modWbar ..) (coreAt_modWbar Core.groups (fun _ _ => rfl) _ _)

/-- A change of a workgroup barrier at the end of an instruction shows in the barrier, and nothing else of the group changed. -/
theorem modWbar_advance {n : Nat} {f : Wbar → Wbar} (hf : ∀ b, (f b).valid = b.valid ∧ (f b).owner = b.owner ∧ (f b).name = b.name)
    (hn : n < 16) (hv : (s.bar n).valid = true) :
    let t := (s.modWbar s.cur.h s.cur.c s.grp.wgs n f).advance
    (∃ b : Wbar, s.bar n = b.view ∧ t.bar n = (f b).view) ∧ t.mem = s.mem ∧ t.core.rf = s.core.rf
      ∧ t.grp = { s.grp with pc := s.grp.pc + 8, far := 0 } := by
  intro t
  have hcur : t.cur = s.cur := cur_modWbar ..
  have hgrp : t.grp = { s.grp with pc := s.grp.pc + 8, far := 0 } := by rw [grp_advance, grp_modWbar]
  refine ⟨?_, State.modWbar_mem .., ?_, hgrp⟩
  · have hbar : t.bar n = (s.modWbar s.cur.h s.cur.c s.grp.wgs n f).barView s.cur.h s.cur.c s.grp.wgs n := by
      rw [State.bar, hcur, hgrp]
      exact barView_setGrp ..
    rw [hbar]
    exact barView_modWbar hf hn hv
  · refine (State.core_setGrp_rf _ _).trans ?_
    unfold State.core
    rw [cur_modWbar, coreAt_modWbar Core.rf fun _ _ => rfl]

/-! ### Reports (R276, R277) -/

/-- The bit that `bar.test` reports of a lane. -/
def State.barBit (s : State) (n : Nat) (p : Option Reg) (l : Nat) : Bool :=
  !(s.bar n).broken && (match s.waitCond n p l with
    | none => true
    | some c => condHolds (s.bar n) c)

theorem State.barBit_iff (s : State) (n : Nat) (p : Option Reg) (l : Nat) :
    s.barBit n p l = true ↔ (s.bar n).broken = false ∧ s.past n p l := by
  rw [State.past_iff, State.barBit]
  cases s.waitCond n p l <;> simp

/-- At a declared barrier, broken or not, the checks of a report pass. -/
theorem barrier_reports (he : s.exe m ≠ 0) (hv : (s.bar bar.toNat).valid = true) (x : State) :
    (if s.exe m = 0 then s.advance else if !(s.bar bar.toNat).valid then s.trap tBarUse else x) = x := by
  rw [if_neg he, hv]
  rfl

theorem exec_barTest (he : s.exe m ≠ 0) (hv : (s.bar bar.toNat).valid = true) : exec (.barTest m d bar p) s = .next (
    if !(s.released (s.slotsOf (s.exe m))) then s.setWait (.order (s.slotsOf (s.exe m)))
    else
      let u := s.setMBits d.toNat (s.exe m) (maskBy (s.barBit bar.toNat p))
      (if (lanesOf (s.exe m)).any (s.barBit bar.toNat p) then u.acquire else u).advance) :=
  congrArg Host.Outcome.next (barrier_reports he hv _)

theorem exec_barPh (he : s.exe m ≠ 0) (hv : (s.bar bar.toNat).valid = true) : exec (.barPh m a bar) s = .next (
    if !(s.released (s.slotsOf (s.exe m))) then s.setWait (.order (s.slotsOf (s.exe m)))
    else ((s.writePair (s.live m) a.toNat
      (fun l => (s.bar bar.toNat).phcnt.toNat + 2 ^ 32 * s.barStatus bar.toNat l)).acquire).advance) :=
  congrArg Host.Outcome.next (barrier_reports he hv _)

/-- What an acquire step that may follow keeps. -/
theorem acquire_ite_keeps (s : State) (c : Prop) [Decidable c] :
    (if c then s.acquire else s).grp = s.grp ∧ (if c then s.acquire else s).core.rf = s.core.rf := by
  split
  · exact ⟨s.grp_acquire, s.core_acquire Core.rf fun _ => rfl⟩
  · exact ⟨rfl, rfl⟩

theorem grp_setM (s : State) (i : Nat) (v : Word) :
    (s.setM i v).grp = { s.grp with m := mset s.grp.m i (if i = 0 then v &&& s.grp.member else v) } := State.grp_setGrp _ _

theorem runs_barTest (he : s.exe m ≠ 0) (hv : (s.bar bar.toNat).valid = true) (hr : s.released (s.slotsOf (s.exe m)) = true) :
    Runs (.barTest m d bar p) s (fun t =>
      (∀ l, l < 32 → ((t.grp.mreg d.toNat).getLsbD l =
        ((if (s.exe m).getLsbD l then s.barBit bar.toNat p l else (s.grp.mreg d.toNat).getLsbD l)
          && (d != 0 || s.grp.member.getLsbD l))))
      ∧ (∀ i, i ≠ d.toNat → t.grp.mreg i = s.grp.mreg i)
      ∧ t.mem = s.mem ∧ t.core.rf = s.core.rf ∧ t.grp.s = s.grp.s ∧ t.grp.pc = s.grp.pc + 8) := by
  refine ⟨_, (exec_barTest he hv).trans (congrArg Host.Outcome.next (if_neg (by simp [hr]))), ?_⟩
  dsimp only
  obtain ⟨hgrp, hrf⟩ := acquire_ite_keeps (s.setMBits d.toNat (s.exe m) (maskBy (s.barBit bar.toNat p)))
    ((lanesOf (s.exe m)).any (s.barBit bar.toNat p) = true)
  refine ⟨fun l hl => ?_, fun i hi => ?_, ?_, ?_, ?_, ?_⟩
  · rw [State.mreg_advance, hgrp, State.getLsbD_mreg_setMBits _ _ _ _ hl]
  · rw [State.mreg_advance, hgrp, State.mreg_setMBits_ne _ _ _ hi]
  · simp
  · rw [State.core_advance, hrf]
    exact State.core_setGrp_rf _ _
  · rw [grp_advance, hgrp, State.setMBits, grp_setM]
  · rw [grp_advance, hgrp, State.setMBits, grp_setM]

end

end Sys2Proof.Machine
end

section
/-! PROOF. Barriers: arrivals, waits, expected contributions and reports. -/

namespace Sys2Proof.Machine

open Sys2Proof.Safety

section

variable {s : State} {m d : MReg} {bar : BarR} {a : Reg} {p : Option Reg}

/-! ### Register pairs written as numbers (R35) -/

theorem lo32_ofNat (x : Nat) : lo32 (BitVec.ofNat 64 x) = BitVec.ofNat 32 x := by
  apply BitVec.eq_of_toNat_eq
  simp only [lo32, BitVec.extractLsb'_toNat, BitVec.toNat_ofNat, Nat.shiftRight_zero]
  omega

theorem hi32_ofNat (x : Nat) : hi32 (BitVec.ofNat 64 x) = BitVec.ofNat 32 (x / 2 ^ 32) := by
  apply BitVec.eq_of_toNat_eq
  simp only [hi32, BitVec.extractLsb'_toNat, BitVec.toNat_ofNat, Nat.shiftRight_eq_div_pow]
  omega

/-- The registers after a pair of each live lane was written. -/
theorem writePair_law (hr : RowsApart s) (live : Word) {j : Nat} (hj : j + 1 < s.wg.n) (f : Nat → Nat) :
    SameBut s (s.writePair live j f) ∧ ∀ l k, HasRegs s l → k < s.wg.n → (s.writePair live j f).lreg l k =
      if live.getLsbD l = true ∧ k = j then BitVec.ofNat 32 (f l)
      else if live.getLsbD l = true ∧ k = j + 1 then BitVec.ofNat 32 (f l / 2 ^ 32) else s.lreg l k := by
  obtain ⟨hsame, hreg, -⟩ := writeTy64_law hr .n64 rfl live j hj (fun l => BitVec.ofNat 64 (f l))
  refine ⟨hsame, fun l k hl hk => (hreg l k hl hk).trans ?_⟩
  rw [lo32_ofNat, hi32_ofNat]

/-- An instruction's end after an acquire step and writes of the lanes' registers. -/
theorem SameBut.acquire_advance {u : State} (h : SameBut s u) :
    (∀ l k, u.acquire.advance.lreg l k = u.lreg l k)
      ∧ u.acquire.advance.grp = { s.grp with hregs := u.grp.hregs, pc := s.grp.pc + 8, far := 0 } := by
  refine ⟨fun l k => by rw [State.lreg_advance, State.lreg_acquire], ?_⟩
  rw [grp_advance, State.grp_acquire, h.pc]
  conv => lhs; rw [h.grp]

/-! ### The clauses of the barrier instructions -/

theorem exec_barArr_drained (he : s.exe m ≠ 0) (hv : (s.bar bar.toNat).valid = true) (hb : (s.bar bar.toNat).broken = false)
    (hd : s.drained (s.slotsOf (s.exe m)) = true) (hno : ∀ l ∈ lanesOf (s.exe m), s.mustHold bar.toNat l = false) :
    exec (.barArr m bar) s = .next (s.arrive bar.toNat (lanesOf (s.exe m))).endMem.inherit := by
  refine congrArg Host.Outcome.next ((exec_arrives he hv hb false).trans ?_)
  rw [Bool.false_and, if_neg Bool.false_ne_true, if_pos hd, State.arriveGo_unheld hno]
  rfl

theorem exec_barArw_drained (he : s.exe m ≠ 0) (hv : (s.bar bar.toNat).valid = true) (hb : (s.bar bar.toNat).broken = false)
    (hd : s.drained (s.slotsOf (s.exe m)) = true) (hno : ∀ l ∈ lanesOf (s.exe m), s.mustHold bar.toNat l = false)
    (hr : s.released (s.slotsOf (s.exe m)) = true) : exec (.barArw m bar) s = .next (
      let t := s.arrive bar.toNat (lanesOf (s.exe m))
      if (s.bar bar.toNat).dormant then t.waitEnd
      else (t.setWait (.barWait bar.toNat (maskOf ((lanesOf (s.exe m)).filter (s.mustCount bar.toNat)))
        ((lanesOf (s.exe m)).map fun l => (l, .phase (s.bar bar.toNat).phcnt)))).inherit) := by
  refine congrArg Host.Outcome.next ((exec_arrives he hv hb true).trans ?_)
  rw [hr, Bool.not_true, Bool.and_false, if_neg Bool.false_ne_true, if_pos hd, State.arriveGo_unheld hno, if_pos rfl,
    State.waitFor_arrived he hv]

theorem exec_arrives_undrained (he : s.exe m ≠ 0) (hv : (s.bar bar.toNat).valid = true) (hb : (s.bar bar.toNat).broken = false)
    (hd : s.drained (s.slotsOf (s.exe m)) = false) (arw : Bool) (hr : arw = true → s.released (s.slotsOf (s.exe m)) = true) :
    s.arriveInstr m bar.toNat arw = s.setWait (.barArr bar.toNat (s.exe m) 0 arw none []) := by
  have hfirst : (arw && !(s.released (s.slotsOf (s.exe m)))) = false := by
    cases arw
    · rfl
    · rw [hr rfl]
      rfl
  rw [exec_arrives he hv hb, hfirst, hd]
  rfl

theorem State.map_waitCond_none (s : State) (n l : Nat) : (s.waitCond n none l).map (fun c => (l, c)) =
    if (s.bar n).dormant = true ∨ ((s.arrOf l).isMember n = true ∧ (s.arrOf l).arrivedAt n (s.bar n).phcnt = false) then none
    else some (l, .changed (s.bar n).phcnt) := by
  rw [State.waitCond_none]
  split <;> rfl

theorem does_barExp (he : s.exe m ≠ 0) (hv : (s.bar bar.toNat).valid = true) (hb : (s.bar bar.toNat).broken = false)
    (hle : (s.bar bar.toNat).pending + s.expected (s.exe m) a ≤ 2 ^ 47 - 1) : Does (.barExp m bar a) s (fun t =>
      (t.bar bar.toNat).pending = (s.bar bar.toNat).pending + s.expected (s.exe m) a
      ∧ (t.bar bar.toNat).arrived = (s.bar bar.toNat).arrived ∧ (t.bar bar.toNat).phcnt = (s.bar bar.toNat).phcnt
      ∧ t.mem = s.mem ∧ t.core.rf = s.core.rf ∧ t.grp = { s.grp with pc := s.grp.pc + 8, far := 0 }) := by
  intro hwf
  refine ⟨_, (exec_barExp he hv hb).trans (congrArg Host.Outcome.next (if_neg (Int.not_lt.mpr hle))), ?_⟩
  obtain ⟨⟨b, hold, hnew⟩, hrest⟩ := modWbar_advance (s := s) (f := fun x => { x with pending := x.pending + s.expected (s.exe m) a })
    (fun _ => ⟨rfl, rfl, rfl⟩) (of_decide_eq_true (and2_left hwf)) hv
  rw [hnew, hold]
  exact ⟨rfl, rfl, rfl, hrest⟩

theorem barStatus_lt (s : State) (n l : Nat) : s.barStatus n l < 16 := by
  have h1 := b2n_le_one (s.bar n).broken
  have h2 := b2n_le_one (s.grp.member.getLsbD l && (s.arrOf l).isMember n)
  have h3 := b2n_le_one (s.grp.member.getLsbD l && (s.arrOf l).arrivedAt n (s.bar n).phcnt)
  have h4 := b2n_le_one (s.bar n).dormant
  simp only [State.barStatus]
  omega

theorem does_barPh (hr : RowsApart s) (he : s.exe m ≠ 0) (hv : (s.bar bar.toNat).valid = true)
    (hrel : s.released (s.slotsOf (s.exe m)) = true) : Does (.barPh m a bar) s (fun t =>
      (∀ l k, HasRegs s l → k < s.wg.n → t.lreg l k =
        if (s.live m).getLsbD l = true ∧ k = a.toNat then (s.bar bar.toNat).phcnt
        else if (s.live m).getLsbD l = true ∧ k = a.toNat + 1 then BitVec.ofNat 32 (s.barStatus bar.toNat l) else s.lreg l k)
      ∧ t.mem = s.mem ∧ t.grp.s = s.grp.s ∧ t.grp.m = s.grp.m ∧ t.grp.pc = s.grp.pc + 8) := by
  intro hwf
  refine ⟨_, (exec_barPh he hv).trans (congrArg Host.Outcome.next (if_neg (by simp [hrel]))), ?_⟩
  obtain ⟨hsame, hreg⟩ := writePair_law hr (s.live m) (j := a.toNat) (of_decide_eq_true (and2_right (and2_left hwf)))
    (fun l => (s.bar bar.toNat).phcnt.toNat + 2 ^ 32 * s.barStatus bar.toNat l)
  obtain ⟨hlreg, hgrp⟩ := hsame.acquire_advance
  refine ⟨fun l k hl hk => ?_, by simp, by rw [hgrp], by rw [hgrp], by rw [hgrp]⟩
  have hphcnt : BitVec.ofNat 32 ((s.bar bar.toNat).phcnt.toNat + 2 ^ 32 * s.barStatus bar.toNat l) = (s.bar bar.toNat).phcnt := by
    apply BitVec.eq_of_toNat_eq
    rw [BitVec.toNat_ofNat]
    omega
  have hstatus : ((s.bar bar.toNat).phcnt.toNat + 2 ^ 32 * s.barStatus bar.toNat l) / 2 ^ 32 = s.barStatus bar.toNat l := by omega
  rw [hlreg, hreg l k hl hk, hphcnt, hstatus]

end

/-- Settles O39: each clause is a branch of its instruction; arrivals change a barrier's count and the marks alone, so that a wait
follows the barrier as it stood. -/
theorem barrierInstructionsRun : Obligations.BarrierInstructionsRun := by
  intro s m d bar a p e ls n b counts past cond all
  refine ⟨?idle, ?undeclared, ?broken, fun he hv hb => ⟨?order, ?undrained, ?arrives, ?goesOn, ?waits, ?expected, ?tooMany⟩,
    ?ordered, fun he hv hr => ⟨?test, fun hrows => ?status⟩⟩
  case idle => exact fun he i hi => ⟨_, exec_barrier_idle he hi, rfl⟩
  case undeclared => exact fun he hv i hi => exec_barrier_undeclared he hv hi
  case broken => exact fun he hv hb i hi => exec_barrier_broken he hv hb hi
  case order =>
    intro hr
    refine List.forall_mem_cons.mpr ⟨?_, List.forall_mem_singleton.mpr ?_⟩
    · exact congrArg Host.Outcome.next ((exec_arrives he hv hb true).trans (if_pos (by simp [hr, e])))
    · exact (exec_barWait he hv hb).trans (congrArg Host.Outcome.next (if_pos (by simp [hr, e])))
  case undrained =>
    exact fun hd => ⟨congrArg Host.Outcome.next (exec_arrives_undrained he hv hb hd false nofun),
      fun hr => congrArg Host.Outcome.next (exec_arrives_undrained he hv hb hd true fun _ => hr)⟩
  case arrives =>
    intro hd hno t
    have hbar := State.bar_arrive ls hv
    refine ⟨exec_barArr_drained he hv hb hd hno, fun hr hdorm => ?_, fun hr hdorm => ?_, (congrArg BView.arrived hbar :),
      (congrArg BView.phcnt hbar :), fun l hl hc => State.arrivedAt_arrive hl hc, State.mem_arrive_of_reach ls, State.arrive_denied⟩
    · exact (exec_barArw_drained he hv hb hd hno hr).trans (congrArg Host.Outcome.next (if_pos hdorm))
    · exact (exec_barArw_drained he hv hb hd hno hr).trans (congrArg Host.Outcome.next (if_neg (by rw [hdorm]; decide)))
  case goesOn =>
    intro hr hall
    refine (exec_barWait he hv hb).trans (congrArg Host.Outcome.next ((if_neg (by simp [hr, e])).trans ?_))
    exact State.waitFor_past 0 hall
  case waits =>
    intro hr hsome
    refine (exec_barWait he hv hb).trans (congrArg Host.Outcome.next ((if_neg (by simp [hr, e])).trans ?_))
    have hcond : ∀ l, (s.waitCond n p l).map (fun c => (l, c)) = cond l := by
      intro l
      cases p with
      | some r => rfl
      | none => exact s.map_waitCond_none n l
    have hwaits : s.waits n p ls = ls.filterMap cond := congrArg (List.filterMap · ls) (funext hcond)
    rw [← hwaits]
    exact State.waitFor_not_past 0 hsome
  case expected => exact does_barExp he hv hb
  case tooMany => exact fun hgt => (exec_barExp he hv hb).trans (congrArg Host.Outcome.next (if_pos hgt))
  case ordered =>
    intro he hv hr
    refine List.forall_mem_cons.mpr ⟨?_, List.forall_mem_singleton.mpr ?_⟩
    · exact (exec_barTest he hv).trans (congrArg Host.Outcome.next (if_pos (by simp [hr, e])))
    · exact (exec_barPh he hv).trans (congrArg Host.Outcome.next (if_pos (by simp [hr, e])))
  case test =>
    obtain ⟨t, hexec, hbits, hrest⟩ := runs_barTest (p := p) (d := d) he hv hr
    refine ⟨t, hexec, fun l hl => ?_, hrest⟩
    rw [hbits l hl, Bool.and_eq_true, Bool.or_eq_true, bne_iff_ne]
    refine and_congr ?_ Iff.rfl
    split
    · exact State.barBit_iff s n p l
    · exact Iff.rfl
  case status => exact does_barPh hrows he hv hr

end Sys2Proof.Machine
end

section
/-! SUPPORT. Words in a scratchpad, channel states and slots, and convergence registers. -/

namespace Sys2Proof.Machine

open Sys2Proof.Safety

variable {s t : State}

/-! ### Words stored one after another (01_conventions.md R3) -/

theorem readN_congr {m m' : Memory} {n : Nat} : ∀ {a : Nat}, (∀ b, a ≤ b → b < a + n → memRead m' b = memRead m b) →
    readN m' a n = readN m a n := by
  induction n with
  | zero => exact fun _ => rfl
  | succ n ih =>
    intro a h
    rw [readN, readN, h a (by omega) (by omega), ih fun b hlo hhi => h b (by omega) (by omega)]

theorem readN_writeN_of_disjoint (m : Memory) {a b n k : Nat} (v : Nat) (h : b + k ≤ a ∨ a + n ≤ b) :
    readN (writeN m a n v) b k = readN m b k :=
  readN_congr fun c hlo hhi => by rw [memRead_writeN, if_neg (by omega)]

/-- A row of words from an address, written in order: each reads back. -/
theorem readN_foldl_writeN (b : Nat) (f : Nat → Nat) (m : Memory) {l : Nat} : ∀ {n : Nat}, l < n →
    readN ((List.range n).foldl (fun m i => writeN m (b + 4 * i) 4 (f i)) m) (b + 4 * l) 4 = f l % 256 ^ 4 := by
  intro n
  induction n with
  | zero => exact fun h => absurd h (Nat.not_lt_zero l)
  | succ n ih =>
    intro hl
    rw [List.range_succ, List.foldl_append, List.foldl_cons, List.foldl_nil]
    by_cases hln : l = n
    · rw [hln, readN_writeN]
    · rw [readN_writeN_of_disjoint _ _ (by omega), ih (by omega)]

/-! ### Slots of a channel (12_synchronisation.md R284, R286) -/

/-- A change of a channel state changes workgroups of one core alone. -/
theorem coreAt_modChan {β : Type} (g : Core → β) (hg : ∀ (k : Core) w, g { k with wgs := w } = g k) (s : State) (r : GRef) (ch : Nat)
    (f : Chan → Chan) (h c : Nat) : g ((s.modChan r ch f).coreAt h c) = g (s.coreAt h c) :=
  coreAt_setCoreAt_part g (hg _ _) h c

theorem coreAt_setScr {β : Type} (g : Core → β) (hg : ∀ (k : Core) x, g { k with scratch := x } = g k) (s : State) (h c a n v h' c' : Nat) :
    g ((s.setScr (coreKey h c) a n v).coreAt h' c') = g (s.coreAt h' c') :=
  coreAt_setCoreAt_part (k := { s.coreAt h c with scratch := writeN (s.coreAt h c).scratch a n v }) g (hg _ _) h' c'

theorem scratch_setScr (s : State) (h c a n v : Nat) :
    ((s.setScr (coreKey h c) a n v).coreAt h c).scratch = writeN (s.coreAt h c).scratch a n v :=
  congrArg Core.scratch (s.coreAt_setCoreAt_self h c { s.coreAt h c with scratch := writeN (s.coreAt h c).scratch a n v })

/-- The state with words put into a scratchpad, before the receiver's channel counts them. -/
def State.putWords (s : State) (r : GRef) (b : Nat) (words : List Word) (n : Nat) : State :=
  (List.range n).foldl (fun t i => t.setScr (coreKey r.h r.c) (b + 4 * i) 4 (words.getD i 0).toNat) s

theorem State.scratch_putWords (s : State) (r : GRef) (b : Nat) (words : List Word) (n : Nat) :
    ((s.putWords r b words n).coreAt r.h r.c).scratch =
      (List.range n).foldl (fun m i => writeN m (b + 4 * i) 4 (words.getD i 0).toNat) (s.coreAt r.h r.c).scratch :=
  (List.foldl_hom (fun t : State => (t.coreAt r.h r.c).scratch) fun t _ => (scratch_setScr t ..).symm).symm

theorem State.groups_putWords (s : State) (r : GRef) (b : Nat) (words : List Word) (n h c : Nat) :
    ((s.putWords r b words n).coreAt h c).groups = (s.coreAt h c).groups :=
  foldl_fixes (fun t : State => (t.coreAt h c).groups) _ (fun t _ => coreAt_setScr Core.groups (fun _ _ => rfl) t ..) _ s

theorem State.putWords_fns (s : State) (r : GRef) (b : Nat) (words : List Word) (n : Nat) : (s.putWords r b words n).fns = s.fns := by
  unfold State.putWords
  exact foldl_fixes State.fns _ (fun t _ => show (t.setScr _ _ _ _).fns = t.fns from rfl) _ s

theorem State.putWords_cur (s : State) (r : GRef) (b : Nat) (words : List Word) (n : Nat) : (s.putWords r b words n).cur = s.cur := by
  unfold State.putWords
  exact foldl_fixes State.cur _ (fun t _ => show (t.setScr _ _ _ _).cur = t.cur from rfl) _ s

theorem State.scratch_endMem (s : State) (h c : Nat) : (s.endMem.coreAt h c).scratch = (s.coreAt h c).scratch := by
  rw [State.endMem_eq]
  exact coreAt_setCoreAt_part (k := { s.core with groups := mset s.core.groups s.cur.g s.grp.ended }) Core.scratch rfl h c

/-- The first byte of the next slot of a channel at its receiver. -/
def State.nextSlot (s : State) (r : GRef) (ch : Nat) : Nat :=
  let q : Chan := mget {} (mget ({} : Wg) (s.coreAt r.h r.c).wgs r.g).chans ch
  (q.line0 + (q.head + q.full) % q.slots) * 128

/-- The state with a filled slot of a channel counted at its receiver and at the acting group's workgroup. -/
def State.countSlot (v : State) (r : GRef) (ch : Nat) : State :=
  let u := v.modChan r ch fun x => { x with full := x.full + 1 }
  if r = u.wgRef then u else u.modChan u.wgRef ch fun x => { x with full := x.full + 1 }

/-- Counting a slot changes channel states alone. -/
theorem State.countSlot_keeps (v : State) (r : GRef) (ch : Nat) :
    (v.countSlot r ch).cur = v.cur ∧ (v.countSlot r ch).fns = v.fns
      ∧ (∀ h c, ((v.countSlot r ch).coreAt h c).groups = (v.coreAt h c).groups)
      ∧ ∀ h c, ((v.countSlot r ch).coreAt h c).scratch = (v.coreAt h c).scratch := by
  have hgroups := fun v r f h c => coreAt_modChan Core.groups (fun _ _ => rfl) v r ch f h c
  have hscratch := fun v r f h c => coreAt_modChan Core.scratch (fun _ _ => rfl) v r ch f h c
  unfold State.countSlot
  dsimp only
  split
  · exact ⟨rfl, rfl, fun h c => hgroups v .., fun h c => hscratch v ..⟩
  · exact ⟨rfl, rfl, fun h c => (hgroups ..).trans (hgroups v ..), fun h c => (hscratch ..).trans (hscratch v ..)⟩

/-- A send fills the next slot of its receiver and counts it. -/
theorem State.fillSlot_eq (s : State) {r : GRef} {ch : Nat} (words : List Word) (hr : s.findWg s.wg.launch (s.chan ch).peer = some r) :
    s.fillSlot ch words = (s.putWords r (s.nextSlot r ch) words 32).countSlot r ch := by
  unfold State.fillSlot
  rw [hr]
  unfold State.putSlotAt State.countSlot State.putWords State.nextSlot
  dsimp only

/-- A send's words stand in the slot, and its group goes on (R286). -/
theorem State.fillSlot_endMem (s : State) {r : GRef} {ch : Nat} {words : List Word}
    (hr : s.findWg s.wg.launch (s.chan ch).peer = some r) :
    let t := (s.fillSlot ch words).endMem
    (∀ l, l < 32 → readN (t.coreAt r.h r.c).scratch (s.nextSlot r ch + 4 * l) 4 = (words.getD l 0).toNat)
      ∧ t.mem = s.mem ∧ t.fns = s.fns ∧ t.grp = s.grp.ended := by
  obtain ⟨hcur, hfns, hgroups, hscratch⟩ := (s.putWords r (s.nextSlot r ch) words 32).countSlot_keeps r ch
  rw [← s.fillSlot_eq words hr] at hcur hfns hgroups hscratch
  have hgrp : (s.fillSlot ch words).grp = s.grp :=
    grp_of_groups (hcur.trans (s.putWords_cur ..)) ((hgroups ..).trans (s.groups_putWords ..))
  refine ⟨fun l hl => ?_, by simp, hfns.trans (s.putWords_fns ..), by rw [State.grp_endMem, hgrp]⟩
  rw [State.scratch_endMem, hscratch, State.scratch_putWords, readN_foldl_writeN _ _ _ hl]
  exact Nat.mod_eq_of_lt (words.getD l 0).isLt

/-- A change of a channel state of the acting group's workgroup. -/
theorem State.modChan_wgRef (s : State) (ch : Nat) (f : Chan → Chan) :
    s.modChan s.wgRef ch f = s.setWg { s.wg with chans := mset s.wg.chans ch (f (s.chan ch)) } := rfl

end Sys2Proof.Machine
end

section
/-! PROOF. Convergence registers and channels. -/

namespace Sys2Proof.Machine

open Sys2Proof.Safety

section

variable {s : State} {m : MReg} {a : Reg} {ch : BitVec 4} {cv : BitVec 3}

/-! ### Convergence registers (R281, R283) -/

/-- The size that `cvdecl` declares. -/
def State.cvSize (s : State) (m : MReg) : CvSize → Nat
  | .imm k => k.toNat
  | .reg b => (s.lreg (lowest (s.exe m)) b.toNat).toNat

theorem exec_cvdecl (s : State) (m : MReg) (cv : BitVec 3) (size : CvSize) :
    let n := s.cvSize m size
    exec (.cvdecl m cv size) s = .next (if s.exe m = 0 then s.advance
      else if n < 1 || 1024 < n || (mget {} s.wg.cvs cv.toNat).signed != 0 then s.trap tCvState
      else (s.setCvSize cv.toNat n).advance) := by
  cases size <;> rfl

theorem State.outranked_iff (s : State) (i : Nat) :
    s.outranked i = true ↔ ∃ g, mfind s.wg.kw i = some (s.cycles s.cur.h, g) ∧ g < s.cur.g := by
  unfold State.outranked
  split
  next t g hfind =>
    rw [hfind, Bool.and_eq_true, beq_iff_eq, decide_eq_true_iff]
    refine ⟨fun ⟨ht, hg⟩ => ⟨g, by rw [ht], hg⟩, fun ⟨x, hx, hlt⟩ => ?_⟩
    obtain ⟨rfl, rfl⟩ := Prod.mk.inj (Option.some.inj hx)
    exact ⟨rfl, hlt⟩
  next hfind => simp [hfind]

theorem exec_cvdecl_sized {size : CvSize} (he : s.exe m ≠ 0) (hlo : 1 ≤ s.cvSize m size) (hhi : s.cvSize m size ≤ 1024)
    (hs : (mget {} s.wg.cvs cv.toNat : Cv).signed = 0) :
    exec (.cvdecl m cv size) s = .next (s.setCvSize cv.toNat (s.cvSize m size)).advance := by
  rw [exec_cvdecl, if_neg he, if_neg]
  simp only [Bool.or_eq_true, decide_eq_true_iff, bne_iff_ne, hs]
  omega

/-! ### Sends (R286) -/

/-- What a send puts in a slot: the register of each lane of E, and 0 for the others. -/
def State.sendWords (s : State) (m : MReg) (a : Reg) : List Word :=
  (List.range 32).map fun l => if (s.exe m).getLsbD l then s.lreg l a.toNat else 0

theorem State.getD_sendWords (s : State) (m : MReg) (a : Reg) {l : Nat} (hl : l < 32) :
    (s.sendWords m a).getD l 0 = if (s.exe m).getLsbD l then s.lreg l a.toNat else 0 := by
  simp [State.sendWords, hl]

theorem exec_send (hsnd : (s.chan ch.toNat).snd = true) : exec (.send m ch a) s = .next (
    if s.exe m = 0 then s.advance
    else if s.canSend ch.toNat (s.slotsOf (s.exe m)) then s.sendGo ch.toNat (s.sendWords m a)
    else s.setWait (.send ch.toNat (s.slotsOf (s.exe m)) (s.sendWords m a))) :=
  congrArg Host.Outcome.next (if_neg (by rw [hsnd]; decide))

/-! ### Receives (R286, R287) -/

theorem exec_recv (hrcv : (s.chan ch.toNat).rcv = true) : exec (.recv m a ch) s = .next (
    if s.exe m = 0 then s.advance
    else if !(s.released (s.slotsOf (s.exe m))) then s.setWait (.order (s.slotsOf (s.exe m)))
    else if (s.chan ch.toNat).full = 0 && !(s.chan ch.toNat).peerEnded then (s.setWait (.recv ch.toNat a m)).inherit
    else s.recvGo ch.toNat a m) :=
  congrArg Host.Outcome.next (if_neg (by rw [hrcv]; decide))

theorem exec_recv_ordered (hrcv : (s.chan ch.toNat).rcv = true) (he : s.exe m ≠ 0) (hrel : s.released (s.slotsOf (s.exe m)) = true) :
    exec (.recv m a ch) s = .next (
      if (s.chan ch.toNat).full = 0 && !(s.chan ch.toNat).peerEnded then (s.setWait (.recv ch.toNat a m)).inherit
      else s.recvGo ch.toNat a m) := by
  rw [exec_recv hrcv, if_neg he, hrel]
  rfl

/-- Taking the slot at HEAD: registers, the freed slot and the acquire as one event. -/
theorem State.takeSlot_law (hr : RowsApart s) (ha : a.toNat < s.wg.n) (ch : Nat) :
    let q := s.chan ch
    let t := s.takeSlot ch a m
    (∀ l k, HasRegs s l → k < s.wg.n → t.lreg l k = if (s.live m).getLsbD l = true ∧ k = a.toNat
        then BitVec.ofNat 32 (readN s.core.scratch ((q.line0 + q.head) * 128 + 4 * l) 4) else s.lreg l k)
      ∧ t.chan ch = { q with full := q.full - 1, head := (q.head + 1) % q.slots, freed := if q.snd then q.freed else q.freed + 1 }
      ∧ t.mem = s.mem ∧ t.core.scratch = s.core.scratch ∧ t.grp.s = s.grp.s ∧ t.grp.m = s.grp.m ∧ t.grp.pc = s.grp.pc + 8 := by
  intro q t
  obtain ⟨hsame, hreg, -⟩ := writeLanes_law hr (SameBut.refl s) (s.live m) a.toNat ha
    fun l => BitVec.ofNat 32 (readN s.core.scratch ((q.line0 + q.head) * 128 + 4 * l) 4)
  generalize hu : s.writeLanes (s.live m) a.toNat _ = u at hsame hreg
  let f : Chan → Chan := fun x => { x with
    full := x.full - 1, head := (x.head + 1) % x.slots, freed := if x.snd then x.freed else x.freed + 1 }
  let w : Wg := { u.wg with chans := mset u.wg.chans ch (f (u.chan ch)) }
  let v := u.setWg w
  have ht : t = v.acquire.endMem := by
    have href : s.wgRef = u.wgRef := by simp only [State.wgRef, hsame.cur, hsame.grp_wgs]
    change ((s.writeLanes (s.live m) a.toNat _).modChan s.wgRef ch f).acquire.endMem = _
    rw [hu, href, State.modChan_wgRef]
  have hgrp : t.grp = u.grp.ended := by rw [ht, State.grp_endMem, State.grp_acquire, State.grp_setWg]
  refine ⟨fun l k hl hk => ?_, ?_, by simp [t], ?_, ?_, ?_, ?_⟩
  · rw [ht, State.lreg_endMem, State.lreg_acquire, State.lreg_setWg u (w := w) rfl rfl rfl, hreg l k hl hk]
  · rw [ht, State.chan, State.wg_endMem, State.wg_acquire, State.wg_setWg, mget_mset_self, State.chan, hsame.wg]
    rfl
  · rw [ht, State.core_endMem, State.core_acquire v Core.scratch fun _ => rfl, State.core_setWg]
    exact hsame.core_part Core.scratch (fun _ _ => rfl) fun _ _ => rfl
  · rw [hgrp, hsame.grp]; rfl
  · rw [hgrp, hsame.grp]; rfl
  · rw [hgrp, hsame.grp]; rfl

end

/-- Settles O40: each clause is a branch of its instruction; a send writes a slot's 32 words one after another, and a receive's three
writes touch parts of their own. -/
theorem convergenceAndChannelInstructionsRun : Obligations.ConvergenceAndChannelInstructionsRun := by
  intro s m cv size a ch e c n q adv
  have hsize : n = s.cvSize m size := by cases size <;> rfl
  refine ⟨?declIdle, ?declBad, ?decl, ?cvq, ?chq, ?sendEnd, ?recvEnd, ?sendIdle, ?recvIdle, ?send, ?recv⟩
  case declIdle => exact fun he => ⟨_, (exec_cvdecl ..).trans (congrArg Host.Outcome.next (if_pos he)), rfl⟩
  case declBad =>
    intro he hbad
    rw [exec_cvdecl, if_neg he, if_pos]
    rw [hsize] at hbad
    simpa [or_assoc] using hbad
  case decl =>
    intro he hlo hhi hs first
    have hexec := exec_cvdecl_sized he (hsize ▸ hlo) (hsize ▸ hhi) hs
    rw [← hsize] at hexec
    have hfirst : s.outranked (97 + cv.toNat) = true ↔ first := s.outranked_iff _
    refine ⟨fun hno => ⟨_, hexec, ?_⟩, fun hyes => ⟨_, hexec, ?_⟩⟩
    · rw [State.setCvSize, if_neg (mt hfirst.mp hno)]
      exact onlyWg_setWg_advance _ _
    · rw [State.setCvSize, if_pos (hfirst.mpr hyes)]
      rfl
  case cvq => exact fun hr hwf => runs_lanes_of_64 (ty := .n64) hr rfl hwf rfl fun _ => rfl
  case chq => exact fun hr hwf => runs_lanes32 hr hwf rfl fun _ => rfl
  case sendEnd => exact fun h => congrArg Host.Outcome.next (if_pos (by rw [h]; rfl))
  case recvEnd => exact fun h => congrArg Host.Outcome.next (if_pos (by rw [h]; rfl))
  case sendIdle => exact fun h he => ⟨_, (exec_send h).trans (congrArg Host.Outcome.next (if_pos he)), rfl⟩
  case recvIdle => exact fun h he => ⟨_, (exec_recv h).trans (congrArg Host.Outcome.next (if_pos he)), rfl⟩
  case send =>
    intro hsnd he words
    have hexec := exec_send (m := m) (a := a) hsnd
    rw [if_neg he] at hexec
    refine ⟨fun hend => ?_, fun hend hno => ?_, fun hend hd hroom r hr => ?_⟩
    · have hcan : s.canSend ch.toNat (s.slotsOf (s.exe m)) = true := by simp [State.canSend, hend, q]
      rw [hexec, if_pos hcan, State.sendGo, if_pos hend]
    · rw [hexec, if_neg (Bool.eq_false_iff.mp hno)]
      rfl
    · intro rq line
      have hcan : s.canSend ch.toNat (s.slotsOf (s.exe m)) = true := by
        rw [State.canSend, hr, show s.drained (s.slotsOf (s.exe m)) = true from hd, decide_eq_true hroom]
        simp
      rw [if_pos hcan, State.sendGo, if_neg (Bool.eq_false_iff.mp hend)] at hexec
      obtain ⟨hwords, hmem, hfns, hgrp⟩ := s.fillSlot_endMem (words := s.sendWords m a) hr
      refine ⟨_, hexec, fun l hl => ?_, hmem, hfns, by rw [hgrp]; rfl, by rw [hgrp]; rfl, by rw [hgrp]; rfl⟩
      exact (hwords l hl).trans (congrArg BitVec.toNat (s.getD_sendWords m a hl))
  case recv =>
    intro hrcv he rel
    refine ⟨fun hrel => ?_, fun hrel h0 hend => ?_, fun hrel h0 hend => ?_, fun hrel h0 hr hwf => ?_⟩
    · rw [exec_recv hrcv, if_neg he, if_pos (by rw [show s.released (s.slotsOf (s.exe m)) = false from hrel]; rfl)]
    · rw [exec_recv_ordered hrcv he hrel, if_neg (by rw [show (s.chan ch.toNat).peerEnded = true from hend]; simp), State.recvGo, if_pos h0]
    · rw [exec_recv_ordered hrcv he hrel, if_pos (by rw [show (s.chan ch.toNat).peerEnded = false from hend]; simpa using h0)]
    · refine ⟨_, (exec_recv_ordered hrcv he hrel).trans (congrArg Host.Outcome.next ?_),
        State.takeSlot_law hr (of_decide_eq_true hwf) ch.toNat⟩
      rw [if_neg (by simp only [Bool.and_eq_true, decide_eq_true_iff]; exact fun h => h0 h.1), State.recvGo, if_neg h0]

end Sys2Proof.Machine
end

section
/-! SUPPORT. What the acceptance of a copy operation does to absent lines and to the coalescer, and the state of a copy queue. -/

namespace Sys2Proof.Machine

open Sys2Proof.Safety

variable {s t : State}

/-! ### Absent lines (10_ordering.md R245, 13_async_copy.md R292) -/

theorem State.coreAt_modKey (s : State) (key : Nat) (f : Core → Core) (h c : Nat) :
    (s.modKey key f).coreAt h c = if coreKey h c = key then f (mget {} s.cores key) else s.coreAt h c := mget_mset _ _ _ _ _

theorem unitOf_unitCode {tag : Nat} (htag : tag < 8) (n : Nat) : unitOf (unitCode tag n) = (tag, n) := by
  rw [unitOf, unitCode, Nat.mul_add_mod, Nat.mod_eq_of_lt htag, Nat.mul_add_div (by decide), Nat.div_eq_of_lt htag]
  rfl

/-- A line that becomes absent leaves the absent ones absent. -/
theorem State.absent_markAbsent (s : State) (h : Nat) (j : CopyJob) (code h' c : Nat) {x : Nat} (hx : x ∈ (s.coreAt h' c).absent) :
    x ∈ ((s.markAbsent h j code).coreAt h' c).absent := by
  unfold State.markAbsent
  split
  · exact hx
  · split
    next key b hspot =>
      rw [State.coreAt_modKey]
      split
      next hkey => exact List.mem_cons_of_mem _ (hkey ▸ hx)
      next => exact hx
    next => exact hx

/-- A unit of a scratchpad line makes that line absent. -/
theorem State.absent_markAbsent_line (s : State) (h : Nat) (j : CopyJob) (n : Nat) :
    n ∈ ((s.markAbsent h j (unitCode 0 n)).coreAt h j.core).absent := by
  have hspot : s.destSpot h j (unitCode 0 n) = .scr (coreKey h j.core) (n * 128) := by
    simp only [State.destSpot, unitOf_unitCode (show 0 < 8 by decide)]
  rw [State.markAbsent, unitOf_unitCode (by decide), if_neg (show ¬ 0 = 4 by decide), hspot]
  dsimp only
  rw [State.coreAt_modKey, if_pos rfl, Nat.mul_div_cancel n (by decide)]
  exact List.mem_cons_self

theorem State.absent_foldl_markAbsent (h : Nat) (j : CopyJob) {n : Nat} : ∀ {us : List Nat} (s : State), unitCode 0 n ∈ us →
    n ∈ ((us.foldl (fun t u => t.markAbsent h j u) s).coreAt h j.core).absent := by
  intro us
  induction us with
  | nil => exact fun _ hmem => absurd hmem List.not_mem_nil
  | cons u us ih =>
    intro s hmem
    rcases List.mem_cons.mp hmem with hu | hmem
    · rw [List.foldl_cons, ← hu]
      exact foldl_keeps (fun t : State => n ∈ (t.coreAt h j.core).absent) _ (fun t u => t.absent_markAbsent h j u h j.core) us _
        (s.absent_markAbsent_line h j n)
    · exact ih _ hmem

theorem State.cur_markAbsent (s : State) (h : Nat) (j : CopyJob) (code : Nat) : (s.markAbsent h j code).cur = s.cur := by
  unfold State.markAbsent
  split
  · rfl
  · split <;> rfl

theorem State.cur_takeSide (s : State) (h : Nat) (j : CopyJob) : (s.takeSide h j).cur = s.cur := by
  unfold State.takeSide
  split <;> rfl

theorem State.cur_accept (s : State) (h : Nat) (j : CopyJob) : (s.accept h j).1.cur = s.cur :=
  (State.cur_takeSide ..).trans (foldl_fixes State.cur _ (fun t u => t.cur_markAbsent h _ u) _ _)

/-- A fill's operation makes each of its lines absent. -/
theorem State.absent_accept_fill (s : State) (h : Nat) {j : CopyJob} {first lines : Nat} {v : Word} (hj : j.kind = .fill first lines v)
    {k : Nat} (hk : k < lines) : j.scr.base / 128 + first + k ∈ ((s.accept h j).1.coreAt h j.core).absent := by
  have hunits : unitCode 0 (j.scr.base / 128 + first + k) ∈ j.units := by
    rw [CopyJob.units, hj]
    exact List.mem_map.mpr ⟨k, List.mem_range.mpr hk, rfl⟩
  rw [State.accept, State.takeSide]
  dsimp only
  rw [hj]
  exact State.absent_foldl_markAbsent h _ _ hunits

theorem State.absent_acceptAll_fill (s : State) {j : CopyJob} {first lines : Nat} {v : Word} (hj : j.kind = .fill first lines v)
    (hcore : j.core = s.cur.c) {k : Nat} (hk : k < lines) : j.scr.base / 128 + first + k ∈ (s.acceptAll [j]).core.absent := by
  have hone : s.acceptOne j = (s.accept s.cur.h j).1.enlarge s.cur.h (s.accept s.cur.h j).2 := by rw [State.acceptOne, hj]
  have hcur : (s.acceptOne j).cur = s.cur := by rw [hone]; exact s.cur_accept _ _
  rw [State.acceptAll, List.foldl_cons, List.foldl_nil, State.core_endMem]
  change _ ∈ (s.acceptOne j).core.absent
  rw [State.core, hcur, hone, ← hcore]
  exact s.absent_accept_fill _ hj hk

/-! ### The coalescer (13_async_copy.md R304) -/

theorem State.cores_enlarge (s : State) (h : Nat) (j : CopyJob) : (s.enlarge h j).cores = s.cores := rfl

theorem State.coal_handOn (s : State) (h c : Nat) : ((s.handOn h c).coreAt h c).coal = [] := by
  have hcores : (s.handOn h c).cores = (s.setCoreAt h c { s.coreAt h c with coal := [] }).cores :=
    foldl_fixes State.cores (fun t (x : Coalesced) => t.enlarge h x.job) (fun t x => t.cores_enlarge h x.job) _ _
  rw [State.coreAt, hcores]
  exact congrArg Core.coal (s.coreAt_setCoreAt_self h c { s.coreAt h c with coal := [] })

theorem State.cur_handOn (s : State) (h c : Nat) : (s.handOn h c).cur = s.cur :=
  foldl_fixes State.cur (fun t (x : Coalesced) => t.enlarge h x.job) (fun t x => show (t.enlarge h x.job).cur = t.cur from rfl) _ _

theorem State.coal_advance_handOn (s : State) : (s.handOn s.cur.h s.cur.c).advance.core.coal = [] := by
  rw [State.core_advance]
  change (s.handOn s.cur.h s.cur.c).core.coal = []
  rw [State.core, s.cur_handOn]
  exact s.coal_handOn _ _

/-! ### Copy queues (13_async_copy.md R315) -/

/-- A copy queue of the acting group's workgroup. -/
theorem State.copyQ_acting (s : State) (q : Nat) : s.copyQ s.cur.h s.cur.c s.grp.wgs q = mget {} s.wg.qs q := rfl

theorem State.modQ_acting (s : State) (q : Nat) (f : CopyQ → CopyQ) :
    s.modQ s.cur.h s.cur.c s.grp.wgs q f = s.setWg { s.wg with qs := mset s.wg.qs q (f (mget {} s.wg.qs q)) } := rfl

theorem SameBut.live (h : SameBut s t) (m : MReg) : t.live m = s.live m := by
  simp only [State.live, State.liveOf, State.exe, Group.m0, h.mreg, h.helpers]

theorem State.live_acquire (s : State) (m : MReg) : s.acquire.live m = s.live m := by
  simp only [State.live, State.liveOf, State.exe, s.grp_acquire]

theorem State.physReg_acquire (s : State) (l k : Nat) : s.acquire.physReg l k = s.physReg l k := by
  simp only [State.physReg, s.grp_acquire, s.wg_acquire]

theorem rowsApart_acquire (hr : RowsApart s) : RowsApart s.acquire := by
  simpa only [RowsApart, s.wg_acquire, s.physReg_acquire, s.grp_acquire] using hr

theorem hasRegs_acquire (s : State) (l : Nat) : HasRegs s.acquire l ↔ HasRegs s l := by
  simp only [HasRegs, s.grp_acquire]

/-- The end of `qwait`: the status pair, and the flags cleared. -/
theorem State.qwaitEnd_law {m : MReg} {a : Reg} (hr : RowsApart s) (ha : a.toNat + 1 < s.wg.n) (q n : Nat) :
    let x := s.copyQ s.cur.h s.cur.c s.grp.wgs q
    let t := s.qwaitEnd m a q n
    (∀ l k, HasRegs s l → k < s.wg.n → t.lreg l k =
        if (s.live m).getLsbD l = true ∧ k = a.toNat then BitVec.ofNat 32 (x.flags n)
        else if (s.live m).getLsbD l = true ∧ k = a.toNat + 1 then x.firstBad n else s.lreg l k)
      ∧ t.copyQ s.cur.h s.cur.c s.grp.wgs q = { x with was := {}, notes := x.notes.filter (fun e => decide (n ≤ e.1)) }
      ∧ t.mem = s.mem ∧ t.grp.s = s.grp.s ∧ t.grp.m = s.grp.m ∧ t.grp.pc = s.grp.pc + 8 := by
  intro x t
  have hra := rowsApart_acquire hr
  have hn : s.acquire.wg.n = s.wg.n := congrArg Wg.n s.wg_acquire
  obtain ⟨hfst, hregFst, -⟩ := writeLanes_law hra (SameBut.refl s.acquire) (s.acquire.live m) a.toNat (by omega)
    fun _ => BitVec.ofNat 32 (x.flags n)
  generalize hv : s.acquire.writeLanes (s.acquire.live m) a.toNat _ = v at hfst hregFst
  obtain ⟨hsame, hreg, -⟩ := writeLanes_law hra hfst (v.live m) (a.toNat + 1) (by omega) fun _ => x.firstBad n
  generalize hu : v.writeLanes (v.live m) (a.toNat + 1) _ = u at hsame hreg
  let w : Wg := { u.wg with qs := mset u.wg.qs q ((mget {} u.wg.qs q).clear n) }
  have ht : t = (u.setWg w).endMem := by
    change ((((s.acquire.writeLanes (s.acquire.live m) a.toNat _).writeLanes _ (a.toNat + 1) _).modQ _ _ _ q
      (fun y => y.clear n)).endMem = _)
    rw [hv, hu, State.modQ_acting]
  have hgrp : t.grp = u.grp.ended := by rw [ht, State.grp_endMem, State.grp_setWg]
  have hugrp : u.grp = { s.grp with hregs := u.grp.hregs } := by rw [← s.grp_acquire]; exact hsame.grp
  refine ⟨fun l k hl hk => ?_, ?_, by simp [t], ?_, ?_, ?_⟩
  · have hl' := (hasRegs_acquire s l).mpr hl
    rw [ht, State.lreg_endMem, State.lreg_setWg u (w := w) rfl rfl rfl, hreg l k hl' (by omega), hregFst l k hl' (by omega),
      hfst.live, s.live_acquire, s.lreg_acquire]
    exact ite_ite_comm _ _ _ _ fun ⟨_, hsnd⟩ ⟨_, hfst⟩ => absurd (hfst.symm.trans hsnd) a.toNat.lt_succ_self.ne
  · have hwgs : t.grp.wgs = s.grp.wgs := by rw [hgrp, hugrp]; rfl
    have hcur : t.cur = s.cur := by rw [ht]; exact hsame.cur
    rw [← hwgs, ← hcur, State.copyQ_acting, ht, State.wg_endMem, State.wg_setWg, mget_mset_self, hsame.wg, s.wg_acquire]
    rfl
  · rw [hgrp, hugrp]; rfl
  · rw [hgrp, hugrp]; rfl
  · rw [hgrp, hugrp]; rfl

end Sys2Proof.Machine
end

section
/-! PROOF. The copy instructions: tile copies, lane copies, model data, fills, fences and `qwait`. -/

namespace Sys2Proof.Machine

open Sys2Proof.Safety

section

variable {s : State} {i : Instr} {m : MReg}

/-! ### Issue (R291, R302) -/

theorem copyIssued_of_copyGo {js : List CopyJob} (hi : exec i s = .next (s.copyGo js)) : CopyIssued s i js :=
  ⟨fun hmay => hi.trans (congrArg Host.Outcome.next (if_pos hmay)),
    fun hno => hi.trans (congrArg Host.Outcome.next (if_neg (Bool.eq_false_iff.mp hno)))⟩

theorem tileIssued_of_tileGo {j : CopyJob} {out descOk : Bool} (hi : exec i s = .next (s.tileGo m j out descOk)) :
    TileIssued s i m j out descOk := by
  refine ⟨fun he => ⟨_, hi.trans (congrArg Host.Outcome.next (if_pos he)), rfl⟩, fun he => ⟨fun code addr hc => ?_, fun hc => ?_⟩⟩
  · rw [hi, State.tileGo, if_neg he, hc]
  · refine copyIssued_of_copyGo ?_
    rw [hi, State.tileGo, if_neg he, hc]

/-! ### Lane copies (R303, R304) -/

theorem exec_cpa {co : CpaOp} {w : Nat} (hi : (w, i) ∈ [(4, Instr.cpa4 co), (8, .cpa8 co), (16, .cpa16 co)]) :
    exec i s = .next (s.cpa 0xFF w co) := by
  simp only [List.mem_cons, List.not_mem_nil, or_false, Prod.mk.injEq] at hi
  obtain ⟨rfl, rfl⟩ | ⟨rfl, rfl⟩ | ⟨rfl, rfl⟩ := hi <;> rfl

/-- The element offset of a lane's copy in its record, and its segment offset (R303). -/
def State.cpaOff (s : State) (co : CpaOp) (l : Nat) : Int :=
  (((s.lreg l co.b.toNat).toNat * (mget {} s.wg.b co.buf.toNat : BufRec).stride : Nat) : Int) + co.off.toInt

def State.cpaAt (s : State) (co : CpaOp) (l : Nat) : Nat := (mget {} s.wg.b co.buf.toNat : BufRec).segOff (s.cpaOff co l)

/-- The destination of a lane's copy in seg.scr. -/
def State.cpaDst (s : State) (co : CpaOp) (l : Nat) : Nat := (s.lreg l co.a.toNat).toNat

/-- The line operation of one lane's copy of `w` bytes. -/
def State.cpaJob (s : State) (co : CpaOp) (w l : Nat) : CopyJob :=
  let r : BufRec := mget {} s.wg.b co.buf.toNat
  { s.newJob 0xFF co.m co.q co.bar with
    kind := .lanes [{ lane := l, pass := r.inb (s.cpaOff co l) w, off := (s.segOf 2).base + s.cpaDst co l,
                      addr := (if r.sel = 4 then 0 else (s.segOf r.sel).base) + s.cpaAt co l, val := BitVec.ofNat 64 w }],
    mrec := { sel := r.sel }, segs := [] }

/-- A lane's copy of `w` bytes passes its checks: its source lies within the record and its segment or is filled with zeros, its
destination lies within seg.scr, and both are aligned (R302, R303). -/
def State.CpaOk (s : State) (co : CpaOp) (w l : Nat) : Prop :=
  let r : BufRec := mget {} s.wg.b co.buf.toNat
  (r.inb (s.cpaOff co l) w = true → s.copyFits r.sel (s.cpaAt co l) = true ∧ s.copyFits r.sel (s.cpaAt co l + w - 1) = true
      ∧ ((s.segOf r.sel).base + s.cpaAt co l) % w = 0)
    ∧ (r.inb (s.cpaOff co l) w = false → r.zf = true)
    ∧ s.cpaDst co l + w ≤ (s.segOf 2).size ∧ s.cpaDst co l % w = 0

variable {co : CpaOp} {w : Nat}

theorem State.cpa_denied (he : s.exe co.m ≠ 0)
    (hden : s.copyRec (mget {} s.wg.b co.buf.toNat) false = false ∨ s.copyScr true = false) (opc : Nat) :
    s.cpa opc w co = s.trap tAccess (lowest (s.exe co.m)) (s.cpaAt co (lowest (s.exe co.m))) := by
  refine (if_neg he).trans (if_pos ?_)
  rcases hden with h | h <;> simp [h]

theorem State.cpa_granted (he : s.exe co.m ≠ 0) (hrec : s.copyRec (mget {} s.wg.b co.buf.toNat) false = true)
    (hscr : s.copyScr true = true) (x : State) :
    (if s.exe co.m = 0 then s.advance
      else if !(s.copyRec (mget {} s.wg.b co.buf.toNat) false && s.copyScr true) then
        s.trap tAccess (lowest (s.exe co.m)) (s.cpaAt co (lowest (s.exe co.m)))
      else x) = x := by
  rw [if_neg he, hrec, hscr]
  rfl

/-- A check that no lane fails passes on. -/
theorem unlessFound_none {ls : List Nat} {p : Nat → Bool} (h : ls.find? p = none) (f : Nat → State) (x : State) :
    (match ls.find? p with
      | some l => f l
      | none => x) = x := by rw [h]

/-- A lane copy whose every lane passes its checks. -/
theorem State.cpa_accepted (he : s.exe co.m ≠ 0) (hrec : s.copyRec (mget {} s.wg.b co.buf.toNat) false = true)
    (hscr : s.copyScr true = true) (hbar : s.barMissing co.bar.toNat = false) (hok : ∀ l ∈ lanesOf (s.exe co.m), s.CpaOk co w l) :
    s.cpa 0xFF w co = s.copyGo (mergeLanes ((lanesOf (s.exe co.m)).map (s.cpaJob co w))) := by
  let r : BufRec := mget {} s.wg.b co.buf.toNat
  have hbounds : (lanesOf (s.exe co.m)).find? (fun l => if r.inb (s.cpaOff co l) w
      then !(s.copyFits r.sel (s.cpaAt co l) && s.copyFits r.sel (s.cpaAt co l + w - 1)) else !r.zf) = none := by
    refine List.find?_eq_none.mpr fun l hl => ?_
    obtain ⟨hin, hout, -, -⟩ := hok l hl
    cases hb : r.inb (s.cpaOff co l) w
    · simp [r, hout hb]
    · obtain ⟨hfst, hlst, -⟩ := hin hb
      simp [r, hfst, hlst]
  have halign : (lanesOf (s.exe co.m)).find? (fun l =>
      r.inb (s.cpaOff co l) w && ((s.segOf r.sel).base + s.cpaAt co l) % w != 0) = none := by
    refine List.find?_eq_none.mpr fun l hl => ?_
    obtain ⟨hin, -, -, -⟩ := hok l hl
    cases hb : r.inb (s.cpaOff co l) w
    · simp
    · obtain ⟨-, -, h0⟩ := hin hb
      simp [r, h0]
  have hdst : (lanesOf (s.exe co.m)).find? (fun l => decide ((s.segOf 2).size < s.cpaDst co l + w)) = none := by
    refine List.find?_eq_none.mpr fun l hl => ?_
    obtain ⟨-, -, hle, -⟩ := hok l hl
    simpa using hle
  have hdalign : (lanesOf (s.exe co.m)).find? (fun l => s.cpaDst co l % w != 0) = none := by
    refine List.find?_eq_none.mpr fun l hl => ?_
    obtain ⟨-, -, -, h0⟩ := hok l hl
    simpa using h0
  exact (State.cpa_granted he hrec hscr _).trans ((if_neg (Bool.eq_false_iff.mp hbar)).trans
    ((unlessFound_none hbounds _ _).trans ((unlessFound_none halign _ _).trans ((unlessFound_none hdst _ _).trans
      (unlessFound_none hdalign _ _)))))

/-! ### The coalescer's flush (R304) -/

theorem exec_cpaFlush (he : s.exe m ≠ 0) : exec (.cpaFlush m) s = .next (
    if s.core.coal.any (fun x => x.group == s.cur.g) then (s.handOn s.cur.h s.cur.c).advance else s.advance) :=
  congrArg Host.Outcome.next (if_neg he)

/-! ### Model data and fills (R312, R313) -/

theorem exec_mdcopy_accepted {b : Reg} {buf : BufR} {bar : BarR} {q slot : BitVec 2} {scale : Bool} {n : BitVec 8} (he : s.exe m ≠ 0)
    (hholds : s.wg.holds = true) (hscr : (s.segOf 2).valid = true) :
    let r : BufRec := mget {} s.wg.b buf.toNat
    let bytes := (n.toNat + 1) * 16
    let start := (s.lreg (lowest (s.exe m)) b.toNat).toNat
    s.copyRec r false = true → s.barMissing bar.toNat = false → start * r.stride + bytes ≤ r.stride * r.extent →
    s.copyFits r.sel ((r.base + start * r.stride) % 2 ^ 64) = true →
    s.copyFits r.sel ((r.base + (start * r.stride + bytes - 1)) % 2 ^ 64) = true →
    exec (.mdcopy m b buf bar q slot scale n) s =
      .next (s.copyGo [{ s.newJob 0x69 m q bar with kind := .side slot.toNat scale start bytes, mrec := r }]) := by
  intro r bytes start hrec hbar hle hfst hlst
  refine congrArg Host.Outcome.next ((if_neg he).trans ((if_neg ?_).trans ((if_neg (Bool.eq_false_iff.mp hbar)).trans (if_neg ?_))))
  · simp only [show s.copyRec (mget {} s.wg.b buf.toNat) false = true from hrec, hscr, hholds]
    decide
  · have hlast : min (start * r.stride + bytes) (r.stride * r.extent) - 1 = start * r.stride + bytes - 1 := by rw [Nat.min_eq_left hle]
    change ¬ (((!r.zf && decide (r.stride * r.extent < start * r.stride + bytes)) || (decide (start * r.stride < r.stride * r.extent)
      && (!(s.copyFits r.sel ((r.base + start * r.stride) % 2 ^ 64)) || !(s.copyFits r.sel ((r.base
        + (min (start * r.stride + bytes) (r.stride * r.extent) - 1)) % 2 ^ 64))))) = true)
    rw [hlast, hfst, hlst, decide_eq_false (Nat.not_lt.mpr hle)]
    simp

theorem exec_cfill_accepted {a b : Reg} {bar : BarR} {q : BitVec 2} {lines : BitVec 12} (he : s.exe m ≠ 0)
    (hscr : s.copyScr true = true) (hbar : s.barMissing bar.toNat = false) :
    let first := (s.lreg (lowest (s.exe m)) b.toNat).toNat
    (first + lines.toNat) * 128 ≤ (s.segOf 2).size → exec (.cfill m a b bar q lines) s = .next (s.copyGo
      [{ s.newJob 0x6A m q bar with kind := .fill first lines.toNat (s.lreg (lowest (s.exe m)) a.toNat) }]) := by
  intro first hle
  refine congrArg Host.Outcome.next ((if_neg he).trans ((if_neg ?_).trans ((if_neg (Bool.eq_false_iff.mp hbar)).trans
    (if_neg (Nat.not_lt.mpr hle)))))
  rw [hscr]
  decide

/-! ### `qwait` (R315) -/

theorem exec_qwait {a : Reg} {q : BitVec 2} (he : s.exe m ≠ 0) :
    let n := (s.copyQ s.cur.h s.cur.c s.grp.wgs q.toNat).placed
    exec (.qwait m a q) s = .next (if s.qwaitDone m q.toNat n && !(s.qwaitAhead q.toNat) then s.qwaitEnd m a q.toNat n
      else s.setWait (.qwait a m q.toNat n)) :=
  congrArg Host.Outcome.next (if_neg he)

end

/-- Settles O41: each clause is a branch of its instruction; a fill's lines are its operation's units, each of which makes its line
absent. -/
theorem copyInstructionsRun : Obligations.CopyInstructionsRun := by
  intro s o co m a b ty mt ct out tr fold mxs scale had fill f buf bar q slot n lines qs adv d r job
  refine ⟨tileIssued_of_tileGo rfl, tileIssued_of_tileGo rfl, tileIssued_of_tileGo rfl, tileIssued_of_tileGo rfl,
    tileIssued_of_tileGo rfl, ?lanes, ?noFlush, ?flush, ?modelData, ?fill, ?fence, ?idle, ?wait⟩
  case lanes =>
    intro w i hi e r off x dst
    have hexec := exec_cpa (s := s) hi
    refine ⟨fun he => ⟨_, hexec.trans (congrArg Host.Outcome.next (if_pos he)), rfl⟩, fun he hden => ?_, fun he hrec hscr hbar => ?_,
      fun he hrec hscr hbar hok => ?_⟩
    · rw [hexec, State.cpa_denied he hden]
      rfl
    · exact hexec.trans (congrArg Host.Outcome.next ((State.cpa_granted he hrec hscr _).trans (if_pos hbar)))
    · exact copyIssued_of_copyGo (hexec.trans (congrArg Host.Outcome.next (State.cpa_accepted he hrec hscr hbar hok)))
  case noFlush =>
    rintro (he | hnone)
    · exact ⟨_, congrArg Host.Outcome.next (if_pos he), rfl⟩
    · by_cases he : s.exe m = 0
      · exact ⟨_, congrArg Host.Outcome.next (if_pos he), rfl⟩
      · refine ⟨_, (exec_cpaFlush he).trans (congrArg Host.Outcome.next (if_neg ?_)), rfl⟩
        simpa using hnone
  case flush =>
    intro he hsome
    refine ⟨_, (exec_cpaFlush he).trans (congrArg Host.Outcome.next (if_pos ?_)), rfl, s.coal_advance_handOn⟩
    simpa using hsome
  case modelData =>
    intro he hholds hscr r bytes start hrec hbar hle hfst hlst
    exact copyIssued_of_copyGo (exec_mdcopy_accepted he hholds hscr hrec hbar hle hfst hlst)
  case fill =>
    intro he hscr hbar first hle j
    refine ⟨copyIssued_of_copyGo (exec_cfill_accepted he hscr hbar hle), fun k hk => ?_⟩
    exact s.absent_acceptAll_fill (j := j) rfl rfl hk
  case fence => exact fun he => copyIssued_of_copyGo (congrArg Host.Outcome.next (if_neg he))
  case idle =>
    intro he
    simp only [List.forall_mem_cons]
    exact ⟨⟨_, congrArg Host.Outcome.next (if_pos he), rfl⟩, ⟨_, congrArg Host.Outcome.next (if_pos he), rfl⟩,
      ⟨_, congrArg Host.Outcome.next (if_pos he), rfl⟩, ⟨_, congrArg Host.Outcome.next (if_pos he), rfl⟩, List.forall_mem_nil _⟩
  case wait =>
    intro he x n done
    refine ⟨fun hno => ?_, fun hdone hr hwf => ?_⟩
    · exact (exec_qwait he).trans (congrArg Host.Outcome.next (if_neg (Bool.eq_false_iff.mp hno)))
    · exact ⟨_, (exec_qwait he).trans (congrArg Host.Outcome.next (if_pos hdone)),
        State.qwaitEnd_law hr (of_decide_eq_true (and2_right hwf)) q.toNat n⟩

end Sys2Proof.Machine
end

section
/-! PROOF. What atomic operations compute (11_atomics.md R251, R252). -/

namespace Sys2Proof.Machine

open Sys2Proof.Safety

/-! ### Operands of 32 bits in 64 -/

theorem lo32_eq_setWidth (a : DWord) : lo32 a = a.setWidth 32 := by
  apply BitVec.eq_of_toNat_eq
  rw [lo32, BitVec.extractLsb'_toNat, BitVec.toNat_setWidth, Nat.shiftRight_zero]

/-- The lower half of a choice between extended words. -/
theorem lo32_ite_setWidth (p : Prop) [Decidable p] (x y : Word) :
    lo32 (if p then x.setWidth 64 else y.setWidth 64) = if p then x else y := by
  split <;> exact lo32_setWidth _

theorem tyInt_s32 (x : Word) : tyInt .s32 (x.setWidth 64) = x.toInt := by
  rw [← asInt_signed, tyInt, BitVec.toNat_setWidth_of_le (by omega)]
  rfl

theorem tyInt_n32 (x : Word) : tyInt .n32 (x.setWidth 64) = x.toNat := by
  rw [← asInt_unsigned, tyInt, BitVec.toNat_setWidth_of_le (by omega)]
  rfl

theorem tyInt_s64 (a : DWord) : tyInt .s64 a = a.toInt := by
  change asInt true 64 a.toNat = a.toInt
  rw [asInt, if_pos rfl, Nat.mod_eq_of_lt a.isLt, sextNat, BitVec.toInt_eq_toNat_cond]
  split <;> split <;> omega

theorem tyInt_n64 (a : DWord) : tyInt .n64 a = a.toNat := by
  change asInt false 64 a.toNat = a.toNat
  rw [asInt, if_neg Bool.false_ne_true, Nat.mod_eq_of_lt a.isLt]

/-! ### Rows of Table 11.2 -/

variable (old x y : Word)

/-- The wrapping increment (R252): back to zero from the bound on. -/
theorem lo32_incWrap : lo32 (atomNew .incWrap .n32 (old.setWidth 64) (x.setWidth 64) (y.setWidth 64))
    = if x.toNat ≤ old.toNat then 0 else old + 1 := by
  simp only [atomNew, lo32_setWidth]
  split
  · rfl
  · simp [lo32_eq_setWidth, BitVec.setWidth_add]

/-- The wrapping decrement (R252): to the bound from zero and from above it. -/
theorem lo32_decWrap : lo32 (atomNew .decWrap .n32 (old.setWidth 64) (x.setWidth 64) (y.setWidth 64))
    = if old = 0 ∨ x.toNat < old.toNat then x else old - 1 := by
  simp only [atomNew, lo32_setWidth, Bool.or_eq_true, decide_eq_true_eq]
  split
  · exact lo32_setWidth x
  · rw [lo32_eq_setWidth]
    bv_omega

/-- The lower half of a result that the types' bits do not depend on. -/
theorem lo32_bitwise : lo32 (old.setWidth 64 &&& x.setWidth 64) = old &&& x ∧ lo32 (old.setWidth 64 ||| x.setWidth 64) = old ||| x
    ∧ lo32 (old.setWidth 64 ^^^ x.setWidth 64) = old ^^^ x := by
  simp [lo32_eq_setWidth, BitVec.setWidth_and, BitVec.setWidth_or, BitVec.setWidth_xor]

theorem lo32_sum : lo32 (old.setWidth 64 + x.setWidth 64) = old + x ∧ lo32 (old.setWidth 64 - x.setWidth 64) = old - x := by
  constructor
  · rw [lo32_eq_setWidth]
    bv_omega
  · rw [lo32_eq_setWidth]
    bv_omega

/-- The exchange where the old value is the expected one, each compared in the type's width. -/
theorem lo32_cas : lo32 (atomNew .cas .b32 (old.setWidth 64) (x.setWidth 64) (y.setWidth 64)) = if old = x then y else old := by
  change lo32 (if lo32 (old.setWidth 64) = lo32 (x.setWidth 64) then y.setWidth 64 else old.setWidth 64) = _
  rw [lo32_setWidth, lo32_setWidth, lo32_ite_setWidth]

theorem lo32_tyMin (t : Ty) : lo32 (tyMin t (old.setWidth 64) (x.setWidth 64)) =
    if tyInt t (old.setWidth 64) ≤ tyInt t (x.setWidth 64) then old else x := lo32_ite_setWidth _ _ _

theorem lo32_tyMax (t : Ty) : lo32 (tyMax t (old.setWidth 64) (x.setWidth 64)) =
    if tyInt t (old.setWidth 64) ≤ tyInt t (x.setWidth 64) then x else old := lo32_ite_setWidth _ _ _

/-! ### Floating-point rows (05_float.md R126) -/

/-- A register of one FP32 value is that value's pattern. -/
theorem elementwiseA_f32 (g : FVal → FVal → FVal) : atomNew.elementwiseA .f32 g old x = toF32 .rne (g (f32 old) (f32 x)) := by
  have elem : ∀ w : Word, elemF .f32 w 0 = f32 w := fun w => by
    change toF .f32 (w.toNat / 2 ^ 0 % 2 ^ 32) = toF .f32 w.toNat
    rw [Nat.pow_zero, Nat.div_one, Nat.mod_eq_of_lt w.isLt]
  change BitVec.ofNat 32 (0 + roundV .f32 .rne 0 false (g (elemF .f32 old 0) (elemF .f32 x 0)) * 2 ^ 0) = _
  rw [elem, elem, Nat.pow_zero, Nat.mul_one, Nat.zero_add]
  rfl

/-- The lower half of a floating-point row's result. -/
theorem lo32_float (t : Ty) (g : FVal → FVal → FVal) :
    lo32 ((atomNew.elementwiseA t g (lo32 (old.setWidth 64)) (lo32 (x.setWidth 64))).setWidth 64) = atomNew.elementwiseA t g old x := by
  rw [lo32_setWidth, lo32_setWidth, lo32_setWidth]

theorem lo32_float_f32 (g : FVal → FVal → FVal) :
    lo32 ((atomNew.elementwiseA .f32 g (lo32 (old.setWidth 64)) (lo32 (x.setWidth 64))).setWidth 64)
      = toF32 .rne (g (f32 old) (f32 x)) := (lo32_float old x .f32 g).trans (elementwiseA_f32 old x g)

/-- Settles O34: each row, with a 32-bit operation's operands read from the lower half of the 64-bit values. -/
theorem atomicOperationsComputeTheTable : Obligations.AtomicOperationsComputeTheTable := by
  intro old x y a b c N D halves
  obtain ⟨hand, hor, hxor⟩ := lo32_bitwise old x
  refine ⟨⟨fun t _ => lo32_sum old x, hand, hor, hxor, lo32_setWidth x, lo32_cas old x y, ?minS32, ?maxS32, ?minN32, ?maxN32,
      lo32_incWrap old x y, lo32_decWrap old x y⟩,
    ⟨fun t _ => ⟨rfl, rfl⟩, rfl, rfl, rfl, rfl, rfl, ?minS64, ?maxS64, ?minN64, ?maxN64⟩,
    lo32_float_f32 old x _, lo32_float_f32 old x _, lo32_float_f32 old x _,
    lo32_float old x .bf16x2 _, lo32_float old x .bf16x2 _, lo32_float old x .bf16x2 _⟩
  case minS32 => exact (lo32_tyMin old x .s32).trans (by rw [tyInt_s32, tyInt_s32])
  case maxS32 => exact (lo32_tyMax old x .s32).trans (by rw [tyInt_s32, tyInt_s32])
  case minN32 => exact (lo32_tyMin old x .n32).trans (by simp only [tyInt_n32, Int.ofNat_le])
  case maxN32 => exact (lo32_tyMax old x .n32).trans (by simp only [tyInt_n32, Int.ofNat_le])
  case minS64 => simp only [D, atomNew, tyMin, tyInt_s64]
  case maxS64 => simp only [D, atomNew, tyMax, tyInt_s64]
  case minN64 => simp only [D, atomNew, tyMin, tyInt_n64, Int.ofNat_le]
  case maxN64 => simp only [D, atomNew, tyMax, tyInt_n64, Int.ofNat_le]

end Sys2Proof.Machine
end

section
/-! PROOF. Entering a handler and returning from it (15_traps_preemption.md R351 to R355, R359). -/

namespace Sys2Proof.Machine

open Sys2Proof.Safety

variable {s : State} {lvl : Level} {f : Nat}

/-! ### The group set before an acquire step -/

/-- An acquire step after the group was set: the group and its core's L1 changed, and nothing else. -/
theorem State.acquire_setGrp (s : State) (g : Group) : ∃ x, (s.setGrp g).acquire =
    s.setCore { s.core with l1 := x, groups := mset s.core.groups s.cur.g g } := by
  obtain ⟨x, hx⟩ := (s.setGrp g).acquire_eq
  exact ⟨x, by rw [hx, State.core_setGrp]; exact State.setCore_setCore _ _ _⟩

theorem State.grp_acquire_setGrp (s : State) (g : Group) : (s.setGrp g).acquire.grp = g := by
  rw [State.grp_acquire, State.grp_setGrp]

/-- A group that keeps its members and their threads has the same accesses on their way. -/
theorem State.drained_acquire_setGrp (s : State) {g : Group} (hm : g.member = s.grp.member) (hr : g.roster = s.grp.roster) :
    (s.setGrp g).acquire.drained ((s.setGrp g).acquire.slotsOf (s.setGrp g).acquire.grp.member)
      = s.drained (s.slotsOf s.grp.member) := by
  have hslots : (s.setGrp g).acquire.slotsOf (s.setGrp g).acquire.grp.member = s.slotsOf s.grp.member := by
    simp only [State.slotsOf, s.grp_acquire_setGrp, hm, hr]
  obtain ⟨x, hx⟩ := s.acquire_setGrp g
  rw [hslots, hx, State.drained, State.drainedIf, State.core_setCore]
  rfl

/-! ### Trap entry (R353, R355) -/

theorem State.trapTarget_of_goesTo (h : TrapGoesTo s lvl f) : s.trapTarget = some (lvl, f) := by
  rcases h with ⟨hl, hf, rfl, rfl⟩ | ⟨hl, hf, rfl, rfl⟩ | ⟨hl, rfl, rfl⟩ <;> simp [State.trapTarget, *]

theorem Fn.mget_hsegs (x : Fn) {i : Nat} (hi : i < 8) : mget {} x.hsegs i = x.hsegAt i := by
  obtain rfl | rfl | rfl | rfl | rfl | rfl | rfl | rfl :
      i = 0 ∨ i = 1 ∨ i = 2 ∨ i = 3 ∨ i = 4 ∨ i = 5 ∨ i = 6 ∨ i = 7 := by omega
  all_goals rfl

/-- A list that holds no entry of a number finds none there. -/
theorem mfind_eq_none {α : Type} {m : NMap α} {k : Nat} (h : ∀ e ∈ m, e.1 ≠ k) : mfind m k = none := by
  induction m with
  | nil => rfl
  | cons e m ih =>
    obtain ⟨he, hm⟩ := List.forall_mem_cons.mp h
    exact (if_neg he).trans (ih hm)

theorem mget_eq_default {α : Type} (d : α) {m : NMap α} {k : Nat} (h : ∀ e ∈ m, e.1 ≠ k) : mget d m k = d := by
  rw [mget, mfind_eq_none h]
  rfl

/-- An enabled handler is entered. -/
theorem State.enterTrap_entered (x : TrapInfo) (h : TrapGoesTo s lvl f) (hen : (s.fnAt f).tven = true) :
    TrapEntered s lvl f x (s.enterTrap x) := by
  obtain ⟨l1, hl1⟩ := s.acquire_setGrp (s.grp.enter x lvl f (s.fnAt f))
  refine ⟨s.grp.enter x lvl f (s.fnAt f), l1, ?_, rfl, rfl, rfl, rfl, rfl, rfl, rfl, rfl, rfl, rfl, fun i hi => ?_, rfl,
    fun i hi => ?_, rfl, rfl, rfl, rfl, fun i hi => Fn.mget_hsegs _ hi, rfl, rfl, rfl, rfl, rfl⟩
  · simp only [State.enterTrap, s.trapTarget_of_goesTo h, hen, if_true]
    exact hl1
  · refine mget_eq_default _ fun e he => Nat.ne_of_lt (Nat.lt_of_lt_of_le ?_ hi)
    revert e
    simp [Group.enter]
  · refine mget_eq_default _ fun e he => Nat.ne_of_lt (Nat.lt_of_lt_of_le ?_ hi)
    revert e
    simp [Group.enter]

theorem State.takeTrap_entered {x : TrapInfo} (hd : s.drained (s.slotsOf s.grp.member) = true) (h : TrapGoesTo s lvl f)
    (hen : (s.fnAt f).tven = true) : TrapEntered s lvl f x (s.takeTrap x) := by
  rw [State.takeTrap, if_pos hd]
  exact s.enterTrap_entered x h hen

/-! ### The return (R359) -/

/-- The group that resumes a saved set at a PC. -/
def Group.resume (g : Group) (w : Wg) (segs : NMap Seg) (sv : Saved) (rest : List Saved) (pc : Word) : Group :=
  { g with
    pc := pc, s := sv.s, m := mset sv.m 0 (mget 0 sv.m 0 &&& g.member)
    v := sv.flags.testBit 0, c := sv.flags.testBit 1, n := sv.flags.testBit 2, z := sv.flags.testBit 3
    lvl := sv.level, hfn := w.fn, segs := segs, saved := rest, tlb := [], denied := [], held := none, far := 0 }

/-- The state in which the last trap's context goes on at a PC. -/
def State.resumed (s : State) (sv : Saved) (rest : List Saved) (pc : Word) : State :=
  (s.setGrp (s.grp.resume s.wg (s.segsFor sv.level) sv rest pc)).acquire

theorem State.trapReturn_saved {sv : Saved} {rest : List Saved} (hs : s.grp.saved = sv :: rest) (skip : Bool) :
    let pc := if skip then sv.pc + 8 else sv.pc
    s.trapReturn skip = if pc.toNat % 8 = 0 then s.resumed sv rest pc
      else (s.resumed sv rest pc).takeTrap { code := tMisalignedPc, addr := pc.toNat, detail := 2, pc := pc } := by
  simp only [State.trapReturn, hs]
  rfl

theorem State.resumed_spec (s : State) (sv : Saved) (rest : List Saved) (pc : Word) : Resumed s sv rest pc (s.resumed sv rest pc) := by
  obtain ⟨l1, hl1⟩ := s.acquire_setGrp (s.grp.resume s.wg (s.segsFor sv.level) sv rest pc)
  have hg : (s.resumed sv rest pc).grp = s.grp.resume s.wg (s.segsFor sv.level) sv rest pc := s.grp_acquire_setGrp _
  unfold Resumed
  rw [hg]
  refine ⟨rfl, rfl, rfl, rfl, fun i hi => ?_, mget_mset_self _ _ _ _, ?_, ?_, _, l1, hl1, rfl, rfl, rfl⟩
  · exact mget_mset_ne _ _ _ (Nat.ne_of_gt hi)
  · simp only [Group.flags, Group.resume, b2n_testBit]
    omega
  · rfl

theorem State.drained_resumed (s : State) (sv : Saved) (rest : List Saved) (pc : Word) :
    (s.resumed sv rest pc).drained ((s.resumed sv rest pc).slotsOf (s.resumed sv rest pc).grp.member)
      = s.drained (s.slotsOf s.grp.member) :=
  s.drained_acquire_setGrp (g := s.grp.resume s.wg (s.segsFor sv.level) sv rest pc) rfl rfl

/-- Settles O27: an enabled handler is entered at once where the accesses are performed; `tret` sets the group to the saved set, and
takes the trap of a misaligned PC from there. -/
theorem trapsSaveAndTrapReturnRestores : Obligations.TrapsSaveAndTrapReturnRestores := by
  refine ⟨fun s code lane addr detail lvl f hd h hen => s.takeTrap_entered hd h hen, fun s skip sv rest hs => ?_,
    fun s skip hd => congrArg Host.Outcome.next (if_neg (Bool.eq_false_iff.mp hd))⟩
  intro pc hd
  have hexec : exec (.tret skip) s = .next (if pc.toNat % 8 = 0 then s.resumed sv rest pc
      else (s.resumed sv rest pc).takeTrap { code := tMisalignedPc, addr := pc.toNat, detail := 2, pc := pc }) :=
    congrArg Host.Outcome.next ((if_pos hd).trans (s.trapReturn_saved hs skip))
  have hpc : (s.resumed sv rest pc).grp.pc = pc := congrArg Group.pc (s.grp_acquire_setGrp _)
  refine ⟨fun h0 => ⟨_, by rw [hexec, if_pos h0], s.resumed_spec sv rest pc⟩,
    fun h0 => ⟨_, s.resumed_spec sv rest pc, ?_, fun lvl f h hen => ?_⟩⟩
  · rw [hexec, if_neg h0, State.trap, hpc]
  · have hd' : (s.resumed sv rest pc).drained ((s.resumed sv rest pc).slotsOf (s.resumed sv rest pc).grp.member) = true :=
      (s.drained_resumed sv rest pc).trans hd
    have := State.takeTrap_entered (x := { code := tMisalignedPc, addr := pc.toNat, detail := 2, pc := pc }) hd' h hen
    rwa [State.trap, hpc]

end Sys2Proof.Machine
end

section
/-! SUPPORT. What the end of a workgroup leaves of the machine: everything beside its cores and hummocks; and what the end of a
launch leaves its root with (07_work_creation.md R376, R377). -/

namespace Sys2Proof.Machine

open Sys2Proof.Safety

/-- The machine without its cores and hummocks: functions, launches, cards, memory, the package. -/
def State.office (s : State) : State := { s with cores := [], hums := [] }

variable {s t : State}

section

variable (h : t.office = s.office)

include h

theorem launchAt_of_office (l : Nat) : t.launchAt l = s.launchAt l := by
  change t.office.launchAt l = s.office.launchAt l
  rw [h]

theorem fnAt_of_office (f : Nat) : t.fnAt f = s.fnAt f := by
  change t.office.fnAt f = s.office.fnAt f
  rw [h]

end

/-! ### Ends of workgroups (R377) -/

theorem State.passOn_office (s : State) (key gi : Nat) (g : Group) : (s.passOn key gi g).office = s.office := by
  unfold State.passOn
  dsimp only
  (repeat' split) <;> rfl

theorem State.inheritGo_office (n : Nat) (s : State) : (s.inheritGo n).office = s.office := by
  induction n generalizing s with
  | zero => rfl
  | succ n ih =>
    exact (ih _).trans (foldl_fixes State.office _ (fun _ _ => foldl_fixes State.office _ (fun t _ => t.passOn_office _ _ _) _ _) _ _)

theorem State.inherit_office (s : State) : s.inherit.office = s.office := State.inheritGo_office _ _

theorem State.modWbar_office (s : State) (h c w n : Nat) (f : Wbar → Wbar) : (s.modWbar h c w n f).office = s.office := by
  unfold State.modWbar
  split <;> rfl

theorem State.modGbar_office (s : State) (h c w n : Nat) (f : Gbar → Gbar) : (s.modGbar h c w n f).office = s.office := by
  unfold State.modGbar
  dsimp only
  split <;> rfl

theorem State.dropArrived_office (s : State) (h c w bar : Nat) : (s.dropArrived h c w bar).office = s.office := by
  unfold State.dropArrived
  split
  · exact State.modWbar_office ..
  · exact State.modGbar_office ..

theorem State.withdraw_office (s : State) (h c : Nat) (g : Group) (bar : Nat) (counted : Word) :
    (s.withdraw h c g bar counted).office = s.office := by
  refine foldl_fixes State.office _ (fun t l => ?_) _ _
  dsimp only
  split
  · exact State.dropArrived_office ..
  · rfl

theorem State.breakGroup_office (s : State) (h c g : Nat) : (s.breakGroup h c g).office = s.office := by
  unfold State.breakGroup
  dsimp only
  split
  · rfl
  · exact State.withdraw_office ..

theorem State.breakGroups_office (s : State) (who : Wg → Nat → Bool) : (s.breakGroups who).office = s.office := by
  refine (State.inherit_office _).trans
    (foldl_fixes State.office _ (fun t e => foldl_fixes State.office _ (fun t g => ?_) _ _) _ _)
  split
  · split
    · exact State.breakGroup_office ..
    · rfl
  · rfl

theorem State.breakBarriers_office (s : State) (h c w : Nat) : (s.breakBarriers h c w).office = s.office := by
  unfold State.breakBarriers
  exact State.breakGroups_office ..

theorem State.endWgAbnormal_office (s : State) (r : GRef) : (s.endWgAbnormal r).office = s.office :=
  (State.inherit_office _).trans (s.breakBarriers_office r.h r.c r.g)

theorem State.endWgs_office (s : State) (rs : List GRef) : (rs.foldl (fun t r => t.endWgAbnormal r) s).office = s.office :=
  foldl_fixes State.office _ (fun t r => t.endWgAbnormal_office r) _ _

/-! ### Ends of launches (R353, R377) -/

/-- A launch that has ended: it holds no workgroup, and a status that it had stands. -/
def Launch.endedWith (x : Launch) (st : Nat) : Launch :=
  { x with wgs := [], fresh := [], phase := .ended, status := some (x.status.getD st) }

theorem Launch.endedWith_twice (x : Launch) (st : Nat) : (x.endedWith st).endedWith st = x.endedWith st := rfl

/-- One launch ends: its workgroups do, and it is ended. -/
def State.endOne (s : State) (st l : Nat) : State :=
  ((s.launchAt l).wgs.foldl (fun t r => t.endWgAbnormal r) s).setLaunch l ((s.launchAt l).endedWith st)

theorem State.endLaunch_eq (s : State) (l st : Nat) : s.endLaunch l st =
    let t := (s.launches.filter (fun e => e.1 == s.rootLaunch l || e.2.poster == some (s.rootLaunch l))).foldl
      (fun t e => t.endOne st e.1) s
    { t with cards := t.cards.filter (fun c => c.poster != some (s.rootLaunch l)) } := rfl

theorem State.launchAt_endOne (s : State) (st l r : Nat) :
    (s.endOne st l).launchAt r = if r = l then (s.launchAt l).endedWith st else s.launchAt r := by
  rw [State.endOne, State.launchAt_setLaunch, launchAt_of_office (s.endWgs_office _)]

/-- A launch among those that end in turn is ended once. -/
theorem State.launchAt_foldl_endOne (st r : Nat) : ∀ (es : List (Nat × Launch)) (s : State), (∃ e ∈ es, e.1 = r) →
    (es.foldl (fun t e => t.endOne st e.1) s).launchAt r = (s.launchAt r).endedWith st := by
  have done : ∀ (es : List (Nat × Launch)) (x : Launch) (t : State), t.launchAt r = x.endedWith st →
      (es.foldl (fun t e => t.endOne st e.1) t).launchAt r = x.endedWith st := by
    refine fun es x t => foldl_keeps (fun t : State => t.launchAt r = x.endedWith st) _ (fun t e ht => ?_) es t
    rw [State.launchAt_endOne]
    split
    next h => rw [← h, ht, Launch.endedWith_twice]
    next => exact ht
  intro es
  induction es with
  | nil => exact fun s ⟨e, he, _⟩ => absurd he (List.not_mem_nil)
  | cons e es ih =>
    intro s hr
    by_cases h : e.1 = r
    · exact done es _ _ (by rw [State.launchAt_endOne, if_pos h.symm, h])
    · obtain ⟨e', he', hr'⟩ := hr
      have hmem : e' ∈ es := (List.mem_cons.mp he').resolve_left fun heq => h (heq ▸ hr')
      rw [List.foldl_cons, ih _ ⟨e', hmem, hr'⟩, State.launchAt_endOne, if_neg (Ne.symm h)]

theorem mem_of_mfind {α : Type} {m : NMap α} {k : Nat} {v : α} (h : mfind m k = some v) : (k, v) ∈ m := by
  induction m with
  | nil => cases h
  | cons e m ih =>
    obtain ⟨j, w⟩ := e
    rw [mfind] at h
    split at h
    next hj =>
      obtain rfl := Option.some.inj h
      exact hj ▸ List.mem_cons_self
    next => exact List.mem_cons_of_mem _ (ih h)

/-- The root of a launch that ends is ended. -/
theorem State.launchAt_endLaunch (s : State) (l st : Nat) {x : Launch} (hx : mfind s.launches (s.rootLaunch l) = some x) :
    (s.endLaunch l st).launchAt (s.rootLaunch l) = x.endedWith st := by
  have hroot : s.launchAt (s.rootLaunch l) = x := by rw [State.launchAt, mget, hx]; rfl
  rw [s.endLaunch_eq, ← hroot]
  refine State.launchAt_foldl_endOne st _ _ s ⟨(s.rootLaunch l, x), List.mem_filter.mpr ⟨mem_of_mfind hx, ?_⟩, rfl⟩
  simp

end Sys2Proof.Machine
end

section
/-! SUPPORT. Runs of lane registers written one after another, and instructions that no lane executes. -/

namespace Sys2Proof.Machine

open Sys2Proof.Safety

variable {s : State} {m : MReg} {a : Reg} {i : Instr}

/-! ### No lane of E -/

theorem lanesOf_zero : lanesOf 0 = [] := by decide

/-- With no lane of E no helper lane has a reason to run. -/
theorem State.live_idle (he : s.exe m = 0) : s.live m = 0 := by
  have hnone : (List.range 32).filter (fun l =>
        s.grp.helpers.getLsbD l && (List.range 4).any (fun i => (0 : Word).getLsbD (l / 4 * 4 + i)))
      = [] := List.filter_eq_nil_iff.mpr fun l _ => by simp
  rw [State.live, he, State.liveOf, maskBy, hnone]
  rfl

/-- A word whose lanes' writes come to nothing with no lane of E only advances then. -/
theorem advance_idle {u : State} (hu : s.exe m = 0 → u = s) : (if s.exe m = 0 then s.advance else u.advance) = u.advance := by
  split
  next he => rw [hu he]
  next => rfl

theorem State.writeLanes_idle (he : s.exe m = 0) (j : Nat) (f : Nat → Word) : s.writeLanes (s.live m) j f = s := by
  rw [State.live_idle he]
  rfl

theorem State.writePair_idle (he : s.exe m = 0) (j : Nat) (f : Nat → Nat) : s.writePair (s.live m) j f = s := by
  rw [State.live_idle he]
  rfl

theorem State.writeQuad_idle (he : s.exe m = 0) (j : Nat) (f : Nat → Nat) : s.writeQuad (s.live m) j f = s := by
  rw [State.live_idle he]
  rfl

/-! ### Consecutive registers -/

/-- Writing `n` registers of the live lanes from register `j` on. -/
theorem writeRun_law (hr : RowsApart s) (live : Word) (j : Nat) (v : Nat → Nat → Word) : ∀ n, j + n ≤ s.wg.n →
    let t := (List.range n).foldl (fun t i => t.writeLanes live (j + i) (v i)) s
    SameBut s t
      ∧ (∀ l k, HasRegs s l → k < s.wg.n → t.lreg l k =
          if live.getLsbD l = true ∧ j ≤ k ∧ k < j + n then v (k - j) l else s.lreg l k)
      ∧ (∀ p, (∀ l k, l < 32 → s.grp.member.getLsbD l = true → k < s.wg.n → s.physReg l k ≠ p) →
          mget 0 t.core.rf p = mget 0 s.core.rf p) := by
  intro n
  induction n with
  | zero => exact fun _ => ⟨SameBut.refl s, fun l k _ _ => (if_neg fun ⟨_, hlo, hhi⟩ => by omega).symm, fun _ _ => rfl⟩
  | succ n ih =>
    intro hn t
    obtain ⟨hsame, hreg, hrf⟩ := ih (by omega)
    obtain ⟨hsame', hreg', hrf'⟩ := writeLanes_law hr hsame live (j + n) (by omega) (v n)
    have ht : t = ((List.range n).foldl (fun t i => t.writeLanes live (j + i) (v i)) s).writeLanes live (j + n) (v n) := by
      simp only [t, List.range_succ, List.foldl_append, List.foldl_cons, List.foldl_nil]
    rw [ht]
    refine ⟨hsame', fun l k hl hk => ?_, fun p hp => (hrf' p hp).trans (hrf p hp)⟩
    rw [hreg' l k hl hk, hreg l k hl hk]
    by_cases hlast : k = j + n
    · subst hlast
      simp
    · have hlt : k < j + (n + 1) ↔ k < j + n := by omega
      simp only [hlast, and_false, if_false, hlt]

/-- Four registers of each live lane written, and the next word. -/
theorem wroteQuad_advance (hr : RowsApart s) (ha : quadOk s.wg.n a = true) (f : Nat → Nat) :
    WroteQuad s m a f (s.writeQuad (s.live m) a.toNat f).advance := by
  have hlt : a.toNat + 3 < s.wg.n := of_decide_eq_true (and2_right ha)
  obtain ⟨hsame, hreg, hrf⟩ := writeRun_law hr (s.live m) a.toNat (fun i l => BitVec.ofNat 32 (f l / 2 ^ (32 * i))) 4 hlt
  have h := hsame.laneRegs (s.grp.pc + 8) _ hreg hrf
  rw [← hsame.pc] at h
  rw [WroteQuad, ← hsame.pc]
  exact h

/-- An instruction whose effect is one quad of the executing lanes. -/
theorem does_quad {f : Nat → Nat} (hr : RowsApart s) (ha : quadOk s.wg.n a = true)
    (hi : exec i s = .next (if s.exe m = 0 then s.advance else (s.writeQuad (s.live m) a.toNat f).advance)) :
    Runs i s (WroteQuad s m a f) :=
  ⟨_, hi.trans (congrArg Host.Outcome.next (advance_idle fun he => State.writeQuad_idle he _ _)), wroteQuad_advance hr ha f⟩

end Sys2Proof.Machine
end

section
/-! PROOF. Segment, vector, saved and system registers, checkpoints and halting (15_traps_preemption.md R357 to R364). -/

namespace Sys2Proof.Machine

open Sys2Proof.Safety

section

variable {s : State} {m : MReg} {a : Reg}

/-! ### What the registers hold (R357 Table 15.3) -/

theorem levelNum_ne_zero {l : Level} (hl : l ≠ .user) : levelNum l ≠ 0 := by
  cases l
  case user => exact absurd rfl hl
  case supervisor => decide
  case hypervisor => decide

theorem State.sysRead_saved {n : Nat} (hn : n ≤ 0x40) (hl : s.grp.lvl ≠ .user) {sv : Saved} {rest : List Saved}
    (hs : s.grp.saved = sv :: rest) : s.sysRead n = sv.read n := by
  have h0 : levelNum s.grp.lvl ≠ 0 := levelNum_ne_zero hl
  simp [State.sysRead, hn, h0, hs]

/-- User level reads the views of the checkpoint registers alone. -/
theorem State.sysRead_user (hl : s.grp.lvl = .user) {k : Nat} (hk : k < 0x060 ∨ 0x066 < k) : s.sysRead k = 0 := by
  have hck : ¬ (0x060 ≤ k ∧ k ≤ 0x066) := by omega
  simp [State.sysRead, hl, levelNum, hck]

theorem Saved.read_scalar (v : Saved) {i : Nat} (hi : i < 32) : v.read (0x010 + i) = (mget 0 v.s i).toNat := by
  have h0 : 0x010 + i ≠ 0 ∧ 0x010 + i ≠ 1 ∧ 0x010 + i ≠ 2 := by omega
  have hin : 0x010 + i < 0x30 := by omega
  simp [Saved.read, h0, hin]

theorem Saved.read_mask (v : Saved) {i : Nat} (hi : i < 16) : v.read (0x030 + i) = (mget 0 v.m i).toNat := by
  have h0 : 0x030 + i ≠ 0 ∧ 0x030 + i ≠ 1 ∧ 0x030 + i ≠ 2 := by omega
  have hin : ¬ (0x10 ≤ 0x030 + i ∧ 0x030 + i < 0x30) := by omega
  have hin' : 0x030 + i < 0x40 := by omega
  simp [Saved.read, h0, hin']

theorem State.sysRead_ck {n : Nat} (hlo : 0x060 ≤ n) (hhi : n ≤ 0x066) :
    s.sysRead n = (s.fnAt s.sysFn).ck.read (levelNum s.grp.lvl) n := by
  have h : ¬ n ≤ 0x40 ∧ n ≠ 0x048 ∧ n ≠ 0x070 := by omega
  simp [State.sysRead, h, hlo, hhi]

/-! ### What a write changes -/

theorem State.sysWrite_saved {n : Nat} (hn : n ≤ 0x40) {sv : Saved} {rest : List Saved} (hs : s.grp.saved = sv :: rest) (x : Nat) :
    s.sysWrite n x = s.setGrp { s.grp with saved := sv.write n x :: rest } := by
  rw [State.sysWrite, if_pos hn, hs]

theorem Saved.write_scalar (v : Saved) {i : Nat} (hi : i < 32) (x : Nat) :
    v.write (0x010 + i) x = { v with s := mset v.s i (BitVec.ofNat 32 x) } := by
  have hin : 0x010 + i < 0x30 := by omega
  simp [Saved.write, hin]

theorem Saved.write_mask (v : Saved) {i : Nat} (hi : i < 16) (x : Nat) :
    v.write (0x030 + i) x = { v with m := mset v.m i (BitVec.ofNat 32 x) } := by
  have hin : ¬ (0x10 ≤ 0x030 + i ∧ 0x030 + i < 0x30) := by omega
  have hin' : 0x030 + i < 0x40 := by omega
  simp [Saved.write, hin']

/-- Below hypervisor level the package's registers and the checkpoint registers take no write. -/
theorem State.sysWrite_below (hl : s.grp.lvl ≠ .hypervisor) {k : Nat} (h1 : 0x040 < k) (h2 : k ≠ 0x048) (h3 : k ≠ 0x070)
    (h4 : k ≠ 0x0A8) (x : Nat) : s.sysWrite k x = s := by
  have h0 : ¬ k ≤ 0x40 := by omega
  simp [State.sysWrite, h0, h2, h3, h4, hl]

/-! ### Checkpoint requests (R364, R369) -/

theorem State.requestEarly_off {f : Nat} (h : (s.fnAt f).ck.en = false) : s.requestEarly f = s := by
  simp [State.requestEarly, h]

theorem State.requestEarly_on {f : Nat} (hen : (s.fnAt f).ck.en = true) (hno : (s.fnAt f).ck.early = none) :
    s.requestEarly f = s.setFn f { s.fnAt f with ck := { (s.fnAt f).ck with
      early := some (s.pkg.epoch + (s.chipTime + 2000 - s.pkg.epoch + 9999) / 10000 * 10000) } } := by
  simp [State.requestEarly, hen, hno]

end

/-- Settles O43: each clause is a branch of its instruction or of a register's read or write; a launch's end reaches its root among
the launches that end with it. -/
theorem systemRegisterInstructionsRun : Obligations.SystemRegisterInstructionsRun := by
  intro s m a h sgm n e v adv
  refine ⟨?idle, ?tvec, ?segLd, ?segRd, ?sysRd, ?sysWr, ?user, ?saved, ?hyp, ?sup, ?writes, ?vfsel, ?below, ?refusedRead,
    ?refusedWrite, ?ckptOff, ?ckpt, ?ckptQ, ⟨_, rfl, rfl⟩, ?haltDbg, ?ended⟩
  case idle =>
    intro he
    simp only [List.forall_mem_cons]
    exact ⟨⟨_, congrArg Host.Outcome.next (if_pos he), rfl⟩, ⟨_, congrArg Host.Outcome.next (if_pos he), rfl⟩,
      ⟨_, congrArg Host.Outcome.next (if_pos he), rfl⟩, ⟨_, congrArg Host.Outcome.next (if_pos he), rfl⟩,
      ⟨_, congrArg Host.Outcome.next (if_pos he), rfl⟩, ⟨_, congrArg Host.Outcome.next (if_pos he), rfl⟩,
      List.forall_mem_nil _⟩
  case tvec =>
    exact fun he => ⟨_, congrArg Host.Outcome.next (if_neg he), rfl⟩
  case segLd =>
    intro he x
    exact ⟨⟨_, congrArg Host.Outcome.next (if_neg he), rfl⟩,
      ⟨_, congrArg Host.Outcome.next (if_neg he), onlyWg_setWg_advance _ _⟩⟩
  case segRd =>
    intro hr hwf
    have hcond : (s.grp.lvl = .user ∧ sgm = 5) = ((s.grp.lvl == .user && sgm = 5) = true) := by simp
    simp only [hcond]
    exact does_quad hr hwf rfl
  case sysRd =>
    intro hr hwf
    have h := (lanes_wrote hr m .n64 a (and2_left hwf) fun _ => BitVec.ofNat 64 (s.sysRead n.toNat))
    exact ⟨_, congrArg Host.Outcome.next (advance_idle fun he => State.writePair_idle he _ _), h⟩
  case sysWr => exact fun he => congrArg Host.Outcome.next (if_neg he)
  case user => exact fun hl k hk => State.sysRead_user hl hk
  case saved =>
    intro sv rest hl hs
    refine ⟨State.sysRead_saved (by decide) hl hs, State.sysRead_saved (by decide) hl hs, State.sysRead_saved (by decide) hl hs,
      fun i hi => ?_, fun i hi => ?_⟩
    · rw [State.sysRead_saved (by omega) hl hs, Saved.read_scalar _ hi]
    · rw [State.sysRead_saved (by omega) hl hs, Saved.read_mask _ hi]
  case hyp =>
    intro hl
    have hf : s.sysFn = s.pkg.vfsel := by simp [State.sysFn, hl]
    refine ⟨by simp [State.sysRead, hl, levelNum, State.pkgRead], ?_, ?_⟩
    · rw [State.sysRead_ck (by decide) (by decide), hf]
      rfl
    · rw [State.sysRead_ck (by decide) (by decide), hf]
      rfl
  case sup =>
    intro hl
    have hf : s.sysFn = s.wg.fn := by simp [State.sysFn, hl]
    refine ⟨by simp [State.sysRead, hl, levelNum], ?_⟩
    rw [State.sysRead_ck (by decide) (by decide), hf]
    rfl
  case writes =>
    intro x sv rest hs W
    have hW : ∀ k, k ≤ 0x40 → W k (sv.write k x) := fun k hk => State.sysWrite_saved hk hs x
    exact ⟨hW 0x000 (by decide), hW 0x001 (by decide), hW 0x002 (by decide), hW 0x040 (by decide),
      fun i hi => sv.write_scalar hi x ▸ hW _ (by omega), fun i hi => sv.write_mask hi x ▸ hW _ (by omega)⟩
  case vfsel =>
    intro hl x
    simp [State.sysWrite, hl, State.pkgWrite]
  case below => exact fun hl k x h1 h2 h3 h4 => State.sysWrite_below hl h1 h2 h3 h4 x
  case refusedRead =>
    intro hl
    have h0 : levelNum s.grp.lvl ≠ 0 := levelNum_ne_zero hl
    simp [State.sysRead, h0]
  case refusedWrite => exact fun x => by simp [State.sysWrite, bitOf]
  case ckptOff =>
    intro hno
    refine ⟨_, rfl, ?_⟩
    rcases hno with hf | hen
    · rw [if_pos hf]
      rfl
    · rw [State.requestEarly_off hen, ite_self]
      rfl
  case ckpt =>
    intro hf hen hno
    refine ⟨_, rfl, s.pkg.epoch + (s.chipTime + 2000 - s.pkg.epoch + 9999) / 10000 * 10000, by omega, by omega, ?_⟩
    rw [if_neg hf, State.requestEarly_on hen hno]
    rfl
  case ckptQ => exact fun hr hwf => does_quad hr hwf rfl
  case haltDbg =>
    refine ⟨_, rfl, ?_⟩
    unfold OnlyWg
    rw [State.setWg, State.core_advance, grp_advance]
    exact State.setCore_setCore _ _ _
  case ended =>
    intro l st x hx y
    have hy : y = x.endedWith st := s.launchAt_endLaunch l st hx
    rw [hy]
    exact ⟨rfl, rfl, rfl⟩

end Sys2Proof.Machine
end

section
/-! PROOF. The events of the Enlarger and of the matrix sequencer (13_async_copy.md R293, R314, R316; 14_matrix.md R335, R346,
R347). -/

namespace Sys2Proof.Machine

open Sys2Proof.Safety

section

variable {s : State} {h c k line : Nat}

/-! ### Destination lines (R293, R316) -/

theorem exec_copyLineWrite_none (hk : mfind (s.humAt h).enl k = none) : exec (.copyLineWrite h k line) s = .next s := by
  change execCopyLineWrite h k line s = _
  rw [execCopyLineWrite, hk]

/-- Whether every scratchpad line that a unit reads is present. -/
def State.unitPresent (s : State) (h : Nat) (j : CopyJob) (line : Nat) : Bool :=
  (s.unitReads h j line).all (fun p => match p with
    | .scr key l => s.spotPresent (.scr key (l * 128))
    | _ => true)

/-- What keeps a unit from being written whatever its lines are. -/
def State.unitStopped (s : State) (h : Nat) (j : CopyJob) (line : Nat) : Bool :=
  !(j.todo.contains line) || j.isFence || (s.fnAt j.fn).ck.state != .run || s.unitBlocked h j line || !s.unitPresent h j line

/-- A unit's lines pass the arbiters on their way, and it is written once each has. -/
def State.unitSent (s : State) (h k : Nat) (j : CopyJob) (line : Nat) (bs : List MemByte) : State :=
  let p := s.sendLines ((j.sent.filter (fun x => x.1 == line)).map Prod.snd) (s.unitReqs h j bs)
  let rest := j.sent.filter (fun x => x.1 != line)
  if p.2.all p.1.through then (p.1.l2Lines p.2).writeUnit h k { j with sent := rest } line bs
  else p.1.setJob h k { j with sent := rest ++ p.2.map (fun r => (line, r)) }

theorem exec_copyLineWrite_some {j : CopyJob} (hk : mfind (s.humAt h).enl k = some j) :
    let bs := s.unitMem h j line
    let launch := (mget ({} : Wg) (s.coreAt h j.core).wgs j.wgs).launch
    exec (.copyLineWrite h k line) s =
      if s.unitStopped h j line then .next s
      else if s.unitUndeclared h j bs then .next (s.endLaunch launch stLease)
      else match s.unitMissing j bs with
        | some b => .next (s.askCopyWalk h k j b)
        | none => if !(s.unitPath h j bs) then .next (s.endLaunch launch stLease)
          else if s.unitHeld h j bs || (bs.any (fun b => b.write) && s.ckFull j.fn) then .next s
          else .next (s.unitSent h k j line bs) := by
  change execCopyLineWrite h k line s = _
  rw [execCopyLineWrite, hk]
  rfl

/-! ### Fence entries (R314, R335) -/

theorem exec_qfence_none (hk : mfind (s.humAt h).enl k = none) (hlt : k < 2048) : exec (.qfenceEntryComplete h k) s = .next s := by
  change execQfenceEntryComplete h k s = _
  rw [execQfenceEntryComplete, if_pos hlt, hk]

theorem exec_qfence_some {j : CopyJob} (hk : mfind (s.humAt h).enl k = some j) (hlt : k < 2048) :
    exec (.qfenceEntryComplete h k) s =
      if j.isFence && j.waits.all (fun x => s.queueDone h j.core j.wgs x.1 x.2) then
        .next (s.setHum h { s.humAt h with enl := mdel (s.humAt h).enl k })
      else .next s := by
  change execQfenceEntryComplete h k s = _
  rw [execQfenceEntryComplete, if_pos hlt, hk]

section

variable {op : MatOp} {rest : List MatOp} {w : Nat} (hq : (s.coreAt h c).engine.queue = op :: rest)
  (hw : (s.coreAt h c).engine.holder = some w)

include hq hw

theorem exec_qfence_head {qs : Nat} (hop : op.kind = .fence qs) : exec (.qfenceEntryComplete h (2048 + c)) s =
    if op.waits.all (fun x => s.queueDone h c w x.1 x.2) then
      .next (s.modEngine h c (fun e => { e with queue := rest }.beginHead w s.chipTime))
    else .next s := by
  change execQfenceEntryComplete h (2048 + c) s = _
  rw [execQfenceEntryComplete, if_neg (by omega), Nat.add_sub_cancel_left]
  dsimp only
  rw [hq, hw]
  simp only [hop]

/-! ### The sequencer and its watchdog (R346, R347) -/

theorem exec_matrixStep_head : exec (.matrixStep h c) s =
    if op.isFence || (s.coreAt h c).engine.state == 3 || (s.coreAt h c).status != .running
      || (s.fnAt (mget {} (s.coreAt h c).wgs w).fn).ck.state != .run then .next s
    else .next (s.matStep h c w op) := by
  change execMatrixStep h c s = _
  rw [execMatrixStep, hq, hw]

theorem exec_matrixWatchdog_running (hst : (s.coreAt h c).engine.state ≠ 3) : exec (.matrixWatchdog h c) s =
    .next (if !op.isFence && decide ((s.coreAt h c).engine.wdog * 25 < (s.coreAt h c).engine.measured s.chipTime * 47) then
      s.setCoreAt h c { s.coreAt h c with engine := { (s.coreAt h c).engine with state := 3 } } else s) := by
  change execMatrixWatchdog h c s = _
  rw [execMatrixWatchdog]
  split
  next w' op' rest' hw' hq' =>
    obtain ⟨rfl, -⟩ := List.cons.inj (hq.symm.trans hq')
    exact if_pos hst
  next hno => exact absurd hq (hno w op rest hw)

theorem exec_matrixWatchdog_hung (hst : (s.coreAt h c).engine.state = 3) : exec (.matrixWatchdog h c) s =
    let l := (mget ({} : Wg) (s.coreAt h c).wgs w).launch
    let u := (s.setCoreAt h c { s.coreAt h c with engine := (s.coreAt h c).engine.hung }).logErr 0 10 h (coreKey (s.phys h) c) 0
    .next (if u.rollsBack (u.launchAt l).fn then u.rollback (u.launchAt l).fn
      else u.endSome l stMatrixReset (fun r => r == { h := h, c := c, g := w })) := by
  change execMatrixWatchdog h c s = _
  rw [execMatrixWatchdog, hq, hw]
  exact if_neg (not_not_intro hst)

end

theorem exec_sequencer_idle (hno : (s.coreAt h c).engine.holder = none ∨ (s.coreAt h c).engine.queue = []) :
    exec (.matrixStep h c) s = .next s ∧ exec (.matrixWatchdog h c) s = .next s := by
  change execMatrixStep h c s = _ ∧ execMatrixWatchdog h c s = _
  rw [execMatrixStep, execMatrixWatchdog]
  rcases hno with hw | hq
  · rw [hw]
    exact ⟨rfl, rfl⟩
  · rw [hq]
    cases (s.coreAt h c).engine.holder
    case none => exact ⟨rfl, rfl⟩
    case some w => exact ⟨rfl, rfl⟩

theorem MatOp.isFence_of_fence {op : MatOp} {qs : Nat} (hop : op.kind = .fence qs) : op.isFence = true := by
  rw [MatOp.isFence, hop]

end

/-- Settles O48: each event is a choice between what its condition asks for and the state it began in; the watchdog's second event is
the reset of the engine that it hung. -/
theorem copyAndMatrixEventsAct : Obligations.CopyAndMatrixEventsAct := by
  intro s h c k line d core e
  refine ⟨fun hk => ⟨exec_copyLineWrite_none hk, exec_qfence_none hk⟩, fun j hk => ?line, fun op rest w qs hq hw hop => ?fence,
    exec_sequencer_idle, fun op rest w hq hw hop => ?step, fun op rest w hq hw hst => exec_matrixWatchdog_hung hq hw hst⟩
  case line =>
    intro bs launch present held
    have hexec := exec_copyLineWrite_some (line := line) hk
    refine ⟨fun hh => hexec.trans (if_pos hh), fun hh hu => ?_, fun hh hu => ?_,
      fun hlt => waitEnds_of_choice (exec_qfence_some hk hlt)⟩
    · exact hexec.trans ((if_neg (Bool.eq_false_iff.mp hh)).trans (if_pos hu))
    · replace hexec := hexec.trans ((if_neg (Bool.eq_false_iff.mp hh)).trans (if_neg (Bool.eq_false_iff.mp hu)))
      refine ⟨fun b hb => ?_, fun hb hp => ?_, fun hb hp => ?_⟩
      · rw [hexec, hb]
      · rw [hexec, hb]
        exact if_pos (by rw [hp]; rfl)
      · rw [hb] at hexec
        have hsend := hexec.trans (if_neg (by rw [hp]; decide))
        rw [← Bool.not_or]
        exact waitEnds_of_unless hsend
  case fence =>
    have hf := MatOp.isFence_of_fence hop
    refine ⟨waitEnds_of_choice (exec_qfence_head hq hw hop), ?_, fun hst => ?_⟩
    · rw [exec_matrixStep_head hq hw, hf]
      rfl
    · rw [exec_matrixWatchdog_running hq hw hst, hf]
      rfl
  case step =>
    intro v
    refine ⟨?_, fun hst => ?_⟩
    · have hexec := exec_matrixStep_head hq hw
      rw [hop] at hexec
      have hcond : (core.status == .running && (s.fnAt v.fn).ck.state == .run && e.state != 3)
          = !(false || e.state == 3 || core.status != .running || (s.fnAt v.fn).ck.state != .run) := by
        simp only [bne, Bool.not_or, Bool.not_not, Bool.false_or]
        exact (Bool.and_comm _ _).trans (Bool.and_assoc _ _ _).symm
      rw [hcond]
      exact waitEnds_of_unless hexec
    · have hexec := exec_matrixWatchdog_running hq hw hst
      rw [hop] at hexec
      exact waitEnds_of_ite hexec

end Sys2Proof.Machine
end

section
/-! SUPPORT. Signing a matrix operation, recording a signature, and placing a complete set in qm (12_synchronisation.md R282,
14_matrix.md R331, R332). -/

namespace Sys2Proof.Machine

open Sys2Proof.Safety

variable {s : State} {i : Instr} {m : MReg} {cv : BitVec 3} {op : MatOp}

/-! ### The signing rules (R282) -/

theorem popNat_lanes (e : Word) : popNat e.toNat 32 = (lanesOf e).length := rfl

section

variable {k n : Nat}

theorem State.signTrap_state
    (h : (mget {} s.wg.cvs k : Cv).size = 0 ∨ (mget {} s.wg.cvs k : Cv).size < (mget {} s.wg.cvs k : Cv).signed + n) :
    s.signTrap op k n = some tCvState := if_pos (by simpa using h)

variable (h0 : (mget {} s.wg.cvs k : Cv).size ≠ 0) (hle : (mget {} s.wg.cvs k : Cv).signed + n ≤ (mget {} s.wg.cvs k : Cv).size)

include h0 hle

theorem State.signTrap_sized : s.signTrap op k n =
    if (mget {} s.wg.cvs k : Cv).signed != 0 && (mget {} s.wg.cvs k : Cv).opnds != op.set then some tCvMismatch else none :=
  if_neg (by simpa [h0] using hle)

theorem State.signTrap_mismatch (hs : (mget {} s.wg.cvs k : Cv).signed ≠ 0) (ho : (mget {} s.wg.cvs k : Cv).opnds ≠ op.set) :
    s.signTrap op k n = some tCvMismatch := (s.signTrap_sized h0 hle).trans (if_pos (by simp [hs, ho]))

theorem State.signTrap_none (h : (mget {} s.wg.cvs k : Cv).signed = 0 ∨ (mget {} s.wg.cvs k : Cv).opnds = op.set) :
    s.signTrap op k n = none := (s.signTrap_sized h0 hle).trans (if_neg (by
  rcases h with h | h
  · simp [h]
  · simp [h]))

end

/-! ### Signing (R331, R332) -/

/-- An operation as its signers' group gives it: with the group's segments, function and level. -/
def State.signed (s : State) (op : MatOp) : MatOp := { op with segs := s.grp.segs, fn := s.accFn, user := s.grp.lvl == .user }

section

variable (he : s.exe m ≠ 0) (hf : s.wg.qm.fail = false) (hh : s.wg.holds = true)

include he hf hh

theorem State.sign_refused {code : Nat} (ht : s.signTrap op cv.toNat (lanesOf (s.exe m)).length = some code) :
    s.sign m cv none op = s.trap code (lowest (s.exe m)) := by
  refine (if_neg he).trans ((if_neg (Bool.eq_false_iff.mp hf)).trans ((if_neg (by simp [hh])).trans ?_))
  change (match s.signTrap op cv.toNat (lanesOf (s.exe m)).length with
    | some code => s.trap code (lowest (s.exe m))
    | none => _) = _
  rw [ht]

theorem State.sign_accepted (ht : s.signTrap op cv.toNat (lanesOf (s.exe m)).length = none) :
    s.sign m cv none op = if s.drained (s.slotsOf (s.exe m)) then s.record (s.signed op) cv.toNat (s.exe m)
      else s.setWait (.sign (s.signed op) cv.toNat (s.exe m)) := by
  refine (if_neg he).trans ((if_neg (Bool.eq_false_iff.mp hf)).trans ((if_neg (by simp [hh])).trans ?_))
  change (match s.signTrap op cv.toNat (lanesOf (s.exe m)).length with
    | some code => s.trap code (lowest (s.exe m))
    | none => if s.drained (s.slotsOf (s.exe m)) then s.record (s.signed op) cv.toNat (s.exe m)
      else s.setWait (.sign (s.signed op) cv.toNat (s.exe m))) = _
  rw [ht]

end

/-- A signing instruction whose own checks hold. -/
theorem signs_of_sign (hi : exec i s = .next (s.sign m cv none op)) : Safety.Signs s i m cv op := by
  refine ⟨fun he => ⟨_, hi.trans (congrArg Host.Outcome.next (if_pos he)), rfl⟩,
    fun he hf => hi.trans (congrArg Host.Outcome.next ((if_neg he).trans (if_pos hf))), fun he hf hh => ?unheld,
    fun he hf hh => ⟨fun hst => ?state, fun h0 hle => ⟨fun hs ho => ?mismatch, fun hok => ⟨fun hd => ?sign, fun hd => ?wait⟩⟩⟩⟩
  case unheld =>
    exact hi.trans (congrArg Host.Outcome.next
      ((if_neg he).trans ((if_neg (Bool.eq_false_iff.mp hf)).trans (if_pos (by rw [hh]; rfl)))))
  case state => rw [hi, State.sign_refused he hf hh (State.signTrap_state hst)]
  case mismatch => rw [hi, State.sign_refused he hf hh (State.signTrap_mismatch h0 hle hs ho)]
  case sign => rw [hi, State.sign_accepted he hf hh (State.signTrap_none h0 hle hok), if_pos hd]; rfl
  case wait => rw [hi, State.sign_accepted he hf hh (State.signTrap_none h0 hle hok), if_neg (Bool.eq_false_iff.mp hd)]; rfl

/-! ### Placing an operation (R332) -/

theorem Engine.queue_beginHead (e : Engine) (w now : Nat) : (e.beginHead w now).queue = e.queue := by
  unfold Engine.beginHead
  split <;> rfl

theorem Engine.acc_beginHead (e : Engine) (w now : Nat) : (e.beginHead w now).acc = e.acc := by
  unfold Engine.beginHead
  split <;> rfl

theorem State.setWg_setWg (s : State) (w w' : Wg) : (s.setWg w).setWg w' = s.setWg w' := by
  rw [State.setWg, State.grp_setWg, State.core_setWg, State.setWg, State.setWg]
  simp only [mset_mset]
  exact State.setCore_setCore _ _ _

/-- qm once it has taken an operation. -/
def QmState.took (q : QmState) : QmState := { q with outst := q.outst + 1, accn := q.accn + 1, placed := q.placed + 1 }

/-- The core whose qm has taken an operation: the operation stands last in it, and its lines are absent. -/
structure TookOp (s : State) (w : Wg) (op : MatOp) (k : Core) : Prop where
  groups : k.groups = s.core.groups
  rf : k.rf = s.core.rf
  wgs : k.wgs = mset s.core.wgs s.grp.wgs { w with qm := w.qm.took }
  absent : k.absent = op.lines ++ s.core.absent
  queue : k.engine.queue = s.core.engine.queue ++ [{ op with pos := w.qm.placed }]
  acc : k.engine.acc = s.core.engine.acc

theorem State.qmPlace_setWg (s : State) (w : Wg) (op : MatOp) : ∃ k, (s.setWg w).qmPlace op = s.setCore k ∧ TookOp s w op k := by
  unfold State.qmPlace
  dsimp only
  rw [State.setWg_setWg, State.wg_setWg, State.core_setWg, State.grp_setWg]
  refine ⟨_, State.setCore_setCore _ _ _, rfl, rfl, rfl, rfl, ?_, ?_⟩
  · dsimp only
    split
    · exact Engine.queue_beginHead _ _ _
    · rfl
  · dsimp only
    split
    · exact Engine.acc_beginHead _ _ _
    · rfl

/-! ### Signatures (R282, R332) -/

/-- A convergence register that took the signatures of `n` threads for an operation. -/
def Cv.sign (x : Cv) (op : MatOp) (n : Nat) : Cv :=
  { (if x.signed = 0 then { x with opnds := op.set, digest := digestOf op.set } else x) with signed := x.signed + n }

theorem Cv.sign_gen (x : Cv) (op : MatOp) (n : Nat) : (x.sign op n).gen = x.gen := by
  unfold Cv.sign
  dsimp only
  split <;> rfl

/-- The workgroup once a signature of `n` threads is recorded. -/
def State.signedWg (s : State) (op : MatOp) (k n : Nat) : Wg :=
  { s.wg with cvs := mset s.wg.cvs k ((mget {} s.wg.cvs k : Cv).sign op n) }

theorem State.record_of_unfailed {k : Nat} {lanes : Word} (hf : s.wg.qm.fail = false)
    (ht : s.signTrap op k (lanesOf lanes).length = none) :
    let x : Cv := mget {} s.wg.cvs k
    let t := s.setWg (s.signedWg op k (lanesOf lanes).length)
    s.record op k lanes = if x.signed + (lanesOf lanes).length = x.size then t.placeOp op k lanes else t.endMem := by
  intro x t
  let y : Cv := if x.signed = 0 then { x with opnds := op.set, digest := digestOf op.set } else x
  have hy : y.signed = x.signed ∧ y.size = x.size := by
    simp only [y]
    split <;> exact ⟨rfl, rfl⟩
  obtain ⟨hsigned, hsize⟩ := hy
  have hsign : ({ y with signed := y.signed + (lanesOf lanes).length } : Cv) = x.sign op (lanesOf lanes).length := by
    rw [hsigned]
    rfl
  refine (if_neg (Bool.eq_false_iff.mp hf)).trans ?_
  change (match s.signTrap op k (lanesOf lanes).length with
    | some code => s.trap code (lowest lanes)
    | none =>
      let u := s.setWg { s.wg with cvs := mset s.wg.cvs k { y with signed := y.signed + (lanesOf lanes).length } }
      if y.signed + (lanesOf lanes).length = y.size then u.placeOp op k lanes else u.endMem) = _
  rw [ht, hsign, hsigned, hsize]
  rfl

theorem State.endMem_setWg (s : State) (w : Wg) : (s.setWg w).endMem =
    s.setCore { s.core with wgs := mset s.core.wgs s.grp.wgs w, groups := mset s.core.groups s.cur.g s.grp.ended } := by
  rw [State.endMem_eq, State.setGrp, State.core_setWg, State.grp_setWg]
  exact State.setCore_setCore _ _ _

theorem State.setWait_setWg (s : State) (w : Wg) (x : Wait) : (s.setWg w).setWait x =
    s.setCore { s.core with wgs := mset s.core.wgs s.grp.wgs w, groups := mset s.core.groups s.cur.g { s.grp with wait := x } } := by
  rw [State.setWait, State.setGrp, State.core_setWg, State.grp_setWg]
  exact State.setCore_setCore _ _ _

/-- Without room in qm the group waits; the set stays complete. -/
theorem State.placeOp_full {k : Nat} {lanes : Word} (h : 64 ≤ s.wg.qm.outst) :
    s.placeOp op k lanes = s.setWait (.place op k lanes) :=
  if_neg (Nat.not_lt.mpr h)

/-- The convergence register of an operation that is placed: its set begins anew. -/
def Cv.renewed (x : Cv) : Cv := { x with signed := 0, gen := (x.gen + 1) % 2 ^ 32 }

/-- With room in qm the operation stands last in it, and the set begins anew. -/
theorem State.placeOp_room {k : Nat} {lanes : Word} (h : s.wg.qm.outst < 64) : let u := s.placeOp op k lanes
    u.core.engine.queue = s.core.engine.queue ++ [{ op with pos := s.wg.qm.placed }]
    ∧ u.wg = { s.wg with cvs := mset s.wg.cvs k (mget {} s.wg.cvs k : Cv).renewed, qm := s.wg.qm.took }
    ∧ (∀ l ∈ op.lines, l ∈ u.core.absent) ∧ u.core.engine.acc = s.core.engine.acc
    ∧ u.mem = s.mem ∧ u.core.rf = s.core.rf ∧ u.grp = s.grp.ended := by
  intro u
  let w : Wg := { s.wg with cvs := mset s.wg.cvs k (mget {} s.wg.cvs k : Cv).renewed }
  obtain ⟨x, hplace, htook⟩ := s.qmPlace_setWg w op
  have hu : u = (s.setCore x).endMem := (if_pos h).trans (congrArg State.endMem hplace)
  have hgrp : (s.setCore x).grp = s.grp := s.grp_setCore x htook.groups
  have hk : u.core = { x with groups := mset x.groups s.cur.g s.grp.ended } := by
    rw [hu, State.core_endMem, State.core_setCore, hgrp]
    rfl
  refine ⟨?_, ?_, fun l hl => ?_, ?_, ?_, ?_, ?_⟩
  · exact (congrArg (fun k : Core => k.engine.queue) hk).trans htook.queue
  · rw [hu, State.wg_endMem, State.wg, State.core_setCore, hgrp, htook.wgs]
    exact mget_mset_self _ _ _ _
  · rw [hk, htook.absent]
    exact List.mem_append_left _ hl
  · exact (congrArg (fun k : Core => k.engine.acc) hk).trans htook.acc
  · rw [hu]
    rfl
  · exact (congrArg Core.rf hk).trans htook.rf
  · rw [hu, State.grp_endMem, hgrp]

end Sys2Proof.Machine
end

section
/-! PROOF. The matrix instructions sign their operations; status and configuration (14_matrix.md R331 to R345). -/

namespace Sys2Proof.Machine

open Sys2Proof.Safety

section

variable {s : State} {i : Instr} {m : MReg} {cv : BitVec 3} {op : MatOp}

/-! ### Checks in order (R331) -/

theorem and2_intro {p q : Bool} (hp : p = true) (hq : q = true) : (p && q) = true := by rw [hp, hq]; rfl

/-- A check that a flag asks for. -/
theorem orNot_of_imp {b p : Bool} (h : b = true → p = true) : (!b || p) = true := by
  cases b
  case false => rfl
  case true => exact h rfl

theorem firstBad_of_all {cs : List (Bool × Nat × Nat × Nat)} (h : ∀ c ∈ cs, c.1 = true) : firstBad cs = none := by
  induction cs with
  | nil => rfl
  | cons c cs ih =>
    obtain ⟨hc, hcs⟩ := List.forall_mem_cons.mp h
    exact (if_pos hc).trans (ih hcs)

/-- An instruction that signs an operation once its checks pass. -/
theorem signs_of_checks {cs : List (Bool × Nat × Nat × Nat)} {op' : MatOp} (hi : exec i s = .next (s.sign m cv (firstBad cs) op'))
    (hcs : ∀ c ∈ cs, c.1 = true) (hop : op' = op) : Safety.Signs s i m cv op :=
  signs_of_sign (hop ▸ firstBad_of_all hcs ▸ hi)

/-! ### Descriptor registers (Tables 14.3 to 14.5)

Each check of a descriptor's fields follows from the sum of its named fields: a register that is that sum has no other bit. -/

theorem bitsOf_lt (x lo w : Nat) : bitsOf x lo w < 2 ^ w := Nat.mod_lt _ (Nat.two_pow_pos w)

theorem bitsOf_low {x w : Nat} (h : x < 2 ^ w) : bitsOf x 0 w = x := by
  rw [bitsOf, Nat.pow_zero, Nat.div_one, Nat.mod_eq_of_lt h]

/-- Bits between what stands below them and what stands above. -/
theorem bitsOf_gap {v p q : Nat} (a w : Nat) (hp : p < 2 ^ a) (hv : v = p + q * 2 ^ (a + w)) : bitsOf v a w = 0 := by
  rw [bitsOf, hv, Nat.pow_add, ← Nat.mul_assoc, Nat.mul_right_comm, Nat.add_mul_div_right _ _ (Nat.two_pow_pos a),
    Nat.div_eq_of_lt hp, Nat.zero_add]
  exact Nat.mul_mod_left _ _

theorem streamDesc_ok {v0 v1 v2 v3 : Nat} {mx : Bool} (hp : bitsOf v0 0 12 % 16 = 0)
    (hv0 : v0 = bitsOf v0 0 12 + bitsOf v0 16 12 * 2 ^ 16) (hs : mx = true ∨ bitsOf v0 16 12 = 0) (ha : bitsOf v1 0 12 % 16 = 0)
    (hv1 : v1 = bitsOf v1 0 12 + bitsOf v1 16 8 * 2 ^ 16) (hr : 16 ≤ bitsOf v1 16 8) (hr' : bitsOf v1 16 8 ≤ 128)
    (hr16 : bitsOf v1 16 8 % 16 = 0) (har : bitsOf v1 0 12 + bitsOf v1 16 8 ≤ 4096) (hc : v2 % 16 = 0)
    (hcr : v2 + bitsOf v1 16 8 ≤ 128) (hv3 : v3 = 0) :
    (bitsOf v0 0 12 % 16 == 0 && bitsOf v0 12 4 == 0 && decide (v0 < 2 ^ 28) && (mx || bitsOf v0 16 12 == 0)
      && bitsOf v1 0 12 % 16 == 0 && bitsOf v1 12 4 == 0 && decide (v1 < 2 ^ 24) && decide (16 ≤ bitsOf v1 16 8)
      && decide (bitsOf v1 16 8 ≤ 128) && bitsOf v1 16 8 % 16 == 0 && decide (bitsOf v1 0 12 + bitsOf v1 16 8 ≤ 4096)
      && decide (v2 < 2 ^ 7) && bitsOf v2 0 7 % 16 == 0 && decide (bitsOf v2 0 7 + bitsOf v1 16 8 ≤ 128) && v3 == 0) = true := by
  have hgap := bitsOf_gap 12 4 (bitsOf_lt v0 0 12) hv0
  have hgap' := bitsOf_gap 12 4 (bitsOf_lt v1 0 12) hv1
  have hcrow : bitsOf v2 0 7 = v2 := bitsOf_low (by omega)
  have h0 := bitsOf_lt v0 0 12
  have h1 := bitsOf_lt v0 16 12
  have h2 := bitsOf_lt v1 0 12
  simp only [Bool.and_eq_true, Bool.or_eq_true, decide_eq_true_eq, beq_iff_eq, hs, and_true]
  omega

theorem streamSlot_ok {sp mx : Bool} {sl q u : Nat} (h : sp = true → sl + u ≤ 4)
    (h' : sp = true → mx = true → q < sl ∨ sl + u ≤ q) :
    ((!sp || decide (sl + u ≤ 4)) && !(sp && mx && decide (sl ≤ q) && decide (q < sl + u))) = true := by
  cases sp
  case false => rfl
  case true =>
    simp only [forall_const] at h h'
    cases mx
    case false => simpa using h
    case true =>
      have := h' rfl
      simp only [Bool.not_true, Bool.false_or, Bool.true_and, Bool.and_eq_true, decide_eq_true_eq, Bool.not_eq_true',
        Bool.and_eq_false_iff, decide_eq_false_iff_not]
      omega

theorem moveDesc_ok {v : Nat} (hv : v = bitsOf v 0 12 + bitsOf v 16 7 * 2 ^ 16 + bitsOf v 24 8 * 2 ^ 24)
    (hp : bitsOf v 0 12 % 16 = 0) (hr : bitsOf v 16 7 % 16 = 0) (hlo : 16 ≤ bitsOf v 24 8) (hhi : bitsOf v 24 8 ≤ 128)
    (h16 : bitsOf v 24 8 % 16 = 0) (hsum : bitsOf v 16 7 + bitsOf v 24 8 ≤ 128) : maccDescOk v = true := by
  have h0 := bitsOf_lt v 0 12
  have h1 := bitsOf_lt v 16 7
  have hgap : bitsOf v 12 4 = 0 := bitsOf_gap (q := bitsOf v 16 7 + bitsOf v 24 8 * 2 ^ 8) 12 4 h0 (by omega)
  have hgap' : bitsOf v 23 1 = 0 := bitsOf_gap (p := bitsOf v 0 12 + bitsOf v 16 7 * 2 ^ 16) 23 1 (by omega) hv
  simp only [maccDescOk, Bool.and_eq_true, decide_eq_true_eq, beq_iff_eq]
  omega

theorem tileDesc_ok {v0 v1 v2 v3 : Nat} (hv0 : v0 = bitsOf v0 0 5 + bitsOf v0 8 5 * 2 ^ 8 + bitsOf v0 16 5 * 2 ^ 16)
    (hv1 : v1 = bitsOf v1 0 13 + bitsOf v1 16 9 * 2 ^ 16) (hlo : 16 ≤ bitsOf v1 0 13) (hhi : bitsOf v1 0 13 ≤ 4096)
    (h16 : bitsOf v1 0 13 % 16 = 0) (hn : 1 ≤ bitsOf v1 16 9) (hn' : bitsOf v1 16 9 ≤ 256) (hv2 : v2 < 2 ^ 12) (hs : v2 % 16 = 0)
    (hv3 : v3 = 0) : (bitsOf v0 5 3 == 0 && bitsOf v0 13 3 == 0 && decide (v0 < 2 ^ 21) && bitsOf v1 13 3 == 0
      && decide (v1 < 2 ^ 25) && decide (16 ≤ bitsOf v1 0 13) && decide (bitsOf v1 0 13 ≤ 4096) && bitsOf v1 0 13 % 16 == 0
      && decide (1 ≤ bitsOf v1 16 9) && decide (bitsOf v1 16 9 ≤ 256) && decide (v2 < 2 ^ 12) && bitsOf v2 0 12 % 16 == 0
      && v3 == 0) = true := by
  have h0 := bitsOf_lt v0 0 5
  have h1 := bitsOf_lt v0 8 5
  have h2 := bitsOf_lt v0 16 5
  have h3 := bitsOf_lt v1 0 13
  have hgap : bitsOf v0 5 3 = 0 := bitsOf_gap (q := bitsOf v0 8 5 + bitsOf v0 16 5 * 2 ^ 8) 5 3 h0 (by omega)
  have hgap' : bitsOf v0 13 3 = 0 := bitsOf_gap (p := bitsOf v0 0 5 + bitsOf v0 8 5 * 2 ^ 8) 13 3 (by omega) hv0
  have hgap'' := bitsOf_gap 13 3 h3 hv1
  have hstg := bitsOf_low hv2
  simp only [Bool.and_eq_true, decide_eq_true_eq, beq_iff_eq]
  omega

/-! ### Status and configuration (R338, R339) -/

/-- Two registers of each live lane written, and the next word. -/
theorem laneRegs_two (hr : RowsApart s) {j : Nat} (hj : j + 1 < s.wg.n) (f g : Nat → Word) :
    LaneRegs s (((s.writeLanes (s.live m) j f).writeLanes (s.live m) (j + 1) g).advance) (s.grp.pc + 8) (fun l k =>
      if (s.live m).getLsbD l = true ∧ k = j then f l
      else if (s.live m).getLsbD l = true ∧ k = j + 1 then g l else s.lreg l k) := by
  obtain ⟨hfst, hreg, hrf⟩ := writeLanes_law hr (SameBut.refl s) (s.live m) j (by omega) f
  obtain ⟨hsnd, hreg', hrf'⟩ := writeLanes_law hr hfst (s.live m) (j + 1) hj g
  rw [← hsnd.pc]
  refine hsnd.laneRegs _ _ (fun l k hl hk => ?_) fun p hp => (hrf' p hp).trans (hrf p hp)
  rw [hreg' l k hl hk, hreg l k hl hk]
  by_cases hk : k = j
  · have hne : k ≠ j + 1 := by omega
    simp only [hne, and_false, if_false]
  · simp only [hk, and_false, if_false]

/-- Tiles' flags after some of them were cleared. -/
theorem mget_clearTiles (tiles mask n : Nat) (m : NMap Nat) (i : Nat) :
    mget 0 ((List.range n).foldl (fun m t => if tiles.testBit t then mset m t (mget 0 m t &&& mask) else m) m) i =
      if i < n ∧ tiles.testBit i = true then mget 0 m i &&& mask else mget 0 m i := by
  induction n with
  | zero => rfl
  | succ n ih =>
    rw [List.range_succ, List.foldl_append, List.foldl_cons, List.foldl_nil, apply_ite (fun m => mget 0 m i), mget_mset]
    by_cases hi : i = n
    · subst hi
      simp [ih]
    · have hlt : i < n + 1 ↔ i < n := by omega
      simp [ih, hi, hlt]

theorem Engine.flags_clearFlags (e : Engine) (tiles : BitVec 4) (flags : Nat) {i : Nat} (hi : i < 4) :
    mget 0 (e.clearFlags tiles.toNat flags).flags i =
      if tiles.getLsbD i then mget 0 e.flags i &&& (7 - flags) else mget 0 e.flags i := by
  rw [Engine.clearFlags, mget_clearTiles, BitVec.testBit_toNat]
  simp [hi]

/-- What `mcfg` makes of the engine and of qm. -/
def State.mcfgGo (s : State) (tiles : BitVec 4) (fl : BitVec 3) (f : Bool) : State :=
  let t := s.modEngine s.cur.h s.cur.c (fun e => e.clearFlags tiles.toNat fl.toNat)
  if f then t.setWg { t.wg with qm := { t.wg.qm with fail := false, cause := 0, fopc := 0, fstep := 0 } } else t

/-- `mcfg` changes the engine's flags and, with F, the failure of qm, and nothing else of its core. -/
theorem State.mcfgGo_eq (s : State) (tiles : BitVec 4) (fl : BitVec 3) (f : Bool) : ∃ ws,
    s.mcfgGo tiles fl f = s.setCore { s.core with wgs := ws, engine := s.core.engine.clearFlags tiles.toNat fl.toNat }
    ∧ mget {} ws s.grp.wgs = { s.wg with
        qm := if f then { s.wg.qm with fail := false, cause := 0, fopc := 0, fstep := 0 } else s.wg.qm } := by
  cases f
  case false => exact ⟨s.core.wgs, rfl, rfl⟩
  case true =>
    let t := s.setCore { s.core with engine := s.core.engine.clearFlags tiles.toNat fl.toNat }
    have ht : t.wg = s.wg := State.wg_setCore _ _ rfl rfl
    have hgrp : t.grp = s.grp := State.grp_setCore _ _ rfl
    refine ⟨_, ?_, mget_mset_self _ s.core.wgs _ _⟩
    change t.setWg { t.wg with qm := { t.wg.qm with fail := false, cause := 0, fopc := 0, fstep := 0 } } = _
    rw [ht, State.setWg, hgrp, State.core_setCore]
    exact State.setCore_setCore _ _ _

theorem State.mcfgGo_law (s : State) (tiles : BitVec 4) (fl : BitVec 3) (f : Bool) : let u := (s.mcfgGo tiles fl f).advance
    (∀ i, i < 4 → mget 0 u.core.engine.flags i =
      if tiles.getLsbD i then mget 0 s.core.engine.flags i &&& (7 - fl.toNat) else mget 0 s.core.engine.flags i)
    ∧ u.wg.qm = (if f then { s.wg.qm with fail := false, cause := 0, fopc := 0, fstep := 0 } else s.wg.qm)
    ∧ u.core.engine.acc = s.core.engine.acc ∧ u.core.engine.queue = s.core.engine.queue
    ∧ u.mem = s.mem ∧ u.core.rf = s.core.rf ∧ u.grp = { s.grp with pc := s.grp.pc + 8, far := 0 } := by
  obtain ⟨ws, ht, hws⟩ := s.mcfgGo_eq tiles fl f
  intro u
  have hgrp : (s.mcfgGo tiles fl f).grp = s.grp := by
    rw [ht]
    exact State.grp_setCore _ _ rfl
  have hu : u.grp = { s.grp with pc := s.grp.pc + 8, far := 0 } := by rw [grp_advance, hgrp]
  have hcore : u.core = { s.core with
      wgs := ws, engine := s.core.engine.clearFlags tiles.toNat fl.toNat, groups := u.core.groups } := by
    rw [State.core_advance, ht, State.core_setCore]
  refine ⟨fun i hi => by rw [hcore]; exact Engine.flags_clearFlags _ _ _ hi, ?_, by rw [hcore]; rfl, by rw [hcore]; rfl, ?_,
    by rw [hcore], hu⟩
  · rw [State.wg, hcore, hu, hws]
  · change (s.mcfgGo tiles fl f).mem = s.mem
    rw [ht]
    rfl

/-! ### Rows of a record of `mtile` (R331, R344) -/

/-- A record of `mtile` lies in a segment other than seg.peer, so that its bytes fit where they lie within the segment. -/
theorem copyFits_of_mtileRec {r : BufRec} {rd wr : Bool} {size x : Nat} (hr : s.mtileRec r rd wr size = true)
    (hx : x < (s.segOf r.sel).size) : s.copyFits r.sel x = true := by
  have hsel : [1, 2, 6].contains r.sel = true := by
    simp only [State.mtileRec, Bool.and_eq_true] at hr
    exact hr.1.1.1.1.2
  have h4 : r.sel ≠ 4 := by
    rintro h
    rw [h] at hsel
    exact absurd hsel (by decide)
  simp [State.copyFits, hx, h4]

theorem rowPast_none {r : BufRec} {o n : Nat} (h : ∀ q, q < n → s.copyFits r.sel (r.atOff (o + q)) = true) :
    s.rowPast r o n = none := by
  refine List.find?_eq_none.mpr fun x hx => ?_
  obtain ⟨i, hi, rfl⟩ := List.mem_map.mp hx
  have hin := List.mem_range.mp hi
  rw [h (n - 1 - i) (by omega)]
  decide

theorem mtilePast_none {r : BufRec} {rd wr : Bool} {size rows n : Nat} (hr : s.mtileRec r rd wr size = true) (hext : rows ≤ r.extent)
    (hin : ∀ i q, i < rows → q < n → r.atOff (i * r.stride + q) < (s.segOf r.sel).size) : s.mtilePast r rows n = none := by
  refine (if_neg (Nat.not_lt.mpr hext)).trans (List.findSome?_eq_none_iff.mpr fun i hi => ?_)
  exact rowPast_none fun q hq => copyFits_of_mtileRec hr (hin i q (List.mem_range.mp hi) hq)

end

/-- Settles O42: each signing instruction's checks follow from the fields of its descriptor registers; a signature's effect is a
branch of `record`; status and configuration read and write the engine and qm. -/
theorem matrixInstructionsRun : Obligations.MatrixInstructionsRun := by
  intro s m ta tb ty sp mx set f t sl q nt a cv tiles fl v words fits wB wA
  refine ⟨?mldSt, signs_of_sign rfl, signs_of_sign rfl, ?mstream, ?mtile, ?macc, ?record, ?idle, ?unheld, ?status⟩
  case mldSt =>
    intro hpair hlt hmod hfits
    refine signs_of_checks rfl ?_ rfl
    simp only [List.forall_mem_cons]
    refine ⟨hpair, ?_, decide_eq_true hfits, List.forall_mem_nil _⟩
    exact and2_intro (decide_eq_true hlt) (beq_iff_eq.mpr hmod)
  case mstream =>
    intro pline sline arow r crow hcombo hp16 hv0 hsl ha16 hv1 hr hr128 hr16 har hc16 hcr hv3 hspsl hspmx hfits hmx
    refine signs_of_checks rfl ?_ ?_
    · simp only [List.forall_mem_cons]
      refine ⟨hcombo, ?_, decide_eq_true hfits, ?_, List.forall_mem_nil _⟩
      · exact and2_intro (streamDesc_ok hp16 hv0 hsl ha16 hv1 hr hr128 hr16 har hc16 hcr hv3) (streamSlot_ok hspsl hspmx)
      · exact orNot_of_imp fun hm => decide_eq_true (hmx hm)
    · have hcrow : bitsOf crow 0 7 = crow := bitsOf_low (by omega)
      exact congrArg (fun x => ({
         opc := 0x82, steps := r / 16,
         kind := .stream ta tb sp mx t.toNat sl.toNat q.toNat pline sline arow r x,
         set := words (matWord 0x82 0 a cv (0#2 ++ q ++ sl ++ t ++ bit1 mx ++ bit1 sp ++ tb.code ++ ta.code)) 4 } : MatOp)) hcrow
  case mtile =>
    intro ra rb rc mm np stg k R within n1 blocks last ha hb hc hscale hcombo hv0 hv1 hmm hmm' hm16 hnp hnp' hstg hstg16 hv3
      hka hkb hkc hea hec heb hscr hina hinb hinc
    have hlow : bitsOf stg 0 12 = stg := bitsOf_low hstg
    refine signs_of_checks rfl ?_ ?_
    · simp only [List.forall_mem_cons]
      refine ⟨?access, hcombo, ?desc, ?past, ?stage, List.forall_mem_nil _⟩
      case access =>
        refine and2_intro (and2_intro (and2_intro ha hb) hc) (orNot_of_imp fun hm => ?_)
        obtain ⟨-, -, hsa, hsb, -⟩ := hscale hm
        exact and2_intro (Bool.or_eq_true_iff.mpr (.inr hsa)) (Bool.or_eq_true_iff.mpr (.inr hsb))
      case desc =>
        refine and2_intro (and2_intro (and2_intro (and2_intro (and2_intro
          (tileDesc_ok hv0 hv1 hmm hmm' hm16 hnp hnp' hstg hstg16 hv3) (orNot_of_imp fun hm => ?_)) (decide_eq_true hka))
          (decide_eq_true hkb)) (decide_eq_true hkc)) (orNot_of_imp fun hm => ?_)
        · obtain ⟨hra, hrb, -⟩ := hscale hm
          exact and2_intro (decide_eq_true hra) (decide_eq_true hrb)
        · obtain ⟨-, -, -, -, hka', hkb', -⟩ := hscale hm
          exact and2_intro (decide_eq_true hka') (decide_eq_true hkb')
      case past =>
        refine Option.isNone_iff_eq_none.mpr (List.findSome?_eq_none_iff.mpr (List.forall_mem_append.mpr ⟨?_, ?_⟩))
        · simp only [List.forall_mem_cons]
          exact ⟨mtilePast_none ha hea hina, mtilePast_none hc hec hinc, mtilePast_none hb heb hinb, List.forall_mem_nil _⟩
        · by_cases hm : mx = true
          · obtain ⟨-, -, hsa, hsb, -, -, hea', heb', hina', hinb'⟩ := hscale hm
            rw [if_pos hm]
            simp only [List.forall_mem_cons]
            exact ⟨mtilePast_none hsa hea' hina', mtilePast_none hsb heb' hinb', List.forall_mem_nil _⟩
          · rw [if_neg hm]
            exact List.forall_mem_nil _
      case stage => exact decide_eq_true (hlow.symm ▸ hscr)
    · exact congrArg (fun x => ({
         opc := 0x83
         steps := (blocks - 1) * (8 * n1 + np * (9 + 8 * n1) + 8 * n1) + (8 * n1 + np * (9 + last) + last) + 1
         kind := .tile ta tb mx set t.toNat n1 mm np x
         recs := [(0, R ra), (1, R rb), (2, R rc), (3, R (ra + 1)), (4, R (rb + 1))]
         lines := (List.range 640).map (fun i => (s.segOf 2).base / 128 + x + i)
           ++ (if (R rc).sel = 2 then cLines ((s.segOf 2).base + (R rc).base) (R rc).stride mm else [])
         set := words (matWord 0x83 0 a cv (0#3 ++ bit1 set ++ nt ++ t ++ bit1 mx ++ 0#1 ++ tb.code ++ ta.code)) 4 } : MatOp)) hlow
  case macc =>
    intro pline row rows wl hv0 hp hr hrows hrows' hr16 hrr hfits
    have hchecks : ∀ c ∈ [(maccDescOk (v 0), tMatrixDesc, 0, 0),
        (s.tileFits pline (maccWl ty) (rows - 1), tBounds, pline * 128, 0)],
        c.1 = true := by
      simp only [List.forall_mem_cons]
      exact ⟨moveDesc_ok hv0 hp hr hrows hrows' hr16 hrr, decide_eq_true hfits, List.forall_mem_nil _⟩
    exact ⟨signs_of_checks rfl hchecks rfl, signs_of_checks rfl hchecks rfl⟩
  case record =>
    intro op lanes x n y hf h0 hok
    have ht : x.signed + n ≤ x.size → s.signTrap op cv.toNat n = none := fun hle => State.signTrap_none h0 hle hok
    refine ⟨fun hlt => ?_, fun heq hfull => ?_, fun heq hroom => ?_⟩
    · rw [State.record_of_unfailed hf (ht hlt.le), if_neg hlt.ne]
      exact State.endMem_setWg _ _
    · rw [State.record_of_unfailed hf (ht heq.le), if_pos heq, State.placeOp_full (by rw [State.wg_setWg]; exact hfull)]
      exact State.setWait_setWg _ _ _
    · intro u
      have hu : u = _ := (State.record_of_unfailed hf (ht heq.le)).trans (if_pos heq)
      obtain ⟨hqueue, hwg, habs, hacc, hmem, hrf, hgrp⟩ := State.placeOp_room (s := s.setWg (s.signedWg op cv.toNat n)) (op := op)
        (k := cv.toNat) (lanes := lanes) (by rw [State.wg_setWg]; exact hroom)
      rw [← hu] at hqueue hwg habs hacc hmem hrf hgrp
      rw [State.core_setWg] at hqueue hacc hrf
      rw [State.wg_setWg] at hqueue hwg
      refine ⟨hqueue, ?_, by rw [hwg]; rfl, habs, hacc, hmem, hrf, by rw [hgrp, State.grp_setWg]; rfl⟩
      rw [hwg]
      simp only [State.signedWg, mget_mset_self, mset_mset, Cv.renewed, Cv.sign_gen]
      rfl
  case idle =>
    intro he
    simp only [List.forall_mem_cons]
    exact ⟨⟨_, congrArg Host.Outcome.next (if_pos he), rfl⟩, ⟨_, congrArg Host.Outcome.next (if_pos he), rfl⟩,
      List.forall_mem_nil _⟩
  case unheld =>
    intro he hh
    have hno : (!s.wg.holds) = true := by rw [hh]; rfl
    simp only [List.forall_mem_cons]
    exact ⟨congrArg Host.Outcome.next ((if_neg he).trans (if_pos hno)), congrArg Host.Outcome.next ((if_neg he).trans (if_pos hno)),
      List.forall_mem_nil _⟩
  case status =>
    intro he hh qm st
    have hyes : ¬ (!s.wg.holds) = true := by rw [hh]; decide
    refine ⟨fun hr hwf => ⟨_, congrArg Host.Outcome.next ((if_neg he).trans (if_neg hyes)), ?_⟩,
      ⟨_, congrArg Host.Outcome.next ((if_neg he).trans (if_neg hyes)), ?_⟩⟩
    · exact laneRegs_two hr (of_decide_eq_true (and2_right hwf)) _ _
    · exact State.mcfgGo_law s tiles fl f

end Sys2Proof.Machine
end

section
/-! SUPPORT. The commit of a function's checkpoint: the image area in memory, and what leaves the holding tray
(15_traps_preemption.md R368 to R370). -/

namespace Sys2Proof.Machine

/-! ### The image area (R368) -/

theorem mfind_append {α : Type} (m m' : NMap α) (k : Nat) : mfind (m ++ m') k = (mfind m k).or (mfind m' k) := by
  induction m with
  | nil => rfl
  | cons e m ih =>
    rw [List.cons_append, mfind, mfind]
    split
    · rfl
    · exact ih

/-- Entries chosen by their addresses: those of a chosen address are as they were. -/
theorem mfind_filter {α : Type} {p : Nat → Bool} {k : Nat} (hk : p k = true) (m : NMap α) :
    mfind (m.filter (fun e => p e.1)) k = mfind m k := by
  induction m with
  | nil => rfl
  | cons e m ih =>
    rw [List.filter_cons]
    split
    next => rw [mfind, mfind, ih]
    next he => exact ih.trans (if_neg fun h : e.1 = k => he (h ▸ hk)).symm

/-- An area put into memory leaves every byte outside it. -/
theorem memRead_putArea {m cells : Memory} {a n b : Nat} (hc : ∀ e ∈ cells, e.1 < n) (hb : b < a ∨ a + n ≤ b) :
    memRead (putArea m a n cells) b = memRead m b := by
  have hcells : mfind (cells.map (fun e => (a + e.1, e.2))) b = none := mfind_eq_none fun e he => by
    obtain ⟨x, hx, rfl⟩ := List.mem_map.mp he
    have := hc x hx
    change a + x.1 ≠ b
    omega
  have low := mfind_filter (p := fun x => decide (x < a)) (k := b) (m := m)
  have high := mfind_filter (p := fun x => decide (a + n ≤ x)) (k := b) (m := m)
  rw [memRead, memRead, mget, mget, putArea, mfind_append, mfind_append, hcells, Option.or_none]
  rcases hb with hb | hb
  · rw [low (decide_eq_true hb), mfind_eq_none (m := m.filter _) fun e he => ?_, Option.or_none]
    have := of_decide_eq_true (List.mem_filter.mp he).2
    omega
  · rw [high (decide_eq_true hb), mfind_eq_none (m := m.filter _) fun e he => ?_, Option.none_or]
    have := of_decide_eq_true (List.mem_filter.mp he).2
    omega

section

variable {s : State} {f : Nat} {im : Image}

/-- The state with another memory. -/
def State.withMem (s : State) (m : Memory) : State := { s with mem := m }

theorem State.fnAt_withMem (m : Memory) : (s.withMem m).fnAt f = s.fnAt f := rfl

theorem State.writeImage_fits (h1 : s.assigned (s.fnAt f).ck.imgBase = true)
    (h2 : s.assigned ((s.fnAt f).ck.imgBase + im.size - 1) = true) (hw : ∀ e ∈ s.hums, e.2.wins = []) :
    s.writeImage f im = s.withMem (putArea s.mem (s.fnAt f).ck.imgBase im.size im.sheet) := by
  rw [State.writeImage, h1, h2, Bool.true_and, if_pos rfl, State.drainFor_of_wins hw]
  rfl

theorem State.writeImage_unassigned (h : s.assigned (s.fnAt f).ck.imgBase = false) :
    s.writeImage f im = s.logErr 0 3 0 (s.fnAt f).ck.imgBase 0 := by
  rw [State.writeImage, h]
  rfl

theorem State.winsOf_of_wins (hw : ∀ e ∈ s.hums, e.2.wins = []) : s.winsOf f = [] :=
  List.flatMap_eq_nil_iff.mpr fun e he => by rw [hw e he]; rfl

theorem State.setFn_setFn (x y : Fn) : (s.setFn f x).setFn f y = s.setFn f y := by
  rw [State.setFn, State.setFn, mset_mset]
  rfl

theorem State.fnAt_modCk (g : Ckpt → Ckpt) : (s.modCk f g).fnAt f = { s.fnAt f with ck := g (s.fnAt f).ck } :=
  State.fnAt_setFn_self ..

theorem State.modCk_modCk (g g' : Ckpt → Ckpt) : (s.modCk f g).modCk f g' = s.modCk f (fun k => g' (g k)) := by
  rw [State.modCk, State.fnAt_modCk, State.modCk, State.setFn_setFn]
  rfl

theorem State.modCk_congr {g g' : Ckpt → Ckpt} (h : g (s.fnAt f).ck = g' (s.fnAt f).ck) : s.modCk f g = s.modCk f g' := by
  rw [State.modCk, h]
  rfl

/-! ### The holding tray (R369) -/

/-- The card of a tray's entry. -/
def TrayItem.card? : TrayItem → Option Card
  | .card d => some d
  | _ => none

/-- Cards go on their way, after those that are. -/
def State.addCards (s : State) (cs : List Card) : State := { s with cards := s.cards ++ cs }

theorem State.modCk_addCards (g : Ckpt → Ckpt) (cs : List Card) : (s.addCards cs).modCk f g = (s.modCk f g).addCards cs := rfl

theorem State.ck_modCk_addCards (m : Memory) (g : Ckpt → Ckpt) (cs : List Card) :
    ((((s.withMem m).modCk f g).addCards cs).fnAt f).ck = g (s.fnAt f).ck := congrArg Fn.ck (State.fnAt_modCk (s := s.withMem m) g)

/-- Cards leave the tray in their order and do nothing besides. -/
theorem State.releaseItem_cards {items : List TrayItem} (h : ∀ i ∈ items, ∃ d, i = .card d) (s : State) :
    items.foldl (fun t i => t.releaseItem f i) s = s.addCards (items.filterMap TrayItem.card?) := by
  induction items generalizing s with
  | nil => exact congrArg (fun cs => { s with cards := cs }) (List.append_nil _).symm
  | cons i items ih =>
    obtain ⟨⟨d, rfl⟩, hrest⟩ := List.forall_mem_cons.mp h
    rw [List.foldl_cons, ih hrest]
    exact congrArg (fun cs => { s with cards := cs }) (List.append_assoc s.cards [d] _)

theorem State.releaseTray_cards (h : ∀ i ∈ (s.fnAt f).ck.tray, ∃ d, i = .card d) : s.releaseTray f =
    (s.modCk f (fun k => { k with tray := [] })).addCards ((s.fnAt f).ck.tray.filterMap TrayItem.card?) := by
  dsimp only [State.releaseTray]
  rw [State.releaseItem_cards h, State.modCk_addCards, State.modCk_modCk]
  rfl

/-! ### The commit (Table 15.5) -/

/-- The checkpoint state of a function after a commit at a time, whose image is `im`. -/
def Ckpt.committed (k : Ckpt) (im : Image) (now : Nat) : Ckpt :=
  { k with
    logged := [], blocks := [], tray := [], image := some im, seq := k.seq + 1, time := k.instant, instant := now
    state := .run, early := k.early.filter (fun e => decide (now < e)), cardsIn := [] }

theorem Ckpt.committed_of_tray {k : Ckpt} (h : k.tray = []) (im : Image) (now : Nat) : k.committed im now = { k with
    logged := [], blocks := [], image := some im, seq := k.seq + 1, time := k.instant, instant := now
    state := .run, early := k.early.filter (fun e => decide (now < e)), cardsIn := [] } := by
  rw [Ckpt.committed, h]

theorem exec_checkpointCommit_still (h : (s.fnAt f).ck.state ≠ .commit) : exec (.checkpointCommit f) s = .next s :=
  if_neg fun hc => h (eq_of_beq hc)

/-- A commit into an assigned area, where no accumulator pends and the tray holds cards alone. -/
theorem exec_checkpointCommit (hst : (s.fnAt f).ck.state = .commit)
    (h1 : s.assigned (s.fnAt f).ck.imgBase = true)
    (h2 : s.assigned ((s.fnAt f).ck.imgBase + (s.capture f).size - 1) = true) (hw : ∀ e ∈ s.hums, e.2.wins = [])
    (htray : ∀ i ∈ (s.fnAt f).ck.tray, ∃ d, i = .card d) (hm : (s.fnAt f).ck.msgs = []) (hh : (s.fnAt f).ck.heldMsgs = []) :
    exec (.checkpointCommit f) s = .next
      (((s.withMem (putArea s.mem (s.fnAt f).ck.imgBase (s.capture f).size (s.capture f).sheet)).modCk f
        (fun k => k.committed (s.capture f) s.chipTime)).addCards ((s.fnAt f).ck.tray.filterMap TrayItem.card?)) := by
  have hgo : exec (.checkpointCommit f) s = _ := if_pos (beq_iff_eq.mpr hst)
  rw [hgo, State.writeImage_fits h1 h2 hw, State.releaseTray_cards (by rw [State.fnAt_modCk]; exact htray)]
  simp only [State.modCk_addCards, State.modCk_modCk, State.fnAt_modCk, State.fnAt_withMem]
  rw [State.winsOf_of_wins (by exact hw), Ckpt.recorded, hm, hh]
  refine congrArg
    (fun t : State => (.next (t.addCards ((s.fnAt f).ck.tray.filterMap TrayItem.card?)) : Out)) (State.modCk_congr ?_)
  have hwins : (s.capture f).wins = [] := State.winsOf_of_wins hw
  simp only [Ckpt.committed, Ckpt.recorded, hm, hh, List.filter_nil, State.fnAt_withMem]
  rw [← hwins]

end

end Sys2Proof.Machine
end

section
/-! PROOF. The events of checkpoints, restores and chiplets (15_traps_preemption.md R363, R368 to R374; 16_tenants.md R396). -/

namespace Sys2Proof.Machine

open Sys2Proof.Safety

variable {s : State} {f : Nat}

/-! ### Messages between packages (R371) -/

section

variable {seq sender : Nat} {msg : Msg}

theorem exec_crossPackageMessage_own (h : sender = s.pkg.pkgnum) : exec (.crossPackageMessage f seq sender msg) s = .next s :=
  congrArg Host.Outcome.next (if_pos h)

theorem exec_crossPackageMessage (h : sender ≠ s.pkg.pkgnum) :
    exec (.crossPackageMessage f seq sender msg) s = .next (s.takeMsg f seq msg) :=
  congrArg Host.Outcome.next (if_neg h)

/-- Whether a message is of a checkpoint that the function has yet to reach, or the function is out of service. -/
def Ckpt.holds (k : Ckpt) (seq : Nat) : Bool := decide (k.seq < seq) || k.out_ || k.state == .leave

theorem Ckpt.holds_iff (k : Ckpt) (seq : Nat) : k.holds seq = true ↔ k.seq < seq ∨ k.out_ = true ∨ k.state = .leave := by
  simp [Ckpt.holds, or_assoc]

theorem State.takeMsg_eq : s.takeMsg f seq msg =
    if !(s.fnAt f).ck.en then s.deliverMsg f msg
    else if (s.fnAt f).ck.holds seq then s.modCk f (fun k => { k with heldMsgs := k.heldMsgs ++ [(seq, msg)] })
    else if (s.fnAt f).ck.state == .run then s.deliverMsg f msg
    else s.modCk f (fun k => { k with msgs := k.msgs ++ [(k.seq, msg)] }) := rfl

theorem State.takeMsg_delivered (h : (s.fnAt f).ck.en = false
      ∨ (seq ≤ (s.fnAt f).ck.seq ∧ (s.fnAt f).ck.state = .run ∧ (s.fnAt f).ck.out_ = false)) :
    s.takeMsg f seq msg = s.deliverMsg f msg := by
  rw [State.takeMsg_eq]
  rcases h with hen | ⟨hseq, hrun, hout⟩
  · rw [hen]
    rfl
  · have hno : (s.fnAt f).ck.holds seq = false := by simp [Ckpt.holds, hrun, hout, hseq]
    rw [hno, hrun]
    exact ite_self _

theorem State.takeMsg_held (hen : (s.fnAt f).ck.en = true) (h : (s.fnAt f).ck.holds seq = true) :
    s.takeMsg f seq msg = s.modCk f (fun k => { k with heldMsgs := k.heldMsgs ++ [(seq, msg)] }) := by
  rw [State.takeMsg_eq, hen, h]
  rfl

theorem State.takeMsg_recorded (hen : (s.fnAt f).ck.en = true) (h : (s.fnAt f).ck.holds seq = false)
    (hrun : (s.fnAt f).ck.state ≠ .run) :
    s.takeMsg f seq msg = s.modCk f (fun k => { k with msgs := k.msgs ++ [(k.seq, msg)] }) := by
  rw [State.takeMsg_eq, hen, h, beq_false_of_ne hrun]
  rfl

end

/-! ### What a message does where it arrives (R371, R380) -/

theorem State.enterLine_congr {a : Nat} {g g' : State → State} (h : g s = g' s) : s.enterLine f a g = s.enterLine f a g' := by
  unfold State.enterLine State.enter
  split
  · rw [h]
  · exact h

theorem State.linePoison_l2At (t : Tlb) (a line : Nat) (w : Bool) : (s.l2At f t a w).linePoison line = s.linePoison line := by
  obtain ⟨x, hx⟩ := s.l2Touch_eq f (s.homeOf t a) t.sp (a / 128) w
  rw [State.l2At, hx]
  rfl

theorem State.deliverMsg_poisoned {op : AOp} {ty : Ty} {a v : Nat} (h : s.linePoison (a / 128) = true) :
    s.deliverMsg f (.red op ty none a v) = s.enterLine f a (fun u => (u.l2At f {} a true).logErr f 13 0 a 0) :=
  State.enterLine_congr (if_pos ((State.linePoison_l2At ..).trans h))

theorem State.deliverMsg_lostSlot {l j ch : Nat} {ws : List Word} (h : s.findWg l j = none) :
    s.deliverMsg f (.slot l j ch ws) = s := by
  rw [State.deliverMsg, h]

/-! ### The instant and the drain (Table 15.5) -/

theorem waitEnds_checkpointInstant (f : Nat) (s : State) :
    let k := (s.fnAt f).ck
    let reg := s.nextInstant k k.instant
    let due := match k.early with
      | some e => min e reg
      | none => reg
    WaitEnds (.checkpointInstant f) s (f != 0 && k.en && !k.out_ && k.state == .run && decide (due ≤ s.chipTime))
      (s.modCk f (fun k => { k with state := .drain, instant := due })) := by
  intro k reg due
  have hexec : exec (.checkpointInstant f) s = if (f ≠ 0 && k.en && !k.out_ && k.state == .run) = true then
      match if due ≤ s.chipTime then some due else none with
      | some t => .next (s.modCk f (fun k => { k with state := .drain, instant := t }))
      | none => .next s
    else .next s := rfl
  refine waitEnds_of_choice (hexec.trans ?_)
  by_cases hd : due ≤ s.chipTime
  · rw [if_pos hd, decide_eq_true hd, Bool.and_true]
    simp
  · rw [if_neg hd, decide_eq_false hd, Bool.and_false]
    exact ite_self _

/-! ### Pre-emption (R373) -/

section

variable {vf : Nat}

theorem exec_prego_refused (h : (s.fnAt vf).ck.en = false ∨ vf = 0) :
    exec (.prego vf) s = .next { s with pkg := { s.pkg with refused := true } } :=
  congrArg Host.Outcome.next (if_pos (by simpa using h))

theorem exec_prego (hen : (s.fnAt vf).ck.en = true) (hvf : vf ≠ 0) : exec (.prego vf) s = .next
    (if (s.fnAt vf).ck.out_ then s else s.modCk vf (fun y => { y with state := .leave })) :=
  congrArg Host.Outcome.next (if_neg (by simpa [hen] using hvf))

theorem State.out_preempt (s : State) (vf : Nat) : ((s.preempt vf).fnAt vf).ck.out_ = true :=
  congrArg (fun x : Fn => x.ck.out_) (State.fnAt_modCk _)

theorem State.preemptDone_leave (h : (s.fnAt vf).ck.state = .leave) :
    s.preemptDone vf = s.preempt vf ∧ ((s.preemptDone vf).fnAt vf).ck.out_ = true := by
  have hgo : s.preemptDone vf = s.preempt vf := if_pos (beq_iff_eq.mpr h)
  exact ⟨hgo, hgo ▸ s.out_preempt vf⟩

theorem State.preemptDone_still (h : (s.fnAt vf).ck.state ≠ .leave) : s.preemptDone vf = s := if_neg fun hc => h (eq_of_beq hc)

end

/-! ### Restores (R396) -/

theorem State.restoreFail_rstStat (g stat status : Nat) : ((s.restoreFail f g stat status).fnAt f).rstStat = stat :=
  congrArg Fn.rstStat (State.fnAt_setFn_self ..)

theorem exec_rstgo_still (h : (s.fnAt f).rstStat = 1 ∨ s.hasWork f = true) : exec (.rstgo f) s = .next s :=
  congrArg Host.Outcome.next (if_pos (by simpa using h))

section

variable (h1 : (s.fnAt f).rstStat ≠ 1) (hw : s.hasWork f = false)

include h1 hw

theorem exec_rstgo : exec (.rstgo f) s = .next (match s.imageOwner f (s.fnAt f).rstBase with
    | some g => s.restoreFrom f g
    | none => match s.imageRead f (s.fnAt f).rstBase with
      | none => s.setFn f { s.fnAt f with rstStat := 3 }
      | some im => (s.modCk f (fun k => { k with image := some im })).restoreFrom f f) :=
  congrArg Host.Outcome.next (if_neg (by simpa [hw] using h1))

theorem exec_rstgo_unowned (ho : s.imageOwner f (s.fnAt f).rstBase = none) :
    exec (.rstgo f) s = .next (match s.imageRead f (s.fnAt f).rstBase with
      | none => s.setFn f { s.fnAt f with rstStat := 3 }
      | some im => (s.modCk f (fun k => { k with image := some im })).restoreFrom f f) := by
  rw [exec_rstgo h1 hw, ho]

theorem exec_rstgo_owned {g : Nat} (ho : s.imageOwner f (s.fnAt f).rstBase = some g) :
    exec (.rstgo f) s = .next (s.restoreFrom f g) := by
  rw [exec_rstgo h1 hw, ho]

end

theorem State.restoreFrom_shapeless {g : Nat} (h : s.shape f ((s.fnAt g).ck.image.getD {}) = none) :
    s.restoreFrom f g = s.restoreFail f g 3 12 := by
  dsimp only [State.restoreFrom]
  rw [h]

theorem State.restoreFrom_shaped {g : Nat} (h : (s.shape f ((s.fnAt g).ck.image.getD {})).isSome = true) :
    s.restoreFrom f g = if s.areasFit f ((s.fnAt g).ck.image.getD {})
      then s.setFn f { s.fnAt f with rstStat := 1, rstFrom := g, rstWaits := [], rstFail := false }
      else s.restoreFail f g 4 13 := by
  obtain ⟨hm, hs⟩ := Option.isSome_iff_exists.mp h
  dsimp only [State.restoreFrom]
  rw [hs]

theorem exec_restoreDone_idle (h1 : (s.fnAt f).rstStat ≠ 1) : exec (.restoreDone f) s = .next s := if_pos h1

section

variable (h1 : (s.fnAt f).rstStat = 1)

include h1

theorem exec_restoreDone_failed (hf : (s.fnAt f).rstFail = true) :
    exec (.restoreDone f) s = .next (s.restoreFail f (s.fnAt f).rstFrom 4 13) :=
  (if_neg (not_not_intro h1)).trans (if_pos hf)

theorem exec_restoreDone (hf : (s.fnAt f).rstFail = false) :
    let x := s.fnAt f
    let im := (s.fnAt x.rstFrom).ck.image.getD {}
    let r := s.reside 0 f 0 im.ranges x.rstWaits
    exec (.restoreDone f) s = if r.ok then
        match r.s.shape f im with
        | none => .next (r.s.restoreFail f x.rstFrom 3 12)
        | some hm =>
          if !(r.s.coresOpen f im (r.s.coreMap f im hm)) then .next r.s
          else
            let u := r.s.setFn f { r.s.fnAt f with rstStat := 2, rstWaits := [] }
            .next ((if x.rstFrom = f then u
              else u.modCk x.rstFrom (fun k => { k with out_ := false, image := some {} })).writeBack f im hm)
      else .next (r.s.setFn f { r.s.fnAt f with rstWaits := r.waits }) :=
  (if_neg (not_not_intro h1)).trans (if_neg (Bool.eq_false_iff.mp hf))

end

/-! ### Chiplets (R374) -/

theorem coreKey_inj {h c c' : Nat} (hk : coreKey h c = coreKey h c') : c = c' := Nat.add_left_cancel hk

/-- Each core of a list is changed once, from what it held before. -/
theorem State.coreAt_foldl_setCoreAt (F : Nat → Core → Core) (h a : Nat) (cs : List Nat) (s : State) (hnd : cs.Nodup) :
    (cs.foldl (fun t c => t.setCoreAt h c (F c (t.coreAt h c))) s).coreAt h a
      = if a ∈ cs then F a (s.coreAt h a) else s.coreAt h a := by
  induction cs generalizing s with
  | nil => rfl
  | cons c cs ih =>
    obtain ⟨hnot, hnd⟩ := List.nodup_cons.mp hnd
    rw [List.foldl_cons, ih _ hnd, State.coreAt_setCoreAt]
    by_cases hac : a = c
    · subst hac
      rw [if_neg hnot, if_pos rfl, if_pos List.mem_cons_self]
    · rw [if_neg fun hk => hac (coreKey_inj hk)]
      simp only [List.mem_cons, hac, false_or]

theorem State.coreAt_isolateCores (old : State) {h i : Nat} (hi : i < 64) :
    (s.isolateCores old h).coreAt h i = (s.coreAt h i).isolate (old.coreAt h i) :=
  (State.coreAt_foldl_setCoreAt (fun c k => k.isolate (old.coreAt h c)) h i (List.range 64) s List.nodup_range).trans
    (if_pos (List.mem_range.mpr hi))

/-- A core that is isolated keeps its registers, scratchpad and groups for diagnosis. -/
def Isolated (k old : Core) : Prop :=
  k.status = .fenced ∧ k.rf = old.rf ∧ k.scratch = old.scratch ∧ k.groups = old.groups

theorem Core.isolate_isolated (k old : Core) : Isolated (k.isolate old) old := ⟨rfl, rfl, rfl, rfl⟩

theorem State.chipletOut_isolated (s : State) {h i : Nat} (st : Chiplet) (hi : i < 64) :
    Isolated ((s.chipletOut h st).coreAt h i) (s.coreAt h i) := by
  rw [State.chipletOut, State.coreAt_isolateCores s hi]
  exact Core.isolate_isolated ..

theorem exec_chiplet_none {h : Nat} (hh : 8 ≤ h) :
    ∀ i ∈ [Instr.chipletReset h, .chipletFence h, .chipletDrop h], exec i s = .next s := by
  have hno : ∀ t : State, (.next (if h < 8 then t else s) : Out) = .next s := fun t =>
    congrArg Host.Outcome.next (if_neg (Nat.not_lt.mpr hh))
  intro i hi
  simp only [List.mem_cons, List.not_mem_nil, or_false] at hi
  rcases hi with rfl | rfl | rfl
  · exact hno _
  · exact hno _
  · exact hno _

/-! ### A halted workgroup (R363) -/

section

variable {h c w : Nat}

theorem exec_rsgo_none (hw : mfind (s.coreAt h c).wgs w = none) : exec (.rsgo h c w) s = .next s := by
  change (.next (s.resumeWg h c w) : Out) = _
  rw [State.resumeWg, hw]

theorem exec_rsgo_some {g : Wg} (hw : mfind (s.coreAt h c).wgs w = some g) :
    let y := s.coreAt h c
    let u := s.setCoreAt h c { y with wgs := mset y.wgs w { g with stopped := false, halting := 0 } }
    exec (.rsgo h c w) s = .next (if g.stopped then
      if g.halting = 0 || (mfind y.groups (g.halting - 1)).isNone then u
      else ((u.at_ { h := h, c := c, g := g.halting - 1 }).trapReturn false).at_ s.cur
    else s) := by
  change (.next (s.resumeWg h c w) : Out) = _
  rw [State.resumeWg, hw]
  rfl

end

/-- Settles O50: each event is a branch of what its unit does; a commit of no more than cards leaves the instant's image alone in its
area, a failed restore writes its status last, and every core of an isolated chiplet is set once from what it held. -/
theorem checkpointAndChipletEventsAct : Obligations.CheckpointAndChipletEventsAct := by
  intro s f seq sender vf id h act cause c w msg x k now
  refine ⟨exec_crossPackageMessage_own, fun hne hk => ?_, fun hne hen hk => ?_, fun hne hen hseq hout hrun hleave => ?_,
    fun a n v => rfl, fun op ty a v => State.deliverMsg_poisoned, fun l j ch ws => State.deliverMsg_lostSlot,
    fun l a i args => rfl, fun a j g => rfl, waitEnds_checkpointInstant f s, waitEnds_of_choice rfl,
    exec_checkpointCommit_still, ?commit, exec_prego_refused, ?again, ?leaves, State.preemptDone_leave, State.preemptDone_still, rfl,
    exec_rstgo_still, ?rstgo, exec_restoreDone_idle,
    fun h1 hf => ⟨_, exec_restoreDone_failed h1 hf, rfl, State.restoreFail_rstStat ..⟩, ?done,
    exec_chiplet_none, ?chiplet, rfl, ?act, ⟨exec_rsgo_none, ?rsgo⟩⟩
  · rw [exec_crossPackageMessage hne, State.takeMsg_delivered hk]
  · rw [exec_crossPackageMessage hne, State.takeMsg_held hen ((Ckpt.holds_iff ..).mpr hk)]
    rfl
  · have hno : k.holds seq = false := by simp [Ckpt.holds, hseq, hout, hleave]
    rw [exec_crossPackageMessage hne, State.takeMsg_recorded hen hno hrun]
    rfl
  case again => exact fun hen hvf hout => (exec_prego hen hvf).trans (congrArg Host.Outcome.next (if_pos hout))
  case leaves =>
    exact fun hen hvf hout => (exec_prego hen hvf).trans (congrArg Host.Outcome.next (if_neg (Bool.eq_false_iff.mp hout)))
  case commit =>
    intro im fits
    refine ⟨fun hst ⟨h1, h2, hw⟩ ht hm hh => ?_, fun hst ⟨h1, h2, hw⟩ ht hm hh => ?_, fun ⟨h1, h2, hw⟩ b hb => ?_,
      State.writeImage_unassigned⟩
    · exact ⟨_, exec_checkpointCommit hst h1 h2 hw (by rw [ht]; exact fun i hi => absurd hi List.not_mem_nil) hm hh,
        (State.ck_modCk_addCards ..).trans (Ckpt.committed_of_tray ht ..), rfl, rfl, rfl, rfl⟩
    · exact ⟨_, exec_checkpointCommit hst h1 h2 hw ht hm hh, congrArg Ckpt.tray (State.ck_modCk_addCards ..), rfl, rfl⟩
    · rw [State.writeImage_fits h1 h2 hw]
      exact memRead_putArea (fun e he => ((cellsIn_areaOf _).2 e he).2.1) hb
  case rstgo =>
    refine fun h1 hw => ⟨exec_rstgo_unowned h1 hw, fun g ho => ⟨fun hs => ?_, fun hs ha => ?_, fun hs ha => ?_⟩⟩
    · exact ⟨_, exec_rstgo_owned h1 hw ho, State.restoreFrom_shapeless hs, by
        rw [State.restoreFrom_shapeless hs, State.restoreFail_rstStat]⟩
    · have hfail : s.restoreFrom f g = s.restoreFail f g 4 13 :=
        (State.restoreFrom_shaped hs).trans (if_neg (Bool.eq_false_iff.mp ha))
      exact ⟨_, exec_rstgo_owned h1 hw ho, hfail, by rw [hfail, State.restoreFail_rstStat]⟩
    · rw [exec_rstgo_owned h1 hw ho, State.restoreFrom_shaped hs]
      exact congrArg Host.Outcome.next (if_pos ha)
  case done =>
    intro h1 hf im r
    have hexec := exec_restoreDone h1 hf
    refine ⟨fun hok => hexec.trans (if_neg (Bool.eq_false_iff.mp hok)), fun hok hs => ?_, fun hm hok hs => ?_⟩
    · exact (hexec.trans (if_pos hok)).trans (by rw [hs])
    · replace hexec := hexec.trans (if_pos hok)
      rw [hs] at hexec
      exact ⟨fun ho => hexec.trans (if_pos (by rw [ho]; rfl)), fun ho => hexec.trans (if_neg (by rw [ho]; decide))⟩
  case chiplet =>
    have hcores := fun (st : Chiplet) i (hi : i < 64) => s.chipletOut_isolated (h := h) st hi
    have hgo := fun (hh : h < 8) (t : State) => (congrArg Host.Outcome.next (if_pos hh) : (.next (if h < 8 then t else s) : Out) = .next t)
    exact fun hh => ⟨hgo hh _, ⟨_, hgo hh _, rfl, hcores .fenced⟩, ⟨_, hgo hh _, rfl, hcores .dropped⟩⟩
  case act => exact fun hh => ⟨if_pos hh, if_pos hh, if_pos hh⟩
  case rsgo =>
    intro g hg u
    have hexec := exec_rsgo_some hg
    refine ⟨fun hs => ?_, fun hs hn => ?_, fun hs hn hgr => ?_⟩
    · rw [hexec, hs]
      rfl
    · rw [hexec, if_pos hs, if_pos (by simpa using hn)]
    · rw [hexec, if_pos hs, if_neg (by simpa [hn] using Option.isSome_iff_ne_none.mp hgr)]

end Sys2Proof.Machine
end
